-- ==== Sys2Proof/Word.lean ====
section
/-! DEFINITION. The word types of the Orlia Nerost (R3, R78, R145, R288) and their plainest arithmetic. -/

namespace Sys2Proof

/-- A byte of memory. -/
abbrev Byte := BitVec 8
/-- A 32-bit lane, configuration word or sequencer word. -/
abbrev Word := BitVec 32
/-- A 64-bit sequencer register (R288). -/
abbrev DWord := BitVec 64
/-- The 256 payload bits of a beat (R78). -/
abbrev Payload := BitVec 256

/-- A sparse table: key and value pairs, keys strictly rising (Machine/Ops.lean keeps that form). -/
abbrev AMap (α : Type) := List (Nat × α)

end Sys2Proof
end

