-- ==== Sys2Proof/Syntax.lean ====
section
/-! DEFINITION. Syntax whole: one constructor of Instr for each row of the opcode table, and the operand types they carry.
The node word is that of R151 less its opcode, the command beat that of R249, the SPB that of R58 to R66; the events take
the operands that say to which unit, register or request the step happens. -/

namespace Sys2Proof

/-- A format code (Table 7-1). -/
inductive Fmt where
  | raw | i8 | i16 | i32 | n16 | n32 | fp32 | bf16 | fp16 | e4m3 | e5m2 | e4m3q | e2m1q | i4q | osd | crd
  deriving DecidableEq, Repr, Inhabited

/-- A rounding mode (Table 7-3). -/
inductive Rnd where
  | rne | rz | rd | ru
  deriving DecidableEq, Repr, Inhabited

/-- A source code of the node word (R151). -/
inductive Src where
  | a | b | c | d | lreg | imm | bank | none
  deriving DecidableEq, Repr, Inhabited

/-- The node word of Table 8-3 without its opcode, which is the constructor of Instr. -/
structure NodeWord where
  fmt : Fmt
  rnd : Rnd
  sat : Bool
  srcA : Src
  srcB : Src
  srcC : Src
  dx : Bool
  dy : Bool
  dl : Bool
  la : BitVec 3
  ld : BitVec 3
  aux : BitVec 6
  imm : BitVec 32
  deriving DecidableEq, Repr, Inhabited

/-- The SPB header of Table 4-2. KIND, and WR of LIN, are the constructor; `rsv` holds the reserved bits: byte 1 [0],
byte 2 [7:6], byte 3 [7], byte 3 [3:2], byte 9 [7:3], bytes 10-11 [15:14], from bit 12 down. -/
structure SpbHead where
  fmt : Fmt
  evt : Bool
  wr : Bool
  lastArg : Bool
  r2port : BitVec 2
  dport : BitVec 2
  rport : BitVec 2
  r2en : Bool
  rctx : BitVec 2
  rin : BitVec 2
  rdx : BitVec 16
  rdy : BitVec 16
  etag : BitVec 8
  scope : BitVec 3
  tagb : BitVec 14
  count : BitVec 32
  rsv : BitVec 13
  deriving DecidableEq, Repr, Inhabited

/-- The LIN body (Table 4-4); rsv is bytes 56-63. -/
structure LinBody where
  base : BitVec 64
  e0 : BitVec 32
  s0 : BitVec 32
  e1 : BitVec 32
  s1 : BitVec 32
  e2 : BitVec 32
  s2 : BitVec 32
  e3 : BitVec 32
  s3 : BitVec 32
  rsv : BitVec 64
  deriving DecidableEq, Repr, Inhabited

/-- The GATH and SCAT body (Table 4-5); rsv is bytes 54-55. -/
structure GathBody where
  base : BitVec 64
  iva : BitVec 64
  mid : BitVec 64
  ilimit : BitVec 32
  estride : BitVec 32
  elen : BitVec 32
  depth : BitVec 8
  isrc : BitVec 8
  rsv : BitVec 16
  nidx : BitVec 32
  mlimit : BitVec 32
  deriving DecidableEq, Repr, Inhabited

/-- The COPY body (R62); rsv is bytes 40-63. -/
structure CopyBody where
  sva : BitVec 64
  dva : BitVec 64
  len : BitVec 64
  rsv : BitVec 192
  deriving DecidableEq, Repr, Inhabited

/-- The FIB body (R63); rsv1 is bytes 41-43, rsv2 the reserved bits of byte 52 ([7:6] above [3:2]), rsv3 bytes 53-63. -/
structure FibBody where
  segva : BitVec 64
  crdva : BitVec 64
  p0 : BitVec 32
  p1 : BitVec 32
  isrc : BitVec 8
  rsv1 : BitVec 24
  climit : BitVec 32
  r2dx : BitVec 16
  r2dy : BitVec 16
  r2in : BitVec 2
  r2ctx : BitVec 2
  rsv2 : BitVec 4
  rsv3 : BitVec 88
  deriving DecidableEq, Repr, Inhabited

/-- The HASH body (R64); rsv is bytes 41-63. -/
structure HashBody where
  sva : BitVec 64
  dva : BitVec 64
  len : BitVec 64
  dctx : BitVec 8
  rsv : BitVec 184
  deriving DecidableEq, Repr, Inhabited

/-- FLUSH has no body: bytes 16-63 are reserved (R59). -/
structure FlushBody where
  rsv : BitVec 384
  deriving DecidableEq, Repr, Inhabited

/-- The PREF body (R66); rsv is bytes 32-63. -/
structure PrefBody where
  va : BitVec 64
  len : BitVec 64
  rsv : BitVec 256
  deriving DecidableEq, Repr, Inhabited

/-- The matrix command beat of Table 12-3 without CODE, which is the constructor. -/
structure MCmd where
  pmask : BitVec 4
  oport : BitVec 2
  bank : BitVec 2
  row0 : BitVec 6
  nrow : BitVec 7
  z : Bool
  tagb : BitVec 14
  fa : Fmt
  fb : Fmt
  fd : Fmt
  rnd : Rnd
  sat : Bool
  eswap : Bool
  mon : Bool
  mthr : BitVec 4
  rsv : BitVec 191
  deriving DecidableEq, Repr, Inhabited

/-- A signed position offset from a region origin (R2). -/
structure Offset where
  dx : Int
  dy : Int
  deriving DecidableEq, Repr, Inhabited

/-- A position in device coordinates (R329). -/
structure Pos where
  x : Nat
  y : Nat
  deriving DecidableEq, Repr, Inhabited

/-- A sequencer context: partition and context number n (R283). -/
structure SeqId where
  part : Nat
  n : Nat
  deriving DecidableEq, Repr, Inhabited

/-- A region: the section of a sequencer context that holds it (R287). -/
structure RegId where
  seq : SeqId
  sect : Nat
  deriving DecidableEq, Repr, Inhabited

/-- A cell context or hard block of a region, at its offset (R2, R108). -/
structure UnitId where
  reg : RegId
  off : Offset
  ctx : Nat
  deriving DecidableEq, Repr, Inhabited

/-- One end of a Slaundene circuit of a section (R96, R388), which the loader takes from the image's link lines and no configuration
word holds: the port, the circuit number, the position where the track meets the port, the share b, and a word laid out as an output
field. Outgoing: its TRACK is the segment departing to the port. Incoming: it is the field of the producer in the other module, its
TRACK the first segment here. -/
structure FarEnd where
  out : Bool
  port : Nat
  circ : Nat
  off : Offset
  share : Nat
  word : Nat
  deriving DecidableEq, Repr, Inhabited

/-- A Slaundene flit of R386 as it arrives: TYPE, ID, SEQ and the 36 bytes of BODY. -/
structure LinkFlit where
  typ : BitVec 4
  id : BitVec 12
  seq : BitVec 16
  body : BitVec 288
  deriving DecidableEq, Repr, Inhabited

/-- A remote module's request at a port (R386, R387): target address, TDN, request tag, length, access kind and data. -/
structure RemoteReq where
  die : Nat
  addr : Nat
  tdn : Nat
  tag : BitVec 12
  len : Nat
  write : Option (List Byte)
  /-- The data of the write carry the link's poison (R360). -/
  poison : Bool := false
  /-- A SAMO: op, operand and comparand (R293). -/
  amo : Option (Nat × Nat × Nat) := none
  deriving DecidableEq, Repr, Inhabited

/-- What the host does with memory: CXL.mem reads of n bytes and writes of bytes in device DRAM (R383), and what R278 and R114 give it
beside. -/
inductive HostAccess where
  | read (n : Nat)
  /-- Bytes, or with the port's poison (R360). -/
  | write (bs : List Byte) (poison : Bool := false)
  /-- A read through the host's cache, of n bytes of one line; the host keeps the line. -/
  | load (n : Nat)
  /-- The host's copy of the line is gone. -/
  | drop
  /-- A store to host memory, at a host physical address. -/
  | own (bs : List Byte)
  /-- Through a window on the bank of a cell, at a bank byte: n bytes read, or bytes written. -/
  | bankRead (p : Pos) (n : Nat)
  | bankWrite (p : Pos) (bs : List Byte)
  deriving DecidableEq, Repr, Inhabited

/-- Where a soft error strikes (R360), and whether it can be corrected. -/
inductive SoftErr where
  | corrected (part : Nat)
  | beatPayload (r : RegId) (link : Nat) (k : Nat)
  | beatSideband (r : RegId) (link : Nat) (k : Nat)
  | bankWord (r : RegId) (off : Offset) (word : Nat)
  | dramWord (word : Nat)
  | planeField (r : RegId) (off : Offset)
  deriving DecidableEq, Repr, Inhabited

/-- The firmware that a reset finds (R380, R381): its image, its configuration, its signature and its security version. -/
structure Firmware where
  image : List Byte
  config : List Byte
  sig : List Byte
  version : BitVec 16
  deriving DecidableEq, Repr, Inhabited

/-- Flint's choice for one transition of a registered node (R318, R324): the node, the position and context of its new copy or
fold target, and the routes of the links that the plan lays, each as its departing segments in order. The choice is not
architectural. -/
structure CommitPlan where
  nid : Nat
  off : Offset
  ctx : Nat
  routes : List (List (Offset × Nat)) := []
  deriving DecidableEq, Repr, Inhabited

/-- The operations and events of the device: one constructor for each row of the opcode table. -/
inductive Instr where
  /-- SETC (R146). -/
  | setc (x : BitVec 14) (y : BitVec 14)
  /-- MOVC (R146). -/
  | movc (x : BitVec 14) (y : BitVec 14)
  /-- AUTOX (R146). -/
  | autox (x : BitVec 14) (y : BitVec 14)
  /-- RECT (R146). -/
  | rect (x : BitVec 14) (y : BitVec 14)
  /-- VERS (R147). -/
  | vers (s : BitVec 14) (v : BitVec 14)
  /-- ENDS (R149). -/
  | ends (c : BitVec 28)
  /-- HARD (R146). -/
  | hard (x : BitVec 14) (y : BitVec 14)
  /-- WRITE (R148). -/
  | write (f : BitVec 7) (v : BitVec 24)
  /-- LOCAL_REGISTER_COMMIT (R111). -/
  | localRegisterCommit (v : BitVec 24)
  /-- BANK_INIT_COMMIT (R161). -/
  | bankInitCommit (v : BitVec 24)
  /-- TILE_PRELOAD (R161). -/
  | tilePreload (v : BitVec 24)
  /-- IADD (R178). -/
  | iadd (w : NodeWord)
  /-- ISUB (R178). -/
  | isub (w : NodeWord)
  /-- IMUL (R178). -/
  | imul (w : NodeWord)
  /-- IMULH (R178). -/
  | imulh (w : NodeWord)
  /-- IMAD (R178). -/
  | imad (w : NodeWord)
  /-- INEG (R178). -/
  | ineg (w : NodeWord)
  /-- IABS (R178). -/
  | iabs (w : NodeWord)
  /-- IMIN (R178). -/
  | imin (w : NodeWord)
  /-- IMAX (R178). -/
  | imax (w : NodeWord)
  /-- ICMP (R180). -/
  | icmp (w : NodeWord)
  /-- AND (R178). -/
  | and (w : NodeWord)
  /-- OR (R178). -/
  | or (w : NodeWord)
  /-- XOR (R178). -/
  | xor (w : NodeWord)
  /-- ANDN (R178). -/
  | andn (w : NodeWord)
  /-- NOT (R178). -/
  | not (w : NodeWord)
  /-- SHL (R178). -/
  | shl (w : NodeWord)
  /-- SHR (R178). -/
  | shr (w : NodeWord)
  /-- SAR (R178). -/
  | sar (w : NodeWord)
  /-- ROTL (R178). -/
  | rotl (w : NodeWord)
  /-- CLZ (R178). -/
  | clz (w : NodeWord)
  /-- POPC (R178). -/
  | popc (w : NodeWord)
  /-- SEL (R178). -/
  | sel (w : NodeWord)
  /-- FADD (R182). -/
  | fadd (w : NodeWord)
  /-- FSUB (R182). -/
  | fsub (w : NodeWord)
  /-- FMUL (R182). -/
  | fmul (w : NodeWord)
  /-- FFMA (R182). -/
  | ffma (w : NodeWord)
  /-- FNEG (R183). -/
  | fneg (w : NodeWord)
  /-- FABS (R183). -/
  | fabs (w : NodeWord)
  /-- FMIN (R183). -/
  | fmin (w : NodeWord)
  /-- FMAX (R183). -/
  | fmax (w : NodeWord)
  /-- FCMP (R180). -/
  | fcmp (w : NodeWord)
  /-- FRCP (R182). -/
  | frcp (w : NodeWord)
  /-- FRSQ (R182). -/
  | frsq (w : NodeWord)
  /-- FSQRT (R182). -/
  | fsqrt (w : NodeWord)
  /-- FEXP2 (R182). -/
  | fexp2 (w : NodeWord)
  /-- FLOG2 (R182). -/
  | flog2 (w : NodeWord)
  /-- FSCALE (R182). -/
  | fscale (w : NodeWord)
  /-- CVT (R185). -/
  | cvt (w : NodeWord)
  /-- QPACK (R186). -/
  | qpack (w : NodeWord)
  /-- QUNPK (R187). -/
  | qunpk (w : NodeWord)
  /-- BCAST (R188). -/
  | bcast (w : NodeWord)
  /-- SHUF (R188). -/
  | shuf (w : NodeWord)
  /-- SLIDE (R188). -/
  | slide (w : NodeWord)
  /-- PACK (R188). -/
  | pack (w : NodeWord)
  /-- UNPACK (R188). -/
  | unpack (w : NodeWord)
  /-- LANEID (R188). -/
  | laneid (w : NodeWord)
  /-- HSUM (R189). -/
  | hsum (w : NodeWord)
  /-- HMAX (R189). -/
  | hmax (w : NodeWord)
  /-- HMIN (R189). -/
  | hmin (w : NodeWord)
  /-- ACC (R190). -/
  | acc (w : NodeWord)
  /-- ACCMAX (R190). -/
  | accmax (w : NodeWord)
  /-- PSCAN (R191). -/
  | pscan (w : NodeWord)
  /-- COUNT (R190). -/
  | count (w : NodeWord)
  /-- STEER (R199). -/
  | steer (w : NodeWord)
  /-- FORK (R199). -/
  | fork (w : NodeWord)
  /-- MERGE (R201). -/
  | merge (w : NodeWord)
  /-- MERGERR (R201). -/
  | mergerr (w : NodeWord)
  /-- MERGESEL (R201). -/
  | mergesel (w : NodeWord)
  /-- DIST (R202). -/
  | dist (w : NodeWord)
  /-- DISPATCH (R203). -/
  | dispatch (w : NodeWord)
  /-- GATE (R199). -/
  | gate (w : NodeWord)
  /-- DROP (R199). -/
  | drop (w : NodeWord)
  /-- SINK (R199). -/
  | sink (w : NodeWord)
  /-- GEN (R204). -/
  | gen (w : NodeWord)
  /-- CARRY (R205). -/
  | carry (w : NodeWord)
  /-- INVAR (R205). -/
  | invar (w : NodeWord)
  /-- REPEAT (R206). -/
  | repeatN (w : NodeWord)
  /-- SEQTAG (R207). -/
  | seqtag (w : NodeWord)
  /-- REORDER (R207). -/
  | reorder (w : NodeWord)
  /-- MARK (R208). -/
  | mark (w : NodeWord)
  /-- STOPI (R209). -/
  | stopi (w : NodeWord)
  /-- STOPX (R209). -/
  | stopx (w : NodeWord)
  /-- STOPUP (R209). -/
  | stopup (w : NodeWord)
  /-- WAITMK (R210). -/
  | waitmk (w : NodeWord)
  /-- SPECRES (R211). -/
  | specres (w : NodeWord)
  /-- RETYPE (R212). -/
  | retype (w : NodeWord)
  /-- LD (R213). -/
  | ld (w : NodeWord)
  /-- ST (R213). -/
  | st (w : NodeWord)
  /-- LDREQ (R214). -/
  | ldreq (w : NodeWord)
  /-- STREQ (R214). -/
  | streq (w : NodeWord)
  /-- PUSH (R215). -/
  | push (w : NodeWord)
  /-- POP (R215). -/
  | pop (w : NodeWord)
  /-- TLD (R216). -/
  | tld (w : NodeWord)
  /-- TST (R216). -/
  | tst (w : NodeWord)
  /-- SPBSEND (R221). -/
  | spbsend (w : NodeWord)
  /-- AADD (R217). -/
  | aadd (w : NodeWord)
  /-- AMIN (R217). -/
  | amin (w : NodeWord)
  /-- AMAX (R217). -/
  | amax (w : NodeWord)
  /-- AXCHG (R217). -/
  | axchg (w : NodeWord)
  /-- ACAS (R217). -/
  | acas (w : NodeWord)
  /-- ATAS (R217). -/
  | atas (w : NodeWord)
  /-- AOR (R217). -/
  | aor (w : NodeWord)
  /-- FENCE (R220). -/
  | fence (w : NodeWord)
  /-- FSCAN (R235). -/
  | fscan (w : NodeWord)
  /-- FLOOK (R236). -/
  | flook (w : NodeWord)
  /-- FISECT (R237). -/
  | fisect (w : NodeWord)
  /-- FUNION (R238). -/
  | funion (w : NodeWord)
  /-- FREP (R239). -/
  | frep (w : NodeWord)
  /-- FRED (R240). -/
  | fred (w : NodeWord)
  /-- FWRITE (R241). -/
  | fwrite (w : NodeWord)
  /-- OADD (R223). -/
  | oadd (w : NodeWord)
  /-- OMUL (R223). -/
  | omul (w : NodeWord)
  /-- OCMP (R224). -/
  | ocmp (w : NodeWord)
  /-- OCUT (R225). -/
  | ocut (w : NodeWord)
  /-- OCVT (R225). -/
  | ocvt (w : NodeWord)
  /-- PQCELL (R226). -/
  | pqcell (w : NodeWord)
  /-- STAT (R227). -/
  | stat (w : NodeWord)
  /-- RATE (R228). -/
  | rate (w : NodeWord)
  /-- VER (R228). -/
  | ver (w : NodeWord)
  /-- SYSID (R228). -/
  | sysid (w : NodeWord)
  /-- TRAP (R229). -/
  | trap (w : NodeWord)
  /-- NOP (R229). -/
  | nop (w : NodeWord)
  /-- NODE_TOKEN_FIRE (R89). -/
  | nodeTokenFire (u : UnitId)
  /-- MATCH_DISCARD (R113). -/
  | matchDiscard (u : UnitId) (cd : Bool)
  /-- LATCH_ADVANCE (R85). -/
  | latchAdvance (r : RegId) (link : Nat) (k : Nat)
  /-- FREE_SLOT_RETURN (R86). -/
  | freeSlotReturn (r : RegId) (link : Nat)
  /-- RETYPE_APPLY (R95). -/
  | retypeApply (u : UnitId) (port : Nat)
  /-- BRIDGE_SEND (R96). -/
  | bridgeSend (dir : Nat)
  /-- ALLOWANCE_RETURN (R97). -/
  | allowanceReturn (r : RegId) (link : Nat) (dir : Nat)
  /-- FLIT_RECEIVE (R98). -/
  | flitReceive (dir : Nat) (good : Bool)
  /-- FLIT_REPLAY (R98). -/
  | flitReplay (dir : Nat)
  /-- LINK_FLIT_RECEIVE (R386). -/
  | linkFlitReceive (port : Nat) (flit : LinkFlit) (crcOk : Bool)
  /-- REMOTE_ACCESS_REQUEST (R387). -/
  | remoteAccessRequest (port : Nat) (req : RemoteReq)
  /-- CXL_LINK_DOWN (R384). -/
  | cxlLinkDown (port : Nat)
  /-- HOST_MEM_ACCESS (R383). -/
  | hostMemAccess (off : Nat) (acc : HostAccess)
  /-- WINDOW_ACCESS (R114). -/
  | windowAccess (req : Nat)
  /-- LIN_READ (R60). -/
  | linRead (h : SpbHead) (b : LinBody)
  /-- LIN_WRITE (R60). -/
  | linWrite (h : SpbHead) (b : LinBody)
  /-- GATH (R61). -/
  | gath (h : SpbHead) (b : GathBody)
  /-- SCAT (R61). -/
  | scat (h : SpbHead) (b : GathBody)
  /-- COPY (R62). -/
  | copy (h : SpbHead) (b : CopyBody)
  /-- FIB (R63). -/
  | fib (h : SpbHead) (b : FibBody)
  /-- HASH (R64). -/
  | hash (h : SpbHead) (b : HashBody)
  /-- FLUSH (R65). -/
  | flush (h : SpbHead) (b : FlushBody)
  /-- PREF (R66). -/
  | pref (h : SpbHead) (b : PrefBody)
  /-- ELEMENT_ISSUE (R69). -/
  | elementIssue (r : RegId) (sp : Offset)
  /-- FAULT_NOTICE_PENDING_WRITE (R47). -/
  | faultNoticePendingWrite (part : Nat)
  /-- WALK_COMPLETE (R40). -/
  | walkComplete (walk : Nat)
  /-- WRITE_PERFORM (R267). -/
  | writePerform (req : Nat)
  /-- SPB_COMPLETE (R72). -/
  | spbComplete (r : RegId) (sp : Offset) (slot : Nat)
  /-- EVENT_TOKEN_ARRIVE (R72). -/
  | eventTokenArrive (k : Nat)
  /-- SP_REQ_MARK (R73). -/
  | spReqMark (r : RegId) (sp : Offset)
  /-- SP_DATA_TOKEN (R74). -/
  | spDataToken (r : RegId) (sp : Offset) (port : Nat)
  /-- REL_RELEASE (R270). -/
  | relRelease (r : RegId) (sp : Offset) (port : Nat)
  /-- INVALIDATION_START (R43). -/
  | invalidationStart (part : Nat)
  /-- INVALIDATION_COMPLETE (R43). -/
  | invalidationComplete (part : Nat)
  /-- RESUME (R48). -/
  | resume (part : Nat) (nseq : BitVec 32)
  /-- T_PF_EXPIRY (R49). -/
  | tPfExpiry (part : Nat) (nseq : BitVec 32)
  /-- STREAM_BUFFER_GROW (R117). -/
  | streamBufferGrow (u : UnitId)
  /-- STAT_TOKEN_ADD (R143). -/
  | statTokenAdd (k : Nat)
  /-- ME_COMMAND_ENQUEUE (R254). -/
  | meCommandEnqueue (r : RegId) (me : Offset)
  /-- MLOAD (R250). -/
  | mload (c : MCmd)
  /-- MSWAP (R250). -/
  | mswap (c : MCmd)
  /-- MMUL (R250). -/
  | mmul (c : MCmd)
  /-- MDRAIN (R250). -/
  | mdrain (c : MCmd)
  /-- MZERO (R250). -/
  | mzero (c : MCmd)
  /-- MFMT (R252). -/
  | mfmt (c : MCmd)
  /-- MMIGR (R253). -/
  | mmigr (c : MCmd)
  /-- MCOUNT (R253). -/
  | mcount (c : MCmd)
  /-- ME_MARKER_ENTRY (R256). -/
  | meMarkerEntry (r : RegId) (me : Offset)
  /-- ME_MIGRATE (R260). -/
  | meMigrate (r : RegId) (me : Offset) (entry : Nat) (south : Bool)
  /-- ME_MIGRATION_RETURN (R260). -/
  | meMigrationReturn (r : RegId) (me : Offset)
  /-- ADD (R292). -/
  | add (d : BitVec 5) (a : BitVec 5) (b : BitVec 5)
  /-- SUB (R292). -/
  | sub (d : BitVec 5) (a : BitVec 5) (b : BitVec 5)
  /-- MUL (R292). -/
  | mul (d : BitVec 5) (a : BitVec 5) (b : BitVec 5)
  /-- MULH (R292). -/
  | mulh (d : BitVec 5) (a : BitVec 5) (b : BitVec 5)
  /-- DIV (R292). -/
  | div (d : BitVec 5) (a : BitVec 5) (b : BitVec 5)
  /-- REM (R292). -/
  | rem (d : BitVec 5) (a : BitVec 5) (b : BitVec 5)
  /-- SEQ_AND (R292). -/
  | seqAnd (d : BitVec 5) (a : BitVec 5) (b : BitVec 5)
  /-- SEQ_OR (R292). -/
  | seqOr (d : BitVec 5) (a : BitVec 5) (b : BitVec 5)
  /-- SEQ_XOR (R292). -/
  | seqXor (d : BitVec 5) (a : BitVec 5) (b : BitVec 5)
  /-- SEQ_SHL (R292). -/
  | seqShl (d : BitVec 5) (a : BitVec 5) (b : BitVec 5)
  /-- SEQ_SHR (R292). -/
  | seqShr (d : BitVec 5) (a : BitVec 5) (b : BitVec 5)
  /-- SEQ_SAR (R292). -/
  | seqSar (d : BitVec 5) (a : BitVec 5) (b : BitVec 5)
  /-- SLT (R292). -/
  | slt (d : BitVec 5) (a : BitVec 5) (b : BitVec 5)
  /-- SLTN (R292). -/
  | sltn (d : BitVec 5) (a : BitVec 5) (b : BitVec 5)
  /-- ADDI (R292). -/
  | addi (d : BitVec 5) (a : BitVec 5) (i : BitVec 16)
  /-- ANDI (R292). -/
  | andi (d : BitVec 5) (a : BitVec 5) (i : BitVec 16)
  /-- ORI (R292). -/
  | ori (d : BitVec 5) (a : BitVec 5) (i : BitVec 16)
  /-- XORI (R292). -/
  | xori (d : BitVec 5) (a : BitVec 5) (i : BitVec 16)
  /-- SHLI (R292). -/
  | shli (d : BitVec 5) (a : BitVec 5) (i : BitVec 6)
  /-- SHRI (R292). -/
  | shri (d : BitVec 5) (a : BitVec 5) (i : BitVec 6)
  /-- SARI (R292). -/
  | sari (d : BitVec 5) (a : BitVec 5) (i : BitVec 6)
  /-- LIH (R292). -/
  | lih (d : BitVec 5) (a : BitVec 5) (i : BitVec 16)
  /-- SEQ_LD (R293). -/
  | seqLd (d : BitVec 5) (a : BitVec 5) (i : BitVec 16)
  /-- LDW (R293). -/
  | ldw (d : BitVec 5) (a : BitVec 5) (i : BitVec 16)
  /-- SEQ_ST (R293). -/
  | seqSt (d : BitVec 5) (a : BitVec 5) (i : BitVec 16)
  /-- STW (R293). -/
  | stw (d : BitVec 5) (a : BitVec 5) (i : BitVec 16)
  /-- SAMO_ADD (R293). -/
  | samoAdd (d : BitVec 5) (a : BitVec 5) (b : BitVec 5) (w : Bool)
  /-- SAMO_SWAP (R293). -/
  | samoSwap (d : BitVec 5) (a : BitVec 5) (b : BitVec 5) (w : Bool)
  /-- SAMO_CAS (R293). -/
  | samoCas (d : BitVec 5) (a : BitVec 5) (b : BitVec 5) (w : Bool)
  /-- SAMO_AND (R293). -/
  | samoAnd (d : BitVec 5) (a : BitVec 5) (b : BitVec 5) (w : Bool)
  /-- SAMO_OR (R293). -/
  | samoOr (d : BitVec 5) (a : BitVec 5) (b : BitVec 5) (w : Bool)
  /-- SAMO_XOR (R293). -/
  | samoXor (d : BitVec 5) (a : BitVec 5) (b : BitVec 5) (w : Bool)
  /-- SAMO_MIN (R293). -/
  | samoMin (d : BitVec 5) (a : BitVec 5) (b : BitVec 5) (w : Bool)
  /-- SAMO_MAX (R293). -/
  | samoMax (d : BitVec 5) (a : BitVec 5) (b : BitVec 5) (w : Bool)
  /-- SAMO_MINU (R293). -/
  | samoMinu (d : BitVec 5) (a : BitVec 5) (b : BitVec 5) (w : Bool)
  /-- SAMO_MAXU (R293). -/
  | samoMaxu (d : BitVec 5) (a : BitVec 5) (b : BitVec 5) (w : Bool)
  /-- BEQ (R295). -/
  | beq (a : BitVec 5) (b : BitVec 5) (o : BitVec 16)
  /-- BNE (R295). -/
  | bne (a : BitVec 5) (b : BitVec 5) (o : BitVec 16)
  /-- BLT (R295). -/
  | blt (a : BitVec 5) (b : BitVec 5) (o : BitVec 16)
  /-- BGE (R295). -/
  | bge (a : BitVec 5) (b : BitVec 5) (o : BitVec 16)
  /-- LOOP (R295). -/
  | loop (a : BitVec 5) (o : BitVec 16)
  /-- JMP (R295). -/
  | jmp (o : BitVec 26)
  /-- JAL (R295). -/
  | jal (o : BitVec 26)
  /-- JR (R295). -/
  | jr (a : BitVec 5)
  /-- CFGL (R300). -/
  | cfgl (s : BitVec 5) (n : BitVec 16)
  /-- SHADOW_LOAD (R300). -/
  | shadowLoad (c : SeqId) (sect : Nat)
  /-- CFGS (R301). -/
  | cfgs (d : BitVec 5) (n : BitVec 16)
  /-- PLANE_SWAP (R357). -/
  | planeSwap (r : RegId)
  /-- DRAIN_TIMEOUT (R358). -/
  | drainTimeout (r : RegId)
  /-- ARM (R296). -/
  | arm (c : BitVec 5) (b : BitVec 5) (n : BitVec 16)
  /-- WAITS (R298). -/
  | waits (d : BitVec 5) (n : BitVec 16)
  /-- WAITS_RETURN (R298). -/
  | waitsReturn (c : SeqId)
  /-- PURE (R297). -/
  | pure (c : BitVec 5) (b : BitVec 5) (n : BitVec 16)
  /-- MODE (R299). -/
  | mode (m : BitVec 5) (n : BitVec 16)
  /-- WAITM (R302). -/
  | waitm (d : BitVec 5) (a : BitVec 5)
  /-- WAITM_WAKE (R302). -/
  | waitmWake (c : SeqId)
  /-- LAUNCH (R304). -/
  | launch (a : BitVec 5) (b : BitVec 5)
  /-- TAIL (R303). -/
  | tail (a : BitVec 5)
  /-- SRD (R305). -/
  | srd (d : BitVec 5) (s : BitVec 8) (r : BitVec 8)
  /-- SWR (R305). -/
  | swr (a : BitVec 5) (s : BitVec 8) (r : BitVec 8)
  /-- SEQ_FENCE (R306). -/
  | seqFence (s : BitVec 3)
  /-- SEQ_TRAP (R307). -/
  | seqTrap (c : BitVec 8)
  /-- HALT (R307). -/
  | halt
  /-- KERNEL_COMPLETE (R307). -/
  | kernelComplete (c : SeqId)
  /-- SEQ_NOP (R307). -/
  | seqNop
  /-- RECORD_START (R281). -/
  | recordStart (c : SeqId)
  /-- LINK_WAKE (R282). -/
  | linkWake (c : SeqId)
  /-- SQCTL_GO (R283). -/
  | sqctlGo (c : SeqId)
  /-- SQCTL_SKIP (R283). -/
  | sqctlSkip (c : SeqId)
  /-- SQCTL_STOP (R283). -/
  | sqctlStop (c : SeqId)
  /-- ALLOCATOR_RUN (R334). -/
  | allocatorRun (part : Nat)
  /-- PWBUD_WRITE (R334). -/
  | pwbudWrite (part : Nat) (v : BitVec 64)
  /-- ENTRY_AGING (R334). -/
  | entryAging (part : Nat) (k : Nat)
  /-- CONTEXT_AGING (R335). -/
  | contextAging (c : SeqId)
  /-- CONFIG_INSTALL (R28). -/
  | configInstall (r : RegId)
  /-- INVOCATION_ARM (R296). -/
  | invocationArm (c : SeqId) (sect : Nat)
  /-- AGATE_LOOKUP (R368). -/
  | agateLookup (r : RegId)
  /-- INVOCATION_RETIRE (R269). -/
  | invocationRetire (r : RegId)
  /-- PRECTL_GO (R338). -/
  | prectlGo (part : Nat) (v : BitVec 64)
  /-- SCHEDULER_PREEMPT (R338). -/
  | schedulerPreempt (part : Nat)
  /-- CUT_COMPLETE (R339). -/
  | cutComplete (r : RegId)
  /-- T_CUT_EXPIRY (R340). -/
  | tCutExpiry (r : RegId)
  /-- INVOCATION_RESUME (R344). -/
  | invocationResume (c : SeqId) (sect : Nat)
  /-- WINDOW_END (R311). -/
  | windowEnd (r : RegId)
  /-- COMMIT (R324). -/
  | commit (r : RegId) (plan : CommitPlan)
  /-- RBSTAT_CLEAR (R313). -/
  | rbstatClear (part : Nat)
  /-- REGION_FREEZE (R349). -/
  | regionFreeze (r : RegId)
  /-- FAULT_RECORD_PENDING_WRITE (R351). -/
  | faultRecordPendingWrite (part : Nat)
  /-- HANG_TIMEOUT (R355). -/
  | hangTimeout (r : RegId)
  /-- FRCTL_RELEASE (R359). -/
  | frctlRelease (part : Nat) (v : BitVec 64)
  /-- FRCTL_CLEAR (R359). -/
  | frctlClear (part : Nat) (v : BitVec 64)
  /-- FLTSTAT_CLEAR (R351). -/
  | fltstatClear (part : Nat)
  /-- SOFT_ERROR (R360). -/
  | softError (e : SoftErr)
  /-- BANK_REASSIGN (R361). -/
  | bankReassign (pos : Pos)
  /-- AGATE_FLUSH (R367). -/
  | agateFlush (part : Nat)
  /-- AGSBASE_WRITE (R367). -/
  | agsbaseWrite (part : Nat) (v : BitVec 64)
  /-- AGSSIZE_WRITE (R367). -/
  | agssizeWrite (part : Nat) (v : BitVec 64)
  /-- SHAPE (R375). -/
  | shape (die : Nat) (shape : Nat)
  /-- BIND (R382). -/
  | bind (slot : Nat) (mask : BitVec 8) (blob : List Byte)
  /-- REVOKE (R379). -/
  | revoke (slot : Nat)
  /-- QUOTE (R381). -/
  | quote (nonce : List Byte)
  /-- DOMSET (R385). -/
  | domset (mid : Nat) (size : Nat)
  /-- CXLMAP (R382). -/
  | cxlmap (part : Nat) (port : Nat) (off : Nat) (len : Nat)
  /-- KRVCNT_CLEAR (R382). -/
  | krvcntClear
  /-- DEVICE_RESET (R380). -/
  | deviceReset (fw : Firmware)
  /-- REGISTER_WRITE (R42). -/
  | registerWrite (part : Nat) (off : Nat) (v : BitVec 64)
  /-- READ_PERFORM (R267). -/
  | readPerform (req : Nat)
  /-- LINK_RETRAIN (R362). -/
  | linkRetrain (port : Nat)
  deriving DecidableEq, Repr, Inhabited

end Sys2Proof
end

