-- ==== Sys2Proof/Machine/State.lean ====
section
/-! DEFINITION. The state of the device, as plain data: everything the specification gives the machine, the model's own
bookkeeping (agenda, actor, tick, stamps), the reasons a step can stop, and the state after reset. -/

namespace Sys2Proof.Machine

/-! ### Why a step can stop -/

/-- Stops of the whole model. Faults of the device (R348) are next states, not these. -/
inductive Fault where
  /-- Raised by HOST_MEM_ACCESS for an offset at or beyond 768 GiB: R383 exposes no such address. Safe. -/
  | hdmOutOfRange
  deriving DecidableEq, Repr

/-- Refusals: a meaning the specification does not give. -/
inductive Refusal where
  /-- Raised by Dispatch for an instruction with no meaning yet. Safe. -/
  | notModelled (mnemonic : String)
  /-- Raised by READ_PERFORM and WRITE_PERFORM at an MMIO target: R34 gives the window, no file gives the registers
  behind it (log 14). Safe. -/
  | mmioRegister
  deriving DecidableEq, Repr

/-! ### Beats and links (05_fabric_tokens.md) -/

/-- KIND of a beat (Table 5-1). -/
inductive Kind where
  | data | stop | mark | cfg
  deriving DecidableEq, Repr, Inhabited

/-- A beat: 256 payload bits and the sideband of Table 5-1. `owner` says which SPR owes a SPEC beat: a STEER numbers its
copies and their SPRs alike; 0 is no number (R200). -/
structure Beat where
  pay : Payload
  kind : Kind
  level : BitVec 3
  round : BitVec 3
  poison : Bool
  spec : Bool
  valid : BitVec 8
  tag : BitVec 14
  owner : Nat := 0
  deriving DecidableEq, Repr, Inhabited

/-- The four exception counters of a counting point (before R140). -/
structure Counts where
  inex : Nat := 0
  satc : Nat := 0
  ufz : Nat := 0
  nanp : Nat := 0
  deriving DecidableEq, Repr, Inhabited

/-- A statistics token (R140): its three words, the counting point that sent it, its partition and section, and whether it has
entered the lane. Points of a position: the node of context c is c, its value tokens 20 + c, the converter into its port p is
4 + 4 * c + p; an engine is 0. -/
structure StatTok where
  part : Nat
  sect : RegId
  off : Offset
  point : Nat
  entered : Bool
  w0 : Word
  w1 : Word
  w2 : Word
  deriving DecidableEq, Repr, Inhabited

/-- An end of a link (R84): a node's port or a hard block's port at an offset. For a cell, `port` is 0-3 for A-D or
4, 5 for X, Y; for a hard block it is 0-3 for p0-p3. -/
structure LinkEnd where
  off : Offset
  hard : Bool
  ctx : Nat
  port : Nat
  deriving DecidableEq, Repr, Inhabited

/-- A bridge circuit as it is charged: bridge direction, the partition at its receiving end, its share (R376). -/
structure BridgeUse where
  dir : Nat
  part : Nat
  share : Nat
  deriving DecidableEq, Repr, Inhabited

/-- A circuit on a link (R96, R97): the latch index after it, the bridge direction or 8 + its Slaundene port, the circuit number, the share,
the allowance left, the allowance being returned, and the far receive buffer. -/
structure Crossing where
  at_ : Nat
  dir : Nat
  circ : Nat
  share : Nat
  allow : Nat
  ret : Nat
  far : List Beat
  deriving DecidableEq, Repr, Inhabited

/-- A link: its ends, formats, latches, converter, destination queue, slot counts and counters (R84 to R95, R310, R429). -/
structure Link where
  src : LinkEnd
  dst : LinkEnd
  fmtS : Fmt
  fmtD : Fmt
  rnd : Rnd := .rne
  sat : Bool := false
  scale : Int := 0
  clvl : Nat := 0
  rchk : Bool := false
  slots : Nat
  /-- The departing segments of the route, in order (R84). -/
  route : List (Offset × Nat) := []
  pipe : List Beat := []
  lat : List (Option Beat) := []
  crossings : List Crossing := []
  /-- Beats held before the converter for an SPR (R94), the source beats of a partial narrow beat, and the converted
  beats waiting for the last latch. -/
  cvin : List Beat := []
  part : List Beat := []
  cvq : List Beat := []
  /-- Narrowing source beats emitted since the last destination beat was begun (R429). -/
  nph : Nat := 0
  /-- The producer holds a token that it may not emit (R310). -/
  blocked : Bool := false
  queue : List Beat := []
  free : Int := 0
  ret : Nat := 0
  /-- The producer waits for a RETYPE to end (R95); `refill`: the port has applied it and the new count is on its way. -/
  held : Bool := false
  refill : Bool := false
  /-- The producer waits for a commit to release it, or is to wait once it has emitted a closing marker of this round or a
  later one, or an EOI (R324). -/
  cheld : Bool := false
  cuntil : Option Nat := none
  round : Nat := 0
  eoi : Bool := false
  /-- The destination has consumed a DRN since the drain began (R357). -/
  drn : Bool := false
  lastCoord : Option Nat := none
  cnt : Counts := {}
  ovf : Bool := false
  tap : Option Nat := none
  /-- Copies that a distributor at the end of this link deals to, by link index, and whose turn it is (R320). -/
  dist : List Nat := []
  distTurn : Nat := 0
  /-- Copies' output links that a merge at the start of this link takes from, whose turn it is, and whether it combines
  (R320, R321). -/
  merge : List Nat := []
  mergeTurn : Nat := 0
  /-- Beats that each copy emits per firing (R320). -/
  mergeN : Nat := 1
  combining : Bool := false
  /-- Tokens passed and full-stall cycles of the window, and of the last complete window (R310, R311). -/
  tokens : Nat := 0
  stall : Nat := 0
  repTokens : Nat := 0
  repStall : Nat := 0
  live : Bool := true
  deriving DecidableEq, Repr, Inhabited

/-! ### Cells (06_cells.md) -/

/-- A chunk of 64 beats that a stream buffer may link: of the carve-out or of the overflow area, by its place in ascending order
(R117). -/
inductive Chunk where
  | carve (k : Nat)
  | ovf (k : Nat)
  deriving DecidableEq, Repr, Inhabited

/-- A stretch of a stream buffer's tokens: in the segment's ring, or in a linked chunk; how many it holds and has held (R117). -/
structure BufPart where
  chunk : Option Chunk
  n : Nat
  used : Nat
  deriving DecidableEq, Repr, Inhabited

/-- The run-time state of a bank segment: a stream buffer's tokens and the stretches they lie in, a tile store's full bits and
pointers and fill position, the full bits that a reuse miss set (R368), REORDER's slots (R103, R104, R117, R207). -/
structure SegState where
  beats : List Beat := []
  parts : List BufPart := []
  full : List Bool := []
  missed : List Bool := []
  wp : Nat := 0
  rp : Nat := 0
  fill : Nat := 0
  slots : AMap Beat := []
  deriving DecidableEq, Repr, Inhabited

/-- One side of a fibre stream: the open levels, the last element of the open level-0 fibre, the next lane of the head
beat, the highest stop level taken, and end of invocation (R231, R232, R240). -/
structure FibreSide where
  open_ : BitVec 8 := 0
  last : Option Nat := none
  lane : Nat := 0
  hi : Nat := 0
  eoi : Bool := false
  deriving DecidableEq, Repr, Inhabited

/-- One operand group of an online op: exponent beat, digit beats taken, closed (R136). -/
structure OsdSide where
  exp : Option Beat := none
  digs : List Beat := []
  closed : Bool := false
  deriving DecidableEq, Repr, Inhabited

/-- The operation state of a node context: running values, held beats, turns, counts, fibre and group state. -/
structure OpState where
  acc : List (Option Nat) := []
  seen : BitVec 8 := 0
  cnt : Nat := 0
  pois : Bool := false
  phase : Bool := false
  phaseY : Bool := false
  turn : Nat := 0
  held : List Beat := []
  next : Nat := 0
  pos : Nat := 0
  any : Bool := false
  counts : List Nat := []
  ovfs : List Bool := []
  sideA : FibreSide := {}
  sideB : FibreSide := {}
  sideOut : FibreSide := {}
  outX : List (Option Nat) := []
  outY : List (Option Nat) := []
  outTag : Option (BitVec 14) := none
  osdA : OsdSide := {}
  osdB : OsdSide := {}
  owe : List (Bool × Beat) := []
  round : Nat := 0
  roundB : Nat := 0
  eoi : Bool := false
  deriving DecidableEq, Repr, Inhabited

/-- A context of a cell: local registers with poison bits, operation state, statistics counters (those of each
speculative firing apart, with the number of the SPR that owes it, R142), and the data-firing count (R111, R174, R310). -/
structure CtxState where
  lregs : List Word := List.replicate 8 0
  lpois : BitVec 8 := 0
  op : OpState := {}
  cnt : Counts := {}
  spec : List (Nat × Counts) := []
  ovf : Bool := false
  fires : Nat := 0
  repFires : Nat := 0
  deriving DecidableEq, Repr, Inhabited

/-- A cell of a region: context counter, bank beats (unlisted beats are zero, R100), poisoned 64-bit bank words,
segments and contexts. -/
structure Cell where
  ctr : Nat := 0
  bank : AMap Payload := []
  bpois : List Nat := []
  segs : List SegState := List.replicate 8 {}
  ctxs : List CtxState := List.replicate 4 {}
  deriving DecidableEq, Repr, Inhabited

/-- The configuration fields of one position: field number to 24-bit value. The port fields F13-F18 of context c are held
under 128 + 8c + (f - 13) (R154, R155). -/
abbrev Fields := AMap (BitVec 24)
/-- A configuration plane: positions by offset key, dy * 256 + dx (R148). -/
abbrev Plane := AMap Fields

/-! ### Memory accesses -/

/-- A translated target (Table 3-4). -/
inductive Target where
  | dram (die addr : Nat)
  | cxl (port off : Nat)
  | host (addr : Nat)
  | remote (module die addr : Nat)
  | bank (pos : Pos) (byte : Nat)
  | stage (pos : Pos) (off : Nat)
  | mmio (off : Nat)
  deriving DecidableEq, Repr, Inhabited

/-- The page that a translation went through: its VA and the log2 of its size (R43). -/
structure PageRef where
  base : Nat := 0
  size : Nat := 0
  deriving DecidableEq, Repr, Inhabited

/-- Who asked for an access. -/
inductive Who where
  /-- Elements from el on of the SPB in a slot; `data` is the DATA port that fed a write (4: none). -/
  | elem (r : RegId) (sp : Offset) (stamp el data : Nat)
  /-- An index, mid or segment word of the SPB in a slot, by its key (R68). -/
  | index (r : RegId) (sp : Offset) (stamp key : Nat)
  /-- A line of a PREF (R66). -/
  | line (r : RegId) (sp : Offset) (stamp : Nat)
  /-- A line that a chaser reads ahead of the elements of the SPB in a slot (R68). -/
  | ahead (r : RegId) (sp : Offset) (stamp : Nat)
  /-- A load of a sequencer context into gd: bytes and sign extension (R293). -/
  | seqLoad (c : SeqId) (gd : Nat) (signed : Bool)
  | seqStore (c : SeqId)
  | seqAmo (c : SeqId) (gd : Nat) (signed : Bool)
  /-- A line of another module that a context reads for its own use (R281, R296, R297, R300). -/
  | seqLine (c : SeqId)
  /-- A hit copy of Agate (R368). -/
  | hitCopy (r : RegId)
  /-- A write of a region's layout record (R326). -/
  | layout (r : RegId)
  /-- An access whose region has been released: nobody takes its answer (R349, R359). -/
  | detached
  deriving DecidableEq, Repr, Inhabited

/-- Where a copied piece goes: VA, target, key of plain memory, binding, whether its page is larger than 64 KiB, the page. -/
structure CopyDst where
  va : Nat
  tgt : Target
  key : Nat
  binding : Nat
  big : Bool
  page : PageRef := {}
  deriving DecidableEq, Repr, Inhabited

/-- What an access does: read n bytes, write bytes (poisoned: the ECC poison code), or an atomic of SAMO. -/
inductive Access where
  | read (n : Nat)
  | write (bs : List Byte) (poison : Bool)
  | amo (op n : Nat) (arg cmp : Nat)
  /-- A COPY or HASH piece: read n bytes, then write them to the destination, if there is one. -/
  | copy (n : Nat) (dst : Option CopyDst)
  deriving DecidableEq, Repr, Inhabited

/-- An access on its way to its point of performance (R267). -/
structure MemReq where
  id : Nat
  part : Nat
  who : Who
  va : Nat
  tgt : Target
  key : Nat
  acc : Access
  /-- The page is larger than 64 KiB (R51). -/
  big : Bool := false
  /-- The binding whose keys the line is read or written under; 0: no key (R378). -/
  binding : Nat := 0
  page : PageRef := {}
  deadline : Nat
  /-- A remote access has been sent (R386); its answer so far, and the status once it is whole: 0 done, 1 error, 2 poison. -/
  sent : Bool := false
  reply : List Byte := []
  status : Option Nat := none
  deriving DecidableEq, Repr, Inhabited

/-- A TLB entry: page base VA, log2 of the page size, the leaf (R38). -/
structure TlbEntry where
  base : Nat
  size : Nat
  leaf : BitVec 64
  deriving DecidableEq, Repr, Inhabited

/-- Who waits for a walk: an SPB slot's element, or a sequencer context. -/
inductive Waiter where
  | slot (r : RegId) (sp : Offset) (stamp : Nat)
  | seq (c : SeqId)
  /-- A hit copy of Agate (R368). -/
  | hit (r : RegId)
  /-- A chaser that reads ahead at an SP: nobody waits (R68). -/
  | ahead (r : RegId) (sp : Offset)
  deriving DecidableEq, Repr, Inhabited

/-- A requester joined to a walk, with its own VA and access kind. -/
structure Join where
  who : Waiter
  va : Nat
  write : Bool
  deriving DecidableEq, Repr, Inhabited

/-- A table walk (R39): partition, the SP that holds it, the VA and kind of the access that asked for it, whether it has a slot of
the walker, the joined requesters, discarded by an invalidation (R43). -/
structure Walk where
  id : Nat
  part : Nat
  sp : Nat
  va : Nat
  write : Bool
  started : Bool
  waiters : List Join
  again : Bool
  deriving DecidableEq, Repr, Inhabited

/-- A page-fault notice outstanding (R47): its fields and whether it is already in the queue. -/
structure Notice where
  nseq : BitVec 32
  fva : Nat
  cause : Nat
  level : Nat
  waiter : Waiter
  slot : Nat
  spix : Nat
  die : Nat
  written : Bool
  since : Nat
  /-- A RESUME has come, and waits for the remap of its window (R345). -/
  resumed : Bool := false
  deriving DecidableEq, Repr, Inhabited

/-! ### Stream ports (04_stream_ports.md) -/

/-- A reply item of an SPB in request order: a stop, or a beat of elements read (by number) or of immediate values; `second`
for R2PORT; `pois`: its index was poisoned. -/
structure RItem where
  second : Bool := false
  stop : Option Nat := none
  els : List Nat := []
  imm : List Nat := []
  pois : Bool := false
  deriving DecidableEq, Repr, Inhabited

/-- An accepted SPB in a slot (R57): the block, acceptance stamp, REQ port, deadline, round, progress of its elements, replies
in request order, values returned, accesses outstanding, and what it waits for. -/
structure Slot where
  spb : Instr
  stamp : Nat
  port : Nat
  deadline : Nat
  round : BitVec 3
  /-- The number of the next element. -/
  nextEl : Nat := 0
  /-- Rows, references, bytes or lines done. -/
  row : Nat := 0
  rowEl : Nat := 0
  /-- Index values of the row under way: x, or x and y; a reference p, with s, with e. -/
  vals : List Nat := []
  idxLane : Nat := 0
  idxPois : Bool := false
  /-- Port index values that a chaser has taken ahead of their rows, with their poison; words of the row under way that have been read,
  and those asked for, under 3 * row + 0 (the index), + 1 (mid value or segment start), + 2 (segment end); VA lines that a chaser has
  fetched into the pool, or dropped (R50, R68). -/
  fifo : List (Nat × Bool) := []
  words : AMap (Nat × Bool) := []
  asked : List Nat := []
  fetched : List Nat := []
  items : List RItem := []
  cur : List Nat := []
  cur2 : List Nat := []
  got : AMap (Nat × Bool) := []
  outst : Nat := 0
  /-- CNT of the event token (R72). -/
  beats : Nat := 0
  tags : Nat := 0
  tags2 : Nat := 0
  /-- The checks of 0x27 to 0x29 have been made. -/
  checked : Bool := false
  /-- Every element has issued. -/
  finished : Bool := false
  psn : Bool := false
  /-- HASH: its number in its digest context, as it was accepted (R364). -/
  hashNo : Nat := 0
  walk : Bool := false
  /-- The VA that a walk or a page fault is about. -/
  wva : Nat := 0
  withheld : Bool := false
  faulted : Bool := false
  last : Option Nat := none
  deriving DecidableEq, Repr, Inhabited

/-- A marker accepted on the REQ port: its stamp, the token, and the outbound ports it has still to leave on (R73). -/
structure ReqMark where
  stamp : Nat
  tok : Beat
  ports : List Nat
  deriving DecidableEq, Repr, Inhabited

/-- A digest context (R64, R365): open, the bytes absorbed, the hashes accepted. -/
structure Digest where
  isOpen : Bool := false
  bytes : List Byte := []
  count : Nat := 0
  deriving DecidableEq, Repr, Inhabited

/-- A staged pool line (R66, R67): its VA, target line, data, its poisoned 64-bit words and its page; the list has the last used first. -/
structure PoolLine where
  va : Nat
  tgt : Target
  data : List Byte
  pois : List Nat := []
  page : PageRef := {}
  deriving DecidableEq, Repr, Inhabited

/-- A stream port of a region. -/
structure Sp where
  off : Offset
  slots : List (Option Slot) := List.replicate 8 none
  marks : List ReqMark := []
  staging : AMap Byte := []
  /-- Poisoned 64-bit words of the staging window. -/
  stagePois : List Nat := []
  pool : List PoolLine := []
  digs : List Digest := List.replicate 4 {}
  /-- The fibre grammar of what FIB and GATH have taken at each inbound port (R232). -/
  sides : List FibreSide := List.replicate 4 {}
  nextStamp : Nat := 0
  deriving DecidableEq, Repr, Inhabited

/-! ### Matrix engines (12_matrix_engines.md) -/

/-- A queue entry of an engine: a command or a marker, its sequence tag, the round open when it entered, its progress, the
outbound ports that a marker has still to leave on, and the cycle it entered (R244, R251, R254, R256). -/
structure MeEntry where
  cmd : Option Instr
  marker : Option Beat
  tag : Nat
  round : Nat
  started : Bool := false
  /-- Lines or rows done, beats of the stream taken or emitted, and the beats of the line under way. -/
  line : Nat := 0
  beat : Nat := 0
  lineBuf : List Beat := []
  outs : List Nat := []
  migrated : Bool := false
  since : Nat := 0
  deriving DecidableEq, Repr, Inhabited

/-- A tile: 64 lines of 64 element codes with 16 scale bytes each for a quad-scaled format, and a poison bit. An element without a
code is +0 whatever its scale: its VALID bit was clear (R245). -/
structure Tile where
  lines : AMap (List (Option Nat)) := []
  scales : AMap (List Nat) := []
  pois : Bool := false
  deriving DecidableEq, Repr, Inhabited

/-- The host buffer (R260): the home engine and the entry's tag, the tile, the format state that MMUL reads, and
the rows with their poison bits, keyed as in the home's banks. -/
structure Hosted where
  reg : RegId
  off : Offset
  tag : Nat
  tile : Tile
  fa : Fmt
  fb : Fmt
  sat : Bool
  /-- The first row, bank * 64 + row, and the number of rows. -/
  row0 : Nat
  nrow : Nat
  rows : AMap Word
  rowPois : List Nat
  deriving DecidableEq, Repr, Inhabited

/-- A matrix engine (Table 12-1). -/
structure Me where
  off : Offset
  ta : Tile := {}
  tl : Tile := {}
  taf : Bool := false
  tlf : Bool := false
  tln : Nat := 0
  /-- Accumulator words by bank * 4096 + row * 64 + column; unlisted is +0. -/
  acc : AMap Word := []
  /-- Poisoned rows, bank * 64 + row. -/
  accPois : List Nat := []
  fa : Fmt := .bf16
  fb : Fmt := .bf16
  fd : Fmt := .fp32
  rnd : Rnd := .rne
  sat : Bool := false
  eswap : Bool := false
  mon : Bool := false
  mthr : Nat := 0
  queue : List MeEntry := []
  nextTag : Nat := 0
  round : Nat := 0
  hosted : Option Hosted := none
  counters : List Nat := List.replicate 5 0
  cnt : Counts := {}
  ovf : Bool := false
  deriving DecidableEq, Repr, Inhabited

/-! ### Configuration streams (08_encoding_map.md) -/

/-- The numbered load errors of Table 20-2. -/
inductive LoadErr where
  | illegalModeWord | sectionNotOwned | trackConflict | routeOutsideRegion | slotPoolExceeded | zeroSlotCycle
  | zeroSlotBridge | illegalLinkConversion | bridgeBufferExceeded | illegalBankSegment | bankSegmentNotOwned
  | reservedFieldBits | linkToDisabledContext | matchedPortRate | illegalSpb | illegalStatisticsTap | illegalCursorOp
  | illegalRectangle | notAHardBlock | cursorOutsideRegion | noCursor | streamNotClosed | wrongSection | staleLayout
  | checksumMismatch | fieldNotAtPosition | readOnlyField | illegalNodeOpcode | illegalSource | unlinkedPort
  | unlinkedOutput | unpairedMatch | illegalRate | noSuchSegment | illegalSwitchEntry | switchBoxFull | illegalStateClass
  | duplicateNodeId | bankInitOutOfRange | illegalTilePreload | illegalPortRole | imageVersion | imageDigest
  | illegalRelocation | illegalFormat | illegalModifier | illegalConversion | illegalInstruction | illegalBranchTarget
  | illegalSpecialRegister | illegalControllerTree | illegalRegion
  deriving DecidableEq, Repr, Inhabited

/-- What a stream feed is for: a CFGL load, or the install of a placed entry (R300, R28). -/
inductive FeedFor where
  | load | install
  deriving DecidableEq, Repr, Inhabited

/-- A configuration stream being fed (R145 to R150): the words to come, the cursor, the modes, the running sum, the shadow
plane and its commits, and the first error. -/
structure Feed where
  for_ : FeedFor
  words : List Word
  /-- Streams behind this one, and whether their layout is tested. -/
  more : List (Bool × List Word) := []
  complete : Bool
  begun : Bool := false
  cursor : Option Offset := none
  hardCur : Bool := false
  autox : Bool := false
  rect : Option (Nat × Nat) := none
  last : Option Nat := none
  sum : Nat := 0
  tag : Nat := 0
  closed : Bool := false
  err : Option LoadErr := none
  plane : Plane
  lregs : AMap Word := []
  binit : List (Nat × Nat × Nat × Payload) := []
  preload : List (Nat × Nat × Nat) := []
  /-- Blocks that the stream has written a field of (R244). -/
  hardSet : List Offset := []
  deriving DecidableEq, Repr, Inhabited

/-! ### Regions -/

/-- A detected fault (R348, R350, R352): class, subcode, unit, faulting token and partner payload. -/
structure FaultInfo where
  cls : Nat
  sub : Nat
  off : Offset
  ctx : Nat
  port : Nat
  /-- 0 cell, 1 SP, 2 ME, 3 bridge or link port. -/
  unit : Nat
  tok : Option Beat
  partner : Payload
  round : Nat
  deriving DecidableEq, Repr, Inhabited

/-- An invocation status (R298). -/
structure Status where
  code : Nat
  cls : Nat := 0
  sub : Nat := 0
  /-- The number of the invocation within its record. -/
  no : Nat := 0
  deriving DecidableEq, Repr, Inhabited

/-- A pure invocation (R364, R369, R371): extents, digest stage, watched granules, violation, cancelled, hit copies. -/
structure PureInv where
  args : List (Nat × Nat)
  res : List (Nat × Nat)
  key : Option (List Byte) := none
  looked : Bool := false
  hit : Bool := false
  missed : Bool := false
  granules : List Nat := []
  overflow : Bool := false
  violation : Option Nat := none
  cancelled : Bool := false
  staged : List (Offset × Nat × Nat) := []
  /-- A hit: the unit of the reuse store that holds the result, the bytes copied, whether a piece is under way, and whether a
  page fault withholds the next (R368). -/
  store : Nat := 0
  copied : Nat := 0
  copying : Bool := false
  withheld : Bool := false
  deriving DecidableEq, Repr, Inhabited

/-- An ARM-queue entry (R296). -/
structure ArmEntry where
  tiles : Nat
  consts : Option (List Word)
  mode : Word
  modeBad : Bool := false
  deadline : Nat
  prio : Nat
  pureInv : Option PureInv
  age : Nat
  /-- The cycle at which it began to wait for its placement: it joined the queue, or its save was complete (R334). -/
  since : Nat := age
  /-- Levels that aging has raised it by (R334). -/
  raised : Nat := 0
  /-- Its number within the record. -/
  no : Nat := 0
  /-- Whether this entry is a saved invocation that returns (R339). -/
  resumed : Bool := false
  deriving DecidableEq, Repr, Inhabited

/-- An armed invocation (R296). -/
structure Invocation where
  entry : ArmEntry
  armedAt : Nat
  /-- The iteration counter (R287): the tiles that no source has issued yet. -/
  left : Nat := entry.tiles
  windows : Nat := 0
  windowStart : Nat := 0
  deriving DecidableEq, Repr, Inhabited

/-- A registered node's layout (R317, R326): copies with their positions and contexts, folded, run of windows. -/
structure NodeLayout where
  nid : Nat
  /-- The written position and context. -/
  home : Offset × Nat
  copies : List (Offset × Nat)
  folded : Bool := false
  runBottle : Nat := 0
  runOver : Nat := 0
  runIdle : Nat := 0
  /-- Whose updates the update merge takes next, the non-DATA tokens behind it, and those that each copy has taken (R320). -/
  turn : Nat := 0
  epoch : Nat := 0
  taken : List Nat := []
  /-- Proposed transition: 1 clone, 2 unclone, 3 fold, 4 unfold. -/
  want : Nat := 0
  /-- A commit that touched the node completed in this window: the tests skip it (R314). -/
  skip : Bool := false
  deriving DecidableEq, Repr, Inhabited

/-- A cut in progress (R339): the round, whether a page fault asked for it, its start, and whether it has become a forced
freeze (R340). -/
structure Cut where
  round : Nat
  forDrain : Bool
  start : Nat
  forced : Bool := false
  /-- The save area has no room for a fault drain: the region stands still where it is until RESUME (R342). -/
  inPlace : Bool := false
  deriving DecidableEq, Repr, Inhabited

/-- A drain before a swap (R357): its start, and the outputs that DRN is still to be injected at, with the round. -/
structure Drain where
  start : Nat
  owed : List (LinkEnd × Nat) := []
  deriving DecidableEq, Repr, Inhabited

/-- A placed section: geometry, planes, cells, links, hard blocks, invocation and fault, cut, drain state. -/
structure Region where
  id : RegId
  org : Pos
  w : Nat
  h : Nat
  hw : Nat
  hh : Nat
  /-- Headroom is reserved (first pass) or held softly (R331). -/
  soft : Bool := false
  plane : Plane := []
  /-- The layout tag of the stream that made the active plane (R146, R228). -/
  tag : Nat := 0
  installed : Bool := false
  feed : Option Feed := none
  /-- A checked shadow plane ready for a swap. -/
  shadow : Option Feed := none
  cells : AMap Cell := []
  links : List Link := []
  sps : List Sp := []
  mes : List Me := []
  inv : Option Invocation := none
  detected : Option FaultInfo := none
  /-- The cycle in which it was detected (R350). -/
  detectedAt : Nat := 0
  /-- Units that have raised a fault: unit kind, offset, context (R7). -/
  halted : List (Nat × Offset × Nat) := []
  more : Bool := false
  frozen : Option FaultInfo := none
  cut : Option Cut := none
  drain : Option Drain := none
  /-- The plan of a commit under way, the written nodes that it affects, and the round at whose edge it takes effect (R324). -/
  commit : Option CommitPlan := none
  commitNodes : List (Offset × Nat) := []
  commitRound : Nat := 0
  hang : Nat := 0
  placedAt : Nat := 0
  charge : Nat := 0
  layouts : List NodeLayout := []
  /-- A layout record under way: the writes to come, each a VA and its bytes, and the LV that is to hold after the last (R326). -/
  recWrites : List (Nat × List Byte) := []
  lvDue : Option Nat := none
  /-- The ends of Slaundene circuits in the region (R96). -/
  farEnds : List FarEnd := []
  /-- The bridge circuits that its placement and its last swap took (R376). -/
  uses : List BridgeUse := []
  carve : Nat := 0
  ovfVa : Nat := 0
  ovfLen : Nat := 0
  deriving DecidableEq, Repr, Inhabited

/-! ### Images and sequencer contexts (14_sequencer.md) -/

/-- A section of an image (Table 17 of chapter 8): patched stream, rectangle, phases, headroom, spill. -/
structure SectInfo where
  stream : List Word
  w : Nat
  h : Nat
  cph : Nat
  rph : Nat
  hnone : Bool
  hw : Nat
  hh : Nat
  spill : Nat
  /-- Positions that the stream installs, and the bytes of its tile-store segments (R333, R363). -/
  npos : Nat := 0
  tileBytes : Nat := 0
  /-- The ends of its Slaundene circuits (R96). -/
  farEnds : List FarEnd := []
  deriving DecidableEq, Repr, Inhabited

/-- A loaded image (R167 to R170, R285): code words, controller tree, sections, digest. -/
structure Image where
  part : Nat
  va : Nat
  digest : List Byte
  code : List Word
  hlen : Nat
  kinds : List Nat
  parents : List Nat
  sectParents : List Nat
  sects : List SectInfo
  deriving DecidableEq, Repr, Inhabited

/-- A section context (R287). -/
structure SectCtx where
  mode : Word := 0
  /-- The last MODE named a word with a nonzero bit above bit 31 (R299). -/
  modeBad : Bool := false
  cpc : Nat := 0
  lv : Nat := 0
  pend : Option Nat := none
  /-- The pending load ended with an error (R300, R301). -/
  loadErr : Option LoadErr := none
  armq : List ArmEntry := []
  armed : Bool := false
  /-- Statuses of ended invocations no WAITS has reported, oldest first. -/
  statuses : List Status := []
  sstat : Status := ⟨0, 0, 0, 0⟩
  queued : Nat := 0
  sinceWait : Bool := false
  /-- The entry at the head of the queue has been admitted and placed (R334); its charge. -/
  placed : Bool := false
  charge : Nat := 0
  /-- VAs of the streams that CFGS has accepted, and whether their layout has been tested: a later placement installs them
  behind the image's stream (R301, log 29). -/
  streams : List (Nat × Bool) := []
  layouts : List NodeLayout := []
  saved : Option Region := none
  /-- The layout of LV where it is not the written one and the section has no region: the region that had it, without its state (R408). -/
  kept : Option Region := none
  deriving DecidableEq, Repr, Inhabited

/-- STATE of a context (Table 14-2). -/
inductive SeqSt where
  | idle | run | parklink | parkwait | parkfault
  deriving DecidableEq, Repr, Inhabited

/-- What a parked or continuing context waits for. -/
inductive Park where
  | nothing
  | start
  | waits (gd sect : Nat)
  | cfgs (gd sect : Nat)
  | waitm (gd va : Nat)
  | halt
  | link
  /-- A page fault of an access; the instruction is issued again at RESUME (R293). -/
  | pageFault
  /-- A walk for an access. -/
  | walk
  /-- The end of a skipped record is under way: its STATUS is to be written (R283). -/
  | finish (st : Status)
  /-- Parked by a fault of its own (R282). -/
  | trap
  deriving DecidableEq, Repr, Inhabited

/-- A sequencer context (R281 to R289). -/
structure Seq where
  st : SeqSt := .idle
  park : Park := .nothing
  sqhead : Nat := 0
  sqrec : Nat := 0
  cls : Nat := 0
  sub : Nat := 0
  completed : Nat := 0
  errNo : Nat := 0
  errStage : Nat := 0
  regs : Vector DWord 32 := Vector.replicate 32 0
  owed : BitVec 32 := 0
  pc : Nat := 0
  prio : Nat := 0
  deadline : Nat := 0
  image : Option Image := none
  tp : Nat := 0
  stopReq : Bool := false
  /-- The age that the record's ARMs take, when a TAIL spliced it in (R334), the start of the record, and the records that
  TAILs of this context spliced in, by VA, with the age of their parent. -/
  startAge : Option Nat := none
  recStart : Nat := 0
  spliced : AMap Nat := []
  /-- What the context was parked for when it faulted or was withheld, and goes back to. -/
  resumeTo : Park := .nothing
  lastIssue : Nat := 0
  raised : Bool := false
  irqAtEnd : Bool := false
  spill : Nat := 0
  ovfVa : Nat := 0
  ovfLen : Nat := 0
  extVa : Nat := 0
  nArg : Nat := 0
  nRes : Nat := 0
  sects : List SectCtx := []
  /-- Invocations queued by this record (R307). -/
  queuedNo : Nat := 0
  /-- TLB-missing access: walk done once, translate again. -/
  walking : Bool := false
  /-- Accesses refused at their points of performance: GO sends them again (R283). -/
  retry : List MemReq := []
  deriving DecidableEq, Repr, Inhabited

/-! ### Partitions -/

/-- A queue register pair (FNQ, MNQ, FRQ, SF): base, size code, target code, head and tail (R42, R351). -/
structure NQueue where
  base : Nat := 0
  s : Nat := 0
  host : Bool := false
  head : BitVec 16 := 0
  tail : BitVec 16 := 0
  deriving DecidableEq, Repr, Inhabited

/-- An access counter of an SP (R51, R52): the SP's key 56 * die + index, granule, count, slot of its notice. -/
structure AccCount where
  sp : Nat
  gran : Nat
  big : Bool
  tgt : Nat
  count : Nat
  notice : Option (BitVec 16)
  deriving DecidableEq, Repr, Inhabited

/-- An Agate entry (R366). -/
structure AgEntry where
  key : List Byte
  slot : Nat
  filter : BitVec 64
  /-- The granules that its arguments touch (R369). -/
  granules : List Nat
  lens : List Nat
  /-- Its first unit in the reuse store. -/
  store : Nat
  stamp : Nat
  deriving DecidableEq, Repr, Inhabited

/-- A public record waiting for room: the region that owes it (none: a sequencer context), and its bytes (R351). -/
structure PendRec where
  who : Option RegId
  bytes : List Byte
  deriving DecidableEq, Repr, Inhabited

/-- A save area in use: the region, its first 4 KiB unit and their number, and the tick that tells its content (R341, log 17). -/
structure SaveArea where
  reg : RegId
  first : Nat
  units : Nat
  tick : Nat
  /-- The key slot that it was written under has been revoked: it can no longer be restored (R379). -/
  revoked : Bool := false
  deriving DecidableEq, Repr, Inhabited

/-- A partition: its shape, key slot, control page (03, 04, 07, 14 to 19) and tables. -/
structure Part where
  /-- 0 not in service, 1 whole die, 2 die half. -/
  shape : Nat := 0
  slot : Option Nat := none
  xroot : Nat := 0
  invAddr : Nat := 0
  invCnt : BitVec 32 := 0
  invBusy : Bool := false
  invDone : BitVec 32 := 0
  /-- Accesses that the TDR markers of the invalidation stand behind (R43). -/
  invWait : List Nat := []
  pflim : BitVec 16 := 50
  fnq : NQueue := {}
  mnq : NQueue := {}
  mnOvf : Bool := false
  mnLost : Nat := 0
  acthr : Nat := 12
  resume : BitVec 32 := 0
  dlTrap : Bool := false
  dlLate : BitVec 32 := 0
  preN : BitVec 5 := 0
  preS : BitVec 16 := 0
  preBusy : Bool := false
  /-- The section whose cut BUSY is about. -/
  preFor : Option RegId := none
  plgrp : BitVec 8 := 0
  pwbud : Nat := 0
  pwuse : Nat := 0
  tAge : BitVec 16 := 200
  pren : Bool := false
  cutlim : BitVec 16 := 100
  ckbase : Nat := 0
  cksize : BitVec 32 := 0
  winbase : Nat := 0
  wincnt : BitVec 12 := 0
  preCuts : BitVec 16 := 0
  preFreezes : BitVec 16 := 0
  preRefused : BitVec 16 := 0
  bthr : Nat := 12
  othr : Nat := 2
  hold : Nat := 2
  susp : Bool := false
  lrbase : Nat := 0
  rbCommits : BitVec 32 := 0
  rbRefused : Nat := 0
  rbProposed : Nat := 0
  statOvf : BitVec 256 := 0
  statSum : AMap Word := []
  frq : NQueue := {}
  sfq : NQueue := {}
  hmBase : Nat := 0
  hmHost : Bool := false
  hmLen : BitVec 20 := 0
  fMore : BitVec 16 := 0
  fSlost : Nat := 0
  fEccc : Nat := 0
  frN : BitVec 5 := 0
  frS : BitVec 16 := 0
  frAct : BitVec 2 := 0
  frBusy : Bool := false
  /-- The section and the ACT that BUSY is about. -/
  frFor : Option (RegId × BitVec 2) := none
  rseq : BitVec 16 := 0
  nseq : BitVec 32 := 0
  agEn : Bool := false
  agBusy : Bool := false
  agWays : BitVec 16 := 0
  agsBase : Nat := 0
  agsSize : BitVec 32 := 0
  agHits : BitVec 32 := 0
  agInserts : BitVec 32 := 0
  agInval : BitVec 32 := 0
  agCancel : BitVec 32 := 0
  agPurity : BitVec 32 := 0
  agRefused : BitVec 32 := 0
  pirq : BitVec 4 := 0
  irqs : Nat := 0
  hdmRead : Bool := true
  hdmWrite : Bool := true
  entries : List AgEntry := []
  watch : List Nat := []
  llTlb : List TlbEntry := []
  l1Tlb : AMap (List TlbEntry) := []
  accs : List AccCount := []
  notices : List Notice := []
  /-- Public records waiting for room (R351). -/
  pending : List PendRec := []
  saves : List SaveArea := []
  deriving DecidableEq, Repr, Inhabited

/-! ### Device -/

/-- State of a key slot (R377). -/
inductive SlotSt where
  | empty | bound | revoking
  deriving DecidableEq, Repr, Inhabited

/-- A key slot (R377). -/
structure KeySlot where
  st : SlotSt := .empty
  data : List Byte := List.replicate 32 0
  tweak : List Byte := List.replicate 32 0
  tenant : List Byte := List.replicate 16 0
  tdn : Nat := 0
  /-- The binding number, which tells the lines of one binding from another's (log 9). -/
  binding : Nat := 0
  deriving DecidableEq, Repr, Inhabited

/-- A bridge flit in flight (R96): circuit's region and link, crossing, sequence number, beat. -/
structure BridgeFlit where
  reg : RegId
  link : Nat
  seq : Nat
  beat : Beat
  deriving DecidableEq, Repr, Inhabited

/-- One direction of a bridge (R96 to R98). -/
structure Bridge where
  retry : List BridgeFlit := []
  wire : List BridgeFlit := []
  sendSeq : Nat := 0
  recvSeq : Nat := 0
  refused : Nat := 0
  retries : Nat := 0
  stopped : Bool := false
  turn : Nat := 0
  /-- The regions that faulted when it stopped and have not been released (R362). -/
  faulted : List RegId := []
  deriving DecidableEq, Repr, Inhabited

/-- A Slaundene port (R385, R386): receive sequence, refusals, the flits it holds until they are acknowledged, what has gone out on
its lanes, and the circuit beats that came in for no circuit yet. -/
structure SPort where
  recvSeq : BitVec 16 := 0
  sendSeq : BitVec 16 := 0
  refused : Nat := 0
  stopped : Bool := false
  outgoing : List LinkFlit := []
  wire : List LinkFlit := []
  circuits : List LinkFlit := []
  /-- The circuit number after the one that sent last (R96). -/
  turn : Nat := 0
  /-- The regions that faulted when it stopped and have not been released (R362). -/
  faulted : List RegId := []
  deriving DecidableEq, Repr, Inhabited

/-- A CXLMEM range of a partition (R382), in bytes. -/
structure CxlRange where
  part : Nat
  port : Nat
  off : Nat
  len : Nat
  deriving DecidableEq, Repr, Inhabited

/-- A line of another module that has come for a context: its line number, data and poison. -/
structure FarLine where
  who : SeqId
  line : Nat
  data : List Byte
  pois : Bool
  deriving DecidableEq, Repr, Inhabited

/-- An event token (R72) on its way or fired. -/
structure EvTok where
  reg : RegId
  off : Offset
  ctx : Nat
  word : Word
  deriving DecidableEq, Repr, Inhabited

/-- Which agent runs the instruction being executed. -/
inductive Actor where
  | idle
  | seq (c : SeqId)
  | cfg (r : RegId)
  | node (u : UnitId)
  /-- A stream port, at the SPB at the head of its REQ port. -/
  | sp (r : RegId) (off : Offset)
  /-- Queue entry k of an engine; k = 16 is the engine's port head. -/
  | me (r : RegId) (off : Offset) (k : Nat)
  deriving DecidableEq, Repr, Inhabited

/-- What happens next: an agent runs its next instruction, an event of the table occurs, or cycles pass. -/
inductive Action where
  | agent (a : Actor)
  | event (i : Instr)
  | elapse (n : Nat)
  deriving DecidableEq, Repr, Inhabited

/-- The device. -/
structure State where
  cycle : BitVec 64
  tick : Nat
  agenda : List Action
  actor : Actor
  mem : List Host.Cell
  memPois : List Nat
  lineKey : AMap Nat
  pmap : BitVec 8
  shaped : Bool
  modId : Nat
  domSize : Nat
  fwStat : BitVec 8
  fwVersion : BitVec 16
  mbAddr : Nat
  mbCmd : BitVec 8
  mbBusy : Bool
  /-- The command that runs while BUSY is 1; MBCMD may hold another meanwhile (R382). -/
  mbRun : BitVec 8
  mbDone : Bool
  mbResult : BitVec 8
  mbOut : List Byte
  mbIrqs : Nat
  krvCnt : Nat
  measure : List Byte
  measureCount : Nat
  slots : List KeySlot
  bindings : Nat
  cxlMap : List CxlRange
  cxlUp : List Bool
  cxlCap : List Nat
  bridges : List Bridge
  sports : List SPort
  parts : List Part
  seqs : AMap Seq
  images : List Image
  regions : List Region
  reqs : List MemReq
  walks : List Walk
  walkTurn : AMap Nat
  far : List FarLine
  statLane : List StatTok
  evLane : List EvTok
  evFired : List EvTok
  scrubbing : List Pos
  fseq : Nat
  reqSeq : Nat
  hostReads : List (Nat × List Byte × Bool)
  /-- Lines of device memory that the host holds in its cache, by host offset / 256: the bytes and their poison (R266, R267). -/
  hostHeld : List (Nat × List Byte × Bool)
  /-- The lines that a partition has staged at an SP that no region of it holds now (R66). -/
  pools : AMap (List PoolLine)
  /-- What the device is made with (R380): the digest in the boot ROM, the fused security version, and the identity key and certificate
  chain that the device page shows. -/
  romDigest : List Byte
  fusedVersion : BitVec 16
  idKey : List Byte
  certChain : List Byte
  deriving DecidableEq, Repr

/-- A partition's page after reset: the defaults the tables give, else zero (log 2); PLGRP names the partition alone. -/
def Part.fresh (p : Nat) : Part := { plgrp := (1 : BitVec 8) <<< p }

/-- The device right after reset (R380, R381, R375): no die shaped, no key bound, nothing loaded; registers at the values
of the tables, and where they give none at the value of log 2. -/
def State.reset : State :=
  { cycle := 0, tick := 0, agenda := [], actor := .idle, mem := [], memPois := [], lineKey := [], pmap := 0,
    shaped := false, modId := 0, domSize := 0, fwStat := 0, fwVersion := 0, mbAddr := 0, mbCmd := 0, mbBusy := false, mbRun := 0,
    mbDone := false, mbResult := 0, mbOut := [], mbIrqs := 0, krvCnt := 0, measure := List.replicate 64 0,
    measureCount := 0, slots := List.replicate 64 {}, bindings := 0, cxlMap := [], cxlUp := [true, true],
    cxlCap := [2 ^ 42, 2 ^ 42], bridges := List.replicate 8 {}, sports := List.replicate 8 {},
    parts := (List.range 8).map Part.fresh, seqs := [], images := [], regions := [], reqs := [], walks := [], walkTurn := [], far := [],
    statLane := [], evLane := [], evFired := [], scrubbing := [], fseq := 0, reqSeq := 0, hostReads := [],
    hostHeld := [], pools := [], romDigest := List.replicate 64 0, fusedVersion := 0, idKey := List.replicate 57 0,
    certChain := [] }

end Sys2Proof.Machine
end

