-- ==== Sys2Proof/Config.lean ====
section
/-! DEFINITION. What the specification leaves open: free values with no body, so that no proof can see what they are,
and the constants an implementation fixes. -/

namespace Sys2Proof.Config

/-- What happens next when the agenda is empty, one action for each tick (log 3). -/
opaque freeChoice : Nat → Machine.Action

/-- A byte of a line that was written under one key binding and is read under another: R378 says unrelated bytes.
Arguments: the writing binding, the reading binding, the address, the stored byte (log 9). -/
opaque unrelatedByte : Nat → Nat → Nat → BitVec 8 → BitVec 8

/-- The Ed448 signature of QUOTE over the given bytes, 114 bytes taken from it (R381; log 10). -/
opaque ed448Sign : List (BitVec 8) → Nat → BitVec 8

/-- The Ed448 signature of firmware verifies under the key whose digest the boot ROM holds: the digest, the signed bytes, the signature
(R380; log 10). -/
opaque fwVerify : List (BitVec 8) → List (BitVec 8) → List (BitVec 8) → Bool

/-- Byte i of the X448 secret shared with the ephemeral public key of a key blob (R382; log 10). -/
opaque x448Shared : List (BitVec 8) → Nat → BitVec 8

/-- The bytes of a measured event, from its kind (0 firmware image, 1 firmware configuration, 2 SHAPE, 3 BIND, 4 REVOKE) and
the values recorded with it: R381 states what is recorded, and no file its byte layout (log 10). -/
opaque measuredEvent : Nat → List (BitVec 8) → List (BitVec 8)

/-- The value that a sequencer load or SAMO of a poisoned word returns, by tick: no file states it (log 23). -/
opaque poisonedLoad : Nat → BitVec 64

/-- Byte i of the save area that a save of a tick wrote: the layout of a save is not architectural, and it is encrypted
(R341; log 17). -/
opaque saveByte : Nat → Nat → BitVec 8

/-- The size in bytes of the register space of a die, the limit of an MMIO target: R34 names it, no file gives it (log 14). -/
opaque mmioSpace : Nat → Nat

/-- A chaser reads ahead, or a held chance of one is taken, at a tick: R68 says at most how far, not when (log 115). -/
opaque readAhead : Nat → Bool

/-- The Slaundene circuits of a section, by the image's DIGEST and the section's index: the loader sets them from the image's link lines
(R159, R388), and no file says how an image names one (log 15). -/
opaque farEnds : List (BitVec 8) → Nat → List FarEnd

/-- The implementation code of R162. -/
def implCode : Nat := 0x0100

end Sys2Proof.Config
end

