-- ==== Sys2Proof/Decode.lean ====
section
/-! DEFINITION. Decoding and encoding: configuration words (R145), sequencer words (R290, R291), node words (R151, R153),
matrix command beats (R249) and SPB blocks (R58 to R66). Every decoder is total and rejects by name. -/

namespace Sys2Proof

/-- Why a word is no instruction. -/
inductive DecodeErr where
  /-- R290: unassigned opcode or func, or a nonzero field that the instruction does not use. -/
  | illegalInstruction
  /-- R146: cursor op 111. -/
  | illegalCursorOp
  /-- R153: an opcode outside the assigned runs. -/
  | illegalNodeOpcode
  /-- R249: an unknown CODE. -/
  | unknownCommand
  /-- R58: an unknown KIND. -/
  | unknownSpbKind
  deriving DecidableEq, Repr

/-! ### Small codes -/

def Fmt.ofCode (c : BitVec 4) : Fmt :=
  match c.toNat with
  | 0 => .raw | 1 => .i8 | 2 => .i16 | 3 => .i32 | 4 => .n16 | 5 => .n32 | 6 => .fp32 | 7 => .bf16
  | 8 => .fp16 | 9 => .e4m3 | 10 => .e5m2 | 11 => .e4m3q | 12 => .e2m1q | 13 => .i4q | 14 => .osd | _ => .crd

def Fmt.code : Fmt → BitVec 4
  | .raw => 0 | .i8 => 1 | .i16 => 2 | .i32 => 3 | .n16 => 4 | .n32 => 5 | .fp32 => 6 | .bf16 => 7
  | .fp16 => 8 | .e4m3 => 9 | .e5m2 => 10 | .e4m3q => 11 | .e2m1q => 12 | .i4q => 13 | .osd => 14 | .crd => 15

def Rnd.ofCode (c : BitVec 2) : Rnd :=
  match c.toNat with | 0 => .rne | 1 => .rz | 2 => .rd | _ => .ru

def Rnd.code : Rnd → BitVec 2
  | .rne => 0 | .rz => 1 | .rd => 2 | .ru => 3

def Src.ofCode (c : BitVec 3) : Src :=
  match c.toNat with
  | 0 => .a | 1 => .b | 2 => .c | 3 => .d | 4 => .lreg | 5 => .imm | 6 => .bank | _ => .none

def Src.code : Src → BitVec 3
  | .a => 0 | .b => 1 | .c => 2 | .d => 3 | .lreg => 4 | .imm => 5 | .bank => 6 | .none => 7

/-- One bit as a Bool. -/
def bit {n : Nat} (w : BitVec n) (i : Nat) : Bool := w.getLsbD i

/-- A field of w bits from bit lo. -/
def fld {n : Nat} (w : BitVec n) (lo k : Nat) : BitVec k := w.extractLsb' lo k

/-! ### Node words (Table 8-3) -/

def NodeWord.ofBits (w : BitVec 72) : NodeWord :=
  { fmt := Fmt.ofCode (fld w 59 4), rnd := Rnd.ofCode (fld w 57 2), sat := bit w 56,
    srcA := Src.ofCode (fld w 53 3), srcB := Src.ofCode (fld w 50 3), srcC := Src.ofCode (fld w 47 3),
    dx := bit w 46, dy := bit w 45, dl := bit w 44, la := fld w 41 3, ld := fld w 38 3,
    aux := fld w 32 6, imm := fld w 0 32 }

def NodeWord.bits (w : NodeWord) (opc : BitVec 9) : BitVec 72 :=
  opc ++ w.fmt.code ++ w.rnd.code ++ BitVec.ofBool w.sat ++ w.srcA.code ++ w.srcB.code ++ w.srcC.code
    ++ BitVec.ofBool w.dx ++ BitVec.ofBool w.dy ++ BitVec.ofBool w.dl ++ w.la ++ w.ld ++ w.aux ++ w.imm

/-- The node operation of an opcode (Table 8-4). -/
def nodeOfOpc (opc : Nat) (w : NodeWord) : Option Instr :=
  match opc with
  | 0x000 => some (.iadd w)
  | 0x001 => some (.isub w)
  | 0x002 => some (.imul w)
  | 0x003 => some (.imulh w)
  | 0x004 => some (.imad w)
  | 0x005 => some (.ineg w)
  | 0x006 => some (.iabs w)
  | 0x007 => some (.imin w)
  | 0x008 => some (.imax w)
  | 0x009 => some (.icmp w)
  | 0x00A => some (.and w)
  | 0x00B => some (.or w)
  | 0x00C => some (.xor w)
  | 0x00D => some (.andn w)
  | 0x00E => some (.not w)
  | 0x00F => some (.shl w)
  | 0x010 => some (.shr w)
  | 0x011 => some (.sar w)
  | 0x012 => some (.rotl w)
  | 0x013 => some (.clz w)
  | 0x014 => some (.popc w)
  | 0x015 => some (.sel w)
  | 0x040 => some (.fadd w)
  | 0x041 => some (.fsub w)
  | 0x042 => some (.fmul w)
  | 0x043 => some (.ffma w)
  | 0x044 => some (.fneg w)
  | 0x045 => some (.fabs w)
  | 0x046 => some (.fmin w)
  | 0x047 => some (.fmax w)
  | 0x048 => some (.fcmp w)
  | 0x049 => some (.frcp w)
  | 0x04A => some (.frsq w)
  | 0x04B => some (.fsqrt w)
  | 0x04C => some (.fexp2 w)
  | 0x04D => some (.flog2 w)
  | 0x04E => some (.fscale w)
  | 0x080 => some (.cvt w)
  | 0x081 => some (.qpack w)
  | 0x082 => some (.qunpk w)
  | 0x083 => some (.bcast w)
  | 0x084 => some (.shuf w)
  | 0x085 => some (.slide w)
  | 0x086 => some (.pack w)
  | 0x087 => some (.unpack w)
  | 0x088 => some (.laneid w)
  | 0x0A0 => some (.hsum w)
  | 0x0A1 => some (.hmax w)
  | 0x0A2 => some (.hmin w)
  | 0x0A3 => some (.acc w)
  | 0x0A4 => some (.accmax w)
  | 0x0A5 => some (.pscan w)
  | 0x0A6 => some (.count w)
  | 0x0C0 => some (.steer w)
  | 0x0C1 => some (.fork w)
  | 0x0C2 => some (.merge w)
  | 0x0C3 => some (.mergerr w)
  | 0x0C4 => some (.mergesel w)
  | 0x0C5 => some (.dist w)
  | 0x0C6 => some (.dispatch w)
  | 0x0C7 => some (.gate w)
  | 0x0C8 => some (.drop w)
  | 0x0C9 => some (.sink w)
  | 0x0CA => some (.gen w)
  | 0x0CB => some (.carry w)
  | 0x0CC => some (.invar w)
  | 0x0CD => some (.repeatN w)
  | 0x0CE => some (.seqtag w)
  | 0x0CF => some (.reorder w)
  | 0x0E0 => some (.mark w)
  | 0x0E1 => some (.stopi w)
  | 0x0E2 => some (.stopx w)
  | 0x0E3 => some (.stopup w)
  | 0x0E4 => some (.waitmk w)
  | 0x0E5 => some (.specres w)
  | 0x0E6 => some (.retype w)
  | 0x100 => some (.ld w)
  | 0x101 => some (.st w)
  | 0x102 => some (.ldreq w)
  | 0x103 => some (.streq w)
  | 0x104 => some (.push w)
  | 0x105 => some (.pop w)
  | 0x106 => some (.tld w)
  | 0x107 => some (.tst w)
  | 0x108 => some (.spbsend w)
  | 0x109 => some (.aadd w)
  | 0x10A => some (.amin w)
  | 0x10B => some (.amax w)
  | 0x10C => some (.axchg w)
  | 0x10D => some (.acas w)
  | 0x10E => some (.atas w)
  | 0x10F => some (.aor w)
  | 0x110 => some (.fence w)
  | 0x140 => some (.fscan w)
  | 0x141 => some (.flook w)
  | 0x142 => some (.fisect w)
  | 0x143 => some (.funion w)
  | 0x144 => some (.frep w)
  | 0x145 => some (.fred w)
  | 0x146 => some (.fwrite w)
  | 0x160 => some (.oadd w)
  | 0x161 => some (.omul w)
  | 0x162 => some (.ocmp w)
  | 0x163 => some (.ocut w)
  | 0x164 => some (.ocvt w)
  | 0x170 => some (.pqcell w)
  | 0x171 => some (.stat w)
  | 0x172 => some (.rate w)
  | 0x173 => some (.ver w)
  | 0x174 => some (.sysid w)
  | 0x175 => some (.trap w)
  | 0x176 => some (.nop w)
  | _ => none

/-- Decode a 72-bit node word. -/
def decodeNode (w : BitVec 72) : Except DecodeErr Instr :=
  match nodeOfOpc (fld w 63 9).toNat (NodeWord.ofBits w) with
  | some i => .ok i
  | none => .error .illegalNodeOpcode

/-! ### Configuration words (Tables 8-1 and 8-2) -/

def decodeCfg (w : BitVec 32) : Except DecodeErr Instr :=
  if bit w 31 then
    match (fld w 28 3).toNat with
    | 0 => .ok (.setc (fld w 14 14) (fld w 0 14))
    | 1 => .ok (.movc (fld w 14 14) (fld w 0 14))
    | 2 => .ok (.autox (fld w 14 14) (fld w 0 14))
    | 3 => .ok (.rect (fld w 14 14) (fld w 0 14))
    | 4 => .ok (.vers (fld w 14 14) (fld w 0 14))
    | 5 => .ok (.ends (fld w 0 28))
    | 6 => .ok (.hard (fld w 14 14) (fld w 0 14))
    | _ => .error .illegalCursorOp
  else
    match (fld w 24 7).toNat with
    | 26 => .ok (.localRegisterCommit (fld w 0 24))
    | 92 => .ok (.bankInitCommit (fld w 0 24))
    | 93 => .ok (.tilePreload (fld w 0 24))
    | _ => .ok (.write (fld w 24 7) (fld w 0 24))

/-! ### Sequencer words (Tables 14-5 and 14-6) -/

/-- The word is an instruction only when its unused bits are zero (R290). -/
def whenZero {k : Nat} (unused : BitVec k) (i : Instr) : Except DecodeErr Instr :=
  if unused = 0 then .ok i else .error .illegalInstruction

/-- The register-register operations of opcode 0x00, by func. -/
def aluOfFunc (f : Nat) (d a b : BitVec 5) : Option Instr :=
  match f with
  | 0x000 => some (.add d a b)
  | 0x001 => some (.sub d a b)
  | 0x002 => some (.mul d a b)
  | 0x003 => some (.mulh d a b)
  | 0x004 => some (.div d a b)
  | 0x005 => some (.rem d a b)
  | 0x006 => some (.seqAnd d a b)
  | 0x007 => some (.seqOr d a b)
  | 0x008 => some (.seqXor d a b)
  | 0x009 => some (.seqShl d a b)
  | 0x00A => some (.seqShr d a b)
  | 0x00B => some (.seqSar d a b)
  | 0x00C => some (.slt d a b)
  | 0x00D => some (.sltn d a b)
  | _ => none

/-- The SAMO operations of opcode 0x14, by func [3:0] (R293). -/
def samoOfFunc (f : Nat) (d a b : BitVec 5) (w : Bool) : Option Instr :=
  match f with
  | 0 => some (.samoAdd d a b w)
  | 1 => some (.samoSwap d a b w)
  | 2 => some (.samoCas d a b w)
  | 3 => some (.samoAnd d a b w)
  | 4 => some (.samoOr d a b w)
  | 5 => some (.samoXor d a b w)
  | 6 => some (.samoMin d a b w)
  | 7 => some (.samoMax d a b w)
  | 8 => some (.samoMinu d a b w)
  | 9 => some (.samoMaxu d a b w)
  | _ => none

def orIllegal : Option Instr → Except DecodeErr Instr
  | some i => .ok i
  | none => .error .illegalInstruction

def decodeSeq (w : BitVec 32) : Except DecodeErr Instr :=
  let d : BitVec 5 := fld w 21 5
  let a : BitVec 5 := fld w 16 5
  let b : BitVec 5 := fld w 11 5
  let i : BitVec 16 := fld w 0 16
  match (fld w 26 6).toNat with
  | 0x00 => orIllegal (aluOfFunc (fld w 0 11).toNat d a b)
  | 0x01 => .ok (.addi d a i)
  | 0x02 => .ok (.andi d a i)
  | 0x03 => .ok (.ori d a i)
  | 0x04 => .ok (.xori d a i)
  | 0x05 => whenZero (fld w 6 10) (.shli d a (fld w 0 6))
  | 0x06 => whenZero (fld w 6 10) (.shri d a (fld w 0 6))
  | 0x07 => whenZero (fld w 6 10) (.sari d a (fld w 0 6))
  | 0x08 => .ok (.lih d a i)
  | 0x10 => .ok (.seqLd d a i)
  | 0x11 => .ok (.ldw d a i)
  | 0x12 => .ok (.seqSt d a i)
  | 0x13 => .ok (.stw d a i)
  | 0x14 => if (fld w 5 6 : BitVec 6) = 0 then orIllegal (samoOfFunc (fld w 0 4).toNat d a b (bit w 4))
            else .error .illegalInstruction
  | 0x18 => .ok (.beq d a i)
  | 0x19 => .ok (.bne d a i)
  | 0x1A => .ok (.blt d a i)
  | 0x1B => .ok (.bge d a i)
  | 0x1C => whenZero a (.loop d i)
  | 0x1D => .ok (.jmp (fld w 0 26))
  | 0x1E => .ok (.jal (fld w 0 26))
  | 0x1F => if d = 0 then whenZero i (.jr a) else .error .illegalInstruction
  | 0x20 => whenZero a (.cfgl d i)
  | 0x21 => whenZero a (.cfgs d i)
  | 0x22 => .ok (.arm d a i)
  | 0x23 => whenZero a (.waits d i)
  | 0x24 => .ok (.pure d a i)
  | 0x25 => whenZero a (.mode d i)
  | 0x26 => whenZero i (.waitm d a)
  | 0x27 => if d = 0 then whenZero (fld w 0 11) (.launch a b) else .error .illegalInstruction
  | 0x28 => if d = 0 then whenZero i (.tail a) else .error .illegalInstruction
  | 0x30 => whenZero a (.srd d (fld w 8 8) (fld w 0 8))
  | 0x31 => whenZero d (.swr a (fld w 8 8) (fld w 0 8))
  | 0x32 => if (fld w 0 3).toNat ≤ 5 then whenZero (fld w 3 23) (.seqFence (fld w 0 3)) else .error .illegalInstruction
  | 0x33 => whenZero (fld w 8 18) (.seqTrap (fld w 0 8))
  | 0x34 => whenZero (fld w 0 26) .halt
  | 0x35 => whenZero (fld w 0 26) .seqNop
  | _ => .error .illegalInstruction

/-! ### Matrix command beats (Table 12-3) -/

def MCmd.ofBits (w : BitVec 256) : MCmd :=
  { pmask := fld w 244 4, oport := fld w 242 2, bank := fld w 240 2, row0 := fld w 234 6, nrow := fld w 227 7,
    z := bit w 226, tagb := fld w 212 14, fa := Fmt.ofCode (fld w 208 4), fb := Fmt.ofCode (fld w 204 4),
    fd := Fmt.ofCode (fld w 200 4), rnd := Rnd.ofCode (fld w 198 2), sat := bit w 197, eswap := bit w 196,
    mon := bit w 195, mthr := fld w 191 4, rsv := fld w 0 191 }

def MCmd.bits (c : MCmd) (code : BitVec 8) : BitVec 256 :=
  code ++ c.pmask ++ c.oport ++ c.bank ++ c.row0 ++ c.nrow ++ BitVec.ofBool c.z ++ c.tagb ++ c.fa.code ++ c.fb.code
    ++ c.fd.code ++ c.rnd.code ++ BitVec.ofBool c.sat ++ BitVec.ofBool c.eswap ++ BitVec.ofBool c.mon ++ c.mthr ++ c.rsv

def decodeCmd (w : BitVec 256) : Except DecodeErr Instr :=
  let c := MCmd.ofBits w
  match (fld w 248 8).toNat with
  | 0x01 => .ok (.mload c)
  | 0x02 => .ok (.mswap c)
  | 0x03 => .ok (.mmul c)
  | 0x04 => .ok (.mdrain c)
  | 0x05 => .ok (.mzero c)
  | 0x06 => .ok (.mfmt c)
  | 0x07 => .ok (.mmigr c)
  | 0x08 => .ok (.mcount c)
  | _ => .error .unknownCommand

/-! ### SPB blocks (Table 4-2 and the bodies): byte k is bits [8k+7:8k] -/

def SpbHead.ofBits (w : BitVec 512) : SpbHead :=
  { fmt := Fmt.ofCode (fld w 12 4), evt := bit w 11, wr := bit w 10, lastArg := bit w 9,
    r2port := fld w 20 2, dport := fld w 18 2, rport := fld w 16 2, r2en := bit w 30, rctx := fld w 28 2,
    rin := fld w 24 2, rdx := fld w 32 16, rdy := fld w 48 16, etag := fld w 64 8, scope := fld w 72 3,
    tagb := fld w 80 14, count := fld w 96 32,
    rsv := fld w 8 1 ++ fld w 22 2 ++ fld w 31 1 ++ fld w 26 2 ++ fld w 75 5 ++ fld w 94 2 }

/-- The header as bytes 0-15, with KIND. -/
def SpbHead.bits (h : SpbHead) (kind : BitVec 8) : BitVec 128 :=
  h.count ++ fld h.rsv 0 2 ++ h.tagb ++ fld h.rsv 2 5 ++ h.scope ++ h.etag ++ h.rdy ++ h.rdx
    ++ fld h.rsv 9 1 ++ BitVec.ofBool h.r2en ++ h.rctx ++ fld h.rsv 7 2 ++ h.rin
    ++ fld h.rsv 10 2 ++ h.r2port ++ h.dport ++ h.rport
    ++ h.fmt.code ++ BitVec.ofBool h.evt ++ BitVec.ofBool h.wr ++ BitVec.ofBool h.lastArg ++ fld h.rsv 12 1 ++ kind

def LinBody.ofBits (w : BitVec 512) : LinBody :=
  { base := fld w 128 64, e0 := fld w 192 32, s0 := fld w 224 32, e1 := fld w 256 32, s1 := fld w 288 32,
    e2 := fld w 320 32, s2 := fld w 352 32, e3 := fld w 384 32, s3 := fld w 416 32, rsv := fld w 448 64 }

def LinBody.bits (b : LinBody) : BitVec 384 :=
  b.rsv ++ b.s3 ++ b.e3 ++ b.s2 ++ b.e2 ++ b.s1 ++ b.e1 ++ b.s0 ++ b.e0 ++ b.base

def GathBody.ofBits (w : BitVec 512) : GathBody :=
  { base := fld w 128 64, iva := fld w 192 64, mid := fld w 256 64, ilimit := fld w 320 32, estride := fld w 352 32,
    elen := fld w 384 32, depth := fld w 416 8, isrc := fld w 424 8, rsv := fld w 432 16, nidx := fld w 448 32,
    mlimit := fld w 480 32 }

def GathBody.bits (b : GathBody) : BitVec 384 :=
  b.mlimit ++ b.nidx ++ b.rsv ++ b.isrc ++ b.depth ++ b.elen ++ b.estride ++ b.ilimit ++ b.mid ++ b.iva ++ b.base

def CopyBody.ofBits (w : BitVec 512) : CopyBody :=
  { sva := fld w 128 64, dva := fld w 192 64, len := fld w 256 64, rsv := fld w 320 192 }

def CopyBody.bits (b : CopyBody) : BitVec 384 := b.rsv ++ b.len ++ b.dva ++ b.sva

def FibBody.ofBits (w : BitVec 512) : FibBody :=
  { segva := fld w 128 64, crdva := fld w 192 64, p0 := fld w 256 32, p1 := fld w 288 32, isrc := fld w 320 8,
    rsv1 := fld w 328 24, climit := fld w 352 32, r2dx := fld w 384 16, r2dy := fld w 400 16, r2in := fld w 416 2,
    r2ctx := fld w 420 2, rsv2 := fld w 422 2 ++ fld w 418 2, rsv3 := fld w 424 88 }

def FibBody.bits (b : FibBody) : BitVec 384 :=
  b.rsv3 ++ fld b.rsv2 2 2 ++ b.r2ctx ++ fld b.rsv2 0 2 ++ b.r2in ++ b.r2dy ++ b.r2dx ++ b.climit ++ b.rsv1 ++ b.isrc
    ++ b.p1 ++ b.p0 ++ b.crdva ++ b.segva

def HashBody.ofBits (w : BitVec 512) : HashBody :=
  { sva := fld w 128 64, dva := fld w 192 64, len := fld w 256 64, dctx := fld w 320 8, rsv := fld w 328 184 }

def HashBody.bits (b : HashBody) : BitVec 384 := b.rsv ++ b.dctx ++ b.len ++ b.dva ++ b.sva

def PrefBody.ofBits (w : BitVec 512) : PrefBody :=
  { va := fld w 128 64, len := fld w 192 64, rsv := fld w 256 256 }

def PrefBody.bits (b : PrefBody) : BitVec 384 := b.rsv ++ b.len ++ b.va

def decodeSpb (w : BitVec 512) : Except DecodeErr Instr :=
  let h := SpbHead.ofBits w
  match (fld w 0 8).toNat with
  | 0x01 => if h.wr then .ok (.linWrite h (LinBody.ofBits w)) else .ok (.linRead h (LinBody.ofBits w))
  | 0x02 => .ok (.gath h (GathBody.ofBits w))
  | 0x03 => .ok (.scat h (GathBody.ofBits w))
  | 0x04 => .ok (.copy h (CopyBody.ofBits w))
  | 0x05 => .ok (.fib h (FibBody.ofBits w))
  | 0x06 => .ok (.hash h (HashBody.ofBits w))
  | 0x07 => .ok (.flush h ⟨fld w 128 384⟩)
  | 0x08 => .ok (.pref h (PrefBody.ofBits w))
  | _ => .error .unknownSpbKind

/-- The instruction read from the bits of a table row (log 6): 32 bits are a sequencer word where that decodes and a
configuration word otherwise, 72 a node word, 256 a command beat, 512 an SPB block. -/
def decodeTableWord (nbits w : Nat) : Option Instr :=
  match nbits with
  | 32 =>
    match decodeSeq (BitVec.ofNat 32 w) with
    | .ok i => some i
    | .error _ => (decodeCfg (BitVec.ofNat 32 w)).toOption
  | 72 => (decodeNode (BitVec.ofNat 72 w)).toOption
  | 256 => (decodeCmd (BitVec.ofNat 256 w)).toOption
  | 512 => (decodeSpb (BitVec.ofNat 512 w)).toOption
  | _ => none

/-! ### Encoding -/

/-- The words of an instruction: its width in bits and its value; an event has no word. -/
inductive Code where
  | none
  | cfg (w : BitVec 32)
  | seq (w : BitVec 32)
  | node (w : BitVec 72)
  | cmd (w : BitVec 256)
  | spb (w : BitVec 512)
  deriving DecidableEq, Repr

/-- Format S-R (Table 14-5). -/
def encR (op : BitVec 6) (d a b : BitVec 5) (func : BitVec 11) : Code := .seq (op ++ d ++ a ++ b ++ func)
/-- Formats S-I, S-B and S-A. -/
def encI (op : BitVec 6) (d a : BitVec 5) (i : BitVec 16) : Code := .seq (op ++ d ++ a ++ i)
/-- Format S-J. -/
def encJ (op : BitVec 6) (o : BitVec 26) : Code := .seq (op ++ o)
/-- A cursor word. -/
def encC (op : BitVec 3) (x y : BitVec 14) : Code := .cfg ((1 : BitVec 1) ++ op ++ x ++ y)
/-- A WRITE word. -/
def encW (f : BitVec 7) (v : BitVec 24) : Code := .cfg ((0 : BitVec 1) ++ f ++ v)

def encode : Instr → Code
  | .setc x y => encC 0 x y
  | .movc x y => encC 1 x y
  | .autox x y => encC 2 x y
  | .rect x y => encC 3 x y
  | .vers s v => encC 4 s v
  | .ends c => .cfg ((0xD : BitVec 4) ++ c)
  | .hard x y => encC 6 x y
  | .write f v => encW f v
  | .localRegisterCommit v => encW 26 v
  | .bankInitCommit v => encW 92 v
  | .tilePreload v => encW 93 v
  | .iadd w => .node (w.bits 0x000)
  | .isub w => .node (w.bits 0x001)
  | .imul w => .node (w.bits 0x002)
  | .imulh w => .node (w.bits 0x003)
  | .imad w => .node (w.bits 0x004)
  | .ineg w => .node (w.bits 0x005)
  | .iabs w => .node (w.bits 0x006)
  | .imin w => .node (w.bits 0x007)
  | .imax w => .node (w.bits 0x008)
  | .icmp w => .node (w.bits 0x009)
  | .and w => .node (w.bits 0x00A)
  | .or w => .node (w.bits 0x00B)
  | .xor w => .node (w.bits 0x00C)
  | .andn w => .node (w.bits 0x00D)
  | .not w => .node (w.bits 0x00E)
  | .shl w => .node (w.bits 0x00F)
  | .shr w => .node (w.bits 0x010)
  | .sar w => .node (w.bits 0x011)
  | .rotl w => .node (w.bits 0x012)
  | .clz w => .node (w.bits 0x013)
  | .popc w => .node (w.bits 0x014)
  | .sel w => .node (w.bits 0x015)
  | .fadd w => .node (w.bits 0x040)
  | .fsub w => .node (w.bits 0x041)
  | .fmul w => .node (w.bits 0x042)
  | .ffma w => .node (w.bits 0x043)
  | .fneg w => .node (w.bits 0x044)
  | .fabs w => .node (w.bits 0x045)
  | .fmin w => .node (w.bits 0x046)
  | .fmax w => .node (w.bits 0x047)
  | .fcmp w => .node (w.bits 0x048)
  | .frcp w => .node (w.bits 0x049)
  | .frsq w => .node (w.bits 0x04A)
  | .fsqrt w => .node (w.bits 0x04B)
  | .fexp2 w => .node (w.bits 0x04C)
  | .flog2 w => .node (w.bits 0x04D)
  | .fscale w => .node (w.bits 0x04E)
  | .cvt w => .node (w.bits 0x080)
  | .qpack w => .node (w.bits 0x081)
  | .qunpk w => .node (w.bits 0x082)
  | .bcast w => .node (w.bits 0x083)
  | .shuf w => .node (w.bits 0x084)
  | .slide w => .node (w.bits 0x085)
  | .pack w => .node (w.bits 0x086)
  | .unpack w => .node (w.bits 0x087)
  | .laneid w => .node (w.bits 0x088)
  | .hsum w => .node (w.bits 0x0A0)
  | .hmax w => .node (w.bits 0x0A1)
  | .hmin w => .node (w.bits 0x0A2)
  | .acc w => .node (w.bits 0x0A3)
  | .accmax w => .node (w.bits 0x0A4)
  | .pscan w => .node (w.bits 0x0A5)
  | .count w => .node (w.bits 0x0A6)
  | .steer w => .node (w.bits 0x0C0)
  | .fork w => .node (w.bits 0x0C1)
  | .merge w => .node (w.bits 0x0C2)
  | .mergerr w => .node (w.bits 0x0C3)
  | .mergesel w => .node (w.bits 0x0C4)
  | .dist w => .node (w.bits 0x0C5)
  | .dispatch w => .node (w.bits 0x0C6)
  | .gate w => .node (w.bits 0x0C7)
  | .drop w => .node (w.bits 0x0C8)
  | .sink w => .node (w.bits 0x0C9)
  | .gen w => .node (w.bits 0x0CA)
  | .carry w => .node (w.bits 0x0CB)
  | .invar w => .node (w.bits 0x0CC)
  | .repeatN w => .node (w.bits 0x0CD)
  | .seqtag w => .node (w.bits 0x0CE)
  | .reorder w => .node (w.bits 0x0CF)
  | .mark w => .node (w.bits 0x0E0)
  | .stopi w => .node (w.bits 0x0E1)
  | .stopx w => .node (w.bits 0x0E2)
  | .stopup w => .node (w.bits 0x0E3)
  | .waitmk w => .node (w.bits 0x0E4)
  | .specres w => .node (w.bits 0x0E5)
  | .retype w => .node (w.bits 0x0E6)
  | .ld w => .node (w.bits 0x100)
  | .st w => .node (w.bits 0x101)
  | .ldreq w => .node (w.bits 0x102)
  | .streq w => .node (w.bits 0x103)
  | .push w => .node (w.bits 0x104)
  | .pop w => .node (w.bits 0x105)
  | .tld w => .node (w.bits 0x106)
  | .tst w => .node (w.bits 0x107)
  | .spbsend w => .node (w.bits 0x108)
  | .aadd w => .node (w.bits 0x109)
  | .amin w => .node (w.bits 0x10A)
  | .amax w => .node (w.bits 0x10B)
  | .axchg w => .node (w.bits 0x10C)
  | .acas w => .node (w.bits 0x10D)
  | .atas w => .node (w.bits 0x10E)
  | .aor w => .node (w.bits 0x10F)
  | .fence w => .node (w.bits 0x110)
  | .fscan w => .node (w.bits 0x140)
  | .flook w => .node (w.bits 0x141)
  | .fisect w => .node (w.bits 0x142)
  | .funion w => .node (w.bits 0x143)
  | .frep w => .node (w.bits 0x144)
  | .fred w => .node (w.bits 0x145)
  | .fwrite w => .node (w.bits 0x146)
  | .oadd w => .node (w.bits 0x160)
  | .omul w => .node (w.bits 0x161)
  | .ocmp w => .node (w.bits 0x162)
  | .ocut w => .node (w.bits 0x163)
  | .ocvt w => .node (w.bits 0x164)
  | .pqcell w => .node (w.bits 0x170)
  | .stat w => .node (w.bits 0x171)
  | .rate w => .node (w.bits 0x172)
  | .ver w => .node (w.bits 0x173)
  | .sysid w => .node (w.bits 0x174)
  | .trap w => .node (w.bits 0x175)
  | .nop w => .node (w.bits 0x176)
  | .linRead h b => .spb (b.bits ++ h.bits 0x01)
  | .linWrite h b => .spb (b.bits ++ h.bits 0x01)
  | .gath h b => .spb (b.bits ++ h.bits 0x02)
  | .scat h b => .spb (b.bits ++ h.bits 0x03)
  | .copy h b => .spb (b.bits ++ h.bits 0x04)
  | .fib h b => .spb (b.bits ++ h.bits 0x05)
  | .hash h b => .spb (b.bits ++ h.bits 0x06)
  | .flush h b => .spb (b.rsv ++ h.bits 0x07)
  | .pref h b => .spb (b.bits ++ h.bits 0x08)
  | .mload c => .cmd (c.bits 0x01)
  | .mswap c => .cmd (c.bits 0x02)
  | .mmul c => .cmd (c.bits 0x03)
  | .mdrain c => .cmd (c.bits 0x04)
  | .mzero c => .cmd (c.bits 0x05)
  | .mfmt c => .cmd (c.bits 0x06)
  | .mmigr c => .cmd (c.bits 0x07)
  | .mcount c => .cmd (c.bits 0x08)
  | .add d a b => encR 0x00 d a b 0x000
  | .sub d a b => encR 0x00 d a b 0x001
  | .mul d a b => encR 0x00 d a b 0x002
  | .mulh d a b => encR 0x00 d a b 0x003
  | .div d a b => encR 0x00 d a b 0x004
  | .rem d a b => encR 0x00 d a b 0x005
  | .seqAnd d a b => encR 0x00 d a b 0x006
  | .seqOr d a b => encR 0x00 d a b 0x007
  | .seqXor d a b => encR 0x00 d a b 0x008
  | .seqShl d a b => encR 0x00 d a b 0x009
  | .seqShr d a b => encR 0x00 d a b 0x00A
  | .seqSar d a b => encR 0x00 d a b 0x00B
  | .slt d a b => encR 0x00 d a b 0x00C
  | .sltn d a b => encR 0x00 d a b 0x00D
  | .addi d a i => encI 0x01 d a i
  | .andi d a i => encI 0x02 d a i
  | .ori d a i => encI 0x03 d a i
  | .xori d a i => encI 0x04 d a i
  | .shli d a i => encI 0x05 d a ((0 : BitVec 10) ++ i)
  | .shri d a i => encI 0x06 d a ((0 : BitVec 10) ++ i)
  | .sari d a i => encI 0x07 d a ((0 : BitVec 10) ++ i)
  | .lih d a i => encI 0x08 d a i
  | .seqLd d a i => encI 0x10 d a i
  | .ldw d a i => encI 0x11 d a i
  | .seqSt d a i => encI 0x12 d a i
  | .stw d a i => encI 0x13 d a i
  | .samoAdd d a b w => encR 0x14 d a b ((0 : BitVec 6) ++ BitVec.ofBool w ++ (0 : BitVec 4))
  | .samoSwap d a b w => encR 0x14 d a b ((0 : BitVec 6) ++ BitVec.ofBool w ++ (1 : BitVec 4))
  | .samoCas d a b w => encR 0x14 d a b ((0 : BitVec 6) ++ BitVec.ofBool w ++ (2 : BitVec 4))
  | .samoAnd d a b w => encR 0x14 d a b ((0 : BitVec 6) ++ BitVec.ofBool w ++ (3 : BitVec 4))
  | .samoOr d a b w => encR 0x14 d a b ((0 : BitVec 6) ++ BitVec.ofBool w ++ (4 : BitVec 4))
  | .samoXor d a b w => encR 0x14 d a b ((0 : BitVec 6) ++ BitVec.ofBool w ++ (5 : BitVec 4))
  | .samoMin d a b w => encR 0x14 d a b ((0 : BitVec 6) ++ BitVec.ofBool w ++ (6 : BitVec 4))
  | .samoMax d a b w => encR 0x14 d a b ((0 : BitVec 6) ++ BitVec.ofBool w ++ (7 : BitVec 4))
  | .samoMinu d a b w => encR 0x14 d a b ((0 : BitVec 6) ++ BitVec.ofBool w ++ (8 : BitVec 4))
  | .samoMaxu d a b w => encR 0x14 d a b ((0 : BitVec 6) ++ BitVec.ofBool w ++ (9 : BitVec 4))
  | .beq a b o => encI 0x18 a b o
  | .bne a b o => encI 0x19 a b o
  | .blt a b o => encI 0x1A a b o
  | .bge a b o => encI 0x1B a b o
  | .loop a o => encI 0x1C a 0 o
  | .jmp o => encJ 0x1D o
  | .jal o => encJ 0x1E o
  | .jr a => encI 0x1F 0 a 0
  | .cfgl s n => encI 0x20 s 0 n
  | .cfgs d n => encI 0x21 d 0 n
  | .arm c b n => encI 0x22 c b n
  | .waits d n => encI 0x23 d 0 n
  | .pure c b n => encI 0x24 c b n
  | .mode m n => encI 0x25 m 0 n
  | .waitm d a => encI 0x26 d a 0
  | .launch a b => encR 0x27 0 a b 0
  | .tail a => encI 0x28 0 a 0
  | .srd d s r => encI 0x30 d 0 (s ++ r)
  | .swr a s r => encI 0x31 0 a (s ++ r)
  | .seqFence s => .seq ((0x32 : BitVec 6) ++ (0 : BitVec 23) ++ s)
  | .seqTrap c => .seq ((0x33 : BitVec 6) ++ (0 : BitVec 18) ++ c)
  | .halt => encJ 0x34 0
  | .seqNop => encJ 0x35 0
  | .nodeTokenFire _ => .none
  | .matchDiscard _ _ => .none
  | .latchAdvance _ _ _ => .none
  | .freeSlotReturn _ _ => .none
  | .retypeApply _ _ => .none
  | .bridgeSend _ => .none
  | .allowanceReturn _ _ _ => .none
  | .flitReceive _ _ => .none
  | .flitReplay _ => .none
  | .linkFlitReceive _ _ _ => .none
  | .remoteAccessRequest _ _ => .none
  | .cxlLinkDown _ => .none
  | .hostMemAccess _ _ => .none
  | .windowAccess _ => .none
  | .elementIssue _ _ => .none
  | .faultNoticePendingWrite _ => .none
  | .walkComplete _ => .none
  | .writePerform _ => .none
  | .spbComplete _ _ _ => .none
  | .eventTokenArrive _ => .none
  | .spReqMark _ _ => .none
  | .spDataToken _ _ _ => .none
  | .relRelease _ _ _ => .none
  | .invalidationStart _ => .none
  | .invalidationComplete _ => .none
  | .resume _ _ => .none
  | .tPfExpiry _ _ => .none
  | .streamBufferGrow _ => .none
  | .statTokenAdd _ => .none
  | .meCommandEnqueue _ _ => .none
  | .meMarkerEntry _ _ => .none
  | .meMigrate _ _ _ _ => .none
  | .meMigrationReturn _ _ => .none
  | .shadowLoad _ _ => .none
  | .planeSwap _ => .none
  | .drainTimeout _ => .none
  | .waitsReturn _ => .none
  | .waitmWake _ => .none
  | .kernelComplete _ => .none
  | .recordStart _ => .none
  | .linkWake _ => .none
  | .sqctlGo _ => .none
  | .sqctlSkip _ => .none
  | .sqctlStop _ => .none
  | .allocatorRun _ => .none
  | .pwbudWrite _ _ => .none
  | .entryAging _ _ => .none
  | .contextAging _ => .none
  | .configInstall _ => .none
  | .invocationArm _ _ => .none
  | .agateLookup _ => .none
  | .invocationRetire _ => .none
  | .prectlGo _ _ => .none
  | .schedulerPreempt _ => .none
  | .cutComplete _ => .none
  | .tCutExpiry _ => .none
  | .invocationResume _ _ => .none
  | .windowEnd _ => .none
  | .commit _ _ => .none
  | .rbstatClear _ => .none
  | .regionFreeze _ => .none
  | .faultRecordPendingWrite _ => .none
  | .hangTimeout _ => .none
  | .frctlRelease _ _ => .none
  | .frctlClear _ _ => .none
  | .fltstatClear _ => .none
  | .softError _ => .none
  | .bankReassign _ => .none
  | .agateFlush _ => .none
  | .agsbaseWrite _ _ => .none
  | .agssizeWrite _ _ => .none
  | .shape _ _ => .none
  | .bind _ _ _ => .none
  | .revoke _ => .none
  | .quote _ => .none
  | .domset _ _ => .none
  | .cxlmap _ _ _ _ => .none
  | .krvcntClear => .none
  | .deviceReset _ => .none
  | .registerWrite _ _ _ => .none
  | .readPerform _ => .none
  | .linkRetrain _ => .none

/-- The instruction that a code's words decode to. -/
def Code.decode : Code → Option Instr
  | .none => Option.none
  | .cfg w => (decodeCfg w).toOption
  | .seq w => (decodeSeq w).toOption
  | .node w => (decodeNode w).toOption
  | .cmd w => (decodeCmd w).toOption
  | .spb w => (decodeSpb w).toOption

end Sys2Proof
end

