-- ==== Sys2Proof/Machine/Aes.lean ====
section
/-! DEFINITION. AES-256-GCM, which R353 and R382 name: the cipher of FIPS 197 with a 256-bit key, and the mode of NIST SP 800-38D with a
96-bit nonce and a 128-bit tag. Bytes are numbers below 256. -/

namespace Sys2Proof.Machine

/-- The S-box. -/
def aesBox : List Nat :=
  [0x63, 0x7C, 0x77, 0x7B, 0xF2, 0x6B, 0x6F, 0xC5, 0x30, 0x01, 0x67, 0x2B, 0xFE, 0xD7, 0xAB, 0x76] ++
  [0xCA, 0x82, 0xC9, 0x7D, 0xFA, 0x59, 0x47, 0xF0, 0xAD, 0xD4, 0xA2, 0xAF, 0x9C, 0xA4, 0x72, 0xC0] ++
  [0xB7, 0xFD, 0x93, 0x26, 0x36, 0x3F, 0xF7, 0xCC, 0x34, 0xA5, 0xE5, 0xF1, 0x71, 0xD8, 0x31, 0x15] ++
  [0x04, 0xC7, 0x23, 0xC3, 0x18, 0x96, 0x05, 0x9A, 0x07, 0x12, 0x80, 0xE2, 0xEB, 0x27, 0xB2, 0x75] ++
  [0x09, 0x83, 0x2C, 0x1A, 0x1B, 0x6E, 0x5A, 0xA0, 0x52, 0x3B, 0xD6, 0xB3, 0x29, 0xE3, 0x2F, 0x84] ++
  [0x53, 0xD1, 0x00, 0xED, 0x20, 0xFC, 0xB1, 0x5B, 0x6A, 0xCB, 0xBE, 0x39, 0x4A, 0x4C, 0x58, 0xCF] ++
  [0xD0, 0xEF, 0xAA, 0xFB, 0x43, 0x4D, 0x33, 0x85, 0x45, 0xF9, 0x02, 0x7F, 0x50, 0x3C, 0x9F, 0xA8] ++
  [0x51, 0xA3, 0x40, 0x8F, 0x92, 0x9D, 0x38, 0xF5, 0xBC, 0xB6, 0xDA, 0x21, 0x10, 0xFF, 0xF3, 0xD2] ++
  [0xCD, 0x0C, 0x13, 0xEC, 0x5F, 0x97, 0x44, 0x17, 0xC4, 0xA7, 0x7E, 0x3D, 0x64, 0x5D, 0x19, 0x73] ++
  [0x60, 0x81, 0x4F, 0xDC, 0x22, 0x2A, 0x90, 0x88, 0x46, 0xEE, 0xB8, 0x14, 0xDE, 0x5E, 0x0B, 0xDB] ++
  [0xE0, 0x32, 0x3A, 0x0A, 0x49, 0x06, 0x24, 0x5C, 0xC2, 0xD3, 0xAC, 0x62, 0x91, 0x95, 0xE4, 0x79] ++
  [0xE7, 0xC8, 0x37, 0x6D, 0x8D, 0xD5, 0x4E, 0xA9, 0x6C, 0x56, 0xF4, 0xEA, 0x65, 0x7A, 0xAE, 0x08] ++
  [0xBA, 0x78, 0x25, 0x2E, 0x1C, 0xA6, 0xB4, 0xC6, 0xE8, 0xDD, 0x74, 0x1F, 0x4B, 0xBD, 0x8B, 0x8A] ++
  [0x70, 0x3E, 0xB5, 0x66, 0x48, 0x03, 0xF6, 0x0E, 0x61, 0x35, 0x57, 0xB9, 0x86, 0xC1, 0x1D, 0x9E] ++
  [0xE1, 0xF8, 0x98, 0x11, 0x69, 0xD9, 0x8E, 0x94, 0x9B, 0x1E, 0x87, 0xE9, 0xCE, 0x55, 0x28, 0xDF] ++
  [0x8C, 0xA1, 0x89, 0x0D, 0xBF, 0xE6, 0x42, 0x68, 0x41, 0x99, 0x2D, 0x0F, 0xB0, 0x54, 0xBB, 0x16]

def aesSub (b : Nat) : Nat := aesBox.getD b 0

/-- Twice a byte in the field of AES. -/
def aesTwice (b : Nat) : Nat := if b < 128 then 2 * b else (2 * b) % 256 ^^^ 0x1B

def xorBytes (a b : List Nat) : List Nat := List.zipWith (· ^^^ ·) a b

/-- The next word of the key schedule, from the last word, the word eight before it, its number and the round constant. -/
def aesWord (last old : List Nat) (i rcon : Nat) : List Nat :=
  let x :=
    if i % 8 = 0 then xorBytes ((last.drop 1 ++ last.take 1).map aesSub) [rcon, 0, 0, 0]
    else if i % 8 = 4 then last.map aesSub
    else last
  xorBytes x old

/-- n words after the words so far, newest first; word i comes next. -/
def aesSchedule : Nat → Nat → Nat → List (List Nat) → List (List Nat)
  | 0, _, _, ws => ws
  | n + 1, i, rcon, ws =>
    aesSchedule n (i + 1) (if i % 8 = 0 then aesTwice rcon else rcon) (aesWord (ws.getD 0 []) (ws.getD 7 []) i rcon :: ws)

/-- The sixty words of the schedule as fifteen round keys of 16 bytes. -/
def aesKeys (key : List Nat) : List (List Nat) :=
  let first := ((List.range 8).map fun i => (key.drop (4 * i)).take 4).reverse
  let ws := (aesSchedule 52 8 1 first).reverse
  (List.range 15).map fun r => ((ws.drop (4 * r)).take 4).flatten

/-- Row r of column c moves to column c - r. -/
def aesShift (s : List Nat) : List Nat := (List.range 16).map fun i => s.getD ((i + 4 * (i % 4)) % 16) 0

/-- A column mixed. -/
def aesMix (c : List Nat) : List Nat :=
  let a := fun i => c.getD (i % 4) 0
  (List.range 4).map fun i => aesTwice (a i) ^^^ (aesTwice (a (i + 1)) ^^^ a (i + 1)) ^^^ a (i + 2) ^^^ a (i + 3)

/-- The rounds after the first key addition; the last has no mixing. -/
def aesRounds : List (List Nat) → List Nat → List Nat
  | [], s => s
  | [k], s => xorBytes (aesShift (s.map aesSub)) k
  | k :: k1 :: ks, s =>
    let t := aesShift (s.map aesSub)
    let m := ((List.range 4).map fun c => aesMix ((t.drop (4 * c)).take 4)).flatten
    aesRounds (k1 :: ks) (xorBytes m k)

/-- One block under the round keys. -/
def aesBlock (keys : List (List Nat)) (b : List Nat) : List Nat := aesRounds (keys.drop 1) (xorBytes b (keys.headD []))

/-- Bytes as a number, first byte highest. -/
def bigOf (bs : List Nat) : Nat := bs.foldl (fun a b => 256 * a + b) 0
/-- A number as n bytes, highest first. -/
def bigBytes (n v : Nat) : List Nat := ((List.range n).map fun i => v / 256 ^ i % 256).reverse

/-- The product of GHASH: n bits of x are still to come, v is y shifted so far. -/
def ghashMul : Nat → Nat → Nat → Nat → Nat
  | 0, _, _, z => z
  | n + 1, x, v, z =>
    ghashMul n x (if v % 2 = 0 then v / 2 else v / 2 ^^^ 0xE1 * 2 ^ 120) (if x / 2 ^ n % 2 = 1 then z ^^^ v else z)

/-- Blocks of 16 bytes, the last filled with zeros; n blocks. -/
def gcmBlocks (bs : List Nat) : List Nat :=
  (List.range ((bs.length + 15) / 16)).map fun i =>
    let b := (bs.drop (16 * i)).take 16
    bigOf (b ++ List.replicate (16 - b.length) 0)

def ghash (h : Nat) (blocks : List Nat) : Nat := blocks.foldl (fun y b => ghashMul 128 (y ^^^ b) h 0) 0

/-- The counter stream on data: block i is encrypted with counter 2 + i. -/
def gcmStream (keys : List (List Nat)) (nonce bs : List Nat) : List Nat :=
  ((List.range ((bs.length + 15) / 16)).map fun i =>
    xorBytes ((bs.drop (16 * i)).take 16) (aesBlock keys (nonce ++ bigBytes 4 (i + 2)))).flatten

/-- The tag of additional data and ciphertext. -/
def gcmTag (keys : List (List Nat)) (nonce aad ct : List Nat) : List Nat :=
  let h := bigOf (aesBlock keys (List.replicate 16 0))
  let s := ghash h (gcmBlocks aad ++ gcmBlocks ct ++ [8 * aad.length * 2 ^ 64 + 8 * ct.length])
  xorBytes (bigBytes 16 s) (aesBlock keys (nonce ++ [0, 0, 0, 1]))

def byteNats (bs : List Byte) : List Nat := bs.map (·.toNat)
def natBytes (bs : List Nat) : List Byte := bs.map (BitVec.ofNat 8)

/-- AES-256-GCM: key, nonce, additional data, plaintext; ciphertext, then the tag. -/
def gcmSeal (key nonce aad plain : List Byte) : List Byte :=
  let ks := aesKeys (byteNats key)
  let ct := gcmStream ks (byteNats nonce) (byteNats plain)
  natBytes (ct ++ gcmTag ks (byteNats nonce) (byteNats aad) ct)

/-- The plaintext under a key, if the tag is right. -/
def gcmOpen (key nonce aad ct tag : List Byte) : Option (List Byte) :=
  let ks := aesKeys (byteNats key)
  if gcmTag ks (byteNats nonce) (byteNats aad) (byteNats ct) = byteNats tag then
    some (natBytes (gcmStream ks (byteNats nonce) (byteNats ct)))
  else none

end Sys2Proof.Machine
end

