-- ==== Sys2Proof/Machine/Flags.lean ====
section
/-! DEFINITION. Number formats, exact values, RoundTo with the flags it raises, and the four exception counts (R119 to
R125). Every rounding of the device goes through `roundTo`. -/

namespace Sys2Proof.Machine

/-! ### Formats (Tables 7-1 and 7-2) -/

/-- A binary float format: width, exponent and mantissa widths, bias, largest finite magnitude code, canonical NaN,
and whether it has infinities. -/
structure FloatFmt where
  width : Nat
  eb : Nat
  mb : Nat
  bias : Nat
  maxFin : Nat
  canon : Nat
  hasInf : Bool
  /-- E2M1 and E4M3 read the all-ones exponent as normal (R121). -/
  nans : Bool
  deriving DecidableEq, Repr, Inhabited

def fp32 : FloatFmt := ⟨32, 8, 23, 127, 0x7F7FFFFF, 0x7FC00000, true, true⟩
def fp16 : FloatFmt := ⟨16, 5, 10, 15, 0x7BFF, 0x7E00, true, true⟩
def bf16 : FloatFmt := ⟨16, 8, 7, 127, 0x7F7F, 0x7FC0, true, true⟩
def e4m3 : FloatFmt := ⟨8, 4, 3, 7, 0x7E, 0x7F, false, true⟩
def e5m2 : FloatFmt := ⟨8, 5, 2, 15, 0x7B, 0x7E, true, true⟩
def e2m1 : FloatFmt := ⟨4, 2, 1, 1, 0x7, 0x7, false, false⟩

/-- How the elements of a format are read. -/
inductive ElemFmt where
  | int (signed : Bool) (width : Nat)
  | flt (f : FloatFmt)
  deriving DecidableEq, Repr

/-- Element width in bits (Table 7-1). -/
def fmtWidth : Fmt → Nat
  | .raw | .i32 | .n32 | .fp32 | .osd | .crd => 32
  | .i16 | .n16 | .bf16 | .fp16 => 16
  | .i8 | .e4m3 | .e5m2 | .e4m3q => 8
  | .e2m1q | .i4q => 4

/-- Elements of a beat. -/
def fmtCount (f : Fmt) : Nat := 256 / fmtWidth f

/-- The element reading of a format; quad-scaled codes read their unscaled element. -/
def fmtElem : Fmt → ElemFmt
  | .raw | .n32 | .osd | .crd => .int false 32
  | .i8 => .int true 8
  | .i16 => .int true 16
  | .i32 => .int true 32
  | .n16 => .int false 16
  | .fp32 => .flt fp32
  | .bf16 => .flt bf16
  | .fp16 => .flt fp16
  | .e4m3 | .e4m3q => .flt e4m3
  | .e5m2 => .flt e5m2
  | .e2m1q => .flt e2m1
  | .i4q => .int true 4

/-- INT of R175. -/
def fmtIsInt : Fmt → Bool
  | .i8 | .i16 | .i32 | .n16 | .n32 | .crd => true
  | _ => false

/-- FLT of R175. -/
def fmtIsFlt : Fmt → Bool
  | .fp32 | .bf16 | .fp16 | .e4m3 | .e5m2 => true
  | _ => false

/-- BIT of R175. -/
def fmtIsBit (f : Fmt) : Bool := f == .raw || fmtIsInt f || fmtIsFlt f

/-- Codes 0x1 to 0xA (R93, R185). -/
def fmtConvertible : Fmt → Bool
  | .i8 | .i16 | .i32 | .n16 | .n32 | .fp32 | .bf16 | .fp16 | .e4m3 | .e5m2 => true
  | _ => false

/-- The quad-scaled codes (R127). -/
def fmtQuad : Fmt → Bool
  | .e4m3q | .e2m1q | .i4q => true
  | _ => false

/-- The signed formats of R175. -/
def fmtSigned : Fmt → Bool
  | .i8 | .i16 | .i32 => true
  | _ => false

/-! ### Exact values -/

/-- The x of R124: NaN, an infinity, or (-1)^neg * (m + t) * 2^e, where t is 0, or, when `sticky`, strictly between 0
and 1. -/
inductive Exact where
  | nan
  | inf (neg : Bool)
  | num (neg : Bool) (m : Nat) (e : Int) (sticky : Bool)
  deriving DecidableEq, Repr, Inhabited

/-- An integer as an exact value. -/
def exactOfInt (i : Int) : Exact := .num (decide (i < 0)) i.natAbs 0 false

/-- A w-bit code read as a signed integer. -/
def signedOf (w code : Nat) : Int :=
  if code % 2 ^ w < 2 ^ (w - 1) then (code % 2 ^ w : Nat) else ((code % 2 ^ w : Nat) : Int) - (2 ^ w : Nat)

/-- A w-bit code of an integer, two's complement. -/
def codeOfInt (w : Nat) (i : Int) : Nat := (i % ((2 ^ w : Nat) : Int)).toNat

/-- An integer code read in its format (R120). -/
def intOf (signed : Bool) (w code : Nat) : Int := if signed then signedOf w code else (code % 2 ^ w : Nat)

/-- Sign of a float code. -/
def fltNeg (f : FloatFmt) (c : Nat) : Bool := decide (c / 2 ^ (f.width - 1) % 2 = 1)

/-- Magnitude bits of a float code. -/
def fltMag (f : FloatFmt) (c : Nat) : Nat := c % 2 ^ (f.width - 1)

/-- The value of a float code (R121). -/
def fltOf (f : FloatFmt) (c : Nat) : Exact :=
  let mag := fltMag f c
  let neg := fltNeg f c
  let e := mag / 2 ^ f.mb
  let m := mag % 2 ^ f.mb
  if f.nans && decide (f.maxFin < mag) then
    if f.hasInf && decide (mag = f.maxFin + 1) then .inf neg else .nan
  else if e = 0 then .num neg m (1 - f.bias - f.mb) false
  else .num neg (2 ^ f.mb + m) (e - f.bias - f.mb) false

/-- The value of an element code. -/
def elemOf (ef : ElemFmt) (c : Nat) : Exact :=
  match ef with
  | .int s w => exactOfInt (intOf s w c)
  | .flt f => fltOf f c

def exactIsNan : Exact → Bool
  | .nan => true
  | _ => false

def exactIsInf : Exact → Bool
  | .inf _ => true
  | _ => false

def exactIsZero : Exact → Bool
  | .num _ m _ st => m == 0 && !st
  | _ => false

def exactSign : Exact → Bool
  | .nan => false
  | .inf n => n
  | .num n _ _ _ => n

/-! ### Rounding (R123, R124) -/

/-- Whether a magnitude with quotient q, remainder r of 2^k (and sticky) is rounded up in magnitude. -/
def roundsUp (rnd : Rnd) (neg : Bool) (q r k : Nat) (sticky : Bool) : Bool :=
  let exact := r == 0 && !sticky
  match rnd with
  | .rz => false
  | .rd => neg && !exact
  | .ru => !neg && !exact
  | .rne =>
    if k = 0 then false
    else
      let half := 2 ^ (k - 1)
      decide (half < r) || (r == half && (sticky || q % 2 == 1))

/-- A magnitude (m, e, sticky) in units of 2^q, rounded: the integer and whether it is inexact. -/
def roundUnits (rnd : Rnd) (neg : Bool) (m : Nat) (e : Int) (sticky : Bool) (q : Int) : Nat × Bool :=
  if q ≤ e then
    let n := m * 2 ^ (e - q).toNat
    (if roundsUp rnd neg n 0 0 sticky then n + 1 else n, sticky)
  else
    let k := (q - e).toNat
    let n := m / 2 ^ k
    let r := m % 2 ^ k
    (if roundsUp rnd neg n r k sticky then n + 1 else n, r != 0 || sticky)

/-- What RoundTo gives: the element code and the flags it raises. -/
structure Rounded where
  code : Nat
  inex : Bool := false
  satc : Bool := false
  ufz : Bool := false
  /-- The result is a NaN. -/
  isNan : Bool := false
  deriving DecidableEq, Repr, Inhabited

def fltCode (f : FloatFmt) (neg : Bool) (mag : Nat) : Nat := (if neg then 2 ^ (f.width - 1) else 0) + mag

/-- IeeeOverflow of R124: does the result stay at MaxFin? -/
def overflowKeeps (rnd : Rnd) (neg : Bool) : Bool :=
  match rnd with
  | .rz => true
  | .rd => !neg
  | .ru => neg
  | .rne => false

/-- RoundTo into a float format. -/
def roundFlt (f : FloatFmt) (sat : Bool) (rnd : Rnd) (x : Exact) : Rounded :=
  match x with
  | .nan => { code := f.canon, isNan := true }
  | .inf neg =>
    if f.hasInf then { code := fltCode f neg (f.maxFin + 1) }
    else if sat then { code := fltCode f neg f.maxFin, satc := true }
    else { code := f.canon, satc := true, isNan := true }
  | .num neg m e st =>
    if m = 0 && !st then { code := fltCode f neg 0 }
    else
      let lead : Int := (Nat.log2 m : Nat) + e
      let emin : Int := 1 - f.bias
      let q : Int := (if lead < emin then emin else lead) - f.mb
      let (n, inex) := roundUnits rnd neg m e st q
      -- magnitude code: subnormal codes and exponent carry fall out of the sum
      let mag : Nat := if n = 0 then 0 else
        if n < 2 ^ f.mb then n else ((q - (emin - f.mb)).toNat) * 2 ^ f.mb + n
      if f.maxFin < mag then
        if sat then { code := fltCode f neg f.maxFin, inex := inex, satc := true }
        else if !f.hasInf then { code := f.canon, inex := inex, satc := true, isNan := true }
        else { code := fltCode f neg (if overflowKeeps rnd neg then f.maxFin else f.maxFin + 1), inex := inex,
               satc := true }
      else { code := fltCode f neg mag, inex := inex, ufz := mag == 0 }

/-- Least and greatest integer of a format (R120). -/
def intMin (signed : Bool) (w : Nat) : Int := if signed then -((2 ^ (w - 1) : Nat) : Int) else 0
def intMax (signed : Bool) (w : Nat) : Int :=
  if signed then ((2 ^ (w - 1) : Nat) : Int) - 1 else ((2 ^ w : Nat) : Int) - 1

/-- RoundTo into an integer format; `srcInt` is the source class. -/
def roundInt (signed : Bool) (w : Nat) (srcInt sat : Bool) (rnd : Rnd) (x : Exact) : Rounded :=
  match x with
  | .nan => { code := 0, satc := true }
  | .inf neg => { code := codeOfInt w (if neg then intMin signed w else intMax signed w), satc := true }
  | .num neg m e st =>
    let (n, inex) := roundUnits rnd neg m e st 0
    let y : Int := if neg then -(n : Int) else n
    if intMin signed w ≤ y ∧ y ≤ intMax signed w then { code := codeOfInt w y, inex := inex }
    else if srcInt && !sat then { code := codeOfInt w y }   -- wraps; nothing counted
    else { code := codeOfInt w (if y < intMin signed w then intMin signed w else intMax signed w), inex := inex,
           satc := true }

/-- RoundTo (R124). -/
def roundTo (ef : ElemFmt) (srcInt sat : Bool) (rnd : Rnd) (x : Exact) : Rounded :=
  match ef with
  | .int s w => roundInt s w srcInt sat rnd x
  | .flt f => roundFlt f sat rnd x

/-! ### Counting (R125, R140) -/

/-- One more in a 16-bit counter that stays at 0xFFFF (R140). -/
def bump (n : Nat) (b : Bool) : Nat := if b && decide (n < 0xFFFF) then n + 1 else n

/-- The counts of a rounded result (R125). `nanIn`: an operand was NaN. `counts`: whether a NaN result counts NANP. -/
def countResult (c : Counts) (r : Rounded) (nanIn : Bool) : Counts :=
  { inex := bump c.inex r.inex,
    satc := bump c.satc r.satc,
    ufz := bump c.ufz (!r.satc && r.ufz),
    nanp := bump c.nanp (!r.satc && !r.ufz && r.isNan && !nanIn) }

/-- A saturating sum of counters. -/
def countAdd (a b : Counts) : Counts :=
  { inex := min 0xFFFF (a.inex + b.inex), satc := min 0xFFFF (a.satc + b.satc),
    ufz := min 0xFFFF (a.ufz + b.ufz), nanp := min 0xFFFF (a.nanp + b.nanp) }

/-- A counter of the point has reached 0xFFFF. -/
def countFull (c : Counts) : Bool :=
  c.inex == 0xFFFF || c.satc == 0xFFFF || c.ufz == 0xFFFF || c.nanp == 0xFFFF

/-- Any counter is nonzero. -/
def countAny (c : Counts) : Bool := c.inex != 0 || c.satc != 0 || c.ufz != 0 || c.nanp != 0

/-! ### Exact arithmetic -/

/-- A signed mantissa at exponent e as an exact value; an exact zero takes the sign of R122. -/
def exactSigned (rnd : Rnd) (z : Int) (e : Int) : Exact :=
  if z = 0 then .num (rnd == .rd) 0 e false else .num (decide (z < 0)) z.natAbs e false

def exactNeg : Exact → Exact
  | .nan => .nan
  | .inf n => .inf (!n)
  | .num n m e s => .num (!n) m e s

/-- The exact sum (R122; operands of sums carry no sticky part). -/
def exactAdd (rnd : Rnd) (x y : Exact) : Exact :=
  match x, y with
  | .nan, _ => .nan
  | _, .nan => .nan
  | .inf a, .inf b => if a = b then .inf a else .nan
  | .inf a, _ => .inf a
  | _, .inf b => .inf b
  | .num a m e _, .num b n f _ =>
    if m = 0 ∧ n = 0 then .num (if a = b then a else rnd == .rd) 0 0 false
    else
      let g : Int := if e < f then e else f
      let zx : Int := (if a then -(m : Int) else m) * (2 ^ (e - g).toNat : Nat)
      let zy : Int := (if b then -(n : Int) else n) * (2 ^ (f - g).toNat : Nat)
      exactSigned rnd (zx + zy) g

/-- The exact product. -/
def exactMul (x y : Exact) : Exact :=
  match x, y with
  | .nan, _ => .nan
  | _, .nan => .nan
  | .inf a, .inf b => .inf (a != b)
  | .inf a, .num b n _ _ => if n = 0 then .nan else .inf (a != b)
  | .num a m _ _, .inf b => if m = 0 then .nan else .inf (a != b)
  | .num a m e _, .num b n f _ => .num (a != b) (m * n) (e + f) false

/-- x times 2^k. -/
def exactScale (x : Exact) (k : Int) : Exact :=
  match x with
  | .num n m e s => .num n m (e + k) s
  | y => y

/-- Integer square root by bits from bit k down. -/
def isqrtBits : Nat → Nat → Nat → Nat
  | 0, _, r => r
  | k + 1, n, r =>
    let t := r + 2 ^ k
    isqrtBits k n (if t * t ≤ n then t else r)

/-- The integer square root. -/
def isqrt (n : Nat) : Nat := isqrtBits (Nat.log2 n / 2 + 1) n 0

/-- 1 / x (Table 9-3). -/
def exactRecip : Exact → Exact
  | .nan => .nan
  | .inf n => .num n 0 0 false
  | .num n m e _ =>
    if m = 0 then .inf n
    else
      let k := 2 ^ 192
      .num n (k / m) (-192 - e) (k % m != 0)

/-- The square root of x (Table 9-3). -/
def exactSqrt : Exact → Exact
  | .nan => .nan
  | .inf n => if n then .nan else .inf false
  | .num n m e _ =>
    if m = 0 then .num n 0 0 false
    else if n then .nan
    else
      let odd := e % 2 = 1
      let m1 := (if odd then 2 * m else m) * 2 ^ 256
      let e1 := (if odd then e - 1 else e) - 256
      let r := isqrt m1
      .num false r (e1 / 2) (r * r != m1)

/-- 1 / sqrt x (Table 9-3). -/
def exactRsqrt : Exact → Exact
  | .nan => .nan
  | .inf n => if n then .nan else .num false 0 0 false
  | .num n m e _ =>
    if m = 0 then .inf n
    else if n then .nan
    else
      let odd := e % 2 = 1
      let m1 := if odd then 2 * m else m
      let e1 := if odd then e - 1 else e
      let r := isqrt (2 ^ 384 / m1)
      .num false r (-192 - e1 / 2) (r * r * m1 != 2 ^ 384)

/-- The product of the 2^(2^-i) for the one bits of a fraction, by a chain of square roots in 256-bit fixed point: `root`
is 2^(2^-i), `fr` the bits still to come, of which there are k (log 11). -/
def exp2Bits : Nat → Nat → Nat → Nat → Nat
  | 0, _, _, acc => acc
  | k + 1, fr, root, acc =>
    let root' := isqrt (root * 2 ^ 256)
    exp2Bits k (fr % 2 ^ k) root' (if fr / 2 ^ k % 2 = 1 then acc * root' / 2 ^ 256 else acc)

/-- 2^x (Table 9-3, R182; log 11). -/
def exactExp2 : Exact → Exact
  | .nan => .nan
  | .inf n => if n then .num false 0 0 false else .inf false
  | .num n m e _ =>
    if m = 0 then .num false 1 0 false
    else if 0 ≤ e then
      -- an integer exponent; beyond the range of every format it is held at 2^4096 or 2^-4096
      let k := if 12 < (Nat.log2 m : Int) + e then 4096 else min 4096 (m * 2 ^ e.toNat)
      .num false 1 (if n then -(k : Int) else k) false
    else
      let d := (-e).toNat
      let whole := m / 2 ^ d
      let fr := m % 2 ^ d
      if fr = 0 ∨ 4096 < whole then
        let k : Int := min 4096 whole
        .num false 1 (if n then -k else k) (fr != 0)
      else
        -- for a negative x, 2^x = 2^(-whole-1) * 2^(1 - fraction)
        let fr' := if n then 2 ^ d - fr else fr
        let k : Int := if n then -(whole : Int) - 1 else whole
        .num false (exp2Bits d fr' (2 ^ 257) (2 ^ 256)) (k - 256) true

/-- Bits of log2 of x in [1, 2), x in 512-bit fixed point, by repeated squaring (log 11). -/
def log2Bits : Nat → Nat → Nat → Nat
  | 0, _, acc => acc
  | k + 1, x, acc =>
    let y := x * x / 2 ^ 512
    if 2 ^ 513 ≤ y then log2Bits k (y / 2) (2 * acc + 1) else log2Bits k y (2 * acc)

/-- log2 of x (Table 9-3, R182; log 11). -/
def exactLog2 : Exact → Exact
  | .nan => .nan
  | .inf n => if n then .nan else .inf false
  | .num n m e _ =>
    if m = 0 then .inf true
    else if n then .nan
    else
      let l := Nat.log2 m
      let w : Int := l + e
      if m = 2 ^ l then exactSigned .rne w 0
      else
        let b := log2Bits 200 (m * 2 ^ (512 - l)) 0
        let z : Int := w * (2 ^ 200 : Nat) + b
        if 0 ≤ z then .num false z.natAbs (-200) true
        else .num true (z.natAbs - 1) (-200) true

/-! ### Minimum and maximum of floats (R183), comparisons (R180) -/

/-- A float code as an integer in the order of R183: negative codes below, -0 below +0. -/
def fltOrder (f : FloatFmt) (c : Nat) : Int :=
  if fltNeg f c then -(fltMag f c : Int) - 1 else fltMag f c

def fltIsNan (f : FloatFmt) (c : Nat) : Bool := exactIsNan (fltOf f c)

/-- FMIN (`less`) or FMAX of two codes (R183). -/
def fltPick (f : FloatFmt) (less : Bool) (a b : Nat) : Nat :=
  if fltIsNan f a then (if fltIsNan f b then f.canon else b)
  else if fltIsNan f b then a
  else if fltOrder f a < fltOrder f b then (if less then a else b) else (if less then b else a)

/-- IMIN or IMAX of two codes. -/
def intPick (signed : Bool) (w : Nat) (less : Bool) (a b : Nat) : Nat :=
  if intOf signed w a < intOf signed w b then (if less then a else b) else (if less then b else a)

/-- Min or Max in any format. -/
def elemPick (ef : ElemFmt) (less : Bool) (a b : Nat) : Nat :=
  match ef with
  | .int s w => intPick s w less a b
  | .flt f => fltPick f less a b

/-- The order of two float codes for FCMP: none when a NaN meets (R180); -0 equals +0. -/
def fltCmp (f : FloatFmt) (a b : Nat) : Option Ordering :=
  if fltIsNan f a || fltIsNan f b then none
  else if fltMag f a = 0 ∧ fltMag f b = 0 then some .eq
  else some (compare (fltOrder f a) (fltOrder f b))

/-- The condition of AUX[2:0] on an order (R180). -/
def condHolds (cc : Nat) (o : Option Ordering) : Bool :=
  match cc, o with
  | 0, some .eq => true
  | 1, some .eq => false
  | 1, _ => true
  | 2, some .lt => true
  | 3, some .lt => true
  | 3, some .eq => true
  | 4, some .gt => true
  | 5, some .gt => true
  | 5, some .eq => true
  | 6, none => true
  | 7, some _ => true
  | _, _ => false

end Sys2Proof.Machine
end

