-- ==== Sys2Proof/Machine/Ops.lean ====
section
/-! DEFINITION. The named operations over the state: sparse tables, memory in canonical form, beats, configuration fields,
regions, links, units, faults (raising one, freezing a region, releasing it), partitions and sequencer contexts. -/

namespace Sys2Proof.Machine

/-! ### Sparse tables: keys strictly rising -/

def aget {α : Type} (m : AMap α) (k : Nat) : Option α :=
  match m with
  | [] => none
  | (j, v) :: t => if j = k then some v else aget t k

def aset {α : Type} (m : AMap α) (k : Nat) (v : α) : AMap α :=
  match m with
  | [] => [(k, v)]
  | (j, x) :: t => if k < j then (k, v) :: (j, x) :: t else if k = j then (k, v) :: t else (j, x) :: aset t k v

def adel {α : Type} (m : AMap α) (k : Nat) : AMap α :=
  match m with
  | [] => []
  | (j, x) :: t => if j = k then t else (j, x) :: adel t k

def agetD {α : Type} (m : AMap α) (k : Nat) (d : α) : α := (aget m k).getD d

/-- A list with element k replaced by f of it. -/
def lmod {α : Type} (l : List α) (k : Nat) (f : α → α) : List α :=
  match l, k with
  | [], _ => []
  | x :: t, 0 => f x :: t
  | x :: t, j + 1 => x :: lmod t j f

/-! ### Memory: a canonical list of cells, unlisted bytes 0 (log 1) -/

/-- What an unlisted address reads as (log 1). -/
def Memory.blank : Byte := 0

/-- Keys strictly rising from lo on, and no entry equal to an unlisted byte. -/
def Memory.wfFrom : Nat → List Host.Cell → Bool
  | _, [] => true
  | lo, (a, b) :: t => decide (lo ≤ a) && (b != Memory.blank) && Memory.wfFrom (a + 1) t

/-- The canonical form of memory. -/
def Memory.wf (m : List Host.Cell) : Bool := Memory.wfFrom 0 m

/-- Read one byte. -/
def memGet : List Host.Cell → Nat → Byte
  | [], _ => Memory.blank
  | (a, b) :: t, k => if a = k then b else memGet t k

/-- Write one byte, keeping the canonical form. -/
def memSet : List Host.Cell → Nat → Byte → List Host.Cell
  | [], k, v => if v = Memory.blank then [] else [(k, v)]
  | (a, b) :: t, k, v =>
    if k < a then (if v = Memory.blank then (a, b) :: t else (k, v) :: (a, b) :: t)
    else if k = a then (if v = Memory.blank then t else (k, v) :: t)
    else (a, b) :: memSet t k v

/-- Read n bytes from k, lowest first. -/
def memRead (m : List Host.Cell) (k : Nat) : Nat → List Byte
  | 0 => []
  | n + 1 => memGet m k :: memRead m (k + 1) n

/-- Write bytes from k, lowest first. -/
def memWrite (m : List Host.Cell) (k : Nat) : List Byte → List Host.Cell
  | [] => m
  | b :: bs => memWrite (memSet m k b) (k + 1) bs

/-- Bytes as a little-endian number (R3). -/
def natOfBytes : List Byte → Nat
  | [] => 0
  | b :: bs => b.toNat + 256 * natOfBytes bs

/-- A number as n little-endian bytes (R3). -/
def bytesOfNat : Nat → Nat → List Byte
  | 0, _ => []
  | n + 1, v => BitVec.ofNat 8 v :: bytesOfNat n (v / 256)

/-! ### Beats (Tables 5-1 and 5-2) -/

def Beat.isData (b : Beat) : Bool := b.kind == .data
def Beat.isStop (b : Beat) : Bool := b.kind == .stop
def Beat.isMark (b : Beat) : Bool := b.kind == .mark
def Beat.isCfg (b : Beat) : Bool := b.kind == .cfg

def Beat.isMarkOf (b : Beat) (sub : Nat) : Bool := b.kind == .mark && b.level.toNat == sub
def Beat.isRel (b : Beat) : Bool := b.isMarkOf 0
def Beat.isRlx (b : Beat) : Bool := b.isMarkOf 1
def Beat.isEoi (b : Beat) : Bool := b.isMarkOf 2
def Beat.isEog (b : Beat) : Bool := b.isMarkOf 3
def Beat.isDrn (b : Beat) : Bool := b.isMarkOf 4
def Beat.isTdr (b : Beat) : Bool := b.isMarkOf 5
def Beat.isSpr (b : Beat) : Bool := b.isMarkOf 6
def Beat.isCkp (b : Beat) : Bool := b.isMarkOf 7
/-- REL, RLX and EOI close a round (R81). -/
def Beat.isClosing (b : Beat) : Bool := b.isRel || b.isRlx || b.isEoi

/-- The round number that a MARK carries (Table 5-2). -/
def Beat.markRound (b : Beat) : Nat :=
  if b.isSpr then b.pay.toNat / 2 ^ 64 % 2 ^ 64 else b.pay.toNat % 2 ^ 64

def dataBeat (pay : Payload) (valid : BitVec 8) (tag : BitVec 14) (round : Nat) : Beat :=
  { pay := pay, kind := .data, level := 0, round := BitVec.ofNat 3 round, poison := false, spec := false,
    valid := valid, tag := tag }

def stopBeat (k : Nat) (round : BitVec 3) : Beat :=
  { pay := 0, kind := .stop, level := BitVec.ofNat 3 k, round := round, poison := false, spec := false, valid := 0,
    tag := 0 }

/-- A MARK of a subtype for round n; `hi` is what its payload holds above bit 63 (the scope of a REL). -/
def markBeat (sub n hi : Nat) : Beat :=
  { pay := BitVec.ofNat 256 (n % 2 ^ 64 + hi * 2 ^ 64), kind := .mark, level := BitVec.ofNat 3 sub,
    round := BitVec.ofNat 3 n, poison := false, spec := false, valid := 0, tag := 0 }

/-- The scope code of a REL (Table 5-2). -/
def Beat.relScope (b : Beat) : Nat := b.pay.toNat / 2 ^ 64 % 8

/-- An SPR for the current round n (Table 5-2), that owes the beats of a number (R200). -/
def sprBeat (confirm : Bool) (n owner : Nat) : Beat :=
  { pay := BitVec.ofNat 256 ((if confirm then 1 else 0) + n % 2 ^ 64 * 2 ^ 64), kind := .mark, level := 6,
    round := BitVec.ofNat 3 n, poison := false, spec := false, valid := 0, tag := 0, owner := owner }

def cfgBeat (pay : Payload) (cls : Nat) (round : Nat) : Beat :=
  { pay := pay, kind := .cfg, level := BitVec.ofNat 3 cls, round := BitVec.ofNat 3 round, poison := false, spec := false,
    valid := 0, tag := 0 }

/-- Element i of width w of a payload (R119). -/
def payElem (p : Payload) (w i : Nat) : Nat := p.toNat / 2 ^ (w * i) % 2 ^ w

/-- All elements of width w. -/
def payElems (p : Payload) (w : Nat) : List Nat := (List.range (256 / w)).map (payElem p w)

/-- A number from elements of width w, element 0 lowest. -/
def natOfElems (w : Nat) : List Nat → Nat
  | [] => 0
  | c :: t => c % 2 ^ w + 2 ^ w * natOfElems w t

/-- A payload from elements of width w. -/
def payOfElems (w : Nat) (l : List Nat) : Payload := BitVec.ofNat 256 (natOfElems w l)

/-- Whether element i of width w lies in a valid lane. -/
def elemValid (valid : BitVec 8) (w i : Nat) : Bool := valid.getLsbD (w * i / 32)

/-- The lanes that hold some element marked valid. -/
def laneMask (w : Nat) (vs : List Bool) : BitVec 8 :=
  BitVec.ofNat 8 (natOfElems 1 ((List.range 8).map fun l =>
    if (List.range (256 / w)).any (fun i => w * i / 32 == l && vs.getD i false) then 1 else 0))

/-- Element 0 as an unsigned 32-bit control value (R196). -/
def Beat.ctl (b : Beat) : Nat := payElem b.pay 32 0

/-- The 32 bytes of a payload, byte 0 lowest. -/
def payBytes (p : Payload) : List Byte := bytesOfNat 32 p.toNat

/-- A payload from at most 32 bytes. -/
def payOfBytes (bs : List Byte) : Payload := BitVec.ofNat 256 (natOfBytes bs)

/-- The kind of a code (Table 5-1). -/
def Kind.ofCode (k : Nat) : Kind := match k with | 0 => .data | 1 => .stop | 2 => .mark | _ => .cfg

/-- The 32 sideband bits (Table 5-1). -/
def Beat.side (b : Beat) : BitVec 32 :=
  let k : BitVec 2 := match b.kind with | .data => 0 | .stop => 1 | .mark => 2 | .cfg => 3
  k ++ b.level ++ b.round ++ BitVec.ofBool b.poison ++ BitVec.ofBool b.spec ++ b.valid ++ b.tag

/-- Flits go out on a port, numbered on; the port holds each until it is acknowledged (R98, R386). -/
def sendFlits (p : SPort) (typ : BitVec 4) (id : BitVec 12) : List (BitVec 288) → SPort
  | [] => p
  | b :: t =>
    let f : LinkFlit := ⟨typ, id, p.sendSeq, b⟩
    sendFlits { p with outgoing := p.outgoing ++ [f], wire := p.wire ++ [f], sendSeq := p.sendSeq + 1 } typ id t

/-- The acknowledgement of every flit taken so far: a TYPE 3 flit whose BODY holds the next SEQ awaited in [31:16]. It takes no number
of its own and is not held (R98, R386, log 137). -/
def SPort.acknowledge (p : SPort) : SPort := { p with wire := p.wire ++ [⟨3, 0, p.sendSeq, BitVec.ofNat 288 (p.recvSeq.toNat * 2 ^ 16)⟩] }

/-- An acknowledgement has come: the flits numbered before it are held no longer. -/
def SPort.acknowledged (p : SPort) (next : BitVec 16) : SPort :=
  { p with outgoing := p.outgoing.dropWhile fun f => decide (0 < (next - f.seq).toNat) && decide ((next - f.seq).toNat < 2 ^ 15) }

/-! ### Configuration fields (08_encoding_map.md) -/

/-- The key of an offset in a plane or cell table. -/
def offKey (o : Offset) : Nat := o.dy.toNat * 256 + o.dx.toNat

/-- The offset of a key. -/
def keyOff (k : Nat) : Offset := ⟨(k % 256 : Nat), (k / 256 : Nat)⟩

/-- The install value of a cell field (Table 8-5). -/
def installValue (f : Nat) : Nat :=
  if f = 12 then 0x000001 else if 19 ≤ f ∧ f ≤ 22 then 0x111111 else 0

/-- A field of a position in a plane. -/
def planeField (p : Plane) (o : Offset) (f : Nat) : Nat :=
  match aget p (offKey o) with
  | none => installValue f
  | some fs => match aget fs f with
    | some v => v.toNat
    | none => installValue f

/-- Bits lo .. lo + n - 1 of a number. -/
def bitsOf (v lo n : Nat) : Nat := v / 2 ^ lo % 2 ^ n

/-- The key of port field f (13 to 18) of context c. -/
def portKey (c f : Nat) : Nat := 128 + 8 * c + (f - 13)

/-- The input port field of port q (0-3) of context c (Table 8-6). -/
def inField (p : Plane) (o : Offset) (c q : Nat) : Nat := planeField p o (portKey c (13 + q))
/-- The output field of output q (0 X, 1 Y) of context c (Table 8-7). -/
def outField (p : Plane) (o : Offset) (c q : Nat) : Nat := planeField p o (portKey c (17 + q))

/-- The node word of a context (R151). -/
def nodeBits (p : Plane) (o : Offset) (c : Nat) : BitVec 72 :=
  BitVec.ofNat 72 (planeField p o (3 * c) * 2 ^ 48 + planeField p o (3 * c + 1) * 2 ^ 24 + planeField p o (3 * c + 2))

/-- A bank segment field (Table 6-1). -/
structure SegDesc where
  typ : Nat
  ctx : Nat
  ext : Bool
  base : Nat
  size : Nat
  param : Nat
  deriving DecidableEq, Repr, Inhabited

/-- Decode a segment field: base and size in beats. -/
def segOfField (v : Nat) : SegDesc :=
  { typ := bitsOf v 21 3, ctx := bitsOf v 19 2, ext := bitsOf v 18 1 == 1, base := 16 * bitsOf v 11 7,
    size := 16 * (bitsOf v 4 7 + 1), param := bitsOf v 0 4 }

def segDesc (p : Plane) (o : Offset) (n : Nat) : SegDesc := segOfField (planeField p o (48 + n))

/-- The index of a segment of the type that holds a beat, restricted to one context for the owned types. -/
def segHolding (p : Plane) (o : Offset) (typ ctx beat : Nat) : Option Nat :=
  (List.range 8).find? fun n =>
    let d := segDesc p o n
    d.typ == typ && (typ == 4 || typ == 5 || d.ctx == ctx) && decide (d.base ≤ beat) && decide (beat < d.base + d.size)

/-- The memory tile of a cell. -/
def memTile (p : Plane) (o : Offset) : Option SegDesc :=
  ((List.range 8).map (segDesc p o)).find? fun d => d.typ == 4

/-- The enabled tap of a cell with a given context and source: level and tap number (Table 7-8). -/
def tapOf (p : Plane) (o : Offset) (ctx src : Nat) : Option (Nat × Nat) :=
  (((List.range 8).map fun i => planeField p o (64 + i)).find? fun v =>
    bitsOf v 23 1 == 1 && bitsOf v 21 2 == ctx && bitsOf v 18 3 == src).map fun v => (bitsOf v 15 3, bitsOf v 7 8)

/-! ### Regions and units -/

def regionAt (s : State) (r : RegId) : Option Region := s.regions.find? fun x => x.id == r

def setRegion (s : State) (rg : Region) : State :=
  { s with regions := s.regions.map fun x => if x.id == rg.id then rg else x }

def cellAt (rg : Region) (o : Offset) : Cell := agetD rg.cells (offKey o) {}
def setCell (rg : Region) (o : Offset) (c : Cell) : Region := { rg with cells := aset rg.cells (offKey o) c }
def ctxAt (c : Cell) (n : Nat) : CtxState := c.ctxs.getD n {}
def setCtx (c : Cell) (n : Nat) (x : CtxState) : Cell := { c with ctxs := lmod c.ctxs n fun _ => x }
def segAt (c : Cell) (n : Nat) : SegState := c.segs.getD n {}
def setSeg (c : Cell) (n : Nat) (x : SegState) : Cell := { c with segs := lmod c.segs n fun _ => x }
def spAt (rg : Region) (o : Offset) : Option Sp := rg.sps.find? fun x => x.off == o
def setSp (rg : Region) (x : Sp) : Region := { rg with sps := rg.sps.map fun y => if y.off == x.off then x else y }
def meAt (rg : Region) (o : Offset) : Option Me := rg.mes.find? fun x => x.off == o
def setMe (rg : Region) (x : Me) : Region := { rg with mes := rg.mes.map fun y => if y.off == x.off then x else y }

/-- The region runs: its plane is live, it is not frozen, and no cut holds it still (R340, R342, R349). -/
def Region.running (rg : Region) : Bool := rg.installed && rg.frozen.isNone && !rg.cut.any fun c => c.inPlace || c.forced

/-- The links into a context. -/
def Region.linksInto (rg : Region) (o : Offset) (c : Nat) : List Link :=
  rg.links.filter fun l => l.live && l.dist.isEmpty && !l.dst.hard && l.dst.off == o && l.dst.ctx == c && decide (l.dst.port < 4)

/-- The node is a MARK, which makes closing markers of its own (Table 16-4). -/
def Region.marks (rg : Region) (o : Offset) (c : Nat) : Bool := (nodeBits rg.plane o c).toNat / 2 ^ 63 == 0x0E0

/-- A node has consumed the closing marker of a cut's round on every input, and emitted it: it fires nothing more (R339). A MARK has
emitted its own. A source stops at the delivery of CKP. -/
def Region.pastCut (rg : Region) (o : Offset) (c n : Nat) : Bool :=
  let op := (ctxAt (cellAt rg o) c).op
  ((rg.marks o c && decide (n < op.round)) || (rg.linksInto o c).all (fun l => l.eoi || decide (n < l.round))) && op.owe.isEmpty

/-- The node fires nothing more for a cut. -/
def Region.cutStops (rg : Region) (o : Offset) (c : Nat) : Bool :=
  rg.cut.any fun k => !(rg.linksInto o c).isEmpty && rg.pastCut o c k.round

/-- A unit has raised a fault and stands still (R7). -/
def Region.isHalted (rg : Region) (kind : Nat) (o : Offset) (ctx : Nat) : Bool := rg.halted.contains (kind, o, ctx)

/-- The mode word of the running invocation (R299). -/
def Region.modeWord (rg : Region) : Nat :=
  match rg.inv with
  | some i => i.entry.mode.toNat
  | none => 0

def Region.ptrap (rg : Region) : Bool := bitsOf rg.modeWord 4 1 == 1
def Region.pstrict (rg : Region) : Bool := bitsOf rg.modeWord 5 1 == 1
def Region.specMode (rg : Region) : Bool := bitsOf rg.modeWord 3 1 == 1
def Region.det (rg : Region) : Bool := bitsOf rg.modeWord 0 1 == 1
def Region.reb (rg : Region) : Nat := bitsOf rg.modeWord 1 2

/-- The pure invocation that runs, if it is one (R364). -/
def Region.pureInv (rg : Region) : Option PureInv := rg.inv.bind fun i => i.entry.pureInv

/-- The first purity violation so far (R371). -/
def Region.violation (rg : Region) : Option Nat := rg.pureInv.bind fun p => p.violation

/-- Change the pure invocation. -/
def Region.setPure (rg : Region) (f : PureInv → PureInv) : Region :=
  { rg with inv := rg.inv.map fun i => { i with entry := { i.entry with pureInv := i.entry.pureInv.map f } } }

/-- Commit a purity violation; the first one is kept (R371). -/
def Region.violate (rg : Region) (sub : Nat) : Region :=
  rg.setPure fun p => { p with violation := p.violation.or (some sub) }

/-- Sources other than staging nodes wait for the lookup to miss (R364). -/
def Region.sourcesHeld (rg : Region) : Bool := rg.pureInv.any fun p => !p.missed

/-- The invocation for which a source may fire: no cut stops it (R339) and no lookup holds it. -/
def Region.sourceOpen (rg : Region) (staging : Bool) : Option Invocation :=
  if rg.cut.isSome || (rg.sourcesHeld && !staging) then none else rg.inv

/-- The written position and context of a unit that may be a copy or folded (R352). -/
def Region.writtenAt (rg : Region) (o : Offset) (c : Nat) : Offset × Nat :=
  match rg.layouts.find? fun l => l.copies.contains (o, c) with
  | some l => l.home
  | none => (o, c)

/-- An affected node of a commit, by its written position, has emitted the closing marker of the commit's round: it fires nothing
more until the commit is carried out (R324). -/
def Region.commitStops (rg : Region) (o : Offset) (c : Nat) : Bool :=
  rg.commit.isSome && rg.commitNodes.contains (rg.writtenAt o c) && !(rg.linksInto o c).isEmpty && rg.pastCut o c rg.commitRound

/-! ### Geometry (R16, R329) and identity (R160, R162) -/

/-- The device position of an offset. -/
def Region.posOf (rg : Region) (o : Offset) : Pos := ⟨((rg.org.x : Int) + o.dx).toNat, ((rg.org.y : Int) + o.dy).toNat⟩

/-- The die of a device position. -/
def dieOf (p : Pos) : Nat := p.x / 64 + 2 * (p.y / 56)

/-- The offset lies inside the region. -/
def Region.holds (rg : Region) (o : Offset) : Bool :=
  decide (0 ≤ o.dx) && decide (o.dx < rg.w) && decide (0 ≤ o.dy) && decide (o.dy < rg.h)

/-- A hard column (R16). -/
def Region.hardCol (rg : Region) (dx : Int) : Bool := (((rg.org.x : Int) + dx) % 8).toNat == 7

/-- The row of its hard block that an offset lies on, and the offset of the block's row 0. -/
def Region.blockRow (rg : Region) (o : Offset) : Nat := (((rg.org.y : Int) + o.dy) % 4).toNat
def Region.blockTop (rg : Region) (o : Offset) : Offset := ⟨o.dx, o.dy - rg.blockRow o⟩

/-- A hard block is a stream port when its block number within the die is even (R16). -/
def Region.blockIsSp (rg : Region) (o : Offset) : Bool := (((rg.org.y : Int) + o.dy).toNat % 56) / 4 % 2 == 0

/-- F120 of an element of a kind, and F121 of its position (R162). -/
def identity0 (kind : Nat) : Nat := kind * 2 ^ 16 + Config.implCode
def identity1 (p : Pos) : Nat := dieOf p * 2 ^ 22 + p.x % 64 * 2 ^ 16 + p.y % 56 * 2 ^ 8

/-- The written node ID of a context (R160). -/
def nidOf (p : Plane) (o : Offset) (c : Nat) : Nat := bitsOf (planeField p o (73 + 2 * c)) 0 16

/-! ### Partitions and sequencer contexts -/

def partAt (s : State) (p : Nat) : Part := s.parts.getD p {}
def setPart (s : State) (p : Nat) (x : Part) : State := { s with parts := lmod s.parts p fun _ => x }

/-- The key of a context. -/
def seqKey (c : SeqId) : Nat := c.part * 32 + c.n
def seqAt (s : State) (c : SeqId) : Seq := agetD s.seqs (seqKey c) {}
def setSeq (s : State) (c : SeqId) (q : Seq) : State := { s with seqs := aset s.seqs (seqKey c) q }
def sectAt (q : Seq) (k : Nat) : SectCtx := q.sects.getD k {}

/-- The context with its sections as t leaves them: a write on the way may have cancelled pure invocations that wait there (R370). -/
def Seq.after (q : Seq) (t : State) (c : SeqId) : Seq := { q with sects := (seqAt t c).sects }
def setSect (q : Seq) (k : Nat) (x : SectCtx) : Seq := { q with sects := lmod q.sects k fun _ => x }

/-- Read a general register: g0 reads as zero (R288). -/
def greg (q : Seq) (r : BitVec 5) : DWord := if r = 0 then 0 else q.regs.getD r.toNat 0
/-- Write a general register: g0 keeps zero (R288). -/
def setGreg (q : Seq) (r : BitVec 5) (v : DWord) : Seq :=
  if r = 0 then q else { q with regs := q.regs.setIfInBounds r.toNat v }

/-- AGCNT2's PURITY counts an invocation once, at its first violation (R371). -/
def countPurity (s : State) (r : RegId) (old new : Option Nat) : State :=
  if old.isNone && new.isSome then
    let p := partAt s r.seq.part
    setPart s r.seq.part { p with agPurity := p.agPurity + 1 }
  else s

/-! ### Links (05_fabric_tokens.md) -/

/-- The queue of eight beats of a hard block's port (R86). -/
def hardQueue : Nat := 8

/-- An end at a Slaundene port (R96): its port is 8 more than that port's number, its context the circuit number. -/
def LinkEnd.far (e : LinkEnd) : Bool := e.hard && decide (8 ≤ e.port)

/-- The capacity of the destination queue: in another module for a link that ends at a Slaundene port. -/
def Link.cap (l : Link) : Nat := if l.dst.hard && !l.dst.far then hardQueue else l.slots

/-- What the circuits of a link add to the producer's allowance: their share b, the same on each (R97, R157). -/
def Link.share (l : Link) : Nat := ((l.crossings.head?).map (·.share)).getD 0

/-- The link with every token discarded and every slot free. -/
def Link.cleared (l : Link) : Link :=
  { l with
    pipe := [], lat := l.lat.map fun _ => none, cvin := [], part := [], cvq := [], queue := [], nph := 0, ret := 0, held := false,
    refill := false, blocked := false, free := if l.src.far then 0 else ((l.cap + l.share : Nat) : Int),
    crossings := l.crossings.map fun x => { x with allow := l.cap + x.share, ret := 0, far := [] } }

/-- A zero-slot link into a cell (R87): its beat waits in the last latch. -/
def Link.zeroSlot (l : Link) : Bool := !l.dst.hard && l.slots == 0

/-- Both formats differ and neither is RAW: the link converts (R93). -/
def Link.converts (l : Link) : Bool := l.fmtS != l.fmtD && l.fmtS != .raw && l.fmtD != .raw

/-- The beats at the destination, head first. A local zero-slot link (L = 0) keeps its beat in the input latch, which is
held as the queue. -/
def Link.heads (l : Link) : List Beat :=
  if l.zeroSlot then
    match l.lat.getLast? with
    | none => l.queue
    | some b => b.toList
  else l.queue

def Link.empty (l : Link) : Bool :=
  l.pipe.isEmpty && l.lat.all Option.isNone && l.cvin.isEmpty && l.part.isEmpty && l.cvq.isEmpty && l.queue.isEmpty
    && l.crossings.all fun x => x.far.isEmpty

/-- Every latch of a zero-slot link is empty: beats that a converter holds are in no latch (R87, R94). -/
def Link.latchesFree (l : Link) : Bool := l.pipe.isEmpty && l.lat.all Option.isNone && l.cvq.isEmpty && l.queue.isEmpty

/-- What an emitted token takes from the free-slot count, and the narrowing phase after it (R429). -/
def Link.cost (l : Link) (nph : Nat) (b : Beat) : Nat × Nat :=
  if l.converts then
    let ns := fmtCount l.fmtS
    let nd := fmtCount l.fmtD
    if b.isData then
      if nd < ns then (ns / nd, 0)
      else if ns < nd then (if nph = 0 then (1, 1 % (nd / ns)) else (0, (nph + 1) % (nd / ns)))
      else (1, 0)
    else (1, 0)
  else (1, 0)

/-- The cost of a list of tokens emitted in turn. -/
def Link.costs (l : Link) : Nat → List Beat → Nat × Nat
  | nph, [] => (0, nph)
  | nph, b :: bs =>
    let (c, n1) := l.cost nph b
    let (t, n2) := l.costs n1 bs
    (c + t, n2)

/-- May the producer emit these tokens now (R86, R87, R429)? A link held for a RETYPE or a commit takes nothing. -/
def Link.canTake (l : Link) (bs : List Beat) : Bool :=
  bs.isEmpty ||
    (!l.held && !l.cheld && (if l.zeroSlot then l.latchesFree && bs.length == 1 else decide (((l.costs l.nph bs).1 : Int) ≤ l.free)))

/-- A commit lets the producer go on. -/
def Link.unheld (l : Link) : Link := { l with cheld := false, cuntil := none }

/-- Emit tokens into the link (R86, R429); after a RETYPE the producer waits (R95), and after a round's end that a commit
waits for (R324). -/
def Link.emit (l : Link) (bs : List Beat) : Link :=
  let (c, n) := l.costs l.nph bs
  let l1 := { l with free := if l.zeroSlot then l.free else l.free - c, nph := n, blocked := false,
                     held := l.held || bs.any fun b => b.isCfg && b.level == 3,
                     cheld := l.cheld || l.cuntil.any fun n => bs.any fun b => b.isEoi || (b.isClosing && decide (n ≤ b.markRound)) }
  if l.lat.isEmpty then { l1 with queue := l1.queue ++ bs } else { l1 with pipe := l1.pipe ++ bs }

/-- What the destination keeps of a consumed token: the expected round, EOI, DRN, the last coordinate (R89, R91, R113, R357). -/
def Link.note (l : Link) (b : Beat) : Link :=
  let l1 := if b.isClosing then { l with round := b.markRound + 1 } else l
  let l2 := if b.isEoi then { l1 with eoi := true } else if b.isDrn then { l1 with drn := true } else l1
  if b.isStop then { l2 with lastCoord := none }
  else if b.isData then { l2 with lastCoord := some b.ctl } else l2

/-- Consume the head token: it leaves the queue, is counted, and its slot goes on its way back (R86, R310). -/
def Link.consume (l : Link) : Link :=
  match l.heads with
  | [] => l
  | b :: _ =>
    let l1 := { (l.note b) with tokens := l.tokens + 1 }
    if l.zeroSlot then
      if l.lat.isEmpty then { l1 with queue := [] }
      else { l1 with lat := lmod l1.lat (l1.lat.length - 1) fun _ => none }
    else { l1 with queue := l1.queue.drop 1, ret := l1.ret + 1 }

/-- Index of the link into a port. A link that ends at a distributor keeps the written port as its end, and no port reads it. -/
def Region.inLink (rg : Region) (o : Offset) (hard : Bool) (ctx port : Nat) : Option Nat :=
  rg.links.findIdx? fun l => l.live && l.dist.isEmpty && l.dst == ⟨o, hard, ctx, port⟩

/-- Index of the link out of a port; a cell's X and Y are ports 4 and 5. A link behind a merge keeps the written output. -/
def Region.outLink (rg : Region) (o : Offset) (hard : Bool) (ctx port : Nat) : Option Nat :=
  rg.links.findIdx? fun l => l.live && l.merge.isEmpty && l.src == ⟨o, hard, ctx, port⟩

def Region.linkAt (rg : Region) (k : Nat) : Option Link := rg.links[k]?
def Region.modLink (rg : Region) (k : Nat) (f : Link → Link) : Region := { rg with links := lmod rg.links k f }

/-- The beats at an input port, head first. -/
def Region.portHeads (rg : Region) (o : Offset) (hard : Bool) (ctx port : Nat) : List Beat :=
  match rg.inLink o hard ctx port with
  | none => []
  | some k => match rg.linkAt k with
    | none => []
    | some l => l.heads

/-- Consume the head at an input port. -/
def Region.consumePort (rg : Region) (o : Offset) (hard : Bool) (ctx port : Nat) : Region :=
  match rg.inLink o hard ctx port with
  | none => rg
  | some k => rg.modLink k Link.consume

/-- May an output take these tokens? An output without a link takes all and drops them. -/
def Region.roomFor (rg : Region) (o : Offset) (hard : Bool) (ctx port : Nat) (bs : List Beat) : Bool :=
  match rg.outLink o hard ctx port with
  | none => true
  | some k => match rg.linkAt k with
    | none => true
    | some l => l.canTake bs

/-- Emit tokens on an output. -/
def Region.emitPort (rg : Region) (o : Offset) (hard : Bool) (ctx port : Nat) (bs : List Beat) : Region :=
  match bs, rg.outLink o hard ctx port with
  | [], _ => rg
  | _, none => rg
  | bs, some k => rg.modLink k fun l => l.emit bs

/-- A link whose producer has no slot left, or, with no slots, no free latch (R310). -/
def Link.full (l : Link) : Bool := if l.zeroSlot then !l.latchesFree else decide (l.free ≤ 0)

/-- The producer holds a token for a link that is full (R310). -/
def Region.blockLink (rg : Region) (k : Nat) : Region := rg.modLink k fun l => { l with blocked := l.blocked || l.full }

/-- Mark an output as holding a token that it may not emit (R310). -/
def Region.blockPort (rg : Region) (o : Offset) (hard : Bool) (ctx port : Nat) : Region :=
  match rg.outLink o hard ctx port with
  | none => rg
  | some k => rg.blockLink k

/-- Replace the whole content of an input port's queue, giving back the slots of removed beats. -/
def Region.requeue (rg : Region) (o : Offset) (hard : Bool) (ctx port : Nat) (bs : List Beat) : Region :=
  match rg.inLink o hard ctx port with
  | none => rg
  | some k => rg.modLink k fun l =>
      let n := l.queue.length - bs.length
      if l.zeroSlot && !l.lat.isEmpty then { l with lat := lmod l.lat (l.lat.length - 1) fun _ => bs.head? }
      else { l with queue := bs, ret := l.ret + n, tokens := l.tokens + n }

/-- An SPR owes a SPEC beat of its own speculation; where either has no number, the SPR owes every SPEC beat ahead of it
(R81, R200). -/
def Beat.owes (spr b : Beat) : Bool := b.spec && !b.isMark && (spr.owner == 0 || b.owner == 0 || spr.owner == b.owner)

/-- The number of the SPR that owes a SPEC beat. -/
def Beat.specOwner (b : Beat) : Option Nat := if b.spec then some b.owner else none

/-- The beats ahead of an SPR once it has come: confirmed ones lose SPEC, squashed ones go (R81, R177). -/
def settle (spr : Beat) (ahead : List Beat) : List Beat :=
  if spr.pay.getLsbD 0 then ahead.map fun b => if spr.owes b then { b with spec := false, owner := 0 } else b
  else ahead.filter fun b => !spr.owes b

/-- Resolve the SPEC beat at the head of a queue, and with it whatever else the SPR that owes it owes. None when that SPR
has not come. -/
def resolveSpec (q : List Beat) : Option (List Beat) :=
  match q.head? with
  | none => none
  | some h =>
    match q.findIdx? fun x => x.isSpr && x.owes h with
    | none => none
    | some k => some (settle (q.getD k default) (q.take k) ++ q.drop k)

/-! ### Levels of a fibre stream (R232) -/

/-- Levels 0 to d - 1 as a mask. -/
def levelMask (d : Nat) : BitVec 8 := BitVec.ofNat 8 (2 ^ d - 1)

/-- Every level below d is closed. -/
def FibreSide.boundary (x : FibreSide) (d : Nat) : Bool := x.open_ &&& levelMask d == 0

/-- An element opens every level; none: it does not exceed its predecessor in the fibre. -/
def FibreSide.element (x : FibreSide) (d c : Nat) (coords : Bool) : Option FibreSide :=
  if coords && x.last.any (fun l => decide (c ≤ l)) then none
  else some { x with open_ := x.open_ ||| levelMask d, last := some c }

/-- Whether a STOP k closes an open level, rather than describing an empty fibre. -/
def FibreSide.closes (x : FibreSide) (k : Nat) : Bool := x.open_ &&& levelMask (k + 1) != 0

/-- A STOP k, k < d: it closes levels 0 to k, or is an empty fibre of level k whose closed parents open. -/
def FibreSide.stop (x : FibreSide) (d k : Nat) : FibreSide :=
  if x.closes k then
    { x with open_ := x.open_ &&& ~~~(levelMask (k + 1)), last := none, hi := max x.hi k }
  else
    { x with open_ := x.open_ ||| (levelMask d &&& ~~~(levelMask (k + 1))), last := none, hi := max x.hi k }

/-- A MARK that Table 11-1 admits only at a boundary. -/
def Beat.needsBoundary (b : Beat) : Bool := b.isMark && !b.isSpr && !b.isCkp && !b.isTdr

/-- Every level that the stream has used is closed, where its depth is not declared. -/
def FibreSide.settled (x : FibreSide) : Bool := x.boundary (x.hi + 1)

/-- A boundary token passes: what DATA opened above the levels used is no fibre. -/
def FibreSide.pass (x : FibreSide) : FibreSide := { x with open_ := 0 }

/-! ### Faults: raising (R348 to R350) -/

def clsMalformed : Nat := 0x01
def clsStray : Nat := 0x02
def clsCfg : Nat := 0x03
def clsXlate : Nat := 0x04
def clsPerm : Nat := 0x05
def clsPoison : Nat := 0x06
def clsPurity : Nat := 0x07
def clsHang : Nat := 0x08
def clsRoundtag : Nat := 0x09
def clsQovf : Nat := 0x0A
def clsMatrix : Nat := 0x0B
def clsLink : Nat := 0x0C
def clsSwtrap : Nat := 0x0D
def clsKeyrev : Nat := 0x0E
def clsSeq : Nat := 0x0F
def clsDeadline : Nat := 0x10

/-- The unit of a fault: for a node, the written position and context, whatever the layout (R352). -/
def Region.unitOf (rg : Region) (fi : FaultInfo) : Offset × Nat := if fi.unit = 0 then rg.writtenAt fi.off fi.ctx else (fi.off, fi.ctx)

/-- The place that records name for an end of a link: written offset and context, and port. An end at a Slaundene port has context 0 and
the number of that port (R352, R356, log 132). -/
def Region.endPlace (rg : Region) (e : LinkEnd) : Offset × Nat × Nat :=
  if e.far then (e.off, 0, e.port - 8)
  else if e.hard then (e.off, 0, e.port)
  else ((rg.writtenAt e.off e.ctx).1, (rg.writtenAt e.off e.ctx).2, e.port)

/-- The unit kind that records give to an end of a link (Table 17-3). -/
def Region.endKind (rg : Region) (e : LinkEnd) : Nat := if !e.hard then 0 else if e.far then 3 else if rg.blockIsSp e.off then 1 else 2

/-- The order of units: dy, dx, context, port (R350). -/
def unitBefore (a b : (Offset × Nat) × Nat) : Bool :=
  if a.1.1.dy ≠ b.1.1.dy then decide (a.1.1.dy < b.1.1.dy)
  else if a.1.1.dx ≠ b.1.1.dx then decide (a.1.1.dx < b.1.1.dx)
  else if a.1.2 ≠ b.1.2 then decide (a.1.2 < b.1.2)
  else decide (a.2 < b.2)

/-- The order of faults of one cycle (R350). -/
def FaultInfo.before (rg : Region) (a b : FaultInfo) : Bool := unitBefore (rg.unitOf a, a.port) (rg.unitOf b, b.port)

/-- Raise a fault in a region: the unit stops; the first one detected is kept for the record, of one cycle's the first in
order; any other adds 1 to MORE (R350). A frozen region faults no further. -/
def raiseFault (s : State) (r : RegId) (fi : FaultInfo) : State :=
  match regionAt s r with
  | none => s
  | some rg =>
    if rg.frozen.isSome then s
    else
      let rg1 := { rg with halted := (fi.unit, fi.off, fi.ctx) :: rg.halted }
      match rg.detected with
      | none => setRegion s { rg1 with detected := some fi, detectedAt := s.cycle.toNat }
      | some old =>
        let p := partAt s r.seq.part
        let keep := if rg.detectedAt = s.cycle.toNat ∧ fi.before rg old = true then fi else old
        setPart (setRegion s { rg1 with more := true, detected := some keep }) r.seq.part { p with fMore := p.fMore + 1 }

/-! ### Keys of the global memory -/

def gib : Nat := 2 ^ 30
/-- The key of LOCAL address a of die d. -/
def dramKey (d a : Nat) : Nat := d * 2 ^ 38 + a
def cxlKey (port off : Nat) : Nat := 2 ^ 40 + port * 2 ^ 44 + off
def hostKey (a : Nat) : Nat := 2 ^ 48 + a
/-- The key lies in DRAM. -/
def isDramKey (k : Nat) : Bool := decide (k < 2 ^ 40)
/-- The line of the key is encrypted (R378). -/
def isCrypt (k : Nat) : Bool := decide (k < 2 ^ 48)

/-! ### Ownership (R375, R377) -/

def partDie (p : Nat) : Nat := p / 2
def Part.whole (p : Part) : Bool := p.shape == 1

/-- The partition that owns half h of die d. -/
def ownerOf (s : State) (d h : Nat) : Option Nat :=
  if (partAt s (2 * d)).shape = 1 then some (2 * d)
  else if (partAt s (2 * d + h)).shape = 2 then some (2 * d + h)
  else none

def ownerOfDram (s : State) (d a : Nat) : Option Nat := ownerOf s d (if a < 96 * gib then 0 else 1)
def ownerOfPos (s : State) (p : Pos) : Option Nat := ownerOf s (dieOf p) (p.x % 64 / 32)

/-- The key slot of a partition, when it is bound. -/
def partSlot (s : State) (p : Nat) : Option KeySlot := (partAt s p).slot.bind fun k => s.slots[k]?

/-- Two partitions are bound to one tenant. -/
def sameTenant (s : State) (p q : Nat) : Bool :=
  p == q ||
    match partSlot s p, partSlot s q with
    | some a, some b => a.tenant == b.tenant
    | _, _ => false

/-- The binding of a partition's own slot; 0 when it has none. -/
def partBinding (s : State) (p : Nat) : Nat := ((partSlot s p).map (·.binding)).getD 0

/-- Every LOCAL byte from a on, n of them, lies in the partition. -/
def ownsLocal (s : State) (p a n : Nat) : Bool :=
  decide (a + n ≤ 192 * gib) && ownerOfDram s (partDie p) a == some p && ownerOfDram s (partDie p) (a + n - 1) == some p

/-! ### Bytes of lines under a binding (R378, R360) -/

/-- The byte at a key as a reader under binding b sees it. -/
def cryptGet (s : State) (b k : Nat) : Byte :=
  let raw := memGet s.mem k
  if isCrypt k then
    match aget s.lineKey (k / 256) with
    | none => raw
    | some w => if w = b then raw else Config.unrelatedByte w b k raw
  else raw

/-- Bytes from k under binding b, and whether a 64-bit word among them is poisoned. -/
def devRead (s : State) (b k n : Nat) : List Byte × Bool :=
  ((List.range n).map fun i => cryptGet s b (k + i), (List.range n).any fun i => s.memPois.contains ((k + i) / 8))

/-- A line taken over by binding b: bytes written under another binding become unrelated bytes. -/
def rekey (s : State) (b line : Nat) : State :=
  if !isCrypt (256 * line) then s
  else
    match aget s.lineKey line with
    | none => { s with lineKey := aset s.lineKey line b }
    | some w =>
      if w = b then s
      else
        let bs := (List.range 256).map fun i => cryptGet s b (256 * line + i)
        { s with mem := memWrite s.mem (256 * line) bs, lineKey := aset s.lineKey line b }

/-- The 64-bit words that bytes k .. k + n - 1 touch. -/
def wordsOf (k n : Nat) : List Nat := if n = 0 then [] else (List.range ((k + n - 1) / 8 - k / 8 + 1)).map fun i => k / 8 + i

/-- Add words to a list without repeats, or take words away. -/
def joinWords (l ws : List Nat) : List Nat := l ++ ws.filter fun x => !l.contains x

/-- A clean write clears the poison of the words that it covers whole. -/
def clearedWords (k n : Nat) : List Nat := (wordsOf k n).filter fun w => decide (k ≤ 8 * w) && decide (8 * w + 8 ≤ k + n)

/-! ### The watch set (R369, R370) -/

/-- f(A) of R369. -/
def filterBit (a : Nat) : Nat :=
  (bitsOf a 16 6 ^^^ bitsOf a 22 6) ^^^ (bitsOf a 28 6 ^^^ bitsOf a 34 4)

/-- Cancel the pending insert of a pure invocation that names a granule: the invocation and 1, or 0. -/
def cancelPure (g : Nat) (p : PureInv) : PureInv × Nat :=
  if p.granules.contains g && !p.cancelled then ({ p with cancelled := true }, 1) else (p, 0)

/-- Cancel in an ARM-queue entry; one that is a saved invocation counts where it is saved (R339, R370). -/
def cancelEntry (g : Nat) (e : ArmEntry) : ArmEntry × Nat :=
  match e.pureInv with
  | none => (e, 0)
  | some p => ({ e with pureInv := some (cancelPure g p).1 }, if e.resumed then 0 else (cancelPure g p).2)

/-- Cancel in a region that runs or waits. -/
def cancelRegion (g : Nat) (rg : Region) : Region × Nat :=
  match rg.pureInv with
  | none => (rg, 0)
  | some p => (rg.setPure fun _ => (cancelPure g p).1, (cancelPure g p).2)

/-- Cancel in a list, with the count. -/
def cancelList {α : Type} (f : α → α × Nat) (l : List α) : List α × Nat :=
  (l.map fun x => (f x).1, (l.map fun x => (f x).2).foldl (· + ·) 0)

/-- Cancel in a section context: its queue and its saved invocation. -/
def cancelSect (g : Nat) (x : SectCtx) : SectCtx × Nat :=
  let (q, n) := cancelList (cancelEntry g) x.armq
  match x.saved with
  | none => ({ x with armq := q }, n)
  | some rg => ({ x with armq := q, saved := some (cancelRegion g rg).1 }, n + (cancelRegion g rg).2)

/-- Cancel in a sequencer context. -/
def cancelSeq (g : Nat) (q : Seq) : Seq × Nat :=
  ({ q with sects := (cancelList (cancelSect g) q.sects).1 }, (cancelList (cancelSect g) q.sects).2)

/-- Granules that an entry, or a pure invocation, still names. -/
def namedGranules (s : State) (part : Nat) : List Nat :=
  let ofEntry (e : ArmEntry) : List Nat := (e.pureInv.map (·.granules)).getD []
  let ofRegion (g : Region) : List Nat := (g.pureInv.map (·.granules)).getD []
  let ofSect (x : SectCtx) : List Nat := (x.armq.map ofEntry).flatten ++ (x.saved.map ofRegion).getD []
  ((partAt s part).entries.map (·.granules)).flatten ++
    ((s.regions.filter fun g => g.id.seq.part == part).map ofRegion).flatten ++
    ((s.seqs.filter fun x => x.1 / 32 == part).map fun x => (x.2.sects.map ofSect).flatten).flatten

/-- Granules that nothing names any more leave the watch set. -/
def pruneWatch (s : State) (part : Nat) : State :=
  let named := namedGranules s part
  let p := partAt s part
  setPart s part { p with watch := p.watch.filter named.contains }

/-- A write reaches granule g of partition p: matching entries are invalidated and pending inserts cancelled (R370). -/
def watchHit (s : State) (p g : Nat) : State :=
  let pt := partAt s p
  if !pt.watch.contains g then s
  else
    let f := filterBit (g * 2 ^ 16)
    let gone := pt.entries.filter fun e => e.filter.getLsbD f
    let (rgs, n1) := cancelList (fun rg => if rg.id.seq.part = p then cancelRegion g rg else (rg, 0)) s.regions
    let (sqs, n2) := cancelList (fun (x : Nat × Seq) =>
      if x.1 / 32 = p then ((x.1, (cancelSeq g x.2).1), (cancelSeq g x.2).2) else (x, 0)) s.seqs
    let pt1 := { pt with entries := pt.entries.filter fun e => !e.filter.getLsbD f,
                         agInval := pt.agInval + BitVec.ofNat 32 gone.length,
                         agCancel := pt.agCancel + BitVec.ofNat 32 (n1 + n2) }
    pruneWatch (setPart { s with regions := rgs, seqs := sqs } p pt1) p

/-- A write of n bytes at a DRAM key is checked against the watch set of the owner of its line (R370). -/
def watchWrite (s : State) (k n : Nat) : State :=
  if !isDramKey k || n == 0 then s
  else
    let d := k / 2 ^ 38
    let a := k % 2 ^ 38
    match ownerOfDram s d a with
    | none => s
    | some p =>
      let g0 := a / 2 ^ 16
      let g1 := (a + n - 1) / 2 ^ 16
      let s1 := watchHit s p g0
      if g1 = g0 then s1 else watchHit s1 p g1

/-- Write bytes at a key under a binding, checked against the watch set first; a poisoned write stores the poison code in
every 64-bit word it touches, and no data (R360, R370, R378). -/
def devWrite (s : State) (b k : Nat) (bs : List Byte) (poison : Bool) : State :=
  if bs.isEmpty then s
  else
    let n := bs.length
    let s0 := watchWrite s k n
    let s1 := (List.range ((k + n - 1) / 256 - k / 256 + 1)).foldl (fun t i => rekey t b (k / 256 + i)) s0
    if poison then { s1 with memPois := joinWords s1.memPois (wordsOf k n) }
    else
      { s1 with mem := memWrite s1.mem k bs, memPois := s1.memPois.filter fun w => !(clearedWords k n).contains w }

/-! ### Paths between modules (R385) -/

def groupSize (n g : Nat) : Nat := min 8 (n - 8 * g)

/-- The port of module m that leads to another member of its group. -/
def memberPort (j j1 : Nat) : Nat := (j1 + 15 - j) % 8

/-- The spare ports of member j in a group of c members. -/
def sparePorts (c j : Nat) : List Nat := (List.range 7).filter fun k => decide (c ≤ (j + k + 1) % 8)

/-- The port of member j of group g that ends the link to group y (R385). -/
def groupPort (n g j y : Nat) : Nat :=
  let c := groupSize n g
  if c = 8 then 7
  else if y = j then 7
  else
    let others := (List.range ((n + 7) / 8)).filter fun x => x != g && x != j && x % c == j
    (sparePorts c j).getD ((others.findIdx? fun x => x == y).getD 0) 7

/-- The first port on the path from module m to module t in a domain of n (R385). -/
def hopPort (n m t : Nat) : Nat :=
  let g1 := m / 8
  let j1 := m % 8
  let g2 := t / 8
  if g1 = g2 then memberPort j1 (t % 8)
  else
    let e := g2 % groupSize n g1
    if j1 = e then groupPort n g1 j1 g2 else memberPort j1 e

/-! ### Queues in memory (R42, R351) -/

/-- The key of byte a of a queue: LOCAL of the partition's die, or HOST. -/
def queueKey (p : Nat) (q : NQueue) (a : Nat) : Nat :=
  if q.host then hostKey (q.base + a) else dramKey (partDie p) (q.base + a)

/-- HEAD and TAIL are free-running counts; the queue is full at n entries (log 19). -/
def NQueue.isFull (q : NQueue) (n : Nat) : Bool := decide (min n 65535 ≤ (q.tail - q.head).toNat)

/-- The entry at the tail lies in HOST, or in DRAM that the partition owns (log 106). -/
def NQueue.owned (s : State) (p : Nat) (q : NQueue) (n size : Nat) : Bool :=
  q.host || ownsLocal s p (q.base + size * (q.tail.toNat % n)) size

/-- Put an entry of the queue's slot size at the tail, when the queue has room and the entry is the partition's to write. -/
def queuePut (s : State) (p : Nat) (q : NQueue) (n size : Nat) (bs : List Byte) : Option (State × NQueue) :=
  if q.isFull n || !q.owned s p n size then none
  else
    let k := queueKey p q (size * (q.tail.toNat % n))
    let b := if q.host then 0 else partBinding s p
    some (devWrite s b k bs false, { q with tail := q.tail + 1 })

/-- Performed at SYSTEM scope too (code 5): the lines that the host holds have been back-invalidated (R267), every one of them (log 131). -/
def atScope (s : State) (scope : Nat) : State := if 5 ≤ scope then { s with hostHeld := [] } else s

/-- Raise a cause of PIRQ; the vector is raised on a 0-to-1 transition (R383). -/
def raiseIrq (s : State) (p bit : Nat) : State :=
  let pt := partAt s p
  if pt.pirq.getLsbD bit then s
  else setPart s p { pt with pirq := pt.pirq ||| ((1 : BitVec 4) <<< bit), irqs := pt.irqs + 1 }

/-! ### Commands hosted for a neighbour (R260, R262) -/

/-- Change an engine. -/
def modMe (s : State) (r : RegId) (o : Offset) (f : Me → Me) : State :=
  match regionAt s r with
  | none => s
  | some rg => setRegion s { rg with mes := rg.mes.map fun m => if m.off == o then f m else m }

/-- Set an accumulator word; +0 is not listed. -/
def putAcc (a : AMap Word) (k : Nat) (v : Word) : AMap Word := if v = 0 then adel a k else aset a k v

/-- The rows of a host buffer take the place of the home's. -/
def Me.takeRows (m : Me) (h : Hosted) : Me :=
  let mine (row : Nat) : Bool := decide (h.row0 ≤ row) && decide (row < h.row0 + h.nrow)
  { m with acc := h.rows.foldl (fun a x => aset a x.1 x.2) (m.acc.filter fun x => !mine (x.1 / 64)),
           accPois := (m.accPois.filter fun x => !mine x) ++ h.rowPois }

/-- A hosted command goes back to its home's queue with the rows as far as they are done (R262): it completes when they are all there,
and else waits at its place with what is left. -/
def Me.recalled (m : Me) (h : Hosted) : Me :=
  let x := m.takeRows h
  match m.queue.findIdx? fun e => e.migrated && e.tag == h.tag with
  | none => x
  | some k =>
    if (m.queue[k]?).any fun e => e.line == h.nrow then
      { x with queue := m.queue.eraseIdx k, counters := lmod m.counters 0 fun n => (n + 1) % 2 ^ 32 }
    else { x with queue := lmod m.queue k fun e => { e with migrated := false, started := false } }

/-- Recall one hosted command. -/
def recallOne (s : State) (x : RegId × Offset × Hosted) : State :=
  modMe (modMe s x.1 x.2.1 fun m => { m with hosted := none }) x.2.2.reg x.2.2.off fun m => m.recalled x.2.2

/-- The host buffers that a region's engines hold, or that hold a command of it. -/
def hostedOf (s : State) (r : RegId) : List (RegId × Offset × Hosted) :=
  (s.regions.map fun rg => rg.mes.filterMap fun m =>
    m.hosted.bind fun h => if rg.id == r || h.reg == r then some (rg.id, m.off, h) else none).flatten

def recallAll (s : State) (r : RegId) : State := (hostedOf s r).foldl recallOne s

/-! ### Delivering a fault: freezing a region, parking a context (R282, R349 to R354) -/

/-- The classes with a sealed record (Table 17-1); SWTRAP has one for the node op only. -/
def sealedClass (cls : Nat) : Bool := [clsMalformed, clsStray, clsCfg, clsPoison, clsRoundtag, clsMatrix, clsSwtrap].contains cls

/-- Entries of the record queue and of the sealed-record buffer (Table 17-2). -/
def frqCount (p : Part) : Nat := 2 ^ (p.frq.s + 4)
def sfqCount (p : Part) : Nat := 2 ^ (p.sfq.s + 4)

/-- A signed offset in 2 bytes. -/
def offBytes (i : Int) : List Byte := bytesOfNat 2 (i % 2 ^ 16).toNat

/-- TOK and TAG of a token. -/
def tokByte (t : Option Beat) : Nat :=
  match t with
  | none => 0
  | some b => (match b.kind with | .data => 0 | .stop => 1 | .mark => 2 | .cfg => 3) + 4 * b.level.toNat
def tokTag (t : Option Beat) : Nat := (t.map fun b => b.tag.toNat).getD 0

/-- The public record of a region's fault (Table 17-3); a fault during a cut carries the cut's round (R346). -/
def publicRecord (s : State) (rg : Region) (fi : FaultInfo) (sealed_ : Bool) (rseq : BitVec 16) : List Byte :=
  let p := rg.id.seq.part
  let at_ := rg.unitOf fi
  let round := (rg.cut.map fun c => c.round).getD fi.round
  [BitVec.ofNat 8 fi.cls, BitVec.ofNat 8 ((if sealed_ then 1 else 0) + (if rg.more then 2 else 0))] ++ bytesOfNat 2 fi.sub ++
    [BitVec.ofNat 8 p, BitVec.ofNat 8 ((partAt s p).slot.getD 0), BitVec.ofNat 8 (dieOf (rg.posOf at_.1)), BitVec.ofNat 8 rg.id.seq.n] ++
    offBytes at_.1.dx ++ offBytes at_.1.dy ++ bytesOfNat 2 rg.id.sect ++
    [BitVec.ofNat 8 (at_.2 + 4 * fi.port + 32 * fi.unit), BitVec.ofNat 8 (tokByte fi.tok)] ++ bytesOfNat 4 round ++
    bytesOfNat 2 (tokTag fi.tok) ++ bytesOfNat 2 rseq.toNat ++ bytesOfNat 4 (sectAt (seqAt s rg.id.seq) rg.id.sect).lv ++
    bytesOfNat 4 (bitsOf s.cycle.toNat 10 32)

/-- The plaintext of a sealed record (R353). -/
def sealedPlain (fi : FaultInfo) : List Byte :=
  payBytes ((fi.tok.map fun b => b.pay).getD 0) ++ payBytes fi.partner ++
    bytesOfNat 4 ((fi.tok.map fun b => b.side.toNat).getD 0)

/-- SFBASE is nonzero (R353). -/
def NQueue.nonzero (q : NQueue) : Bool := q.base != 0 || q.s != 0 || q.host

/-- Write the sealed record, AES-256-GCM under the data key of the partition's slot (log 10), where the class calls for one and SFBASE is
nonzero; the Bool says whether it was written (R353, R354). The public record that it is bound to carries SEALED. -/
def writeSealed (s : State) (rg : Region) (fi : FaultInfo) (rseq : BitVec 16) : State × Bool :=
  let p := rg.id.seq.part
  let pt := partAt s p
  if !sealedClass fi.cls || !pt.sfq.nonzero then (s, false)
  else
    let lost := (setPart s p { pt with fSlost := min (pt.fSlost + 1) 65535 }, false)
    match partSlot s p with
    | none => lost
    | some k =>
      if k.st != .bound then lost
      else
        let fseq := s.fseq + 1
        let nonce := bytesOfNat 8 fseq ++ bytesOfNat 2 rseq.toNat ++ [BitVec.ofNat 8 p, BitVec.ofNat 8 (pt.slot.getD 0)]
        let aad := nonce ++ publicRecord s rg fi true rseq
        let body := gcmSeal k.data nonce aad (sealedPlain fi)
        match queuePut s p pt.sfq (sfqCount pt) 96 (nonce ++ body) with
        | none => lost
        | some (s1, q) => (setPart { s1 with fseq := fseq } p { partAt s1 p with sfq := q }, true)

/-- Put a public record into the queue, behind those that wait, or let it wait (R351). -/
def putRecord (s : State) (p : Nat) (who : Option RegId) (bs : List Byte) : State × Bool :=
  let pt := partAt s p
  let wait := (setPart s p { pt with pending := pt.pending ++ [⟨who, bs⟩] }, false)
  if !pt.pending.isEmpty then wait
  else
    match queuePut s p pt.frq (frqCount pt) 32 bs with
    | none => wait
    | some (s1, q) => (setPart s1 p { partAt s1 p with frq := q }, true)

/-- Record the status of an invocation of a section: it has retired or been ended (R298). -/
def endStatus (x : SectCtx) (st : Status) : SectCtx := { x with statuses := x.statuses ++ [st], sstat := st, queued := x.queued - 1 }

/-- The region that an access is for. -/
def Who.region (w : Who) : Option RegId :=
  match w with
  | .elem r _ _ _ _ | .index r _ _ _ | .line r _ _ | .ahead r _ _ | .hitCopy r | .layout r => some r
  | _ => none

/-- An access waits for a Slaundene port that has stopped: it performs only once the port comes back, which waits for the region (R362). -/
def MemReq.onStopped (s : State) (q : MemReq) : Bool :=
  match q.tgt with
  | .remote m _ _ => ((s.sports[hopPort s.domSize s.modId m]?).map (·.stopped)).getD false
  | _ => false

/-- A write that the region has issued is still to perform (R269, R349). -/
def writesDue (s : State) (r : RegId) : Bool :=
  s.reqs.any fun q => q.who.region == some r && !q.onStopped s && match q.acc with | .write _ _ | .amo .. => true | _ => false

/-- The invocation of a frozen region counts as retired once its public record is written (R298) and every write that it issued has
performed (R269, log 133). -/
def retireFaulted (s : State) (r : RegId) : State :=
  match regionAt s r with
  | none => s
  | some rg =>
    if writesDue s r || (partAt s r.seq.part).pending.any fun x => x.who == some r then s
    else
    match rg.inv, rg.frozen with
    | some i, some fi =>
      let q := seqAt s r.seq
      let x := sectAt q r.sect
      let x1 := { endStatus x ⟨0x03, fi.cls, fi.sub, i.entry.no⟩ with armed := false }
      pruneWatch (setRegion (setSeq s r.seq (setSect q r.sect x1)) { rg with inv := none }) r.seq.part
    | _, _ => s

/-- A host's request for a cut of the region ends (R339, R346). -/
def preDone (s : State) (r : RegId) : State :=
  let p := partAt s r.seq.part
  if p.preFor == some r then setPart s r.seq.part { p with preBusy := false, preFor := none } else s

/-- The save area of a region is returned (R341). -/
def dropSave (s : State) (r : RegId) : State :=
  let p := partAt s r.seq.part
  setPart s r.seq.part { p with saves := p.saves.filter fun x => x.reg != r }

/-- TAKING A FAULT in a region (R349, R351): the region freezes; the sealed and public records are written, the status is
entered and the interrupt raised. A saved or abandoned transition is given up (R325, R346). -/
def freezeRegion (s : State) (r : RegId) : State :=
  match regionAt s r with
  | none => s
  | some rg0 =>
    match rg0.detected, rg0.frozen with
    | some fi, none =>
      let s := recallAll s r
      let rg := (regionAt s r).getD rg0
      let p := r.seq.part
      let pt := partAt s p
      let rseq := pt.rseq + 1
      let s0 := setPart s p { pt with rseq := rseq }
      let (s1, sealed_) := writeSealed s0 rg fi rseq
      let bs := publicRecord s1 rg fi sealed_ rseq
      let s2 := setRegion s1 { rg with frozen := some fi, commit := none, cut := none, drain := none,
                                       links := rg.links.map Link.unheld }
      let (s3, put) := putRecord (dropSave (preDone s2 r) r) p (some r) bs
      raiseIrq (if put then retireFaulted s3 r else s3) p 0
    | _, _ => s

/-- A fault that stops a region at once: raised and delivered. -/
def faultRegion (s : State) (r : RegId) (fi : FaultInfo) : State := freezeRegion (raiseFault s r fi) r

/-- A fault with no unit of its own is laid at the region's origin (log 22). -/
def originFault (cls sub : Nat) : FaultInfo :=
  { cls := cls, sub := sub, off := ⟨0, 0⟩, ctx := 0, port := 7, unit := 0, tok := none, partner := 0, round := 0 }

/-- The record of a sequencer context's fault: SEQ is set, the unit and token fields are zero (R352). -/
def seqRecord (s : State) (c : SeqId) (cls sub : Nat) (rseq : BitVec 16) : List Byte :=
  [BitVec.ofNat 8 cls, 4] ++ bytesOfNat 2 sub ++
    [BitVec.ofNat 8 c.part, BitVec.ofNat 8 ((partAt s c.part).slot.getD 0), BitVec.ofNat 8 (partDie c.part), BitVec.ofNat 8 c.n] ++
    List.replicate 14 0 ++ bytesOfNat 2 rseq.toNat ++ List.replicate 4 0 ++ bytesOfNat 4 (bitsOf s.cycle.toNat 10 32)

/-- What a context goes back to when it has been parked: a record's start, its end or its link; else its instruction. -/
def Seq.parkFrom (q : Seq) : Park :=
  match q.park with
  | .start => .start
  | .finish st => .finish st
  | .halt => .halt
  | .link => .link
  | .trap | .pageFault | .walk => q.resumeTo
  | _ => .nothing

/-- Go back to it. -/
def Seq.restore (q : Seq) : Seq :=
  { q with park := q.resumeTo, resumeTo := .nothing,
           st := match q.resumeTo with | .halt | .finish _ => .parkwait | .link => .parklink | _ => .run }

/-- TAKING A FAULT in a sequencer context (R282, R349): it parks in PARKFAULT with class and subcode in SQSTAT and a public
record; no region freezes. -/
def parkSeq (s : State) (c : SeqId) (cls sub : Nat) : State :=
  let pt := partAt s c.part
  let rseq := pt.rseq + 1
  let q := seqAt s c
  let s1 := setSeq (setPart s c.part { pt with rseq := rseq }) c { q with st := .parkfault, park := .trap, resumeTo := q.parkFrom, cls := cls, sub := sub }
  raiseIrq (putRecord s1 c.part none (seqRecord s c cls sub rseq)).1 c.part 0

/-! ### Releasing a region (R359) -/

/-- Accesses of a region that still perform, with nobody left to take their answers. -/
def detachReqs (s : State) (r : RegId) : List MemReq :=
  s.reqs.map fun q => if q.who.region == some r then { q with who := .detached } else q

/-- The region whose tokens nobody takes: partition 8 does not exist. -/
def noRegion : RegId := ⟨⟨8, 0⟩, 0⟩

/-- Flits of a region that are on a bridge arrive for nobody. -/
def dropFlits (s : State) (r : RegId) : State :=
  let f (x : BridgeFlit) : BridgeFlit := if x.reg == r then { x with reg := noRegion } else x
  { s with bridges := s.bridges.map fun b => { b with retry := b.retry.map f, wire := b.wire.map f } }

/-- The key of the lines that a partition has staged at the SP of a position. -/
def poolKey (p : Nat) (q : Pos) : Nat := (p * 1024 + q.y) * 1024 + q.x

/-- What a region's SPs hold in their staging pools stays there, for the partition's next region on them (R66). -/
def leavePools (rg : Region) (ps : AMap (List PoolLine)) : AMap (List PoolLine) :=
  rg.sps.foldl (fun m x => if x.pool.isEmpty then m else aset m (poolKey rg.id.seq.part (rg.posOf x.off)) x.pool) ps

/-- The staged lines that a region finds at its SPs are its own from now on (R66). -/
def takePools (s : State) (rg : Region) : State × Region :=
  let key (x : Sp) : Nat := poolKey rg.id.seq.part (rg.posOf x.off)
  ({ s with pools := rg.sps.foldl (fun m x => adel m (key x)) s.pools },
    { rg with sps := rg.sps.map fun x => { x with pool := agetD s.pools (key x) [] } })

/-- A region that faulted on a bridge or port is there no more (R362). -/
def Bridge.released (r : RegId) (b : Bridge) : Bridge := { b with faulted := b.faulted.filter (· != r) }
def SPort.released (r : RegId) (p : SPort) : SPort := { p with faulted := p.faulted.filter (· != r) }

/-- A layout other than the written one. -/
def NodeLayout.moved (l : NodeLayout) : Bool := l.folded || decide (1 < l.copies.length)

/-- What is kept of a region for its layout: its plane, layouts and links, without any state. -/
def Region.asLayout (rg : Region) : Region :=
  { id := rg.id, org := rg.org, w := rg.w, h := rg.h, hw := rg.hw, hh := rg.hh, plane := rg.plane, layouts := rg.layouts,
    links := rg.links.map fun l => { l.cleared with cnt := {}, ovf := false }, farEnds := rg.farEnds }

/-- A region goes, and its section keeps the layout of its LV for the next placement (R408). -/
def keepLayout (s : State) (rg : Region) : State :=
  if !rg.installed || !rg.layouts.any (·.moved) then s
  else
    let q := seqAt s rg.id.seq
    setSeq s rg.id.seq (setSect q rg.id.sect { sectAt q rg.id.sect with kept := some rg.asLayout })

/-- A saved invocation is given up; the layout that it was saved with stays (R408). -/
def SectCtx.dropSaved (x : SectCtx) : SectCtx :=
  { x with saved := none, kept := match x.saved with
      | some rg => if rg.layouts.any (·.moved) then some rg.asLayout else none
      | none => x.kept }

/-- The region goes with all its tokens and state; its positions and its charge are free. -/
def freeRegion (s : State) (r : RegId) : State :=
  let s := dropFlits (recallAll s r) r
  match regionAt s r with
  | none => s
  | some rg =>
    let p := partAt s r.seq.part
    let s1 := setPart (keepLayout s rg) r.seq.part
      { p with pwuse := p.pwuse - rg.charge,
               notices := p.notices.filter fun n => match n.waiter with | .slot r1 _ _ | .hit r1 => r1 != r | _ => true }
    { s1 with
      regions := s1.regions.filter fun x => x.id != r,
      reqs := detachReqs s r,
      pools := leavePools rg s1.pools,
      bridges := s1.bridges.map (Bridge.released r),
      sports := s1.sports.map (SPort.released r),
      walks := s1.walks.map fun w => { w with waiters := w.waiters.filter fun x =>
        match x.who with | .slot r1 _ _ | .hit r1 | .ahead r1 _ => r1 != r | _ => true } }

/-- Change the head of a queue. -/
def modHead (s : State) (c : SeqId) (k : Nat) (f : ArmEntry → ArmEntry) : State :=
  let q := seqAt s c
  let x := sectAt q k
  setSeq s c (setSect q k { x with armq := match x.armq with | [] => [] | e :: t => f e :: t })

/-- The entry at the head of a section's queue waits for admission and a place again, with its age; it begins to wait now (log 149). -/
def unplace (s0 : State) (r : RegId) : State :=
  let s := modHead s0 r.seq r.sect fun e => { e with since := s0.cycle.toNat }
  let q := seqAt s r.seq
  setSeq s r.seq (setSect q r.sect { sectAt q r.sect with placed := false, charge := 0 })

/-- A region is given up (R343, R359): an entry that was placed there and not yet armed waits again. -/
def abandonPlace (s : State) (r : RegId) : State := unplace (freeRegion s r) r

/-- The region in place with every token and every block's work discarded, unfrozen (R359). -/
def clearedRegion (rg : Region) : Region :=
  { rg with
    frozen := none, detected := none, halted := [], more := false, hang := 0, charge := 0, links := rg.links.map Link.cleared,
    sps := rg.sps.map fun x => { x with slots := List.replicate 8 none, marks := [], sides := List.replicate 4 {} }, mes := rg.mes.map fun m => { m with queue := [] } }

/-- CLEAR: tokens are discarded and the region goes on with its plane and its place. The writes of its layout record go on too. -/
def clearRegion (s : State) (r : RegId) : State :=
  let s := dropFlits (recallAll s r) r
  match regionAt s r with
  | none => s
  | some rg =>
    let p := partAt s r.seq.part
    let s1 := setPart s r.seq.part
      { p with pwuse := p.pwuse - rg.charge,
               notices := p.notices.filter fun n => match n.waiter with | .slot r1 _ _ | .hit r1 => r1 != r | _ => true }
    setRegion
      { s1 with
        reqs := s.reqs.map fun q => if q.who.region == some r && q.who != .layout r then { q with who := .detached } else q,
        walks := s1.walks.map fun w => { w with waiters := w.waiters.filter fun x =>
          match x.who with | .slot r1 _ _ | .hit r1 | .ahead r1 _ => r1 != r | _ => true } }
      (clearedRegion rg)

/-- The action that a write of FRCTL asks for can be taken: its section has a frozen region, and CLEAR comes after STRAY (R359). -/
def frctlValid (s : State) (r : RegId) (act : BitVec 2) : Bool :=
  match (regionAt s r).bind (·.frozen) with
  | none => false
  | some fi => act == 0 || (act == 1 && fi.cls == clsStray)

/-- RELEASE or CLEAR of the region of a section. -/
def frctlAct (s : State) (r : RegId) (act : BitVec 2) : State := if act = 0 then abandonPlace s r else unplace (clearRegion s r) r

/-- The action waits, and BUSY stays set: the region's public record is still to be written, or a write that it issued is to perform. -/
def frctlWaits (s : State) (r : RegId) : Bool := writesDue s r || (partAt s r.seq.part).pending.any fun x => x.who == some r

/-- The action of FRCTL is due when what it waited for is done. -/
def frctlDue (s : State) (part : Nat) : State :=
  let p := partAt s part
  match p.frFor with
  | none => s
  | some (r, act) =>
    if frctlWaits s r then s
    else
      let s1 := setPart s part { p with frBusy := false, frFor := none }
      if frctlValid s1 r act then frctlAct s1 r act else s1

/-- What was left to do for a faulted invocation may be done now: it retires, and an action of FRCTL that waited is taken. -/
def faultedOn (s : State) (r : RegId) : State := frctlDue (retireFaulted s r) r.seq.part

end Sys2Proof.Machine
end

