-- ==== Sys2Proof/Machine/Operands.lean ====
section
/-! DEFINITION. The firing of a node context: its environment, operand forms (R173), results (R174), the firing rule and
the handling of non-DATA heads (R88 to R91), SPEC beats (R177), and the statistics a firing leaves (R139 to R142). -/

namespace Sys2Proof.Machine

/-- What a firing works on: the region, the cell and context of the node, its word, and the statistics tokens it has sent. -/
structure Env where
  rg : Region
  off : Offset
  ctx : Nat
  cell : Cell
  cs : CtxState
  w : NodeWord
  toks : List StatTok
  deriving DecidableEq, Repr, Inhabited

/-- The outcome of one attempt to fire. -/
inductive Fire where
  /-- Nothing is ready: no state changes. -/
  | stall
  /-- Ready but for room on the outputs of this mask (0 X, 1 Y). -/
  | full (outs : List Nat)
  /-- Fired. -/
  | ok (e : Env)
  /-- Something else than a firing: a SPEC beat is settled, a token dropped, a wait begun; or, with `emits`, a beat owed by an earlier
  firing leaves. The context counter stands (R110). -/
  | quiet (e : Env) (emits : Bool)
  /-- A fault at a port: class, subcode, port, the faulting token, the partner's payload. `e` keeps earlier effects. -/
  | bad (e : Env) (cls sub port : Nat) (tok : Option Beat) (partner : Payload)
  deriving Repr

/-! ### Ports of the environment -/

def Env.heads (e : Env) (p : Nat) : List Beat := e.rg.portHeads e.off false e.ctx p
def Env.head (e : Env) (p : Nat) : Option Beat := (e.heads p).head?
def Env.linkIn (e : Env) (p : Nat) : Option Link := (e.rg.inLink e.off false e.ctx p).bind e.rg.linkAt
def Env.consume (e : Env) (p : Nat) : Env := { e with rg := e.rg.consumePort e.off false e.ctx p }
def Env.requeue (e : Env) (p : Nat) (bs : List Beat) : Env := { e with rg := e.rg.requeue e.off false e.ctx p bs }
def Env.setOp (e : Env) (f : OpState → OpState) : Env := { e with cs := { e.cs with op := f e.cs.op } }

/-- The destination mask names output q (0 X, 1 Y). -/
def Env.dst (e : Env) (q : Nat) : Bool := if q = 0 then e.w.dx else e.w.dy

/-- Room for these beats on output q, and for at least the emit rate of R88 when any are due. -/
def Env.room (e : Env) (q : Nat) (bs : List Beat) : Bool := !e.dst q || e.rg.roomFor e.off false e.ctx (4 + q) bs

/-- Emit beats on output q, if DST names it. -/
def Env.emit (e : Env) (q : Nat) (bs : List Beat) : Env :=
  if e.dst q then { e with rg := e.rg.emitPort e.off false e.ctx (4 + q) bs } else e

/-- The emit rate of an output (Table 8-8). -/
def Env.emitRate (e : Env) (q : Nat) : Nat := bitsOf (planeField e.rg.plane e.off (19 + e.ctx)) (4 - 4 * q) 4
/-- The consume rate of a port (Table 8-8). -/
def Env.consumeRate (e : Env) (p : Nat) : Nat := bitsOf (planeField e.rg.plane e.off (19 + e.ctx)) (20 - 4 * p) 4

/-- The outputs that lack e(q) free slots (R88). -/
def Env.lackRates (e : Env) : List Nat :=
  [0, 1].filter fun q =>
    e.dst q &&
      match (e.rg.outLink e.off false e.ctx (4 + q)).bind e.rg.linkAt with
      | none => false
      | some l => l.held || l.cheld || (if l.zeroSlot then !l.latchesFree else decide (l.free < (e.emitRate q : Int)))

/-- Write the environment back into the region: the counter is at the context that fired (R110). -/
def Env.close (e : Env) : Region := setCell e.rg e.off (setCtx { e.cell with ctr := e.ctx } e.ctx e.cs)

/-- Write it back after something else than a firing. -/
def Env.closeQuiet (e : Env) (emits : Bool) : Region :=
  { setCell e.rg e.off (setCtx e.cell e.ctx e.cs) with hang := if emits then 0 else e.rg.hang }

/-! ### Ports an op reads by its SRC fields (R152) -/

def srcPort : Src → List Nat
  | .a => [0]
  | .b => [1]
  | .c => [2]
  | .d => [3]
  | _ => []

def dedupNat (l : List Nat) : List Nat := l.foldl (fun acc x => if acc.contains x then acc else acc ++ [x]) []

/-- Consume the head of each port named, once however often it is named (R152). -/
def Env.consumeAll (e : Env) (ps : List Nat) : Env := (dedupNat ps).foldl Env.consume e

/-- The element width that the node works at on a port: that of a RAW element is the width of the other side of the port's link, or 32
bits when that is RAW too or there is none (R119). -/
def Env.width (e : Env) (f : Fmt) (p : Nat) : Nat :=
  if f = .raw then
    match e.linkIn p with
    | some l => fmtWidth l.fmtS
    | none => 32
  else fmtWidth f

/-- Ports named by SRCA, SRCB and SRCC, in ascending order. -/
def srcPorts (w : NodeWord) : List Nat :=
  let named := srcPort w.srcA ++ srcPort w.srcB ++ srcPort w.srcC
  [0, 1, 2, 3].filter named.contains

/-- Ports of a four-bit mask, ascending. -/
def maskPorts (m : Nat) : List Nat := [0, 1, 2, 3].filter fun i => bitsOf m i 1 == 1

/-- The first SPEC beat at the heads of some ports: the number of the SPR that owes it. A result carries SPEC when any consumed
beat does (R177). -/
def Env.specOf (e : Env) (ps : List Nat) : Option Nat := ps.findSome? fun p => (e.head p).bind Beat.specOwner

/-! ### Statistics (R139 to R142) -/

/-- The tap of the firing node's exception counts. -/
def Env.tap (e : Env) : Option (Nat × Nat) := let u := e.rg.writtenAt e.off e.ctx; tapOf e.rg.plane u.1 u.2 0

/-- Add the counts of a firing; those of a speculative firing are kept apart, under the number of the SPR that owes it
(R142). -/
def Env.count (e : Env) (spec : Option Nat) (c : Counts) : Env :=
  match e.tap, spec with
  | none, _ => e
  | some _, some owner => { e with cs := { e.cs with spec := e.cs.spec ++ [(owner, c)] } }
  | some _, none =>
    let n := countAdd e.cs.cnt c
    { e with cs := { e.cs with cnt := n, ovf := e.cs.ovf || countFull n } }

/-- Word 0 of a token (Table 7-9). -/
def statHead (typ : Nat) (ovf : Bool) (tap : Nat) : Word := BitVec.ofNat 32 (typ * 2 ^ 30 + (if ovf then 2 ^ 29 else 0) + tap % 256 * 2 ^ 21)

/-- A word of two counts, the first in [31:16]. -/
def statPair (a b : Nat) : Word := BitVec.ofNat 32 (a % 2 ^ 16 * 2 ^ 16 + b % 2 ^ 16)

/-- The fields of a token (Table 7-9). -/
def StatTok.typ (k : StatTok) : Nat := bitsOf k.w0.toNat 30 2
def StatTok.ovf (k : StatTok) : Bool := bitsOf k.w0.toNat 29 1 == 1
def StatTok.tap (k : StatTok) : Nat := bitsOf k.w0.toNat 21 8
def StatTok.isValue (k : StatTok) : Bool := k.typ == 2
def StatTok.cnt (k : StatTok) : Counts :=
  { inex := bitsOf k.w1.toNat 16 16, satc := bitsOf k.w1.toNat 0 16, ufz := bitsOf k.w2.toNat 16 16, nanp := bitsOf k.w2.toNat 0 16 }
def StatTok.value (k : StatTok) : Nat := k.w1.toNat
def StatTok.bin (k : StatTok) : Nat := bitsOf k.w2.toNat 0 8

/-- The exception-count token of a counting point (Table 7-9). -/
def statToken (sect : RegId) (off : Offset) (point tap : Nat) (ovf : Bool) (c : Counts) : StatTok :=
  { part := sect.seq.part, sect := sect, off := off, point := point, entered := false, w0 := statHead 1 ovf tap,
    w1 := statPair c.inex c.satc, w2 := statPair c.ufz c.nanp }

/-- The value token of a tap (Table 7-9). -/
def valueToken (sect : RegId) (off : Offset) (ctx tap : Nat) (ovf : Bool) (value bin : Nat) : StatTok :=
  { part := sect.seq.part, sect := sect, off := off, point := 20 + ctx, entered := false, w0 := statHead 2 ovf tap,
    w1 := BitVec.ofNat 32 value, w2 := BitVec.ofNat 32 (bin % 256) }

/-- A token with nothing to report. -/
def StatTok.empty (k : StatTok) : Bool := !k.ovf && k.w1 == 0 && (k.isValue || k.w2 == 0)

/-- Two tokens of one counting point, for the same tap and bin. -/
def StatTok.same (a b : StatTok) : Bool :=
  a.sect == b.sect && a.off == b.off && a.point == b.point && a.typ == b.typ && a.tap == b.tap && (!a.isValue || a.bin == b.bin)

/-- The counts of a token added to one that still waits, saturating (R141). -/
def StatTok.add (a b : StatTok) : StatTok :=
  if a.isValue then
    let n := a.value + b.value
    { a with w0 := statHead 2 (a.ovf || b.ovf || decide (2 ^ 32 ≤ n)) a.tap, w1 := BitVec.ofNat 32 (min n (2 ^ 32 - 1)) }
  else
    let c := countAdd a.cnt b.cnt
    { a with w0 := statHead 1 (a.ovf || b.ovf || countFull c) a.tap, w1 := statPair c.inex c.satc, w2 := statPair c.ufz c.nanp }

/-- A counting point sends a token: it joins the point's token that has not yet entered the lane, or waits itself. With `entered`,
which an EOI sets, every token of the point enters with it: the EOI goes no earlier than that (R141). -/
def statPut (lane : List StatTok) (k : StatTok) : List StatTok :=
  let mine (x : StatTok) : Bool := !x.entered && x.same k
  let l1 :=
    if lane.any mine then lane.map fun x => if mine x then x.add k else x
    else if k.empty then lane
    else lane ++ [k]
  if k.entered then l1.map fun x => if x.sect == k.sect && x.off == k.off && x.point == k.point then { x with entered := true } else x
  else l1

/-- Send tokens. -/
def statSend (s : State) (toks : List StatTok) : State := { s with statLane := toks.foldl statPut s.statLane }

/-- What a counting node does as it takes a STOP of its tap's level or an EOI: send nonzero counters, clear (R141). An SPR
joins or drops the counts of speculative firings (R142). -/
def Env.statAt (e : Env) (b : Beat) : Env :=
  match e.tap with
  | none => e
  | some (lvl, tap) =>
    if b.isSpr then
      let mine (x : Nat × Counts) : Bool := b.owner == 0 || x.1 == 0 || x.1 == b.owner
      let n := if b.pay.getLsbD 0 then ((e.cs.spec.filter mine).map (·.2)).foldl countAdd e.cs.cnt else e.cs.cnt
      { e with cs := { e.cs with cnt := n, spec := e.cs.spec.filter fun x => !mine x, ovf := e.cs.ovf || countFull n } }
    else if (b.isStop && b.level.toNat == lvl) || b.isEoi then
      { e with toks := e.toks ++ [{ statToken e.rg.id e.off e.ctx tap e.cs.ovf e.cs.cnt with entered := b.isEoi }],
               cs := { e.cs with cnt := {}, ovf := false } }
    else e

/-- Note the round of a token that the node forwards or consumes: after a closing marker of round n, round n + 1 is open. -/
def Env.noteRound (e : Env) (b : Beat) : Env :=
  if b.isClosing then e.setOp fun o => { o with round := b.markRound + 1 } else e

/-! ### Operands (R173) -/

/-- The poisoned 64-bit words of bank beat a. -/
def bankPoisoned (c : Cell) (a : Nat) : Bool := [0, 1, 2, 3].any fun j => c.bpois.contains (4 * a + j)

/-- An operand: its elements, and whether it is poisoned; `badBank`: the bank address is outside the context's scratch. -/
structure Operand where
  els : List Nat
  valid : BitVec 8
  poison : Bool
  badBank : Bool := false
  deriving DecidableEq, Repr, Inhabited

/-- The written position and context of the firing node: its bank is that of the written cell in every layout (R320, R322). -/
def Env.home (e : Env) : Offset × Nat := e.rg.writtenAt e.off e.ctx

/-- The cell whose bank the node works at. -/
def Env.bankCell (e : Env) : Cell := if e.home.1 = e.off then e.cell else cellAt e.rg e.home.1

/-- Put that cell back. -/
def Env.setBankCell (e : Env) (c : Cell) : Env :=
  if e.home.1 = e.off then { e with cell := c } else { e with rg := setCell e.rg e.home.1 c }

/-- The bank segment of a type that holds a beat and is the node's own. -/
def Env.holding (e : Env) (typ beat : Nat) : Option Nat := segHolding e.rg.plane e.home.1 typ e.home.2 beat

/-- The bank beat that code 6 names (R173). -/
def Env.bankAddr (e : Env) : Nat :=
  (bitsOf e.w.imm.toNat 0 11 +
    (if bitsOf e.w.imm.toNat 11 1 == 1 then bitsOf (e.cs.lregs.getD e.w.la.toNat 0).toNat 0 11 else 0)) % 2048

/-- The operand of a source code at element width w. -/
def Env.operand (e : Env) (src : Src) (w : Nat) : Operand :=
  let n := 256 / w
  let port (p : Nat) : Operand :=
    match e.head p with
    | some b => { els := payElems b.pay w, valid := b.valid, poison := b.poison }
    | none => { els := List.replicate n 0, valid := 0, poison := false }
  match src with
  | .a => port 0
  | .b => port 1
  | .c => port 2
  | .d => port 3
  | .lreg =>
    { els := List.replicate n ((e.cs.lregs.getD e.w.la.toNat 0).toNat % 2 ^ w), valid := 0xFF,
      poison := e.cs.lpois.getLsbD e.w.la.toNat }
  | .imm => { els := List.replicate n (e.w.imm.toNat % 2 ^ w), valid := 0xFF, poison := false }
  | .bank =>
    let a := e.bankAddr
    if (e.holding 3 a).isSome then
      { els := payElems (agetD e.bankCell.bank a 0) w, valid := 0xFF, poison := bankPoisoned e.bankCell a }
    else { els := List.replicate n 0, valid := 0xFF, poison := false, badBank := true }
  | .none => { els := List.replicate n 0, valid := 0xFF, poison := false }

/-! ### Results (R174) -/

/-- Write l[LD] from the last beat emitted, if DST says so. -/
def Env.writeLocal (e : Env) (bs : List Beat) : Env :=
  match e.w.dl, bs.getLast? with
  | true, some b =>
    let k := e.w.ld.toNat
    let bit : BitVec 8 := (1 : BitVec 8) <<< k
    { e with cs := { e.cs with lregs := lmod e.cs.lregs k fun _ => BitVec.ofNat 32 b.ctl,
                               lpois := if b.poison then e.cs.lpois ||| bit else e.cs.lpois &&& ~~~bit } }
  | _, _ => e

/-- The beats that l[LD] takes the last of: those of X, or of Y where DST does not name X (R174). -/
def Env.kept (e : Env) (xs ys : List Beat) : List Beat :=
  if xs.isEmpty || (e.dst 1 && !e.dst 0) then ys else xs

/-- The first beats leave on the enabled outputs, l[LD] is written, and later beats are owed: they leave one at a time
(R174, R196). -/
def Env.send (e : Env) (xs ys : List Beat) : Env :=
  let e1 := ((e.emit 0 (xs.take 1)).emit 1 (ys.take 1)).writeLocal (e.kept xs ys)
  let more := (if e.dst 0 then (xs.drop 1).map fun b => (false, b) else []) ++
    (if e.dst 1 then (ys.drop 1).map fun b => (true, b) else [])
  if more.isEmpty then e1 else e1.setOp fun o => { o with owe := o.owe ++ more }

/-- Outputs that lack room for the first of their beats. -/
def Env.lack (e : Env) (xs ys : List Beat) : List Nat :=
  (if e.room 0 (xs.take 1) then [] else [0]) ++ (if e.room 1 (ys.take 1) then [] else [1])

/-- Fire when each output has room for the first of its beats, else wait. -/
def Env.fireXY (e : Env) (xs ys : List Beat) (k : Env → Env) : Fire :=
  if (e.lack xs ys).isEmpty then .ok ((k e).send xs ys) else .full (e.lack xs ys)

/-- Emit one owed beat: the first whose output has room and which no earlier one of its output precedes. -/
def Env.drain (e : Env) : Fire :=
  let q (y : Bool) : Nat := if y then 1 else 0
  let first (y : Bool) : Option Nat := e.cs.op.owe.findIdx? fun x => x.1 == y
  let can (y : Bool) : Option Nat :=
    match first y with
    | some k => if e.room (q y) [(e.cs.op.owe.getD k default).2] then some k else none
    | none => none
  match (match can false with | some k => some k | none => can true) with
  | some k =>
    let (y, b) := e.cs.op.owe.getD k default
    .quiet ((e.emit (q y) [b]).setOp fun o => { o with owe := o.owe.eraseIdx k }) true
  | none => .full ((if (first false).isSome then [0] else []) ++ (if (first true).isSome then [1] else []))

/-- As fireXY with the same beats on both outputs. -/
def Env.fireBoth (e : Env) (bs : List Beat) (k : Env → Env) : Fire := e.fireXY bs bs k

/-- A data firing: every output has e(q) free slots as well (R88). -/
def Env.fireData (e : Env) (xs ys : List Beat) (k : Env → Env) : Fire :=
  if e.lackRates.isEmpty then e.fireXY xs ys k else .full e.lackRates

/-! ### The default handling of non-DATA heads (R89, R90) -/

/-- The heads of the ports named, if all are present. -/
def Env.headsOf (e : Env) (ps : List Nat) : Option (List Beat) :=
  ps.foldr (fun p acc => match e.head p, acc with
    | some b, some l => some (b :: l)
    | _, _ => none) (some [])

/-- Every named input has a DATA head (R88; the consume rates of these ops are 1). -/
def Env.allData (e : Env) (ps : List Nat) : Bool := ps.all fun p => (e.head p).any Beat.isData

/-- Some named input has a non-DATA head. -/
def Env.someToken (e : Env) (ps : List Nat) : Bool := ps.any fun p => (e.head p).any fun b => !b.isData

/-- What R89 decides on a set of heads. -/
inductive Tokens where
  /-- Some head is still to come. -/
  | waiting
  /-- Heads agree: the token to forward. -/
  | agreed (b : Beat)
  | clash (cls sub : Nat)
  deriving DecidableEq, Repr

/-- The SPR that stands for several that meet: it squashes if any does, since a result of a squashed beat must not go on; where they
differ in number, it owes every SPEC beat ahead of it (R81, R277, log 134). -/
def joinSprs (b : Beat) (t : List (Option Beat)) : Beat :=
  if !b.isSpr then b
  else
    let spr := ((some b :: t).findSome? fun x => x.filter fun y => !y.pay.getLsbD 0).getD b
    if t.all fun x => x.all fun y => y.owner == b.owner then spr else { spr with owner := 0 }

/-- R89 and R91 on heads of which at least one is non-DATA. -/
def tokensAgree : List (Option Beat) → Tokens
  | [] => .waiting
  | none :: t => if t.any (fun x => x.any fun b => b.isData) then .clash clsMalformed 0x07 else .waiting
  | some b :: t =>
    if (some b :: t).any (fun x => x.any fun y => y.isData) then .clash clsMalformed 0x07
    else if t.any Option.isNone then .waiting
    else if t.all fun x => x.any fun y => y.kind == b.kind && y.level == b.level then
      if b.isClosing && t.any (fun x => x.any fun y => y.markRound != b.markRound) then .clash clsRoundtag 0x01
      else .agreed (joinSprs b t)
    else if b.isStop && t.all (fun x => x.any Beat.isStop) then .clash clsMalformed 0x03
    else .clash clsMalformed 0x07

/-- R89 over the named ports: forward the agreed token on outputs `outs` after the beats `owed` (each output's own), or
fault. `pre` runs on the environment before the token is emitted; `outTok` may change the token. -/
def Env.tokens (e : Env) (ps : List Nat) (owedX owedY : List Beat) (pre : Env → Env) : Fire :=
  if !e.someToken ps then .stall
  else
  match tokensAgree (ps.map e.head) with
  | .waiting => .stall
  | .clash c k =>
    let p := (ps.find? fun q => (e.head q).any fun b => !b.isData).getD 7
    .bad e c k p (e.head p) (((ps.filter (· != p)).head?.bind e.head).map (·.pay) |>.getD 0)
  | .agreed b =>
    e.fireXY (owedX ++ [b]) (owedY ++ [b]) fun e1 => ((((pre e1).consumeAll ps).statAt b).noteRound b)

/-- As `tokens`, writing no local register and owing nothing: the default node. -/
def Env.defaultTokens (e : Env) (ps : List Nat) : Fire :=
  match e.tokens ps [] [] id with
  | .ok e1 => .ok { e1 with cs := { e1.cs with lregs := e.cs.lregs, lpois := e.cs.lpois } }
  | f => f

/-- R89 as `tokens`, local registers untouched, for ops that owe beats ahead of the token. -/
def Env.flushTokens (e : Env) (ps : List Nat) (owed : List Beat) (pre : Env → Env) : Fire :=
  match e.tokens ps owed owed pre with
  | .ok e1 =>
    .ok (if owed.isEmpty then { e1 with cs := { e1.cs with lregs := e.cs.lregs, lpois := e.cs.lpois } }
         else ({ e1 with cs := { e1.cs with lregs := e.cs.lregs, lpois := e.cs.lpois } }).writeLocal owed)
  | f => f

/-! ### Checks at the input ports (R80, R81, R89, R91, R113) -/

/-- Whether a port is coordinate-matched (R113). -/
def Env.matched (e : Env) (p : Nat) : Bool := bitsOf (inField e.rg.plane e.off e.ctx p) 4 1 == 1

/-- The scaled or OSD group open at a port of a QUNPK or an online op, by the subcode of its breaking (R130, R138). -/
def Env.groupOpen (e : Env) (p : Nat) : Option Nat :=
  let opc := (nodeBits e.rg.plane e.off e.ctx).toNat / 2 ^ 63
  let opens (s : Src) (x : OsdSide) : Bool := (srcPort s).contains p && x.exp.isSome && !x.closed
  if opc = 0x082 then if (srcPort e.w.srcA).contains p && !e.cs.op.held.isEmpty then some 0x08 else none
  else if 0x160 ≤ opc ∧ opc ≤ 0x164 then
    if opens e.w.srcA e.cs.op.osdA || opens e.w.srcB e.cs.op.osdB then some 0x09 else none
  else none

/-- What the port makes of its head before the op sees it. -/
inductive PortCheck where
  | fine
  /-- The beat is held: an unresolved SPEC CFG beat or a RETYPE, which RETYPE_APPLY takes. -/
  | hold
  /-- A TDR: ignored. -/
  | ignore
  | bad (cls sub : Nat)
  deriving DecidableEq, Repr

/-- The checks on one head. A SPEC CFG beat is held before anything else is made of it, as nothing is consumed before its SPR (R80); a
CFG beat of any LEVEL breaks an open group, whatever R80 says of its LEVEL (R130, R138, log 135). `stopAfterEoi`: a STOP after EOI is malformed too (R232).
DESIGN CHOICE (log 130): a set VALID on a beat other than DATA changes nothing (R79). -/
def Env.checkPort (e : Env) (p : Nat) (stopAfterEoi : Bool) : PortCheck :=
  match e.head p, e.linkIn p with
  | some b, some l =>
    if b.isCfg then
      if b.spec then .hold
      else if b.poison then .bad clsPoison 0x02
      else match e.groupOpen p with
        | some k => .bad clsMalformed k
        | none => if b.level ≠ 3 then .bad clsCfg 0x30 else .hold
    else if b.isTdr then .ignore
    else if l.eoi && (b.isData || (stopAfterEoi && b.isStop)) then .bad clsMalformed 0x04
    else if l.rchk && (b.isData || b.isStop) && b.round != BitVec.ofNat 3 l.round then .bad clsRoundtag 0x02
    else if e.matched p && b.isData && l.lastCoord.any (fun c => decide (b.ctl ≤ c)) then .bad clsMalformed 0x02
    else .fine
  | _, _ => .fine

/-- Resolve the SPEC beat at the head of a port of a stateful op (R177). None: the head is not held. -/
def Env.resolveAt (e : Env) (p : Nat) : Option Fire :=
  match e.head p with
  | some b =>
    if b.spec && !b.isMark then
      match resolveSpec (e.heads p) with
      | some q => some (.quiet (e.requeue p q) false)
      | none => some .stall
    else none
  | none => none

/-- Two coordinate-matched heads that matching has still to settle (R113): MATCH_DISCARD acts on them. -/
def Env.unmatched (e : Env) (p q : Nat) : Bool :=
  e.matched p && e.matched q &&
    match e.head p, e.head q with
    | some x, some y => (x.isData && y.isData && x.ctl != y.ctl) || (x.isData && y.isStop) || (x.isStop && y.isData)
    | _, _ => false

/-- The shared beginning of every attempt: beats owed go first, then the port checks in port order, then the op. `spec` says which of the ports
hold SPEC beats (every port of a stateful op, the control ports of a stateless one). -/
def Env.attempt (e : Env) (ports held : List Nat) (stopAfterEoi : Bool) (op : Env → Fire) : Fire :=
  if !e.cs.op.owe.isEmpty then e.drain
  else
  match ports.find? fun p => e.checkPort p stopAfterEoi != .fine with
  | some p =>
    match e.checkPort p stopAfterEoi with
    | .bad c k => .bad e c k p (e.head p) 0
    | .ignore => .quiet (e.consume p) false
    | _ => .stall
  | none =>
    match held.find? fun p => (e.resolveAt p).isSome with
    | some p => (e.resolveAt p).getD .stall
    | none => if e.unmatched 0 1 || e.unmatched 2 3 then .stall else op e

/-! ### Running an attempt in the state -/

/-- The environment of a unit that may fire: its region runs, its cell is installed, its context is enabled, it has raised no
fault, and neither a cut nor a commit has stopped it. -/
def nodeEnv (s : State) (u : UnitId) (w : NodeWord) : Option Env :=
  match regionAt s u.reg with
  | none => none
  | some rg =>
    if rg.running && (planeField rg.plane u.off 12).testBit u.ctx && !rg.isHalted 0 u.off u.ctx && !rg.cutStops u.off u.ctx && !rg.commitStops u.off u.ctx then
      let c := cellAt rg u.off
      some { rg := rg, off := u.off, ctx := u.ctx, cell := c, cs := ctxAt c u.ctx, w := w, toks := [] }
    else none

/-- The fault record's view of a faulting node (R352): the written unit of a copy. -/
def nodeFault (e : Env) (cls sub port : Nat) (tok : Option Beat) (partner : Payload) : FaultInfo :=
  { cls := cls, sub := sub, off := e.off, ctx := e.ctx, port := port, unit := 0, tok := tok, partner := partner,
    round := e.cs.op.round }

/-- Apply the outcome of an attempt (R88, R110, R310). -/
def applyFire (s : State) (u : UnitId) (f : Fire) : State :=
  match f with
  | .stall => s
  | .full outs =>
    match regionAt s u.reg with
    | none => s
    | some rg => setRegion s (outs.foldl (fun r q => r.blockPort u.off false u.ctx (4 + q)) rg)
  | .ok e =>
    let s1 := setRegion s { e.close with id := u.reg, hang := 0 }
    countPurity (statSend s1 e.toks) u.reg ((regionAt s u.reg).bind Region.violation) e.rg.violation
  | .quiet e emits => setRegion s { e.closeQuiet emits with id := u.reg }
  | .bad e c k p tok partner =>
    let s1 := setRegion s { e.rg with id := u.reg, cells := (setCell e.rg e.off (setCtx e.cell e.ctx e.cs)).cells }
    let s2 := countPurity (statSend s1 e.toks) u.reg ((regionAt s u.reg).bind Region.violation) e.rg.violation
    raiseFault s2 u.reg (nodeFault e c k p tok partner)

/-- Run an attempt of a node op at the acting context; at any other actor nothing fires. -/
def nodeRun (w : NodeWord) (s : State) (f : Env → Fire) : Host.Outcome State Fault Refusal :=
  match s.actor with
  | .node u =>
    match nodeEnv s u w with
    | none => .next s
    | some e => .next (applyFire s u (f e))
  | _ => .next s

/-- An event of Table 18-4 at a node of a pure invocation: recorded, and under PSTRICT a fault in its place (R371). -/
def Env.pureEvent (e : Env) (sub : Nat) (k : Env → Fire) : Fire :=
  if e.rg.pureInv.isNone then k e
  else
    let e1 := { e with rg := e.rg.violate sub }
    if e.rg.pstrict then .bad e1 clsPurity sub 7 none 0 else k e1

/-- A data firing is counted (R310). -/
def Env.fired (e : Env) : Env := { e with cs := { e.cs with fires := e.cs.fires + 1 } }

/-- A source has issued tile t of the invocation: the iteration counter falls to what is left behind it (R287). -/
def Env.issued (e : Env) (t : Nat) : Env :=
  { e with rg := { e.rg with inv := e.rg.inv.map fun i => { i with left := min i.left (i.entry.tiles - (t + 1)) } } }

/-- A stateless op of one DATA firing: every port DATA, room by the emit rates, then the op. Non-DATA heads are the
business of NODE_TOKEN_FIRE. -/
def statelessRun (w : NodeWord) (s : State) (ports held : List Nat) (op : Env → Fire) :
    Host.Outcome State Fault Refusal :=
  nodeRun w s fun e => e.attempt ports held false fun e1 =>
    if e1.allData ports then
      if e1.lackRates.isEmpty then op e1.fired else .full e1.lackRates
    else .stall

/-- A stateful op: SPEC beats are held at every port. -/
def statefulRun (w : NodeWord) (s : State) (ports : List Nat) (op : Env → Fire) : Host.Outcome State Fault Refusal :=
  nodeRun w s fun e => e.attempt ports ports false op

end Sys2Proof.Machine
end

