-- ==== Sys2Proof/Machine/Matrix.lean ====
section
/-! DEFINITION. Matrix engines (12_matrix_engines.md): lines and groups (R245, R133), the command queue (R254 to R257), the eight
commands (R250 to R253), and migration (R260). -/

namespace Sys2Proof.Machine

/-! ### Ports of an engine -/

/-- The beats at inbound port k of a block. -/
def blockHeads (rg : Region) (o : Offset) (k : Nat) : List Beat := rg.portHeads o true 0 k

/-- The inbound ports that a link ends at. -/
def linkedPorts (rg : Region) (o : Offset) : List Nat := [0, 1, 2, 3].filter fun k => (rg.inLink o true 0 k).isSome

/-- The outbound ports that have a route. -/
def routedOuts (rg : Region) (o : Offset) : List Nat := [0, 1, 2, 3].filter fun k => (rg.outLink o true 0 k).isSome

/-- The ports that a marker entry is forwarded on: a DRN ends at the engine (R357, log 107). -/
def markOuts (rg : Region) (o : Offset) (b : Beat) : List Nat := if b.isDrn then [] else routedOuts rg o

/-- The output field of port k (Table 8-13). -/
def meOut (rg : Region) (o : Offset) (k : Nat) : Nat := planeField rg.plane o (5 + k)

/-- The engine's statistics tap. -/
def meTap (rg : Region) (o : Offset) : Option Nat :=
  let v := planeField rg.plane o 0
  if bitsOf v 23 1 = 1 then some (bitsOf v 7 8) else none

/-- An engine's fault (R263); the partner is the other head of two that are compared (R353). -/
def meFault (s : State) (r : RegId) (o : Offset) (cls sub port : Nat) (tok : Option Beat) (partner : Payload := 0) : State :=
  let round := match regionAt s r with
    | some rg => ((meAt rg o).map (·.round)).getD 0
    | none => 0
  raiseFault s r { cls := cls, sub := sub, off := o, ctx := 0, port := port, unit := 2, tok := tok, partner := partner, round := round }

/-! ### Lines (R245, R247) -/

/-- Beats of a line. -/
def lineBeats (f : Fmt) : Nat := 64 / fmtCount f

/-- A line's element codes from its beats; an element of a lane whose VALID bit is clear has none. -/
def lineCodes (f : Fmt) (bs : List Beat) : List (Option Nat) :=
  (bs.map fun b => (List.range (fmtCount f)).map fun i =>
    if elemValid b.valid (fmtWidth f) i then some (payElem b.pay (fmtWidth f) i) else none).flatten

/-- The 16 scale bytes of a line: half h of a scale beat. -/
def lineScales (b : Beat) (h : Nat) : List Nat := (List.range 16).map fun j => payElem b.pay 8 (16 * h + j)

/-- A line: its codes, its scale bytes (none but for a quad-scaled format) and its poison. -/
structure MLine where
  codes : List (Option Nat)
  scales : List Nat
  pois : Bool
  deriving DecidableEq, Repr, Inhabited

/-- The line that the beats collected so far complete, and the beats kept for the next one: a scale beat serves two lines. -/
def takeLine (f : Fmt) (line : Nat) (bs : List Beat) : Option (MLine × List Beat) :=
  if fmtQuad f then
    match bs with
    | [] => none
    | sc :: ds =>
      if ds.length < lineBeats f then none
      else some (⟨lineCodes f ds, lineScales sc (line % 2), bs.any Beat.poison⟩, if line % 2 = 0 then [sc] else [])
  else if bs.length < lineBeats f then none
  else some (⟨lineCodes f bs, [], bs.any Beat.poison⟩, [])

/-- Beats of a scaled group: its scale beat and two lines (R127, R245). -/
def groupBeats (f : Fmt) : Nat := 1 + 2 * lineBeats f

/-- The next beat must be the scale beat of a group. -/
def wantsScale (f : Fmt) (bs : List Beat) : Bool := fmtQuad f && bs.isEmpty

/-- The ports of a mask, ascending, and the one that beat b comes from (R247). -/
def maskPort (m : BitVec 4) (b : Nat) : Nat :=
  let ps := maskPorts m.toNat
  ps.getD (b % ps.length) 0

/-! ### Products and sums (R132, R133) -/

/-- Element k of a line, scaled; a scale byte 0xFF is NaN, and an element without a code is +0. The exponents of two lines add when
the values multiply. -/
def lineElem (f : Fmt) (codes : List (Option Nat)) (scales : List Nat) (k : Nat) : Exact :=
  match codes.getD k none with
  | none => .num false 0 0 false
  | some v =>
    let x := elemOf (fmtElem f) v
    if fmtQuad f then
      let sc := scales.getD (k / 4) 0
      if sc = 0xFF then .nan else exactScale x ((sc : Int) - 127)
    else x

/-- The magnitude's leading exponent. -/
def prodLead : Exact → Int
  | .num _ m e _ => (Nat.log2 m : Nat) + e
  | _ => 0

def prodExp : Exact → Int
  | .num _ _ e _ => e
  | _ => 0

/-- The signed mantissa at exponent g. -/
def prodAt (g : Int) : Exact → Int
  | .num n m e _ => (if n then -(m : Int) else m) * (2 ^ (e - g).toNat : Nat)
  | _ => 0

/-- The sum q of a group of products, with its sticky bit (R133). -/
def groupSum (ps : List Exact) : Exact :=
  if ps.any exactIsNan then .nan
  else
    let infs := ps.filter exactIsInf
    match infs with
    | x :: t => if t.all (fun y => exactSign y == exactSign x) then x else .nan
    | [] =>
      match ps.filter fun p => !exactIsZero p with
      | [] => .num (ps.all exactSign) 0 0 false
      | z :: zs =>
        let g := (z :: zs).foldl (fun m p => min m (prodExp p)) (prodExp z)
        let lead := (z :: zs).foldl (fun m p => max m (prodLead p)) (prodLead z)
        let sum := ((z :: zs).map (prodAt g)).foldl (· + ·) 0
        let u := lead - 48
        if sum = 0 then .num false 0 0 false
        else if g < u then
          let k := (u - g).toNat
          let q := sum.natAbs / 2 ^ k
          .num (decide (sum < 0)) (if sum.natAbs % 2 ^ k = 0 then q else q ||| 1) u false
        else .num (decide (sum < 0)) sum.natAbs g false

/-- One group added to an accumulator word, with the counts of both roundings. -/
def accGroup (sat : Bool) (acc : Nat × Counts) (ps : List Exact) (nanIn : Bool) : Nat × Counts :=
  let r1 := roundFlt fp32 sat .rne (groupSum ps)
  let r2 := roundFlt fp32 sat .rne (exactAdd .rne (fltOf fp32 acc.1) (fltOf fp32 r1.code))
  (r2.code, countResult (countResult acc.2 r1 nanIn) r2 (fltIsNan fp32 acc.1 || r1.isNan))

/-- The products of group g of two lines. -/
def groupProducts (a b : List Exact) (g : Nat) : List Exact :=
  (List.range 16).map fun i => exactMul (a.getD (16 * g + i) (.num false 0 0 false)) (b.getD (16 * g + i) (.num false 0 0 false))

/-- A line times a line of the tile, added to an accumulator word. -/
def accDot (isInt sat : Bool) (a b : List Exact) (ai bi : List Int) (acc : Nat) (c : Counts) : Nat × Counts :=
  if isInt then
    let sum := ((ai.zip bi).map fun x => x.1 * x.2).foldl (· + ·) (signedOf 32 acc)
    let r := roundInt true 32 true sat .rne (exactOfInt sum)
    (r.code, countResult c r false)
  else
    (List.range 4).foldl (fun x g =>
      let l := 16 * g
      accGroup sat x (groupProducts a b g)
        (((a.drop l).take 16).any exactIsNan || ((b.drop l).take 16).any exactIsNan)) (acc, c)

/-- The accumulator holds I32 (Table 12-2). -/
def accIsInt (fa : Fmt) : Bool := fa == .i8

/-- A line as exact values, or as integers. -/
def lineVals (f : Fmt) (codes : List (Option Nat)) (scales : List Nat) : List Exact := (List.range 64).map (lineElem f codes scales)
def lineInts (codes : List (Option Nat)) : List Int := (List.range 64).map fun k => signedOf 8 ((codes.getD k none).getD 0)

/-- The row of accumulator words at a key, bank * 64 + row. -/
def accRow (acc : AMap Word) (row : Nat) : List Nat := (List.range 64).map fun j => (agetD acc (64 * row + j) 0).toNat

/-- A row with a line multiplied in (R250), and the counts. -/
def mulRow (fa fb : Fmt) (sat : Bool) (a : MLine) (t : Tile) (row : List Nat) (c : Counts) : List Nat × Counts :=
  let isInt := accIsInt fa
  let av := if isInt then [] else lineVals fa a.codes a.scales
  let ai := if isInt then lineInts a.codes else []
  (List.range 64).foldl (fun x j =>
    let codes := agetD t.lines j []
    let scales := agetD t.scales j []
    let bv := if isInt then [] else lineVals fb codes scales
    let bi := if isInt then lineInts codes else []
    let (v, n) := accDot isInt sat av bv ai bi (row.getD j 0) x.2
    (x.1 ++ [v], n)) ([], c)

/-- Write a row. -/
def putRow (acc : AMap Word) (row : Nat) (vs : List Nat) : AMap Word :=
  (List.range 64).foldl (fun a j => putAcc a (64 * row + j) (BitVec.ofNat 32 (vs.getD j 0))) acc

/-- +0 in every element, poison clear. -/
def zeroRow (acc : AMap Word) (row : Nat) : AMap Word := acc.filter fun x => x.1 / 64 != row
def Me.zeroRow (m : Me) (row : Nat) : Me := { m with acc := Machine.zeroRow m.acc row, accPois := m.accPois.filter (· != row) }

/-! ### The queue (R254, R256) -/

/-- CODE and fields of a queued command; a marker has code 0. -/
def MeEntry.code (e : MeEntry) : Nat × MCmd :=
  match e.cmd with
  | some (.mload c) => (1, c)
  | some (.mswap c) => (2, c)
  | some (.mmul c) => (3, c)
  | some (.mdrain c) => (4, c)
  | some (.mzero c) => (5, c)
  | some (.mfmt c) => (6, c)
  | some (.mmigr c) => (7, c)
  | some (.mcount c) => (8, c)
  | _ => (0, default)

/-- Two entries conflict (R256). -/
def meConflict (a b : MeEntry) : Bool :=
  let (x, c) := a.code
  let (y, d) := b.code
  let all (n : Nat) : Bool := n == 0 || n == 6 || n == 7
  let banks (n : Nat) : Bool := n == 3 || n == 4 || n == 5
  let outs (n : Nat) : Bool := n == 4 || n == 8
  let reads (n : Nat) : Bool := n == 1 || n == 3
  all x || all y || (reads x && reads y && c.pmask &&& d.pmask != 0) || (x == y && reads x) ||
    (x == 2 && reads y) || (reads x && y == 2) || (banks x && banks y && c.bank == d.bank) ||
    (outs x && outs y && c.oport == d.oport)

/-- Entry k may start: every earlier entry has started, none of those not completed conflicts, and no hosted command holds the
array from an MMUL (R256, R260). -/
def meMayStart (m : Me) (k : Nat) : Bool :=
  match m.queue[k]? with
  | none => false
  | some e =>
    (m.queue.take k).all (fun x => x.started && !meConflict x e) && (e.code.1 != 3 || m.hosted.isNone)

/-- Fields of a beat that a command does not use are zero (Table 12-3); the mask of what it uses, by CODE. -/
def meUnused (code : Nat) (c : MCmd) : Bool :=
  let z := c.z == false
  let fmts := c.fa == .raw && c.fb == .raw && c.fd == .raw && c.rnd == .rne && !c.sat && !c.eswap
  let mig := !c.mon && c.mthr == 0
  let rows := c.row0 == 0 && c.nrow == 0
  c.rsv == 0 &&
    (code == 1 || code == 3 || c.pmask == 0) && (code == 4 || code == 8 || c.oport == 0) &&
    (code == 3 || code == 4 || code == 5 || (c.bank == 0 && rows)) && (code == 3 || code == 4 || z) &&
    (code == 4 || code == 8 || c.tagb == 0) && (code == 6 || fmts) && (code == 7 || mig)

/-- The limits that the beat and the configuration decide (R249). -/
def meLimits (rg : Region) (o : Offset) (code : Nat) (c : MCmd) : Bool :=
  let rows := decide (1 ≤ c.nrow.toNat) && decide (c.nrow.toNat ≤ 64) && decide (c.row0.toNat + c.nrow.toNat ≤ 64)
  let ports := c.pmask != 0 && (maskPorts c.pmask.toNat).all fun k => (linkedPorts rg o).contains k
  let out := bitsOf (meOut rg o c.oport.toNat) 23 1 == 1
  match code with
  | 1 => ports
  | 3 => ports && rows
  | 4 => out && rows
  | 5 => rows
  | 8 => out
  | _ => true

/-- The limits that the format state in force decides: even NROW for a quad-scaled FA, FMT of the output equal to FD (log 78). -/
def meFormatOk (rg : Region) (m : Me) (code : Nat) (c : MCmd) : Bool :=
  let even := !fmtQuad m.fa || c.nrow.toNat % 2 == 0
  let fd := bitsOf (meOut rg m.off c.oport.toNat) 12 4 == m.fd.code.toNat
  match code with
  | 3 | 5 => even
  | 4 => even && fd
  | 8 => fd
  | _ => true

/-- The command is still to be given operand beats: an MLOAD, and an MMUL short of its last line. -/
def MeEntry.owes (e : MeEntry) : Bool := e.code.1 == 1 || (e.code.1 == 3 && decide (e.line < e.code.2.nrow.toNat))

/-- A queued or running command still owes operand beats. -/
def meOwes (m : Me) : Bool := m.queue.any MeEntry.owes

/-- The format of a command's operands. -/
def Me.lineFmt (m : Me) (e : MeEntry) : Fmt := if e.code.1 = 1 then m.fb else m.fa

/-- The operand beats of a command: of the 64 lines of an MLOAD, or of the rows of an MMUL. -/
def operandBeats (f : Fmt) (e : MeEntry) : Nat :=
  let n := if e.code.1 = 1 then 64 else e.code.2.nrow.toNat
  if fmtQuad f then n / 2 * groupBeats f else n * lineBeats f

/-- A running command still reads a port: a beat of it is to come from there (R247, R256). -/
def meReads (m : Me) (k : Nat) : Bool :=
  m.queue.any fun e => e.started && e.owes &&
    (List.range (min 4 (operandBeats (m.lineFmt e) e - e.beat))).any fun j => maskPort e.code.2.pmask (e.beat + j) == k

/-- An open scaled group of a running command has beats to come from port k (R130). -/
def meGroupAt (m : Me) (k : Nat) : Bool :=
  m.queue.any fun e =>
    let n := groupBeats (m.lineFmt e)
    e.started && e.owes && fmtQuad (m.lineFmt e) && !e.lineBuf.isEmpty &&
      (List.range (n - e.beat % n)).any fun j => maskPort e.code.2.pmask (e.beat + j) == k

/-- The engine, when it may act. -/
def meOf (s : State) (r : RegId) (o : Offset) : Option (Region × Me) :=
  match regionAt s r with
  | none => none
  | some rg =>
    if rg.running && !rg.isHalted 2 o 0 then (meAt rg o).map fun m => (rg, m) else none

/-- A new entry. -/
def Me.push (m : Me) (cmd : Option Instr) (marker : Option Beat) (outs : List Nat) (now : Nat) : Me :=
  { m with
    queue := m.queue ++ [{ cmd := cmd, marker := marker, tag := m.nextTag, round := m.round, outs := outs, since := now }],
    nextTag := (m.nextTag + 1) % 16 }

/-- Entries of a queue. -/
def meCap : Nat := 16

/-- The lowest port whose head is a CFG beat. -/
def cfgPort (rg : Region) (o : Offset) : Option Nat :=
  (linkedPorts rg o).find? fun k => ((blockHeads rg o k).head?).any Beat.isCfg

/-- A round that a cut has ended: what belongs to a later one neither enters nor starts (R262, R339). -/
def Region.beyondCut (rg : Region) (round : Nat) : Bool := rg.cut.any fun c => decide (c.round < round)

/-- A command beat at the head of port k: it enters the queue, or faults (R130, R249, R254). A SPEC one is held first (R257). -/
def enqueueFrom (s : State) (r : RegId) (rg : Region) (m : Me) (k : Nat) (b : Beat) (rest : List Beat) : State :=
  if rg.beyondCut m.round then s
  else if b.spec then
    match resolveSpec (b :: rest) with
    | some q => setRegion s (rg.requeue m.off true 0 k q)
    | none => s
  else if b.poison then meFault s r m.off clsPoison 0x02 k (some b)
  else if meGroupAt m k then meFault s r m.off clsMalformed 0x08 k (some b)
  else if b.level ≠ 2 then meFault s r m.off clsCfg 0x33 k (some b)
  else if meCap ≤ m.queue.length then s
  else
    match decodeCmd b.pay with
    | .error _ => meFault s r m.off clsMatrix 0x01 k (some b)
    | .ok i =>
      let (code, c) := MeEntry.code { cmd := some i, marker := none, tag := 0, round := 0 }
      if !meUnused code c then meFault s r m.off clsMatrix 0x02 k (some b)
      else if !meLimits rg m.off code c then meFault s r m.off clsMatrix 0x03 k (some b)
      else
        setRegion s (setMe { (rg.consumePort m.off true 0 k) with hang := 0 } (m.push (some i) none [] s.cycle.toNat))

/-- ME_COMMAND_ENQUEUE (R254). -/
def execMeCommandEnqueue (r : RegId) (o : Offset) (s : State) : Host.Outcome State Fault Refusal :=
  match meOf s r o with
  | none => .next s
  | some (rg, m) =>
    match cfgPort rg o with
    | none => .next s
    | some k =>
      match blockHeads rg o k with
      | [] => .next s
      | b :: rest => .next (enqueueFrom s r rg m k b rest)

/-! ### Markers (R255, R256) -/

/-- Swap the tiles. -/
def Me.swap (m : Me) : Me := { m with ta := m.tl, tl := m.ta, taf := true, tlf := false, tln := 0 }

/-- The engine sends its counts, at a drain and at an EOI (R141). -/
def meToken (rg : Region) (m : Me) (eoi : Bool) : Me × List StatTok :=
  match meTap rg m.off with
  | none => (m, [])
  | some t => ({ m with cnt := {}, ovf := false }, [{ statToken rg.id m.off 0 t m.ovf m.cnt with entered := eoi }])

/-- Add counts. -/
def Me.addCounts (m : Me) (c : Counts) : Me := let n := countAdd m.cnt c; { m with cnt := n, ovf := m.ovf || countFull n }

/-- Add counts, when an enabled tap names the engine; else none are kept (R139). -/
def meCount (rg : Region) (m : Me) (c : Counts) : Me := if (meTap rg m.off).isSome then m.addCounts c else m

/-- Write an engine back into its region, with the statistics that it sends. -/
def putMe (s : State) (rg : Region) (m : Me) (toks : List StatTok) : State :=
  statSend (setRegion s (setMe { rg with hang := 0 } m)) toks

/-- The marker at the head of the queue starts, and leaves on one port that has room. -/
def forwardMarker (s : State) (rg : Region) (m : Me) (e : MeEntry) (b : Beat) : State :=
  let m1 := if !e.started && b.isEog && m.eswap && m.tlf then m.swap else m
  let (m2, toks) := if !e.started && b.isEoi then meToken rg m1 true else (m1, [])
  let upd (e1 : MeEntry) : Me := { m2 with queue := e1 :: m2.queue.drop 1 }
  match e.outs.find? fun k => rg.roomFor m.off true 0 k [b] with
  | some k =>
    let e1 := { e with started := true, outs := e.outs.filter (· != k) }
    let m3 := if e1.outs.isEmpty then { m2 with queue := m2.queue.drop 1 } else upd e1
    putMe s (rg.emitPort m.off true 0 k [b]) m3 toks
  | none =>
    if e.outs.isEmpty then putMe s rg { m2 with queue := m2.queue.drop 1 } toks
    else putMe s (e.outs.foldl (fun g k => g.blockPort m.off true 0 k) rg) (upd { e with started := true }) toks

/-- The token that the ports agree on enters as a marker entry. -/
def takeMarker (s : State) (rg : Region) (m : Me) (ps : List Nat) : State :=
  let r := rg.id
  let heads := ps.map fun k => (blockHeads rg m.off k).head?
  if heads.any Option.isNone || heads.any fun h => h.any fun b => !b.isMark then s
  else
    match tokensAgree heads with
    | .waiting => s
    | .clash c k =>
      let p := ps.headD 7
      meFault s r m.off c k p ((blockHeads rg m.off p).head?) ((((heads.drop 1).headD none).map fun b => b.pay).getD 0)
    | .agreed b =>
      if b.isEoi && meOwes m then meFault s r m.off clsMatrix 0x08 (ps.headD 7) (some b)
      else if meCap ≤ m.queue.length then s
      else
        let rg1 := ps.foldl (fun g k => g.consumePort m.off true 0 k) rg
        let m1 := m.push none (some b) (markOuts rg m.off b) s.cycle.toNat
        putMe s rg1 (if b.isClosing then { m1 with round := b.markRound + 1 } else m1) []

/-- The first port whose head the engine must deal with by itself: a STOP, a TDR, a MARK under a running command, a SPEC DATA
beat. -/
def oddPort (rg : Region) (m : Me) (ps : List Nat) : Option Nat :=
  ps.find? fun k => ((blockHeads rg m.off k).head?).any fun b =>
    b.isStop || b.isTdr || (b.isMark && meReads m k) || (b.isData && b.spec)

/-- ME_MARKER_ENTRY (R255, R256): the marker at the head of the queue goes on its way; else the heads of the ports are taken
as a marker entry. -/
def execMeMarkerEntry (r : RegId) (o : Offset) (s : State) : Host.Outcome State Fault Refusal :=
  match meOf s r o with
  | none => .next s
  | some (rg, m) =>
    let ps := linkedPorts rg o
    let take : State :=
      if rg.beyondCut m.round then s
      else
      match oddPort rg m ps with
      | some k =>
        match blockHeads rg o k with
        | [] => s
        | b :: rest =>
          if b.isTdr then setRegion s { (rg.consumePort o true 0 k) with hang := 0 }
          else if b.isData then
            match resolveSpec (b :: rest) with
            | some q => setRegion s (rg.requeue o true 0 k q)
            | none => s
          else if meGroupAt m k then meFault s r o clsMalformed 0x08 k (some b)
          else if b.isEoi then meFault s r o clsMatrix 0x08 k (some b)
          else meFault s r o clsMalformed 0x07 k (some b)
      | none => if ps.isEmpty then s else takeMarker s rg m ps
    match m.queue with
    | e :: _ => match e.marker with
      | some b => .next (forwardMarker s rg m e b)
      | none => .next take
    | [] => .next take

/-! ### Running a command (R250, R256) -/

/-- What runs: the region, the engine, and its entry k. -/
structure MeRun where
  rg : Region
  m : Me
  k : Nat
  e : MeEntry

/-- The entry of a run replaced. -/
def MeRun.put (x : MeRun) (m : Me) (e : MeEntry) : Me := { m with queue := lmod m.queue x.k fun _ => e }

/-- The entry has completed: it leaves the queue, and counts (R253). -/
def MeRun.finish (x : MeRun) (m : Me) : Me :=
  { m with queue := m.queue.eraseIdx x.k, counters := lmod m.counters 0 fun n => (n + 1) % 2 ^ 32 }

/-- A command of CODE at the acting engine: at the port head (k = 16) it enters the queue; as entry k it starts, when it may,
and then runs. -/
def meRun (code : Nat) (c : MCmd) (s : State) (start : MeRun → State) (go : MeRun → State) : Host.Outcome State Fault Refusal :=
  match s.actor with
  | .me r o k =>
    if k = meCap then execMeCommandEnqueue r o s
    else
      match meOf s r o with
      | none => .next s
      | some (rg, m) =>
        match m.queue[k]? with
        | none => .next s
        | some e =>
          let x : MeRun := { rg := rg, m := m, k := k, e := e }
          if e.code != (code, c) || rg.beyondCut e.round then .next s
          else if e.started then .next (go x)
          else if !meMayStart m k then .next s
          else if !meFormatOk rg m code c then .next (meFault s r o clsMatrix 0x03 7 none)
          else .next (start x)
  | _ => .next s

/-- A command that takes effect at once when it starts. -/
def MeRun.atOnce (x : MeRun) (s : State) (f : Me → Me) : State := putMe s x.rg (x.finish (f x.m)) []

/-- The entry starts, and runs from the next step on. -/
def MeRun.begin (x : MeRun) (s : State) : State := putMe s x.rg (x.put x.m { x.e with started := true }) []

def meStartFault (x : MeRun) (s : State) (sub : Nat) : State := meFault s x.rg.id x.m.off clsMatrix sub 7 none

/-- Take the next operand beat of a running command; with a whole line, `line` runs on the engine (R245, R247, R254, R257). -/
def MeRun.operand (x : MeRun) (s : State) (f : Fmt) (num : Nat) (line : Region → Me → MeEntry → MLine → State) : State :=
  let r := x.rg.id
  let o := x.m.off
  let p := maskPort x.e.code.2.pmask x.e.beat
  match blockHeads x.rg o p with
  | [] => s
  | b :: rest =>
    if b.isData && b.spec then
      match resolveSpec (b :: rest) with
      | some q => setRegion s (x.rg.requeue o true 0 p q)
      | none => s
    else if b.isTdr then s
    else if !b.isData then
      if b.isCfg then s
      else if meGroupAt x.m p then meFault s r o clsMalformed 0x08 p (some b)
      else if b.isEoi then meFault s r o clsMatrix 0x08 p (some b)
      else meFault s r o clsMalformed 0x07 p (some b)
    else if ((x.rg.inLink o true 0 p).bind x.rg.linkAt).any fun l => l.eoi then meFault s r o clsMalformed 0x04 p (some b)
    else if wantsScale f x.e.lineBuf && b.valid != 0xFF then meFault s r o clsMalformed 0x08 p (some b)
    else
      let rg1 := x.rg.consumePort o true 0 p
      let bs := x.e.lineBuf ++ [b]
      let e1 := { x.e with beat := x.e.beat + 1, lineBuf := bs }
      match takeLine f num bs with
      | none => putMe s rg1 (x.put x.m e1) []
      | some (l, keep) => line rg1 x.m { e1 with lineBuf := keep } l

/-- MLOAD (R250). -/
def execMload (c : MCmd) (s : State) : Host.Outcome State Fault Refusal :=
  meRun 1 c s (fun x => if x.m.tlf then meStartFault x s 0x06 else x.begin s) fun x =>
    x.operand s x.m.fb x.m.tln fun rg m e l =>
      let tl := { m.tl with lines := aset m.tl.lines m.tln l.codes, pois := m.tl.pois || l.pois,
                            scales := if l.scales.isEmpty then m.tl.scales else aset m.tl.scales m.tln l.scales }
      let m1 := { m with tl := tl, tln := m.tln + 1 }
      putMe s rg (if m.tln + 1 = 64 then x.finish { m1 with tlf := true } else x.put m1 e) []

/-- MSWAP (R250). -/
def execMswap (c : MCmd) (s : State) : Host.Outcome State Fault Refusal :=
  meRun 2 c s (fun x => if x.m.tlf then x.atOnce s Me.swap else meStartFault x s 0x05) fun _ => s

/-- One line multiplied into a row of some banks: Z first, then the products, then the poison (R250). -/
def mulInto (fa fb : Fmt) (sat z : Bool) (t : Tile) (l : MLine) (row : Nat) (acc : AMap Word) (pois : List Nat) :
    AMap Word × List Nat × Counts :=
  let acc0 := if z then zeroRow acc row else acc
  let pois0 := if z then pois.filter (· != row) else pois
  let (vs, cnt) := mulRow fa fb sat l t (accRow acc0 row) {}
  (putRow acc0 row vs, if (l.pois || t.pois) && !pois0.contains row then row :: pois0 else pois0, cnt)

/-- The key of a row of a bank. -/
def rowKey (c : MCmd) (i : Nat) : Nat := 64 * c.bank.toNat + c.row0.toNat + i

/-- The engine that hosts a command of an engine, by tag. -/
def hostOf (s : State) (r : RegId) (o : Offset) (tag : Nat) : Option (RegId × Offset × Hosted) :=
  s.regions.findSome? fun rg => rg.mes.findSome? fun m =>
    m.hosted.bind fun h => if h.reg == r && h.off == o && h.tag == tag then some (rg.id, m.off, h) else none

/-- One more multiplied line (R253). -/
def Me.countLine (m : Me) : Me := { m with counters := lmod m.counters 1 fun n => (n + 1) % 2 ^ 32 }

/-- MMUL (R250). A migrated one multiplies in its host's buffer (R260). -/
def execMmul (c : MCmd) (s : State) : Host.Outcome State Fault Refusal :=
  meRun 3 c s (fun x => if x.m.taf then x.begin s else meStartFault x s 0x04) fun x =>
    if x.e.line = c.nrow.toNat then s
    else
      x.operand s x.m.fa x.e.line fun rg m e l =>
        let row := rowKey c x.e.line
        let e1 := { e with line := x.e.line + 1 }
        match (if x.e.migrated then hostOf s rg.id m.off x.e.tag else none) with
        | some (r1, o1, h) =>
          let (acc, pois, cnt) := mulInto h.fa h.fb h.sat c.z h.tile l row h.rows h.rowPois
          modMe (putMe s rg (x.put (meCount rg m cnt) e1) []) r1 o1 fun y =>
            { y with hosted := some { h with rows := acc, rowPois := pois } }.countLine
        | none =>
          let (acc, pois, cnt) := mulInto m.fa m.fb m.sat c.z m.ta l row m.acc m.accPois
          let m1 := (meCount rg { m with acc := acc, accPois := pois } cnt).countLine
          putMe s rg (if x.e.line + 1 = c.nrow.toNat then x.finish m1 else x.put m1 e1) []

/-- The beats of a drained row. -/
def drainBeats (fd : Fmt) : Nat := 64 / fmtCount fd

/-- One beat of a drained row, and its counts. -/
def drainBeat (m : Me) (row part : Nat) (round tag : Nat) : Beat × Counts :=
  let n := fmtCount m.fd
  let vals := (List.range n).map fun i => (agetD m.acc (64 * row + n * part + i) 0).toNat
  let isInt := accIsInt m.fa
  let rs := vals.map fun v => roundTo (fmtElem m.fd) isInt m.sat m.rnd (if isInt then exactOfInt (signedOf 32 v) else fltOf fp32 v)
  ({ dataBeat (payOfElems (fmtWidth m.fd) (rs.map (·.code))) 0xFF (BitVec.ofNat 14 tag) round with poison := m.accPois.contains row },
   (rs.zip vals).foldl (fun c x => countResult c x.1 (!isInt && fltIsNan fp32 x.2)) {})

/-- MDRAIN (R250, R251). -/
def execMdrain (c : MCmd) (s : State) : Host.Outcome State Fault Refusal :=
  meRun 4 c s (fun x => x.begin s) fun x =>
    let bd := drainBeats x.m.fd
    let row := rowKey c (x.e.beat / bd)
    let part := x.e.beat % bd
    let (b, cnt) := drainBeat x.m row part x.e.round (c.tagb.toNat + x.e.beat)
    let port := c.oport.toNat
    if !x.rg.roomFor x.m.off true 0 port [b] then setRegion s (x.rg.blockPort x.m.off true 0 port)
    else
      let rg1 := x.rg.emitPort x.m.off true 0 port [b]
      let m1 := meCount x.rg (if c.z && part + 1 == bd then x.m.zeroRow row else x.m) cnt
      if x.e.beat + 1 = bd * c.nrow.toNat then
        let (m2, toks) := meToken x.rg (x.finish m1) false
        putMe s rg1 m2 toks
      else putMe s rg1 (x.put m1 { x.e with beat := x.e.beat + 1 }) []

/-- MZERO (R250). -/
def execMzero (c : MCmd) (s : State) : Host.Outcome State Fault Refusal :=
  meRun 5 c s (fun x => x.atOnce s fun m => (List.range c.nrow.toNat).foldl (fun m i => m.zeroRow (rowKey c i)) m) fun _ => s

/-- The pairs of Table 12-2, with their drain formats. -/
def pairOk (fa fb fd : Fmt) : Bool :=
  let flt := fd == .fp32 || fd == .bf16 || fd == .fp16 || fd == .e4m3 || fd == .e5m2
  let half (f : Fmt) : Bool := f == .bf16 || f == .fp16
  let byte (f : Fmt) : Bool := f == .e4m3 || f == .e5m2
  if fa == .i8 && fb == .i8 then fd == .i32 || fd == .i16 || fd == .i8
  else flt && ((half fa && half fb) || (byte fa && byte fb) || (fa == fb && fmtQuad fa))

/-- MFMT (R252). -/
def execMfmt (c : MCmd) (s : State) : Host.Outcome State Fault Refusal :=
  meRun 6 c s (fun x =>
    if !pairOk c.fa c.fb c.fd then meStartFault x s 0x07
    else
      x.atOnce s fun m =>
        let m1 := if accIsInt m.fa != accIsInt c.fa then { m with acc := [], accPois := [] } else m
        let m2 := if m.fb != c.fb then { m1 with taf := false, tlf := false, tln := 0 } else m1
        { m2 with fa := c.fa, fb := c.fb, fd := c.fd, rnd := c.rnd, sat := c.sat, eswap := c.eswap }) fun _ => s

/-- MMIGR (R253). -/
def execMmigr (c : MCmd) (s : State) : Host.Outcome State Fault Refusal :=
  meRun 7 c s (fun x => x.atOnce s fun m => { m with mon := c.mon, mthr := c.mthr.toNat }) fun _ => s

/-- The MCOUNT beat (R253). -/
def countBeat (m : Me) (c : MCmd) (round : Nat) : Beat :=
  dataBeat (payOfElems 32 ((List.range 5).map fun i => m.counters.getD i 0)) 0x1F c.tagb round

/-- MCOUNT (R253). In a pure invocation it is a violation, subcode 0x03, and under PSTRICT a fault in its place (R371). -/
def execMcount (c : MCmd) (s : State) : Host.Outcome State Fault Refusal :=
  meRun 8 c s (fun x =>
    if x.rg.pureInv.isSome then
      let rg1 := x.rg.violate 0x03
      let s1 := countPurity s x.rg.id x.rg.violation rg1.violation
      if x.rg.pstrict then raiseFault (setRegion s1 rg1) x.rg.id
          { cls := clsPurity, sub := 0x03, off := x.m.off, ctx := 0, port := 7, unit := 2, tok := none, partner := 0, round := x.m.round }
      else { x with rg := rg1 }.begin s1
    else x.begin s) fun x =>
    let b := countBeat x.m c x.e.round
    let port := c.oport.toNat
    if x.rg.roomFor x.m.off true 0 port [b] then putMe s (x.rg.emitPort x.m.off true 0 port [b]) (x.finish x.m) []
    else setRegion s (x.rg.blockPort x.m.off true 0 port)

/-! ### Migration (R260, R261) -/

/-- The engine at a device position, in a partition. -/
def meAtPos (s : State) (part : Nat) (p : Pos) : Option (Region × Me) :=
  s.regions.findSome? fun rg =>
    if rg.id.seq.part = part ∧ rg.running then (rg.mes.find? fun m => rg.posOf m.off == p).map fun m => (rg, m) else none

/-- The neighbour's position: block index ±2 of the same die and column. -/
def neighbourPos (p : Pos) (south : Bool) : Option Pos :=
  if south then (if p.y % 56 + 8 < 56 then some ⟨p.x, p.y + 8⟩ else none) else if 8 ≤ p.y % 56 then some ⟨p.x, p.y - 8⟩ else none

/-- MIGEN (Table 8-13). -/
def migEn (rg : Region) (o : Offset) : Bool := bitsOf (planeField rg.plane o 9) 0 1 == 1

/-- The conditions on the home's entry. -/
def mayMigrate (now : Nat) (rg : Region) (m : Me) (k : Nat) : Bool :=
  match m.queue[k]? with
  | none => false
  | some e =>
    let (code, c) := e.code
    code == 3 && !e.started && m.mon && m.taf && meFormatOk rg m code c && decide (2 ^ (m.mthr + 6) ≤ now - e.since) && migEn rg m.off &&
      (m.queue.take k).all fun x => x.started &&
        (!meConflict x e || (x.code.1 == 3 && x.code.2.bank != c.bank && x.code.2.pmask &&& c.pmask == 0))

/-- The record that moves. -/
def hostRecord (r : RegId) (m : Me) (e : MeEntry) : Hosted :=
  let c := e.code.2
  let row0 := rowKey c 0
  let mine (row : Nat) : Bool := decide (row0 ≤ row) && decide (row < row0 + c.nrow.toNat)
  { reg := r, off := m.off, tag := e.tag, tile := m.ta, fa := m.fa, fb := m.fb, sat := m.sat, row0 := row0, nrow := c.nrow.toNat,
    rows := m.acc.filter fun x => mine (x.1 / 64), rowPois := m.accPois.filter mine }

/-- ME_MIGRATE (R260): entry k of an engine moves to the neighbour south or north of it. -/
def execMeMigrate (r : RegId) (o : Offset) (k : Nat) (south : Bool) (s : State) : Host.Outcome State Fault Refusal :=
  match meOf s r o with
  | none => .next s
  | some (rg, m) =>
    match (neighbourPos (rg.posOf o) south).bind (meAtPos s r.seq.part) with
    | none => .next s
    | some (rg1, n) =>
      match m.queue[k]? with
      | none => .next s
      | some e =>
        if mayMigrate s.cycle.toNat rg m k && migEn rg1 n.off && n.queue.isEmpty && n.hosted.isNone then
          let m1 := { m with queue := lmod m.queue k fun e => { e with started := true, migrated := true },
                             counters := lmod m.counters 2 fun n => (n + 1) % 2 ^ 32 }
          let s1 := modMe s r o fun _ => m1
          .next (modMe s1 rg1.id n.off fun n =>
            { n with hosted := some (hostRecord r m e), counters := lmod n.counters 3 fun n => (n + 1) % 2 ^ 32 })
        else .next s

/-- ME_MIGRATION_RETURN (R260): the neighbour's rows are written at home, and the command completes. `r` and `o` are the home. -/
def execMeMigrationReturn (r : RegId) (o : Offset) (s : State) : Host.Outcome State Fault Refusal :=
  match meOf s r o with
  | none => .next s
  | some (_, m) =>
    match m.queue.findIdx? fun e => e.migrated && e.line == e.code.2.nrow.toNat with
    | none => .next s
    | some k =>
      match m.queue[k]? with
      | none => .next s
      | some e =>
        match hostOf s r o e.tag with
        | none => .next s
        | some (r1, o1, h) =>
          let m1 := { m.takeRows h with queue := m.queue.eraseIdx k, counters := lmod m.counters 0 fun n => (n + 1) % 2 ^ 32 }
          .next (modMe (modMe s r1 o1 fun n => { n with hosted := none }) r o fun _ => m1)

end Sys2Proof.Machine
end

