-- ==== Sys2Proof/Machine/Clock.lean ====
section
/-! DEFINITION. Time passing: the device cycle counter (R289), the full-stall counts of links (R310), the operand-wait count of
engines (R253) and the hang monitor (R355). -/

namespace Sys2Proof.Machine

/-- n cycles of a link: the producer that could not emit its token has lost this cycle, and loses the later ones while the link is
full (R310). -/
def Link.elapse (n : Nat) (l : Link) : Link :=
  if l.live && l.blocked then { l with stall := l.stall + (if l.full then n else min n 1), blocked := l.full } else l

/-- A running command waits for an operand beat (R253). -/
def meWaits (rg : Region) (m : Me) : Bool :=
  m.queue.any fun e => e.started && ((e.code.1 == 1) || (e.code.1 == 3 && decide (e.line < e.code.2.nrow.toNat))) &&
    (blockHeads rg m.off (maskPort e.code.2.pmask e.beat)).isEmpty

def Me.elapse (n : Nat) (rg : Region) (m : Me) : Me :=
  if meWaits rg m then { m with counters := lmod m.counters 4 fun k => (k + n) % 2 ^ 32 } else m

/-- Some latch, slot or hard-block inbound queue of the region holds a token. -/
def Region.holdsToken (rg : Region) : Bool := rg.links.any fun l => l.live && !l.empty

/-- A commit holds a node (R325): a producer may not emit on a link, or an affected node stands still. -/
def Region.commitHolds (rg : Region) : Bool :=
  (rg.commit.isSome || rg.lvDue.isSome) && (rg.links.any (·.cheld) || rg.commitNodes.any fun x => rg.commitStops x.1 x.2)

/-- Cycles that the hang monitor does not count, and after which it restarts (R355): among them those in which an SP waits for a walk or a
page fault, be it for an element or for a hit copy. -/
def Region.hangPaused (rg : Region) : Bool :=
  rg.commitHolds || rg.cut.isSome || rg.pureInv.any (fun p => p.withheld) || rg.sps.any fun x => x.slots.any fun y => y.any fun z => z.withheld || z.walk

/-- n cycles pass in a region in which nothing fires. -/
def Region.elapse (n : Nat) (rg : Region) : Region :=
  if !rg.running then rg
  else
    { rg with
      links := if rg.reb = 0 then rg.links else rg.links.map (Link.elapse n),
      mes := rg.mes.map (Me.elapse n rg),
      hang := if rg.hangPaused then 0 else if rg.holdsToken then rg.hang + n else rg.hang }

/-- n cycles pass. -/
def elapse (n : Nat) (s : State) : State :=
  { s with cycle := s.cycle + BitVec.ofNat 64 n, regions := s.regions.map (Region.elapse n) }

end Sys2Proof.Machine
end

