-- ==== Sys2Proof/Machine/Compute.lean ====
section
/-! DEFINITION. Integer, logic and float node ops (R178 to R183), element by element under R176. -/

namespace Sys2Proof.Machine

/-- An exact result, which raises no flag. -/
def exactly (c : Nat) : Rounded := { code := c }

/-- The operands of an element-wise op, and the lanes valid in every one of them. -/
def Env.operands (e : Env) (width : Nat) (srcs : List Src) : List Operand := srcs.map fun x => e.operand x width
def joinValid (ops : List Operand) : BitVec 8 := ops.foldl (fun v o => v &&& o.valid) 0xFF

/-- Element i of every operand. -/
def elemsAt (ops : List Operand) (i : Nat) : List Nat := ops.map fun o => o.els.getD i 0

/-- The beat of an element-wise op (R176): the fields of the lowest port's beat h; a lane is valid where every operand's is, and
its elements are f of the operands' elements; POISON and SPEC spread. -/
def Env.elemBeat (e : Env) (width : Nat) (srcs : List Src) (h : Beat) (f : List Nat → Nat) : Beat :=
  let ops := e.operands width srcs
  { h with
    pay := payOfElems width ((List.range (256 / width)).map fun i =>
      if elemValid (joinValid ops) width i then f (elemsAt ops i) else 0),
    valid := joinValid ops, poison := ops.any Operand.poison, spec := (e.specOf (srcPorts e.w)).isSome,
    owner := (e.specOf (srcPorts e.w)).getD 0 }

/-- The counts of its elements (R125). -/
def Env.elemCounts (e : Env) (width : Nat) (srcs : List Src) (f : List Nat → Rounded × Bool) : Counts :=
  let ops := e.operands width srcs
  (List.range (256 / width)).foldl (fun c i =>
    if elemValid (joinValid ops) width i then let (x, n) := f (elemsAt ops i); countResult c x n else c) {}

/-- An element-wise firing (R176): f gives the result of element codes and whether an operand was NaN; the result goes out
on every enabled output. -/
def Env.elementwise (e : Env) (width : Nat) (srcs : List Src) (f : List Nat → Rounded × Bool) : Fire :=
  let ports := srcPorts e.w
  if (e.operands width srcs).any Operand.badBank then .bad e clsMalformed 0x05 7 (ports.head?.bind e.head) 0
  else
    match ports.head?.bind e.head with
    | none => .stall
    | some h =>
      let b := e.elemBeat width srcs h fun l => (f l).1.code
      e.fireBoth [b] fun e1 => (e1.consumeAll ports).count b.specOwner (e.elemCounts width srcs f)

/-- The signedness and width of an integer format; others read as their bits. -/
def intShape (f : Fmt) : Bool × Nat := (fmtSigned f, fmtWidth f)

/-- A rounding integer op (R179): exact integer result of the operand values. -/
def intOp (w : NodeWord) (s : State) (srcs : List Src) (f : (Nat → Int) → Int) : Host.Outcome State Fault Refusal :=
  statelessRun w s (srcPorts w) [] fun e =>
    let (sg, n) := intShape w.fmt
    e.elementwise n srcs fun l => (roundInt sg n true w.sat .rne (exactOfInt (f fun k => intOf sg n (l.getD k 0))), false)

/-- An op on the codes of the elements that is always in range and counts nothing. -/
def codeOp (w : NodeWord) (s : State) (srcs : List Src) (f : Bool → Nat → List Nat → Nat) :
    Host.Outcome State Fault Refusal :=
  statelessRun w s (srcPorts w) [] fun e =>
    let (sg, n) := intShape w.fmt
    e.elementwise n srcs fun l => (exactly (f sg n l % 2 ^ n), false)

def arg0 (l : List Nat) : Nat := l.getD 0 0
def arg1 (l : List Nat) : Nat := l.getD 1 0
def arg2 (l : List Nat) : Nat := l.getD 2 0

/-! ### Integer and logic (Table 9-1) -/

/-- IADD (R178). -/
def execIadd (w : NodeWord) (s : State) : Host.Outcome State Fault Refusal :=
  intOp w s [w.srcA, w.srcB] fun l => l 0 + l 1

/-- ISUB (R178). -/
def execIsub (w : NodeWord) (s : State) : Host.Outcome State Fault Refusal :=
  intOp w s [w.srcA, w.srcB] fun l => l 0 - l 1

/-- IMUL (R178). -/
def execImul (w : NodeWord) (s : State) : Host.Outcome State Fault Refusal :=
  intOp w s [w.srcA, w.srcB] fun l => l 0 * l 1

/-- IMULH (R178): the high half of the product. -/
def execImulh (w : NodeWord) (s : State) : Host.Outcome State Fault Refusal :=
  codeOp w s [w.srcA, w.srcB] fun sg n l =>
    codeOfInt n ((intOf sg n (arg0 l) * intOf sg n (arg1 l)) / ((2 ^ n : Nat) : Int))

/-- IMAD (R178): one rounding. -/
def execImad (w : NodeWord) (s : State) : Host.Outcome State Fault Refusal :=
  intOp w s [w.srcA, w.srcB, w.srcC] fun l => l 0 * l 1 + l 2

/-- INEG (R178). -/
def execIneg (w : NodeWord) (s : State) : Host.Outcome State Fault Refusal :=
  intOp w s [w.srcA] fun l => -(l 0)

/-- IABS (R178). -/
def execIabs (w : NodeWord) (s : State) : Host.Outcome State Fault Refusal :=
  intOp w s [w.srcA] fun l => (l 0).natAbs

/-- IMIN (R178). -/
def execImin (w : NodeWord) (s : State) : Host.Outcome State Fault Refusal :=
  codeOp w s [w.srcA, w.srcB] fun sg n l => intPick sg n true (arg0 l) (arg1 l)

/-- IMAX (R178). -/
def execImax (w : NodeWord) (s : State) : Host.Outcome State Fault Refusal :=
  codeOp w s [w.srcA, w.srcB] fun sg n l => intPick sg n false (arg0 l) (arg1 l)

/-- All ones of a width where a condition holds (R180). -/
def maskOf (n : Nat) (b : Bool) : Nat := if b then 2 ^ n - 1 else 0

/-- ICMP (R180). -/
def execIcmp (w : NodeWord) (s : State) : Host.Outcome State Fault Refusal :=
  codeOp w s [w.srcA, w.srcB] fun sg n l =>
    maskOf n (condHolds (bitsOf w.aux.toNat 0 3) (some (compare (intOf sg n (arg0 l)) (intOf sg n (arg1 l)))))

/-- AND (R178). -/
def execAnd (w : NodeWord) (s : State) : Host.Outcome State Fault Refusal :=
  codeOp w s [w.srcA, w.srcB] fun _ _ l => arg0 l &&& arg1 l

/-- OR (R178). -/
def execOr (w : NodeWord) (s : State) : Host.Outcome State Fault Refusal :=
  codeOp w s [w.srcA, w.srcB] fun _ _ l => arg0 l ||| arg1 l

/-- XOR (R178). -/
def execXor (w : NodeWord) (s : State) : Host.Outcome State Fault Refusal :=
  codeOp w s [w.srcA, w.srcB] fun _ _ l => arg0 l ^^^ arg1 l

/-- ANDN (R178). -/
def execAndn (w : NodeWord) (s : State) : Host.Outcome State Fault Refusal :=
  codeOp w s [w.srcA, w.srcB] fun _ n l => arg0 l &&& (2 ^ n - 1 - arg1 l)

/-- NOT (R178). -/
def execNot (w : NodeWord) (s : State) : Host.Outcome State Fault Refusal :=
  codeOp w s [w.srcA] fun _ n l => 2 ^ n - 1 - arg0 l

/-- The shift count: the low 8 bits of the element, unsigned (R178). -/
def shiftCount (c : Nat) : Nat := c % 256

/-- SHL (R178): a times 2^n under R179. -/
def execShl (w : NodeWord) (s : State) : Host.Outcome State Fault Refusal :=
  statelessRun w s (srcPorts w) [] fun e =>
    let (sg, n) := intShape w.fmt
    e.elementwise n [w.srcA, w.srcB] fun l =>
      (roundInt sg n true w.sat .rne (exactOfInt (intOf sg n (arg0 l) * (2 ^ shiftCount (arg1 l) : Nat))), false)

/-- SHR (R178). -/
def execShr (w : NodeWord) (s : State) : Host.Outcome State Fault Refusal :=
  codeOp w s [w.srcA, w.srcB] fun _ _ l => arg0 l / 2 ^ shiftCount (arg1 l)

/-- SAR (R178): the bits read as signed, whatever the format. -/
def execSar (w : NodeWord) (s : State) : Host.Outcome State Fault Refusal :=
  codeOp w s [w.srcA, w.srcB] fun _ n l =>
    codeOfInt n (signedOf n (arg0 l) / ((2 ^ min (shiftCount (arg1 l)) (n - 1) : Nat) : Int))

/-- ROTL (R178). -/
def execRotl (w : NodeWord) (s : State) : Host.Outcome State Fault Refusal :=
  codeOp w s [w.srcA, w.srcB] fun _ n l =>
    let k := shiftCount (arg1 l) % n
    arg0 l * 2 ^ k % 2 ^ n + arg0 l / 2 ^ (n - k)

/-- CLZ (R178). -/
def execClz (w : NodeWord) (s : State) : Host.Outcome State Fault Refusal :=
  codeOp w s [w.srcA] fun _ n l => if arg0 l = 0 then n else n - 1 - Nat.log2 (arg0 l)

/-- One bits of a w-bit number. -/
def popCount (n c : Nat) : Nat := ((List.range n).filter fun i => c.testBit i).length

/-- POPC (R178). -/
def execPopc (w : NodeWord) (s : State) : Host.Outcome State Fault Refusal :=
  codeOp w s [w.srcA] fun _ n l => popCount n (arg0 l)

/-- SEL (R178): RAW elements take the width of the other side of the first port's link (R119). -/
def execSel (w : NodeWord) (s : State) : Host.Outcome State Fault Refusal :=
  statelessRun w s (srcPorts w) [] fun e =>
    e.elementwise (e.width w.fmt ((srcPorts w).headD 0)) [w.srcA, w.srcB, w.srcC] fun l =>
      (exactly (if arg0 l ≠ 0 then arg1 l else arg2 l), false)

/-! ### Float (Table 9-2) -/

/-- The float format of FMT. -/
def fltShape (f : Fmt) : FloatFmt :=
  match fmtElem f with
  | .flt x => x
  | .int _ _ => fp32

/-- A rounding float op (R182): the exact result of the operand values, rounded once. -/
def fltOp (w : NodeWord) (s : State) (srcs : List Src) (f : (Nat → Exact) → Exact) :
    Host.Outcome State Fault Refusal :=
  statelessRun w s (srcPorts w) [] fun e =>
    let ff := fltShape w.fmt
    e.elementwise ff.width srcs fun l =>
      (roundFlt ff w.sat w.rnd (f fun k => fltOf ff (l.getD k 0)), l.any fun c => exactIsNan (fltOf ff c))

/-- A float op on codes that is exact and counts nothing (R183). -/
def fltCodeOp (w : NodeWord) (s : State) (srcs : List Src) (f : FloatFmt → List Nat → Nat) :
    Host.Outcome State Fault Refusal :=
  statelessRun w s (srcPorts w) [] fun e =>
    let ff := fltShape w.fmt
    e.elementwise ff.width srcs fun l => (exactly (f ff l % 2 ^ ff.width), false)


/-- FADD (R182). -/
def execFadd (w : NodeWord) (s : State) : Host.Outcome State Fault Refusal :=
  fltOp w s [w.srcA, w.srcB] fun x => exactAdd w.rnd (x 0) (x 1)

/-- FSUB (R182). -/
def execFsub (w : NodeWord) (s : State) : Host.Outcome State Fault Refusal :=
  fltOp w s [w.srcA, w.srcB] fun x => exactAdd w.rnd (x 0) (exactNeg (x 1))

/-- FMUL (R182). -/
def execFmul (w : NodeWord) (s : State) : Host.Outcome State Fault Refusal :=
  fltOp w s [w.srcA, w.srcB] fun x => exactMul (x 0) (x 1)

/-- FFMA (R182): rounded once. -/
def execFfma (w : NodeWord) (s : State) : Host.Outcome State Fault Refusal :=
  fltOp w s [w.srcA, w.srcB, w.srcC] fun x => exactAdd w.rnd (exactMul (x 0) (x 1)) (x 2)

/-- FNEG (R183). -/
def execFneg (w : NodeWord) (s : State) : Host.Outcome State Fault Refusal :=
  fltCodeOp w s [w.srcA] fun f l =>
    if fltIsNan f (arg0 l) then f.canon else fltCode f (!fltNeg f (arg0 l)) (fltMag f (arg0 l))

/-- FABS (R183). -/
def execFabs (w : NodeWord) (s : State) : Host.Outcome State Fault Refusal :=
  fltCodeOp w s [w.srcA] fun f l => if fltIsNan f (arg0 l) then f.canon else fltMag f (arg0 l)

/-- FMIN (R183). -/
def execFmin (w : NodeWord) (s : State) : Host.Outcome State Fault Refusal :=
  fltCodeOp w s [w.srcA, w.srcB] fun f l => fltPick f true (arg0 l) (arg1 l)

/-- FMAX (R183). -/
def execFmax (w : NodeWord) (s : State) : Host.Outcome State Fault Refusal :=
  fltCodeOp w s [w.srcA, w.srcB] fun f l => fltPick f false (arg0 l) (arg1 l)

/-- FCMP (R180). -/
def execFcmp (w : NodeWord) (s : State) : Host.Outcome State Fault Refusal :=
  fltCodeOp w s [w.srcA, w.srcB] fun f l =>
    maskOf f.width (condHolds (bitsOf w.aux.toNat 0 3) (fltCmp f (arg0 l) (arg1 l)))

/-- FRCP (R182). -/
def execFrcp (w : NodeWord) (s : State) : Host.Outcome State Fault Refusal :=
  fltOp w s [w.srcA] fun x => exactRecip (x 0)

/-- FRSQ (R182). -/
def execFrsq (w : NodeWord) (s : State) : Host.Outcome State Fault Refusal :=
  fltOp w s [w.srcA] fun x => exactRsqrt (x 0)

/-- FSQRT (R182). -/
def execFsqrt (w : NodeWord) (s : State) : Host.Outcome State Fault Refusal :=
  fltOp w s [w.srcA] fun x => exactSqrt (x 0)

/-- FEXP2 (R182). -/
def execFexp2 (w : NodeWord) (s : State) : Host.Outcome State Fault Refusal :=
  fltOp w s [w.srcA] fun x => exactExp2 (x 0)

/-- FLOG2 (R182). -/
def execFlog2 (w : NodeWord) (s : State) : Host.Outcome State Fault Refusal :=
  fltOp w s [w.srcA] fun x => exactLog2 (x 0)

/-- A signed scale held within bounds beyond which every format overflows or vanishes. -/
def scaleBound (k : Int) : Int := if k < -4096 then -4096 else if 4096 < k then 4096 else k

/-- FSCALE (R182): k is b's element bits read as signed; a b of NaN bits is an integer like any other. -/
def execFscale (w : NodeWord) (s : State) : Host.Outcome State Fault Refusal :=
  statelessRun w s (srcPorts w) [] fun e =>
    let ff := fltShape w.fmt
    e.elementwise ff.width [w.srcA, w.srcB] fun l =>
      let a := fltOf ff (arg0 l)
      (roundFlt ff w.sat w.rnd (exactScale a (scaleBound (signedOf ff.width (arg1 l)))), exactIsNan a)

end Sys2Proof.Machine
end

