-- ==== Sys2Proof/Machine/Lanes.lean ====
section
/-! DEFINITION. Conversion, lane, reduction and accumulation node ops (R184 to R191), and the conversion of beats that
typed links share (R94). -/

namespace Sys2Proof.Machine

/-! ### Conversion of beats (R94, R185) -/

/-- The elements of a beat, absent in clear lanes. -/
def beatElems (w : Nat) (b : Beat) : List (Option Nat) :=
  (List.range (256 / w)).map fun i => if elemValid b.valid w i then some (payElem b.pay w i) else none

/-- A beat of width w from optional elements; its other fields are those of `like`, POISON apart. -/
def beatOfElems (w : Nat) (els : List (Option Nat)) (like : Beat) (poison : Bool) : Beat :=
  { like with pay := payOfElems w (els.map fun o => o.getD 0), valid := laneMask w (els.map Option.isSome),
              poison := poison }

/-- Cut a list into k pieces of n. -/
def chunks {α : Type} (n : Nat) : Nat → List α → List (List α)
  | 0, _ => []
  | k + 1, l => l.take n :: chunks n k (l.drop n)

/-- The conversion of consecutive source beats from one format to another, scaled by 2^k: one or fewer destination beats
when narrowing, several when widening; with the counts. -/
def convertBeats (src dst : Fmt) (rnd : Rnd) (sat : Bool) (k : Int) (bs : List Beat) : List Beat × Counts :=
  let ws := fmtWidth src
  let wd := fmtWidth dst
  let els := (bs.map (beatElems ws)).flatten
  let res := els.map fun o => o.map fun c =>
    let x := elemOf (fmtElem src) c
    (roundTo (fmtElem dst) (fmtIsInt src) sat rnd (exactScale x k), exactIsNan x)
  let counts := res.foldl (fun c r => match r with | some (x, n) => countResult c x n | none => c) {}
  let codes := res.map fun r => r.map fun x => x.1.code
  let poison := bs.any Beat.poison
  match bs with
  | [] => ([], counts)
  | b :: _ =>
    let nd := 256 / wd
    let m := (codes.length + nd - 1) / nd
    ((chunks nd m codes).map fun l => beatOfElems wd l b poison, counts)

/-- The signed 12-bit K of CVT (R185). -/
def cvtK (w : NodeWord) : Int := signedOf 12 (w.imm.toNat % 4096)

/-- FMT2 (R172). -/
def fmt2 (w : NodeWord) : Fmt := Fmt.ofCode (BitVec.ofNat 4 (w.aux.toNat % 16))

/-- The first port that SRCA names. -/
def portA (w : NodeWord) : Nat := (srcPort w.srcA).headD 0
/-- The port that SRCB names. -/
def portB (w : NodeWord) : Nat := (srcPort w.srcB).headD 1
/-- The port that SRCC names. -/
def portC (w : NodeWord) : Nat := (srcPort w.srcC).headD 2

/-- CVT (R185). -/
def execCvt (w : NodeWord) (s : State) : Host.Outcome State Fault Refusal :=
  let f2 := fmt2 w
  let r := fmtCount w.fmt / fmtCount f2
  let conv := convertBeats f2 w.fmt w.rnd w.sat (cvtK w)
  if 1 < r then
    -- narrowing: stateful
    statefulRun w s [portA w] fun e =>
      match e.head (portA w) with
      | none => .stall
      | some b =>
        if b.isData then
          if !e.lackRates.isEmpty then .full e.lackRates
          else
            let held := e.cs.op.held ++ [b]
            if held.length < r then
              .ok ((e.consume (portA w)).fired.setOp fun o => { o with held := held })
            else
              let (out, c) := conv held
              e.fireBoth out fun e1 =>
                ((e1.consume (portA w)).fired.setOp fun o => { o with held := [] }).count none c
        else
          let (out, c) := conv e.cs.op.held
          e.flushTokens [portA w] out fun e1 => (e1.setOp fun o => { o with held := [] }).count none c
  else
    statelessRun w s [portA w] [] fun e =>
      match e.head (portA w) with
      | none => .stall
      | some b =>
        let (out, c) := conv [b]
        e.fireBoth out fun e1 => (e1.consume (portA w)).count b.specOwner c

/-! ### Quad-scaled groups (R127 to R130, R186, R187) -/

/-- The exponent of the largest element magnitude (R129). -/
def quadEmax : Fmt → Int
  | .e4m3q => 8
  | _ => 2

/-- Data beats of a group. -/
def quadBeats : Fmt → Nat
  | .e4m3q => 4
  | _ => 2

/-- Floor of log2 of a nonzero magnitude. -/
def exactLead : Exact → Int
  | .num _ m e _ => (Nat.log2 m : Int) + e
  | _ => 0

/-- The greater magnitude of two finite exact values. -/
def exactMaxMag (x y : Exact) : Exact :=
  match x, y with
  | .num _ m e s, .num _ n f t =>
    let g : Int := if e < f then e else f
    if m * 2 ^ (e - g).toNat < n * 2 ^ (f - g).toNat then .num false n f t else .num false m e s
  | a, _ => a

/-- QScale of four exact values (R129). -/
def quadScale (efmt : Fmt) (q : List Exact) : Nat :=
  if q.any fun x => exactIsNan x || exactIsInf x then 0xFF
  else
    let mx := q.foldl exactMaxMag (.num false 0 0 false)
    if exactIsZero mx then 0x7F
    else
      let t := exactLead mx - quadEmax efmt
      ((if t < -127 then -127 else if 127 < t then 127 else t) + 127).toNat

/-- The scale and the elements of one quad, with the counts (R129, R186); absent elements are +0 and zero codes. -/
def quadPack (efmt src : Fmt) (rnd : Rnd) (q : List (Option Nat)) : Nat × List Nat × Counts :=
  let xs := q.map fun o => match o with | some c => elemOf (fmtElem src) c | none => .num false 0 0 false
  let sc := quadScale efmt xs
  if sc = 0xFF then
    (sc, q.map fun _ => 0, xs.foldl (fun c x => if exactIsInf x then { c with satc := bump c.satc true } else c) {})
  else
    let rs := xs.map fun x => roundTo (fmtElem efmt) false true rnd (exactScale x (127 - (sc : Int)))
    (sc, (rs.zip q).map fun p => if p.2.isSome then p.1.code else 0,
      (rs.zip q).foldl (fun c p => if p.2.isSome then countResult c p.1 false else c) {})

/-- The beats of a group from its collected source beats (R186), and the counts. -/
def quadGroup (efmt src : Fmt) (rnd : Rnd) (bs : List Beat) : List Beat × Counts :=
  match bs with
  | [] => ([], {})
  | b0 :: _ =>
    let els := (bs.map (beatElems (fmtWidth src))).flatten
    let padded := els ++ List.replicate (128 - els.length) none
    let quads := (chunks 4 32 padded).map (quadPack efmt src rnd)
    let poison := bs.any Beat.poison
    let w := fmtWidth efmt
    let n := 256 / w
    let codes := (quads.map fun q => q.2.1).flatten
    let scale : Beat := { b0 with pay := payOfElems 8 (quads.map fun q => q.1), valid := 0xFF, poison := poison }
    let data := (List.range (quadBeats efmt)).map fun k =>
      let like := bs.getD (k * n / fmtCount src) b0
      let vs := (padded.drop (k * n)).take n |>.map Option.isSome
      { like with pay := payOfElems w ((codes.drop (k * n)).take n), valid := laneMask w vs, poison := poison : Beat }
    (scale :: data, quads.foldl (fun c q => countAdd c q.2.2) {})

/-- QPACK (R186). -/
def execQpack (w : NodeWord) (s : State) : Host.Outcome State Fault Refusal :=
  statefulRun w s [portA w] fun e =>
    match e.head (portA w) with
    | none => .stall
    | some b =>
      if b.isData then
        if !e.lackRates.isEmpty then .full e.lackRates
        else
          let held := e.cs.op.held ++ [b]
          if held.length < 128 / fmtCount (fmt2 w) then
            .ok ((e.consume (portA w)).fired.setOp fun o => { o with held := held })
          else
            let (out, c) := quadGroup w.fmt (fmt2 w) w.rnd held
            e.fireBoth out fun e1 => ((e1.consume (portA w)).fired.setOp fun o => { o with held := [] }).count none c
      else
        let (out, c) := quadGroup w.fmt (fmt2 w) w.rnd e.cs.op.held
        e.flushTokens [portA w] out fun e1 => (e1.setOp fun o => { o with held := [] }).count none c

/-- The exact value of an element of a quad-scaled format under its scale (R128). -/
def quadElem (efmt : Fmt) (sc c : Nat) : Exact :=
  if sc = 0xFF then .nan else exactScale (elemOf (fmtElem efmt) c) ((sc : Int) - 127)

/-- QUNPK (R187). -/
def execQunpk (w : NodeWord) (s : State) : Host.Outcome State Fault Refusal :=
  let f2 := fmt2 w
  statefulRun w s [portA w] fun e =>
    match e.head (portA w) with
    | none => .stall
    | some b =>
      if b.isData then
        if !e.lackRates.isEmpty then .full e.lackRates
        else
          match e.cs.op.held with
          | [] =>
            if b.valid = 0xFF then
              .ok ((e.consume (portA w)).fired.setOp fun o => { o with held := [b], cnt := 0 })
            else .bad e clsMalformed 0x08 (portA w) (some b) 0
          | scale :: _ =>
            let k := e.cs.op.cnt
            let n := fmtCount f2
            let els := (beatElems (fmtWidth f2) b).zip (List.range n)
            let res := els.map fun (o, i) => o.map fun c =>
              let x := quadElem f2 (payElem scale.pay 8 ((k * n + i) / 4)) c
              (roundTo (fmtElem w.fmt) false w.sat w.rnd x, exactIsNan x)
            let counts := res.foldl (fun c r => match r with | some (x, m) => countResult c x m | none => c) {}
            let wd := fmtWidth w.fmt
            let nd := fmtCount w.fmt
            let out := (chunks nd (n / nd) (res.map fun r => r.map fun x => x.1.code)).map fun l =>
              beatOfElems wd l b (b.poison || scale.poison)
            let done := decide (quadBeats f2 ≤ k + 1)
            e.fireBoth out fun e1 =>
              ((e1.consume (portA w)).fired.setOp fun o =>
                { o with held := if done then [] else o.held, cnt := if done then 0 else k + 1 }).count none counts
      else if e.cs.op.held.isEmpty then e.defaultTokens [portA w]
      else .bad e clsMalformed 0x08 (portA w) (some b) 0

/-! ### Lane ops (R188) -/

/-- An operand's elements with their validity. -/
def operandElems (w : Nat) (o : Operand) : List (Option Nat) :=
  (List.range (256 / w)).map fun i => if elemValid o.valid w i then some (o.els.getD i 0) else none

/-- A lane op: from the optional elements of its operands to those of its X and Y beats; RAW elements take the width of the other side of
the first port's link (R119). -/
def laneOp (w : NodeWord) (s : State) (srcs : List Src)
    (f : Nat → Nat → List (List (Option Nat)) → List (Option Nat) × List (Option Nat)) :
    Host.Outcome State Fault Refusal :=
  statelessRun w s (srcPorts w) [] fun e =>
    let ports := srcPorts w
    let wd := e.width w.fmt (ports.headD 0)
    let ops := srcs.map fun x => e.operand x wd
    if ops.any Operand.badBank then .bad e clsMalformed 0x05 7 (ports.head?.bind e.head) 0
    else
      match ports.head?.bind e.head with
      | none => .stall
      | some h =>
        let poison := ops.any Operand.poison
        let like := { h with spec := (e.specOf ports).isSome, owner := (e.specOf ports).getD 0 }
        let (xs, ys) := f wd (256 / wd) (ops.map (operandElems wd))
        e.fireXY [beatOfElems wd xs like poison] [beatOfElems wd ys like poison] fun e1 => e1.consumeAll ports

def lane0 (l : List (List (Option Nat))) : List (Option Nat) := l.getD 0 []
def lane1 (l : List (List (Option Nat))) : List (Option Nat) := l.getD 1 []
def elAt (l : List (Option Nat)) (i : Nat) : Option Nat := l.getD i none

/-- The same list on X and Y. -/
def both (l : List (Option Nat)) : List (Option Nat) × List (Option Nat) := (l, l)

/-- BCAST (R188): j = IMM[5:0]. -/
def execBcast (w : NodeWord) (s : State) : Host.Outcome State Fault Refusal :=
  laneOp w s [w.srcA] fun _ n l => both ((List.range n).map fun _ => elAt (lane0 l) (bitsOf w.imm.toNat 0 6))

/-- SHUF (R188). -/
def execShuf (w : NodeWord) (s : State) : Host.Outcome State Fault Refusal :=
  laneOp w s [w.srcA, w.srcB] fun _ n l => both ((List.range n).map fun i =>
    match elAt (lane1 l) i with
    | some j => elAt (lane0 l) (j % n)
    | none => none)

/-- SLIDE (R188): k = IMM[5:0]. -/
def execSlide (w : NodeWord) (s : State) : Host.Outcome State Fault Refusal :=
  laneOp w s [w.srcA, w.srcB] fun _ n l => both ((List.range n).map fun i =>
    let j := i + bitsOf w.imm.toNat 0 6
    if j < n then elAt (lane0 l) j else elAt (lane1 l) (j - n))

/-- PACK (R188). -/
def execPack (w : NodeWord) (s : State) : Host.Outcome State Fault Refusal :=
  laneOp w s [w.srcA, w.srcB] fun _ n l =>
    ((List.range n).map fun i => elAt (if i % 2 = 0 then lane0 l else lane1 l) (i / 2),
     (List.range n).map fun i => elAt (if i % 2 = 0 then lane0 l else lane1 l) (n / 2 + i / 2))

/-- UNPACK (R188). -/
def execUnpack (w : NodeWord) (s : State) : Host.Outcome State Fault Refusal :=
  laneOp w s [w.srcA, w.srcB] fun _ n l =>
    ((List.range n).map fun i => if i < n / 2 then elAt (lane0 l) (2 * i) else elAt (lane1 l) (2 * (i - n / 2)),
     (List.range n).map fun i => if i < n / 2 then elAt (lane0 l) (2 * i + 1) else elAt (lane1 l) (2 * (i - n / 2) + 1))

/-- LANEID (R188): a only triggers. -/
def execLaneid (w : NodeWord) (s : State) : Host.Outcome State Fault Refusal :=
  laneOp w s [w.srcA] fun wd n l => both ((List.range n).map fun i =>
    (elAt (lane0 l) i).map fun _ => (w.imm.toNat + i) % 2 ^ wd)

/-! ### Reductions (R189) -/

/-- The sum of element codes, rounded once; whether an operand was NaN. -/
def sumOnce (w : NodeWord) (cs : List Nat) : Rounded × Bool :=
  let xs := cs.map (elemOf (fmtElem w.fmt))
  let sum := match xs with
    | [] => .num false 0 0 false
    | x :: t => t.foldl (exactAdd w.rnd) x
  (roundTo (fmtElem w.fmt) (fmtIsInt w.fmt) w.sat w.rnd sum, xs.any exactIsNan)

/-- A reduction of the valid elements of one beat into lane 0. -/
def reduceOp (w : NodeWord) (s : State) (f : List Nat → Rounded × Bool) : Host.Outcome State Fault Refusal :=
  statelessRun w s [portA w] [] fun e =>
    match e.head (portA w) with
    | none => .stall
    | some h =>
      let wd := fmtWidth w.fmt
      let els := (beatElems wd h).filterMap id
      if els.isEmpty then
        e.fireBoth [{ h with pay := 0, valid := 0 }] fun e1 => e1.consume (portA w)
      else
        let (r, nanIn) := f els
        e.fireBoth [{ h with pay := payOfElems wd [r.code], valid := 1 }] fun e1 =>
          (e1.consume (portA w)).count h.specOwner (countResult {} r nanIn)

/-- HSUM (R189). -/
def execHsum (w : NodeWord) (s : State) : Host.Outcome State Fault Refusal := reduceOp w s (sumOnce w)

/-- HMAX (R189); the first element is taken against itself, so that a NaN alone gives the canonical one (R122). -/
def execHmax (w : NodeWord) (s : State) : Host.Outcome State Fault Refusal :=
  reduceOp w s fun l => (exactly (l.foldl (elemPick (fmtElem w.fmt) false) (l.headD 0)), true)

/-- HMIN (R189). -/
def execHmin (w : NodeWord) (s : State) : Host.Outcome State Fault Refusal :=
  reduceOp w s fun l => (exactly (l.foldl (elemPick (fmtElem w.fmt) true) (l.headD 0)), true)

/-! ### Accumulation (R190) -/

/-- One addition of a running value, rounded (R190, R240): result and counts. -/
def addOnce (w : NodeWord) (a b : Nat) : Rounded × Bool :=
  let x := elemOf (fmtElem w.fmt) a
  let y := elemOf (fmtElem w.fmt) b
  (roundTo (fmtElem w.fmt) (fmtIsInt w.fmt) w.sat w.rnd (exactAdd w.rnd x y), exactIsNan x || exactIsNan y)

/-- Fold one beat's optional elements into the running values. -/
def accStep (f : Nat → Nat → Rounded × Bool) : List (Option Nat) → List (Option Nat) → List (Option Nat) × Counts
  | [], ds => (ds, {})
  | acc, [] => (acc, {})
  | a :: as, d :: ds =>
    let (t, c) := accStep f as ds
    match a, d with
    | none, x => (x :: t, c)
    | some x, none => (some x :: t, c)
    | some x, some y =>
      let (r, n) := f x y
      (some r.code :: t, countResult c r n)

/-- The closing beat of an accumulation: its values, VALID, POISON; TAG 0 (R321). -/
def accBeat (w : Nat) (acc : List (Option Nat)) (pois : Bool) (round : BitVec 3) : Beat :=
  { beatOfElems w acc (dataBeat 0 0 0 0) pois with round := round }

/-- The shared rule of ACC, ACCMAX and COUNT: `step` folds a DATA beat into the operation state and gives counts; `out` is
the closing beat. -/
def accRun (w : NodeWord) (s : State) (step : Env → Beat → OpState × Counts) (out : OpState → BitVec 3 → Beat) :
    Host.Outcome State Fault Refusal :=
  let a := portA w
  let lv := bitsOf w.aux.toNat 0 3
  let clear (e : Env) : Env := e.setOp fun o => { o with acc := [], cnt := 0, pois := false, any := false }
  statefulRun w s [a] fun e =>
    match e.head a with
    | none => .stall
    | some b =>
      if b.isData then
        if !e.lackRates.isEmpty then .full e.lackRates
        else
        let (o, c) := step e b
        .ok (((e.consume a).fired.setOp fun _ => { o with any := true, pois := o.pois || b.poison }).count none c)
      else if b.isStop then
        let j := b.level.toNat
        if j < lv then .ok ((e.consume a).statAt b)
        else
          let r := out e.cs.op b.round
          let bs := if lv < j then [r, stopBeat (j - lv - 1) b.round] else [r]
          match e.fireBoth bs fun e1 => clear ((e1.consume a).statAt b) with
          | .ok e1 => .ok ({ e1 with cs := { e1.cs with lregs := e.cs.lregs, lpois := e.cs.lpois } }.writeLocal [r])
          | f => f
      else if b.isEoi then
        let owed := if e.cs.op.any then [out e.cs.op b.round] else []
        e.flushTokens [a] owed clear
      else e.defaultTokens [a]

/-- ACC (R190). -/
def execAcc (w : NodeWord) (s : State) : Host.Outcome State Fault Refusal :=
  let wd := fmtWidth w.fmt
  accRun w s
    (fun e b =>
      let (acc, c) := accStep (addOnce w) e.cs.op.acc (beatElems wd b)
      ({ e.cs.op with acc := acc }, c))
    fun o rd => accBeat wd (if o.acc.isEmpty then List.replicate (256 / wd) none else o.acc) o.pois rd

/-- ACCMAX (R190). -/
def execAccmax (w : NodeWord) (s : State) : Host.Outcome State Fault Refusal :=
  let wd := fmtWidth w.fmt
  accRun w s
    (fun e b =>
      let (acc, _) := accStep (fun x y => (exactly (elemPick (fmtElem w.fmt) false x y), true)) e.cs.op.acc (beatElems wd b)
      ({ e.cs.op with acc := acc }, {}))
    fun o rd => accBeat wd (if o.acc.isEmpty then List.replicate (256 / wd) none else o.acc) o.pois rd

/-- Elements in the valid lanes of a beat at a port's format (R190). -/
def validElements (f : Fmt) (valid : BitVec 8) : Nat :=
  let per := match f with | .raw | .crd | .osd => 1 | g => 32 / fmtWidth g
  per * popCount 8 valid.toNat

/-- COUNT (R190). -/
def execCount (w : NodeWord) (s : State) : Host.Outcome State Fault Refusal :=
  accRun w s
    (fun e b =>
      let f := ((e.linkIn (portA w)).map (·.fmtD)).getD .raw
      let (sg, n) := intShape w.fmt
      let r := roundInt sg n true w.sat .rne (exactOfInt (intOf sg n e.cs.op.cnt + validElements f b.valid))
      ({ e.cs.op with cnt := r.code }, countResult {} r false))
    fun o rd => accBeat 32 [some o.cnt] o.pois rd

/-- Prefix sums over optional elements (R191). -/
def scanStep (f : Nat → Nat → Rounded × Bool) : Option Nat → List (Option Nat) → List (Option Nat) × Option Nat × Counts
  | carry, [] => ([], carry, {})
  | carry, none :: t =>
    let (l, c, k) := scanStep f carry t
    (none :: l, c, k)
  | carry, some d :: t =>
    match carry with
    | none =>
      let (l, c, k) := scanStep f (some d) t
      (some d :: l, c, k)
    | some x =>
      let (r, n) := f x d
      let (l, c, k) := scanStep f (some r.code) t
      (some r.code :: l, c, countResult k r n)

/-- PSCAN (R191). -/
def execPscan (w : NodeWord) (s : State) : Host.Outcome State Fault Refusal :=
  let a := portA w
  let wd := fmtWidth w.fmt
  statefulRun w s [a] fun e =>
    match e.head a with
    | none => .stall
    | some b =>
      if b.isData then
        if !e.lackRates.isEmpty then .full e.lackRates
        else
          let (l, carry, c) := scanStep (addOnce w) (e.cs.op.acc.headD none) (beatElems wd b)
          e.fireBoth [{ b with pay := payOfElems wd (l.map fun o => o.getD 0) }] fun e1 =>
            ((e1.consume a).fired.setOp fun o => { o with acc := [carry] }).count none c
      else
        let drop := (b.isStop && decide (bitsOf w.aux.toNat 0 3 ≤ b.level.toNat)) || b.isEoi
        e.flushTokens [a] [] fun e1 => if drop then e1.setOp fun o => { o with acc := [] } else e1

end Sys2Proof.Machine
end

