-- ==== Sys2Proof/Machine/Flow.lean ====
section
/-! DEFINITION. Flow and control-token node ops (R196 to R212). -/

namespace Sys2Proof.Machine

/-- A moved beat that a control value steers: poison spreads (R197). -/
def steered (b ctl : Beat) : Beat := { b with poison := b.poison || ctl.poison }

/-- Immediate of the node word as a number. -/
def immNat (w : NodeWord) : Nat := w.imm.toNat

/-! ### STEER and its speculation (R199, R200) -/

/-- Emit one list on an arm. -/
def Env.onArm (e : Env) (arm : Nat) (bs : List Beat) (k : Env → Env) : Fire :=
  if arm = 0 then e.fireXY bs [] k else e.fireXY [] bs k

/-- A beat at port b ends the wait for an empty one (R200). -/
def Env.awake (e : Env) (b : Nat) : Env := if (e.head b).isSome then e.setOp fun o => { o with phase := false } else e

/-- The number of the next speculation, 1 to 255 in turn: at most eight are open. -/
def specNo (o : OpState) : Nat := o.cnt + 1

/-- The arm that a predicate selects. -/
def armOf (b : Beat) : Nat := if b.ctl ≠ 0 then 0 else 1

/-- STEER (R199, R200). The wait of P cycles is measured from the attempt that first finds b empty, whatever a holds, and lasts until b
has a beat (log 4). op.held is W; each
copy and the SPR that resolves it carry one number, so that an SPR settles only what it owes (log 125). -/
def execSteer (w : NodeWord) (s : State) : Host.Outcome State Fault Refusal :=
  let a := portA w
  let b := portB w
  let pred := bitsOf w.aux.toNat 0 1
  let p := bitsOf (immNat w) 0 16
  nodeRun w s fun e => (e.awake b).attempt [a, b] [b] false fun e =>
    let win := e.cs.op.held
    match win, e.head b with
    | h :: t, some c =>
      if c.isData then
        if armOf c = pred then
          e.onArm pred [sprBeat true e.cs.op.round h.owner] fun e1 => (e1.consume b).fired.setOp fun o => { o with held := t }
        else
          let spr := sprBeat false e.cs.op.round h.owner
          let x := { steered h c with owner := 0 }
          if pred = 0 then
            e.fireXY [spr] [x] fun e1 => (e1.consume b).fired.setOp fun o => { o with held := t }
          else
            e.fireXY [x] [spr] fun e1 => (e1.consume b).fired.setOp fun o => { o with held := t }
      else .stall
    | _, bh =>
      match e.head a, bh with
      | some d, some c =>
        if win.isEmpty && d.isData && c.isData then
          if !e.lackRates.isEmpty then .full e.lackRates
          else e.onArm (armOf c) [steered d c] fun e1 => (e1.consumeAll [a, b]).fired
        else .stall
      | none, some _ => .stall
      | ah, none =>
        if e.rg.specMode && decide (p ≠ 0) then
          if !e.cs.op.phase then .quiet (e.setOp fun o => { o with phase := true, pos := s.cycle.toNat }) false
          else
            match ah with
            | none => .stall
            | some d =>
              if d.isData && !d.spec && decide (win.length < 8) && decide (e.cs.op.pos + p ≤ s.cycle.toNat) then
                if !(e.room pred [d]) then .full [pred]
                else e.pureEvent 0x05 fun e =>
                  let n := specNo e.cs.op
                  e.onArm pred [{ d with spec := true, owner := n }] fun e1 =>
                    (e1.consume a).fired.setOp fun o => { o with held := o.held ++ [{ d with owner := n }], cnt := n % 255 }
              else .stall
        else .stall

/-- FORK (R199). -/
def execFork (w : NodeWord) (s : State) : Host.Outcome State Fault Refusal :=
  let a := portA w
  statelessRun w s [a] [] fun e =>
    match e.head a with
    | none => .stall
    | some d => e.fireBoth [d] fun e1 => e1.consume a

/-- GATE (R199). -/
def execGate (w : NodeWord) (s : State) : Host.Outcome State Fault Refusal :=
  let a := portA w
  let b := portB w
  statelessRun w s [a, b] [b] fun e =>
    match e.head a, e.head b with
    | some d, some c => e.fireBoth (if c.ctl ≠ 0 then [steered d c] else []) fun e1 => e1.consumeAll [a, b]
    | _, _ => .stall

/-- DROP (R199). -/
def execDrop (w : NodeWord) (s : State) : Host.Outcome State Fault Refusal :=
  let a := portA w
  nodeRun w s fun e => e.attempt [a] [] false fun e =>
    match e.head a with
    | none => .stall
    | some d =>
      if d.isData then
        let out := if d.valid = 0 then [] else [d]
        e.fireData out out fun e1 => (e1.consume a).fired
      else e.defaultTokens [a]

/-- SINK (R199): consumes every token. -/
def execSink (w : NodeWord) (s : State) : Host.Outcome State Fault Refusal :=
  let a := portA w
  nodeRun w s fun e => e.attempt [a] [] false fun e =>
    match e.head a with
    | none => .stall
    | some d => .ok ((if d.isData then (e.consume a).fired else (e.consume a).statAt d).noteRound d)

/-! ### Merges (R201) -/

/-- The data ports of a merge: AUX[3:0]. -/
def mergePorts (w : NodeWord) : List Nat := maskPorts (w.aux.toNat % 16)

/-- The ports in round-robin order after the one taken last. -/
def afterPort (ps : List Nat) (last : Nat) : List Nat := ps.filter (fun p => last < p) ++ ps.filter (fun p => p ≤ last)

/-- MERGE (R201); op.turn is 1 + the port taken last. -/
def execMerge (w : NodeWord) (s : State) : Host.Outcome State Fault Refusal :=
  let ps := mergePorts w
  nodeRun w s fun e => e.attempt ps [] false fun e =>
    let order := if e.cs.op.turn = 0 then ps else afterPort ps (e.cs.op.turn - 1)
    match order.find? fun p => (e.head p).any Beat.isData with
    | some p =>
      match e.head p with
      | none => .stall
      | some d => e.fireBoth [d] fun e1 => (e1.consume p).fired.setOp fun o => { o with turn := p + 1 }
    | none => e.defaultTokens ps

/-- MERGERR (R201); op.turn indexes the masked ports. -/
def execMergerr (w : NodeWord) (s : State) : Host.Outcome State Fault Refusal :=
  let ps := mergePorts w
  nodeRun w s fun e => e.attempt ps [] false fun e =>
    let p := ps.getD (e.cs.op.turn % ps.length) 0
    match e.head p with
    | none => .stall
    | some d =>
      if d.isData then
        e.fireBoth [d] fun e1 => (e1.consume p).fired.setOp fun o => { o with turn := (o.turn + 1) % ps.length }
      else
        match e.defaultTokens ps with
        | .ok e1 => .ok (e1.setOp fun o => { o with turn := 0 })
        | f => f

/-- MERGESEL (R201). Where the mask names the selector's own port, the beat behind the selector is the one it selects. -/
def execMergesel (w : NodeWord) (s : State) : Host.Outcome State Fault Refusal :=
  let sel := portA w
  let ps := mergePorts w
  nodeRun w s fun e => e.attempt (sel :: ps) [sel] false fun e =>
    match e.head sel with
    | none => .stall
    | some c =>
      if c.isData then
        if ps.contains c.ctl then
          match (if c.ctl = sel then (e.heads sel)[1]? else e.head c.ctl) with
          | none => .stall
          | some d =>
            if d.isData then
              e.fireBoth [steered d c] fun e1 => ((e1.consume sel).consume c.ctl).fired
            else .bad e clsMalformed 0x07 c.ctl (some d) c.pay
        else .bad e clsMalformed 0x05 sel (some c) 0
      else e.defaultTokens (sel :: ps)

/-! ### DIST and DISPATCH (R202, R203) -/

/-- DIST (R202): op.turn counts within the cycle of wx + wy. -/
def execDist (w : NodeWord) (s : State) : Host.Outcome State Fault Refusal :=
  let a := portA w
  let wx := bitsOf w.aux.toNat 0 3 + 1
  let wy := bitsOf w.aux.toNat 3 3 + 1
  statelessRun w s [a] [] fun e =>
    match e.head a with
    | none => .stall
    | some d => e.onArm (if e.cs.op.turn < wx then 0 else 1) [d] fun e1 =>
        (e1.consume a).setOp fun o => { o with turn := (o.turn + 1) % (wx + wy) }

/-- The value tokens of a DISPATCH for its nonzero or saturated counters (R203); at an EOI they enter the lane (R141). -/
def dispatchTokens (e : Env) (n : Nat) (eoi : Bool) : List StatTok :=
  match tapOf e.rg.plane (e.rg.writtenAt e.off e.ctx).1 (e.rg.writtenAt e.off e.ctx).2 5 with
  | none => []
  | some (_, tap) => (List.range n).filterMap fun i =>
      let c := e.cs.op.counts.getD i 0
      let o := e.cs.op.ovfs.getD i false
      if c ≠ 0 ∨ o ∨ eoi then some { valueToken e.rg.id e.off e.ctx tap o c i with entered := eoi } else none

/-- DISPATCH (R203). -/
def execDispatch (w : NodeWord) (s : State) : Host.Outcome State Fault Refusal :=
  let a := portA w
  let b := portB w
  let n := bitsOf (immNat w) 0 9
  statefulRun w s [a, b] fun e =>
    match e.head a, e.head b with
    | some d, some c =>
      if d.isData && c.isData then
        let x := c.ctl
        if n ≤ x then .bad e clsMalformed 0x05 b (some c) d.pay
        else
          let cnts := if e.cs.op.counts.isEmpty then List.replicate n 0 else e.cs.op.counts
          let ovfs := if e.cs.op.ovfs.isEmpty then List.replicate n false else e.cs.op.ovfs
          let k := cnts.getD x 0
          let full := k == 2 ^ 20 - 1
          let y : Beat := { d with pay := payOfElems 32 [x, k], valid := 3, poison := c.poison, spec := false }
          e.fireData [steered d c] [y] fun e1 =>
            (e1.consumeAll [a, b]).fired.setOp fun o =>
              { o with counts := if full then cnts else lmod cnts x fun _ => k + 1,
                       ovfs := if full then lmod ovfs x fun _ => true else ovfs }
      else
        let ends := (d.isStop && decide (bitsOf w.aux.toNat 0 3 ≤ d.level.toNat)) || d.isEoi
        match e.defaultTokens [a, b] with
        | .ok e1 =>
          .ok (if ends then { e1 with toks := e1.toks ++ dispatchTokens e n d.isEoi }.setOp fun o => { o with counts := [], ovfs := [] }
               else e1)
        | f => f
    | _, _ => e.defaultTokens [a, b]

/-! ### GEN, loop values, REPEAT (R204 to R206) -/

/-- Element i of beat t of a GEN: the exact integer (R204). -/
def genElem (w : NodeWord) (t i : Nat) : Int := signedOf 32 (immNat w) + fmtCount w.fmt * t + i

/-- GEN (R204): a source, one EOI after the tiles of the invocation; a cut stops it (R339). -/
def execGen (w : NodeWord) (s : State) : Host.Outcome State Fault Refusal :=
  nodeRun w s fun e => e.attempt [] [] false fun e =>
    match e.rg.sourceOpen false with
    | some inv =>
      if e.cs.op.eoi then .stall
      else if e.cs.op.cnt < inv.entry.tiles then
        if !e.lackRates.isEmpty then .full e.lackRates
        else
          let t := e.cs.op.cnt
          let wd := fmtWidth w.fmt
          let rs := (List.range (fmtCount w.fmt)).map fun i =>
            roundTo (fmtElem w.fmt) true w.sat w.rnd (exactOfInt (genElem w t i))
          let b := dataBeat (payOfElems wd (rs.map (·.code))) 0xFF (BitVec.ofNat 14 t) e.cs.op.round
          e.fireBoth [b] fun e1 =>
            (((e1.issued t).setOp fun o => { o with cnt := t + 1 }).count none (rs.foldl (fun c r => countResult c r false) {})).fired
      else
        let m := markBeat 2 e.cs.op.round 0
        match e.fireBoth [m] fun e1 => ((e1.setOp fun o => { o with eoi := true }).statAt m).noteRound m with
        | .ok e1 => .ok { e1 with cs := { e1.cs with lregs := e.cs.lregs, lpois := e.cs.lpois } }
        | f => f
    | none => .stall

/-- The first non-DATA head among ports. -/
def Env.tokenAmong (e : Env) (ps : List Nat) : Option Nat := ps.find? fun p => (e.head p).any fun b => !b.isData

/-- The shared rule of CARRY and INVAR (R205, R423): `ports` are a, b and, for CARRY, c; op.phase is LOOP; op.held keeps
INVAR's value; op.counts the ports whose EOI has been sunk after a's (R423). -/
def loopRun (w : NodeWord) (s : State) (carry : Bool) : Host.Outcome State Fault Refusal :=
  let a := portA w
  let b := portB w
  let c := portC w
  let loopPorts := if carry then [b, c] else [b]
  statefulRun w s (a :: loopPorts) fun e =>
    if e.cs.op.phase then
      match e.tokenAmong loopPorts with
      | some p => .bad e clsMalformed 0x07 p (e.head p) 0
      | none =>
        match e.head b with
        | none => .stall
        | some p =>
          if p.ctl = 0 then
            .ok ((e.consume b).fired.setOp fun o => { o with phase := false, held := [] })
          else if carry then
            match e.head c with
            | none => .stall
            | some d => e.fireData [steered d p] [steered d p] fun e1 => (e1.consumeAll [b, c]).fired
          else
            match e.cs.op.held with
            | [] => .stall
            | d :: _ => e.fireData [steered d p] [steered d p] fun e1 => (e1.consume b).fired
    else
      match (if carry && e.cs.op.eoi then
          loopPorts.find? fun p => (e.head p).any Beat.isEoi && !e.cs.op.counts.contains p else none) with
      | some p => .ok ((e.consume p).setOp fun o => { o with counts := p :: o.counts })
      | none =>
        match e.head a with
        | none => .stall
        | some d =>
          if d.isData then
            e.fireData [d] [d] fun e1 => (e1.consume a).fired.setOp fun o =>
              { o with phase := true, held := if carry then [] else [d] }
          else
            match e.defaultTokens [a] with
            | .ok e1 => .ok (if d.isEoi then e1.setOp fun o => { o with eoi := true } else e1)
            | f => f

/-- CARRY (R205, R423). -/
def execCarry (w : NodeWord) (s : State) : Host.Outcome State Fault Refusal := loopRun w s true

/-- INVAR (R205). -/
def execInvar (w : NodeWord) (s : State) : Host.Outcome State Fault Refusal := loopRun w s false

/-- Segment number of IMM[2:0]. -/
def segNo (w : NodeWord) : Nat := bitsOf (immNat w) 0 3

/-- Store tokens of a REPEAT in its segment. -/
def Env.setSegBeats (e : Env) (n : Nat) (bs : List Beat) : Env :=
  { e with cell := setSeg e.cell n { segAt e.cell n with beats := bs } }

/-- REPEAT (R206). op.any: a fibre is open or being re-emitted; op.next: the count c; op.turn: the pass (0 while the fibre
arrives); op.pos: the stored beat to emit next; op.cnt: the level of the closing STOP; op.pois: the count was poisoned. -/
def execRepeat (w : NodeWord) (s : State) : Host.Outcome State Fault Refusal :=
  let a := portA w
  let b := portB w
  let n := segNo w
  let lv := bitsOf w.aux.toNat 0 3
  statefulRun w s [a, b] fun e =>
    let o := e.cs.op
    let stored := (segAt e.cell n).beats
    let mark (x : Beat) : Beat := { x with poison := x.poison || o.pois }
    if o.any && o.turn != 0 then
      -- passes 2 to c
      match stored[o.pos]? with
      | some x => e.fireBoth [mark x] fun e1 => e1.setOp fun o => { o with pos := o.pos + 1 }
      | none =>
        let last := decide (o.next ≤ o.turn + 1)
        let t := stopBeat (if last then o.cnt else lv) (BitVec.ofNat 3 o.round)
        e.fireBoth [t] fun e1 =>
          if last then (e1.setOp fun o => { o with any := false, turn := 0, pos := 0 }).setSegBeats n []
          else e1.setOp fun o => { o with turn := o.turn + 1, pos := 0 }
    else if o.any then
      match e.head a with
      | none => .stall
      | some d =>
        if d.isMark then .bad e clsMalformed 0x07 a (some d) 0
        else if d.isData || decide (d.level.toNat < lv) then
          if (segDesc e.rg.plane e.off n).size ≤ stored.length then .bad e clsQovf 0x04 a (some d) 0
          else
            let out := if o.next = 0 then [] else [mark d]
            e.fireBoth out fun e1 =>
              let e2 := (e1.consume a).setSegBeats n (stored ++ [d])
              if d.isData then e2.fired else e2.statAt d
        else
          let j := d.level.toNat
          let out :=
            if o.next = 0 then (if lv < j then [stopBeat (j - lv - 1) d.round] else [])
            else if o.next = 1 then [d] else [stopBeat lv d.round]
          e.fireBoth out fun e1 =>
            let e2 := (e1.consume a).statAt d
            if o.next ≤ 1 then (e2.setOp fun o => { o with any := false, pos := 0 }).setSegBeats n []
            else e2.setOp fun o => { o with turn := 1, pos := 0, cnt := j }
    else
      match e.head b with
      | some c =>
        if c.isData then
          .ok ((e.consume b).fired.setOp fun o => { o with any := true, next := c.ctl, turn := 0, pos := 0, pois := c.poison })
        else e.defaultTokens [a, b]
      | none => if (e.head a).any fun d => !d.isData then e.defaultTokens [a, b] else .stall

/-! ### Tags (R207) -/

/-- SEQTAG (R207). -/
def execSeqtag (w : NodeWord) (s : State) : Host.Outcome State Fault Refusal :=
  let a := portA w
  statefulRun w s [a] fun e =>
    match e.head a with
    | none => .stall
    | some d =>
      if d.isData then
        let x := { d with tag := BitVec.ofNat 14 (bitsOf (immNat w) 0 14 + e.cs.op.cnt) }
        e.fireData [x] [x] fun e1 =>
          (e1.consume a).fired.setOp fun o => { o with cnt := o.cnt + 1 }
      else e.defaultTokens [a]

/-- REORDER (R207); op.next counts from t0. The slot of next leaves before a beat enters, once its output has room. -/
def execReorder (w : NodeWord) (s : State) : Host.Outcome State Fault Refusal :=
  let a := portA w
  let n := segNo w
  statefulRun w s [a] fun e =>
    let size := (segDesc e.rg.plane e.off n).size
    let sg := segAt e.cell n
    let next := (bitsOf (immNat w) 3 14 + e.cs.op.next) % 2 ^ 14
    let put (x : Env) (slots : AMap Beat) : Env := { x with cell := setSeg x.cell n { segAt x.cell n with slots := slots } }
    let emitNext (b : Beat) : Fire := e.fireBoth [b] fun e1 =>
      (put e1 (adel sg.slots (next % size))).setOp fun o => { o with next := (o.next + 1) % 2 ^ 14 }
    let enter (d : Beat) : Fire :=
      let k := d.tag.toNat % size
      match aget sg.slots k with
      | some _ => .bad e clsMalformed 0x0A a (some d) 0
      | none => .ok ((put (e.consume a) (aset sg.slots k d)).fired)
    let enters (d : Beat) : Bool := d.isData && decide ((d.tag.toNat + 2 ^ 14 - next) % 2 ^ 14 < size)
    match aget sg.slots (next % size), e.head a with
    | some b, some d => if enters d && !(e.lack [b] [b]).isEmpty then enter d else emitNext b
    | some b, none => emitNext b
    | none, none => .stall
    | none, some d =>
      if enters d then enter d
      else if d.isData then .stall
      else if sg.slots.isEmpty then
        match e.defaultTokens [a] with
        | .ok e1 => .ok (if d.isEoi then e1.setOp fun o => { o with next := 0 } else e1)
        | f => f
      else if d.isClosing then .bad e clsMalformed 0x0A a (some d) 0
      else .stall

/-! ### Control tokens (R208 to R212) -/

/-- A marker forwarded with the round that is open at this node (R91, R208). -/
def remark (b : Beat) (n : Nat) : Beat :=
  if b.isClosing || b.isEog || b.isDrn then
    { b with round := BitVec.ofNat 3 n, pay := BitVec.ofNat 256 (n % 2 ^ 64 + b.pay.toNat / 2 ^ 64 * 2 ^ 64) }
  else b

/-- MARK (R208): op.cnt counts the DATA beats passed; beats after its marker belong to the next round. -/
def execMark (w : NodeWord) (s : State) : Host.Outcome State Fault Refusal :=
  let a := portA w
  let sub := bitsOf w.aux.toNat 0 3
  let n := bitsOf (immNat w) 0 16
  statefulRun w s [a] fun e =>
    let r := e.cs.op.round
    match e.head a with
    | none => .stall
    | some d =>
      if d.isData then
        let d1 := { d with round := BitVec.ofNat 3 r }
        if e.cs.op.cnt + 1 = n then
          let m := markBeat sub r (if sub = 0 then bitsOf w.aux.toNat 3 3 else 0)
          e.fireData [d1, m] [d1, m] fun e1 =>
            (e1.consume a).fired.setOp fun o => { o with cnt := 0, round := if sub = 3 then o.round else o.round + 1 }
        else e.fireData [d1] [d1] fun e1 => (e1.consume a).fired.setOp fun o => { o with cnt := o.cnt + 1 }
      else if d.isStop then
        e.fireBoth [{ d with round := BitVec.ofNat 3 r }] fun e1 => (e1.consume a).statAt d
      else
        e.fireBoth [remark d r] fun e1 =>
          ((e1.consume a).statAt d).setOp fun o =>
            if d.isClosing then { o with cnt := 0, round := o.round + 1 } else o

/-- STOPI (R209): op.cnt counts the DATA beats of the count under way; op.any: one has passed since the last STOP k of its own. -/
def execStopi (w : NodeWord) (s : State) : Host.Outcome State Fault Refusal :=
  let a := portA w
  let k := bitsOf w.aux.toNat 0 3
  let n := bitsOf (immNat w) 0 16
  statefulRun w s [a] fun e =>
    match e.head a with
    | none => .stall
    | some d =>
      if d.isData then
        let last := e.cs.op.cnt + 1 == n
        let out := if last then [d, stopBeat k d.round] else [d]
        e.fireData out out fun e1 =>
          (e1.consume a).fired.setOp fun o => { o with cnt := if last then 0 else o.cnt + 1, any := !last }
      else if d.isStop then
        match e.defaultTokens [a] with
        | .ok e1 => .ok (if k ≤ d.level.toNat then e1.setOp fun o => { o with cnt := 0 } else e1)
        | f => f
      else if d.isEoi && e.cs.op.any then
        e.flushTokens [a] [stopBeat k d.round] fun e1 => e1.setOp fun o => { o with cnt := 0, any := false }
      else e.defaultTokens [a]

/-- STOPX (R209). -/
def execStopx (w : NodeWord) (s : State) : Host.Outcome State Fault Refusal :=
  let a := portA w
  let k := bitsOf w.aux.toNat 0 3
  nodeRun w s fun e => e.attempt [a] [] false fun e =>
    match e.head a with
    | none => .stall
    | some d =>
      if d.isData then e.fireData [d] [d] fun e1 => (e1.consume a).fired
      else if d.isStop then
        let j := d.level.toNat
        e.fireBoth (if j ≤ k then [] else [{ d with level := BitVec.ofNat 3 (j - k - 1) }]) fun e1 =>
          (e1.consume a).statAt d
      else e.defaultTokens [a]

/-- STOPUP (R209). -/
def execStopup (w : NodeWord) (s : State) : Host.Outcome State Fault Refusal :=
  let a := portA w
  let k := bitsOf w.aux.toNat 0 3
  nodeRun w s fun e => e.attempt [a] [] false fun e =>
    match e.head a with
    | none => .stall
    | some d =>
      if d.isData then e.fireData [d] [d] fun e1 => (e1.consume a).fired
      else if d.isStop then
        let j := d.level.toNat + k
        if 7 < j then .bad e clsMalformed 0x01 a (some d) 0
        else e.fireBoth [{ d with level := BitVec.ofNat 3 j }] fun e1 => (e1.consume a).statAt d
      else e.defaultTokens [a]

/-- WAITMK (R210). op.counts lists the payload rounds of a's closing markers taken, in order; op.roundB counts those of b. An EOI at
a's head counts as one more of a's. -/
def execWaitmk (w : NodeWord) (s : State) : Host.Outcome State Fault Refusal :=
  let a := portA w
  let b := portB w
  let keep (e e1 : Env) : Env := { e1 with cs := { e1.cs with lregs := e.cs.lregs, lpois := e.cs.lpois } }
  statefulRun w s [a, b] fun e =>
    let ha := e.head a
    let hb := e.head b
    let closings := e.cs.op.counts ++ (match ha with | some x => if x.isEoi then [x.markRound] else [] | none => [])
    let clashes (d : Beat) : Bool := (closings[e.cs.op.roundB]?).any fun n => n != d.markRound
    let takeA : Option Fire := match ha with
      | some d =>
        if d.isEoi then none
        else if e.room 0 [d] then
          some (.ok (keep e (((e.consume a).emit 0 [d]).setOp fun o =>
            { o with counts := if d.isClosing then o.counts ++ [d.markRound] else o.counts })))
        else none
      | none => none
    match takeA with
    | some f => f
    | none =>
      match hb with
      | none => .stall
      | some d =>
        if d.isEoi then
          match ha with
          | some x =>
            if x.isEoi then
              if clashes d then .bad e clsRoundtag 0x01 b (some d) x.pay
              else
                match e.fireXY [x] [d] fun e1 =>
                    ((e1.consume a).consume b).setOp fun o => { o with counts := [], roundB := 0, round := x.markRound + 1 } with
                | .ok e1 => .ok (keep e e1)
                | f => f
            else .full [0]
          | none => .stall
        else if (d.isMark && !d.isClosing) || e.cs.op.roundB < closings.length then
          if d.isClosing && clashes d then .bad e clsRoundtag 0x01 b (some d) 0
          else
            match e.fireXY [] [d] fun e1 =>
                (if d.isData then (e1.consume b).fired else e1.consume b).setOp fun o =>
                  { o with roundB := if d.isClosing then o.roundB + 1 else o.roundB } with
            | .ok e1 => .ok (keep e e1)
            | f => f
        else .stall

/-- SPECRES (R211). -/
def execSpecres (w : NodeWord) (s : State) : Host.Outcome State Fault Refusal :=
  let a := portA w
  statefulRun w s [a] fun e =>
    match e.head a with
    | none => .stall
    | some d =>
      if d.isData then
        let x := sprBeat (decide (d.ctl ≠ 0)) e.cs.op.round 0
        e.fireData [x] [x] fun e1 => (e1.consume a).fired
      else e.defaultTokens [a]

/-- RETYPE (R212). A token in the place of b's DATA beat meets the closing marker under R89. -/
def execRetype (w : NodeWord) (s : State) : Host.Outcome State Fault Refusal :=
  let a := portA w
  let b := portB w
  statefulRun w s [a, b] fun e =>
    match e.head a with
    | none => .stall
    | some d =>
      if d.isData then e.fireData [d] [d] fun e1 => (e1.consume a).fired
      else if d.isClosing then
        match e.head b with
        | some c =>
          if c.isData then
            let v := c.ctl
            let cfg := { cfgBeat (BitVec.ofNat 256 (v % 2 ^ 16)) 3 (d.markRound + 1) with poison := c.poison }
            e.flushTokens [a] [] (fun e1 => e1.consume b) |> fun f =>
              match f with
              | .ok e1 =>
                .ok (if v.testBit 16 then e1.setOp fun o => { o with owe := o.owe ++
                      ((if e.dst 0 then [(false, cfg)] else []) ++ (if e.dst 1 then [(true, cfg)] else [])) } else e1)
              | g => g
          else e.tokens [a, b] [] [] id
        | none => .stall
      else e.defaultTokens [a]

end Sys2Proof.Machine
end

