-- ==== Sys2Proof/Machine/NodeMem.lean ====
section
/-! DEFINITION. Bank accesses with their poison (R101, R360) and the memory and atomic node ops (R213 to R221). Every access
of a firing performs at the firing, so the orders of R105, R107 and R220 hold of the steps. -/

namespace Sys2Proof.Machine

/-! ### Bank accesses (R101, R360) -/

/-- Put lanes of a payload into a bank beat; unlisted beats are zero. -/
def bankPay (c : Cell) (a : Nat) (pay : Payload) (lanes : BitVec 8) : AMap Payload :=
  let old := agetD c.bank a 0
  let new := payOfElems 32 ((List.range 8).map fun i => if lanes.getLsbD i then payElem pay 32 i else payElem old 32 i)
  if new = 0 then adel c.bank a else aset c.bank a new

/-- The 64-bit words of beat a that a lane mask touches. -/
def touchedWords (a : Nat) (lanes : BitVec 8) : List Nat :=
  ((List.range 4).filter fun j => lanes.getLsbD (2 * j) || lanes.getLsbD (2 * j + 1)).map fun j => 4 * a + j

/-- The 64-bit words of beat a that a lane mask covers whole. -/
def coveredWords (a : Nat) (lanes : BitVec 8) : List Nat :=
  ((List.range 4).filter fun j => lanes.getLsbD (2 * j) && lanes.getLsbD (2 * j + 1)).map fun j => 4 * a + j

/-- Add words to a list without repeats. -/
def addWords (l ws : List Nat) : List Nat := l ++ ws.filter fun x => !l.contains x

/-- A write of lanes of a bank beat: a poisoned one stores the poison code and no data in each word it touches; a clean one
clears the poison of the words it covers whole (R360). -/
def bankWrite (c : Cell) (a : Nat) (pay : Payload) (lanes : BitVec 8) (poison : Bool) : Cell :=
  if poison then { c with bpois := addWords c.bpois (touchedWords a lanes) }
  else
    { c with bank := bankPay c a pay lanes,
             bpois := c.bpois.filter fun x => !(coveredWords a lanes).contains x }

/-- The payload of a bank beat. -/
def bankBeat (c : Cell) (a : Nat) : Payload := agetD c.bank a 0

/-- A 32-bit bank word, by word index. -/
def bankWord (c : Cell) (k : Nat) : Nat := payElem (bankBeat c (k / 8)) 32 (k % 8)

/-- The poison of the 64-bit word that holds a 32-bit bank word. -/
def wordPoisoned (c : Cell) (k : Nat) : Bool := c.bpois.contains (k / 2)

/-- Write one 32-bit bank word. -/
def bankPutWord (c : Cell) (k v : Nat) (poison : Bool) : Cell :=
  bankWrite c (k / 8) (payOfElems 32 (List.replicate 8 v)) ((1 : BitVec 8) <<< (k % 8)) poison

/-! ### LD and ST (R213) -/

/-- The bank beat of LD and ST (R213). -/
def ldstBeat (w : NodeWord) (a : Beat) : Nat := (a.ctl + bitsOf (immNat w) 0 11) % 2048

/-- The beat lies in scratch of the context or in the cell's memory tile (R213). -/
def Env.beatOwned (e : Env) (a : Nat) : Bool :=
  (e.holding 3 a).isSome || (e.holding 4 a).isSome

/-- LD (R213, R218). -/
def execLd (w : NodeWord) (s : State) : Host.Outcome State Fault Refusal :=
  let a := portA w
  statefulRun w s [a] fun e =>
    match e.head a with
    | none => .stall
    | some d =>
      if d.isData then
        let k := ldstBeat w d
        if e.beatOwned k then
          let x := { d with pay := bankBeat e.bankCell k, valid := 0xFF, poison := d.poison || bankPoisoned e.bankCell k }
          e.fireData [x] [x] fun e1 => (e1.consume a).fired
        else .bad e clsMalformed 0x05 a (some d) 0
      else e.defaultTokens [a]

/-- ST (R213, R218, R219). -/
def execSt (w : NodeWord) (s : State) : Host.Outcome State Fault Refusal :=
  let a := portA w
  let b := portB w
  statefulRun w s [a, b] fun e =>
    match e.head a, e.head b with
    | some d, some v =>
      if d.isData && v.isData then
        let k := ldstBeat w d
        let pois := d.poison || v.poison
        if !e.beatOwned k then .bad e clsMalformed 0x05 a (some d) v.pay
        else if pois && e.rg.ptrap then .bad e clsPoison 0x01 b (some v) d.pay
        else
          e.fireData [d] [d] fun e1 =>
            (e1.consumeAll [a, b]).fired.setBankCell (bankWrite e1.bankCell k v.pay v.valid pois)
      else e.defaultTokens [a, b]
    | _, _ => e.defaultTokens [a, b]

/-! ### Memory-tile words (R107, R214, R217, R320) -/

/-- The copy index of a node and the number of copies, when it is cloned. -/
def Env.copyIndex (e : Env) : Nat × Nat :=
  match e.rg.layouts.find? fun l => l.copies.contains (e.off, e.ctx) with
  | some l => (l.copies.idxOf (e.off, e.ctx), l.copies.length)
  | none => (0, 1)

/-- The update merge takes its tokens as the copies do: once the copy in turn has taken its next non-DATA token, no copy has a
beat before that token, and the merge starts again at copy 0 behind it (R320). Fuel bounds the tokens passed at once. -/
def NodeLayout.settleTurn (l : NodeLayout) : Nat → NodeLayout
  | 0 => l
  | f + 1 => if l.epoch < l.taken.getD l.turn 0 then ({ l with epoch := l.epoch + 1, turn := 0 }).settleTurn f else l

/-- Change the layout of a cloned node. -/
def Env.modLayout (e : Env) (f : NodeLayout → NodeLayout) : Env :=
  { e with rg := { e.rg with layouts := e.rg.layouts.map fun l => if l.copies.contains (e.off, e.ctx) then f l else l } }

/-- The update merge takes the next beat from this copy (R320). -/
def Env.mayUpdate (e : Env) : Bool :=
  match e.rg.layouts.find? fun l => l.copies.contains (e.off, e.ctx) with
  | some l => l.turn == e.copyIndex.1 && l.taken.getD l.turn 0 == l.epoch
  | none => true

/-- A whole beat has performed: the next copy is in turn. -/
def Env.beatDone (e : Env) : Env :=
  e.modLayout fun l => ({ l with turn := (l.turn + 1) % l.copies.length }).settleTurn (l.copies.length + 1)

/-- Tokens of a memory-tile op (R218); the update merge notes that the copy has passed one. -/
def Env.tileTokens (e : Env) (ps : List Nat) : Fire :=
  match e.defaultTokens ps with
  | .ok e1 => .ok (e1.modLayout fun l =>
      ({ l with taken := lmod l.taken e1.copyIndex.1 (· + 1) }).settleTurn (l.copies.length + 1))
  | f => f

/-- What one lane does at its word: the old word, operands b and c: the new word (none: no write), with whether an operand
was NaN, and the value returned. -/
abbrev LaneOp := Nat → Nat → Nat → Option (Rounded × Bool) × Nat

/-- What an access of one lane leaves: the cell, the value returned, the poison met, and its counts. -/
structure LaneDone where
  cell : Cell
  reply : Nat
  poison : Bool
  counts : Counts
  deriving DecidableEq, Repr

/-- Lane i of a beat at the tile, one access of R107. `bits`: the address is a bit index (ATAS). A poisoned one does not
perform, and poisons its beat (R219). None: out of range. -/
def tileLane (tile : SegDesc) (bits : Bool) (op : LaneOp) (pois : Bool) (i : Nat) (d : Beat) (vb vc : Payload) (c : Cell) :
    Option LaneDone :=
  let ad := payElem d.pay 32 i
  let word := if bits then ad / 32 else ad
  if 8 * tile.size ≤ word then none
  else
    let g := 8 * tile.base + word
    let (new, r) := op (bankWord c g) (if bits then ad % 32 else payElem vb 32 i) (payElem vc 32 i)
    some <| match new, pois with
      | some _, true => ⟨{ c with bpois := addWords c.bpois (touchedWords (g / 8) 0xFF) }, bankWord c g, true, {}⟩
      | some (x, n), false => ⟨bankPutWord c g x.code false, r, wordPoisoned c g, countResult {} x n⟩
      | none, p => ⟨c, r, p || wordPoisoned c g, {}⟩

/-- Lane i of a STREQ: it writes its word, a poisoned one the poison code (R214, R219). None: out of range. -/
def storeLane (tile : SegDesc) (pois : Bool) (i : Nat) (d : Beat) (vb : Payload) (c : Cell) : Option LaneDone :=
  let ad := payElem d.pay 32 i
  if 8 * tile.size ≤ ad then none
  else some ⟨bankPutWord c (8 * tile.base + ad) (payElem vb 32 i) pois, 0, false, {}⟩

/-- The lanes of the beat at hand that have still to perform, ascending; op.pos is the first that may. -/
def Env.lanesLeft (e : Env) (d : Beat) : List Nat := (List.range 8).filter fun i => d.valid.getLsbD i && decide (e.cs.op.pos ≤ i)

/-- A lane has performed: op.outX keeps the values returned. -/
def Env.laneTaken (e : Env) (i : Nat) (x : LaneDone) : Env :=
  ((e.setBankCell x.cell).setOp fun o =>
    { o with phase := true, pos := i + 1, outX := o.outX ++ List.replicate (i - o.outX.length) none ++ [some x.reply],
             pois := o.pois || x.poison }).count none x.counts

/-- The values returned for a beat, lane by lane. -/
def OpState.replies (o : OpState) : List Nat := (List.range 8).map fun i => (o.outX.getD i none).getD 0

/-- The last lane has performed: the beat is consumed, its reply leaves, and the next copy is in turn. -/
def Env.lanesDone (e : Env) (ps : List Nat) (out : Beat) : Fire :=
  e.fireBoth [out] fun e1 =>
    ((e1.consumeAll ps).fired.setOp fun o => { o with phase := false, pos := 0, outX := [], pois := false }).beatDone

/-- A step of a firing that has begun before is no firing of its own. -/
def Fire.goesOn : Fire → Fire
  | .ok e => .quiet e true
  | f => f

/-- The rule shared by the ops of the memory tile: S1 takes one lane at a time, so that a window access may fall between two of
them (R106, R107); the firing ends with its last lane. `ps` are the ports read, `trap` the one that a PTRAP fault names,
`out` the beat emitted. -/
def tileBeat (w : NodeWord) (s : State) (ps : List Nat) (atomic writes : Bool) (trap : Nat)
    (lane : SegDesc → Bool → Nat → Env → Beat → Option LaneDone) (out : Env → Beat → Bool → Beat) :
    Host.Outcome State Fault Refusal :=
  let a := portA w
  statefulRun w s ps fun e =>
    if !e.allData ps then e.tileTokens ps
    else if !e.mayUpdate then .stall
    else
      match e.head a, memTile e.rg.plane e.home.1 with
      | some d, some tile =>
        let pois := writes && ps.any fun p => (e.head p).any Beat.poison
        let pay (p : Nat) : Payload := ((e.head p).map (·.pay)).getD 0
        let other := pay (if trap = a then portB w else a)
        let go (e : Env) : Fire :=
          if pois && e.rg.ptrap then .bad e clsPoison 0x01 trap (e.head trap) other
          else
            match e.lanesLeft d with
            | [] => e.lanesDone ps (out e d pois)
            | i :: rest =>
              match lane tile pois i e d with
              | none => .bad e clsMalformed 0x05 a (some d) (pay (portB w))
              | some x =>
                let e1 := e.laneTaken i x
                if rest.isEmpty then e1.lanesDone ps (out e1 d pois) else .ok e1
        if e.cs.op.phase then (go e).goesOn
        else if !e.lackRates.isEmpty then .full e.lackRates
        else if atomic then e.pureEvent 0x02 go
        else go e
      | _, _ => .stall

/-- The payload at a port. -/
def Env.payAt (e : Env) (p : Nat) : Payload := ((e.head p).map (·.pay)).getD 0

/-- The rule shared by LDREQ and the atomics: the reply beat carries the lane values on X. -/
def tileRun (w : NodeWord) (s : State) (ps : List Nat) (bits : Bool) (writes : Bool) (op : LaneOp) :
    Host.Outcome State Fault Refusal :=
  tileBeat w s ps writes writes (portA w)
    (fun tile pois i e d => tileLane tile bits op pois i d (e.payAt (portB w)) (e.payAt (portC w)) e.bankCell)
    fun e d pois => { d with pay := payOfElems 32 e.cs.op.replies, poison := d.poison || e.cs.op.pois || pois }

/-- LDREQ (R214). -/
def execLdreq (w : NodeWord) (s : State) : Host.Outcome State Fault Refusal :=
  tileRun w s [portA w] false false fun old _ _ => (none, old)

/-- The ports of an op with operands a, b. -/
def abPorts (w : NodeWord) : List Nat := dedupNat [portA w, portB w]

/-- STREQ (R214): a's beat leaves after its last lane. -/
def execStreq (w : NodeWord) (s : State) : Host.Outcome State Fault Refusal :=
  tileBeat w s (abPorts w) false true (portB w)
    (fun tile pois i e d => storeLane tile pois i d (e.payAt (portB w)) e.bankCell)
    fun _ d _ => d

/-- AADD (R217). -/
def execAadd (w : NodeWord) (s : State) : Host.Outcome State Fault Refusal :=
  tileRun w s (abPorts w) false true fun old b _ => (some (addOnce w old b), old)

/-- AMIN (R217). -/
def execAmin (w : NodeWord) (s : State) : Host.Outcome State Fault Refusal :=
  tileRun w s (abPorts w) false true fun old b _ => (some (exactly (elemPick (fmtElem w.fmt) true old b), true), old)

/-- AMAX (R217). -/
def execAmax (w : NodeWord) (s : State) : Host.Outcome State Fault Refusal :=
  tileRun w s (abPorts w) false true fun old b _ => (some (exactly (elemPick (fmtElem w.fmt) false old b), true), old)

/-- AXCHG (R217). -/
def execAxchg (w : NodeWord) (s : State) : Host.Outcome State Fault Refusal :=
  tileRun w s (abPorts w) false true fun old b _ => (some (exactly b, true), old)

/-- ACAS (R217). -/
def execAcas (w : NodeWord) (s : State) : Host.Outcome State Fault Refusal :=
  tileRun w s (dedupNat [portA w, portB w, portC w]) false true fun old b c =>
    (some (exactly (if old = c then b else old), true), old)

/-- ATAS (R217): the second operand is the bit number within the word. -/
def execAtas (w : NodeWord) (s : State) : Host.Outcome State Fault Refusal :=
  tileRun w s [portA w] true true fun old b _ => (some (exactly (old ||| 2 ^ b), true), old / 2 ^ b % 2)

/-- AOR (R217). -/
def execAor (w : NodeWord) (s : State) : Host.Outcome State Fault Refusal :=
  tileRun w s (abPorts w) false true fun old b _ => (some (exactly (old ||| b), true), old)

/-! ### Stream buffers and tile stores (R215, R216) -/

/-- Beats of a chunk (R116). -/
def chunkBeats : Nat := 64

/-- The last stretch is a chunk: its slots not yet used. -/
def SegState.chunkRoom (g : SegState) : Nat :=
  match g.parts.getLast? with
  | some p => if p.chunk.isSome then chunkBeats - p.used else 0
  | none => 0

/-- The space count: free beats of the ring and of the chunk at the end (R103, R117). -/
def SegState.space (d : SegDesc) (g : SegState) : Nat :=
  (d.size - ((g.parts.filter fun p => p.chunk.isNone).map (·.n)).foldl (· + ·) 0) + g.chunkRoom

/-- One more beat in a stretch. -/
def BufPart.more (p : BufPart) : BufPart := { p with n := p.n + 1, used := p.used + 1 }

/-- Append a beat: in the chunk at the end while it has a slot, else in the ring. The tokens stand apart from the bank's bytes, which
a PUSH leaves as they were: no file says where in its segment a ring begins, nor how a token of 36 bytes lies there (log 136). -/
def SegState.put (g : SegState) (b : Beat) : SegState :=
  let last := g.parts.length - 1
  let ring := match g.parts.getLast? with
    | some p => if p.chunk.isNone || decide (p.used < chunkBeats) then lmod g.parts last BufPart.more else g.parts ++ [⟨none, 1, 1⟩]
    | none => [⟨none, 1, 1⟩]
  { g with beats := g.beats ++ [b], parts := ring }

/-- Remove the oldest beat. A chunk that this empties goes back to its source (R117). -/
def SegState.drop1 (g : SegState) : SegState :=
  { g with beats := g.beats.drop 1,
           parts := match g.parts with
             | [] => []
             | p :: t => if p.n ≤ 1 then t else { p with n := p.n - 1 } :: t }

/-- POP (R215): the buffer is that of the written cell, wherever the node stands (R322). -/
def execPop (w : NodeWord) (s : State) : Host.Outcome State Fault Refusal :=
  let n := segNo w
  statefulRun w s [] fun e =>
    let g := segAt e.bankCell n
    match g.beats with
    | [] => .stall
    | d :: _ =>
      match (if d.isData then e.fireData [d] [d] else e.fireBoth [d]) fun e1 =>
          let e2 := e1.setBankCell (setSeg e1.bankCell n g.drop1)
          if d.isData then e2.fired else (e2.statAt d).noteRound d with
      | .ok e1 => .ok (if d.isData then e1 else { e1 with cs := { e1.cs with lregs := e.cs.lregs, lpois := e.cs.lpois } })
      | f => f

/-- Beats of one buffer of a tile store (R104). -/
def tileBufSize (d : SegDesc) : Nat := d.size / (d.param + 1)

/-- A full bit of a tile store. -/
def bufFull (g : SegState) (k : Nat) : Bool := g.full.getD k false

/-- Set a full bit. -/
def setFull (d : SegDesc) (g : SegState) (k : Nat) (v : Bool) : SegState :=
  let l := if g.full.isEmpty then List.replicate (d.param + 1) false else g.full
  { g with full := lmod l k fun _ => v, missed := lmod g.missed k fun _ => false }

/-- TLD (R216): op.held keeps the trigger of the read under way, op.pos its next beat. -/
def execTld (w : NodeWord) (s : State) : Host.Outcome State Fault Refusal :=
  let a := portA w
  let n := segNo w
  let consuming := bitsOf w.aux.toNat 0 1 == 1
  statefulRun w s [a] fun e =>
    let d := segDesc e.rg.plane e.off n
    let g := segAt e.cell n
    let size := tileBufSize d
    match e.cs.op.held with
    | t :: _ =>
      let k := d.base + g.rp * size + e.cs.op.pos
      let last := decide (size ≤ e.cs.op.pos + 1)
      let b := { t with pay := bankBeat e.cell k, valid := 0xFF, poison := t.poison || bankPoisoned e.cell k }
      e.fireData [b] [b] fun e1 =>
        if last then
          let g1 := if consuming then { setFull d g g.rp false with rp := (g.rp + 1) % (d.param + 1) } else g
          { e1 with cell := setSeg e1.cell n g1 }.setOp fun o => { o with held := [], pos := 0 }
        else e1.setOp fun o => { o with pos := o.pos + 1 }
    | [] =>
      match e.head a with
      | none => .stall
      | some t =>
        if t.isData then
          if !bufFull g g.rp then .stall
          else if !e.lackRates.isEmpty then .full e.lackRates
          else .ok ((e.consume a).fired.setOp fun o => { o with held := [t], pos := 0 })
        else e.defaultTokens [a]

/-- TST (R216). -/
def execTst (w : NodeWord) (s : State) : Host.Outcome State Fault Refusal :=
  let a := portA w
  let n := segNo w
  statefulRun w s [a] fun e =>
    let d := segDesc e.rg.plane e.off n
    let g := segAt e.cell n
    let size := tileBufSize d
    match e.head a with
    | none => .stall
    | some b =>
      if b.isData then
        if bufFull g g.wp then .stall
        else if !e.lackRates.isEmpty then .full e.lackRates
        else if b.poison && e.rg.ptrap then .bad e clsPoison 0x01 a (some b) 0
        else
          let k := d.base + g.wp * size + g.fill
          let c := bankWrite e.cell k b.pay 0xFF b.poison
          let g1 := if size ≤ g.fill + 1 then
              { setFull d g g.wp true with wp := (g.wp + 1) % (d.param + 1), fill := 0 }
            else { g with fill := g.fill + 1 }
          .ok ({ e.consume a with cell := setSeg c n g1 }.fired)
      else if b.isStop && g.fill != 0 then .bad e clsMalformed 0x07 a (some b) 0
      else e.defaultTokens [a]

/-! ### SPBSEND and FENCE (R220, R221) -/

/-- The X link ends at an ME: the blocks are commands (R258). -/
def spbToMe (e : Env) : Bool :=
  ((e.rg.outLink e.off false e.ctx 4).bind e.rg.linkAt).any fun l => l.dst.hard && !e.rg.blockIsSp l.dst.off

/-- What an SPBSEND sends of its k-th block: the two CFG beats of an SPB, with `patch` added to bytes 16-23 (R221), or the
first beat of a command (R258). -/
def spbBeats (e : Env) (patch : Nat) (pois : Bool) (k : Nat) : List Beat :=
  let base := bitsOf (immNat e.w) 0 11 + 2 * k
  if spbToMe e then [{ cfgBeat (bankBeat e.bankCell base) 2 e.cs.op.round with poison := bankPoisoned e.bankCell base }]
  else
    let lo := (bankBeat e.bankCell base).toNat
    let field := lo / 2 ^ 128 % 2 ^ 64
    let lo1 := lo - field * 2 ^ 128 + (field + patch) % 2 ^ 64 * 2 ^ 128
    [{ cfgBeat (BitVec.ofNat 256 lo1) 0 e.cs.op.round with poison := pois || bankPoisoned e.bankCell base },
     { cfgBeat (bankBeat e.bankCell (base + 1)) 1 e.cs.op.round with poison := bankPoisoned e.bankCell (base + 1) }]

/-- A staging node: every block that this SPBSEND names is a HASH (R364). -/
def spbStaging (e : Env) : Bool :=
  (List.range (bitsOf (immNat e.w) 11 4 + 1)).all fun k =>
    (bankBeat e.bankCell (bitsOf (immNat e.w) 0 11 + 2 * k)).toNat % 256 == 0x06

/-- SPBSEND (R221). Without port a it is a source: once per tile, then EOI; a cut stops it (R339). -/
def execSpbsend (w : NodeWord) (s : State) : Host.Outcome State Fault Refusal :=
  let n := bitsOf (immNat w) 11 4 + 1
  let ports := srcPort w.srcA
  statefulRun w s ports fun e =>
    match ports with
    | [] =>
      match e.rg.sourceOpen (spbStaging e) with
      | some inv =>
        if e.cs.op.eoi then .stall
        else if e.cs.op.cnt < inv.entry.tiles then
          let out := ((List.range n).map (spbBeats e 0 false)).flatten
          e.fireData out out fun e1 =>
            ((e1.issued e.cs.op.cnt).setOp fun o => { o with cnt := o.cnt + 1 }).fired
        else
          let m := markBeat 2 e.cs.op.round 0
          e.fireBoth [m] fun e1 => ((e1.setOp fun o => { o with eoi := true }).statAt m).noteRound m
      | none => .stall
    | a :: _ =>
      match e.head a with
      | none => .stall
      | some d =>
        if d.isData then
          let patch := if bitsOf w.aux.toNat 0 1 = 1 then d.pay.toNat % 2 ^ 64 else 0
          let pois := d.poison && bitsOf w.aux.toNat 0 1 == 1
          let out := ((List.range n).map (spbBeats e patch pois)).flatten
          e.fireData out out fun e1 => (e1.consume a).fired
        else e.defaultTokens [a]

/-- FENCE (R220): every bank access of an earlier firing has performed, so the token passes. -/
def execFence (w : NodeWord) (s : State) : Host.Outcome State Fault Refusal :=
  let a := portA w
  statefulRun w s [a] fun e =>
    match e.head a with
    | none => .stall
    | some d =>
      if d.isData then e.fireData [d] [d] fun e1 => (e1.consume a).fired
      else e.defaultTokens [a]

end Sys2Proof.Machine
end

