-- ==== Sys2Proof/Machine/Fabric.lean ====
section
/-! DEFINITION. Fabric events: tokens at default nodes (R89, R90), matching (R113), latches and converters (R85, R94),
distributors and merges (R320, R321), free slots (R86), RETYPE (R95), bridges (R96 to R98) and statistics tokens (R143). -/

namespace Sys2Proof.Machine

/-! ### NODE_TOKEN_FIRE and MATCH_DISCARD -/

/-- The ports of an op that handles non-DATA heads as a default node in NODE_TOKEN_FIRE; the other ops handle theirs in
their own firing rule (R88). -/
def defaultPorts (i : Instr) : Option (NodeWord × List Nat) :=
  match i with
  | .iadd w | .isub w | .imul w | .imulh w | .imad w | .ineg w | .iabs w | .imin w | .imax w | .icmp w
  | .and w | .or w | .xor w | .andn w | .not w | .shl w | .shr w | .sar w | .rotl w | .clz w | .popc w | .sel w
  | .fadd w | .fsub w | .fmul w | .ffma w | .fneg w | .fabs w | .fmin w | .fmax w | .fcmp w | .frcp w | .frsq w
  | .fsqrt w | .fexp2 w | .flog2 w | .fscale w
  | .bcast w | .shuf w | .slide w | .pack w | .unpack w | .laneid w | .hsum w | .hmax w | .hmin w => some (w, srcPorts w)
  | .cvt w => if fmtCount w.fmt ≤ fmtCount (fmt2 w) then some (w, [portA w]) else none
  | .steer w | .gate w => some (w, [portA w, portB w])
  | .fork w | .dist w | .rate w | .ver w | .sysid w | .nop w => some (w, [portA w])
  | _ => none

/-- The node of a unit: its instruction, when its word decodes. -/
def nodeInstr (rg : Region) (u : UnitId) : Option Instr :=
  let b := nodeBits rg.plane u.off u.ctx
  nodeOfOpc (b.toNat / 2 ^ 63) (NodeWord.ofBits b)

/-- A default node that may fire: its instruction, the ports that it reads, and its environment. -/
def defaultNode (s : State) (u : UnitId) : Option (Instr × List Nat × Env) := do
  let i ← nodeInstr (← regionAt s u.reg) u
  let x ← defaultPorts i
  let e ← nodeEnv s u x.1
  pure (i, x.2, e)

/-- DIST starts its cycle again at a closing marker (R202). -/
def afterToken (i : Instr) (closing : Bool) (e : Env) : Env :=
  match i with
  | .dist _ => if closing then e.setOp fun o => { o with turn := 0 } else e
  | _ => e

/-- A beat at the predicate port of a STEER ends its wait (R200). -/
def awakeNode (i : Option Instr) (e : Env) : Env :=
  match i with
  | some (.steer w) => e.awake (portB w)
  | _ => e

/-- What a default node does with its non-DATA heads: R89, once a STEER has resolved its window (R200). -/
def tokenFire (i : Instr) (ps : List Nat) (e : Env) : Fire :=
  (awakeNode (some i) e).attempt ps [] false fun e =>
    if !e.cs.op.held.isEmpty then .stall
    else
      match e.defaultTokens ps with
      | .ok e1 => .ok (afterToken i (ps.any fun p => (e.head p).any Beat.isClosing) e1)
      | f => f

/-- NODE_TOKEN_FIRE (R89, R90, R141, R142). -/
def execNodeTokenFire (u : UnitId) (s : State) : Host.Outcome State Fault Refusal :=
  match defaultNode s u with
  | none => .next s
  | some (i, ps, e) => .next (applyFire s u (tokenFire i ps e))

/-- Matching on the heads of a pair (R113). -/
def matchFire (p q : Nat) (e : Env) : Fire :=
  if !(e.matched p && e.matched q) then .stall
  else
    match [p, q].find? fun x => e.checkPort x false != .fine with
    | some x =>
      match e.checkPort x false with
      | .bad c k => .bad e c k x (e.head x) 0
      | .ignore => .quiet (e.consume x) false
      | _ => .stall
    | none =>
      match e.head p, e.head q with
      | some x, some y =>
        if x.isData && y.isData then
          if x.ctl < y.ctl then .quiet (e.consume p) false
          else if y.ctl < x.ctl then .quiet (e.consume q) false
          else .stall
        else if x.isData && y.isStop then .quiet (e.consume p) false
        else if x.isStop && y.isData then .quiet (e.consume q) false
        else if x.isStop && y.isStop && x.level != y.level then .bad e clsMalformed 0x03 p (some x) y.pay
        else .stall
      | _, _ => .stall

/-- MATCH_DISCARD (R113) at the pair (A,B), or (C,D). -/
def execMatchDiscard (u : UnitId) (cd : Bool) (s : State) : Host.Outcome State Fault Refusal :=
  match regionAt s u.reg with
  | none => .next s
  | some rg =>
    match nodeEnv s u (NodeWord.ofBits (nodeBits rg.plane u.off u.ctx)) with
    | none => .next s
    | some e0 =>
      let e := awakeNode (nodeInstr rg u) e0
      .next (applyFire s u (if cd then matchFire 2 3 e else matchFire 0 1 e))

/-! ### LATCH_ADVANCE -/

/-- The beat that stands before latch k, and the link without it: the far buffer of a crossing at k, the pipe, or the latch
before. -/
def Link.before (l : Link) (k : Nat) : Option (Beat × Link) :=
  match (List.range l.crossings.length).reverse.find? fun i => (l.crossings.getD i default).at_ == k with
  | some i =>
    match (l.crossings.getD i default).far with
    | b :: t => some (b, { l with crossings := lmod l.crossings i fun x => { x with far := t, ret := x.ret + 1 } })
    | [] => none
  | none =>
    if k = 0 then
      match l.pipe with
      | b :: t => some (b, { l with pipe := t })
      | [] => none
    else
      match l.lat.getD (k - 1) none with
      | some b => some (b, { l with lat := lmod l.lat (k - 1) fun _ => none })
      | none => none

/-- Move a beat into latch k if it is empty. -/
def Link.step (l : Link) (k : Nat) : Link :=
  match l.lat.getD k (some default), l.before k with
  | none, some (b, l1) => { l1 with lat := lmod l1.lat k fun _ => some b }
  | _, _ => l

/-- A legal pair of R93, or one that a RETYPE may install; a RAW side takes the width of the other (R119). -/
def pairLegal (a b : Fmt) : Bool :=
  a == b || a == .raw || b == .raw || (fmtConvertible a && fmtConvertible b)

/-- The format of a RETYPE payload (R95). -/
def retypeFmt (b : Beat) : Fmt := Fmt.ofCode (BitVec.ofNat 4 (bitsOf b.pay.toNat 8 4))
/-- KF of a RETYPE: keep format, RND and SAT. -/
def retypeKeeps (b : Beat) : Bool := bitsOf b.pay.toNat 12 1 == 1

/-- A RETYPE that passes the switch box installs the new conversion (R95). None: the pair is illegal. -/
def Link.retypePass (l : Link) (b : Beat) : Option Link :=
  if !(b.isCfg && b.level == 3 && !b.poison) || retypeKeeps b then some l
  else if pairLegal l.fmtS (retypeFmt b) then
    some { l with fmtD := retypeFmt b, rnd := Rnd.ofCode (BitVec.ofNat 2 (bitsOf b.pay.toNat 13 2)),
                  sat := bitsOf b.pay.toNat 15 1 == 1 }
  else none

/-- The outcome of one step in a switch box. -/
inductive BoxStep where
  | fine (l : Link) (toks : List StatTok)
  /-- A RETYPE to an illegal pair (R95). -/
  | illegal (b : Beat)
  deriving Repr

/-- The counts of a converter, kept only with a tap (R139). -/
def Link.addCounts (l : Link) (c : Counts) : Link :=
  match l.tap with
  | none => l
  | some _ => let n := countAdd l.cnt c; { l with cnt := n, ovf := l.ovf || countFull n }

/-- What a converter sends at a STOP of its level and at EOI (R94, R141). -/
def Link.countsAt (r : RegId) (l : Link) (b : Beat) : Link × List StatTok :=
  match l.tap with
  | some tap =>
    if (b.isStop && b.level.toNat == l.clvl) || b.isEoi then
      ({ l with cnt := {}, ovf := false },
       [{ statToken r l.dst.off (4 + 4 * l.dst.ctx + l.dst.port) tap l.ovf l.cnt with entered := b.isEoi }])
    else (l, [])
  | none => (l, [])

/-- Flush the partial beat of a narrowing converter (R94). -/
def Link.flushPart (l : Link) : Link :=
  if l.part.isEmpty then l
  else
    let (out, c) := convertBeats l.fmtS l.fmtD l.rnd l.sat l.scale l.part
    ({ l with part := [], cvq := l.cvq ++ out }).addCounts c

/-- One token through the converter (R94). -/
def Link.convert (r : RegId) (l : Link) (b : Beat) : BoxStep :=
  if b.isData then
    let held := l.part ++ [b]
    if fmtCount l.fmtS < fmtCount l.fmtD && held.length < fmtCount l.fmtD / fmtCount l.fmtS then
      .fine { l with part := held } []
    else
      let (out, c) := convertBeats l.fmtS l.fmtD l.rnd l.sat l.scale held
      .fine (({ l with part := [], cvq := l.cvq ++ out }).addCounts c) []
  else
    let l1 := l.flushPart
    match l1.retypePass b with
    | none => .illegal b
    | some l2 =>
      let (l3, toks) := l2.countsAt r b
      .fine { l3 with cvq := l3.cvq ++ [b] } toks

/-- A token comes before the converter: held behind an unresolved SPEC beat; an SPR settles those that it owes (R94). Squashed
beats give back the slots they took. DESIGN CHOICE: of a squashed source beat of a narrowing link that is none of its own
slot's first, the spec does not say what it gives back: nothing does (log 124). -/
def Link.arrive (r : RegId) (l : Link) (b : Beat) : BoxStep :=
  if l.cvin.isEmpty && !(b.spec && !b.isMark) then l.convert r b
  else if b.isSpr then
    let gone := if b.pay.getLsbD 0 then [] else l.cvin.filter b.owes
    let back := (gone.map fun x => (l.cost 1 x).1).foldl (· + ·) 0
    .fine { l with cvin := settle b l.cvin ++ [b], ret := l.ret + back, tokens := l.tokens + gone.length } []
  else .fine { l with cvin := l.cvin ++ [b] } []

/-- The step into the last latch of a link with a converter there: a converted beat leaves, else one token enters. -/
def Link.convStep (r : RegId) (l : Link) : BoxStep :=
  let k := l.lat.length - 1
  match l.cvq with
  | b :: t =>
    match l.lat.getD k none with
    | none => .fine { l with cvq := t, lat := lmod l.lat k fun _ => some b } []
    | some _ => .fine l []
  | [] =>
    match l.cvin with
    | b :: t =>
      if b.spec && !b.isMark then
        match l.before k with
        | some (x, l1) => l1.arrive r x
        | none => .fine l []
      else ({ l with cvin := t }).convert r b
    | [] =>
      match l.before k with
      | some (x, l1) => l1.arrive r x
      | none => .fine l []

/-- Something of the converter is in use, or the link converts. -/
def Link.boxBusy (l : Link) : Bool := l.converts || !(l.cvin.isEmpty && l.part.isEmpty && l.cvq.isEmpty)

/-- The step into latch k, short of the queue: into the last latch it passes the switch box of the converter, which may have counts to
send even when it no longer converts (R95, R141). -/
def Link.latchStep (r : RegId) (l : Link) (k : Nat) : BoxStep :=
  if k + 1 = l.lat.length && !l.dst.hard then
    if l.boxBusy then l.convStep r
    else
      match l.lat.getD k (some default), l.before k with
      | none, some (b, l1) =>
        match l1.retypePass b with
        | none => .illegal b
        | some l2 =>
          let (l3, toks) := l2.countsAt r b
          .fine { l3 with lat := lmod l3.lat k fun _ => some b } toks
      | _, _ => .fine l []
  else .fine (l.step k) []

/-- Into the destination queue, when it has room. -/
def Link.enqueue (l : Link) : Link :=
  if l.zeroSlot || l.lat.isEmpty && l.crossings.isEmpty then l
  else
    match l.before l.lat.length with
    | some (b, l1) => if l.queue.length < l.cap then { l1 with queue := l1.queue ++ [b] } else l
    | none => l

/-- Latches that a distributor and a merge add to a link's route (R320). -/
def Link.extra (l : Link) : Nat := (if l.dist.isEmpty then 0 else 1) + (if l.merge.isEmpty then 0 else if l.combining then 2 else 1)

/-- A distributor takes the beat of its last latch: DATA to the copy in turn, other tokens to every copy (R320). -/
def Region.distribute (rg : Region) (k : Nat) (l : Link) : Region :=
  match l.before l.lat.length with
  | none => rg
  | some (b, l1) =>
    let taken := { (l1.note b) with tokens := l1.tokens + 1, ret := if l.zeroSlot then l1.ret else l1.ret + 1,
                                    refill := l1.refill || (b.isCfg && b.level == 3) }
    let ok (j : Nat) : Bool := ((rg.linkAt j).map fun x => x.canTake [b]).getD false
    if b.isData then
      let j := l.dist.getD (l.distTurn % l.dist.length) 0
      if ok j then
        (rg.modLink j fun x => x.emit [b]).modLink k fun _ => { taken with distTurn := (l.distTurn + 1) % l.dist.length }
      else rg
    else if l.dist.all ok then
      (l.dist.foldl (fun r j => r.modLink j fun x => x.emit [b]) rg).modLink k fun _ => { taken with distTurn := 0 }
    else rg

/-- The COMB of a REDUCIBLE node on two elements (R160, R321). -/
def combine (w : NodeWord) (comb a b : Nat) : Nat :=
  match comb with
  | 0 | 6 => (addOnce w a b).1.code
  | 1 => elemPick (fmtElem w.fmt) true a b
  | 2 => elemPick (fmtElem w.fmt) false a b
  | 3 => a &&& b
  | 4 => a ||| b
  | _ => a ^^^ b

/-- Two beats lane by lane, a lane with VALID clear absent (R321). -/
def combineBeats (w : NodeWord) (comb : Nat) (x y : Beat) : Beat :=
  let wd := fmtWidth w.fmt
  let els := (List.range (256 / wd)).map fun i =>
    match (beatElems wd x).getD i none, (beatElems wd y).getD i none with
    | some a, some b => some (combine w comb a b)
    | some a, none => some a
    | none, o => o
  { beatOfElems wd els x (x.poison || y.poison) with spec := x.spec || y.spec, tag := 0 }

/-- The DATA beat that a combining merge makes of the DATA heads. -/
def combineAll (w : NodeWord) (comb : Nat) : List Beat → Option Beat
  | [] => none
  | b :: t => some (t.foldl (combineBeats w comb) b)

/-- Take the heads of some copies' output links. -/
def Region.takeHeads (rg : Region) (js : List Nat) : Region := js.foldl (fun r j => r.modLink j Link.consume) rg

/-- What a merge does: nothing, a region with the beat passed on, or a fault (R201, R320, R321). -/
inductive MergeStep where
  | wait
  | pass (rg : Region)
  | clash (cls sub : Nat) (b : Beat)
  deriving Repr

/-- The non-DATA heads of all copies, under R89. -/
def Region.mergeTokens (rg : Region) (k : Nat) (l : Link) (heads : List (Option Beat)) : MergeStep :=
  match tokensAgree heads with
  | .waiting => .wait
  | .clash c e => .clash c e ((heads.filterMap fun x => x).headD default)
  | .agreed b =>
    if l.canTake [b] then .pass ((rg.takeHeads l.merge).modLink k fun x => { x.emit [b] with mergeTurn := 0 })
    else .pass (rg.blockLink k)

/-- A merge, or a combining merge, takes from the copies' output links; it holds a token when the link behind it takes none
(R310). -/
def Region.mergeStep (rg : Region) (k : Nat) (l : Link) (w : NodeWord) (comb : Nat) : MergeStep :=
  let heads := l.merge.map fun j => (rg.linkAt j).bind fun x => x.heads.head?
  if l.combining then
    if heads.any Option.isNone then .wait
    else
      let js := l.merge.filter fun j => (((rg.linkAt j).bind fun x => x.heads.head?).any Beat.isData)
      match combineAll w comb ((heads.filterMap fun x => x).filter Beat.isData) with
      | some b =>
        if l.canTake [b] then .pass ((rg.takeHeads js).modLink k fun x => x.emit [b]) else .pass (rg.blockLink k)
      | none => rg.mergeTokens k l heads
  else
    let c := l.mergeTurn / l.mergeN % l.merge.length
    match heads.getD c none with
    | none => .wait
    | some b =>
      if b.isData then
        if l.canTake [b] then
          .pass ((rg.takeHeads [l.merge.getD c 0]).modLink k fun x =>
            { x.emit [b] with mergeTurn := (l.mergeTurn + 1) % (l.mergeN * l.merge.length) })
        else .pass (rg.blockLink k)
      else rg.mergeTokens k l heads

/-- The round open at a link's destination (Table 17-3, R91): of the node's context, of the stream port's port, of the engine. -/
def destRound (rg : Region) (l : Link) : Nat :=
  if !l.dst.hard then (ctxAt (cellAt rg l.dst.off) l.dst.ctx).op.round
  else if l.dst.far then l.round
  else if rg.blockIsSp l.dst.off then l.round
  else ((meAt rg l.dst.off).map (·.round)).getD 0

/-- A fault of a beat on a link, reported at the unit at its destination. -/
def linkFault (rg : Region) (l : Link) (cls sub : Nat) (b : Beat) : FaultInfo :=
  let at_ := if l.dst.far then (0, l.dst.port - 8) else (l.dst.ctx, l.dst.port)
  { cls := cls, sub := sub, off := l.dst.off, ctx := at_.1, port := at_.2, unit := rg.endKind l.dst, tok := some b, partner := 0,
    round := destRound rg l }

/-- LATCH_ADVANCE k of a link (R85): k is the latch a beat moves into, and k = L the queue (or the distributor). Where a merge
stands before the route, k = 0 also takes a beat through it. -/
def execLatchAdvance (r : RegId) (link k : Nat) (s : State) : Host.Outcome State Fault Refusal :=
  match regionAt s r with
  | none => .next s
  | some rg =>
    match rg.linkAt link with
    | none => .next s
    | some l =>
      if !rg.running || !l.live then .next s
      else if k = l.lat.length then
        if l.dist.isEmpty then .next (setRegion s (rg.modLink link fun _ => l.enqueue))
        else .next (setRegion s (rg.distribute link l))
      else if l.lat.length < k then .next s
      else if k = 0 && l.pipe.isEmpty && !l.merge.isEmpty then
        let home := ((rg.linkAt (l.merge.headD 0)).map (·.src)).getD default
        let w := NodeWord.ofBits (nodeBits rg.plane home.off home.ctx)
        match rg.mergeStep link l w (bitsOf (planeField rg.plane home.off (72 + 2 * home.ctx)) 19 3) with
        | .wait => .next s
        | .pass rg1 => .next (setRegion s rg1)
        | .clash c e b => .next (raiseFault s r (linkFault rg l c e b))
      else
        match l.latchStep r k with
        | .fine l1 toks => .next (statSend (setRegion s (rg.modLink link fun _ => l1)) toks)
        | .illegal b => .next (raiseFault s r (linkFault rg l clsCfg 0x32 b))

/-! ### FREE_SLOT_RETURN and RETYPE_APPLY -/

/-- FREE_SLOT_RETURN (R86): one freed slot reaches the producer, or the new count after a RETYPE (R95). -/
def execFreeSlotReturn (r : RegId) (link : Nat) (s : State) : Host.Outcome State Fault Refusal :=
  match regionAt s r with
  | none => .next s
  | some rg =>
    match rg.linkAt link with
    | none => .next s
    | some l =>
      if !rg.running then .next s
      else if l.refill then
        .next (setRegion s (rg.modLink link fun l =>
          { l with refill := false, held := false, ret := 0, free := ((l.cap + l.share : Nat) : Int), nph := 0 }))
      else if l.ret = 0 then .next s
      else .next (setRegion s (rg.modLink link fun l => { l with ret := l.ret - 1, free := l.free + 1 }))

/-- The slots of all links into a cell but one (R86). -/
def Region.poolUse (rg : Region) (o : Offset) (but : Nat) : Nat :=
  ((List.range rg.links.length).map fun j =>
    match rg.linkAt j with
    | some l => if j != but && l.live && l.dist.isEmpty && !l.dst.hard && decide (l.dst.port < 4) && l.dst.off == o then l.slots else 0
    | none => 0).foldl (· + ·) 0

/-- The port applies a RETYPE (R95); on a local link, which has no switch box, the port takes the formats too. -/
def retypeFire (p : Nat) (e : Env) : Fire :=
  match e.head p, e.rg.inLink e.off false e.ctx p with
  | some b, some j =>
    match e.checkPort p false with
    | .bad c k => .bad e c k p (some b) 0
    | _ =>
      if !b.isCfg then .stall
      else if b.spec then
        match resolveSpec (e.heads p) with
        | some q => .quiet (e.requeue p q) false
        | none => .stall
      else
        let v := b.pay.toNat
        let keep := bitsOf v 5 1 == 1
        let n := bitsOf v 0 5
        match e.rg.linkAt j with
        | none => .stall
        | some l =>
          if v / 2 ^ 16 ≠ 0 ∨ bitsOf v 6 2 ≠ 0 ∨ (!keep && (n == 0 || decide (64 < e.rg.poolUse e.off j + n))) then
            .bad e clsCfg 0x31 p (some b) 0
          else
            match (if l.lat.isEmpty then l.retypePass b else some l) with
            | none => .bad e clsCfg 0x32 p (some b) 0
            | some l1 =>
              if l1.lat.isEmpty && l1.converts then .bad e clsCfg 0x32 p (some b) 0
              else
                let slots := if keep then l.slots else n
                let f (_ : Link) : Link :=
                  let l2 := l1.consume
                  let xs := l2.crossings.map fun x => { x with allow := slots + x.share, ret := 0 }
                  { l2 with slots := slots, refill := true, ret := 0, crossings := xs }
                .quiet { e with rg := e.rg.modLink j f } false
  | _, _ => .stall

/-- RETYPE_APPLY (R95). -/
def execRetypeApply (u : UnitId) (port : Nat) (s : State) : Host.Outcome State Fault Refusal :=
  match regionAt s u.reg with
  | none => .next s
  | some rg =>
    match nodeEnv s u (NodeWord.ofBits (nodeBits rg.plane u.off u.ctx)) with
    | none => .next s
    | some e => .next (applyFire s u (retypeFire port e))

/-! ### Bridges (R96 to R98) -/

/-- The index of a link's crossing in a bridge direction. -/
def Link.crossIx (l : Link) (dir : Nat) : Option Nat := l.crossings.findIdx? fun x => x.dir == dir

/-- The beat that waits to cross: that of the far buffer before when two crossings follow one another, else that of the
latch. -/
def Link.atBridge (l : Link) (i : Nat) : Option (Beat × Link) :=
  let x := l.crossings.getD i default
  if i ≠ 0 ∧ (l.crossings.getD (i - 1) default).at_ = x.at_ then
    match (l.crossings.getD (i - 1) default).far with
    | b :: t => some (b, { l with crossings := lmod l.crossings (i - 1) fun y => { y with far := t, ret := y.ret + 1 } })
    | [] => none
  else if x.at_ = 0 then
    match l.pipe with
    | b :: t => some (b, { l with pipe := t })
    | [] => none
  else
    match l.lat.getD (x.at_ - 1) none with
    | some b => some (b, { l with lat := lmod l.lat (x.at_ - 1) fun _ => none })
    | none => none

/-- The 288 bits of a beat as a flit carries it: the payload, then the sideband (R78, R386). -/
def Beat.flit (b : Beat) : BitVec 288 := b.side ++ b.pay

/-- The beat of a flit's 288 bits. -/
def Beat.ofFlit (x : BitVec 288) : Beat :=
  let v := x.toNat / 2 ^ 256
  { pay := BitVec.ofNat 256 x.toNat, kind := Kind.ofCode (bitsOf v 30 2), level := BitVec.ofNat 3 (bitsOf v 27 3),
    round := BitVec.ofNat 3 (bitsOf v 24 3), poison := bitsOf v 23 1 == 1, spec := bitsOf v 22 1 == 1,
    valid := BitVec.ofNat 8 (bitsOf v 14 8), tag := BitVec.ofNat 14 (bitsOf v 0 14) }

/-- A region with one link changed. -/
def modLinkOf (s : State) (r : RegId) (j : Nat) (f : Link → Link) : State :=
  match regionAt s r with
  | some rg => setRegion s (rg.modLink j f)
  | none => s

/-- The circuits of a direction: region, link, crossing, in circuit-number order. -/
def circuits (s : State) (dir : Nat) : List (RegId × Nat × Nat × Nat) :=
  let all := (s.regions.map fun rg => ((List.range rg.links.length).filterMap fun j =>
    match rg.linkAt j with
    | some l => if l.live then (l.crossIx dir).map fun i => (rg.id, j, i, (l.crossings.getD i default).circ) else none
    | none => none)).flatten
  (List.range 1024).filterMap fun c => all.find? fun x => x.2.2.2 == c

/-- A SPEC beat that an SPR has still to settle. -/
def Beat.open_ (b : Beat) : Bool := b.spec && !b.isMark

/-- The beat that may leave on a crossing, and the link without it. Out of the module goes no SPEC beat: the egress holds those that have
come, with what stands behind them (R277). -/
def Link.leaving (l : Link) (i : Nat) : Option (Beat × Link) :=
  if (l.crossings.getD i default).dir < 8 then l.atBridge i
  else
    match l.cvin with
    | b :: t => if b.open_ then none else some (b, { l with cvin := t })
    | [] => (l.atBridge i).filter fun x => !x.1.open_

/-- The egress takes a beat into its hold: a SPEC beat, or one behind it; an SPR settles those that it owes, and the squashed ones give
their slots back (R81, R277). -/
def Link.hold (l : Link) (i : Nat) : Link :=
  match l.atBridge i with
  | none => l
  | some (b, l1) =>
    if !(match l.cvin with | h :: _ => h.open_ | [] => b.open_) then l
    else
      let gone := if b.isSpr && !b.pay.getLsbD 0 then l.cvin.filter b.owes else []
      let back := (gone.map fun x => (l.cost 1 x).1).foldl (· + ·) 0
      { l1 with cvin := (if b.isSpr then settle b l.cvin else l.cvin) ++ [b], ret := l1.ret + back, tokens := l1.tokens + gone.length }

/-- The circuit can send: its region runs, the egress has not raised a fault, and it holds a beat and allowance. -/
def canSend (s : State) (x : RegId × Nat × Nat × Nat) : Bool :=
  match regionAt s x.1 with
  | some rg =>
    match rg.linkAt x.2.1 with
    | some l =>
      let y := l.crossings.getD x.2.2.1 default
      rg.running && decide (0 < y.allow) && !(decide (8 ≤ y.dir) && rg.isHalted 3 l.dst.off 0) && (l.leaving x.2.2.1).isSome
    | none => false
  | none => false

/-- The retry buffer (R98). -/
def retryCap : Nat := 512

def bridgeAt (s : State) (d : Nat) : Bridge := s.bridges.getD d {}
def setBridge (s : State) (d : Nat) (b : Bridge) : State := { s with bridges := lmod s.bridges d fun _ => b }

/-- The circuit whose turn it is: its region, link and number, the link without the beat, and the beat. -/
def nextSend (s : State) (dir turn : Nat) : Option (RegId × Nat × Nat × Link × Beat) :=
  let cs := (circuits s dir).filter (canSend s)
  match (cs.find? fun x => decide (turn ≤ x.2.2.2)).or cs.head? with
  | none => none
  | some (r, j, i, circ) =>
    ((((regionAt s r).bind fun rg => rg.linkAt j).bind fun l => l.leaving i)).map fun x =>
      (r, j, circ, { x.2 with crossings := lmod x.2.crossings i fun y => { y with allow := y.allow - 1 } }, x.1)

/-- A flit on a bridge direction (R96 to R98). -/
def sendBridge (s : State) (dir : Nat) : State :=
  let b := bridgeAt s dir
  if b.stopped || decide (retryCap ≤ b.retry.length) then s
  else
    match nextSend s dir b.turn with
    | none => s
    | some (r, j, circ, l, x) =>
      let f : BridgeFlit := { reg := r, link := j, seq := b.sendSeq, beat := x }
      setBridge (modLinkOf s r j fun _ => l) dir
        { b with retry := b.retry ++ [f], wire := b.wire ++ [f], sendSeq := (b.sendSeq + 1) % 65536, turn := circ + 1 }

/-- Every circuit of a Slaundene port takes a beat that may not leave yet into its hold. -/
def holdBeats (s : State) (port : Nat) : State :=
  (circuits s (8 + port)).foldl (fun t x =>
    if ((regionAt t x.1).map (·.running)).getD false then modLinkOf t x.1 x.2.1 fun l => l.hold x.2.2.1 else t) s

/-- The fault of a poisoned beat at an egress under PTRAP (R20, R360). -/
def egressFault (s : State) (r : RegId) (j : Nat) (x : Beat) : Option (FaultInfo) :=
  match regionAt s r with
  | some rg => if x.poison && rg.ptrap then (rg.linkAt j).map fun l => linkFault rg l clsPoison 0x01 x else none
  | none => none

/-- A circuit beat on a Slaundene port (R96, R386); under PTRAP a poisoned one faults and stays (R360). A DRN has reached the sink that
the port is (R357). -/
def sendPortBeat (s0 : State) (port : Nat) : State :=
  let s := holdBeats s0 port
  match s.sports[port]? with
  | none => s
  | some p =>
    if p.stopped || decide (retryCap ≤ p.outgoing.length) then s
    else
      match nextSend s (8 + port) p.turn with
      | none => s
      | some (r, j, circ, l, x) =>
        match egressFault s r j x with
        | some fi => raiseFault s r fi
        | none =>
        let s1 := modLinkOf s r j fun _ => { l with drn := l.drn || x.isDrn }
        { s1 with sports := lmod s1.sports port fun y => sendFlits { y with turn := circ + 1 } 0 (BitVec.ofNat 12 circ) [x.flit] }

/-- BRIDGE_SEND (R96, R97): one flit, round-robin among circuits that hold a beat and allowance. Direction 8 + k is Slaundene port k,
whose circuits follow the same rules. -/
def execBridgeSend (dir : Nat) (s : State) : Host.Outcome State Fault Refusal :=
  .next (if dir < 8 then sendBridge s dir else sendPortBeat s (dir - 8))

/-- The allowance that a bridge's far side gave back. -/
def Link.allowBack (l : Link) (i : Nat) : Link :=
  { l with crossings := lmod l.crossings i fun y => if y.ret = 0 then y else { y with ret := y.ret - 1, allow := y.allow + 1 } }

/-- What a link gives back over a Slaundene circuit: an allowance, else a slot that its destination has freed. -/
def Link.farReturn (l : Link) (i : Nat) : Option (Nat × Link) :=
  if 0 < (l.crossings.getD i default).ret then
    some (1, { l with crossings := lmod l.crossings i fun y => { y with ret := y.ret - 1 } })
  else if l.src.far && decide (0 < l.free) then some (2, { l with free := l.free - 1 })
  else none

/-- ALLOWANCE_RETURN (R97): an allowance that the far side gave back reaches the sender; over a Slaundene port it goes as a credit flit. -/
def execAllowanceReturn (r : RegId) (link dir : Nat) (s : State) : Host.Outcome State Fault Refusal :=
  match regionAt s r with
  | none => .next s
  | some rg =>
    match (rg.linkAt link).bind fun l => (l.crossIx dir).map fun i => (l, i) with
    | none => .next s
    | some (l, i) =>
      if dir < 8 then
        .next (setRegion s (rg.modLink link fun l => l.allowBack i))
      else
        match l.farReturn i with
        | none => .next s
        | some (v, l1) =>
          let s1 := setRegion s (rg.modLink link fun _ => l1)
          let circ := (l.crossings.getD i default).circ
          .next { s1 with sports := lmod s1.sports (dir - 8) fun p => sendFlits p 3 (BitVec.ofNat 12 circ) [BitVec.ofNat 288 v] }

/-- Every region with a circuit on a bridge direction or a Slaundene port. -/
def onBridge (s : State) (dir : Nat) : List RegId :=
  (s.regions.filter fun rg => rg.links.any fun l => l.live && (l.crossIx dir).isSome).map (·.id)

/-- A fault at a bridge or link port of a region (R98, R386). -/
def bridgeFault (sub port : Nat) : FaultInfo :=
  { cls := clsLink, sub := sub, off := ⟨0, 0⟩, ctx := 0, port := port, unit := 3, tok := none, partner := 0, round := 0 }

/-- FLIT_RECEIVE (R98, R99): the flit is taken, or refused; the eighth refusal of one flit stops the direction. -/
def execFlitReceive (dir : Nat) (good : Bool) (s : State) : Host.Outcome State Fault Refusal :=
  let b := bridgeAt s dir
  match b.wire with
  | [] => .next s
  | f :: rest =>
    if b.stopped then .next s
    else if good && f.seq == b.recvSeq then
      let b1 := { b with wire := rest, retry := b.retry.drop 1, recvSeq := (b.recvSeq + 1) % 65536, refused := 0 }
      let s1 := setBridge s dir b1
      match regionAt s1 f.reg with
      | none => .next s1
      | some rg =>
        .next (setRegion s1 (rg.modLink f.link fun l =>
          match l.crossIx dir with
          | none => l
          | some i => { l with crossings := lmod l.crossings i fun y => { y with far := y.far ++ [f.beat] } }))
    else
      let n := if f.seq == b.recvSeq then b.refused + 1 else b.refused
      let s1 := setBridge s dir { b with wire := rest, refused := n, stopped := decide (8 ≤ n),
                                          faulted := if 8 ≤ n then onBridge s dir else [] }
      if 8 ≤ n then .next ((onBridge s1 dir).foldl (fun s r => raiseFault s r (bridgeFault 0x01 dir)) s1)
      else .next s1

/-- FLIT_REPLAY (R98): everything that is not acknowledged is sent again, in order; direction 8 + k is Slaundene port k, where the
refusal happens in the other module (R386). -/
def execFlitReplay (dir : Nat) (s : State) : Host.Outcome State Fault Refusal :=
  if 8 ≤ dir then
    .next { s with sports := lmod s.sports (dir - 8) fun p => if p.stopped then p else { p with wire := p.wire ++ p.outgoing } }
  else
  let b := bridgeAt s dir
  if b.stopped || b.retry.isEmpty || !b.wire.isEmpty then .next s
  else .next (setBridge s dir { b with wire := b.retry, retries := b.retries + 1 })

/-! ### Statistics (R143) -/

/-- Add to a sum word, saturating; true: saturated. -/
def satAdd32 (x : Word) (n : Nat) : Word × Bool :=
  if x.toNat + n < 2 ^ 32 then (BitVec.ofNat 32 (x.toNat + n), false) else (BitVec.allOnes 32, true)

/-- Add to word k of sum t of a partition; a saturated word sets STATOVF of the tap. -/
def addSum (p : Part) (t k n : Nat) : Part :=
  let key := 4 * t + k
  let (v, o) := satAdd32 (agetD p.statSum key 0) n
  let p1 := { p with statSum := if v = 0 then adel p.statSum key else aset p.statSum key v }
  if o then { p1 with statOvf := p1.statOvf ||| ((1 : BitVec 256) <<< t) } else p1

/-- A token joins the sums (R143). -/
def addToken (p : Part) (k : StatTok) : Part :=
  let t := if k.isValue then (k.tap + k.bin) % 256 else k.tap
  let p1 := if k.isValue then addSum p t 0 k.value
    else addSum (addSum (addSum (addSum p t 0 k.cnt.inex) t 1 k.cnt.satc) t 2 k.cnt.ufz) t 3 k.cnt.nanp
  if k.ovf then { p1 with statOvf := p1.statOvf ||| ((1 : BitVec 256) <<< t) } else p1

/-- STAT_TOKEN_ADD (R141, R143): token k enters the lane, or from the lane joins its partition's sums. -/
def execStatTokenAdd (k : Nat) (s : State) : Host.Outcome State Fault Refusal :=
  match s.statLane[k]? with
  | none => .next s
  | some t =>
    let s1 := { s with statLane := if t.entered then s.statLane.eraseIdx k else s.statLane.set k { t with entered := true } }
    if !t.entered then .next s1
    else .next (setPart s1 t.part (addToken (partAt s1 t.part) t))

end Sys2Proof.Machine
end

