-- ==== Sys2Proof/Machine/NodeCheck.lean ====
section
/-! DEFINITION. The load checks of one node context (R152, R158, R173 to R177, R194 to R196, R230, R234, R319): what each
opcode accepts, as one table of shapes, and the check of a context against its shape. -/

namespace Sys2Proof.Machine

/-- The formats that a port may carry. -/
inductive PortNeed where
  | any
  /-- A control port: N32, I32 or CRD (R196). -/
  | ctl
  | exact (f : Fmt)
  deriving DecidableEq, Repr, Inhabited

/-- Whether a form names an output. -/
inductive OutNeed where
  | never | may | must
  deriving DecidableEq, Repr, Inhabited

/-- What an opcode accepts in one node word. -/
structure Shape where
  /-- FMT is in the op's list; the pair FMT, FMT2 is legal. -/
  fmtOk : Bool
  pairOk : Bool := true
  /-- The source codes are accepted. -/
  srcOk : Bool
  /-- The ports read, with their formats. -/
  ports : List (Nat × PortNeed)
  outX : OutNeed
  outY : OutNeed
  /-- The result format. -/
  res : Fmt
  /-- No unused field is set, and every used one is in range. -/
  modOk : Bool
  bankErr : Option LoadErr := none
  beats : Nat := 1
  stateless : Bool := false
  /-- What a REDUCIBLE node of this op must name in COMB (R177, R240). -/
  comb : Option Nat := none
  deriving Repr, Inhabited

/-! ### Source codes -/

/-- The port that a source code names. -/
def namedPort : Src → Option Nat
  | .a => some 0 | .b => some 1 | .c => some 2 | .d => some 3 | _ => none

def srcsOf (w : NodeWord) : List Src := [w.srcA, w.srcB, w.srcC]

/-- The first n source codes name ports, the others are 7 (R195). -/
def portsOnly (w : NodeWord) (n : Nat) : Bool :=
  ((srcsOf w).take n).all (fun x => (namedPort x).isSome) && ((srcsOf w).drop n).all (· == .none)

/-- The ports that the given source fields name, with their needs. -/
def namedPorts (w : NodeWord) (needs : List PortNeed) : List (Nat × PortNeed) :=
  ((srcsOf w).zip needs).filterMap fun x => (namedPort x.1).map fun p => (p, x.2)

/-! ### Fields -/

def auxN (w : NodeWord) : Nat := w.aux.toNat
def immN (w : NodeWord) : Nat := w.imm.toNat
def noRnd (w : NodeWord) : Bool := w.rnd == .rne
def noSat (w : NodeWord) : Bool := !w.sat
def noAux (w : NodeWord) : Bool := w.aux == 0
def noImm (w : NodeWord) : Bool := w.imm == 0
/-- No bit of v outside the mask m. -/
def within (v m : Nat) : Bool := v &&& m == v
/-- LA is read by a code 4 or an m[n+lk]; LD is written when DST[44] is 1 (R173, R174). -/
def regsOk (w : NodeWord) : Bool :=
  let la := (srcsOf w).contains .lreg || ((srcsOf w).contains .bank && bitsOf (immN w) 11 1 == 1)
  (la || w.la == 0) && (w.dl || w.ld == 0)

/-- Opcode, node word, and the cell they stand in. -/
structure NodeAt where
  p : Plane
  o : Offset
  c : Nat
  opc : Nat
  w : NodeWord

/-- A scratch segment of the context holds a beat. -/
def NodeAt.scratch (n : NodeAt) (beat : Nat) : Bool := (segHolding n.p n.o 3 n.c beat).isSome
/-- The segment that IMM[2:0] names has a type, and the context owns it. -/
def NodeAt.owns (n : NodeAt) (typ : Nat) : Bool :=
  let d := segDesc n.p n.o (bitsOf (immN n.w) 0 3)
  d.typ == typ && d.ctx == n.c
def ownErr (b : Bool) : Option LoadErr := if b then none else some .bankSegmentNotOwned

/-! ### Chapter 9: compute ops -/

/-- The fields of a compute op: RND and SAT where the table says so, AUX within a mask, IMM as its sources use it. -/
def computeMods (w : NodeWord) (rnd sat : Bool) (auxMask : Nat) (param : Option Bool) : Bool :=
  let ss := srcsOf w
  (rnd || noRnd w) && (sat || noSat w) && within (auxN w) auxMask &&
    (match param with
     | some ok => ok
     | none => if ss.contains .imm then true else if ss.contains .bank then decide (immN w < 2 ^ 12) else noImm w)

/-- A compute op of k sources (R173 to R175): input format, result format, modifiers, beats out. -/
def computeShape (n : NodeAt) (fmtOk : Bool) (inp : PortNeed) (k : Nat) (mods : Bool) (param : Bool) (beats : Nat)
    (stateless : Bool) : Shape :=
  let w := n.w
  let ss := (srcsOf w).take k
  let src := ss.all (· != .none) && ((srcsOf w).drop k).all (· == .none) && ss.any (fun x => (namedPort x).isSome)
    && !(ss.contains .imm && ss.contains .bank) && !(param && (ss.contains .imm || ss.contains .bank))
  { fmtOk := fmtOk, srcOk := src, ports := namedPorts w (List.replicate k inp), outX := .may, outY := .may, res := w.fmt, modOk := mods,
    bankErr := if ss.contains .bank && bitsOf (immN w) 11 1 == 0 then ownErr (n.scratch (bitsOf (immN w) 0 11)) else none,
    beats := beats, stateless := stateless }

/-- Sources and SAT of the ops of Table 9-1, by opcode; the bit ops (AND to NOT, SEL) take BIT formats. -/
def intShapeOf (n : NodeAt) : Shape :=
  let w := n.w
  let k := if [0x005, 0x006, 0x00E, 0x013, 0x014].contains n.opc then 1 else if [0x004, 0x015].contains n.opc then 3 else 2
  let bitOp := [0x00A, 0x00B, 0x00C, 0x00D, 0x00E, 0x015].contains n.opc
  let sat := [0x000, 0x001, 0x002, 0x004, 0x005, 0x006, 0x00F].contains n.opc
  let mods := if n.opc = 0x009 then computeMods w false false 7 none && decide (auxN w ≤ 5) else computeMods w false sat 0 none
  computeShape n (if bitOp then fmtIsBit w.fmt else fmtIsInt w.fmt) (.exact w.fmt) k mods false 1 true

/-- Table 9-2. -/
def fltShapeOf (n : NodeAt) : Shape :=
  let w := n.w
  let k := if [0x044, 0x045, 0x049, 0x04A, 0x04B, 0x04C, 0x04D].contains n.opc then 1 else if n.opc = 0x043 then 3 else 2
  let rounds := ! [0x044, 0x045, 0x046, 0x047, 0x048].contains n.opc
  computeShape n (fmtIsFlt w.fmt) (.exact w.fmt) k
    (computeMods w rounds rounds (if n.opc = 0x048 then 7 else 0) none) false 1 true

/-- FMT2, in AUX[3:0] (R172). -/
def fmt2Of (w : NodeWord) : Fmt := Fmt.ofCode (BitVec.ofNat 4 (auxN w % 16))

/-- A format that QPACK reads and QUNPK writes. -/
def quadPartner (f : Fmt) : Bool := [Fmt.fp32, .bf16, .fp16].contains f

/-- Table 9-4: conversion and lane ops. -/
def laneShapeOf (n : NodeAt) : Shape :=
  let w := n.w
  let f2 := fmt2Of w
  -- a RAW element may be as narrow as the other side of the link on port a (R119): that limit is checked with the links
  let cnt := if w.fmt = .raw then 64 else fmtCount w.fmt
  match n.opc with
  | 0x080 =>
    let r := fmtCount f2 / fmtCount w.fmt
    let s := computeShape n true (.exact f2) 1 (computeMods w true true 15 (some (decide (immN w < 2 ^ 12)))) true (max r 1)
      (decide (fmtCount w.fmt ≤ fmtCount f2))
    { s with pairOk := fmtConvertible w.fmt && fmtConvertible f2 && w.fmt != f2 }
  | 0x081 =>
    let s := computeShape n (fmtQuad w.fmt) (.exact f2) 1 (computeMods w true false 15 none) false (if w.fmt = .e4m3q then 5 else 3) false
    { s with pairOk := quadPartner f2 }
  | 0x082 =>
    let s := computeShape n (quadPartner w.fmt) (.exact f2) 1 (computeMods w true true 15 none) false (fmtCount f2 / fmtCount w.fmt) false
    { s with pairOk := fmtQuad f2 }
  | 0x083 => computeShape n (fmtIsBit w.fmt) (.exact w.fmt) 1 (computeMods w false false 0 (some (decide (immN w < min cnt 64)))) true 1 true
  | 0x085 => computeShape n (fmtIsBit w.fmt) (.exact w.fmt) 2 (computeMods w false false 0 (some (decide (immN w < min cnt 64)))) true 1 true
  | 0x088 => computeShape n (fmtIsInt w.fmt) (.exact w.fmt) 1 (computeMods w false false 0 (some (decide (immN w < 2 ^ fmtWidth w.fmt)))) true 1 true
  | _ => computeShape n (fmtIsBit w.fmt) (.exact w.fmt) 2 (computeMods w false false 0 none) false 1 true

/-- Table 9-5: reduce and accumulate. -/
def redShapeOf (n : NodeAt) : Shape :=
  let w := n.w
  let flt := fmtIsFlt w.fmt
  let ok := fmtIsInt w.fmt || flt
  let sh (inp : PortNeed) (fmtOk rnd sat : Bool) (aux : Nat) (sl : Bool) (comb : Option Nat) : Shape :=
    { computeShape n fmtOk inp 1 (computeMods w rnd sat aux none) false 1 sl with comb := comb }
  match n.opc with
  | 0x0A0 => sh (.exact w.fmt) ok flt true 0 true none
  | 0x0A3 => sh (.exact w.fmt) ok flt true 7 false (some (if flt then 6 else 0))
  | 0x0A4 => sh (.exact w.fmt) ok false false 7 false (some 2)
  | 0x0A5 => sh (.exact w.fmt) ok flt true 7 false none
  | 0x0A6 => sh .any (w.fmt == .n32 || w.fmt == .i32) false true 7 false (some 0)
  | _ => sh (.exact w.fmt) ok false false 0 true none

/-! ### Chapter 10: flow, control tokens, memory, online, system -/

/-- An op whose form names ports by its first source fields, one need each, and outputs. -/
def formShape (w : NodeWord) (fmtOk : Bool) (needs : List PortNeed) (x y : OutNeed) (mods : Bool) : Shape :=
  { fmtOk := fmtOk, srcOk := portsOnly w needs.length, ports := namedPorts w needs, outX := x, outY := y, res := w.fmt, modOk := mods && !w.dl }

/-- RND and SAT clear, AUX and IMM within masks. -/
def plainMods (w : NodeWord) (auxMask immMask : Nat) : Bool :=
  noRnd w && noSat w && within (auxN w) auxMask && within (immN w) immMask

/-- Table 10-1. -/
def flowShapeOf (n : NodeAt) : Shape :=
  let w := n.w
  let e : PortNeed := .exact w.fmt
  let masked (sel : Bool) : Shape :=
    let ms := maskPorts w.aux.toNat
    { fmtOk := true, srcOk := (if sel then portsOnly w 1 else portsOnly w 0) && decide (2 ≤ ms.length),
      ports := (if sel then namedPorts w [.ctl] else []) ++ ms.map fun p => (p, e), outX := .must, outY := .never, res := w.fmt,
      modOk := plainMods w 15 0 && !w.dl, stateless := true }
  match n.opc with
  | 0x0C0 => { formShape w true [e, .ctl] .must .must (plainMods w 1 0xFFFF) with stateless := true }
  | 0x0C1 => { formShape w true [e] .must .must (plainMods w 0 0) with stateless := true }
  | 0x0C2 => masked false
  | 0x0C3 => masked false
  | 0x0C4 => masked true
  | 0x0C5 => { formShape w true [e] .must .must (plainMods w 63 0) with stateless := true }
  | 0x0C6 => formShape w true [e, .ctl] .must .must (plainMods w 7 0x1FF && decide (1 ≤ immN w) && decide (immN w ≤ 256))
  | 0x0C7 => { formShape w true [e, .ctl] .must .never (plainMods w 0 0) with stateless := true }
  | 0x0C8 => { formShape w true [e] .must .never (plainMods w 0 0) with stateless := true }
  | 0x0C9 => { formShape w true [e] .never .never (plainMods w 0 0) with stateless := true }
  | 0x0CA => { formShape w (fmtIsInt w.fmt || fmtIsFlt w.fmt) [] .must .never (noAux w) with stateless := true }
  | 0x0CB => formShape w true [e, .ctl, e] .must .never (plainMods w 0 0)
  | 0x0CC => formShape w true [e, .ctl] .must .never (plainMods w 0 0)
  | 0x0CD =>
    { formShape w true [e, .ctl] .must .never (plainMods w 7 7) with bankErr := ownErr (n.owns 1) }
  | 0x0CE => formShape w true [e] .must .never (plainMods w 0 0x3FFF)
  | _ =>
    let d := segDesc n.p n.o (bitsOf (immN w) 0 3)
    { formShape w true [e] .must .never (plainMods w 0 0x1FFFF) with
      bankErr := (ownErr (n.owns 2)).or
        (if d.param == 0 && (List.range 8).any (fun i => d.size == 2 ^ (i + 4)) then none else some .illegalBankSegment) }

/-- Table 10-3. -/
def ctlShapeOf (n : NodeAt) : Shape :=
  let w := n.w
  let e : PortNeed := .exact w.fmt
  let isCtl := [Fmt.n32, .i32, .crd].contains w.fmt
  match n.opc with
  | 0x0E0 => formShape w true [e] .must .never
      (noRnd w && noSat w && [0, 1, 3].contains (auxN w % 8) && (auxN w / 8 == 0 || auxN w % 8 == 0) && decide (auxN w / 8 ≤ 5)
        && decide (1 ≤ immN w) && decide (immN w < 2 ^ 16))
  | 0x0E1 => formShape w true [e] .must .never (plainMods w 7 0xFFFF && decide (1 ≤ immN w))
  | 0x0E2 => { formShape w true [e] .must .never (plainMods w 7 0) with stateless := true }
  | 0x0E3 => { formShape w true [e] .must .never (plainMods w 7 0 && decide (1 ≤ auxN w)) with stateless := true }
  | 0x0E4 => formShape w true [e, e] .must .must (plainMods w 0 0)
  | 0x0E5 => formShape w isCtl [e] .must .never (plainMods w 0 0)
  | _ => formShape w true [e, .ctl] .must .never (plainMods w 0 0)

/-- A cell with no memory tile, or a static bank address outside the context's scratch and the memory tile (R213, R214). -/
def NodeAt.tileErr (n : NodeAt) : Option LoadErr := ownErr (memTile n.p n.o).isSome

/-- Table 10-4. -/
def memShapeOf (n : NodeAt) : Shape :=
  let w := n.w
  let e : PortNeed := .exact w.fmt
  let ad : PortNeed := .exact .crd
  let req := [Fmt.raw, .i32, .n32, .fp32, .crd].contains w.fmt
  let atom := [Fmt.i32, .n32, .fp32].contains w.fmt
  let tile (s : Shape) : Shape := { s with bankErr := n.tileErr }
  match n.opc with
  | 0x100 => formShape w (fmtIsBit w.fmt) [.ctl] .must .never (plainMods w 0 0x7FF)
  | 0x101 => formShape w (fmtIsBit w.fmt) [.ctl, e] .may .never (plainMods w 0 0x7FF)
  | 0x102 => tile (formShape w req [ad] .must .never (plainMods w 0 0))
  | 0x103 => tile (formShape w req [ad, e] .may .never (plainMods w 0 0))
  | 0x104 => { formShape w true [e] .never .never (plainMods w 0 7) with bankErr := ownErr (n.owns 1) }
  | 0x105 => { formShape w true [] .must .never (plainMods w 0 7) with
               bankErr := ownErr ((segDesc n.p n.o (bitsOf (immN w) 0 3)).typ == 1) }
  | 0x106 => { formShape w true [.ctl] .must .never (plainMods w 1 7) with bankErr := ownErr (n.owns 2) }
  | 0x107 => { formShape w true [e] .may .never (plainMods w 0 7) with bankErr := ownErr (n.owns 2) }
  | 0x108 =>
    let b0 := bitsOf (immN w) 0 11
    let k := bitsOf (immN w) 11 4 + 1
    let s := formShape w (w.fmt == .raw) (if w.srcA == .none then [] else [e]) .must .never
      (plainMods w 1 0x7FFF && b0 % 2 == 0 && decide (k ≤ 8) && (w.srcA != .none || noAux w))
    { s with bankErr := ownErr ((List.range (2 * k)).all fun i => n.scratch (b0 + i)) }
  | 0x109 => tile (formShape w atom [ad, e] .must .never
      ((w.fmt == .fp32 || noRnd w) && noAux w && noImm w))
  | 0x10A => tile (formShape w atom [ad, e] .must .never (plainMods w 0 0))
  | 0x10B => tile (formShape w atom [ad, e] .must .never (plainMods w 0 0))
  | 0x10D => tile (formShape w (w.fmt == .raw) [ad, e, e] .must .never (plainMods w 0 0))
  | 0x10E => tile (formShape w (w.fmt == .raw) [ad] .must .never (plainMods w 0 0))
  | 0x110 => formShape w true [e] .must .never (plainMods w 7 0 && decide (auxN w ≤ 5))
  | _ => tile (formShape w (w.fmt == .raw) [ad, e] .must .never (plainMods w 0 0))

/-- Table 10-6. OCMP's mask is I32 and its inputs OSD, FMT being written as either (log 26). -/
def onlineShapeOf (n : NodeAt) : Shape :=
  let w := n.w
  let osd : PortNeed := .exact .osd
  let f2 := fmt2Of w
  let cutC := if w.srcC == .none then [osd, osd] else [osd, osd, .ctl]
  match n.opc with
  | 0x162 => { formShape w (w.fmt == .i32 || w.fmt == .osd) [osd, osd] .must .may (plainMods w 0 0) with res := .i32 }
  | 0x163 => formShape w (w.fmt == .osd) (if w.srcB == .none then [osd] else [osd, .ctl]) .must .never
      (plainMods w 0 0x7FF && decide (1 ≤ immN w) && decide (immN w ≤ 1024))
  | 0x164 =>
    let toOsd := w.fmt == .osd
    formShape w (if toOsd then fmtIsFlt f2 else fmtIsFlt w.fmt && f2 == .osd) [.exact f2] .must .never
      (within (auxN w) 15 && (if toOsd then noRnd w && noSat w && decide (1 ≤ immN w) && decide (immN w ≤ 1024) else noImm w))
  | _ => formShape w (w.fmt == .osd) cutC .must .never (plainMods w 0 0)

/-- Table 10-7. -/
def miscShapeOf (n : NodeAt) : Shape :=
  let w := n.w
  let e : PortNeed := .exact w.fmt
  match n.opc with
  | 0x170 => formShape w ([Fmt.fp32, .i32, .n32].contains w.fmt) [e] .must .may (plainMods w 7 0)
  | 0x171 => formShape w (w.fmt == .n32) [.ctl] .may .never (plainMods w 0 0)
  | 0x175 => formShape w true [.ctl] .never .never (plainMods w 0 0xFF)
  | 0x176 => { formShape w true [e] .must .never (plainMods w 0 0) with stateless := true }
  | _ => { formShape w (w.fmt == .n32) [.ctl] .must .never (plainMods w 0 0) with stateless := true }

/-! ### Chapter 11: fibre units (R234, Table 11-4) -/

/-- The fields of a fibre unit other than FRED: RND, SAT, LA and LD zero, AUX within a mask. IMM is zero where the unit does not use it
(R175). -/
def fibreMods (w : NodeWord) (auxMask : Nat) : Bool := noRnd w && noSat w && within (auxN w) auxMask

def fibreShapeOf (n : NodeAt) : Shape :=
  let w := n.w
  let crd : PortNeed := .exact .crd
  let sh (src : Bool) (ports : List Nat) (y : OutNeed) (mods : Bool) : Shape :=
    { fmtOk := w.fmt == .crd, srcOk := src, ports := ports.map fun p => (p, crd), outX := .must, outY := y, res := .crd, modOk := mods && !w.dl }
  let join : Shape :=
    let out := auxN w % 8
    sh (w.srcA == .a && w.srcB == .c && w.srcC == .none) ([0, 2] ++ (if out != 1 then [1] else []) ++ (if out != 0 then [3] else []))
      .must (fibreMods w 63 && decide (out ≤ 2) && noImm w)
  match n.opc with
  | 0x140 =>
    let root := w.srcA == .none
    let comp := auxN w % 2 == 1
    let mods := fibreMods w 0x39 && (if comp then decide (immN w < 2 ^ 22) else decide (1 ≤ immN w)) && (!root || auxN w / 8 == 0)
    { sh ((root || w.srcA == .a) && w.srcB == .none && w.srcC == .none) (if root then [] else [0]) .may mods with
      bankErr := if comp then ownErr (n.scratch (bitsOf (immN w) 0 11) && n.scratch (bitsOf (immN w) 11 11)) else none }
  | 0x141 => sh (w.srcA == .a && (w.srcB == .b || w.srcB == .none) && w.srcC == .none) (if w.srcB == .b then [0, 1] else [0]) .never
      (fibreMods w 0x38 && decide (1 ≤ immN w))
  | 0x142 => join
  | 0x143 => join
  | 0x144 => sh ((w.srcA == .a || w.srcA == .none) && w.srcB == .b && w.srcC == .none) (if w.srcA == .a then [0, 1] else [1]) .never
      (fibreMods w 0x38 && (w.srcA == .none || noImm w))
  | 0x145 =>
    let op := auxN w / 8
    let flt := fmtIsFlt w.fmt
    { fmtOk := fmtIsInt w.fmt || flt, srcOk := w.srcA == .a && w.srcB == .none && w.srcC == .none, ports := [(0, .exact w.fmt)],
      outX := .must, outY := .never, res := w.fmt,
      modOk := !w.dl && noImm w && decide (op ≤ 5) && !(flt && decide (3 ≤ op)) && (noRnd w || (op == 0 && flt)) && (noSat w || op == 0),
      comb := some (if op = 0 ∧ flt then 6 else op) }
  | _ => sh (w.srcA == .a && w.srcB == .none && w.srcC == .none) [0] .must (fibreMods w 0x38 && noImm w)

/-- The shape of an assigned opcode (Table 8-4). -/
def shapeOf (n : NodeAt) : Option Shape :=
  if n.opc ≤ 0x015 then some (intShapeOf n)
  else if 0x040 ≤ n.opc ∧ n.opc ≤ 0x04E then some (fltShapeOf n)
  else if 0x080 ≤ n.opc ∧ n.opc ≤ 0x088 then some (laneShapeOf n)
  else if 0x0A0 ≤ n.opc ∧ n.opc ≤ 0x0A6 then some (redShapeOf n)
  else if 0x0C0 ≤ n.opc ∧ n.opc ≤ 0x0CF then some (flowShapeOf n)
  else if 0x0E0 ≤ n.opc ∧ n.opc ≤ 0x0E6 then some (ctlShapeOf n)
  else if 0x100 ≤ n.opc ∧ n.opc ≤ 0x110 then some (memShapeOf n)
  else if 0x140 ≤ n.opc ∧ n.opc ≤ 0x146 then some (fibreShapeOf n)
  else if 0x160 ≤ n.opc ∧ n.opc ≤ 0x164 then some (onlineShapeOf n)
  else if 0x170 ≤ n.opc ∧ n.opc ≤ 0x176 then some (miscShapeOf n)
  else none

/-! ### The check of a context -/

/-- The opcode of a context's node word. -/
def nodeOpc (p : Plane) (o : Offset) (c : Nat) : Nat := (nodeBits p o c).toNat / 2 ^ 63

def nodeAt (p : Plane) (o : Offset) (c : Nat) : NodeAt :=
  { p := p, o := o, c := c, opc := nodeOpc p o c, w := NodeWord.ofBits (nodeBits p o c) }

/-- A port's format meets the need. -/
def needMet (p : Plane) (o : Offset) (c : Nat) (x : Nat × PortNeed) : Bool :=
  let f := Fmt.ofCode (BitVec.ofNat 4 (bitsOf (inField p o c x.1) 8 4))
  match x.2 with
  | .any => true
  | .ctl => [Fmt.n32, .i32, .crd].contains f
  | .exact g => f == g

def outEn (p : Plane) (o : Offset) (c q : Nat) : Bool := bitsOf (outField p o c q) 23 1 == 1

/-- DST, EN and the form agree for one output (R152, R198). -/
def outAgrees (dst en : Bool) (n : OutNeed) : Bool :=
  dst == en && (match n with | .never => !dst | .may => true | .must => dst)

/-- COMB of a REDUCIBLE node names the op's own combiner (R177, R240); a stateful op without one takes no REDUCIBLE. -/
def combOk (s : Shape) (cls comb : Nat) : Bool :=
  cls != 1 || s.stateless || (match s.comb with | some k => comb == k | none => false)

/-- The class admits the op with MAXC nonzero (Table 15-3, R177, R234). -/
def opClonable (p : Plane) (o : Offset) (c : Nat) : Bool :=
  let n := nodeAt p o c
  match shapeOf n with
  | none => false
  | some s =>
    match bitsOf (planeField p o (72 + 2 * c)) 22 2 with
    | 0 => s.stateless && !n.w.dl && (decide (n.opc < 0x0C0) || n.opc == 0x0C1 || n.opc == 0x176)
    | 1 => [0x0A3, 0x0A4, 0x0A6, 0x145].contains n.opc
    | 2 => [0x102, 0x103, 0x109, 0x10A, 0x10B, 0x10C, 0x10D, 0x10E, 0x10F].contains n.opc
    | _ => false

/-- The context holds nothing: no node word, no port in use, no output (R152). -/
def emptyNode (p : Plane) (o : Offset) (c : Nat) : Bool :=
  nodeBits p o c == 0 && (List.range 4).all (fun q => inField p o c q == 0) && !outEn p o c 0 && !outEn p o c 1

/-- A context against the shape of its op: the first error. An output of a fibre unit has emit rate 1 (R234), of another op at
least its beats per firing (R175). -/
def shapeErr (p : Plane) (o : Offset) (c : Nat) (n : NodeAt) (s : Shape) : Option LoadErr :=
  let reads := s.ports.map (·.1)
  let rate (q : Nat) : Nat := bitsOf (planeField p o (19 + c)) (20 - 4 * q) 4
  let fld := planeField p o (72 + 2 * c)
  let tap := (tapOf p o c 5).isSome
  let checks : List (Bool × LoadErr) :=
    [(s.pairOk, .illegalConversion), (s.fmtOk, .illegalFormat), (s.srcOk, .illegalSource),
     ((List.range 4).all (fun q => (inField p o c q != 0) == reads.contains q), .unlinkedPort),
     (outAgrees n.w.dx (outEn p o c 0) s.outX && outAgrees n.w.dy (outEn p o c 1) s.outY, .unlinkedOutput),
     (regsOk n.w && s.modOk, .illegalModifier)]
  let later : List (Bool × LoadErr) :=
    [(s.ports.all (needMet p o c) &&
        (List.range 2).all (fun q => !outEn p o c q || Fmt.ofCode (BitVec.ofNat 4 (bitsOf (outField p o c q) 12 4)) == s.res), .illegalFormat),
     (reads.all (fun q => rate q == 1) && (List.range 2).all (fun q => !outEn p o c q || decide (s.beats ≤ rate (4 + q))) &&
        (!(decide (0x140 ≤ n.opc) && decide (n.opc ≤ 0x146)) || (List.range 2).all (fun q => !outEn p o c q || rate (4 + q) == 1)), .illegalRate),
     (n.opc != 0x171 || tap, .illegalStatisticsTap),
     (combOk s (bitsOf fld 22 2) (bitsOf fld 19 3), .illegalStateClass)]
  (((checks.find? fun x => !x.1).map (·.2)).or s.bankErr).or ((later.find? fun x => !x.1).map (·.2))

/-- The first load error of a node context (R152 to R158). -/
def nodeLoadErr (p : Plane) (o : Offset) (c : Nat) : Option LoadErr :=
  let en := bitsOf (planeField p o 12) c 1 == 1
  if !en then
    if nodeBits p o c != 0 then some .reservedFieldBits
    else if outEn p o c 0 || outEn p o c 1 then some .unlinkedOutput else none
  else if emptyNode p o c then none
  else
    let n := nodeAt p o c
    match shapeOf n with
    | none => some .illegalNodeOpcode
    | some s => shapeErr p o c n s

end Sys2Proof.Machine
end

