-- ==== Sys2Proof/Machine/Blocks.lean ====
section
/-! DEFINITION. SPBs and command blocks: their fields, the checks made on them at load and at acceptance (R56 to R66, R77), and
what an SPBSEND sends of a block (R221, R258). -/

namespace Sys2Proof.Machine

/-! ### Blocks -/

def spbHeadOf : Instr → Option SpbHead
  | .linRead h _ | .linWrite h _ | .gath h _ | .scat h _ | .copy h _ | .fib h _ | .hash h _ | .flush h _ | .pref h _ => some h
  | _ => none

def Slot.head (sl : Slot) : SpbHead := (spbHeadOf sl.spb).getD default

/-- Element size in bytes: quad-scaled codes move as bytes (R58). -/
def elemBytes (f : Fmt) : Nat := if fmtQuad f then 1 else fmtWidth f / 8

/-- A kind that emits reply beats (Table 4-3). -/
def repliesOf : Instr → Bool
  | .linRead _ _ | .gath _ _ | .fib _ _ => true
  | _ => false

/-- The DATA port that feeds write data. -/
def dataPortOf : Instr → Option Nat
  | .linWrite h _ | .scat h _ => some h.dport.toNat
  | _ => none

/-- The DATA port that feeds an index or reference stream. -/
def indexPortOf : Instr → Option Nat
  | .gath _ b | .scat _ b => if b.isrc.toNat < 4 then some b.isrc.toNat else none
  | .fib _ b => if b.isrc.toNat < 4 then some b.isrc.toNat else none
  | _ => none

/-- The number of elements of a LIN. -/
def linCount (b : LinBody) : Nat := b.e0.toNat * b.e1.toNat * b.e2.toNat * b.e3.toNat

/-- VA of element e of a LIN, i0 innermost (R60). -/
def linAddr (b : LinBody) (e : Nat) : Nat :=
  let i0 := e % b.e0.toNat
  let r1 := e / b.e0.toNat
  let i1 := r1 % b.e1.toNat
  let r2 := r1 / b.e1.toNat
  let i2 := r2 % b.e2.toNat
  let i3 := r2 / b.e2.toNat
  (((b.base.toNat : Int) + i0 * b.s0.toInt + i1 * b.s1.toInt + i2 * b.s2.toInt + i3 * b.s3.toInt) % (2 ^ 64 : Int)).toNat

/-- A VA sum, 64 bits. -/
def vaAdd (a b : Nat) : Nat := (a + b) % 2 ^ 64

/-! ### Checks at acceptance (R58 to R66, R77) -/

/-- A reserved bit or byte is nonzero, or a field belongs to another kind (0x23). -/
def spbReserved (i : Instr) (h : SpbHead) : Bool :=
  let lin := match i with | .linRead _ _ | .linWrite _ _ => true | _ => false
  let isHash := match i with | .hash _ _ => true | _ => false
  let isFib := match i with | .fib _ _ => true | _ => false
  let isFlush := match i with | .flush _ _ => true | _ => false
  let body := match i with
    | .linRead _ b | .linWrite _ b => b.rsv != 0
    | .gath _ b | .scat _ b => b.rsv != 0
    | .copy _ b => b.rsv != 0
    | .fib _ b => b.rsv1 != 0 || b.rsv2 != 0 || b.rsv3 != 0
    | .hash _ b => b.rsv != 0
    | .flush _ b => b.rsv != 0
    | .pref _ b => b.rsv != 0
    | _ => false
  h.rsv != 0 || (h.wr && !lin) || (h.lastArg && !isHash) || ((h.r2en || h.r2port != 0) && !isFib)
    || (h.scope != 0 && !isFlush) || (h.count != 0 && !lin) || body

/-- Limits shared by GATH and SCAT. -/
def gathLimits (h : SpbHead) (b : GathBody) (scat : Bool) : Bool :=
  let mem := b.isrc.toNat == 4
  let deep := b.depth.toNat == 2
  decide (1 ≤ b.ilimit.toNat) && b.estride.toNat % 4 == 0 && decide (4 ≤ b.elen.toNat) && decide (b.elen.toNat ≤ 4096)
    && b.elen.toNat % 4 == 0 && b.elen.toNat % elemBytes h.fmt == 0 && (b.depth.toNat == 1 || deep)
    && decide (b.isrc.toNat ≤ 4) && (mem || (if scat then b.isrc.toNat != h.dport.toNat else b.isrc.toNat == h.dport.toNat))
    && (mem || b.iva == 0) && (deep || b.mid == 0) && (if mem then b.nidx != 0 else b.nidx == 0)
    && (if deep then b.mlimit != 0 else b.mlimit == 0)

/-- Every field lies within its limits (0x24 otherwise). -/
def spbLimits (i : Instr) (h : SpbHead) : Bool :=
  match i with
  | .linRead _ b | .linWrite _ b =>
    let n := linCount b * elemBytes h.fmt
    b.e0 != 0 && b.e1 != 0 && b.e2 != 0 && b.e3 != 0 && n % 4 == 0 && h.count.toNat == (n + 31) / 32
  | .gath _ b => gathLimits h b false
  | .scat _ b => gathLimits h b true
  | .copy _ b => decide (4 ≤ b.len.toNat) && decide (b.len.toNat ≤ 2 ^ 40) && b.len.toNat % 4 == 0
  | .fib _ b =>
    decide (b.isrc.toNat ≤ 4) &&
      (if b.isrc.toNat = 4 then decide (b.p0.toNat ≤ b.p1.toNat) else b.p0 == 0 && b.p1 == 0 && b.isrc.toNat == h.dport.toNat)
  | .hash _ b => decide (b.len.toNat ≤ 2 ^ 40) && decide (b.dctx.toNat ≤ 3) && (b.dva == 0 || b.len.toNat % 4 == 0)
  | .flush _ _ => decide (h.scope.toNat ≤ 5)
  | .pref _ b => decide (1 ≤ b.len.toNat) && decide (b.len.toNat ≤ 2 ^ 32)
  | _ => true

/-- The destination is the end of the route on outbound port k (R59). -/
def destIsEnd (rg : Region) (sp : Offset) (k : Nat) (o : Offset) (ctx inp : Nat) : Bool :=
  rg.holds o &&
    match (rg.outLink sp true 0 k).bind rg.linkAt with
    | none => false
    | some l =>
      if l.dst.hard then
        rg.hardCol o.dx && l.dst.off == rg.blockTop o && l.dst.port == inp && rg.blockRow o == inp && ctx == 0
      else l.dst.off == o && l.dst.ctx == ctx && l.dst.port == inp

/-- The destinations are legal (0x25 otherwise). -/
def spbDest (rg : Region) (sp : Offset) (i : Instr) (h : SpbHead) : Bool :=
  let o : Offset := ⟨h.rdx.toInt, h.rdy.toInt⟩
  let first := !repliesOf i || destIsEnd rg sp h.rport.toNat o h.rctx.toNat h.rin.toNat
  let second := match i with
    | .fib _ b => !h.r2en || destIsEnd rg sp h.r2port.toNat ⟨b.r2dx.toInt, b.r2dy.toInt⟩ b.r2ctx.toNat b.r2in.toNat
    | _ => true
  first && second && (!h.evt || (rg.holds o && !rg.hardCol o.dx))

/-- The lowest subcode of 0x23 to 0x25 that an SPB breaks (R77). -/
def spbCheck (rg : Region) (sp : Offset) (i : Instr) : Option Nat :=
  match spbHeadOf i with
  | none => none
  | some h =>
    if spbReserved i h then some 0x23
    else if !spbLimits i h then some 0x24
    else if !spbDest rg sp i h then some 0x25
    else none

/-! ### Blocks that a stream lays down (R77, R221, R258) -/

/-- The beat that a stream's bank-init words put at a bank beat of a cell; none: they leave it alone. -/
def laidBeat (f : Feed) (o : Offset) (i : Nat) : Option Payload :=
  (f.binit.reverse.find? fun x => x.1 == offKey o && decide (x.2.1 ≤ i) && decide (i < x.2.1 + x.2.2.1)).map fun x => x.2.2.2

/-- The pair of beats of block k of an SPBSEND's list: bytes 0-31 and bytes 32-63. -/
def laidBlock (f : Feed) (o : Offset) (c k : Nat) : Option (Payload × Payload) :=
  let b := bitsOf (immN (NodeWord.ofBits (nodeBits f.plane o c))) 0 11 + 2 * k
  match laidBeat f o b, laidBeat f o (b + 1) with
  | none, none => none
  | x, y => some (x.getD 0, y.getD 0)

/-- Two ranges of n bytes overlap. -/
def rangesMeet (a b n : Nat) : Bool := decide (a < b + n) && decide (b < a + n)

/-- The source and destination of a COPY of n bytes as far as the image decides them; the source is open where it is patched. -/
def copyStatic (patched : Bool) (sva dva n : Nat) : Bool := dva % 4 == 0 && (patched || (sva % 4 == 0 && !rangesMeet sva dva n))

/-- The checks 0x26 and 0x28 as far as the image decides them: an element that is surely issued is misaligned, or the ranges of a COPY
overlap (R62, R77). Bytes 16-23 of a `patched` block are known only when it is sent (R221), and any element of a LIN write may be left
out by VALID (R60). -/
def spbStatic (patched : Bool) (i : Instr) : Bool :=
  match i with
  | .linRead h b =>
    let es := elemBytes h.fmt
    let step (e s : BitVec 32) : Bool := e == 1 || s.toNat % es == 0
    (patched || b.base.toNat % es == 0) && step b.e0 b.s0 && step b.e1 b.s1 && step b.e2 b.s2 && step b.e3 b.s3
  | .gath _ b | .scat _ b => b.isrc.toNat != 4 || b.iva.toNat % 4 == 0
  | .fib _ b => b.isrc.toNat != 4 || b.p0 == b.p1 || patched || b.segva.toNat % 4 == 0
  | .copy _ b => copyStatic patched b.sva.toNat b.dva.toNat b.len.toNat
  | .hash _ b => b.dva == 0 || b.len == 0 || copyStatic patched b.sva.toNat b.dva.toNat b.len.toNat
  | _ => true

/-- A block with what its patch may still change left out: bytes 16-23 are reserved in a FLUSH alone. -/
def unpatched (i : Instr) : Instr :=
  match i with
  | .flush h b => .flush h ⟨b.rsv >>> 64 <<< 64⟩
  | _ => i

/-- A block toward an SP is an SPB that passes the checks of R77. -/
def spbBlockOk (rg : Region) (sp : Offset) (patched : Bool) (x : Payload × Payload) : Bool :=
  match decodeSpb (x.2 ++ x.1) with
  | .error _ => false
  | .ok i => (spbCheck rg sp (if patched then unpatched i else i)).isNone && spbStatic patched i

/-- A block toward an ME is a command: the second beat of its pair is zero, and it is no SPB (R258). -/
def cmdBlockOk (x : Payload × Payload) : Bool := x.2 == 0 && (decodeSpb (x.2 ++ x.1)).toOption.isNone

/-- The blocks that an SPBSEND with this X link names, and the plane's stream lays down, are of the kind that the link's end
takes. -/
def blocksOk (rg : Region) (f : Feed) (l : Link) : Bool :=
  let w := NodeWord.ofBits (nodeBits f.plane l.src.off l.src.ctx)
  (List.range (bitsOf (immN w) 11 4 + 1)).all fun k => (laidBlock f l.src.off l.src.ctx k).all fun x =>
    if rg.blockIsSp l.dst.off then spbBlockOk rg l.dst.off (bitsOf (auxN w) 0 1 == 1) x else cmdBlockOk x

end Sys2Proof.Machine
end

