-- ==== Sys2Proof/Machine/Stream.lean ====
section
/-! DEFINITION. Configuration streams (R145 to R150): cursor and write words, commits, field checks; the routes and links of a
plane (R82 to R87, R93, R96, R156 to R159); the checks made at ENDS. -/

namespace Sys2Proof.Machine

/-! ### Track descriptors and routes (R82, R84, R159) -/

def descSide (d : Nat) : Nat := bitsOf d 5 2
def descClass (d : Nat) : Nat := bitsOf d 3 2
def descIndex (d : Nat) : Nat := bitsOf d 0 3

/-- The descriptor names a segment end at a position. -/
def validSeg (p : Pos) (d : Nat) : Bool :=
  let x := if descSide d % 2 = 1 then p.x else p.y
  match descClass d with
  | 0 => decide (descIndex d < 6)
  | 1 => decide (descIndex d < 4) && x % 4 == descIndex d
  | 2 => decide (descIndex d < 2) && x % 16 == 8 * descIndex d
  | _ => false

/-- Positions from one end of a segment to the other. -/
def segSpan (d : Nat) : Int := match descClass d with | 0 => 1 | 1 => 4 | _ => 16

/-- The other end of a departing segment, and its descriptor there. -/
def segEnd (o : Offset) (d : Nat) : Offset × Nat :=
  let k := segSpan d
  let o1 : Offset := match descSide d with
    | 0 => ⟨o.dx, o.dy - k⟩
    | 1 => ⟨o.dx + k, o.dy⟩
    | 2 => ⟨o.dx, o.dy + k⟩
    | _ => ⟨o.dx - k, o.dy⟩
  (o1, (descSide d + 2) % 4 * 32 + d % 32)

/-- The switch-box entries of a position. -/
def switchBox (rg : Region) (p : Plane) (o : Offset) : List Nat :=
  if rg.hardCol o.dx then (List.range 16).map fun e => planeField p (rg.blockTop o) (32 + 16 * rg.blockRow o + e)
  else (List.range 16).map fun e => planeField p o (32 + e)

def swKind (v : Nat) : Nat := bitsOf v 21 3
def swA (v : Nat) : Nat := bitsOf v 14 7
def swB (v : Nat) : Nat := bitsOf v 7 7

/-- A hard block whose four positions all lie in the region (R17). -/
def Region.wholeBlock (rg : Region) (o : Offset) : Bool :=
  rg.holds (rg.blockTop o) && rg.holds ⟨o.dx, (rg.blockTop o).dy + 3⟩

/-- The port of a cell or hard block that a segment arriving at a position is claimed by. -/
def portClaims (rg : Region) (p : Plane) (o : Offset) (d : Nat) : List LinkEnd :=
  if rg.hardCol o.dx then
    let t := rg.blockTop o
    let v := planeField p t (1 + rg.blockRow o)
    if rg.wholeBlock o && bitsOf v 16 1 == 1 && bitsOf v 17 7 == d then [⟨t, true, 0, rg.blockRow o⟩] else []
  else
    ((List.range 16).map fun i => (⟨o, false, i / 4, i % 4⟩ : LinkEnd)).filter fun e =>
      let v := inField p o e.ctx e.port
      v != 0 && bitsOf v 17 7 == d

/-- The link end at a Slaundene port. -/
def farEnd (f : FarEnd) : LinkEnd := ⟨f.off, true, f.circ, 8 + f.port⟩

/-- The outgoing circuit that takes a departing segment of a position. -/
def Region.egress (rg : Region) (o : Offset) (d : Nat) : Option FarEnd :=
  rg.farEnds.find? fun f => f.out && f.off == o && bitsOf f.word 16 7 == d

/-- The circuit of a link end at a Slaundene port. -/
def Region.farAt (rg : Region) (e : LinkEnd) : Option FarEnd := rg.farEnds.find? fun f => farEnd f == e

/-- A route: its end and its departing segments in order, each with the box where it begins. -/
structure Route where
  dst : LinkEnd
  segs : List (Offset × Nat)
  deriving Repr, Inhabited

/-- The bridge direction between two adjacent dies (R18). -/
def bridgeDir (a b : Nat) : Nat :=
  (([(0, 1), (1, 0), (2, 3), (3, 2), (0, 2), (2, 0), (1, 3), (3, 1)] : List (Nat × Nat)).findIdx? fun x => x == (a, b)).getD 0

/-- The circuits of a route, each before the latch where its segment ends (R96). -/
def crossingsOf (rg : Region) (share allow : Nat) (segs : List (Offset × Nat)) : List Crossing :=
  segs.zipIdx.filterMap fun x =>
    let a := dieOf (rg.posOf x.1.1)
    let b := dieOf (rg.posOf (segEnd x.1.1 x.1.2).1)
    if a = b then none
    else some { at_ := x.2 + 1, dir := bridgeDir a b, circ := 0, share := share, allow := allow, ret := 0, far := [] }

/-- The departing segments that a region's positions have: 12 on each side (R82). No route that takes each once is longer. -/
def Region.segments (rg : Region) : Nat := 48 * rg.w * rg.h

/-- Follow a departing segment to the port that claims it; one that it has taken already is claimed twice (R84). The fuel bounds the
segments. -/
def traceRoute (rg : Region) (p : Plane) : Nat → Offset → Nat → List (Offset × Nat) → Except LoadErr Route
  | 0, _, _, _ => .error .trackConflict
  | f + 1, o, d, segs =>
    if !validSeg (rg.posOf o) d then .error .noSuchSegment
    else if segs.contains (o, d) then .error .trackConflict
    else match rg.egress o d with
    | some x => .ok { dst := farEnd x, segs := segs }
    | none =>
      let (o1, d1) := segEnd o d
      if !rg.holds o1 then .error .routeOutsideRegion
      else
        match portClaims rg p o1 d1 with
        | e :: _ => .ok { dst := e, segs := segs ++ [(o, d)] }
        | [] =>
          match (switchBox rg p o1).find? fun v => swKind v == 1 && swA v == d1 with
          | some v => traceRoute rg p f o1 (swB v) (segs ++ [(o, d)])
          | none => .error .unlinkedOutput

/-! ### Links of a plane (R84, R86, R93, R94, R97, R156, R157) -/

/-- A signed 12-bit scale exponent (R131). -/
def scaleOf (p : Plane) (o : Offset) (c q : Nat) : Int :=
  let v := planeField p o (56 + 2 * c + q / 2)
  let k := if q % 2 = 0 then bitsOf v 12 12 else bitsOf v 0 12
  if 2048 ≤ k then (k : Int) - 4096 else k

/-- A code of Table 7-1 that a converter takes: 0x1 to 0xA (R93). -/
def convFmt (f : Fmt) : Bool := decide (1 ≤ f.code.toNat) && decide (f.code.toNat ≤ 10)

/-- A format pair of a link is legal (R93); `cvt`: there is a converter. A RAW side takes the width of the other side
(R119). -/
def linkPairLegal (s d : Fmt) (cvt : Bool) : Bool :=
  if s = d then true
  else if s = .raw ∨ d = .raw then true
  else convFmt s && convFmt d && cvt

/-- A Slaundene circuit as a crossing behind n latches. -/
def farCrossing (f : FarEnd) (n allow : Nat) : Crossing :=
  { at_ := n, dir := 8 + f.port, circ := f.circ, share := f.share, allow := allow, ret := 0, far := [] }

/-- The circuits of a link on a route of n segments: those of its Slaundene ends about the bridges' `xs`. -/
def Link.farCrossings (l : Link) (n : Nat) (xs : List Crossing) : List Crossing :=
  let fs := l.crossings.filter fun x => decide (8 ≤ x.dir)
  (if l.src.far then fs.take 1 else []) ++ xs ++ if l.dst.far then (fs.drop (if l.src.far then 1 else 0)).map fun x => { x with at_ := n } else []

/-- A link as its port field, output field and route give it: ALLOW is the producer's starting count, s or 8, plus the share b
of a circuit (R97, R157). The count of a link that comes from another module is kept there: `free` holds the slots not yet given back. -/
def mkLink (rg : Region) (p : Plane) (src dst : LinkEnd) (out : Nat) (segs : List (Offset × Nat)) (cvt : Option Nat) :
    Except LoadErr Link :=
  let fs := Fmt.ofCode (BitVec.ofNat 4 (bitsOf out 12 4))
  let v := if dst.hard then 0 else inField p dst.off dst.ctx dst.port
  let fd := if dst.hard then fs else Fmt.ofCode (BitVec.ofNat 4 (bitsOf v 8 4))
  let allow := bitsOf out 6 6
  let egr := rg.farAt dst
  let ingr := rg.farAt src
  let slots := match egr with
    | some f => allow - f.share
    | none => if dst.hard then 0 else bitsOf v 12 5
  let q := if dst.hard && egr.isNone then hardQueue else slots
  let cvtOk := match cvt with
    | none => true
    | some e => !dst.hard && bitsOf e 10 4 == fs.code.toNat && bitsOf e 3 4 == fd.code.toNat
  let b := allow - q
  let xs := (ingr.toList.map fun f => farCrossing f 0 allow) ++ crossingsOf rg b allow segs ++ egr.toList.map fun f => farCrossing f segs.length allow
  if !cvtOk || !linkPairLegal fs fd cvt.isSome then .error .illegalLinkConversion
  else if (!dst.hard || egr.isSome) && slots == 0 && !xs.isEmpty then .error .zeroSlotBridge
  else if xs.isEmpty && allow != q then .error .unlinkedOutput
  else if !xs.isEmpty && !(decide (q + 2 ≤ allow) && decide (b ≤ 32)) then .error .unlinkedOutput
  else
    .ok { src := src, dst := dst, fmtS := fs, fmtD := fd, rnd := Rnd.ofCode (BitVec.ofNat 2 (bitsOf v 6 2)), sat := bitsOf v 5 1 == 1,
          scale := if dst.hard then 0 else scaleOf p dst.off dst.ctx dst.port, clvl := bitsOf v 0 3, rchk := bitsOf v 3 1 == 1,
          slots := slots, route := segs, lat := List.replicate segs.length none, crossings := xs,
          free := if ingr.isSome then 0 else (allow : Int),
          tap := if dst.hard then none else (tapOf p dst.off dst.ctx (1 + dst.port)).map (·.2) }

/-- The output fields of a plane: cells X and Y of every context, hard blocks out0 to out3, and those of incoming Slaundene circuits. -/
def outputsOf (rg : Region) (p : Plane) : List (LinkEnd × Offset × Nat) :=
  let here := (p.map fun x =>
    let o := keyOff x.1
    if rg.hardCol o.dx then
      let t := rg.blockTop o
      if rg.wholeBlock o then (List.range 4).map fun k => ((⟨t, true, 0, k⟩ : LinkEnd), (⟨t.dx, t.dy + k⟩ : Offset), planeField p t (5 + k)) else []
    else (List.range 8).map fun i => ((⟨o, false, i / 2, 4 + i % 2⟩ : LinkEnd), o, outField p o (i / 2) (i % 2))).flatten
  let far := (rg.farEnds.filter fun f => !f.out).map fun f => (farEnd f, f.off, f.word)
  (here ++ far).filter fun y => bitsOf y.2.2 23 1 == 1

/-- The link of an output. -/
def linkOfOutput (rg : Region) (p : Plane) (e : LinkEnd) (o : Offset) (v : Nat) : Except LoadErr Link :=
  let d := bitsOf v 16 7
  if descClass d = 3 then
    if e.hard ∨ d ≠ 0x18 then .error .noSuchSegment
    else
      match portClaims rg p o (e.ctx * 32 + 0x18 + (e.port - 3)) with
      | [q] => mkLink rg p e q v [] none
      | [] => .error .unlinkedOutput
      | _ => .error .trackConflict
  else
    match traceRoute rg p (rg.segments + 1) o d [] with
    | .error x => .error x
    | .ok r =>
      let last := r.segs.getLastD (o, d)
      mkLink rg p e r.dst v r.segs ((switchBox rg p last.1).find? fun z => swKind z == 2 && swA z == last.2)

def linksFrom (rg : Region) (p : Plane) : List (LinkEnd × Offset × Nat) → Except LoadErr (List Link)
  | [] => .ok []
  | (e, o, v) :: t =>
    match linkOfOutput rg p e o v with
    | .error x => .error x
    | .ok l =>
      match linksFrom rg p t with
      | .error x => .error x
      | .ok ls => .ok (l :: ls)

/-- The links of a plane. -/
def linksOf (rg : Region) (p : Plane) : Except LoadErr (List Link) := linksFrom rg p (outputsOf rg p)

/-! ### Checks at ENDS (R148) -/

/-- Positions of the region that have fields: cells; whole hard blocks by their top. -/
def cellsOf (rg : Region) (p : Plane) : List Offset := (p.map fun x => keyOff x.1).filter fun o => !rg.hardCol o.dx
def blocksOf (rg : Region) (p : Plane) : List Offset :=
  ((p.map fun x => keyOff x.1).filter fun o => rg.hardCol o.dx && rg.wholeBlock o).map rg.blockTop

/-- Switch-box positions with fields: cells, and the rows of blocks. -/
def boxesOf (rg : Region) (p : Plane) : List Offset :=
  (p.map fun x =>
    let o := keyOff x.1
    if rg.hardCol o.dx then
      ((List.range 4).map fun (k : Nat) => (⟨o.dx, (rg.blockTop o).dy + k⟩ : Offset)).filter rg.holds
    else [o]).flatten

def hasDup (l : List Nat) : Bool := match l with | [] => false | x :: t => t.contains x || hasDup t

/-- No segment departs or arrives twice at a position (R84, R159). -/
def boxConflict (rg : Region) (p : Plane) (o : Offset) : Bool :=
  let joins := (switchBox rg p o).filter fun v => swKind v == 1
  let outs := (if rg.hardCol o.dx then (if rg.wholeBlock o then [planeField p (rg.blockTop o) (5 + rg.blockRow o)] else [])
    else (List.range 8).map fun i => outField p o (i / 2) (i % 2)) ++ (rg.farEnds.filter fun f => !f.out && f.off == o).map (·.word)
  let ins := if rg.hardCol o.dx then
      (if rg.wholeBlock o then [planeField p (rg.blockTop o) (1 + rg.blockRow o)].filter fun v => bitsOf v 16 1 == 1 else [])
    else ((List.range 16).map fun i => inField p o (i / 4) (i % 4)).filter fun v => v != 0
  hasDup (joins.map swB ++ ((outs.filter fun v => bitsOf v 23 1 == 1).map fun v => bitsOf v 16 7).filter fun d => descClass d != 3)
    || hasDup (joins.map swA ++ ins.map fun v => bitsOf v 17 7)

/-- Where the last segment of each route begins: the box and the departing segment. -/
def lastSegs (rg : Region) (p : Plane) : List (Offset × Nat) :=
  (outputsOf rg p).filterMap fun x =>
    match traceRoute rg p (rg.segments + 1) x.2.1 (bitsOf x.2.2 16 7) [] with
    | .ok r => if descClass (bitsOf x.2.2 16 7) = 3 then none else r.segs.getLast?
    | .error _ => none

/-- A conversion sits where the last segment of a route begins, one on each segment (R159). -/
def cvtErr (rg : Region) (p : Plane) (boxes : List Offset) : Option LoadErr :=
  let ends := lastSegs rg p
  boxes.findSome? fun o =>
    let segs := ((switchBox rg p o).filter fun v => swKind v == 2).map swA
    if hasDup segs then some .trackConflict
    else if segs.any fun d => !ends.contains (o, d) then some .illegalLinkConversion
    else none

/-- Every descriptor of a position names a segment or a local link. -/
def boxSegments (rg : Region) (p : Plane) (o : Offset) : Bool :=
  let pos := rg.posOf o
  let sw := switchBox rg p o
  let ports := if rg.hardCol o.dx then
      (if rg.wholeBlock o then [planeField p (rg.blockTop o) (1 + rg.blockRow o)].filter fun v => bitsOf v 16 1 == 1 else [])
    else ((List.range 16).map fun i => inField p o (i / 4) (i % 4)).filter fun v => v != 0
  sw.all (fun v => (swKind v == 0) || (validSeg pos (swA v) && (swKind v != 1 || validSeg pos (swB v)))) &&
    ports.all fun v =>
      let d := bitsOf v 17 7
      if descClass d = 3 then !rg.hardCol o.dx && (descIndex d == 1 || descIndex d == 2) else validSeg pos d

/-- The zero-slot links of a plane reach the source again from the destination (R87); fuel bounds the chain. -/
def zeroReach (ls : List Link) (goal : Offset × Nat) : Nat → List (Offset × Nat) → Bool
  | 0, _ => false
  | f + 1, seen =>
    seen.contains goal ||
      let new := (ls.filter fun l => seen.contains (l.src.off, l.src.ctx)).map fun l => (l.dst.off, l.dst.ctx)
      if new.all seen.contains then false else zeroReach ls goal f (seen ++ new.filter fun x => !seen.contains x)

def zeroCycle (ls : List Link) : Bool :=
  let zs := ls.filter fun l => l.zeroSlot && !l.src.hard
  zs.any fun l => zeroReach zs (l.src.off, l.src.ctx) (zs.length + 1) [(l.dst.off, l.dst.ctx)]

/-- The bank segments of a cell (R102). -/
def segsLegal (p : Plane) (o : Offset) : Bool :=
  let ds := (List.range 8).map fun n => (segDesc p o n, planeField p o (48 + n))
  let used := ds.filter fun x => x.1.typ != 0
  ds.all (fun x => x.1.typ != 0 || x.2 == 0) &&
    used.all (fun x =>
      let d := x.1
      decide (d.typ ≤ 5) && (d.ctx == 0 || decide (d.typ ≤ 3)) && (!d.ext || d.typ == 1) && (d.param == 0 || d.typ == 2) &&
        decide (d.base + d.size ≤ 2048) && (d.typ != 2 || d.size % (d.param + 1) == 0)) &&
    decide ((used.filter fun x => x.1.typ == 4).length ≤ 1) && decide ((used.filter fun x => x.1.typ == 5).length ≤ 1) &&
    (List.range used.length).all fun i => (List.range i).all fun j =>
      let a := (used.getD i default).1
      let b := (used.getD j default).1
      decide (a.base + a.size ≤ b.base) || decide (b.base + b.size ≤ a.base)

/-- The statistics taps of a cell: legal SRC and LVL, and no counting point tapped twice (R139). DESIGN CHOICE (log 129): a converter
tap whose LVL is not 0 is an illegal statistics tap; (log 139) the exception counts and the value tokens of one node, SRC 000 and 101,
are two counting points, and both may be tapped. -/
def tapsLegal (p : Plane) (o : Offset) : Bool :=
  let ts := ((List.range 8).map fun i => planeField p o (64 + i)).filter fun v => bitsOf v 23 1 == 1
  ts.all (fun v => decide (bitsOf v 18 3 ≤ 5) && (bitsOf v 18 3 == 0 || bitsOf v 18 3 == 5 || bitsOf v 15 3 == 0)) &&
    !hasDup (ts.map fun v => bitsOf v 18 5)

/-- State class and identity of a context (R160, R319). -/
def classLegal (p : Plane) (o : Offset) (c : Nat) : Bool :=
  let v := planeField p o (72 + 2 * c)
  let cls := bitsOf v 22 2
  let comb := bitsOf v 19 3
  let maxc := bitsOf v 17 2
  (comb == 0 || cls == 1) && comb != 7 && (cls != 3 || maxc == 0) && ((maxc == 0 && bitsOf v 16 1 == 0) || nidOf p o c != 0)
    && (maxc == 0 || opClonable p o c)

/-- The written node IDs of a plane. -/
def nidsOf (rg : Region) (p : Plane) : List (Nat × Offset × Nat) :=
  ((cellsOf rg p).map fun o => (List.range 4).map fun c => (nidOf p o c, o, c)).flatten.filter fun x => x.1 != 0

/-- The first error of a list of checks: true means it holds. -/
def firstErr (l : List (Bool × LoadErr)) : Option LoadErr := (l.find? fun x => !x.1).map (·.2)

/-- Port fields against F12 and the pool of slots (R86, R109, R113, R156). -/
def portsErr (p : Plane) (o : Offset) : Option LoadErr :=
  let en (c : Nat) : Bool := bitsOf (planeField p o 12) c 1 == 1
  let ports : List (Nat × Nat × Nat) := ((List.range 16).map fun i => (i / 4, i % 4, inField p o (i / 4) (i % 4))).filter fun x => x.2.2 != 0
  firstErr
    [(ports.all (fun x => en x.1), .linkToDisabledContext),
     (decide ((ports.map fun x => bitsOf x.2.2 12 5).foldl (· + ·) (0 : Nat) ≤ (64 : Nat)), .slotPoolExceeded),
     (ports.all (fun x => bitsOf x.2.2 4 1 == 0 || bitsOf (inField p o x.1 (x.2.1 ^^^ 1)) 4 1 == 1), .unpairedMatch),
     (ports.all (fun x => bitsOf x.2.2 4 1 == 0 || bitsOf (planeField p o (19 + x.1)) (20 - 4 * x.2.1) 4 == 1), .matchedPortRate)]

/-- The first error of a cell. -/
def cellErr (p : Plane) (o : Offset) : Option LoadErr :=
  ((portsErr p o).or (firstErr [(segsLegal p o, .illegalBankSegment), (tapsLegal p o, .illegalStatisticsTap),
    ((List.range 4).all (classLegal p o), .illegalStateClass)])).or
    ((List.range 4).findSome? fun c => nodeLoadErr p o c)

/-- An in-use port that no link reaches. -/
def unreached (rg : Region) (p : Plane) (ls : List Link) : Bool :=
  ((cellsOf rg p).any fun o => (List.range 16).any fun i =>
      inField p o (i / 4) (i % 4) != 0 && !ls.any fun l => l.dst == ⟨o, false, i / 4, i % 4⟩) ||
    (blocksOf rg p).any fun t => (List.range 4).any fun k =>
      bitsOf (planeField p t (1 + k)) 16 1 == 1 && !ls.any fun l => l.dst == ⟨t, true, 0, k⟩

/-- The X link of an SPBSEND. -/
def spbSends (p : Plane) (l : Link) : Bool := !l.src.hard && l.src.port == 4 && nodeOpc p l.src.off l.src.ctx == 0x108

/-- It must end at a hard block's port (R221): a REQ port of an SP, or an ME. -/
def spbLinkBad (rg : Region) (p : Plane) (l : Link) : Bool :=
  spbSends p l && (!l.dst.hard || l.dst.far || (rg.blockIsSp l.dst.off && bitsOf (planeField p l.dst.off 0) (2 * l.dst.port) 2 != 1))

/-- A patch of commands: an SPBSEND toward an ME has no P (R258). -/
def cmdPatchBad (rg : Region) (p : Plane) (l : Link) : Bool :=
  spbSends p l && l.dst.hard && !rg.blockIsSp l.dst.off && bitsOf (NodeWord.ofBits (nodeBits p l.src.off l.src.ctx)).aux.toNat 0 1 == 1

/-- The blocks that a stream lays down fail a check of R77 or R258. -/
def blocksErr (rg : Region) (f : Feed) : Option LoadErr :=
  match linksOf rg f.plane with
  | .error _ => none
  | .ok ls => if ls.any fun l => spbSends f.plane l && !blocksOk { rg with plane := f.plane, links := ls } f l then some .illegalSpb else none

/-- The links that some tokens reach through stateless nodes only, from given links on; fuel bounds the walk. -/
def reachLinks (p : Plane) (ls : List Link) : Nat → List Link → List Link
  | 0, seen => seen
  | f + 1, seen =>
    let new := ls.filter fun l => !seen.contains l && seen.any fun x =>
      !x.dst.hard && !l.src.hard && (x.dst.off, x.dst.ctx) == (l.src.off, l.src.ctx) &&
        (shapeOf (nodeAt p x.dst.off x.dst.ctx)).any (·.stateless)
    if new.isEmpty then seen else reachLinks p ls f (seen ++ new)

/-- The arm of a STEER on which it may speculate: the one that AUX[0] names, where P is not 0 (R200). -/
def speculates (p : Plane) (l : Link) : Bool :=
  let w := nodeBits p l.src.off l.src.ctx
  bitsOf w.toNat 0 16 != 0 && l.src.port == 4 + bitsOf (NodeWord.ofBits w).aux.toNat 0 1

/-- A SPECRES whose X meets no link that a speculating STEER reaches through stateless nodes (R211). -/
def specresBad (p : Plane) (ls : List Link) : Bool :=
  let from_ (opc : Nat) : List Link := ls.filter fun l => !l.src.hard && nodeOpc p l.src.off l.src.ctx == opc
  let spec := reachLinks p ls ls.length ((from_ 0x0C0).filter (speculates p))
  (from_ 0x0E5).any fun l => !(reachLinks p ls ls.length [l]).any spec.contains

/-- A BCAST or SLIDE of RAW elements that names one beyond those of port a's beat, whose width is that of the link's other side (R119,
R188). -/
def rawLaneBad (p : Plane) (l : Link) : Bool :=
  let w := NodeWord.ofBits (nodeBits p l.dst.off l.dst.ctx)
  !l.dst.hard && [0x083, 0x085].contains (nodeOpc p l.dst.off l.dst.ctx) && w.fmt == .raw && namedPort w.srcA == some l.dst.port &&
    decide (256 / fmtWidth l.fmtS ≤ immN w)

/-- The checks made on the final values of a plane. -/
def planeErr (rg : Region) (p : Plane) : Option LoadErr :=
  let boxes := boxesOf rg p
  if boxes.any fun o => !boxSegments rg p o then some .noSuchSegment
  else if boxes.any (boxConflict rg p) then some .trackConflict
  else
    match (cellsOf rg p).findSome? fun o => cellErr p o with
    | some e => some e
    | none =>
      let nids := nidsOf rg p
      if hasDup (nids.map fun x => x.1) then some .duplicateNodeId
      else if 127 < nids.length then some .illegalStateClass
      else
        match linksOf rg p with
        | .error e => some e
        | .ok ls =>
          (cvtErr rg p boxes).or <| firstErr [(!unreached rg p ls, .unlinkedPort), (!specresBad p ls, .illegalSource),
            (!ls.any (fun l => cmdPatchBad rg p l || rawLaneBad p l), .illegalModifier),
            (!ls.any (spbLinkBad rg p), .illegalSpb), (!zeroCycle ls, .zeroSlotCycle)]

/-! ### Bridge shares (R97, R376, Table 19-1) -/

/-- The circuits that links take of the bridges, each charged to the partition at its receiving end. DEDUCED (log 138): a circuit over
two bridges is charged at the end of each. -/
def bridgeUses (s : State) (rg : Region) (ls : List Link) : List BridgeUse :=
  (ls.map fun l => (l.crossings.filter fun x => decide (x.dir < 8)).filterMap fun x =>
    (l.route[x.at_ - 1]?).bind fun g => (ownerOfPos s (rg.posOf (segEnd g.1 g.2).1)).map fun p => ⟨x.dir, p, x.share⟩).flatten

/-- Circuits and receive beats charged to a partition in one direction. -/
def usesOn (us : List BridgeUse) (dir part : Nat) : Nat × Nat :=
  let vs := us.filter fun u => u.dir == dir && u.part == part
  (vs.length, (vs.map (·.share)).foldl (· + ·) 0)

/-- The uses of a plane that stands ready, or is being fed. -/
def feedUses (s : State) (rg : Region) (f : Option Feed) : List BridgeUse :=
  match f with
  | none => []
  | some g => match linksOf rg g.plane with
    | .ok ls => bridgeUses s rg ls
    | .error _ => []

/-- What a region holds of a partition's share: the most that its placement, its shadow plane or its feed takes. -/
def Region.bridgeHeld (s : State) (dir part : Nat) (rg : Region) : Nat × Nat :=
  let a := usesOn rg.uses dir part
  let b := usesOn (feedUses s rg rg.shadow) dir part
  let c := usesOn (feedUses s rg rg.feed) dir part
  (max a.1 (max b.1 c.1), max a.2 (max b.2 c.2))

/-- A partition's share of each direction of a bridge: circuit numbers and receive beats. -/
def bridgeShare (s : State) (part : Nat) : Nat × Nat := if (partAt s part).shape = 1 then (512, 1024) else (256, 512)

/-- Uses fit within the shares beside what these regions hold. -/
def bridgeFits (s : State) (us : List BridgeUse) (gs : List Region) : Bool :=
  us.all fun u =>
    let held := gs.map (Region.bridgeHeld s u.dir u.part)
    let most := bridgeShare s u.part
    decide ((usesOn us u.dir u.part).1 + (held.map (·.1)).foldl (· + ·) 0 ≤ most.1) &&
      decide ((usesOn us u.dir u.part).2 + (held.map (·.2)).foldl (· + ·) 0 ≤ most.2)

/-- A region that another placement may take the place of: it runs nothing, and nothing of it is under way. -/
def idleRegion (s : State) (g : Region) : Bool :=
  let x := sectAt (seqAt s g.id.seq) g.id.sect
  g.installed && g.inv.isNone && g.frozen.isNone && g.drain.isNone && g.feed.isNone && g.cut.isNone && x.armq.isEmpty && !x.armed

/-- The other regions that hold their circuits: all but the idle ones. -/
def holders (s : State) (r : RegId) : List Region := s.regions.filter fun g => g.id != r && !idleRegion s g

/-- Idle regions go, as far as their circuits are in the way of these uses. -/
def clearUses (s : State) (r : RegId) (us : List BridgeUse) : State :=
  ((s.regions.filter fun g => g.id != r && idleRegion s g && !g.uses.isEmpty).map (·.id)).foldl
    (fun t i => if bridgeFits t us (t.regions.filter fun g => g.id != r) then t else freeRegion t i) s

/-- The circuits of a plane exceed the shares (R97). -/
def bridgeErr (s : State) (rg : Region) (p : Plane) : Option LoadErr :=
  match linksOf rg p with
  | .error _ => none
  | .ok ls => if bridgeFits s (bridgeUses s rg ls) (holders s rg.id) then none else some .bridgeBufferExceeded

/-! ### Single fields (R154 to R164) -/

/-- A switch-box entry (Table 8-10). -/
def swErr (v : Nat) : Option LoadErr :=
  match swKind v with
  | 0 => if v = 0 then none else some .reservedFieldBits
  | 1 => if bitsOf v 0 7 = 0 then none else some .reservedFieldBits
  | 2 => if bitsOf v 7 3 = 0 ∧ bitsOf v 0 3 = 0 then none else some .reservedFieldBits
  | _ => some .illegalSwitchEntry

/-- An output field (Table 8-7). -/
def outErr (v : Nat) : Option LoadErr :=
  if bitsOf v 0 6 ≠ 0 ∨ (bitsOf v 23 1 = 0 ∧ v ≠ 0) then some .reservedFieldBits else none

/-- A statistics tap (Table 7-8). -/
def tapErr (v : Nat) : Option LoadErr :=
  if bitsOf v 0 7 ≠ 0 ∨ (bitsOf v 23 1 = 0 ∧ v ≠ 0) then some .reservedFieldBits else none

/-- Bits above a width are reserved. -/
def above (v n : Nat) : Option LoadErr := if v < 2 ^ n then none else some .reservedFieldBits

/-- A write to a cell field. -/
def cellFieldErr (f v : Nat) : Option LoadErr :=
  if 120 ≤ f then some .readOnlyField
  else if f = 12 then above v 6
  else if f = 17 ∨ f = 18 then outErr v
  else if f = 23 then above v 2
  else if f = 24 then above v 5
  else if f = 26 then above v 8
  else if (27 ≤ f ∧ f ≤ 31) ∨ 96 ≤ f ∨ f = 94 ∨ f = 95 then above v 0
  else if 32 ≤ f ∧ f ≤ 47 then swErr v
  else if 64 ≤ f ∧ f ≤ 71 then tapErr v
  else if 72 ≤ f ∧ f ≤ 79 then (if f % 2 = 1 then above v 16 else if bitsOf v 0 16 = 0 then none else some .reservedFieldBits)
  else if f = 80 ∨ f = 92 then above v 11
  else if f = 91 then above v 16
  else if f = 93 then (if bitsOf v 16 5 = 0 then none else some .reservedFieldBits)
  else none

/-- A write to a hard block's field; `sp`: a stream port. -/
def hardFieldErr (sp : Bool) (f v : Nat) : Option LoadErr :=
  if 120 ≤ f then some .readOnlyField
  else if f = 0 then
    if sp then
      (above v 8).or
        (let roles := [0, 1, 2, 3].map fun k => bitsOf v (2 * k) 2
         if roles.contains 3 ∨ 1 < (roles.filter fun x => x == 1).length then some .illegalPortRole else none)
    else (tapErr v).or (if bitsOf v 18 5 = 0 then none else some .illegalStatisticsTap)
  else if f ≤ 4 then (if bitsOf v 0 16 ≠ 0 ∨ (bitsOf v 16 1 = 0 ∧ v ≠ 0) then some .reservedFieldBits else none)
  else if f ≤ 8 then outErr v
  else if f = 9 then above v (if sp then 4 else 1)
  else if 32 ≤ f ∧ f ≤ 95 then swErr v
  else above v 0

/-! ### The feed (R145 to R149) -/

def setField (p : Plane) (o : Offset) (f v : Nat) : Plane :=
  aset p (offKey o) (aset (agetD p (offKey o) []) f (BitVec.ofNat 24 v))

/-- The key under which field f of a write to a cell is held: port fields go to the selected context (R155). -/
def heldKey (p : Plane) (o : Offset) (f : Nat) : Nat :=
  if 13 ≤ f ∧ f ≤ 18 then portKey (bitsOf (planeField p o 23) 0 2) f else f

/-- A cursor word resets F23 at each position it names (R155); fields that hold nothing stay so. -/
def resetSel (p : Plane) (os : List Offset) : Plane :=
  os.foldl (fun q o => if planeField q o 23 = 0 then q else setField q o 23 0) p

/-- Reject the stream. -/
def Feed.fail (f : Feed) (e : LoadErr) : Feed := { f with err := some e, closed := true, words := [], more := [] }

/-- The error number of Table 20-2. -/
def LoadErr.number (e : LoadErr) : Nat :=
  match e with
  | .illegalModeWord => 1 | .sectionNotOwned => 2 | .trackConflict => 3 | .routeOutsideRegion => 4 | .slotPoolExceeded => 5
  | .zeroSlotCycle => 6 | .zeroSlotBridge => 7 | .illegalLinkConversion => 8 | .bridgeBufferExceeded => 9
  | .illegalBankSegment => 10 | .bankSegmentNotOwned => 11 | .reservedFieldBits => 12 | .linkToDisabledContext => 13
  | .matchedPortRate => 14 | .illegalSpb => 15 | .illegalStatisticsTap => 16 | .illegalCursorOp => 17 | .illegalRectangle => 18
  | .notAHardBlock => 19 | .cursorOutsideRegion => 20 | .noCursor => 21 | .streamNotClosed => 22 | .wrongSection => 23
  | .staleLayout => 24 | .checksumMismatch => 25 | .fieldNotAtPosition => 26 | .readOnlyField => 27 | .illegalNodeOpcode => 28
  | .illegalSource => 29 | .unlinkedPort => 30 | .unlinkedOutput => 31 | .unpairedMatch => 32 | .illegalRate => 33
  | .noSuchSegment => 34 | .illegalSwitchEntry => 35 | .switchBoxFull => 36 | .illegalStateClass => 37 | .duplicateNodeId => 38
  | .bankInitOutOfRange => 39 | .illegalTilePreload => 40 | .illegalPortRole => 41 | .imageVersion => 42 | .imageDigest => 43
  | .illegalRelocation => 44 | .illegalFormat => 45 | .illegalModifier => 46 | .illegalConversion => 47 | .illegalInstruction => 48
  | .illegalBranchTarget => 49 | .illegalSpecialRegister => 50 | .illegalControllerTree => 51 | .illegalRegion => 52

/-- A signed 14-bit cursor operand. -/
def curOff (x y : BitVec 14) : Offset := ⟨x.toInt, y.toInt⟩

/-- A cursor word other than VERS and ENDS: it needs a begun stream and ends AUTOX and RECT. -/
def Feed.cursorWord (f : Feed) (k : Feed → Feed) : Feed :=
  if !f.begun then f.fail .illegalCursorOp else k { f with autox := false, rect := none, last := none }

/-- SETC, AUTOX (R146). -/
def feedSet (rg : Region) (x y : BitVec 14) (auto : Bool) (f : Feed) : Feed :=
  f.cursorWord fun g =>
    if rg.holds (curOff x y) then
      { g with cursor := some (curOff x y), hardCur := false, autox := auto, plane := resetSel g.plane [curOff x y] }
    else g.fail .cursorOutsideRegion

/-- MOVC (R146). -/
def feedMove (rg : Region) (x y : BitVec 14) (f : Feed) : Feed :=
  f.cursorWord fun g =>
    match g.cursor with
    | none => g.fail .noCursor
    | some c =>
      let o : Offset := ⟨c.dx + x.toInt, c.dy + y.toInt⟩
      if rg.holds o then { g with cursor := some o, hardCur := false, plane := resetSel g.plane [o] } else g.fail .cursorOutsideRegion

/-- The cells of a rectangle, hard columns left out. -/
def rectCells (rg : Region) (c : Offset) (w h : Nat) : List Offset :=
  (((List.range h).map fun (j : Nat) => (List.range w).map fun (i : Nat) => (⟨c.dx + i, c.dy + j⟩ : Offset)).flatten).filter fun o => !rg.hardCol o.dx

/-- RECT (R146). -/
def feedRect (rg : Region) (x y : BitVec 14) (f : Feed) : Feed :=
  f.cursorWord fun g =>
    match g.cursor with
    | none => g.fail .noCursor
    | some c =>
      if x.toInt < 0 ∨ y.toInt < 0 then g.fail .illegalRectangle
      else if !rg.holds ⟨c.dx + x.toInt, c.dy + y.toInt⟩ || !rg.holds c then g.fail .cursorOutsideRegion
      else
        let w := x.toNat + 1
        let h := y.toNat + 1
        { g with rect := some (w, h), hardCur := false, plane := resetSel g.plane (rectCells rg c w h) }

/-- HARD (R146). DESIGN CHOICE (log 140): the cursor stands at the position named, from which a MOVC or RECT goes on. -/
def feedHard (rg : Region) (x y : BitVec 14) (f : Feed) : Feed :=
  f.cursorWord fun g =>
    if !rg.holds (curOff x y) then g.fail .cursorOutsideRegion
    else if !rg.hardCol x.toInt then g.fail .notAHardBlock
    else { g with cursor := some (curOff x y), hardCur := true }

/-- VERS (R146, R147): the section. -/
def feedVers (sect : Nat) (x y : BitVec 14) (f : Feed) : Feed :=
  if f.begun then f.fail .illegalCursorOp
  else if x.toNat ≠ sect then f.fail .wrongSection
  else { f with begun := true, tag := y.toNat, autox := false, rect := none, last := none }

/-- The next position of an AUTOX: one cell east, hard columns skipped. -/
def eastCell (rg : Region) (o : Offset) : Offset :=
  let o1 : Offset := ⟨o.dx + 1, o.dy⟩
  if rg.hardCol o1.dx then ⟨o.dx + 2, o.dy⟩ else o1

/-- The positions a WRITE to field f goes to, after an AUTOX advance; `hard`: a block's top. -/
def feedTargets (rg : Region) (f : Nat) (g : Feed) : Except LoadErr (Feed × List Offset × Bool) :=
  if !g.begun then .error .noCursor
  else
    match g.cursor with
    | none => .error .noCursor
    | some c =>
      if g.hardCur then
        let row := (f - 32) / 16
        let swb := decide (32 ≤ f) && decide (f ≤ 95)
        if rg.wholeBlock c || (swb && rg.holds ⟨c.dx, (rg.blockTop c).dy + row⟩) then .ok (g, [rg.blockTop c], true)
        else .error .notAHardBlock
      else
        match g.rect with
        | some (w, h) => .ok (g, rectCells rg c w h, false)
        | none =>
          let moved := g.autox && g.last.any fun l => decide (f ≤ l)
          let c1 := if moved then eastCell rg c else c
          let g1 := { g with cursor := some c1, last := if g.autox then some f else none }
          if !rg.holds c1 then .error .cursorOutsideRegion
          else if rg.hardCol c1.dx then .error .fieldNotAtPosition
          else .ok (g1, [c1], false)

/-- WRITE (R145, R148, R154): each named position takes the value. -/
def feedWrite (rg : Region) (f v : Nat) (g : Feed) : Feed :=
  match feedTargets rg f g with
  | .error e => g.fail e
  | .ok (g1, os, hard) =>
    match (if hard then os.findSome? fun o => hardFieldErr (rg.blockIsSp o) f v else cellFieldErr f v) with
    | some e => g1.fail e
    | none => { g1 with plane := os.foldl (fun p o => setField p o (if hard then f else heldKey p o f) v) g1.plane,
                        hardSet := if hard then g1.hardSet ++ os else g1.hardSet }

/-- The key of local register r of context c at a position. -/
def lregKey (o : Offset) (c r : Nat) : Nat := offKey o * 32 + 8 * c + r

/-- A write to a field that commits something at cells: under a HARD cursor it is a plain field of the block (R111, R161, R163,
R164). -/
def feedCommit (rg : Region) (f v : Nat) (g : Feed) (k : Feed → List Offset → Feed) : Feed :=
  if g.hardCur then feedWrite rg f v g
  else
    match feedTargets rg f g with
    | .error e => g.fail e
    | .ok (g1, os, _) =>
      match cellFieldErr f v with
      | some e => g1.fail e
      | none => k g1 os

/-- LOCAL_REGISTER_COMMIT (R111). -/
def feedLreg (rg : Region) (v : Nat) (g : Feed) : Feed :=
  feedCommit rg 26 v g fun g1 os =>
    { g1 with
      plane := os.foldl (fun p o => setField p o 26 v) g1.plane,
      lregs := os.foldl (fun m o =>
        let sel := planeField g1.plane o 24
        aset m (lregKey o (bitsOf sel 3 2) (bitsOf sel 0 3)) (BitVec.ofNat 32 (v % 256 * 2 ^ 24 + planeField g1.plane o 25))) g1.lregs }

/-- The beat assembled by F81 to F91 (R161). -/
def initBeat (p : Plane) (o : Offset) : Payload :=
  BitVec.ofNat 256 (natOfElems 24 ((List.range 11).map fun i => planeField p o (81 + i)))

/-- BANK_INIT_COMMIT (R161). DESIGN CHOICE (log 141): BADDR is 0 behind a commit that ends at beat 2,047. -/
def feedBinit (rg : Region) (v : Nat) (g : Feed) : Feed :=
  feedCommit rg 92 v g fun g1 os =>
    let n := v % 2048 + 1
    if os.any fun o => decide (2048 < planeField g1.plane o 80 + n) then g1.fail .bankInitOutOfRange
    else
      { g1 with
        binit := g1.binit ++ os.map fun o => (offKey o, planeField g1.plane o 80, n, initBeat g1.plane o),
        plane := os.foldl (fun p o => setField (setField p o 92 v) o 80 ((planeField g1.plane o 80 + n) % 2048)) g1.plane }

/-- TILE_PRELOAD (R161): the segment is a tile store and the mask a run of m bits from bit 0. -/
def feedPreload (rg : Region) (v : Nat) (g : Feed) : Feed :=
  feedCommit rg 93 v g fun g1 os =>
    let m := ((List.range 16).takeWhile fun i => bitsOf v i 1 == 1).length
    if m = 0 ∨ bitsOf v 0 16 ≠ 2 ^ m - 1 then g1.fail .illegalTilePreload
    else if os.any fun o =>
        let d := segDesc g1.plane o (bitsOf v 21 3)
        d.typ != 2 || decide (d.param + 1 < m) then g1.fail .illegalTilePreload
    else { g1 with plane := os.foldl (fun p o => setField p o 93 v) g1.plane,
                   preload := g1.preload ++ os.map fun o => (offKey o, bitsOf v 21 3, m) }

/-- The streams behind this one begin with the plane as it stands (R301). -/
def Feed.next (f : Feed) : Feed :=
  match f.more with
  | [] => { f with closed := true, words := [] }
  | (test, w) :: t =>
    { f with
      words := w, more := t, complete := !test, begun := false, cursor := none, hardCur := false, autox := false, rect := none,
      last := none, sum := 0 }

/-- ENDS (R148 to R150, R300): the checksum, the layout of a partial stream against the version in force now, then the
checks on the final values. -/
def feedEnds (s : State) (rg : Region) (c : Nat) (f : Feed) : Feed :=
  if !f.begun then f.fail .illegalCursorOp
  else if f.sum % 2 ^ 28 ≠ c then f.fail .checksumMismatch
  else if !f.complete && f.tag != (sectAt (seqAt s rg.id.seq) rg.id.sect).lv % 2 ^ 14 then f.fail .staleLayout
  else
    match (planeErr rg f.plane).or ((blocksErr rg f).or (bridgeErr s rg f.plane)) with
    | some e => f.fail e
    | none => f.next

/-! ### The words as instructions -/

/-- A load ends: a checked plane stands ready for the swap, or its error (R300). -/
def loadEnded (s : State) (r : RegId) (f : Feed) : State :=
  let q := seqAt s r.seq
  let x := sectAt q r.sect
  match f.for_ with
  | .install => s
  | .load =>
    let q1 := match f.err with
      | some e => { q with errNo := e.number, errStage := 2 }
      | none => q
    setSeq s r.seq (setSect q1 r.sect { x with loadErr := f.err })

/-- A beat of a bank; zero beats are not listed. -/
def putBankBeat (m : AMap Payload) (a : Nat) (p : Payload) : AMap Payload := if p = 0 then adel m a else aset m a p

/-- The bank with one commit applied: n beats from a, their poison cleared. -/
def initBank (c : Cell) (a n : Nat) (p : Payload) : Cell :=
  { c with bank := (List.range n).foldl (fun m i => putBankBeat m (a + i) p) c.bank,
           bpois := c.bpois.filter fun w => !(decide (a ≤ w / 4) && decide (w / 4 < a + n)) }

/-- The bank commits of a load act at their writes, in the banks of the region as it stands (R148, R357, log 64). -/
def bankActs (rg : Region) (g : Feed) : Region :=
  if g.for_ == .load then
    (g.binit.drop ((rg.feed.map (·.binit.length)).getD 0)).foldl (fun r x =>
      match aget r.cells x.1 with
      | some c => { r with cells := aset r.cells x.1 (initBank c x.2.1 x.2.2.1 x.2.2.2) }
      | none => r) rg
  else rg

/-- A stream as one word leaves it: a load that has closed ends. -/
def feedPut (s : State) (rg0 : Region) (g : Feed) : State :=
  let rg := bankActs rg0 g
  if g.closed && g.for_ == .load then
    loadEnded (setRegion s { rg with feed := none, shadow := if g.err.isNone then some g else none }) rg.id g
  else setRegion s { rg with feed := some g }

/-- Feed the word at the head of a region's stream; `adds`: it counts in the checksum. -/
def cfgRun (adds : Bool) (k : Region → Feed → Feed) (s : State) : Host.Outcome State Fault Refusal :=
  match s.actor with
  | .cfg r =>
    match regionAt s r with
    | none => .next s
    | some rg =>
      match rg.feed with
      | none => .next s
      | some f =>
        match f.words with
        | [] => .next s
        | w :: t =>
          if f.closed then .next s
          else
            .next (feedPut s rg (k rg { f with words := t, sum := if adds then f.sum + w.toNat else f.sum }))
  | _ => .next s

def execSetc (x y : BitVec 14) (s : State) : Host.Outcome State Fault Refusal := cfgRun true (fun rg f => feedSet rg x y false f) s
def execMovc (x y : BitVec 14) (s : State) : Host.Outcome State Fault Refusal := cfgRun true (fun rg f => feedMove rg x y f) s
def execAutox (x y : BitVec 14) (s : State) : Host.Outcome State Fault Refusal := cfgRun true (fun rg f => feedSet rg x y true f) s
def execRect (x y : BitVec 14) (s : State) : Host.Outcome State Fault Refusal := cfgRun true (fun rg f => feedRect rg x y f) s
def execHard (x y : BitVec 14) (s : State) : Host.Outcome State Fault Refusal := cfgRun true (fun rg f => feedHard rg x y f) s
def execVers (x y : BitVec 14) (s : State) : Host.Outcome State Fault Refusal :=
  cfgRun true (fun rg f => feedVers rg.id.sect x y f) s
def execEnds (c : BitVec 28) (s : State) : Host.Outcome State Fault Refusal :=
  cfgRun false (fun rg f => feedEnds s rg c.toNat f) s
def execWrite (f : BitVec 7) (v : BitVec 24) (s : State) : Host.Outcome State Fault Refusal :=
  cfgRun true (fun rg g => feedWrite rg f.toNat v.toNat g) s
def execLocalRegisterCommit (v : BitVec 24) (s : State) : Host.Outcome State Fault Refusal :=
  cfgRun true (fun rg g => feedLreg rg v.toNat g) s
def execBankInitCommit (v : BitVec 24) (s : State) : Host.Outcome State Fault Refusal :=
  cfgRun true (fun rg g => feedBinit rg v.toNat g) s
def execTilePreload (v : BitVec 24) (s : State) : Host.Outcome State Fault Refusal :=
  cfgRun true (fun rg g => feedPreload rg v.toNat g) s

end Sys2Proof.Machine
end

