-- ==== Sys2Proof/Machine/Install.lean ====
section
/-! DEFINITION. A plane going live: installing a region (R28, R100, R111, R161), draining and swapping (R357, R358), the
occupancy map (R356). -/

namespace Sys2Proof.Machine

/-! ### What a feed initialises (R111, R161) -/

/-- A context with the registers that the stream commits; a commit clears the poison bit. -/
def initRegs (o : Offset) (m : AMap Word) (c : Nat) (x : CtxState) : CtxState :=
  { x with lregs := (List.range 8).map fun r => (aget m (lregKey o c r)).getD (x.lregs.getD r 0),
           lpois := BitVec.ofNat 8 (natOfElems 1 ((List.range 8).map fun r =>
             if (aget m (lregKey o c r)).isSome then 0 else if x.lpois.getLsbD r then 1 else 0)) }

/-- The register commits of one cell. -/
def regsCell (f : Feed) (o : Offset) (c : Cell) : Cell := { c with ctxs := (List.range 4).map fun k => initRegs o f.lregs k (ctxAt c k) }

/-- The commits of one cell, in order. -/
def initCell (f : Feed) (o : Offset) (c : Cell) : Cell :=
  (f.binit.filter fun x => x.1 == offKey o).foldl (fun c x => initBank c x.2.1 x.2.2.1 x.2.2.2) (regsCell f o c)

/-- Buffers 0 to m - 1 of a store are full (R161, R368). -/
def fillBuffers (n m : Nat) (x : SegState) : SegState :=
  { x with full := (List.range n).map fun i => decide (i < m) || x.full.getD i false, rp := 0, wp := m % n, fill := 0 }

/-- The preloads of one cell. DEDUCED (log 143): F93 sets the full bits that it names and clears none. -/
def preloadCell (f : Feed) (p : Plane) (o : Offset) (c : Cell) : Cell :=
  (f.preload.filter fun x => x.1 == offKey o).foldl (fun c x =>
    setSeg c x.2.1 (fillBuffers ((segDesc p o x.2.1).param + 1) x.2.2 (segAt c x.2.1))) c

/-- A cell as installed. -/
def freshCell (f : Feed) (p : Plane) (o : Offset) : Cell :=
  preloadCell f p o (initCell f o { ctr := bitsOf (planeField p o 12) 4 2 })

/-! ### Contexts that a commit writes (R318, R324) -/

/-- The fields of context c that travel with its node. -/
def ctxFields (c : Nat) : List Nat :=
  [3 * c, 3 * c + 1, 3 * c + 2, 19 + c, 56 + 2 * c, 57 + 2 * c] ++ (List.range 6).map fun i => portKey c (13 + i)

/-- Set or clear a field of a position. -/
def putField (p : Plane) (o : Offset) (f : Nat) (v : Option (BitVec 24)) : Plane :=
  match v with
  | some x => aset p (offKey o) (aset (agetD p (offKey o) []) f x)
  | none => match aget p (offKey o) with
    | some fs => aset p (offKey o) (adel fs f)
    | none => p

/-- Enable or disable a context; a headroom cell that is woken has no other one enabled. -/
def setEn (p : Plane) (o : Offset) (c : Nat) (en : Bool) : Plane :=
  let v := if (aget p (offKey o)).isNone then 0 else planeField p o 12
  let b := bitsOf v c 1
  setField p o 12 (v - b * 2 ^ c + (if en then 2 ^ c else 0))

/-- Copy a context's fields to another one, which is enabled. -/
def copyCtx (p : Plane) (a b : Offset × Nat) : Plane :=
  ((ctxFields a.2).zip (ctxFields b.2)).foldl (fun q x => putField q b.1 x.2 ((aget p (offKey a.1)).bind fun fs => aget fs x.1))
    (setEn p b.1 b.2 true)

/-- Clear a context's fields and disable it. -/
def clearCtx (p : Plane) (a : Offset × Nat) : Plane :=
  setEn ((ctxFields a.2).foldl (fun q f => putField q a.1 f none) p) a.1 a.2 false

/-- The plane with one node back at its written position. -/
def unmove (p : Plane) (l : NodeLayout) : Plane :=
  match l.folded, l.copies with
  | true, a :: _ => clearCtx (copyCtx p a l.home) a
  | _, cs => (cs.drop 1).foldl clearCtx p

/-- The plane with every node at its written position (R325). -/
def writtenPlane (rg : Region) : Plane := (rg.layouts.foldl unmove rg.plane).filter fun x => rg.holds (keyOff x.1)

/-! ### The hard blocks of a region (R17) -/

/-- The tops of the blocks that lie whole in the rectangle, by dy and then dx. -/
def wholeTops (rg : Region) : List Offset :=
  ((List.range rg.h).map fun j => (List.range rg.w).map fun i => (⟨(i : Nat), (j : Nat)⟩ : Offset)).flatten.filter fun o =>
    rg.hardCol o.dx && rg.blockRow o == 0 && rg.holds ⟨o.dx, o.dy + 3⟩

/-- The engine settings at install (R252). -/
def freshMe (o : Offset) : Me := { off := o }

/-- Layouts by NID. -/
def insertLayout (x : NodeLayout) : List NodeLayout → List NodeLayout
  | [] => [x]
  | y :: t => if x.nid ≤ y.nid then x :: y :: t else y :: insertLayout x t

/-- The written layout of every registered node, by NID. -/
def writtenLayouts (rg : Region) (p : Plane) : List NodeLayout :=
  (nidsOf rg p).foldr (fun x l => insertLayout { nid := x.1, home := x.2, copies := [x.2] } l) []

/-- A region with its plane installed. -/
def installPlane (rg : Region) (f : Feed) (ls : List Link) (lays : List NodeLayout) : Region :=
  let tops := wholeTops rg
  { rg with
    plane := f.plane, tag := f.tag, installed := true, feed := none, links := ls, layouts := lays,
    cells := (cellsOf rg f.plane).foldl (fun m o => aset m (offKey o) (freshCell f f.plane o)) [],
    sps := (tops.filter rg.blockIsSp).map fun o => { off := o },
    mes := (tops.filter fun o => !rg.blockIsSp o).map freshMe }

/-! ### Circuit numbers (R96) -/

/-- The circuits that other regions hold: bridge direction and number. -/
def circuitsHeld (s : State) (r : RegId) : List (Nat × Nat) :=
  ((s.regions.filter fun g => g.id != r).map fun g => (g.links.map fun l => l.crossings.map fun x => (x.dir, x.circ)).flatten).flatten

/-- The lowest free number of a direction. -/
def nextCircuit (used : List (Nat × Nat)) (dir : Nat) : Nat :=
  ((List.range 1024).find? fun c => !used.contains (dir, c)).getD 0

/-- Give every bridge circuit of one link its number. -/
def numberLink (used : List (Nat × Nat)) (l : Link) : Link × List (Nat × Nat) :=
  let (xs, u) := l.crossings.foldl (fun (a : List Crossing × List (Nat × Nat)) x =>
    let c := if 8 ≤ x.dir then x.circ else nextCircuit a.2 x.dir
    (a.1 ++ [{ x with circ := c }], (x.dir, c) :: a.2)) ([], used)
  ({ l with crossings := xs }, u)

/-- The links of a region with their circuits numbered. -/
def numberCircuits (s : State) (r : RegId) (ls : List Link) : List Link :=
  (ls.foldl (fun (a : List Link × List (Nat × Nat)) l =>
    let (l1, u) := numberLink a.2 l
    (a.1 ++ [l1], u)) ([], circuitsHeld s r)).1

/-! ### The T16 exchange (R83, R331) -/

/-- A descriptor of a T16 track with its track exchanged: `ew` in row channels, `ns` in column channels. -/
def exchDesc (ew ns : Bool) (d : Nat) : Nat :=
  if descClass d = 2 ∧ descIndex d < 2 ∧ (if descSide d % 2 = 1 then ew else ns) = true then d ^^^ 1 else d

/-- The descriptor at bit lo of a field value exchanged. -/
def exchAt (ew ns : Bool) (lo v : Nat) : Nat :=
  let d := bitsOf v lo 7
  v - d * 2 ^ lo + exchDesc ew ns d * 2 ^ lo

/-- A field value exchanged; `hard`: a field of a hard block. -/
def exchField (ew ns hard : Bool) (f v : Nat) : Nat :=
  let sw (v : Nat) : Nat :=
    if swKind v = 1 then exchAt ew ns 7 (exchAt ew ns 14 v) else if swKind v = 2 then exchAt ew ns 14 v else v
  if hard then
    if 1 ≤ f ∧ f ≤ 4 then (if bitsOf v 16 1 = 1 then exchAt ew ns 17 v else v)
    else if 5 ≤ f ∧ f ≤ 8 then (if bitsOf v 23 1 = 1 then exchAt ew ns 16 v else v)
    else if 32 ≤ f ∧ f ≤ 95 then sw v else v
  else if 13 ≤ f ∧ f ≤ 16 then (if v = 0 then v else exchAt ew ns 17 v)
  else if f = 17 ∨ f = 18 then (if bitsOf v 23 1 = 1 then exchAt ew ns 16 v else v)
  else if 32 ≤ f ∧ f ≤ 47 then sw v else v

/-- The words of a stream exchanged, with ENDS kept as right or wrong as it was; `diff` is what the words gained. -/
def exchWords (ew ns : Bool) : Bool → Int → List Word → List Word
  | _, _, [] => []
  | hard, diff, w :: t =>
    let n := w.toNat / 2 ^ 28
    if n < 8 then
      let v := w.toNat % 2 ^ 24
      let v1 := exchField ew ns hard (w.toNat / 2 ^ 24) v
      BitVec.ofNat 32 (w.toNat - v + v1) :: exchWords ew ns hard (diff + v1 - v) t
    else if n = 0xD then
      BitVec.ofNat 32 (0xD * 2 ^ 28 + (((w.toNat % 2 ^ 28 : Nat) : Int) + diff).emod (2 ^ 28 : Int) |>.toNat) :: exchWords ew ns hard 0 t
    else w :: exchWords ew ns (if n = 0xC then hard else n == 0xE) diff t

/-- Which T16 tracks are exchanged at an origin for phases cph and rph: those of row channels, those of column channels. -/
def exchPhase (cph rph : Nat) (org : Pos) : Bool × Bool := ((org.x + 16 - cph) % 16 == 8, (org.y + 16 - rph) % 16 == 8)

/-- A stream as the loader feeds it at an origin, for a section with phases cph and rph. -/
def placeWords (cph rph : Nat) (org : Pos) (ws : List Word) : List Word :=
  let (ew, ns) := exchPhase cph rph org
  if ew || ns then exchWords ew ns false 0 ws else ws

/-! ### Drain (R357) -/

/-- A source: it fires without a port (R338). -/
def sourceInstr : Instr → Bool
  | .gen _ => true
  | .fscan w | .spbsend w => w.srcA == .none
  | _ => false

/-- Every beat of a link. -/
def Link.allBeats (l : Link) : List Beat :=
  l.queue ++ l.pipe ++ l.lat.filterMap (fun x => x) ++ l.cvin ++ l.part ++ l.cvq ++ (l.crossings.map (·.far)).flatten

/-- The round whose closing marker a link's producer has still to emit. -/
def Link.sentRound (l : Link) : Nat := (l.allBeats.filter (·.isClosing)).foldl (fun n b => max n (b.markRound + 1)) l.round

/-- The links out of a region's sources and hard blocks, with the current round of each (R81, R357). -/
def drainOutputs (rg : Region) : List (LinkEnd × Nat) :=
  rg.links.filterMap fun l =>
    if !l.live || l.src.far then none
    else if l.src.hard then some (l.src, l.sentRound)
    else
      match nodeInstr rg ⟨rg.id, l.src.off, l.src.ctx⟩ with
      | some i => if sourceInstr i then some (l.src, (ctxAt (cellAt rg l.src.off) l.src.ctx).op.round) else none
      | none => none

/-- A drain begins: no sink has consumed a DRN yet. -/
def beginDrain (rg : Region) (now : Nat) : Region :=
  { rg with drain := some { start := now, owed := drainOutputs rg }, links := rg.links.map fun l => { l with drn := false } }

/-- Inject the DRNs that are still owed where a link takes one. -/
def injectDrains (rg : Region) : Region :=
  match rg.drain with
  | none => rg
  | some d =>
    d.owed.foldl (fun r x =>
      let b := markBeat 4 x.2 0
      if r.roomFor x.1.off x.1.hard x.1.ctx x.1.port [b] then
        { (r.emitPort x.1.off x.1.hard x.1.ctx x.1.port [b]) with
          drain := r.drain.map fun y => { y with owed := y.owed.filter (· != x) } }
      else r) rg

/-- Beats of a region that are on a bridge. -/
def bridgeBeats (s : State) (r : RegId) : List (Nat × Beat) :=
  (s.bridges.map fun b => ((b.wire.filter fun x => x.reg == r).map fun x => (x.link, x.beat))).flatten

/-- A sink of a drain (R357): a hard block's port, a Slaundene port, or a node without an output. -/
def drainSink (rg : Region) (e : LinkEnd) : Bool :=
  e.hard || !(rg.links.any fun l => l.live && !l.src.hard && l.src.off == e.off && l.src.ctx == e.ctx && decide (l.src.port < 6))

/-- DRN has been injected everywhere, and every sink has consumed one on each input (R357, log 107). -/
def sinksDone (rg : Region) : Bool :=
  rg.drain.any (fun d => d.owed.isEmpty) && rg.links.all fun l => !l.live || !l.dist.isEmpty || !drainSink rg l.dst || l.drn

/-- The port of a link's destination as PORT[2:0] of the map gives it. -/
def mapPort (rg : Region) (l : Link) : Nat := (if l.dst.hard then 4 else 0) + (rg.endPlace l.dst).2.2

/-- The order of R356: dy, dx, context, port of the destination's written place. -/
def destKey (rg : Region) (l : Link) : Nat :=
  let a := rg.endPlace l.dst
  (((a.1.dy + 1024).toNat * 4096 + (a.1.dx + 1024).toNat) * 4 + a.2.1) * 8 + mapPort rg l

/-- Links by destination. -/
def insertLink (rg : Region) (x : Nat × Link) : List (Nat × Link) → List (Nat × Link)
  | [] => [x]
  | y :: t => if destKey rg x.2 ≤ destKey rg y.2 then x :: y :: t else y :: insertLink rg x t
def linksInOrder (rg : Region) : List (Nat × Link) :=
  (((List.range rg.links.length).zip rg.links).filter fun x => x.2.live).foldr (insertLink rg) []

/-- A token that a drained region may not hold (R358). -/
def strayBeat (b : Beat) : Bool := !b.isMark

/-- The first stray token: its fault (R358). -/
def strayFault (s : State) (rg : Region) : Option FaultInfo :=
  (linksInOrder rg).findSome? fun x =>
    let beats := x.2.allBeats ++ ((bridgeBeats s rg.id).filter fun y => y.1 == x.1).map (·.2)
    (beats.find? strayBeat).map (linkFault rg x.2 clsStray 0x02)

/-! ### The occupancy map (R356) -/

/-- One entry of the map. -/
def mapEntry (rg : Region) (l : Link) : List Byte :=
  let head := match l.heads with
    | [] => 0
    | b :: _ => 1 + 2 * (match b.kind with | .data => 0 | .stop => 1 | .mark => 2 | .cfg => 3) + 8 * b.level.toNat +
        (if b.spec then 64 else 0)
  let a := rg.endPlace l.dst
  offBytes a.1.dx ++ offBytes a.1.dy ++
    [BitVec.ofNat 8 (a.2.1 + 4 * mapPort rg l), BitVec.ofNat 8 (min l.allBeats.length 255),
     BitVec.ofNat 8 head, BitVec.ofNat 8 l.free.toNat]

/-- Write the map of a region, as much as HMLEN takes. -/
def writeMap (s : State) (rg : Region) : State :=
  let p := rg.id.seq.part
  let pt := partAt s p
  let ls := linksInOrder rg
  let fit := (pt.hmLen.toNat - 16) / 8
  let ents := (ls.take fit).map fun x => mapEntry rg x.2
  let bs := bytesOfNat 4 ls.length ++ bytesOfNat 2 (pt.rseq + 1).toNat ++ [if fit < ls.length then 1 else 0] ++ List.replicate 9 0 ++ ents.flatten
  let key := if pt.hmHost then hostKey pt.hmBase else dramKey (partDie p) pt.hmBase
  if pt.hmLen.toNat < 16 then s
  else devWrite s (if pt.hmHost then 0 else partBinding s p) key bs false

/-! ### The swap (R357) -/

/-- A cell after a swap: segments whose field is the same keep their state, the others start empty, and the bank bytes are unchanged.
DESIGN CHOICE (log 142): CTR, and the registers that the new stream does not commit, stay. -/
def swapCell (p0 p1 : Plane) (f : Feed) (o : Offset) (c : Cell) : Cell :=
  let same (n : Nat) : Bool := planeField p0 o (48 + n) == planeField p1 o (48 + n)
  let segs := (List.range 8).map fun n => if same n then segAt c n else {}
  preloadCell f p1 o (regsCell f o { c with segs := segs })

/-- The planes are exchanged at every position; the section is back in its written layout (R325). An engine whose block the stream
has written a field of is as at install (R244). -/
def swapPlane (rg : Region) (f : Feed) (ls : List Link) (lays : List NodeLayout) : Region :=
  { rg with
    plane := f.plane, tag := f.tag, shadow := none, drain := none, links := ls, layouts := lays,
    cells := (cellsOf rg f.plane).foldl (fun m o =>
      aset m (offKey o) (match aget rg.cells (offKey o) with
        | some c => swapCell rg.plane f.plane f o c
        | none => freshCell f f.plane o)) [],
    mes := rg.mes.map fun m => if f.hardSet.contains m.off then freshMe m.off else m }

end Sys2Proof.Machine
end

