-- ==== Sys2Proof/Machine/Layout.lean ====
section
/-! DEFINITION. The layouts of registered nodes (R317 to R323): the links of copies, distributors and merges, and what a transition
does to a region. -/

namespace Sys2Proof.Machine

/-- Where a node stands: its only position, or copy 0. -/
def NodeLayout.at_ (l : NodeLayout) : Offset × Nat := l.copies.headD l.home

/-- The node word of a registered node. -/
def Region.layoutWord (rg : Region) (l : NodeLayout) : NodeWord := NodeWord.ofBits (nodeBits rg.plane l.at_.1 l.at_.2)

/-- FOLD and MAXC, class and COMB of a node: they stay at its written position (R160). -/
def Region.classField (rg : Region) (l : NodeLayout) : Nat := planeField rg.plane l.home.1 (72 + 2 * l.home.2)
def Region.mayFold (rg : Region) (l : NodeLayout) : Bool := bitsOf (rg.classField l) 16 1 == 1
def Region.maxCopies (rg : Region) (l : NodeLayout) : Nat := bitsOf (rg.classField l) 17 2 + 1

/-- A REDUCIBLE node whose combination may round or saturate (R322). -/
def Region.rounds (rg : Region) (l : NodeLayout) : Bool :=
  let v := rg.classField l
  bitsOf v 22 2 == 1 && (bitsOf v 19 3 == 6 || (bitsOf v 19 3 == 0 && (rg.layoutWord l).sat))

/-- A node that DET keeps whole (R322). -/
def Region.detKeeps (rg : Region) (l : NodeLayout) : Bool := rg.det && rg.rounds l

/-! ### Links of a commit (R320, R324) -/

/-- Written input links and output links of a node, by index: those that end or start at its port, distributor or merge. -/
def Region.nodeIns (rg : Region) (l : NodeLayout) : List Nat :=
  (List.range rg.links.length).filter fun k => match rg.linkAt k with
    | some x => x.live && !x.dst.hard && x.dst.off == l.at_.1 && x.dst.ctx == l.at_.2 && decide (x.dst.port < 4) && decide (x.src.hard || x.src.port < 6)
    | none => false
def Region.nodeOuts (rg : Region) (l : NodeLayout) : List Nat :=
  (List.range rg.links.length).filter fun k => match rg.linkAt k with
    | some x => x.live && !x.src.hard && x.src.off == l.at_.1 && x.src.ctx == l.at_.2 && (x.src.port == 4 || x.src.port == 5) && decide (x.dst.hard || x.dst.port < 4)
    | none => false

/-- The links of a node's copies, between distributors, copies and merges. -/
def Region.copyLinks (rg : Region) (l : NodeLayout) : List Nat :=
  ((rg.nodeIns l ++ rg.nodeOuts l).map fun k => match rg.linkAt k with
    | some x => x.dist ++ x.merge
    | none => []).flatten

/-- Change links. -/
def Region.modLinks (rg : Region) (ks : List Nat) (f : Link → Link) : Region := ks.foldl (fun r k => r.modLink k f) rg

/-- Put a link at a dead index, or behind the others. -/
def Region.putLink (rg : Region) (x : Link) : Region × Nat :=
  match rg.links.findIdx? fun y => !y.live with
  | some k => (rg.modLink k fun _ => x, k)
  | none => ({ rg with links := rg.links ++ [x] }, rg.links.length)

/-- The box where an end of a link stands: a hard block has one on each of its four rows. -/
def LinkEnd.box (e : LinkEnd) : Offset := if e.hard then ⟨e.off.dx, e.off.dy + e.port⟩ else e.off

/-- A link that a commit lays: empty, on a route, with circuits of share 8 (R318). -/
def Link.laid (rg : Region) (l : Link) (route : List (Offset × Nat)) (extra : Nat) : Link :=
  let xs := l.farCrossings route.length (crossingsOf rg 8 (l.cap + 8) route)
  let y := { l with route := route, lat := List.replicate (route.length + extra) none, crossings := xs, ret := 0 }
  { y with free := if l.src.far then l.free else ((y.cap + y.share : Nat) : Int) }

/-- A link between a distributor or a merge and a copy. -/
def copyLink (rg : Region) (l : Link) (src dst : LinkEnd) (slots : Nat) (fmt : Fmt) (route : List (Offset × Nat)) : Link :=
  ({ src := src, dst := dst, fmtS := fmt, fmtD := fmt, slots := slots, clvl := l.clvl, rchk := l.rchk, round := l.round, eoi := l.eoi } :
    Link).laid rg route 0

/-- Beats that a node emits per firing. -/
def beatsOf (p : Plane) (a : Offset × Nat) : Nat := max 1 (((shapeOf (nodeAt p a.1 a.2)).map (·.beats)).getD 1)

/-- A node's links without distributors and merges. -/
def Region.unwire (rg : Region) (l : NodeLayout) : Region :=
  let dead := rg.modLinks (rg.copyLinks l) fun x => { x with live := false, dist := [], merge := [], crossings := [] }
  let ends (f : Link → Link) (x : Link) : Link := let y := f x; { y with lat := x.lat.drop (x.extra - y.extra) }
  (dead.modLinks (rg.nodeIns l) (ends fun x => { x with dist := [], distTurn := 0 })).modLinks (rg.nodeOuts l)
    (ends fun x => { x with merge := [], mergeTurn := 0, combining := false })

/-- Where the links of a plan begin and end: those of a new copy at a position, between it and the distributors and merges at the node's
written cell; those of a node that moves there, between it and the other ends (R318). -/
def Region.planEnds (rg : Region) (l : NodeLayout) (clone : Bool) (a : Offset) : List (Offset × Offset) :=
  let h := l.home.1
  (rg.nodeIns l).map (fun k => (if clone then h else ((rg.linkAt k).map (·.src.box)).getD h, a)) ++
    (rg.nodeOuts l).map fun k => (a, if clone then h else ((rg.linkAt k).map (·.dst.box)).getD h)

/-- The route of copy c's link at an end of copy 0's links: none for copy 0, its own for a copy that is there already, the plan's for a new
one. `port` is that of the copy's end, `into`: the link ends there. -/
def Region.copyRoute (rg : Region) (l : NodeLayout) (c : Offset × Nat) (port : Nat) (into : Bool) (planned : List (Offset × Nat)) :
    List (Offset × Nat) :=
  let e : LinkEnd := ⟨c.1, false, c.2, port⟩
  if c = l.home then []
  else
    match rg.links.find? fun x => x.live && (if into then x.dst == e && decide (8 ≤ x.src.port) && !x.src.hard
        else x.src == e && decide (6 ≤ x.dst.port) && !x.dst.hard) with
    | some x => x.route
    | none => planned

/-- Add the links of the copies at one written link, in copy order. -/
def Region.wireOne (rg : Region) (k : Nat) (mk : Link → Offset × Nat → Link) : List (Offset × Nat) → Region × List Nat
  | [] => (rg, [])
  | c :: t =>
    match rg.linkAt k with
    | none => (rg, [])
    | some x =>
      let (r1, j) := rg.putLink (mk x c)
      let (r2, js) := r1.wireOne k mk t
      (r2, j :: js)

/-- A written link with one more latch or two for what the commit inserts. -/
def Link.lengthened (f : Link → Link) (x : Link) : Link :=
  let y := f x
  { y with lat := x.lat ++ List.replicate (y.extra - x.extra) none }

/-- Distributors in front of the copies and merges behind them (R319, R320). `old` is the region as it stood, `routes` are the plan's for a
new copy. -/
def Region.wire (rg old : Region) (l : NodeLayout) (routes : List (List (Offset × Nat))) : Region :=
  let n := beatsOf rg.plane l.home
  let ins := rg.nodeIns l
  let outs := rg.nodeOuts l
  let r1 := ins.zipIdx.foldl (fun r y =>
    let (r1, js) := r.wireOne y.1 (fun x c =>
      copyLink rg x ⟨c.1, false, c.2, 8 + x.dst.port⟩ ⟨c.1, false, c.2, x.dst.port⟩ x.slots x.fmtD
        (old.copyRoute l c x.dst.port true (routes.getD y.2 []))) l.copies
    r1.modLink y.1 (Link.lengthened fun x => { x with dist := js, distTurn := 0 })) rg
  outs.zipIdx.foldl (fun r y =>
    let (r1, js) := r.wireOne y.1 (fun x c =>
      copyLink rg x ⟨c.1, false, c.2, x.src.port⟩ ⟨c.1, false, c.2, 2 + x.src.port⟩ n x.fmtS
        (old.copyRoute l c x.src.port false (routes.getD (ins.length + y.2) []))) l.copies
    r1.modLink y.1 (Link.lengthened fun x =>
      { x with merge := js, mergeTurn := 0, mergeN := n, combining := bitsOf (rg.classField l) 22 2 == 1 })) r1

/-- A folded or unfolded node's links end and start at its new place, on the plan's routes. -/
def Region.moveEnds (rg : Region) (l : NodeLayout) (b : Offset × Nat) (routes : List (List (Offset × Nat))) : Region :=
  let ins := rg.nodeIns l
  let r1 := ins.zipIdx.foldl (fun r y => r.modLink y.1 fun x =>
    ({ x with dst := { x.dst with off := b.1, ctx := b.2 } } : Link).laid rg (routes.getD y.2 []) x.extra) rg
  (rg.nodeOuts l).zipIdx.foldl (fun r y => r.modLink y.1 fun x =>
    ({ x with src := { x.src with off := b.1, ctx := b.2 } } : Link).laid rg (routes.getD (ins.length + y.2) []) x.extra) r1

/-! ### What becomes of the state (R320, R321, R324) -/

/-- A new copy: copy 0's local registers, its partial absent (R320, R321). -/
def copyState (x : CtxState) : CtxState :=
  { lregs := x.lregs, lpois := x.lpois, op := { round := x.op.round, roundB := x.op.roundB, eoi := x.op.eoi } }

/-- The partials of two copies as one, element by element with COMB (R321); `counts`: the node is a COUNT. -/
def joinPartials (w : NodeWord) (comb : Nat) (counts : Bool) (x y : OpState) : OpState :=
  let els := (List.range (max x.acc.length y.acc.length)).map fun i =>
    match x.acc.getD i none, y.acc.getD i none with
    | some a, some b => some (combine w comb a b)
    | some a, none => some a
    | none, o => o
  { x with acc := els, cnt := if counts then combine w comb x.cnt y.cnt else x.cnt, any := x.any || y.any,
           pois := x.pois || y.pois, sideA := { x.sideA with open_ := x.sideA.open_ ||| y.sideA.open_ } }

/-- Copy 0 takes over the partial and the counts of a copy that goes: no element and no count is lost (R321, R322). -/
def joinCopy (w : NodeWord) (cls comb : Nat) (counts : Bool) (x y : CtxState) : CtxState :=
  let n := countAdd x.cnt y.cnt
  { x with cnt := n, ovf := x.ovf || y.ovf || countFull n, spec := x.spec ++ y.spec, fires := x.fires + y.fires,
           op := if cls = 1 then joinPartials w comb counts x.op y.op else x.op }

/-- Put a context's state. -/
def Region.putCtx (rg : Region) (a : Offset × Nat) (x : CtxState) : Region := setCell rg a.1 (setCtx (cellAt rg a.1) a.2 x)

/-- Headroom cells with no enabled context go dark (R100, R318). -/
def dropGated (rg : Region) (p : Plane) : Plane := p.filter fun x => rg.holds (keyOff x.1) || bitsOf (planeField p (keyOff x.1) 12) 0 4 != 0

/-- The layout after a transition: 1 clone, 2 unclone, 3 fold, 4 unfold. -/
def NodeLayout.moveTo (l : NodeLayout) (a : Offset × Nat) : NodeLayout :=
  match l.want with
  | 1 => { l with copies := l.copies ++ [a], turn := 0, epoch := 0, taken := List.replicate (l.copies.length + 1) 0 }
  | 2 => { l with copies := l.copies.dropLast, turn := 0, epoch := 0, taken := List.replicate (l.copies.length - 1) 0 }
  | 3 => { l with copies := [a], folded := true }
  | _ => { l with copies := [l.home], folded := false }

/-- The last copy goes. -/
def dropCopy (rg : Region) (l : NodeLayout) : Region :=
  let b := l.copies.getLastD l.home
  let l1 := { l with copies := l.copies.dropLast }
  let v := rg.classField l
  let x := joinCopy (rg.layoutWord l) (bitsOf v 22 2) (bitsOf v 19 3) (nodeOpc rg.plane l.home.1 l.home.2 == 0x0A6)
    (ctxAt (cellAt rg l.home.1) l.home.2) (ctxAt (cellAt rg b.1) b.2)
  let r1 := ((rg.unwire l).putCtx l.home x).putCtx b {}
  let r2 : Region := { r1 with plane := dropGated rg (clearCtx rg.plane b) }
  if l1.copies.length < 2 then r2 else r2.wire rg l1 []

/-- The region with a transition carried out: plane, state of a moved node, links. -/
def transitionRegion (rg : Region) (l : NodeLayout) (plan : CommitPlan) : Region :=
  let a := (plan.off, plan.ctx)
  match l.want with
  | 1 =>
    let r1 := (rg.unwire l).putCtx a (copyState (ctxAt (cellAt rg l.home.1) l.home.2))
    ({ r1 with plane := copyCtx rg.plane l.home a } : Region).wire rg (l.moveTo a) plan.routes
  | 2 => dropCopy rg l
  | _ =>
    let from_ := l.at_
    let to_ := (l.moveTo a).at_
    let x := ctxAt (cellAt rg from_.1) from_.2
    let r1 := ((rg.moveEnds l to_ plan.routes).putCtx from_ {}).putCtx to_ x
    { r1 with plane := clearCtx (copyCtx rg.plane from_ to_) from_ }

/-- The counts of a rerouted link start again at the commit (R312); its producer waits until the record is written (R324). -/
def freshCounts (l : Link) : Link := { l with cheld := true, cuntil := none, tokens := 0, stall := 0, blocked := false }

/-! ### DET (R322) -/

/-- The written layout of a node that DET keeps whole: its copies go, one by one; fuel bounds them. -/
def uncloneAll (rg : Region) (l : NodeLayout) : Nat → Region
  | 0 => rg
  | f + 1 =>
    if l.copies.length < 2 then rg
    else uncloneAll (dropCopy rg l) { l with copies := l.copies.dropLast } f

/-- Ahead of an ARM under DET, the accumulators whose combination would round stand in their written layout (R322; log 128). True: some
layout has changed. -/
def detLayouts (rg : Region) : Region × Bool :=
  let ls := rg.layouts.filter fun l => rg.rounds l && decide (2 ≤ l.copies.length)
  let r1 := ls.foldl (fun r l => uncloneAll r l l.copies.length) rg
  ({ r1 with layouts := rg.layouts.map fun l => if ls.contains l then { l with copies := [l.home] } else l }, !ls.isEmpty)

end Sys2Proof.Machine
end

