-- ==== Sys2Proof/Machine/Memory.lean ====
section
/-! DEFINITION. Translation: table walks (R31 to R37), TLBs (R38), access counters and migration notices (R51 to R53), page
faults and their notices (R46 to R48). -/

namespace Sys2Proof.Machine

/-! ### Table walks (R30 to R37) -/

/-- Why a translation gives no target. -/
inductive Miss where
  /-- The page-fault path: cause and level (R46). -/
  | page (cause level : Nat)
  | bad (cls sub : Nat)
  /-- The line lies in another module, and has not come yet. -/
  | far (e : TlbEntry) (t : Target)
  deriving DecidableEq, Repr

/-- A canonical VA (R30). -/
def vaCanonical (va : Nat) : Bool := decide (va / 2 ^ 56 = 0) || decide (va / 2 ^ 56 = 2 ^ 8 - 1)

/-- log2 of the page that a leaf maps at a level, coarse or not (Table 3-1); 0: a leaf is illegal there. -/
def leafSize (level : Nat) (coarse : Bool) : Nat :=
  match level, coarse with
  | 1, _ => 36
  | 2, true => 31
  | 2, false => 26
  | 3, true => 21
  | 3, false => 16
  | _, _ => 0

/-- The index of a VA at a level (Table 3-1). -/
def levelIndex (va level : Nat) (coarse : Bool) : Nat :=
  match level, coarse with
  | 0, _ => bitsOf va 46 11
  | 1, _ => bitsOf va 36 10
  | 2, true => bitsOf va 31 5
  | 2, false => bitsOf va 26 10
  | _, true => bitsOf va 21 5
  | _, false => bitsOf va 16 10

def leafTgt (e : Nat) : Nat := bitsOf e 59 3
def leafKey (e : Nat) : Nat := bitsOf e 53 6
def leafRs (e : Nat) : Bool := bitsOf e 52 1 == 1
def leafIlv (e : Nat) : Nat := bitsOf e 50 2
def leafW (e : Nat) : Bool := bitsOf e 49 1 == 1
/-- FRAME in place: bits [47:16]. -/
def leafFrame (e : Nat) : Nat := bitsOf e 16 32 * 2 ^ 16

/-- The target address of a VA under a leaf: FRAME with the VA bits below the page size filled in (R33). -/
def targetAddr (size leaf va : Nat) : Nat :=
  if leafTgt leaf = 5 ∧ leafIlv leaf = 1 then leafFrame leaf else leafFrame leaf / 2 ^ size * 2 ^ size + va % 2 ^ size

/-- The k-th cell east of column c, counting from 0 and skipping hard columns (R36). -/
def cellEast (c k : Nat) : Nat :=
  -- c stands at place c mod 8 (0-6) of its group of seven cells
  let j := c % 8 + k
  (c / 8 + j / 7) * 8 + j % 7

/-- A target address is legal for its type (R34, R36); the limits that can change, such as a STAGE window, are checked
at the access. -/
def addrLegal (s : State) (part size leaf va : Nat) : Bool :=
  let t := targetAddr size leaf va
  match leafTgt leaf with
  | 0 => decide (t < 192 * gib)
  | 1 => decide (t < 2 ^ 40) && decide (t % 2 ^ 38 < 192 * gib) && t / 2 ^ 38 != partDie part
  | 2 => decide (t < 2 ^ 45) && decide (t % 2 ^ 44 < s.cxlCap.getD (t / 2 ^ 44) 0)
  | 3 => true
  | 4 => decide (t < 2 ^ 46) && decide (t % 2 ^ 38 < 192 * gib) && t / 2 ^ 40 != s.modId && decide (t / 2 ^ 40 < s.domSize)
  | 5 =>
    decide (t < 2 ^ 34) && bitsOf t 30 2 == 0 && bitsOf t 22 2 == 0 && bitsOf t 24 3 != 7 && decide (bitsOf t 16 6 ≤ 55) &&
      (leafIlv leaf != 1 || (decide (bitsOf t 16 6 ≤ 52) && decide (cellEast (bitsOf t 24 6) 7 ≤ 63)))
  | 6 =>
    decide (t < 2 ^ 34) && bitsOf t 20 2 == 0 && bitsOf t 26 3 == 7 && decide (bitsOf t 22 4 < 14) && bitsOf t 22 1 == 0
  | _ => decide (t < 2 ^ 32) && decide (t < Config.mmioSpace (partDie part))

/-- A page size and interleave that the target type admits (R33, R34, R36). -/
def pageLegal (size leaf : Nat) : Bool :=
  match leafTgt leaf, leafIlv leaf with
  | 5, 0 => size == 16
  | 5, 1 => size == 21
  | 6, 0 => size == 16
  | _, 0 => true
  | _, _ => false

/-- The target of a VA under a legal leaf (Table 3-4, R36). -/
def targetOf (part size leaf va : Nat) : Target :=
  let t := targetAddr size leaf va
  match leafTgt leaf with
  | 0 => .dram (partDie part) t
  | 1 => .dram (t / 2 ^ 38) (t % 2 ^ 38)
  | 2 => .cxl (t / 2 ^ 44) (t % 2 ^ 44)
  | 3 => .host t
  | 4 => .remote (t / 2 ^ 40) (bitsOf t 38 2) (t % 2 ^ 38)
  | 5 =>
    let d := bitsOf t 32 2
    let c := bitsOf t 24 6
    let r := bitsOf t 16 6
    let at_ (c r : Nat) : Pos := ⟨c + 64 * (d % 2), r + 56 * (d / 2)⟩
    if leafIlv leaf = 1 then
      let o := va % 2 ^ 21
      let j := o / 256
      let k := j % 32
      .bank (at_ (cellEast c (k % 8)) (r + k / 8)) (256 * (j / 32) + o % 256)
    else .bank (at_ c r) (t % 2 ^ 16)
  | 6 =>
    let d := bitsOf t 32 2
    .stage ⟨bitsOf t 26 6 + 64 * (d % 2), 4 * bitsOf t 22 4 + 56 * (d / 2)⟩ (t % 2 ^ 20)
  | _ => .mmio t

/-- The lines of the STAGE window (R67). -/
def stageLines (rg : Region) (o : Offset) : Nat := 256 * bitsOf (planeField rg.plane o 9) 0 4

/-- A STAGE target outside the window of its port (R67). -/
def stageOutside (s : State) (t : Target) : Bool :=
  match t with
  | .stage p off =>
    !(s.regions.any fun rg => rg.sps.any fun x => rg.posOf x.off == p && decide (off < 256 * stageLines rg x.off))
  | _ => false

/-- The XLATE subcode of a leaf, the lowest that applies (R37). -/
def leafFault (s : State) (part size leaf va : Nat) : Option Nat :=
  if bitsOf leaf 48 1 ≠ 0 ∨ bitsOf leaf 8 8 ≠ 0 then some 0x03
  else if size = 0 then some 0x04
  else if leafTgt leaf ≠ 5 ∧ leafFrame leaf % 2 ^ size ≠ 0 then some 0x05
  else if !addrLegal s part size leaf va || stageOutside s (targetOf part size leaf va) then some 0x06
  else if !pageLegal size leaf then some 0x07
  else none

/-- The target lies in resources of the walking partition's tenant (R37, R384). -/
def targetOwned (s : State) (part : Nat) (t : Target) : Bool :=
  let owned (o : Option Nat) : Bool := o.any fun q => sameTenant s part q
  match t with
  | .dram d a => owned (ownerOfDram s d a)
  | .cxl port off => s.cxlMap.any fun r => sameTenant s part r.part && r.port == port && decide (r.off ≤ off) && decide (off < r.off + r.len)
  | .bank p _ => owned (ownerOfPos s p)
  | .stage p _ => owned (ownerOfPos s p)
  | _ => true

/-- The target type is encrypted (R378). -/
def tgtCrypt (leaf : Nat) : Bool := leafTgt leaf == 0 || leafTgt leaf == 1 || leafTgt leaf == 2 || leafTgt leaf == 4

/-- The key checks of R378: PERM 0x05, then KEYREV 0x01. -/
def keyFault (s : State) (part leaf : Nat) : Option (Nat × Nat) :=
  if !tgtCrypt leaf then none
  else
    match s.slots[leafKey leaf]?, partSlot s part with
    | some k, some own =>
      if k.st != .bound then some (clsKeyrev, 0x01)
      else if k.tenant != own.tenant then some (clsPerm, 0x05)
      else none
    | _, _ => some (clsKeyrev, 0x01)

/-- The checks of a leaf that depend on the VA within its page or on state that can change: every access through the page makes
them, whether a TLB holds it or not (R37, R67, R378). XLATE comes first, then PERM, then the key. -/
def targetFault (s : State) (part size leaf va : Nat) : Option (Nat × Nat) :=
  if !addrLegal s part size leaf va || stageOutside s (targetOf part size leaf va) then some (clsXlate, 0x06)
  else if !targetOwned s part (targetOf part size leaf va) then some (clsPerm, 0x01)
  else keyFault s part leaf

/-- All checks of a leaf for an access (R37): XLATE, then those of every access; then W (R46). -/
def leafCheck (s : State) (part size leaf va : Nat) (write : Bool) (level : Nat) : Option Miss :=
  match leafFault s part size leaf va, targetFault s part size leaf va with
  | some k, _ => some (.bad clsXlate k)
  | none, some (c, k) => some (.bad c k)
  | none, none => if write && !leafW leaf then some (.page 0x02 level) else none

/-- The XLATE subcode of a pointer at a level, the lowest that applies. -/
def pointerFault (e level : Nat) (coarse : Bool) : Option Nat :=
  let gran := bitsOf e 60 2
  let tsize := if gran = 1 then 256 else 8192
  if 2 ≤ gran ∨ (level = 0 ∧ gran ≠ 0) then some 0x02
  else if bitsOf e 48 12 ≠ 0 then some 0x03
  else if 3 ≤ level ∨ (level = 2 ∧ coarse) then some 0x04
  else if bitsOf e 8 40 * 256 % tsize ≠ 0 then some 0x05
  else none

/-- A walk from a table of a level: fuel counts the levels left. DESIGN CHOICE: the poison of an entry's line is ignored (log
113). -/
def walkFrom (s : State) (part va : Nat) (write : Bool) : Nat → Nat → Bool → Nat → Except Miss TlbEntry
  | 0, level, _, _ => .error (.page 0x01 level)
  | n + 1, level, coarse, table =>
    let k := dramKey (partDie part) (table + 8 * levelIndex va level coarse)
    let e := natOfBytes (devRead s (partBinding s part) k 8).1
    match e / 2 ^ 62 with
    | 0 => .error (.page 0x01 level)
    | 1 =>
      match pointerFault e level coarse with
      | some c => .error (.bad clsXlate c)
      | none =>
        let next := bitsOf e 8 40 * 256
        let gran := bitsOf e 60 2
        if ownsLocal s part next (if gran = 1 then 256 else 8192) then walkFrom s part va write n (level + 1) (gran == 1) next
        else .error (.bad clsPerm 0x02)
    | 2 =>
      let size := leafSize level coarse
      match leafCheck s part size e va write level with
      | some m => .error m
      | none => .ok { base := va / 2 ^ size * 2 ^ size, size := size, leaf := BitVec.ofNat 64 e }
    | _ => .error (.bad clsXlate 0x02)

/-- Walk the partition's tables (R31). -/
def walk (s : State) (part va : Nat) (write : Bool) : Except Miss TlbEntry :=
  if vaCanonical va then walkFrom s part va write 4 0 false (partAt s part).xroot else .error (.bad clsXlate 0x01)

/-- A VA as the tables index it: its 57 low bits. -/
def vaIndex (va : Nat) : Nat := va % 2 ^ 57

/-- log2 of what an entry of a table maps, and the entries of the table, by level and kind (Table 3-1). -/
def levelSpan (level : Nat) (coarse : Bool) : Nat :=
  match level, coarse with | 0, _ => 46 | 1, _ => 36 | 2, true => 31 | 2, false => 26 | _, true => 21 | _, false => 16
def levelCount (level : Nat) (coarse : Bool) : Nat :=
  match level, coarse with | 0, _ => 2048 | 1, _ | 2, false | 3, false => 1024 | _, _ => 32

/-- The leaves of a table that map some of the VAs [a, a + n): the first VA, the log2 of the size and the word of each; the fuel counts
the levels left. -/
def leavesIn (s : State) (part a n : Nat) : Nat → Nat → Bool → Nat → Nat → List (Nat × Nat × Nat)
  | 0, _, _, _, _ => []
  | f + 1, level, coarse, table, base =>
    let span := levelSpan level coarse
    let lo := (a - base) / 2 ^ span
    ((List.range (min (levelCount level coarse) ((a + n - 1 - base) / 2 ^ span + 1) - lo)).map fun i =>
      let at_ := base + (lo + i) * 2 ^ span
      let e := natOfBytes (devRead s (partBinding s part) (dramKey (partDie part) (table + 8 * (lo + i))) 8).1
      match e / 2 ^ 62 with
      | 1 => leavesIn s part a n f (level + 1) (bitsOf e 60 2 == 1) (bitsOf e 8 40 * 256) at_
      | 2 => [(at_, leafSize level coarse, e)]
      | _ => []).flatten

/-- The leaves of a partition that map some of a range of VA indexes. -/
def partLeaves (s : State) (part a n : Nat) : List (Nat × Nat × Nat) := leavesIn s part a n 4 0 false (partAt s part).xroot 0

/-! ### TLBs (R38) -/

/-- Entries of an L1 TLB; the oldest entry of a full one is replaced (log 20). -/
def l1Cap : Nat := 64

/-- Ways of each set of the last-level TLB that a partition holds. -/
def llWays (p : Part) : Nat := if p.whole then 16 else 8

/-- The set of an entry, one of 256 (log 20). -/
def TlbEntry.llSet (e : TlbEntry) : Nat := e.base / 2 ^ e.size % 256

def TlbEntry.hits (e : TlbEntry) (va : Nat) (write : Bool) : Bool :=
  decide (e.base ≤ va) && decide (va < e.base + 2 ^ e.size) && (!write || leafW e.leaf.toNat)

def TlbEntry.page (e : TlbEntry) : PageRef := ⟨e.base, e.size⟩

def tlbFind (l : List TlbEntry) (va : Nat) (write : Bool) : Option TlbEntry := l.find? fun e => e.hits va write

/-- The entries but for that of the same page. -/
def tlbOthers (l : List TlbEntry) (e : TlbEntry) : List TlbEntry := l.filter fun x => x.base != e.base || x.size != e.size

/-- Fill a fully associative TLB, replacing an entry of the same page or the oldest. -/
def tlbFill (cap : Nat) (l : List TlbEntry) (e : TlbEntry) : List TlbEntry := e :: (tlbOthers l e).take (cap - 1)

/-- Fill the last-level TLB, replacing an entry of the same page or the oldest of the partition's ways of the set. -/
def llFill (ways : Nat) (l : List TlbEntry) (e : TlbEntry) : List TlbEntry :=
  e :: (((tlbOthers l e).filter fun x => x.llSet == e.llSet).take (ways - 1) ++ (tlbOthers l e).filter fun x => x.llSet != e.llSet)

/-- Fill the L1 TLB of an SP. -/
def l1Fill (p : Part) (sp : Nat) (e : TlbEntry) : Part := { p with l1Tlb := aset p.l1Tlb sp (tlbFill l1Cap (agetD p.l1Tlb sp []) e) }

/-- Fill both TLBs behind an SP. A leaf that faults is never filled (R36, R38): the walk has made every check. -/
def fillTlbs (s : State) (part sp : Nat) (e : TlbEntry) : State :=
  let p := partAt s part
  setPart s part { l1Fill p sp e with llTlb := llFill (llWays p) p.llTlb e }

/-- Look up: L1 of the SP, then the last level, which fills L1. -/
def tlbLookup (s : State) (part sp va : Nat) (write : Bool) : Option (State × TlbEntry) :=
  let p := partAt s part
  match tlbFind (agetD p.l1Tlb sp []) va write with
  | some e => some (s, e)
  | none =>
    match tlbFind p.llTlb va write with
    | some e => some (setPart s part (l1Fill p sp e), e)
    | none => none

/-! ### A place that an access reaches -/

/-- The key of a target of plain memory; none: not plain memory. -/
def Target.key : Target → Option Nat
  | .dram d a => some (dramKey d a)
  | .cxl p o => some (cxlKey p o)
  | .host a => some (hostKey a)
  | _ => none

/-- The 256-byte line of a target, as one number. -/
def Target.line : Target → Nat
  | .dram d a => dramKey d a / 256
  | .cxl p o => cxlKey p o / 256
  | .host a => hostKey a / 256
  | .remote m d a => 2 ^ 60 + (m * 2 ^ 40 + d * 2 ^ 38 + a) / 256
  | .bank p b => 2 ^ 61 + (p.y * 128 + p.x) * 256 + b / 256
  | .stage p o => 2 ^ 62 + (p.y * 128 + p.x) * 4096 + o / 256
  | .mmio o => 2 ^ 63 + o / 256

/-- The bytes of a target within its line. -/
def Target.off : Target → Nat
  | .dram _ a | .host a | .remote _ _ a => a % 256
  | .cxl _ o | .stage _ o | .mmio o => o % 256
  | .bank _ b => b % 256

/-- The TGT code of a counted target (R51); none: not counted. -/
def Target.tgt (part : Nat) : Target → Option Nat
  | .dram d _ => some (if d = partDie part then 0 else 1)
  | .cxl _ _ => some 2
  | .host _ => some 3
  | .remote _ _ _ => some 4
  | _ => none

/-- The index of an SP in its die, in the order of R35. -/
def spIndex (p : Pos) : Nat := p.x % 64 / 8 * 7 + p.y % 56 / 8

/-- An SP among those of all dies. -/
def spKey (p : Pos) : Nat := 56 * dieOf p + spIndex p

/-- The partition's lowest-indexed SP in its die, and its key (R293). -/
def lowSp (p : Nat) : Nat := if p % 2 = 0 then 0 else 28
def lowKey (p : Nat) : Nat := 56 * partDie p + lowSp p

/-- The channel group of a LOCAL or PEER address within its half of the die (R35). -/
def channelGroup (a : Nat) : Nat := (if a < 96 * gib then a else a - 96 * gib) / 256 % 28

/-- The SP that owns the line of an address of a die's DRAM: the place of its block (R35). -/
def lineOwner (die a : Nat) : Pos :=
  let g := channelGroup a
  ⟨(if a < 96 * gib then 0 else 32) + 8 * (g / 7) + 7 + 64 * (die % 2), 4 * (2 * (g % 7)) + 56 * (die / 2)⟩

/-- A request goes over the memory mesh to the SP that owns its line, or to the unit that holds its target, unless the translating SP
owns the line itself (R35). -/
def crossesMesh (sp : Pos) (t : Target) : Bool :=
  match t with
  | .dram d a => lineOwner d a != sp
  | _ => true

/-! ### Access counters (R51 to R53) -/

/-- The key of a granule: its VA base. -/
def granuleOf (va : Nat) (big : Bool) : Nat := if big then va / 2 ^ 21 * 2 ^ 21 else va / 2 ^ 16 * 2 ^ 16

/-- A migration notice (R52). -/
def migrationNotice (gran : Nat) (big : Bool) (tgt die sp count : Nat) : List Byte :=
  bytesOfNat 8 gran ++ [if big then 1 else 0, BitVec.ofNat 8 tgt, BitVec.ofNat 8 die, BitVec.ofNat 8 sp] ++ bytesOfNat 4 count

/-- Entries of the migration queue. -/
def mnqCount (p : Part) : Nat := 2 ^ (p.mnq.s + 6)

/-- MNQHEAD has not passed the slot that an entry's notice took. -/
def stillQueued (q : NQueue) (slot : BitVec 16) : Bool := decide ((q.tail - slot).toNat ≤ (q.tail - q.head).toNat) && q.tail != slot

/-- Count one access to a granule at an SP of a partition, by its key: at the threshold the notice is written, or its loss
recorded. DESIGN CHOICE: R53 does not say whether a further access to a counter that a full queue left at the threshold tries the
notice again; each one does, and each loss counts in LOST (log 112). -/
def countAccess (s : State) (part sp va : Nat) (big : Bool) (tgt : Nat) : State :=
  let p := partAt s part
  let gran := granuleOf va big
  let same (a : AccCount) : Bool := a.sp == sp && a.gran == gran && a.big == big
  let old := (p.accs.find? same).getD { sp := sp, gran := gran, big := big, tgt := tgt, count := 0, notice := none }
  let thr := 2 ^ p.acthr
  let queued := old.notice.any fun k => stillQueued p.mnq k
  let c := min (old.count + 1) thr
  let mine := (p.accs.filter fun a => a.sp == sp && !same a).take 255
  let put (p : Part) (a : AccCount) : Part := { p with accs := a :: (mine ++ p.accs.filter fun a => a.sp != sp) }
  if c < thr || queued then setPart s part (put p { old with count := c, tgt := tgt })
  else
    match queuePut s part p.mnq (mnqCount p) 16 (migrationNotice gran big tgt (sp / 56) (sp % 56) c) with
    | some (s1, q) =>
      let p1 := partAt s1 part
      raiseIrq (setPart s1 part (put { p1 with mnq := q } { old with count := 0, tgt := tgt, notice := some p.mnq.tail })) part 2
    | none =>
      setPart s part (put { p with mnOvf := true, mnLost := min (p.mnLost + 1) (2 ^ 32 - 1) } { old with count := c, tgt := tgt })

/-! ### Page-fault notices (R47) -/

/-- The bytes of a notice. -/
def noticeBytes (part : Nat) (n : Notice) (seqc lv time : Nat) : List Byte :=
  bytesOfNat 8 n.fva ++ [BitVec.ofNat 8 n.cause, BitVec.ofNat 8 n.level, BitVec.ofNat 8 seqc, BitVec.ofNat 8 part,
    BitVec.ofNat 8 n.die, BitVec.ofNat 8 n.spix, BitVec.ofNat 8 n.slot, 0] ++ bytesOfNat 4 n.nseq.toNat ++
    bytesOfNat 4 lv ++ bytesOfNat 8 time

/-- The sequencer context and layout version of who waits. DESIGN CHOICE (log 144): LV is 0 where a context waits. -/
def waiterSeq (s : State) (w : Waiter) : Nat × Nat :=
  match w with
  | .slot r _ _ => (r.seq.n, (sectAt (seqAt s r.seq) r.sect).lv)
  | .seq c => (c.n, 0)
  | .hit r | .ahead r _ => (r.seq.n, (sectAt (seqAt s r.seq) r.sect).lv)

/-- Entries of the fault-notice queue. -/
def fnqCount (p : Part) : Nat := 2 ^ (p.fnq.s + 6)

/-- Write a pending notice if the queue has room; the host is signalled through the partition's interrupt. DESIGN CHOICE: TIME and
LV are those of the delivery, not of the detection (log 114). -/
def deliverNotice (s : State) (part : Nat) (n : Notice) : Option State :=
  let p := partAt s part
  let (c, lv) := waiterSeq s n.waiter
  match queuePut s part p.fnq (fnqCount p) 32 (noticeBytes part n c lv s.cycle.toNat) with
  | none => none
  | some (s1, q) =>
    let p1 := partAt s1 part
    let upd := p1.notices.map fun x => if x.nseq == n.nseq && x.waiter == n.waiter then { x with written := true } else x
    some (raiseIrq (setPart s1 part { p1 with fnq := q, notices := upd }) part 1)

/-- A page fault: a notice with the partition's next sequence number, written now or pending. -/
def pageFault (s : State) (part va cause level : Nat) (w : Waiter) (slot spix : Nat) (die : Nat) : State :=
  let p := partAt s part
  let n : Notice := { nseq := p.nseq, fva := va, cause := cause, level := level, waiter := w, slot := slot, spix := spix,
                      die := die, written := false, since := s.cycle.toNat }
  let s1 := setPart s part { p with nseq := p.nseq + 1, notices := p.notices ++ [n] }
  (deliverNotice s1 part n).getD s1

end Sys2Proof.Machine
end

