-- ==== Sys2Proof/Machine/Shake.lean ====
section
/-! DEFINITION. SHAKE256, which the specification names for image digests (R167), Agate keys (R365), the measurement
(R381) and key blobs (R382). -/

namespace Sys2Proof.Machine

/-- The lane at (x, y) of a Keccak state of 25 lanes. -/
def kLane (a : List DWord) (x y : Nat) : DWord := a.getD (x % 5 + 5 * (y % 5)) 0

/-- A state from a function of (x, y). -/
def kBuild (f : Nat → Nat → DWord) : List DWord := (List.range 25).map fun i => f (i % 5) (i / 5)

/-- Theta. -/
def kTheta (a : List DWord) : List DWord :=
  let c := (List.range 5).map fun x => kLane a x 0 ^^^ kLane a x 1 ^^^ kLane a x 2 ^^^ kLane a x 3 ^^^ kLane a x 4
  kBuild fun x y => kLane a x y ^^^ (c.getD ((x + 4) % 5) 0 ^^^ (c.getD ((x + 1) % 5) 0).rotateLeft 1)

/-- The lanes that rho visits after (1, 0): (x, y) is followed by (y, 2x + 3y). Step t turns its lane by the t-th triangular number. -/
def kWalk : Nat → Nat → Nat → Nat → List (Nat × Nat)
  | 0, _, _, _ => []
  | k + 1, t, x, y => (x + 5 * y, t * (t + 1) / 2 % 64) :: kWalk k (t + 1) y ((2 * x + 3 * y) % 5)

/-- The turn of lane i in rho; lane 0 is not turned. -/
def kTurn (i : Nat) : Nat := (((kWalk 24 1 1 0).find? fun p => p.1 == i).map (·.2)).getD 0

/-- Rho and pi: lane (x, y) of the result comes from lane (x + 3y, x). -/
def kRhoPi (a : List DWord) : List DWord :=
  kBuild fun x y =>
    let sx := (x + 3 * y) % 5
    (kLane a sx x).rotateLeft (kTurn (sx + 5 * x))

/-- Chi. -/
def kChi (a : List DWord) : List DWord := kBuild fun x y => kLane a x y ^^^ (~~~(kLane a (x + 1) y) &&& kLane a (x + 2) y)

/-- The shift register behind iota: the byte after r, under the polynomial x^8 + x^6 + x^5 + x^4 + 1. -/
def kShift (r : Nat) : Nat := if r < 128 then 2 * r else (2 * r % 256) ^^^ 0x71

/-- The constant of the round that begins with register r: its low bit, as the register runs, at bits 0, 1, 3, 7, 15, 31 and 63. -/
def kConst (r : Nat) : Nat := ((List.range 7).foldl (fun p j => (p.1 + p.2 % 2 * 2 ^ (2 ^ j - 1), kShift p.2)) (0, r)).1

/-- The constants of k rounds from register r on. -/
def kConstsFrom : Nat → Nat → List DWord
  | 0, _ => []
  | k + 1, r => BitVec.ofNat 64 (kConst r) :: kConstsFrom k ((List.range 7).foldl (fun q _ => kShift q) r)

/-- The constants of iota. -/
def kConsts : List DWord := kConstsFrom 24 1

/-- One round. -/
def kRound (a : List DWord) (c : DWord) : List DWord :=
  match kChi (kRhoPi (kTheta a)) with
  | [] => []
  | x :: t => (x ^^^ c) :: t

/-- The permutation. -/
def keccakF (a : List DWord) : List DWord := kConsts.foldl kRound a

/-- The bytes per block. -/
def shakeRate : Nat := 136

/-- A lane from 8 bytes. -/
def laneOf (bs : List Byte) : DWord := BitVec.ofNat 64 (natOfBytes bs)

/-- Absorb one block of 136 bytes. -/
def shakeBlock (a : List DWord) (blk : List Byte) : List DWord :=
  keccakF ((List.range 25).map fun i =>
    if i < 17 then a.getD i 0 ^^^ laneOf ((blk.drop (8 * i)).take 8) else a.getD i 0)

/-- Absorb n blocks. -/
def shakeAbsorb : Nat → List DWord → List Byte → List DWord
  | 0, a, _ => a
  | n + 1, a, bs => shakeAbsorb n (shakeBlock a (bs.take shakeRate)) (bs.drop shakeRate)

/-- The message with SHAKE padding. -/
def shakePad (msg : List Byte) : List Byte :=
  let r := msg.length % shakeRate
  if r + 1 = shakeRate then msg ++ [0x9F]
  else msg ++ [0x1F] ++ List.replicate (shakeRate - r - 2) 0 ++ [0x80]

/-- The bytes of a state. -/
def shakeBytes (a : List DWord) : List Byte := (a.map fun l => bytesOfNat 8 l.toNat).flatten.take shakeRate

/-- Squeeze n blocks. -/
def shakeSqueeze : Nat → List DWord → List Byte
  | 0, _ => []
  | n + 1, a => shakeBytes a ++ shakeSqueeze n (keccakF a)

/-- SHAKE256 of a message, with n output bytes. -/
def shake256 (msg : List Byte) (n : Nat) : List Byte :=
  let p := shakePad msg
  (shakeSqueeze ((n + shakeRate - 1) / shakeRate) (shakeAbsorb (p.length / shakeRate) (List.replicate 25 0) p)).take n

end Sys2Proof.Machine
end

