-- ==== Sys2Proof/Machine/StreamPort.lean ====
section
/-! DEFINITION. Stream ports (04_stream_ports.md): accepting SPBs and their checks, issuing elements, replies in order, markers
on REQ and DATA ports, completion. -/

namespace Sys2Proof.Machine

/-! ### Access to a port -/

def spOf (s : State) (r : RegId) (o : Offset) : Option (Region × Sp) :=
  (regionAt s r).bind fun rg => (spAt rg o).map fun sp => (rg, sp)

/-- Change a port of a region. -/
def modSp (s : State) (r : RegId) (o : Offset) (f : Sp → Sp) : State :=
  match spOf s r o with
  | none => s
  | some (rg, sp) => setRegion s (setSp rg (f sp))

/-- Change the slot with a stamp. -/
def Sp.modSlot (sp : Sp) (stamp : Nat) (f : Slot → Slot) : Sp :=
  { sp with slots := sp.slots.map fun x => x.map fun y => if y.stamp = stamp then f y else y }

def modSlot (s : State) (r : RegId) (o : Offset) (stamp : Nat) (f : Slot → Slot) : State :=
  modSp s r o fun sp => sp.modSlot stamp f

/-- The occupied slots. -/
def Sp.busy (sp : Sp) : List Slot := sp.slots.filterMap fun x => x
def Sp.slotOf (sp : Sp) (stamp : Nat) : Option Slot := sp.busy.find? fun x => x.stamp == stamp

/-- The slot number of a stamp. -/
def Sp.slotNo (sp : Sp) (stamp : Nat) : Nat := (sp.slots.findIdx? fun x => x.any fun y => y.stamp == stamp).getD 0

/-- The role of inbound port k: 0 OFF, 1 REQ, 2 DATA (Table 8-12). -/
def spRole (rg : Region) (o : Offset) (k : Nat) : Nat := bitsOf (planeField rg.plane o 0) (2 * k) 2

/-- The REQ port, if there is one. -/
def reqPort (rg : Region) (o : Offset) : Option Nat := [0, 1, 2, 3].find? fun k => spRole rg o k == 1

def spHeads (rg : Region) (o : Offset) (k : Nat) : List Beat := rg.portHeads o true 0 k
def spHead (rg : Region) (o : Offset) (k : Nat) : Option Beat := (spHeads rg o k).head?

/-- The number of the open round at a port. -/
def portRound (rg : Region) (o : Offset) (k : Nat) : Nat :=
  (((rg.inLink o true 0 k).bind rg.linkAt).map (·.round)).getD 0

/-- A fault at a port of an SP. -/
def spFault (s : State) (r : RegId) (o : Offset) (cls sub port : Nat) (tok : Option Beat) (partner : Payload) : State :=
  match regionAt s r with
  | none => s
  | some rg =>
    raiseFault s r { cls := cls, sub := sub, off := o, ctx := 0, port := port, unit := 1, tok := tok, partner := partner,
                     round := portRound rg o port }

/-- A fault of the SPB in a slot: it issues no further elements (R77). -/
def slotFault (s : State) (r : RegId) (o : Offset) (sl : Slot) (cls sub : Nat) : State :=
  spFault (modSlot s r o sl.stamp fun x => { x with faulted := true }) r o cls sub sl.port none 0

/-! ### Acceptance (R56, R57) -/

/-- The deadline stamped into the section at ARM (R57, R296). -/
def Region.deadline (rg : Region) : Nat := (rg.inv.map fun i => i.entry.deadline).getD (2 ^ 64 - 1)

/-- Two CFG beats that form a pair at the head of a port. -/
def pairAtHead (bs : List Beat) : Option (Beat × Beat) :=
  match bs with
  | a :: b :: _ => if a.isCfg && b.isCfg && a.level == 0 && b.level == 1 && !a.poison && !b.poison then some (a, b) else none
  | _ => none

/-- The number of a HASH in its digest context, the HASHes accepted before it (R364). -/
def Sp.hashNo (sp : Sp) (i : Instr) : Nat :=
  match i with
  | .hash _ b => (sp.digs.getD b.dctx.toNat {}).count
  | _ => 0

/-- An SPB counts in its digest context. -/
def Sp.countHash (sp : Sp) (i : Instr) : Sp :=
  match i with
  | .hash _ b => { sp with digs := lmod sp.digs b.dctx.toNat fun d => { d with count := d.count + 1 } }
  | _ => sp

/-- Accept the SPB whose pair stands at the REQ port: SPEC beats are held, a failed check faults, a full set of slots waits. -/
def acceptSpb (i : Instr) (s : State) : Host.Outcome State Fault Refusal :=
  match s.actor with
  | .sp r o =>
    match spOf s r o with
    | none => .next s
    | some (rg, sp) =>
      match reqPort rg o with
      | none => .next s
      | some k =>
        match pairAtHead (spHeads rg o k) with
        | none => .next s
        | some (a, b) =>
          if !rg.running || rg.isHalted 1 o 0 then .next s
          else if a.spec || b.spec then
            match resolveSpec (spHeads rg o k) with
            | some q => .next (setRegion s (rg.requeue o true 0 k q))
            | none => .next s
          else
            match sp.slots.findIdx? Option.isNone with
            | none => .next s
            | some n =>
              let rg1 := (rg.consumePort o true 0 k).consumePort o true 0 k
              match spbCheck rg o i with
              | some sub => .next (spFault (setRegion s rg1) r o clsCfg sub k (some a) b.pay)
              | none =>
                let sl : Slot :=
                  { spb := i, stamp := sp.nextStamp, port := k, deadline := rg.deadline, round := b.round, hashNo := sp.hashNo i }
                let sp1 := { sp.countHash i with slots := lmod sp.slots n fun _ => some sl, nextStamp := sp.nextStamp + 1 }
                .next (setRegion s { setSp rg1 sp1 with hang := 0 })
  | _ => .next s

/-- LIN, read (R60). -/
def execLinRead (h : SpbHead) (b : LinBody) (s : State) : Host.Outcome State Fault Refusal := acceptSpb (.linRead h b) s
/-- LIN, write (R60). -/
def execLinWrite (h : SpbHead) (b : LinBody) (s : State) : Host.Outcome State Fault Refusal := acceptSpb (.linWrite h b) s
/-- GATH (R61). -/
def execGath (h : SpbHead) (b : GathBody) (s : State) : Host.Outcome State Fault Refusal := acceptSpb (.gath h b) s
/-- SCAT (R61). -/
def execScat (h : SpbHead) (b : GathBody) (s : State) : Host.Outcome State Fault Refusal := acceptSpb (.scat h b) s
/-- COPY (R62). -/
def execCopy (h : SpbHead) (b : CopyBody) (s : State) : Host.Outcome State Fault Refusal := acceptSpb (.copy h b) s
/-- FIB (R63). -/
def execFib (h : SpbHead) (b : FibBody) (s : State) : Host.Outcome State Fault Refusal := acceptSpb (.fib h b) s
/-- HASH (R64). -/
def execHash (h : SpbHead) (b : HashBody) (s : State) : Host.Outcome State Fault Refusal := acceptSpb (.hash h b) s
/-- FLUSH (R65). -/
def execFlush (h : SpbHead) (b : FlushBody) (s : State) : Host.Outcome State Fault Refusal := acceptSpb (.flush h b) s
/-- PREF (R66). -/
def execPref (h : SpbHead) (b : PrefBody) (s : State) : Host.Outcome State Fault Refusal := acceptSpb (.pref h b) s

/-! ### Replies leave in order (R70, R73) -/

/-- Every element of an item has its value. -/
def RItem.ready (it : RItem) (got : AMap (Nat × Bool)) : Bool := it.els.all fun e => (aget got e).isSome

/-- The outbound port of an item. -/
def itemPort (h : SpbHead) (it : RItem) : Nat := if it.second then h.r2port.toNat else h.rport.toNat

/-- A slot may still send on outbound port q. -/
def Slot.sends (sl : Slot) (q : Nat) : Bool :=
  repliesOf sl.spb && (sl.head.rport.toNat == q || (sl.head.r2en && sl.head.r2port.toNat == q)) &&
    (!sl.finished || sl.items.any fun it => itemPort sl.head it == q)

/-- The reply element size: coordinates and references of a FIB are words. -/
def replyBytes (i : Instr) : Nat :=
  match i with
  | .fib _ _ => 4
  | _ => elemBytes ((spbHeadOf i).getD default).fmt

/-- An element of an item, or its index, is poisoned. -/
def RItem.poisoned (it : RItem) (got : AMap (Nat × Bool)) : Bool :=
  it.pois || (!it.second && it.els.any fun e => (agetD got e (0, false)).2)

/-- The beat of an item (R70, R75). DESIGN CHOICE: reference beats on R2PORT count their own TAGs, from TAGB on (log 116). -/
def itemBeat (sl : Slot) (it : RItem) : Beat :=
  match it.stop with
  | some k => stopBeat k sl.round
  | none =>
    let w := 8 * replyBytes sl.spb
    let vals := if it.second then it.imm else it.els.map fun e => (agetD sl.got e (0, false)).1
    let pois := it.poisoned sl.got
    let tag := BitVec.ofNat 14 (sl.head.tagb.toNat + (if it.second then sl.tags2 else sl.tags))
    { dataBeat (if pois then 0 else payOfElems w vals) (laneMask w (vals.map fun _ => true)) tag 0 with
        round := sl.round, poison := pois }

/-- The coordinates of one fibre of a FIB rise strictly (R63): the last one, or none when they do not. -/
def risesFrom : Option Nat → List Nat → Option (Option Nat)
  | l, [] => some l
  | none, c :: t => risesFrom (some c) t
  | some x, c :: t => if x < c then risesFrom (some c) t else none

/-- A FIB coordinate beat in disorder. A poisoned one has no coordinates: it goes out as a poisoned beat (R63, R75). -/
def badFibre (sl : Slot) (it : RItem) : Bool :=
  match sl.spb with
  | .fib _ _ => !it.second && it.stop.isNone && !it.poisoned sl.got &&
      (risesFrom sl.last (it.els.map fun e => (agetD sl.got e (0, false)).1)).isNone
  | _ => false

/-- A slot after one item has left. DESIGN CHOICE: CNT counts STOP items and R2PORT beats too, and no beat of an index stream
(log 117). -/
def Slot.sent (sl : Slot) (it : RItem) (k : Nat) : Slot :=
  let vals := it.els.map fun e => (agetD sl.got e (0, false)).1
  { sl with
    items := sl.items.eraseIdx k, beats := sl.beats + 1,
    tags := if it.stop.isNone && !it.second then sl.tags + 1 else sl.tags,
    tags2 := if it.stop.isNone && it.second then sl.tags2 + 1 else sl.tags2,
    psn := sl.psn || (itemBeat sl it).poison,
    last := if it.second || it.poisoned sl.got then sl.last else if it.stop.isSome then none else (risesFrom sl.last vals).getD none,
    got := it.els.foldl adel sl.got }

/-- What leaves next on outbound port q: the earliest accepted of the SPBs and marks that use it. -/
def sendPort (s : State) (r : RegId) (o : Offset) (q : Nat) : State :=
  match spOf s r o with
  | none => s
  | some (rg, sp) =>
    let slots := sp.busy.filter fun x => x.sends q && !x.faulted
    let first := slots.foldl (fun (m : Option Slot) x => match m with
      | none => some x
      | some y => if x.stamp < y.stamp then some x else some y) none
    let mark := sp.marks.find? fun m => m.ports.contains q
    let markFirst := match first, mark with
      | some x, some m => decide (m.stamp < x.stamp)
      | none, some _ => true
      | _, none => false
    if markFirst then
      match mark with
      | none => s
      | some m =>
        let wait := (m.tok.isDrn || m.tok.isEoi) && sp.busy.any fun x => decide (x.stamp < m.stamp)
        if wait then s
        else if !rg.roomFor o true 0 q [m.tok] then setRegion s (rg.blockPort o true 0 q)
        else
          let upd := sp.marks.map fun x => if x.stamp = m.stamp then { x with ports := x.ports.filter (· != q) } else x
          setRegion s (setSp (rg.emitPort o true 0 q [m.tok]) { sp with marks := upd.filter fun x => !x.ports.isEmpty })
    else
      match first with
      | none => s
      | some sl =>
        match sl.items.findIdx? fun it => itemPort sl.head it == q with
        | none => s
        | some k =>
          let it := sl.items.getD k {}
          if !it.ready sl.got then s
          else if badFibre sl it then (if k = 0 then slotFault s r o sl clsMalformed 0x02 else s)
          else if !rg.roomFor o true 0 q [itemBeat sl it] then setRegion s (rg.blockPort o true 0 q)
          else
            setRegion s { setSp (rg.emitPort o true 0 q [itemBeat sl it]) (sp.modSlot sl.stamp fun x => x.sent it k) with hang := 0 }

/-- Try each outbound port once. -/
def sendReplies (s : State) (r : RegId) (o : Offset) : State :=
  match regionAt s r with
  | none => s
  | some rg => if rg.running && !rg.isHalted 1 o 0 then [0, 1, 2, 3].foldl (fun t q => sendPort t r o q) s else s

/-! ### Issuing (R69) -/

/-- The maximal run of elements from e on with rising adjacent addresses inside one aligned beat of 32 bytes (R265): at least
one, at most cap. -/
def runLen (addr : Nat → Nat) (es e cap : Nat) : Nat :=
  let n := ((List.range cap).takeWhile fun i => addr (e + i) == addr e + i * es && decide (addr e % 32 + (i + 1) * es ≤ 32)).length
  if n = 0 then 1 else n

/-- Under PURE every element is checked by itself (R371), and issues by itself. -/
def Region.runCap (rg : Region) (cap : Nat) : Nat := if rg.pureInv.isSome then 1 else cap

/-- Only the aligned 32-bit word is atomic at CXLMEM and HOST targets (R265). -/
def Target.wordOnly : Target → Bool
  | .cxl _ _ | .host _ => true
  | _ => false

/-- Of a run of m elements of es bytes at va, those that one access carries at its target. -/
def atomLen (t : Target) (va es m : Nat) : Nat := if t.wordOnly then min m (max 1 ((4 - va % 4) / es)) else m

/-- The VA line lies in the byte range [a, a + n). -/
def lineIn (line a n : Nat) : Bool := decide (a / 256 ≤ line) && decide (line ≤ (a + n - 1) / 256) && decide (0 < n)

/-- The next index lane of a beat. -/
def nextIdxLane (b : Beat) (from_ : Nat) : Option Nat := (List.range 8).find? fun i => decide (from_ ≤ i) && b.valid.getLsbD i

/-- An earlier block still consumes a port. -/
def earlierUses (sp : Sp) (sl : Slot) (port : Nat) : Bool :=
  sp.busy.any fun x => decide (x.stamp < sl.stamp) && !x.finished && (dataPortOf x.spb == some port || indexPortOf x.spb == some port)

/-- The valid lanes of a beat from one on. -/
def lanesFrom (b : Beat) (k : Nat) : List Nat := ((List.range 8).filter fun i => decide (k ≤ i) && b.valid.getLsbD i).map (payElem b.pay 32)

/-- The values of a port index stream that have arrived for an SPB and whose rows are still to come. -/
def arrivedIdx (rg : Region) (o : Offset) (sp : Sp) (sl : Slot) (port : Nat) : List Nat :=
  if earlierUses sp sl port then []
  else
    sl.fifo.map (·.1) ++
      match (spHeads rg o port).takeWhile fun b => !b.isEoi with
      | [] => []
      | b :: t => ((if b.isData then lanesFrom b sl.idxLane else []) :: (t.filter Beat.isData).map fun x => lanesFrom x 0).flatten

/-- The target line of a VA, when the tables give it one. -/
def vaTarget (s : State) (part va : Nat) : Option Target :=
  match walk s part va false with
  | .ok e => some (targetOf part e.size e.leaf.toNat va)
  | .error _ => none

/-- The VAs of a page at which a target line may lie: anywhere where banks are interleaved, else at its place behind the first line. -/
def pageLines (part size leaf base line : Nat) : List Nat :=
  if leafTgt leaf = 5 ∧ leafIlv leaf = 1 then (List.range (2 ^ (size - 8))).map fun j => base + 256 * j
  else
    let first := (targetOf part size leaf base).line
    if first ≤ line ∧ line < first + 2 ^ (size - 8) then [base + 256 * (line - first)] else []

/-- The VA indexes of the range [a, a + n) that a partition's tables map to a target line. -/
def aliases (s : State) (part line a n : Nat) : List Nat :=
  ((partLeaves s part a n).map fun x => (pageLines part x.2.1 x.2.2 x.1 line).filter fun v => lineIn (v / 256) a n).flatten

/-- An access of n bytes from a on reaches the line of a VA: the same VA line, or another VA of the same target line (log 21). -/
def rangeHits (s : State) (part va : Nat) (own : Option Target) (a n : Nat) : Bool :=
  n != 0 && (lineIn (va / 256) a n || own.any fun t =>
    (aliases s part t.line (vaIndex a) n).any fun v =>
      (vaTarget s part (a - vaIndex a + v)).any fun u => u.line == t.line)

/-- Rows of a GATH or SCAT that have not issued may touch a line: the row under way, and the rows whose index has arrived. A row
of depth 2 whose mid value has not been read, and a row whose index lies in memory, may be any row (log 21). -/
def rowsTouch (hit : Nat → Nat → Bool) (rg : Region) (o : Offset) (sp : Sp) (sl : Slot) (h : SpbHead) (b : GathBody) : Bool :=
  let all := hit b.base.toNat ((b.ilimit.toNat - 1) * b.estride.toNat + b.elen.toNat)
  let row (y from_ : Nat) : Bool := hit (b.base.toNat + y * b.estride.toNat + from_) (b.elen.toNat - from_)
  let deep := b.depth.toNat == 2
  if b.isrc.toNat = 4 then all
  else
    let more := arrivedIdx rg o sp sl b.isrc.toNat
    let now := match sl.vals with
      | [] => false
      | [y] => if deep then all else row y (sl.rowEl * elemBytes h.fmt)
      | _ :: y :: _ => row y (sl.rowEl * elemBytes h.fmt)
    now || (if deep then !more.isEmpty && all else more.any fun y => row y 0)

/-- References of a FIB that have not issued may touch a line, in the same way. -/
def refsTouch (hit : Nat → Nat → Bool) (rg : Region) (o : Offset) (sp : Sp) (sl : Slot) (b : FibBody) : Bool :=
  let all := hit b.crdva.toNat (4 * b.climit.toNat)
  if b.isrc.toNat = 4 then all
  else
    match sl.vals with
    | _ :: x :: e :: _ => hit (b.crdva.toNat + 4 * (x + sl.rowEl)) (4 * (e - x - sl.rowEl)) ||
        (!(arrivedIdx rg o sp sl b.isrc.toNat).isEmpty && all)
    | v => (!v.isEmpty || !(arrivedIdx rg o sp sl b.isrc.toNat).isEmpty) && all

/-- Elements of an SPB that have not issued may touch a line. Index reads of the ISE are no elements. -/
def pendingTouch (hit : Nat → Nat → Bool) (rg : Region) (o : Offset) (sp : Sp) (sl : Slot) : Bool :=
  if sl.finished || sl.faulted then false
  else
    match sl.spb with
    | .linRead h b | .linWrite h b =>
      (List.range (linCount b - sl.nextEl)).any fun i => hit (linAddr b (sl.nextEl + i)) (elemBytes h.fmt)
    | .gath h b | .scat h b => rowsTouch hit rg o sp sl h b
    | .copy _ b => hit (b.dva.toNat + sl.row) (b.len.toNat - sl.row) || hit (b.sva.toNat + sl.row) (b.len.toNat - sl.row)
    | .hash _ b =>
      (b.dva != 0 && hit (b.dva.toNat + sl.row) (b.len.toNat - sl.row)) || hit (b.sva.toNat + sl.row) (b.len.toNat - sl.row)
    | .fib _ b => refsTouch hit rg o sp sl b
    | .pref _ b =>
      let a := b.va.toNat / 256 * 256 + 256 * sl.row
      hit a (b.va.toNat + b.len.toNat - a)
    | _ => false

/-- An earlier accepted SPB still has an element to issue that must perform before this access: one to its line (R71). -/
def heldByOrder (s : State) (rg : Region) (o : Offset) (sp : Sp) (sl : Slot) (va : Nat) : Bool :=
  let before := sp.busy.filter fun x => decide (x.stamp < sl.stamp)
  !before.isEmpty &&
    (let own := vaTarget s rg.id.seq.part va
     before.any fun x => pendingTouch (rangeHits s rg.id.seq.part va own) rg o sp x)

/-- A FLUSH accepted before an SPB has not completed: the SPB issues nothing (R65). -/
def behindFlush (sp : Sp) (sl : Slot) : Bool :=
  sp.busy.any fun x => decide (x.stamp < sl.stamp) && (match x.spb with | .flush _ _ => true | _ => false)

/-! ### The staging pool and the chasers (R54, R66 to R68) -/

/-- Lines of the pool: those that STGWIN leaves (R67). -/
def poolCap (rg : Region) (o : Offset) : Nat := 4096 - stageLines rg o

/-- Reply beats that a slot keeps in the pool until they leave in order (R70): an allocated beat of 32 bytes, eight to a line. -/
def Slot.replyBeats (sl : Slot) : Nat :=
  (sl.items.filter fun it => it.stop.isNone).length + (if sl.cur.isEmpty then 0 else 1) + (if sl.cur2.isEmpty then 0 else 1)

def Slot.replyLines (sl : Slot) : Nat := (sl.replyBeats + 7) / 8

/-- Pool lines that hold replies not yet sent: they are never replaced (R66). -/
def Sp.replyLines (sp : Sp) : Nat := (sp.busy.map Slot.replyLines).foldl (· + ·) 0

/-- The pool has a line for n new reply beats of a slot. DESIGN CHOICE: one line is kept for each block that has none (log 118). -/
def replyRoom (rg : Region) (o : Offset) (sp : Sp) (sl : Slot) (n : Nat) : Bool :=
  let need := (sl.replyBeats + n + 7) / 8 - sl.replyLines
  let others := (sp.busy.filter fun x => repliesOf x.spb && x.stamp != sl.stamp && x.replyLines == 0).length
  need == 0 || sl.replyLines == 0 || decide (sp.replyLines + others + need ≤ poolCap rg o)

/-- Prefetched lines keep to what replies leave of the pool; the least recently used go (R66). -/
def Sp.trimPool (x : Sp) (cap : Nat) : Sp := { x with pool := x.pool.take (cap - x.replyLines) }

/-- The pool holds a line. -/
def poolLine (sp : Sp) (t : Target) : Option PoolLine := sp.pool.find? fun l => l.tgt.line == t.line

/-- A read that the pool serves makes its line the last used. -/
def Sp.usePool (x : Sp) (l : PoolLine) : Sp := { x with pool := l :: x.pool.filter fun z => z.tgt.line != l.tgt.line }

/-- Bytes written into a line from one on; poisoned ones put the poison code into each word (R75). -/
def PoolLine.put (l : PoolLine) (off : Nat) (bs : List Byte) (pois : Bool) : PoolLine :=
  if pois then { l with pois := joinWords l.pois (wordsOf off bs.length) }
  else { l with data := l.data.take off ++ bs ++ l.data.drop (off + bs.length),
                pois := l.pois.filter fun w => !(clearedWords off bs.length).contains w }

/-- n bytes of a line from one on touch a poisoned word. -/
def PoolLine.poisoned (l : PoolLine) (off n : Nat) : Bool := (wordsOf off n).any l.pois.contains

/-- A write updates the staged line of its target (R66). -/
def Sp.poolWrite (x : Sp) (t : Target) (bs : List Byte) (pois : Bool) : Sp :=
  match poolLine x t with
  | none => x
  | some l => x.usePool (l.put t.off bs pois)

/-- An access of an SP to the line of a target is on its way: one that `pick` names. -/
def lineBusy (s : State) (r : RegId) (o : Offset) (t : Target) (pick : MemReq → Bool) : Bool :=
  s.reqs.any fun q => pick q && q.tgt.line == t.line && match q.who with
    | .elem r1 o1 _ _ _ | .line r1 o1 _ | .ahead r1 o1 _ => r1 == r && o1 == o
    | _ => false

/-- A write element (R71). -/
def MemReq.writesElem (q : MemReq) : Bool := match q.who, q.acc with | .elem .., .write .. => true | _, _ => false

/-- A line on its way to the pool. -/
def MemReq.fetches (q : MemReq) : Bool := match q.who with | .line .. | .ahead .. => true | _ => false

/-- A read of a staged line waits until the earlier writes to the line have performed (R71); one of a line that is being fetched waits
for it, so that no later read finds an older value (R266). -/
def poolWaits (s : State) (r : RegId) (o : Offset) (sp : Sp) (t : Target) : Bool :=
  if (poolLine sp t).isSome then lineBusy s r o t MemReq.writesElem else lineBusy s r o t MemReq.fetches

/-- An access of an SP counts at its granule (R51); one that the pool serves has performed there. -/
def countAt (s : State) (rg : Region) (o : Offset) (va : Nat) (big : Bool) (t : Target) : State :=
  match t.tgt rg.id.seq.part with
  | none => s
  | some k => countAccess s rg.id.seq.part (spKey (rg.posOf o)) va big k

/-- The chasers that an SPB takes (R68): of the 16 of an SP, two for each of 8 slots, so that none ever waits for one. -/
def chasersOf (i : Instr) : Nat :=
  match i with
  | .gath _ b | .scat _ b => if b.depth.toNat = 2 then 2 else 1
  | .fib _ _ => 2
  | _ => 0

/-- Enough of the 16 chasers are free for an SPB. -/
def chasersFree (sp : Sp) (sl : Slot) : Bool :=
  decide (((sp.busy.filter fun x => decide (x.stamp < sl.stamp)).map fun x => chasersOf x.spb).foldl (· + ·) 0 + chasersOf sl.spb ≤ 16)

/-- How a translation at a port ends. -/
inductive XR where
  | ok (s : State) (e : TlbEntry) (t : Target)
  /-- The access does not go on now: a walk has started, the element is withheld, or a fault was raised. -/
  | stop (s : State)
  /-- A prefetch is dropped (R50). -/
  | drop

/-! ### The walker (R39) -/

def PageRef.has (p : PageRef) (va : Nat) : Bool := decide (p.base ≤ va) && decide (va < p.base + 2 ^ p.size)

/-- The page of a walk as the tables stand; a 64 KiB granule where they give none (log 119). -/
def walkPage (s : State) (w : Walk) : PageRef :=
  match walk s w.part w.va false with
  | .ok e => e.page
  | .error _ => ⟨w.va / 2 ^ 16 * 2 ^ 16, 16⟩

/-- The walks that an SP holds, and those of a die. -/
def walksOfSp (s : State) (sp : Nat) : Nat := (s.walks.filter fun w => w.started && w.sp == sp).length
def walksOfDie (s : State) (d : Nat) : Nat := (s.walks.filter fun w => w.started && partDie w.part == d).length

/-- How far an SP stands behind the one that took the last slot, among the 56 SPs of 4 dies. -/
def turnAfter (last sp : Nat) : Nat := (sp + 223 - last) % 224

/-- A free slot of a die's walker goes to the SP whose turn it is, of those that ask for one and hold fewer than 4. -/
def grantWalk (s : State) (d : Nat) : State :=
  let last := agetD s.walkTurn d 223
  let ask := s.walks.filter fun w => !w.started && partDie w.part == d && decide (walksOfSp s w.sp < 4)
  let first := ask.foldl (fun (m : Option Walk) w => match m with
    | none => some w
    | some x => if turnAfter last w.sp < turnAfter last x.sp then some w else some x) none
  match first with
  | none => s
  | some w =>
    if 64 ≤ walksOfDie s d then s
    else
      { s with walks := s.walks.map fun x => if x.id = w.id then { x with started := true } else x,
               walkTurn := aset s.walkTurn d w.sp }

/-- A miss at an SP joins a walk of the same page, or asks for one. -/
def startWalk (s : State) (part sp va : Nat) (write : Bool) (w : Waiter) : State :=
  let j : Join := { who := w, va := va, write := write }
  match s.walks.find? fun x => x.part == part && (walkPage s x).has va with
  | some x => { s with walks := s.walks.map fun y => if y.id = x.id then { y with waiters := y.waiters ++ [j] } else y }
  | none =>
    grantWalk { s with walks := s.walks ++ [{ id := s.reqSeq, part := part, sp := sp, va := va, write := write, started := false,
                                              waiters := [j], again := false }],
                       reqSeq := s.reqSeq + 1 } (partDie part)

/-- Translate an element of the SPB in a slot; `pf`: a prefetch. -/
def xlatElem (s : State) (rg : Region) (o : Offset) (sl : Slot) (va : Nat) (write pf : Bool) : XR :=
  let r := rg.id
  let part := r.seq.part
  if !vaCanonical va then (if pf then .drop else .stop (slotFault s r o sl clsXlate 0x01))
  else
    match tlbLookup s part (spKey (rg.posOf o)) va write with
    | some (s1, e) =>
      match targetFault s1 part e.size e.leaf.toNat va with
      | some (c, k) => if pf then .drop else .stop (slotFault s1 r o sl c k)
      | none => .ok s1 e (targetOf part e.size e.leaf.toNat va)
    | none =>
      .stop (modSlot (startWalk s part (spKey (rg.posOf o)) va write (.slot r o sl.stamp)) r o sl.stamp
        fun x => { x with walk := true, wva := va })

/-- Translate a read ahead of its element: nobody waits for the walk of a miss. -/
def xlatAhead (s : State) (rg : Region) (o : Offset) (va : Nat) : XR :=
  let part := rg.id.seq.part
  if !vaCanonical va then .drop
  else
    match tlbLookup s part (spKey (rg.posOf o)) va false with
    | some (s1, e) =>
      match targetFault s1 part e.size e.leaf.toNat va with
      | some _ => .drop
      | none => .ok s1 e (targetOf part e.size e.leaf.toNat va)
    | none => .stop (startWalk s part (spKey (rg.posOf o)) va false (.ahead rg.id o))

/-! ### Checks at issue (R69, R371) -/

/-- n elements that issue after their deadline: each counts in LATE, or the first one faults under TRAP (R69). -/
def withDeadline (s : State) (r : RegId) (o : Offset) (sl : Slot) (n : Nat) (k : State → State) : State :=
  if s.cycle.toNat ≤ sl.deadline then k s
  else
    let p := partAt s r.seq.part
    let s1 := setPart s r.seq.part { p with dlLate := p.dlLate + (if p.dlTrap then 1 else BitVec.ofNat 32 n) }
    if p.dlTrap then slotFault s1 r o sl clsDeadline 0x01 else k s1

/-- A purity event of an element (R371). -/
def pureElem (s : State) (r : RegId) (o : Offset) (sl : Slot) (sub : Nat) (bad : Bool) (k : State → State) : State :=
  match regionAt s r with
  | none => s
  | some rg =>
    if !bad || rg.pureInv.isNone then k s
    else
      let rg1 := rg.violate sub
      let s1 := countPurity (setRegion s rg1) r rg.violation rg1.violation
      if rg.pstrict then slotFault s1 r o sl clsPurity sub else k s1

/-- Every byte lies inside one of the extents. -/
def inExtents (es : List (Nat × Nat)) (va n : Nat) : Bool :=
  (List.range n).all fun i => es.any fun x => decide (x.1 ≤ va + i) && decide (va + i < x.1 + x.2)

/-- A position of the region (R371), a headroom position that a copy occupies among them (R331). -/
def Region.hasPos (rg : Region) (p : Pos) : Bool :=
  let o : Offset := ⟨(p.x : Int) - rg.org.x, (p.y : Int) - rg.org.y⟩
  rg.holds o || rg.layouts.any fun l => l.copies.any fun c => c.1 == o

/-- A read outside the argument extents, banks and staging of the region exempt. -/
def impureRead (rg : Region) (va n : Nat) (t : Target) : Bool :=
  match rg.pureInv with
  | none => false
  | some p =>
    match t with
    | .bank q _ | .stage q _ => !rg.hasPos q && !inExtents p.args va n
    | _ => !inExtents p.args va n

/-- A write outside the result extents. -/
def impureWrite (rg : Region) (va n : Nat) : Bool :=
  match rg.pureInv with
  | none => false
  | some p => !inExtents p.res va n

/-- The binding under which a leaf's line is read and written. -/
def leafBinding (s : State) (leaf : Nat) : Nat :=
  if tgtCrypt leaf then ((s.slots[leafKey leaf]?).map (·.binding)).getD 0 else 0

/-- Put an access on its way. -/
def sendReq (s : State) (part : Nat) (who : Who) (va : Nat) (e : TlbEntry) (t : Target) (acc : Access) (deadline : Nat) : State :=
  let q : MemReq := { id := s.reqSeq, part := part, who := who, va := va, tgt := t, key := (t.key).getD 0, acc := acc,
                      big := decide (16 < e.size), binding := leafBinding s e.leaf.toNat, page := e.page, deadline := deadline }
  { s with reqs := s.reqs ++ [q], reqSeq := s.reqSeq + 1 }

/-- Values of m elements of es bytes. -/
def elemVals (bs : List Byte) (es m : Nat) : List Nat := (List.range m).map fun i => natOfBytes ((bs.drop (es * i)).take es)

/-- Give values to elements from e on. -/
def gotVals (got : AMap (Nat × Bool)) (e : Nat) (vs : List Nat) (pois : Bool) : AMap (Nat × Bool) :=
  match vs with
  | [] => got
  | v :: t => gotVals (aset got e (v, pois)) (e + 1) t pois

/-- Append elements to the reply beat under way, and close it when it is full or ends. -/
def Slot.addEls (sl : Slot) (m per : Nat) (close : Bool) (refs : Option Nat) : Slot :=
  let ids := (List.range m).map fun i => sl.nextEl + i
  let cur := sl.cur ++ ids
  let cur2 := match refs with
    | some x => sl.cur2 ++ (List.range m).map fun i => x + i
    | none => sl.cur2
  let sl1 := { sl with nextEl := sl.nextEl + m }
  if cur.length = per || close then
    { sl1 with items := sl.items ++ [{ els := cur, pois := sl.idxPois }] ++
                 (if refs.isSome then [{ second := true, imm := cur2, pois := sl.idxPois }] else []),
               cur := [], cur2 := [] }
  else { sl1 with cur := cur, cur2 := cur2 }

/-- Issue a read of at most m elements of es bytes at va, of which `upd` records the progress; `n`: reply beats that it opens. -/
def issueRead (s : State) (rg : Region) (o : Offset) (sp : Sp) (sl : Slot) (va es m n : Nat) (upd : Nat → Slot → Slot) : Option State :=
  let r := rg.id
  if va % es ≠ 0 then some (slotFault s r o sl clsCfg 0x26)
  else if (sl.cur.isEmpty && !replyRoom rg o sp sl n) || heldByOrder s rg o sp sl va then none
  else
    match xlatElem s rg o sl va false false with
    | .drop => none
    | .stop s1 => some s1
    | .ok s1 e t =>
      let k := atomLen t va es m
      if poolWaits s r o sp t then none
      else
        some (withDeadline s1 r o sl k fun s2 => pureElem s2 r o sl 0x04 (impureRead rg va (es * k) t) fun s3 =>
          match poolLine sp t with
          | some l =>
            let pois := l.poisoned t.off (es * k)
            let bs := (l.data.drop t.off).take (es * k)
            let vs := elemVals (if pois then bs.map fun _ => (0 : Byte) else bs) es k
            modSp (countAt s3 rg o va (decide (16 < e.size)) t) r o fun x =>
              ((x.usePool l).modSlot sl.stamp fun y => { upd k y with got := gotVals y.got y.nextEl vs pois }).trimPool (poolCap rg o)
          | none =>
            modSp (sendReq s3 r.seq.part (.elem r o sl.stamp sl.nextEl 4) va e t (.read (es * k)) sl.deadline) r o fun x =>
              (x.modSlot sl.stamp fun y => { upd k y with outst := y.outst + 1 }).trimPool (poolCap rg o))

/-- A poisoned write beat under PTRAP (R20, R75). -/
def writePoison (s : State) (r : RegId) (o : Offset) (sl : Slot) (b : Beat) (port : Nat) : State :=
  spFault (modSlot s r o sl.stamp fun x => { x with faulted := true }) r o clsPoison 0x01 port (some b) 0

/-- `upd` for an SPB that a write beat feeds: the beat counts where it ends, and marks the SPB where it is poisoned (R72). -/
def beatDone (b : Beat) (last : Bool) (y : Slot) : Slot := { y with psn := y.psn || b.poison, beats := if last then y.beats + 1 else y.beats }

/-- Issue a write of at most m elements of es bytes at va: those of a beat from element j on, of which `left` are still to come. -/
def issueWrite (s : State) (rg : Region) (o : Offset) (sp : Sp) (sl : Slot) (va es m j left : Nat) (b : Beat) (port : Nat)
    (upd : Nat → Slot → Slot) : Option State :=
  let r := rg.id
  if va % es ≠ 0 then some (slotFault s r o sl clsCfg 0x26)
  else if b.poison && rg.ptrap then some (writePoison s r o sl b port)
  else if heldByOrder s rg o sp sl va then none
  else
    match xlatElem s rg o sl va true false with
    | .drop => none
    | .stop s1 => some s1
    | .ok s1 e t =>
      let k := atomLen t va es m
      let bs := ((List.range k).map fun i => bytesOfNat es (payElem b.pay (8 * es) (j + i))).flatten
      some (withDeadline s1 r o sl k fun s2 => pureElem s2 r o sl 0x01 (impureWrite rg va bs.length) fun s3 =>
        let s4 := sendReq s3 r.seq.part (.elem r o sl.stamp sl.nextEl port) va e t (.write bs b.poison) sl.deadline
        let s5 := modSp s4 r o fun x =>
          (x.modSlot sl.stamp fun y => { beatDone b (k == left) (upd k y) with outst := y.outst + 1 }).poolWrite t bs b.poison
        if k = left then
          match regionAt s5 r with
          | some rg5 => setRegion s5 (rg5.consumePort o true 0 port)
          | none => s5
        else s5)

/-- Record progress with nothing issued; consume a port's head if asked. -/
def noteSlot (s : State) (r : RegId) (o : Offset) (sl : Slot) (port : Option Nat) (upd : Slot → Slot) : State :=
  let s1 := modSlot s r o sl.stamp upd
  match port, regionAt s1 r with
  | some k, some rg => setRegion s1 (rg.consumePort o true 0 k)
  | _, _ => s1

/-- The DATA beat that feeds a write, when it is this SPB's turn at the port: no earlier SPB still takes from it. -/
def writeBeat (rg : Region) (o : Offset) (sp : Sp) (sl : Slot) (port : Nat) : Option Beat :=
  if earlierUses sp sl port then none
  else (spHead rg o port).filter fun b => b.isData && !b.spec

/-- One step of the write data of a beat: elements j .. of the beat, from element e at addresses addr; `n`: elements of the
SPB or row; `es`: their size. -/
def writeStep (s : State) (rg : Region) (o : Offset) (sp : Sp) (sl : Slot) (port : Nat) (addr : Nat → Nat) (es e n : Nat)
    (adv : Nat → Slot → Slot) : Option State :=
  match writeBeat rg o sp sl port with
  | none => none
  | some b =>
    let per := 32 / es
    let j := e % per
    let left := min (per - j) (n - e)
    let valid (i : Nat) : Bool := elemValid b.valid (8 * es) (j + i)
    if valid 0 then
      issueWrite s rg o sp sl (addr e) es ((List.range (runLen addr es e (rg.runCap left))).takeWhile valid).length j left b port adv
    else if b.poison && rg.ptrap then some (writePoison s rg.id o sl b port)
    else
      let skip := ((List.range left).takeWhile fun i => !valid i).length
      let last := skip == left
      some (noteSlot s rg.id o sl (if last then some port else none) fun y => beatDone b last (adv skip y))

/-- A word that a chaser has read. -/
def Slot.putWord (sl : Slot) (key v : Nat) (pois : Bool) : Slot :=
  { sl with words := aset sl.words key (v, pois), asked := sl.asked.filter (· != key) }

/-- A word of the ISE is read under its key; the pool serves it where it holds the line (R66, R68). -/
def sendIndex (s : State) (rg : Region) (o : Offset) (sp : Sp) (sl : Slot) (key va : Nat) (e : TlbEntry) (t : Target) : State :=
  match poolLine sp t with
  | some l => modSp (countAt s rg o va (decide (16 < e.size)) t) rg.id o fun x =>
      let pois := l.poisoned t.off 4
      (x.usePool l).modSlot sl.stamp fun y => y.putWord key (if pois then 0 else natOfBytes ((l.data.drop t.off).take 4)) pois
  | none =>
    modSlot (sendReq s rg.id.seq.part (.index rg.id o sl.stamp key) va e t (.read 4) sl.deadline) rg.id o sl.stamp
      fun y => { y with asked := y.asked ++ [key] }

/-- The word of the ISE under a key: an index, a mid value, a segment bound. Where it has not been read, the step that reads it, if
there is one. DEDUCED (log 146): in LATE, and under TRAP, such a read is an element. -/
def iseWord (s : State) (rg : Region) (o : Offset) (sp : Sp) (sl : Slot) (key va : Nat) : Except (Option State) (Nat × Bool) :=
  match aget sl.words key with
  | some v => .ok v
  | none =>
    let r := rg.id
    .error (
      if sl.asked.contains key then none
      else if va % 4 ≠ 0 then some (slotFault s r o sl clsCfg 0x26)
      else
        match xlatElem s rg o sl va false false with
        | .drop => none
        | .stop s1 => some s1
        | .ok s1 e t =>
          if poolWaits s r o sp t then none else some (withDeadline s1 r o sl 1 fun s2 => sendIndex s2 rg o sp sl key va e t))

/-- The value under a key joins those of the row under way. -/
def Slot.takeWord (sl : Slot) (key v : Nat) (pois : Bool) : Slot :=
  { sl with vals := sl.vals ++ [v], words := adel sl.words key, idxPois := if sl.vals.isEmpty then pois else sl.idxPois || pois }

/-- One step towards a word: its value is taken, or its read goes on. -/
def wordStep (s : State) (rg : Region) (o : Offset) (sp : Sp) (sl : Slot) (level va : Nat) : Option State :=
  match iseWord s rg o sp sl (3 * sl.row + level) va with
  | .ok (v, p) => some (modSlot s rg.id o sl.stamp fun y => y.takeWord (3 * sl.row + level) v p)
  | .error x => x

/-- All earlier elements have performed and their replies have left: then a MALFORMED of the index stream is raised (R61). -/
def drained (sl : Slot) : Bool := sl.outst == 0 && sl.items.isEmpty && sl.cur.isEmpty

def faultDrained (s : State) (r : RegId) (o : Offset) (sl : Slot) (sub : Nat) : Option State :=
  if drained sl then some (slotFault s r o sl clsMalformed sub) else none

/-- The block tracks the fibre grammar of its index stream: GATH and FIB (R232). -/
def fibreBlock (i : Instr) : Bool :=
  match i with
  | .gath _ _ | .fib _ _ => true
  | _ => false

/-- What the grammar at an inbound port makes of a token. -/
def noteSide (s : State) (r : RegId) (o : Offset) (port : Nat) (f : FibreSide → FibreSide) : State :=
  modSp s r o fun x => { x with sides := lmod x.sides port f }

/-- The grammar at an inbound port. -/
def Sp.side (sp : Sp) (port : Nat) : FibreSide := sp.sides.getD port {}

/-- An element of an index stream. -/
def sideElement (x : FibreSide) : FibreSide := (x.element 8 0 false).getD x

/-- The port has taken EOI in this invocation. -/
def portEnded (rg : Region) (o : Offset) (port : Nat) : Bool :=
  ((rg.inLink o true 0 port).bind rg.linkAt).any (·.eoi)

/-- EOI short of a boundary is a fault at a FIB; the gather of chapter 24 ends so, and its run is DONE (R415, log 126). -/
def endsInFibre (i : Instr) : Bool :=
  match i with
  | .fib _ _ => true
  | _ => false

/-- The subcode of the fault of a token at the index port of a GATH or FIB, if Table 11-1 gives one: DATA or STOP after EOI, or a
marker short of a boundary (R232). -/
def indexFault (rg : Region) (o : Offset) (sp : Sp) (sl : Slot) (port : Nat) (b : Beat) : Option Nat :=
  if !fibreBlock sl.spb then none
  else if (b.isData || b.isStop) && portEnded rg o port then some 0x04
  else if b.isEoi && endsInFibre sl.spb && !(sp.side port).settled then some 0x07
  else none

/-- The index stream of a SCAT or FIB has ended where its port has taken the EOI, also for the block of a later tile (R428); a GATH
waits there for an index that never comes (R421, log 109). -/
def streamOver (rg : Region) (o : Offset) (sl : Slot) (port : Nat) : Bool :=
  portEnded rg o port && match sl.spb with | .scat _ _ | .fib _ _ => true | _ => false

/-- Take the next token of a port index stream: a value, a stop through `onStop`, or the end. -/
def indexPortStep (s : State) (rg : Region) (o : Offset) (sp : Sp) (sl : Slot) (port : Nat)
    (onStop : Nat → Option (Slot → Slot)) : Option State :=
  let r := rg.id
  let side (f : FibreSide → FibreSide) : State := if fibreBlock sl.spb then noteSide s r o port f else s
  match sl.fifo with
  | (v, p) :: t => some (noteSlot s r o sl none fun y => { y with vals := [v], idxPois := p, rowEl := 0, fifo := t })
  | [] =>
    if earlierUses sp sl port then none
    else
      match spHead rg o port with
      | none => if streamOver rg o sl port then some (noteSlot s r o sl none fun y => { y with finished := true }) else none
      | some b =>
        if b.spec && !b.isMark then none
        else
          match indexFault rg o sp sl port b with
          | some k => faultDrained s r o sl k
          | none =>
            if b.isData then
              match nextIdxLane b sl.idxLane with
              | none => some (noteSlot s r o sl (some port) fun y => { y with idxLane := 0, psn := y.psn || b.poison })
              | some i =>
                let last := (nextIdxLane b (i + 1)).isNone
                some (noteSlot (side sideElement) r o sl (if last then some port else none) fun y =>
                  { y with vals := [payElem b.pay 32 i], idxPois := b.poison, psn := y.psn || b.poison, rowEl := 0,
                           idxLane := if last then 0 else i + 1 })
            else if b.isStop then
              match onStop b.level.toNat with
              | none => faultDrained s r o sl 0x01
              | some f => some (noteSlot (side fun x => x.stop 8 b.level.toNat) r o sl (some port) f)
            else if b.isEoi then some (noteSlot (side fun _ => {}) r o sl (some port) fun y => { y with finished := true })
            else none

/-- One step of a GATH or SCAT towards its next row (R61). -/
def rowIndex (s : State) (rg : Region) (o : Offset) (sp : Sp) (sl : Slot) (b : GathBody) (gather : Bool) : Option State :=
  match sl.vals with
  | [] =>
    if b.isrc.toNat < 4 then
      indexPortStep s rg o sp sl b.isrc.toNat fun k =>
        some fun y => if gather then { y with items := y.items ++ [{ stop := some k }] } else y
    else if sl.row < b.nidx.toNat then wordStep s rg o sp sl 0 (vaAdd b.iva.toNat (4 * sl.row))
    else some (noteSlot s rg.id o sl none fun y => { y with finished := true })
  | x :: _ =>
    if x < b.mlimit.toNat then wordStep s rg o sp sl 1 (vaAdd b.mid.toNat (4 * x))
    else faultDrained s rg.id o sl 0x05

/-- The row index when it is known. -/
def rowKnown (sl : Slot) (b : GathBody) : Option Nat :=
  match b.depth.toNat, sl.vals with
  | 1, [y] => some y
  | 2, [_, y] => some y
  | _, _ => none

/-- After m elements of a row of n. -/
def rowAdvance (m n : Nat) (y : Slot) : Slot :=
  if n ≤ y.rowEl + m then { y with rowEl := 0, row := y.row + 1, vals := [] } else { y with rowEl := y.rowEl + m }

/-- A FLUSH or a plain wait holds a slot. -/
def Slot.halts (sl : Slot) : Bool := sl.finished || sl.faulted || sl.walk || sl.withheld

/-- A store with no full and no filling buffer, where full bits that an earlier miss left do not count (R364, R405). -/
def storeEmpty (g : SegState) : Bool :=
  ((List.range g.full.length).all fun k => !g.full.getD k false || g.missed.getD k false) && g.fill == 0

/-- A place in the partition's own LOCAL memory (R364). -/
def sourceLocal (s : State) (rg : Region) (t : Target) : Bool :=
  match t with
  | .dram d a => ownerOfDram s d a == some rg.id.seq.part && d == partDie rg.id.seq.part
  | _ => false

/-- Start of a COPY or HASH: the checks 0x27 to 0x29 and 0x2B, on its first targets (R62, R64, R77, R364). DESIGN CHOICE: a HASH
of no bytes with a DVA names no side, and makes no check of 0x27 (log 121). -/
def copyCheck (s : State) (rg : Region) (sp : Sp) (sl : Slot) (t1 t2 : Option Target) : Option Nat :=
  let onChip (t : Option Target) : Bool := t.any fun x => match x with | .bank _ _ | .stage _ _ => true | _ => false
  match sl.spb with
  | .copy _ b =>
    if !(onChip t1 || onChip t2) then some 0x27
    else if rangesMeet b.sva.toNat b.dva.toNat b.len.toNat then some 0x28
    else none
  | .hash h b =>
    if b.dva != 0 && b.len != 0 && !(onChip t1 || onChip t2) then some 0x27
    else if b.dva != 0 && rangesMeet b.sva.toNat b.dva.toNat b.len.toNat then some 0x28
    else
      let d := sp.digs.getD b.dctx.toNat {}
      if !d.isOpen then some 0x29
      else
        match rg.pureInv with
        | none => none
        | some p =>
          let k := sl.hashNo
          let ok := (p.args[k]? == some (b.sva.toNat, b.len.toNat)) && (h.lastArg == (k + 1 == p.args.length)) &&
            (t1.any (sourceLocal s rg) || b.len == 0) &&
            (b.dva == 0 ||
              match t2 with
              | some (.bank q off) =>
                let o : Offset := ⟨(q.x : Int) - rg.org.x, (q.y : Int) - rg.org.y⟩
                rg.holds o && (List.range 8).any fun n =>
                  let g := segDesc rg.plane o n
                  let st := segAt (cellAt rg o) n
                  let size := 32 * (g.size / (g.param + 1))
                  g.typ == 2 && off == 32 * g.base && b.len.toNat % size == 0 && decide (b.len.toNat ≤ 32 * g.size)
                    && storeEmpty st
              | _ => b.len == 0)
          if ok then none else some 0x2B
  | _ => none

/-- The tile store that a staging HASH writes, with the buffers it covers: the miss sets them full (R368). -/
def stagedStore (rg : Region) (t : Option Target) (len : Nat) : List (Offset × Nat × Nat) :=
  match t with
  | some (.bank q off) =>
    let o : Offset := ⟨(q.x : Int) - rg.org.x, (q.y : Int) - rg.org.y⟩
    (List.range 8).filterMap fun n =>
      let g := segDesc rg.plane o n
      if g.typ == 2 && off == 32 * g.base then some (o, n, len / (32 * (g.size / (g.param + 1)))) else none
  | _ => []

/-- The 64 KiB granules of LOCAL memory that a piece names join the watch set before it is read (R369). -/
def watchPiece (s : State) (r : RegId) (t : Target) (n : Nat) : State :=
  match t with
  | .dram _ a =>
    let gs := [a / 2 ^ 16, (a + n - 1) / 2 ^ 16]
    let p := partAt s r.seq.part
    let new := (gs.filter fun g => !p.watch.contains g).eraseDups
    let fits := decide (p.watch.length + new.length ≤ 2048)
    let s1 := if fits then setPart s r.seq.part { p with watch := p.watch ++ new } else s
    match regionAt s1 r with
    | none => s1
    | some rg => setRegion s1 (rg.setPure fun x =>
        { x with granules := joinWords x.granules gs, overflow := x.overflow || !fits })
  | _ => s

/-- A HASH begins: its digest context absorbs LEN (R64). -/
def hashBegin (sl : Slot) (sp : Sp) : Sp :=
  match sl.spb with
  | .hash _ b =>
    { sp with digs := lmod sp.digs b.dctx.toNat fun d => { d with bytes := d.bytes ++ bytesOfNat 8 b.len.toNat } }
  | _ => sp

/-- A HASH with LASTARG ends: the 32 bytes squeezed are the key (R64, R365). DESIGN CHOICE: the context stays open: only a new
PURE ARM of the section makes it anew (log 120). -/
def hashEnd (s : State) (rg : Region) (sp : Sp) (sl : Slot) : State :=
  match sl.spb with
  | .hash h b =>
    if h.lastArg then
      setRegion s (rg.setPure fun p => { p with key := some (shake256 (sp.digs.getD b.dctx.toNat {}).bytes 32) })
    else s
  | _ => s

/-- The two sides of a piece translated; an error that holds a state ends the step in it. -/
def copyXlate (s : State) (rg : Region) (o : Offset) (sl : Slot) (src dst : Nat) (both : Bool) :
    Except (Option State) (State × TlbEntry × Target × Option (TlbEntry × Target)) :=
  match xlatElem s rg o sl src false false with
  | .drop => .error none
  | .stop s1 => .error (some s1)
  | .ok s1 e t =>
    if both then
      match xlatElem s1 rg o sl dst true false with
      | .drop => .error none
      | .stop s2 => .error (some s2)
      | .ok s2 e2 t2 => .ok (s2, e, t, some (e2, t2))
    else .ok (s1, e, t, none)

/-- The first piece of a staging HASH names the tile store that it fills (R368). -/
def noteStaged (s : State) (rg : Region) (t : Option Target) (len : Nat) : State :=
  match regionAt s rg.id with
  | some rg6 => setRegion s (rg6.setPure fun x => { x with staged := x.staged ++ stagedStore rg t len })
  | none => s

/-- Bytes of a HASH absorbed (R64). -/
def digestAbsorb (sl : Slot) (bs : List Byte) (sp : Sp) : Sp :=
  match sl.spb with
  | .hash _ b => { sp with digs := lmod sp.digs b.dctx.toNat fun d => { d with bytes := d.bytes ++ bs } }
  | _ => sp

/-- A piece of n bytes of a COPY or HASH is done. DESIGN CHOICE (log 122): granules are the 256-byte steps from the start of the range:
CNT counts them (R72), and a cut stops the block at their ends (R76). -/
def Slot.pieceDone (sl : Slot) (n : Nat) : Slot :=
  { sl with row := sl.row + n, outst := 0, beats := (sl.row + n + 255) / 256 }

/-- A piece of a COPY or HASH has its bytes: the digest absorbs them, and they go on to the destination, if there is one. A poisoned
piece absorbs zeros; one that would be stored faults under PTRAP (R20). -/
def copyTaken (s : State) (q : MemReq) (r : RegId) (o : Offset) (st : Nat) (n : Nat) (dst : Option CopyDst) (bs : List Byte)
    (pois : Bool) : State :=
  let done := { s with reqs := s.reqs.filter fun x => x.id != q.id }
  match spOf s r o with
  | none => done
  | some (rg, sp) =>
    match sp.slotOf st with
    | none => done
    | some sl =>
      let data := if pois then bs.map fun _ => (0 : Byte) else bs
      if rg.frozen.isSome then done
      else
      match dst with
      | none => modSp done r o fun x => digestAbsorb sl data (x.modSlot st fun y => { y.pieceDone n with psn := y.psn || pois })
      | some d =>
        if pois && rg.ptrap then slotFault done r o sl clsPoison 0x01
        else
          let q1 := { q with va := d.va, tgt := d.tgt, key := d.key, binding := d.binding, big := d.big, page := d.page,
                             acc := .write bs pois, sent := false, reply := [], status := none }
          modSp { s with reqs := s.reqs.map fun x => if x.id = q.id then q1 else x } r o fun x =>
            digestAbsorb sl data ((x.modSlot st fun y => { y with psn := y.psn || pois }).poolWrite d.tgt bs pois)

/-- A piece of n bytes goes on its way, or is served by the pool (R66); the first one opens the hash. -/
def copySend (s : State) (rg : Region) (o : Offset) (sl : Slot) (src dst n len : Nat) (isHash : Bool) (e : TlbEntry) (t : Target)
    (w : Option (TlbEntry × Target)) : State :=
  let r := rg.id
  let s6 := if isHash && rg.pureInv.isSome then watchPiece s r t n else s
  let s7 := if isHash && !sl.checked then noteStaged s6 rg (w.map (·.2)) len else s6
  let d : Option CopyDst := w.map fun x =>
    { va := dst, tgt := x.2, key := (x.2.key).getD 0, binding := leafBinding s7 x.1.leaf.toNat, big := decide (16 < x.1.size), page := x.1.page }
  let s8 := modSp (sendReq s7 r.seq.part (.elem r o sl.stamp 0 4) src e t (.copy n d) sl.deadline) r o fun x =>
    let x1 := x.modSlot sl.stamp fun y => { y with outst := 1, checked := true }
    if sl.checked then x1 else hashBegin sl x1
  match (spOf s8 r o).bind fun x => poolLine x.2 t, s8.reqs.getLast? with
  | some l, some q =>
    copyTaken (modSp (countAt s8 rg o src q.big t) r o fun x => x.usePool l) q r o sl.stamp n d ((l.data.drop t.off).take n) (l.poisoned t.off n)
  | _, _ => s8

/-- A COPY or HASH of no bytes makes its checks and opens the hash. -/
def copyEmpty (s : State) (rg : Region) (o : Offset) (sp : Sp) (sl : Slot) : State :=
  match copyCheck s rg sp sl none none with
  | some k => slotFault s rg.id o sl clsCfg k
  | none => modSp s rg.id o fun x => hashBegin sl (x.modSlot sl.stamp fun y => { y with checked := true })

/-- The element alignment of a COPY or copying HASH (R77, 0x26). DESIGN CHOICE: its elements are 4 bytes long, whatever FMT says
(log 123). -/
def copyMisaligned (sl : Slot) (src dst : Nat) (both : Bool) : Bool := sl.checked && both && (src % 4 != 0 || dst % 4 != 0)

/-- An earlier accepted HASH of the same digest context has still to absorb: the bytes go in in the order of acceptance (R365). -/
def hashWaits (sp : Sp) (sl : Slot) : Bool :=
  match sl.spb with
  | .hash _ b => sp.busy.any fun x => decide (x.stamp < sl.stamp) && !x.finished && match x.spb with | .hash _ c => c.dctx == b.dctx | _ => false
  | _ => false

/-- The bytes of the next piece: within one aligned beat of each side (R114, R265) and one granule of the range; under PURE a COPY
checks each word by itself (R371). -/
def pieceLen (rg : Region) (isHash both : Bool) (left row src dst : Nat) : Nat :=
  let n := min (min left (256 - row % 256)) (if both then min (32 - src % 32) (32 - dst % 32) else 32 - src % 32)
  if !isHash && rg.pureInv.isSome then min n 4 else n

/-- One step of a COPY or HASH: one piece, in ascending order (R62, R64). The checks 0x27 to 0x29 come before the alignment of the first
piece (R77); every piece that a HASH reads under PURE lies in LOCAL memory (R364). -/
def copyStep (s : State) (rg : Region) (o : Offset) (sp : Sp) (sl : Slot) (sva dva len : Nat) (isHash : Bool) : Option State :=
  let r := rg.id
  if sl.outst ≠ 0 || hashWaits sp sl then none
  else if len ≤ sl.row && sl.checked then
    some (noteSlot (hashEnd s rg sp sl) r o sl none fun y => { y with finished := true })
  else
    let both := !isHash || dva != 0
    let src := vaAdd sva sl.row
    let dst := vaAdd dva sl.row
    let n0 := pieceLen rg isHash both (len - sl.row) sl.row src dst
    if len = 0 then some (copyEmpty s rg o sp sl)
    else if copyMisaligned sl src dst both then some (slotFault s r o sl clsCfg 0x26)
    else if heldByOrder s rg o sp sl src || (both && heldByOrder s rg o sp sl dst) then none
    else
      match copyXlate s rg o sl src dst both with
      | .error x => x
      | .ok (s2, e, t, w) =>
        match (if sl.checked then none else copyCheck s rg sp sl (some t) (w.map (·.2))) with
        | some k => some (slotFault s2 r o sl clsCfg k)
        | none =>
          let n := if t.wordOnly || w.any (fun x => x.2.wordOnly) then min n0 (4 - src % 4) else n0
          if copyMisaligned { sl with checked := true } src dst both then some (slotFault s2 r o sl clsCfg 0x26)
          else if isHash && rg.pureInv.isSome && !sourceLocal s rg t then some (slotFault s2 r o sl clsCfg 0x2B)
          else if poolWaits s r o sp t then none
          else
            some (withDeadline s2 r o sl 1 fun s3 =>
              pureElem s3 r o sl 0x04 (!isHash && impureRead rg src n t) fun s4 =>
              pureElem s4 r o sl 0x01 (!isHash && impureWrite rg dst n) fun s5 =>
                copySend s5 rg o sl src dst n len isHash e t w)

/-- One step of a PREF: one line, in the order of R71, dropped where it cannot be translated (R66, R50). -/
def prefStep (s : State) (rg : Region) (o : Offset) (sp : Sp) (sl : Slot) (va len : Nat) : Option State :=
  let r := rg.id
  let lines := (va + len - 1) / 256 - va / 256 + 1
  if lines ≤ sl.row then some (noteSlot s r o sl none fun y => { y with finished := true })
  else
    let a := vaAdd (va / 256 * 256) (256 * sl.row)
    if heldByOrder s rg o sp sl a then none
    else
    match xlatElem s rg o sl a false true with
    | .drop => some (noteSlot s r o sl none fun y => { y with row := y.row + 1 })
    | .stop s1 => some s1
    | .ok s1 e t =>
      some (withDeadline s1 r o sl 1 fun s2 =>
        modSlot (sendReq s2 r.seq.part (.line r o sl.stamp) a e t (.read 256) sl.deadline) r o sl.stamp
          fun y => { y with row := y.row + 1, outst := y.outst + 1 })

/-- One step of a FIB (R63). -/
def fibStep (s : State) (rg : Region) (o : Offset) (sp : Sp) (sl : Slot) (h : SpbHead) (b : FibBody) : Option State :=
  let r := rg.id
  let stops (k : Nat) : List RItem := [{ stop := some k }] ++ (if h.r2en then [{ second := true, stop := some k }] else [])
  match sl.vals with
  | [] =>
    if b.isrc.toNat < 4 then
      indexPortStep s rg o sp sl b.isrc.toNat fun k =>
        if k = 7 then none else some fun y => { y with items := y.items ++ stops (k + 1) }
    else if b.p0.toNat + sl.row < b.p1.toNat then
      some (noteSlot s r o sl none fun y => { y with vals := [b.p0.toNat + sl.row], rowEl := 0 })
    else some (noteSlot s r o sl none fun y => { y with finished := true })
  | [p] => wordStep s rg o sp sl 1 (vaAdd b.segva.toNat (4 * p))
  | [p, _] => wordStep s rg o sp sl 2 (vaAdd b.segva.toNat (4 * (p + 1)))
  | _ :: x :: e :: _ =>
    if e < x ∨ b.climit.toNat < e then faultDrained s r o sl 0x05
    else if e ≤ x + sl.rowEl then
      some (noteSlot s r o sl none fun y =>
        { y with items := y.items ++ stops 0, vals := [], rowEl := 0, row := y.row + 1, psn := y.psn || y.idxPois })
    else
      let addr (i : Nat) : Nat := vaAdd b.crdva.toNat (4 * (x + i))
      let left := min (8 - sl.rowEl % 8) (e - x - sl.rowEl)
      let m := runLen addr 4 sl.rowEl (rg.runCap left)
      issueRead s rg o sp sl (addr sl.rowEl) 4 m (if h.r2en then 2 else 1) fun k y =>
        { y.addEls k 8 (decide (e ≤ x + sl.rowEl + k)) (if h.r2en then some (x + sl.rowEl) else none) with rowEl := y.rowEl + k }

/-- A COPY or HASH is between two granules of its range. -/
def Slot.betweenGranules (sl : Slot) : Bool :=
  match sl.spb with
  | .copy _ b => sl.row % 256 == 0 || decide (b.len.toNat ≤ sl.row)
  | .hash _ b => sl.row % 256 == 0 || decide (b.len.toNat ≤ sl.row)
  | _ => true

/-- A COPY or HASH stops at a granule boundary for a cut, and a PREF reads ahead no more (R76). -/
def Slot.stopsAtCut (sl : Slot) : Bool :=
  match sl.spb with
  | .copy _ _ | .hash _ _ => sl.betweenGranules
  | .pref _ _ => true
  | _ => false

/-! ### Reading ahead (R68) -/

/-- Chasers are at most this far ahead of issue. -/
def aheadMax : Nat := 256

/-- The row that is taken next. -/
def Slot.nextRow (sl : Slot) : Nat := if sl.vals.isEmpty then sl.row else sl.row + 1

/-- A word of a line that the pool holds, for a chaser that goes on from it; none: it is not there, or poisoned. -/
def poolWord (sp : Sp) (va : Nat) : Option Nat :=
  (sp.pool.find? fun l => l.va / 256 == va / 256).bind fun l =>
    if l.poisoned (va % 256) 4 then none else some (natOfBytes ((l.data.drop (va % 256)).take 4))

/-- The lines of n bytes at va that a chaser has neither fetched nor dropped. -/
def wantLines (sl : Slot) (va n : Nat) : List Nat :=
  ((List.range ((va % 256 + n + 255) / 256)).map fun i => va / 256 + i).filter fun l => !sl.fetched.contains l

/-- Lines wanted for a word, or for what its value leads to. -/
def viaWord (sp : Sp) (sl : Slot) (va : Nat) (k : Nat → List Nat) : List Nat :=
  match poolWord sp va with
  | some x => k x
  | none => if va % 4 = 0 then wantLines sl va 4 else []

/-- The lines wanted for a row of a GATH or SCAT whose index is x; a SCAT fetches no elements. -/
def aheadRow (sp : Sp) (sl : Slot) (b : GathBody) (gather : Bool) (x : Nat) : List Nat :=
  let row (y : Nat) : List Nat :=
    if gather && decide (y < b.ilimit.toNat) then wantLines sl (vaAdd b.base.toNat (y * b.estride.toNat)) b.elen.toNat else []
  if b.depth.toNat = 2 then (if x < b.mlimit.toNat then viaWord sp sl (vaAdd b.mid.toNat (4 * x)) row else [])
  else row x

/-- The lines wanted for a reference p of a FIB. -/
def aheadRef (sp : Sp) (sl : Slot) (b : FibBody) (p : Nat) : List Nat :=
  viaWord sp sl (vaAdd b.segva.toNat (4 * p)) fun x => viaWord sp sl (vaAdd b.segva.toNat (4 * (p + 1))) fun e =>
    if x < e ∧ e ≤ b.climit.toNat then wantLines sl (vaAdd b.crdva.toNat (4 * x)) (4 * (e - x)) else []

/-- The lines wanted for the k-th index ahead of a slot's rows: of the port values taken ahead, of the memory list, of the range of a
FIB. -/
def aheadAt (sp : Sp) (sl : Slot) (k : Nat) : List Nat :=
  let port (row : Nat → List Nat) : List Nat := match sl.fifo[k]? with
    | some (x, false) => row x
    | _ => []
  let i := sl.nextRow + k
  let gathered (b : GathBody) (isG : Bool) : List Nat :=
    if b.isrc.toNat < 4 then port (aheadRow sp sl b isG)
    else if i < b.nidx.toNat then viaWord sp sl (vaAdd b.iva.toNat (4 * i)) (aheadRow sp sl b isG) else []
  match sl.spb with
  | .gath _ b => gathered b true
  | .scat _ b => gathered b false
  | .fib _ b =>
    if b.isrc.toNat < 4 then port (aheadRef sp sl b)
    else if b.p0.toNat + i < b.p1.toNat then aheadRef sp sl b (b.p0.toNat + i) else []
  | _ => []

/-- The line that the chasers of a slot want first. -/
def aheadLine (sp : Sp) (sl : Slot) : Option Nat := (List.range aheadMax).findSome? fun k => (aheadAt sp sl k).head?

/-- A chaser takes a whole beat of a port index stream ahead of its rows. -/
def takeAhead (s : State) (rg : Region) (o : Offset) (sp : Sp) (sl : Slot) : Option State :=
  match indexPortOf sl.spb with
  | none => none
  | some port =>
    if earlierUses sp sl port then none
    else
      match spHead rg o port with
      | some b =>
        let vs := lanesFrom b sl.idxLane
        if b.isData && !b.spec && decide (sl.fifo.length + vs.length ≤ aheadMax) && (indexFault rg o sp sl port b).isNone then
          let s0 := if fibreBlock sl.spb && !vs.isEmpty then noteSide s rg.id o port sideElement else s
          some (noteSlot s0 rg.id o sl (some port) fun y =>
            { y with fifo := y.fifo ++ vs.map (fun v => (v, b.poison)), idxLane := 0, psn := y.psn || b.poison })
        else none
      | none => none

/-- One step of the chasers of a slot ahead of its rows: a line of indices or of elements goes into the pool, a prefetch that is dropped
where it cannot be translated (R50). -/
def aheadStep (s : State) (rg : Region) (o : Offset) (sp : Sp) (sl : Slot) : Option State :=
  if sl.halts || behindFlush sp sl || rg.cut.isSome || !chasersFree sp sl then none
  else
    match takeAhead s rg o sp sl with
    | some s1 => some s1
    | none =>
      let r := rg.id
      match aheadLine sp sl with
      | none => none
      | some l =>
        let noted (s : State) : State := modSlot s r o sl.stamp fun y => { y with fetched := y.fetched ++ [l] }
        match xlatAhead s rg o (256 * l) with
        | .drop => some (noted s)
        | .stop s1 => some (noted s1)
        | .ok s1 e t =>
          some (noted (if (poolLine sp t).isSome then s1
            else sendReq s1 r.seq.part (.ahead r o sl.stamp) (256 * l) e t (.read 256) (2 ^ 64 - 1)))

/-- A FLUSH waits for every write element of the SPBs accepted before it (R65). -/
def flushWaits (sp : Sp) (sl : Slot) : Bool :=
  sp.busy.any fun x => decide (x.stamp < sl.stamp) && (!x.finished || x.outst != 0) &&
    (match x.spb with
      | .linWrite _ _ | .scat _ _ | .copy _ _ => true
      | .hash _ b => b.dva != 0
      | _ => false)

/-- One step of the SPB in a slot; none: it is not ready. -/
def slotStep (s : State) (rg : Region) (o : Offset) (sp : Sp) (sl : Slot) : Option State :=
  if sl.halts || behindFlush sp sl || !chasersFree sp sl || (rg.cut.isSome && sl.stopsAtCut) then none
  else
    match sl.spb with
    | .linRead h b =>
      let es := elemBytes h.fmt
      let per := 32 / es
      let n := linCount b
      let e := sl.nextEl
      let m := runLen (linAddr b) es e (rg.runCap (min (per - e % per) (n - e)))
      issueRead s rg o sp sl (linAddr b e) es m 1 fun k y =>
        let y1 := y.addEls k per (decide (n ≤ e + k)) none
        if n ≤ e + k then { y1 with finished := true } else y1
    | .linWrite h b =>
      let n := linCount b
      writeStep s rg o sp sl h.dport.toNat (linAddr b) (elemBytes h.fmt) sl.nextEl n fun m y =>
        { y with nextEl := y.nextEl + m, finished := decide (n ≤ y.nextEl + m) }
    | .gath h b =>
      match rowKnown sl b with
      | none => rowIndex s rg o sp sl b true
      | some y =>
        if b.ilimit.toNat ≤ y then faultDrained s rg.id o sl 0x05
        else
          let es := elemBytes h.fmt
          let per := 32 / es
          let n := b.elen.toNat / es
          let addr (i : Nat) : Nat := vaAdd b.base.toNat (y * b.estride.toNat + i * es)
          let m := runLen addr es sl.rowEl (rg.runCap (min (per - sl.rowEl % per) (n - sl.rowEl)))
          issueRead s rg o sp sl (addr sl.rowEl) es m 1 fun k z =>
            rowAdvance k n (z.addEls k per (decide (n ≤ sl.rowEl + k)) none)
    | .scat h b =>
      match rowKnown sl b with
      | none => rowIndex s rg o sp sl b false
      | some y =>
        if b.ilimit.toNat ≤ y then faultDrained s rg.id o sl 0x05
        else
          let es := elemBytes h.fmt
          let n := b.elen.toNat / es
          writeStep s rg o sp sl h.dport.toNat (fun i => vaAdd b.base.toNat (y * b.estride.toNat + i * es)) es sl.rowEl n
            fun m z => rowAdvance m n { z with nextEl := z.nextEl + m }
    | .copy _ b => copyStep s rg o sp sl b.sva.toNat b.dva.toNat b.len.toNat false
    | .fib h b => fibStep s rg o sp sl h b
    | .hash _ b => copyStep s rg o sp sl b.sva.toNat b.dva.toNat b.len.toNat true
    | .flush h _ => if flushWaits sp sl then none
        else some (modSp (atScope s h.scope.toNat) rg.id o fun x => { x.modSlot sl.stamp fun y => { y with finished := true } with pool := [] })
    | .pref _ b => prefStep s rg o sp sl b.va.toNat b.len.toNat
    | _ => none

/-- Earliest deadline first, ties to the earlier accepted (R69). -/
def edfInsert (x : Slot) : List Slot → List Slot
  | [] => [x]
  | y :: t => if x.deadline < y.deadline ∨ (x.deadline = y.deadline ∧ x.stamp < y.stamp) then x :: y :: t else y :: edfInsert x t

def edfOrder (l : List Slot) : List Slot := l.foldr edfInsert []

/-- The first slot in order that can go on. -/
def firstStep (s : State) (rg : Region) (o : Offset) (sp : Sp) : List Slot → Option State
  | [] => none
  | x :: t => match slotStep s rg o sp x with
    | some s1 => some s1
    | none => firstStep s rg o sp t

/-- The first slot in order whose chasers can read ahead. -/
def firstAhead (s : State) (rg : Region) (o : Offset) (sp : Sp) : List Slot → Option State
  | [] => none
  | x :: t => match aheadStep s rg o sp x with
    | some s1 => some s1
    | none => firstAhead s rg o sp t

/-- One step of a port: of the chasers where they read ahead now, else of the SPB that issues. -/
def portStep (s : State) (rg : Region) (o : Offset) (sp : Sp) : Option State :=
  match (if Config.readAhead s.tick then firstAhead s rg o sp (edfOrder sp.busy) else none) with
  | some s1 => some s1
  | none => firstStep s rg o sp (edfOrder sp.busy)

/-- A COPY or HASH inside a granule, which goes on to its end even when a cut freezes the region by force (R76). -/
def Slot.midGranule (sl : Slot) : Bool := !sl.betweenGranules && !sl.halts

/-- Frozen by force for a cut (R340). -/
def Region.forcedCut (rg : Region) : Bool := rg.installed && rg.frozen.isNone && rg.cut.any fun c => c.forced

/-- One step of a port of a region that a cut has frozen by force: of a block inside a granule. -/
def forcedStep (s : State) (rg : Region) (o : Offset) (sp : Sp) : Option State :=
  if rg.forcedCut && !rg.isHalted 1 o 0 then firstStep s rg o sp (edfOrder (sp.busy.filter Slot.midGranule)) else none

/-- ELEMENT_ISSUE (R69): one step of the ready SPB with the earliest deadline, and the replies that can leave. -/
def execElementIssue (r : RegId) (o : Offset) (s : State) : Host.Outcome State Fault Refusal :=
  let s0 := sendReplies s r o
  match spOf s0 r o with
  | none => .next s
  | some (rg, sp) =>
    if !rg.running || rg.isHalted 1 o 0 then .next ((forcedStep s rg o sp).getD s)
    else
      match portStep s0 rg o sp with
      | none => .next s0
      | some s1 =>
        match regionAt s1 r with
        | some rg1 => .next (setRegion s1 { rg1 with hang := 0 })
        | none => .next s1

/-! ### Completion (R57, R72) -/

/-- The event token's word (R72). -/
def eventWord (sl : Slot) (slot : Nat) : Word :=
  BitVec.ofNat 32 (sl.head.etag.toNat * 2 ^ 24 + (if sl.psn then 2 ^ 23 else 0) + slot % 8 * 2 ^ 20 + sl.beats % 2 ^ 20)

/-- SPB_COMPLETE (R57, R72): every reply has left and every access has performed. -/
def execSpbComplete (r : RegId) (o : Offset) (slot : Nat) (s : State) : Host.Outcome State Fault Refusal :=
  let s0 := sendReplies s r o
  match spOf s0 r o with
  | none => .next s
  | some (rg, sp) =>
    match sp.slots.getD slot none with
    | none => .next s0
    | some sl =>
      if rg.running && sl.finished && !sl.faulted && sl.items.isEmpty && sl.cur.isEmpty && sl.outst == 0 then
        let s1 := setRegion s0 (setSp rg { sp with slots := lmod sp.slots slot fun _ => none })
        if sl.head.evt then
          .next { s1 with evLane := s1.evLane ++ [{ reg := r, off := ⟨sl.head.rdx.toInt, sl.head.rdy.toInt⟩,
                                                     ctx := sl.head.rctx.toNat, word := eventWord sl slot }] }
        else .next s1
      else .next s0

/-- EVENT_TOKEN_ARRIVE (R72): token k of the lane reaches its cell. No file says what the consumer stage does with it; the
token is recorded as fired (log 12). -/
def execEventTokenArrive (k : Nat) (s : State) : Host.Outcome State Fault Refusal :=
  match s.evLane[k]? with
  | none => .next s
  | some t => .next { s with evLane := s.evLane.eraseIdx k, evFired := s.evFired ++ [t] }

/-! ### Markers and data tokens (R45, R55, R56, R73 to R76) -/

/-- Outbound ports with a configured route. -/
def routedPorts (rg : Region) (o : Offset) : List Nat := [0, 1, 2, 3].filter fun q => (rg.outLink o true 0 q).isSome

/-- The KIND byte of a block is one that exists (Table 4-3). -/
def kindKnown (a : Beat) : Bool := decide (1 ≤ a.pay.toNat % 256) && decide (a.pay.toNat % 256 ≤ 8)

/-- SP_REQ_MARK (R45, R55, R56, R73): the head of the REQ port that is not a well-formed SPB pair. -/
def execSpReqMark (r : RegId) (o : Offset) (s : State) : Host.Outcome State Fault Refusal :=
  let s0 := sendReplies s r o
  match spOf s0 r o with
  | none => .next s
  | some (rg, sp) =>
    match reqPort rg o with
    | none => .next s0
    | some k =>
      if !rg.running || rg.isHalted 1 o 0 then .next s0
      else
        match spHeads rg o k with
        | [] => .next s0
        | b :: rest =>
          if b.isMark then
            -- for a DRN or an EOI the SP is a sink once every SPB accepted before it has completed
            if (b.isDrn || b.isEoi) && !sp.busy.isEmpty then .next s0
            else
              let s1 := setRegion s0 { rg.consumePort o true 0 k with hang := 0 }
              if b.isTdr then .next s1
              else
                .next (modSp s1 r o fun x =>
                  { x with marks := x.marks ++ (if (routedPorts rg o).isEmpty then [] else [{ stamp := sp.nextStamp, tok := b, ports := routedPorts rg o }]),
                           nextStamp := sp.nextStamp + 1 })
          else if b.spec then
            match resolveSpec (b :: rest) with
            | some q => .next (setRegion s0 (rg.requeue o true 0 k q))
            | none => .next s0
          else if b.isData || b.isStop then .next (spFault s0 r o clsCfg 0x20 k (some b) 0)
          else if b.poison then .next (spFault s0 r o clsPoison 0x02 k (some b) 0)
          else if b.level ≠ 0 then .next (spFault s0 r o clsCfg 0x21 k (some b) 0)
          else
            match rest with
            | [] => .next s0
            | c :: _ =>
              if c.spec && !c.isMark then
                match resolveSpec (b :: rest) with
                | some q => .next (setRegion s0 (rg.requeue o true 0 k q))
                | none => .next s0
              else if c.isCfg && c.poison then .next (spFault s0 r o clsPoison 0x02 k (some c) 0)
              else if !(c.isCfg && c.level == 1) then .next (spFault s0 r o clsCfg 0x21 k (some b) c.pay)
              else if !kindKnown b then .next (spFault s0 r o clsCfg 0x22 k (some b) c.pay)
              else .next s0

/-- An active index stream uses a DATA port. -/
def indexUses (sp : Sp) (k : Nat) : Bool := sp.busy.any fun x => !x.finished && !x.faulted && indexPortOf x.spb == some k

/-- A write SPB under way takes from a DATA port. -/
def writeOpen (sp : Sp) (k : Nat) : Bool := sp.busy.any fun x => !x.finished && !x.faulted && dataPortOf x.spb == some k

/-- A SCAT owes the beats of a row that it knows: of the row under way, of the rows whose index has arrived, or of the rows its
memory list still names (R61). -/
def scatOwes (rg : Region) (o : Offset) (sp : Sp) (sl : Slot) (b : GathBody) : Bool :=
  match sl.vals with
  | [] => if b.isrc.toNat < 4 then !(arrivedIdx rg o sp sl b.isrc.toNat).isEmpty else decide (sl.row < b.nidx.toNat)
  | _ => (rowKnown sl b).all fun y => decide (y < b.ilimit.toNat)

/-- The write SPB that still owes beats from a DATA port (R74): a LIN write every beat not yet taken, a SCAT those of its known
rows. -/
def writeOwes (rg : Region) (o : Offset) (sp : Sp) (k : Nat) : Option Slot :=
  sp.busy.find? fun x => !x.finished && !x.faulted && dataPortOf x.spb == some k &&
    (match x.spb with | .scat _ b => scatOwes rg o sp x b | _ => true)

/-- A marker passes at a boundary of the port's index stream (R232). -/
def passAt (s : State) (r : RegId) (o : Offset) (k : Nat) (b : Beat) : State :=
  if b.needsBoundary then noteSide s r o k FibreSide.pass else s

/-- SP_DATA_TOKEN (R55, R74, R75): the head of an inbound port other than REQ. -/
def execSpDataToken (r : RegId) (o : Offset) (k : Nat) (s : State) : Host.Outcome State Fault Refusal :=
  match spOf s r o with
  | none => .next s
  | some (rg, sp) =>
    if !rg.running || rg.isHalted 1 o 0 then .next s
    else
      match spHeads rg o k with
      | [] => .next s
      | b :: rest =>
        if spRole rg o k = 1 then .next s
        else if b.spec && !b.isMark then
          match resolveSpec (b :: rest) with
          | some q => .next (setRegion s (rg.requeue o true 0 k q))
          | none => .next s
        else if b.isCfg && b.poison then .next (spFault s r o clsPoison 0x02 k (some b) 0)
        else if spRole rg o k ≠ 2 then .next (spFault s r o clsStray 0x01 k (some b) 0)
        else if b.isCfg then .next (spFault s r o clsCfg 0x20 k (some b) 0)
        else if b.isRlx || b.isEog || b.isDrn || b.isTdr || b.isSpr || b.isCkp then
          if b.needsBoundary && !(sp.side k).settled then .next (spFault s r o clsMalformed 0x07 k (some b) 0)
          else .next (passAt (setRegion s { rg.consumePort o true 0 k with hang := 0 }) r o k b)
        else if b.isStop then
          if indexUses sp k then .next s else .next (setRegion s { rg.consumePort o true 0 k with hang := 0 })
        else if b.isEoi then
          match writeOwes rg o sp k with
          | some x => .next (spFault (modSlot s r o x.stamp fun y => { y with faulted := true }) r o clsCfg 0x2A k (some b) 0)
          | none => .next s
        else .next s

/-- A write element fed from a DATA port has yet to perform. -/
def writesFrom (s : State) (r : RegId) (o : Offset) (k : Nat) : Bool :=
  s.reqs.any fun q => match q.who with
    | .elem r1 o1 _ _ d => r1 == r && o1 == o && d == k
    | _ => false

/-- REL_RELEASE (R74, R270): a REL, or an EOI of a port that no open stream uses, leaves the DATA port once every write element fed
from it has performed. -/
def execRelRelease (r : RegId) (o : Offset) (k : Nat) (s : State) : Host.Outcome State Fault Refusal :=
  match spOf s r o with
  | none => .next s
  | some (rg, sp) =>
    if !rg.running || rg.isHalted 1 o 0 || spRole rg o k != 2 then .next s
    else
      match spHead rg o k with
      | none => .next s
      | some b =>
        if b.isRel && !(sp.side k).settled then .next (spFault s r o clsMalformed 0x07 k (some b) 0)
        else if (b.isRel || (b.isEoi && !indexUses sp k && !writeOpen sp k)) && !writesFrom s r o k then
          .next (atScope (passAt (setRegion s { rg.consumePort o true 0 k with hang := 0 }) r o k b) (if b.isRel then b.relScope else 3))
        else .next s

end Sys2Proof.Machine
end

