-- ==== Sys2Proof/Machine/Perform.lean ====
section
/-! DEFINITION. Accesses at their points of performance (R265 to R268, R71): memory, staging windows, bank windows (R114),
atomics of the sequencer (R293), answers to who asked, and the host's accesses (R383). -/

namespace Sys2Proof.Machine

/-! ### Order (R71, R268, R294) -/

/-- Two accesses pass one ordering port and touch one granule of it (Table 13-3, R266); the writes of a layout record keep their order
(R326). -/
def sameGranule (a b : MemReq) : Bool :=
  match a.who, b.who with
  | .elem r o _ _ _, .elem r1 o1 _ _ _ | .elem r o _ _ _, .line r1 o1 _ | .line r o _, .elem r1 o1 _ _ _ | .line r o _, .line r1 o1 _
  | .elem r o _ _ _, .ahead r1 o1 _ | .ahead r o _, .elem r1 o1 _ _ _ | .ahead r o _, .ahead r1 o1 _ | .ahead r o _, .line r1 o1 _
  | .line r o _, .ahead r1 o1 _ =>
    r == r1 && o == o1 && a.tgt.line == b.tgt.line
  | .layout r, .layout r1 => r == r1
  | .seqLoad c _ _, .seqLoad c1 _ _ | .seqLoad c _ _, .seqStore c1 | .seqLoad c _ _, .seqAmo c1 _ _
  | .seqStore c, .seqLoad c1 _ _ | .seqStore c, .seqStore c1 | .seqStore c, .seqAmo c1 _ _
  | .seqAmo c _ _, .seqLoad c1 _ _ | .seqAmo c _ _, .seqStore c1 | .seqAmo c _ _, .seqAmo c1 _ _ =>
    c == c1 && a.va / 8 == b.va / 8
  | _, _ => false

/-- No earlier access must perform before this one. -/
def mayPerform (s : State) (q : MemReq) : Bool := !(s.reqs.takeWhile fun x => x.id != q.id).any fun x => sameGranule x q

/-! ### Atomics of the sequencer (R293) -/

/-- The signed value of an n-byte word. -/
def signedBytes (n v : Nat) : Int := if 2 ^ (8 * n - 1) ≤ v then (v : Int) - 2 ^ (8 * n) else v

/-- old op arg over n bytes; none: CAS does not write. -/
def amoNew (op n old arg cmp : Nat) : Option Nat :=
  let m := 2 ^ (8 * n)
  match op with
  | 0 => some ((old + arg) % m)
  | 1 => some arg
  | 2 => if old = cmp then some arg else none
  | 3 => some (old &&& arg)
  | 4 => some (old ||| arg)
  | 5 => some (old ^^^ arg)
  | 6 => some (if signedBytes n arg < signedBytes n old then arg else old)
  | 7 => some (if signedBytes n old < signedBytes n arg then arg else old)
  | 8 => some (min old arg)
  | _ => some (max old arg)

/-! ### What an access does at its target -/

/-- How an access ends at its point of performance. -/
inductive PerfR where
  /-- It has performed, with the bytes read and their poison. -/
  | ok (s : State) (bs : List Byte) (poison : Bool)
  /-- It is not performed: a fault of the class and subcode. -/
  | bad (cls sub : Nat)
  /-- It is not ready. -/
  | later
  | mmio

/-- Perform at plain memory. An atomic at a poisoned word is not performed (R360). -/
def performPlain (s : State) (b key : Nat) (acc : Access) : PerfR :=
  match acc with
  | .read n | .copy n _ => .ok s (devRead s b key n).1 (devRead s b key n).2
  | .write bs p => .ok (devWrite s b key bs p) [] false
  | .amo op n arg cmp =>
    let (bs, pois) := devRead s b key n
    if pois then .ok s bs true
    else
      match amoNew op n (natOfBytes bs) arg cmp with
      | none => .ok s bs false
      | some v => .ok (devWrite s b key (bytesOfNat n v) false) bs false

/-- The region and port whose block stands at a position. -/
def spAtPos (s : State) (p : Pos) : Option (Region × Sp) :=
  s.regions.findSome? fun rg => (rg.sps.find? fun x => rg.posOf x.off == p).map fun x => (rg, x)

/-- Bytes of a staging window; unlisted bytes read 0. -/
def stageGet (m : AMap Byte) (k n : Nat) : List Byte := (List.range n).map fun i => agetD m (k + i) 0
def stagePut (m : AMap Byte) (k : Nat) : List Byte → AMap Byte
  | [] => m
  | b :: t => stagePut (if b = 0 then adel m k else aset m k b) (k + 1) t

/-- Perform at a STAGE window (R67). -/
def performStage (s : State) (p : Pos) (off : Nat) (acc : Access) : PerfR :=
  match spAtPos s p with
  | none => .bad clsXlate 0x06
  | some (rg, sp) =>
    match acc with
    | .read n | .copy n _ => .ok s (stageGet sp.staging off n) ((wordsOf off n).any fun w => sp.stagePois.contains w)
    | .write bs pois =>
      let n := bs.length
      let sp1 := if pois then { sp with stagePois := joinWords sp.stagePois (wordsOf off n) }
        else { sp with staging := stagePut sp.staging off bs, stagePois := sp.stagePois.filter fun w => !(clearedWords off n).contains w }
      .ok (setRegion s (setSp rg sp1)) [] false
    | .amo .. => .bad clsSeq 0x06

/-- The region that holds a position. -/
def regionAtPos (s : State) (p : Pos) : Option (Region × Offset) :=
  (s.regions.find? fun rg => rg.hasPos p).map fun rg => (rg, ⟨(p.x : Int) - rg.org.x, (p.y : Int) - rg.org.y⟩)

/-- The segment that holds a bank byte: its index and description. -/
def segAtByte (rg : Region) (o : Offset) (byte : Nat) : Option SegDesc :=
  ((List.range 8).map (segDesc rg.plane o)).find? fun d => d.typ != 0 && decide (d.base ≤ byte / 32) && decide (byte / 32 < d.base + d.size)

/-- The fault of a window access to a bank byte (R114, R361); none: it is allowed. A SAMO reaches memory tiles only. -/
def windowFault (s : State) (p : Pos) (byte : Nat) (amo : Bool) : Option (Nat × Nat) :=
  if s.scrubbing.contains p then some (clsPerm, 0x04)
  else
    match regionAtPos s p with
    | none => some (clsPerm, 0x04)
    | some (rg, o) =>
      if !rg.installed || (aget rg.plane (offKey o)).isNone || rg.hardCol o.dx then some (clsPerm, 0x04)
      else
        match segAtByte rg o byte with
        | none => if amo then some (clsSeq, 0x06) else some (clsPerm, 0x03)
        | some d =>
          if d.typ == 4 then none
          else if amo then some (clsSeq, 0x06)
          else if d.typ == 2 || d.typ == 3 then none
          else some (clsPerm, 0x03)

/-- Bytes of a bank beat. -/
def bankBytes (c : Cell) (byte n : Nat) : List Byte := ((payBytes (bankBeat c (byte / 32))).drop (byte % 32)).take n

/-- The 64-bit bank words that bytes touch, and their poison. -/
def bankBytesPois (c : Cell) (byte n : Nat) : Bool := (wordsOf byte n).any fun w => c.bpois.contains w

/-- Write bytes within one bank beat (R101, R360). -/
def bankPutBytes (c : Cell) (byte : Nat) (bs : List Byte) (pois : Bool) : Cell :=
  if pois then { c with bpois := addWords c.bpois (wordsOf byte bs.length) }
  else
    let old := payBytes (bankBeat c (byte / 32))
    let new := payOfBytes (old.take (byte % 32) ++ bs ++ old.drop (byte % 32 + bs.length))
    { c with bank := if new = 0 then adel c.bank (byte / 32) else aset c.bank (byte / 32) new,
             bpois := c.bpois.filter fun w => !(clearedWords byte bs.length).contains w }

/-- Write bytes that may span beats, one beat access after another (R114). -/
def bankPutAll (pois : Bool) : Nat → Cell → Nat → List Byte → Cell
  | 0, c, _, _ => c
  | n + 1, c, byte, bs =>
    if bs.isEmpty then c
    else
      let k := min bs.length (32 - byte % 32)
      bankPutAll pois n (bankPutBytes c byte (bs.take k) pois) (byte + k) (bs.drop k)

/-- Read bytes that may span beats. -/
def bankGetAll : Nat → Cell → Nat → Nat → List Byte
  | 0, _, _, _ => []
  | f + 1, c, byte, n =>
    if n = 0 then []
    else
      let k := min n (32 - byte % 32)
      bankBytes c byte k ++ bankGetAll f c (byte + k) (n - k)

/-- The number of bytes of an access. -/
def Access.size : Access → Nat
  | .read n | .copy n _ | .amo _ n _ _ => n
  | .write bs _ => bs.length

def Access.isAmo : Access → Bool
  | .amo .. => true
  | _ => false

/-- Perform at a bank window (R114). Each beat accessed is checked. -/
def performBank (s : State) (p : Pos) (byte : Nat) (acc : Access) : PerfR :=
  let n := acc.size
  match (List.range n).findSome? fun i => windowFault s p (byte + i) acc.isAmo with
  | some (c, k) => .bad c k
  | none =>
    match regionAtPos s p with
    | none => .bad clsPerm 0x04
    | some (rg, o) =>
      let c := cellAt rg o
      let put (c1 : Cell) : State := setRegion s (setCell rg o c1)
      match acc with
      | .read n | .copy n _ => .ok s (bankGetAll 9 c byte n) (bankBytesPois c byte n)
      | .write bs pois => .ok (put (bankPutAll pois 9 c byte bs)) [] false
      | .amo op n arg cmp =>
        let bs := bankGetAll 9 c byte n
        if bankBytesPois c byte n then .ok s bs true
        else
          match amoNew op n (natOfBytes bs) arg cmp with
          | none => .ok s bs false
          | some v => .ok (put (bankPutAll false 9 c byte (bytesOfNat n v))) bs false

/-- A flit of a request or answer: 32 data bytes, then 4 bytes above them (log 13). -/
def flitBody (data : List Byte) (top : Nat) : BitVec 288 := BitVec.ofNat 288 (natOfBytes data % 2 ^ 256 + top % 2 ^ 32 * 2 ^ 256)

/-- The request flits of an access to another module: TDN, access kind, length and target address, then its data (log 13). -/
def requestFlits (tdn : Nat) (q : MemReq) (addr : Nat) : List (BitVec 288) :=
  let kind := match q.acc with | .read _ | .copy _ _ => 0 | .write _ false => 1 | .write _ true => 2 | .amo op _ _ _ => 16 + op
  let data := match q.acc with
    | .write bs _ => bs
    | .amo _ _ arg cmp => bytesOfNat 8 arg ++ bytesOfNat 8 cmp
    | _ => []
  flitBody (bytesOfNat 8 addr ++ [BitVec.ofNat 8 tdn, BitVec.ofNat 8 kind] ++ bytesOfNat 4 q.acc.size) 0 ::
    (List.range ((data.length + 31) / 32)).map fun i => flitBody ((data.drop (32 * i)).take 32) 0

/-- Send an access to its module, once. -/
def sendRemote (s : State) (q : MemReq) (m die addr : Nat) : State :=
  let port := hopPort s.domSize s.modId m
  let tdn := ((partSlot s q.part).map (·.tdn)).getD 0
  { s with sports := lmod s.sports port fun p =>
             sendFlits p 1 (BitVec.ofNat 12 q.id) (requestFlits tdn q (m * 2 ^ 40 + die * 2 ^ 38 + addr)),
           reqs := s.reqs.map fun x => if x.id = q.id then { x with sent := true } else x }

/-- The answer of another module, when it has come: an error is PERM 0x01 (R387). -/
def remoteAnswer (s : State) (q : MemReq) : PerfR :=
  match q.status with
  | none => .later
  | some 0 => .ok s q.reply false
  | some 2 => .ok s q.reply true
  | some 3 => .bad clsKeyrev 0x01
  | some _ => .bad clsPerm 0x01

/-- An access at its target. Bank windows perform at WINDOW_ACCESS. -/
def performAt (s : State) (q : MemReq) : PerfR :=
  match q.tgt with
  | .dram .. | .cxl .. | .host .. => performPlain s q.binding q.key q.acc
  | .stage p off => performStage s p off q.acc
  | .bank p byte => performBank s p byte q.acc
  | .remote m d a => if q.sent then remoteAnswer s q else .ok (sendRemote s q m d a) [] false
  | .mmio _ => .mmio

/-! ### Answers -/

/-- The values of a reply for the elements of a slot. -/
def replyVals (sl : Slot) (bs : List Byte) (pois : Bool) : List Nat :=
  let es := replyBytes sl.spb
  elemVals (if pois then bs.map fun _ => (0 : Byte) else bs) es (bs.length / es)

/-- Writes of one SP to a line that are on their way: they lie over a line fetched now (R66). -/
def overlay (r : RegId) (o : Offset) : List MemReq → PoolLine → PoolLine
  | [], l => l
  | q :: t, l =>
    overlay r o t (match q.who, q.acc with
      | .elem r1 o1 _ _ _, .write bs pois => if r1 == r && o1 == o && q.tgt.line == l.tgt.line then l.put q.tgt.off bs pois else l
      | _, _ => l)

/-- The target k bytes on. -/
def Target.plus (t : Target) (k : Nat) : Target :=
  match t with
  | .dram d a => .dram d (a + k)
  | .cxl p o => .cxl p (o + k)
  | .host a => .host (a + k)
  | .remote m d a => .remote m d (a + k)
  | .bank p b => .bank p (b + k)
  | .stage p o => .stage p (o + k)
  | .mmio o => .mmio (o + k)

/-- The poisoned 64-bit words of a line, counted from its start. -/
def linePois (s : State) (q : MemReq) : List Nat :=
  (List.range 32).filter fun i =>
    match performAt s { q with tgt := q.tgt.plus (8 * i), key := q.key + 8 * i, acc := .read 8 } with
    | .ok _ _ p => p
    | _ => false

/-- Fill a pool line, the least recently used going (R66). A line is read in one step (log 54). -/
def fillPool (s : State) (r : RegId) (o : Offset) (q : MemReq) (bs : List Byte) (pois : Bool) : State :=
  match regionAt s r with
  | some rg =>
    let l : PoolLine := { va := q.va, tgt := q.tgt, data := bs, pois := if pois then linePois s q else [], page := q.page }
    modSp s r o fun x => (x.usePool (overlay r o s.reqs l)).trimPool (poolCap rg o)
  | none => s

/-- A load's value for a register: sign-extended when it is a word (R293). -/
def loadValue (n : Nat) (signed : Bool) (bs : List Byte) : DWord :=
  if signed then BitVec.ofInt 64 (signedBytes n (natOfBytes bs)) else BitVec.ofNat 64 (natOfBytes bs)

/-- Give a sequencer register its value. A poisoned word gives a free value (log 23). -/
def loadTo (s : State) (c : SeqId) (gd n : Nat) (signed : Bool) (bs : List Byte) (pois : Bool) : State :=
  let q := seqAt s c
  let v := if pois then Config.poisonedLoad s.tick else loadValue n signed bs
  setSeq s c { setGreg q (BitVec.ofNat 5 gd) v with owed := q.owed &&& ~~~((1 : BitVec 32) <<< gd) }

/-- A hit copy has advanced (R368). -/
def hitAdvance (s : State) (r : RegId) (n : Nat) : State :=
  match regionAt s r with
  | none => s
  | some rg => setRegion s (rg.setPure fun p => { p with copied := p.copied + n, copying := false })

/-- The access leaves the list. -/
def dropReq (s : State) (q : MemReq) : State := { s with reqs := s.reqs.filter fun x => x.id != q.id }

/-- A piece of a hit copy has its bytes: it goes on to its write, an ordinary one (R368). It is not issued in a region that is frozen or
has been freed (R349); a poisoned one faults under PTRAP (R20). -/
def copyOn (s : State) (q : MemReq) (r : RegId) (d : CopyDst) (bs : List Byte) (pois : Bool) : State :=
  match regionAt s r with
  | none => dropReq s q
  | some rg =>
  if rg.frozen.isSome then dropReq s q
  else if pois && rg.ptrap then raiseFault (dropReq s q) r (originFault clsPoison 0x01)
  else
  { s with reqs := s.reqs.map fun x =>
      if x.id = q.id then
        { q with va := d.va, tgt := d.tgt, key := d.key, binding := d.binding, big := d.big, page := d.page, acc := .write bs pois,
                 sent := false, reply := [], status := none }
      else x }

/-! ### The layout record (R326) -/

/-- Writes of bytes from a VA on, each within one line; fuel counts the lines. -/
def lineWrites : Nat → Nat → List Byte → List (Nat × List Byte)
  | 0, _, _ => []
  | f + 1, va, bs =>
    if bs.isEmpty then []
    else
      let k := min bs.length (256 - va % 256)
      (va, bs.take k) :: lineWrites f (vaAdd va k) (bs.drop k)

/-- The record is written whole: LV takes its new value, and the producers that waited go on (R324, R326). -/
def recordDone (s : State) (r : RegId) : State :=
  match regionAt s r with
  | none => s
  | some rg =>
    match rg.lvDue with
    | none => s
    | some lv =>
      let q := seqAt s r.seq
      setSeq (setRegion s { rg with lvDue := none, recWrites := [], links := rg.links.map Link.unheld }) r.seq
        (setSect q r.sect { sectAt q r.sect with lv := lv })

/-- Send the first of these writes of a record and keep the rest for later. Where a place cannot be written, its write is left out (log
148). -/
def recordSend (r : RegId) (s : State) : List (Nat × List Byte) → State
  | [] => recordDone s r
  | (va, bs) :: t =>
    match walk s r.seq.part va true with
    | .error _ => recordSend r s t
    | .ok e =>
      match targetOf r.seq.part e.size e.leaf.toNat va, regionAt s r with
      | .mmio _, _ => recordSend r s t
      | x, some rg => sendReq (setRegion s { rg with recWrites := t }) r.seq.part (.layout r) va e x (.write bs false) (2 ^ 64 - 1)
      | _, none => s

/-- A write of a record has performed, at SYSTEM scope too; the next one begins (R326). -/
def recordNext (s : State) (r : RegId) : State :=
  match regionAt s r with
  | none => s
  | some rg => recordSend r (atScope s 5) rg.recWrites

/-- An element of an SPB has performed. -/
def answerElem (s : State) (q : MemReq) (r : RegId) (o : Offset) (st el : Nat) (bs : List Byte) (pois : Bool) : State :=
  match q.acc with
  | .copy n d => copyTaken s q r o st n d bs pois
  | .read _ =>
    modSlot (dropReq s q) r o st fun y => { y with got := gotVals y.got el (replyVals y bs pois) pois, outst := y.outst - 1 }
  | .write w _ =>
    modSlot (dropReq s q) r o st fun y =>
      match y.spb with
      | .copy _ _ | .hash _ _ => y.pieceDone w.length
      | _ => { y with outst := y.outst - 1 }
  | .amo .. => dropReq s q

/-- The access has performed and leaves the list; who asked gets the answer. A COPY or HASH piece goes on to its write. -/
def answer (s : State) (q : MemReq) (bs : List Byte) (pois : Bool) : State :=
  let done := dropReq s q
  match q.who, q.acc with
  | .elem r o st el _, _ => answerElem s q r o st el bs pois
  | .hitCopy r, .copy _ (some d) => copyOn s q r d bs pois
  | .index r o st key, _ => modSlot done r o st fun y => y.putWord key (if pois then 0 else natOfBytes bs) pois
  | .line r o st, _ =>
    fillPool (modSlot done r o st fun y => { y with outst := y.outst - 1, beats := y.beats + 1 }) r o q bs pois
  | .ahead r o _, _ => fillPool done r o q bs pois
  | .seqLoad c gd signed, _ | .seqAmo c gd signed, _ => loadTo done c gd bs.length signed bs pois
  | .seqLine c, _ => { done with far := done.far ++ [{ who := c, line := q.tgt.line, data := bs, pois := pois }] }
  | .hitCopy r, _ => hitAdvance done r q.acc.size
  | .layout r, _ => recordNext done r
  | .seqStore _, _ | .detached, _ => done

/-- An SPB's access faults where it would perform; a prefetch is dropped (R50). DEDUCED (log 147): so is one that meets KEYREV or
DEADLINE. -/
def refuseSlot (s : State) (r : RegId) (o : Offset) (sl : Slot) (who : Who) (cls sub : Nat) : State :=
  match sl.spb, who with
  | .pref _ _, _ => modSlot s r o sl.stamp fun y => { y with outst := y.outst - 1 }
  | _, .ahead _ _ _ => s
  | _, _ => slotFault s r o sl cls sub

/-- The access is not performed: its SPB, context or region faults. A context keeps an access of its own, which GO sends again
(R283). -/
def refuse (s : State) (q : MemReq) (cls sub : Nat) : State :=
  let done := dropReq s q
  match q.who with
  | .elem r o st _ _ | .index r o st _ | .line r o st | .ahead r o st =>
    match spOf done r o with
    | none => done
    | some (_, sp) => match sp.slotOf st with
      | none => done
      | some sl => refuseSlot done r o sl q.who cls sub
  | .seqLoad c _ _ | .seqAmo c _ _ | .seqStore c =>
    let qs := seqAt done c
    parkSeq (setSeq done c { qs with retry := qs.retry ++ [q] }) c cls sub
  | .seqLine c => parkSeq done c cls sub
  | .hitCopy r => raiseFault done r (originFault cls sub)
  | .layout r => recordNext done r
  | .detached => done

/-- Count a performed access at its SP (R51); a PREF is never counted (R66). The SP of a hit copy: see log 24. -/
def countReq (s : State) (q : MemReq) : State :=
  match q.tgt.tgt q.part with
  | none => s
  | some t =>
    let at_ (r : RegId) (o : Offset) : State :=
      match regionAt s r with
      | none => s
      | some rg => countAccess s q.part (spKey (rg.posOf o)) q.va q.big t
    match q.who with
    | .elem r o _ _ _ | .index r o _ _ | .ahead r o _ => at_ r o
    | .seqLoad .. | .seqStore .. | .seqAmo .. | .seqLine _ => countAccess s q.part (lowKey q.part) q.va q.big t
    | .hitCopy r => match (regionAt s r).bind fun rg => rg.sps.head? with
      | some sp => at_ r sp.off
      | none => s
    | .line .. | .layout .. | .detached => s

/-- An access goes over the memory mesh from the SP that translated it. -/
def onMesh (s : State) (q : MemReq) : Bool :=
  match q.who with
  | .elem r o _ _ _ | .index r o _ _ | .line r o _ | .ahead r o _ => (regionAt s r).all fun rg => crossesMesh (rg.posOf o) q.tgt
  | _ => true

/-- A mesh packet delivered after its deadline adds 1 to LATE, and faults under TRAP (R336). -/
def lateCheck (s : State) (q : MemReq) : State × Bool :=
  if s.cycle.toNat ≤ q.deadline || !onMesh s q then (s, false)
  else
    let p := partAt s q.part
    (setPart s q.part { p with dlLate := p.dlLate + 1 }, p.dlTrap)

/-- The last write of a faulted invocation has ended: it retires (R269, R298), and FRCTL goes on (R359). -/
def wrotePast (s : State) (q : MemReq) : State :=
  match q.who.region with
  | some r => faultedOn s r
  | none => s

/-- Perform an access of the list: `pick` says which accesses the event is about. -/
def performReq (id : Nat) (pick : MemReq → Bool) (s : State) : Host.Outcome State Fault Refusal :=
  match s.reqs.find? fun q => q.id == id with
  | none => .next s
  | some q =>
    if !pick q || !mayPerform s q then .next s
    else
      match q.tgt, q.sent with
      | .remote m d a, false => .next (sendRemote s q m d a)
      | _, _ =>
        match performAt s q with
        | .later => .next s
        | .mmio => .refused .mmioRegister
        | .bad c k => .next (wrotePast (refuse s q c k) q)
        | .ok _ _ _ =>
          let (s1, trap) := lateCheck s q
          if trap then .next (wrotePast (refuse s1 q clsDeadline 0x02) q)
          else
            match performAt s1 q with
            | .ok s2 bs pois => .next (wrotePast (answer (countReq s2 q) q bs pois) q)
            | _ => .next s1

def MemReq.atBank (q : MemReq) : Bool := match q.tgt with | .bank .. => true | _ => false

/-- The access only reads. -/
def MemReq.reads (q : MemReq) : Bool := match q.acc with | .read _ | .copy _ _ => true | _ => false

/-- READ_PERFORM (R267): a read other than one of a bank window takes its value. -/
def execReadPerform (req : Nat) (s : State) : Host.Outcome State Fault Refusal :=
  performReq req (fun q => q.reads && !q.atBank) s

/-- WRITE_PERFORM (R267): a write or atomic other than one of a bank window performs. -/
def execWritePerform (req : Nat) (s : State) : Host.Outcome State Fault Refusal :=
  performReq req (fun q => !q.reads && !q.atBank) s

/-- WINDOW_ACCESS (R114): an access reaches the bank side port of its cell. -/
def execWindowAccess (req : Nat) (s : State) : Host.Outcome State Fault Refusal :=
  performReq req (fun q => q.atBank) s

/-! ### The host's accesses to device memory (R383) -/

/-- A host access is refused: HDMCTL forbids it, the line's die is off, or the slot is not bound. -/
def hdmRefused (s : State) (o : Option Nat) (write : Bool) : Bool :=
  match o with
  | none => true
  | some p =>
    let pt := partAt s p
    !(if write then pt.hdmWrite else pt.hdmRead) || !(partSlot s p).any fun k => k.st == .bound

/-- A refused host access counts (R383). -/
def countHdmRefused (s : State) : State := { s with krvCnt := min (s.krvCnt + 1) (2 ^ 32 - 1) }

/-- What the host reads is answered in hostReads; the Bool is the poison of CXL. -/
def hostAnswer (s : State) (off : Nat) (bs : List Byte) (p : Bool) : State := { s with hostReads := s.hostReads ++ [(off, bs, p)] }

/-- The host gives up its copies of the lines of a range (R267). -/
def hostDrop (s : State) (off n : Nat) : State :=
  { s with hostHeld := s.hostHeld.filter fun x => !decide (off / 256 ≤ x.1 ∧ x.1 ≤ (off + n - 1) / 256) }

/-- An access to device DRAM by CXL.mem, at a host offset (R383, R266): a line that the host holds answers for itself. -/
def hdmAccess (s : State) (off : Nat) (acc : HostAccess) : State :=
  let d := off / (192 * gib)
  let a := off % (192 * gib)
  let o := ownerOfDram s d a
  let key := dramKey d a
  let b := (o.map (partBinding s)).getD 0
  match acc with
  | .read n =>
    if hdmRefused s o false then hostAnswer (countHdmRefused s) off [] true
    else hostAnswer s off (devRead s b key n).1 (devRead s b key n).2
  | .write bs pois => if hdmRefused s o true then countHdmRefused s else devWrite (hostDrop s off bs.length) b key bs pois
  | .load n =>
    match s.hostHeld.find? fun x => x.1 == off / 256 with
    | some (_, bs, p) => hostAnswer s off ((bs.drop (off % 256)).take n) p
    | none =>
      if hdmRefused s o false then hostAnswer (countHdmRefused s) off [] true
      else
        let (bs, p) := devRead s b (key / 256 * 256) 256
        hostAnswer { s with hostHeld := (off / 256, bs, p) :: s.hostHeld } off ((bs.drop (off % 256)).take n) p
  | _ => hostDrop s off 1

/-- A window access of the host (R114). DESIGN CHOICE: no file says where its fault goes; a read is answered as a refused one, a write
is dropped (log 127). -/
def hostBank (s : State) (p : Pos) (byte : Nat) (acc : Access) : State :=
  match performBank s p byte acc, acc with
  | .ok s1 bs x, .read _ => hostAnswer s1 byte bs x
  | .ok s1 _ _, _ => s1
  | _, .read _ => hostAnswer s byte [] true
  | _, _ => s

/-- HOST_MEM_ACCESS (R383, R278, R114): what the host does in device memory, in its own, and through bank windows. -/
def execHostMemAccess (off : Nat) (acc : HostAccess) (s : State) : Host.Outcome State Fault Refusal :=
  match acc with
  | .own bs => .next (devWrite s 0 (hostKey off) bs false)
  | .bankRead p n => .next (hostBank s p off (.read n))
  | .bankWrite p bs => .next (hostBank s p off (.write bs false))
  | _ => if 768 * gib ≤ off then .fault .hdmOutOfRange else .next (hdmAccess s off acc)

end Sys2Proof.Machine
end

