-- ==== Sys2Proof/Machine/Translate.lean ====
section
/-! DEFINITION. Walks that end, page-fault notices, RESUME, and invalidations (R38 to R48); accesses that Flint and the sequencer
make at once through the partition's tables; the window table (R345). -/

namespace Sys2Proof.Machine

/-! ### Accesses made at once: records, images, streams, tables of the host (R281, R300, R345) -/

/-- An access made at once under a translation. -/
def immReq (s : State) (part va : Nat) (e : TlbEntry) (t : Target) (acc : Access) : MemReq :=
  { id := s.reqSeq, part := part, who := .detached, va := va, tgt := t, key := (t.key).getD 0, acc := acc, big := decide (16 < e.size),
    binding := leafBinding s e.leaf.toNat, page := e.page, deadline := 2 ^ 64 - 1 }

/-- Read within one line of a VA. -/
def immReadLine (s : State) (part va n : Nat) : Except Miss (List Byte × Bool) :=
  match walk s part va false with
  | .error m => .error m
  | .ok e =>
    let t := targetOf part e.size e.leaf.toNat va
    match t with
    | .remote .. => .error (.far e t)
    | .mmio _ => .error (.bad clsSeq 0x06)
    | _ => match performAt s (immReq s part va e t (.read n)) with
      | .ok _ bs p => .ok (bs, p)
      | .bad c k => .error (.bad c k)
      | _ => .error (.bad clsSeq 0x06)

/-- Write within one line of a VA. A line of another module is sent on its way (R386). -/
def immWriteLine (s : State) (part va : Nat) (bs : List Byte) (pois : Bool) : Except Miss State :=
  match walk s part va true with
  | .error m => .error m
  | .ok e =>
    let t := targetOf part e.size e.leaf.toNat va
    let q := immReq s part va e t (.write bs pois)
    match t with
    | .remote .. => .ok { s with reqs := s.reqs ++ [q], reqSeq := s.reqSeq + 1 }
    | .mmio _ => .error (.bad clsSeq 0x06)
    | _ => match performAt s q with
      | .ok s1 _ _ => .ok s1
      | .bad c k => .error (.bad c k)
      | _ => .error (.bad clsSeq 0x06)

/-- Read n bytes from a VA, line by line; fuel counts the lines. A failure names the VA of its line. -/
def readFrom (line : Nat → Nat → Except Miss (List Byte × Bool)) : Nat → Nat → Nat → Except (Miss × Nat) (List Byte)
  | 0, _, _ => .ok []
  | f + 1, va, n =>
    if n = 0 then .ok []
    else
      let k := min n (256 - va % 256)
      match line va k with
      | .error m => .error (m, va)
      | .ok (bs, _) =>
        match readFrom line f (vaAdd va k) (n - k) with
        | .error m => .error m
        | .ok t => .ok (bs ++ t)

def immRead (s : State) (part va n : Nat) : Except (Miss × Nat) (List Byte) := readFrom (immReadLine s part) (n / 256 + 2) va n

/-- Read within one line for a context: a line of another module is taken where it has come. -/
def seqReadLine (s : State) (c : SeqId) (va n : Nat) : Except Miss (List Byte × Bool) :=
  match immReadLine s c.part va n with
  | .error (.far e t) =>
    match s.far.find? fun l => l.who == c && l.line == t.line with
    | some l => .ok ((l.data.drop t.off).take n, l.pois)
    | none => .error (.far e t)
  | x => x

/-- Read n bytes for a context (R281, R296, R297, R300). -/
def seqRead (s : State) (c : SeqId) (va n : Nat) : Except (Miss × Nat) (List Byte) := readFrom (seqReadLine s c) (n / 256 + 2) va n

/-- Ask for a line of another module for a context, once (R386). -/
def askFar (s : State) (c : SeqId) (va : Nat) (e : TlbEntry) (t : Target) : State :=
  if s.reqs.any fun q => q.who == .seqLine c && q.tgt.line == t.line then s
  else
    match t with
    | .remote m d a => sendReq s c.part (.seqLine c) (va / 256 * 256) e (.remote m d (a / 256 * 256)) (.read 256) (2 ^ 64 - 1)
    | _ => s

/-- A context is done with the lines that came for it. -/
def dropFar (s : State) (c : SeqId) : State := { s with far := s.far.filter fun l => l.who != c }

/-- Count a context's access to the line of a VA (R51, R293). -/
def countSeq (s : State) (c : SeqId) (va : Nat) : State :=
  match walk s c.part va false with
  | .error _ => s
  | .ok e =>
    match (targetOf c.part e.size e.leaf.toNat va).tgt c.part with
    | none => s
    | some t => countAccess s c.part (lowKey c.part) va (decide (16 < e.size)) t

/-- Count what a context accessed: n bytes from a VA, one count for each line (R51). -/
def countLines (c : SeqId) : Nat → State → Nat → Nat → State
  | 0, s, _, _ => s
  | f + 1, s, va, n =>
    if n = 0 then s
    else
      let k := min n (256 - va % 256)
      countLines c f (countSeq s c va) (vaAdd va k) (n - k)

def countBytes (s : State) (c : SeqId) (va n : Nat) : State := countLines c (n / 256 + 2) s va n

/-- Write bytes to a VA, line by line. -/
def immWriteFrom (part : Nat) : Nat → State → Nat → List Byte → Except (Miss × Nat) State
  | 0, s, _, _ => .ok s
  | f + 1, s, va, bs =>
    if bs.isEmpty then .ok s
    else
      let k := min bs.length (256 - va % 256)
      match immWriteLine s part va (bs.take k) false with
      | .error m => .error (m, va)
      | .ok s1 => immWriteFrom part f s1 (vaAdd va k) (bs.drop k)

def immWrite (s : State) (part va : Nat) (bs : List Byte) : Except (Miss × Nat) State :=
  immWriteFrom part (bs.length / 256 + 2) s va bs

/-- Write, or leave the state when the place cannot be written. -/
def immWriteD (s : State) (part va : Nat) (bs : List Byte) : State :=
  match immWrite s part va bs with
  | .ok s1 => s1
  | .error _ => s

/-- The target of a VA at once. -/
def immTarget (s : State) (part va : Nat) (write : Bool) : Except Miss (TlbEntry × Target) :=
  match walk s part va write with
  | .error m => .error m
  | .ok e => .ok (e, targetOf part e.size e.leaf.toNat va)

/-! ### The window table (R345) -/

/-- An entry of the window table. -/
structure WinEntry where
  ptea : Nat
  wva : Nat
  sect : Nat
  sqc : Nat
  off : Offset
  deriving DecidableEq, Repr, Inhabited

/-- A signed 16-bit field. -/
def signed16 (bs : List Byte) : Int := signedBytes 2 (natOfBytes (bs.take 2))

def winOfBytes (bs : List Byte) : WinEntry :=
  { ptea := natOfBytes (bs.take 8), wva := natOfBytes ((bs.drop 8).take 8), sect := natOfBytes ((bs.drop 16).take 2),
    sqc := natOfBytes ((bs.drop 18).take 1), off := ⟨signed16 (bs.drop 20), signed16 (bs.drop 22)⟩ }

/-- The entries of a partition's table that can be read. -/
def winTable (s : State) (part : Nat) : List WinEntry :=
  let p := partAt s part
  (List.range p.wincnt.toNat).filterMap fun i =>
    match immRead s part (vaAdd p.winbase (32 * i)) 32 with
    | .ok bs => some (winOfBytes bs)
    | .error _ => none

/-- The entries of a section. -/
def winOf (s : State) (r : RegId) : List WinEntry := (winTable s r.seq.part).filter fun w => w.sect == r.sect && w.sqc == r.seq.n

/-- The leaf of a window entry. -/
def readLeaf (s : State) (part ptea : Nat) : Nat := natOfBytes (devRead s (partBinding s part) (dramKey (partDie part) ptea) 8).1

/-- An entry counts for a region: its offset lies in it, and it names a leaf of the partition's; any other is ignored. -/
def WinEntry.counts (s : State) (rg : Region) (w : WinEntry) : Bool :=
  rg.holds w.off && w.ptea % 8 == 0 && ownsLocal s rg.id.seq.part w.ptea 8

/-- log2 of a window's size: an interleaved one is a 2 MiB page (R36). -/
def WinEntry.size (s : State) (part : Nat) (w : WinEntry) : Nat := if leafIlv (readLeaf s part w.ptea) = 1 then 21 else 16

/-- A VA falls in a window of a section that is saved: a RESUME waits for the remap. -/
def winSaved (s : State) (part va : Nat) : Bool :=
  (winTable s part).any fun w =>
    w.wva / 2 ^ w.size s part == va / 2 ^ w.size s part && (sectAt (seqAt s ⟨part, w.sqc⟩) w.sect).saved.any fun rg => w.counts s rg

/-! ### Page faults: notices and RESUME (R46 to R48) -/

/-- Where a waiter stands: its SP's die, index and SPB slot (R47, R293). DESIGN CHOICE (log 145): a hit copy, which has no slot, gives
0xFF as an access of the sequencer does. -/
def waiterPlace (s : State) (part : Nat) (w : Waiter) : Nat × Nat × Nat :=
  match w with
  | .slot r o st =>
    match spOf s r o with
    | some (rg, sp) => (dieOf (rg.posOf o), spIndex (rg.posOf o), sp.slotNo st)
    | none => (partDie part, 0, 0)
  | .seq _ => (partDie part, lowSp part, 0xFF)
  | .ahead r o =>
    match regionAt s r with
    | some rg => (dieOf (rg.posOf o), spIndex (rg.posOf o), 0xFF)
    | none => (partDie part, 0, 0xFF)
  | .hit r =>
    match regionAt s r with
    | some rg =>
      match rg.sps.head? with
      | some sp => (dieOf (rg.posOf sp.off), spIndex (rg.posOf sp.off), 0xFF)
      | none => (partDie part, 0, 0xFF)
    | none => (partDie part, 0, 0xFF)

/-- A waiter takes the page-fault path: it is withheld and a notice is written or pends (R46, R47). -/
def withhold (s : State) (part va cause level : Nat) (w : Waiter) : State :=
  let (die, ix, slot) := waiterPlace s part w
  let s1 := pageFault s part va cause level w slot ix die
  match w with
  | .slot r o st => modSlot s1 r o st fun y => { y with withheld := true, walk := false, wva := va }
  | .seq c => setSeq s1 c { seqAt s1 c with st := .parkwait, park := .pageFault, resumeTo := (seqAt s1 c).parkFrom }
  | .ahead _ _ => s
  | .hit r => match regionAt s1 r with
    | none => s1
    | some rg => setRegion s1 (rg.setPure fun p => { p with withheld := true })

/-- A waiter goes on: it translates again when it issues. -/
def goOn (s : State) (w : Waiter) : State :=
  match w with
  | .slot r o st => modSlot s r o st fun y => { y with withheld := false, walk := false }
  | .seq c =>
    let q := seqAt s c
    if q.park = .pageFault ∨ q.park = .walk then setSeq s c q.restore else s
  | .ahead _ _ => s
  | .hit r => match regionAt s r with
    | none => s
    | some rg => setRegion s (rg.setPure fun p => { p with withheld := false })

/-- The tests of the rebalancer start again (R325). -/
def NodeLayout.restart (l : NodeLayout) : NodeLayout := { l with runBottle := 0, runOver := 0, runIdle := 0, want := 0, skip := false }

/-- A region that waits in place for RESUME goes on (R342); the tests start again (R325). -/
def leavePlace (s : State) (w : Waiter) : State :=
  match w with
  | .slot r _ _ | .hit r => match regionAt s r with
    | none => s
    | some rg => if rg.cut.any fun c => c.inPlace then setRegion s { rg with cut := none, layouts := rg.layouts.map NodeLayout.restart } else s
  | _ => s

/-- RESUME (R48): the host names a notice; its element is translated again. A window of a saved section waits (R345). -/
def execResume (part : Nat) (nseq : BitVec 32) (s : State) : Host.Outcome State Fault Refusal :=
  let s0 := setPart s part { partAt s part with resume := nseq }
  let p := partAt s0 part
  match p.notices.find? fun n => n.nseq == nseq with
  | none => .next s0
  | some n =>
    if winSaved s0 part n.fva then
      .next (setPart s0 part { p with notices := p.notices.map fun x => if x.nseq == nseq then { x with resumed := true } else x })
    else
      let s1 := setPart s0 part { p with notices := p.notices.filter fun x => x.nseq != nseq }
      .next (leavePlace (goOn s1 n.waiter) n.waiter)

/-- FAULT_NOTICE_PENDING_WRITE (R47): the oldest notice that waits for room is written. -/
def execFaultNoticePendingWrite (part : Nat) (s : State) : Host.Outcome State Fault Refusal :=
  match (partAt s part).notices.find? fun n => !n.written with
  | none => .next s
  | some n => .next ((deliverNotice s part n).getD s)

/-! ### Walks (R39, R43, R44) -/

/-- The walk gave no translation for a waiter. -/
def waiterMiss (s : State) (part va : Nat) (m : Miss) (w : Waiter) : State :=
  let s1 := goOn s w
  match w with
  | .slot r o st =>
    match spOf s1 r o with
    | none => s1
    | some (_, sp) =>
      match sp.slotOf st with
      | none => s1
      | some sl =>
        match sl.spb, m with
        | .pref _ _, _ => modSlot s1 r o st fun y => { y with row := y.row + 1 }
        | _, .page cause level => withhold s1 part va cause level w
        | _, .bad c k => slotFault s1 r o sl c k
        | _, .far _ _ => s1
  | .seq c =>
    match m with
    | .page cause level => withhold s1 part va cause level w
    | .bad cls k => parkSeq s1 c cls k
    | .far _ _ => s1
  | .hit r =>
    match m with
    | .page cause level => withhold s1 part va cause level w
    | .bad c k => raiseFault s1 r (originFault c k)
    | .far _ _ => s1
  | .ahead _ _ => s1

/-- The key of a waiter's SP, whose L1 TLB the walk fills. -/
def waiterKey (s : State) (part : Nat) (w : Waiter) : Nat := 56 * (waiterPlace s part w).1 + (waiterPlace s part w).2.1

/-- The walk has its result for one of its requesters, at its own VA and for its own kind of access: the TLBs behind its SP take
the entry and it goes on, or it takes what the walk met (R38, R39, R46). -/
def walkResult (s : State) (part : Nat) (j : Join) : State :=
  match walk s part j.va j.write with
  | .ok e => goOn (fillTlbs s part (waiterKey s part j.who) e) j.who
  | .error m => waiterMiss s part j.va m j.who

/-- WALK_COMPLETE (R39, R40): a walk that has a slot of the walker reads its tables; its waiters go on, or take what it met, and its
slot goes to the next that asks. A walk that an invalidation marked discards its result and walks again (R43). -/
def execWalkComplete (id : Nat) (s : State) : Host.Outcome State Fault Refusal :=
  match s.walks.find? fun w => w.id == id with
  | none => .next s
  | some w =>
    if !w.started then .next s
    else if w.again then .next { s with walks := s.walks.map fun x => if x.id = id then { x with again := false } else x }
    else
      let s1 := { s with walks := s.walks.filter fun x => x.id != id }
      .next (w.waiters.foldl (fun t j => walkResult t w.part j) (grantWalk s1 (partDie w.part)))

/-! ### Invalidations (R43, R44) -/

/-- A page meets the range of an invalidation; a count of 0 means the whole space. -/
def pageMeets (base cnt : Nat) (e : PageRef) : Bool :=
  cnt == 0 || (decide (e.base < base + cnt * 2 ^ 16) && decide (base < e.base + 2 ^ e.size))

/-- A request was translated through a page of the range, at its own side or at the destination of a copy (R43). -/
def reqMeets (base cnt : Nat) (q : MemReq) : Bool :=
  pageMeets base cnt q.page || (match q.acc with | .copy _ (some d) => pageMeets base cnt d.page | _ => false)

/-- A walk is for a page of the range. -/
def walkMeets (s : State) (base cnt : Nat) (w : Walk) : Bool :=
  pageMeets base cnt (walkPage s w) || w.waiters.any fun j => pageMeets base cnt ⟨j.va / 2 ^ 16 * 2 ^ 16, 16⟩

/-- The filter bits of the granules of a LOCAL page. -/
def pageBits (a size : Nat) : List Nat :=
  if 22 ≤ size then List.range 64 else (List.range (2 ^ (size - 16))).map fun i => filterBit (a + i * 2 ^ 16)

/-- Agate's entries that match a granule of a LOCAL page go (R370). -/
def dropReuse (s : State) (part frame size : Nat) : State :=
  let p := partAt s part
  let bits := pageBits frame size
  let gone := p.entries.filter fun x => bits.any fun b => x.filter.getLsbD b
  setPart s part { p with entries := p.entries.filter fun x => !bits.any fun b => x.filter.getLsbD b,
                          agInval := p.agInval + BitVec.ofNat 32 gone.length }

/-- Some entry of Agate names a granule of a LOCAL page: RS was set in its leaf (R369). -/
def pageNamed (p : Part) (frame size : Nat) : Bool :=
  p.entries.any fun x => x.granules.any fun g => decide (frame / 2 ^ 16 ≤ g) && decide (g < frame / 2 ^ 16 + 2 ^ (size - 16))

/-- The LOCAL pages of a range of VAs whose RS the host has cleared, or whose leaf with RS a TLB gives up (R370, log 25): frame and log2 of
the size. -/
def reusePages (s : State) (part base cnt : Nat) (gone : List TlbEntry) : List (Nat × Nat) :=
  let p := partAt s part
  let cleared := (partLeaves s part (if cnt = 0 then 0 else vaIndex base) (if cnt = 0 then 2 ^ 57 else cnt * 2 ^ 16)).filter fun x =>
    !leafRs x.2.2 && leafTgt x.2.2 == 0 && pageNamed p (leafFrame x.2.2) x.2.1
  (cleared.map fun x => (leafFrame x.2.2, x.2.1)) ++
    (gone.filter fun e => leafRs e.leaf.toNat && leafTgt e.leaf.toNat == 0).map fun e => (leafFrame e.leaf.toNat, e.size)

/-- Steps 1 to 4 of R43 for a range of VAs: matching TLB entries and staged lines go, matching walks walk again, and the
accesses that the TDR markers stand behind are noted. -/
def invalidate (s : State) (part base cnt : Nat) : State :=
  let p := partAt s part
  let hit (e : TlbEntry) : Bool := pageMeets base cnt e.page
  let gone := p.llTlb.filter hit ++ ((p.l1Tlb.map fun x => x.2.filter hit).flatten.filter fun e => !p.llTlb.contains e)
  let s1 := pruneWatch ((reusePages s part base cnt gone).foldl (fun t x => dropReuse t part x.1 x.2) s) part
  let keeps (l : PoolLine) : Bool := !pageMeets base cnt l.page
  let p1 := partAt s1 part
  let s2 := setPart s1 part
    { p1 with llTlb := p1.llTlb.filter fun e => !hit e,
              l1Tlb := p1.l1Tlb.map fun x => (x.1, x.2.filter fun e => !hit e),
              invWait := p1.invWait ++ ((s.reqs.filter fun q => q.part == part && reqMeets base cnt q).map fun q => q.id) }
  { s2 with
    walks := s2.walks.map fun w => if w.part == part && walkMeets s2 base cnt w then { w with again := true } else w,
    regions := s2.regions.map fun rg =>
      if rg.id.seq.part = part then
        { rg with sps := rg.sps.map fun x => { x with pool := x.pool.filter keeps } }
      else rg,
    pools := s2.pools.map fun x => if x.1 / 2 ^ 20 = part then (x.1, x.2.filter keeps) else x }

/-- INVALIDATION_START (R43): GO is written to INVCTL; ignored while BUSY. -/
def execInvalidationStart (part : Nat) (s : State) : Host.Outcome State Fault Refusal :=
  let p := partAt s part
  if p.invBusy then .next s
  else
    .next (invalidate (setPart s part { p with invBusy := true, invWait := [] }) part p.invAddr p.invCnt.toNat)

/-- INVALIDATION_COMPLETE (R43, R44): every TDR has reached the memory edge; withheld elements translate again. -/
def execInvalidationComplete (part : Nat) (s : State) : Host.Outcome State Fault Refusal :=
  let p := partAt s part
  if !p.invBusy || s.reqs.any (fun q => p.invWait.contains q.id) then .next s
  else
    let back := p.notices.filter fun n => !winSaved s part n.fva
    let s1 := setPart s part { p with invBusy := false, invDone := p.invDone + 1, invWait := [],
                                      notices := p.notices.filter fun n => winSaved s part n.fva }
    .next (back.foldl (fun t n => leavePlace (goOn t n.waiter) n.waiter) s1)

end Sys2Proof.Machine
end

