-- ==== Sys2Proof/Machine/Sequencer.lean ====
section
/-! DEFINITION. Sequencer instructions (14_sequencer.md): arithmetic (R292), memory (R293, R294), control flow (R295), special
registers, FENCE, TRAP, TAIL, LAUNCH, WAITM (R302 to R307). -/

namespace Sys2Proof.Machine

/-! ### Issuing an instruction (R288) -/

/-- A register that a load still owes. -/
def Seq.owes (q : Seq) (r : BitVec 5) : Bool := q.owed.getLsbD r.toNat

/-- The context is in RUN, or parked by the very instruction at its PC. -/
def Seq.open (q : Seq) : Bool :=
  match q.park with
  | .nothing => q.st == .run
  | .waits _ _ | .cfgs _ _ | .waitm _ _ => q.st == .parkwait
  | _ => false

/-- It may run an instruction that names these registers: none of them is still owed, and no access of an earlier instruction has
been refused. -/
def Seq.ready (q : Seq) (regs : List (BitVec 5)) : Bool := q.open && q.retry.isEmpty && !regs.any q.owes

/-- The context as an instruction issues. -/
def Seq.issue (q : Seq) (now : Nat) : Seq := { q with st := .run, park := .nothing, lastIssue := now, raised := false }

/-- The translation of an access needs the W of its leaf. -/
def Access.needsW : Access → Bool
  | .read _ => false
  | _ => true

/-- Send the first refused access of a context again: it is translated anew (R283). -/
def resend (s : State) (c : SeqId) (m : MemReq) : State :=
  let q := seqAt s c
  match tlbLookup s c.part (lowKey c.part) m.va m.acc.needsW with
  | some (s1, e) =>
    match targetFault s1 c.part e.size e.leaf.toNat m.va with
    | some (cls, k) => parkSeq s1 c cls k
    | none =>
      setSeq (sendReq s1 c.part m.who m.va e (targetOf c.part e.size e.leaf.toNat m.va) m.acc m.deadline) c { q with retry := q.retry.drop 1 }
  | none => setSeq (startWalk s c.part (lowKey c.part) m.va m.acc.needsW (.seq c)) c { q with park := .walk, resumeTo := q.parkFrom }

/-- Run an instruction of the context that acts, when it is ready. After GO, an access that was refused goes first. -/
def seqRun (s : State) (regs : List (BitVec 5)) (k : SeqId → Seq → State) : Host.Outcome State Fault Refusal :=
  match s.actor with
  | .seq c =>
    if (seqAt s c).ready regs then .next (k c ((seqAt s c).issue s.cycle.toNat))
    else
      match (seqAt s c).retry with
      | m :: _ => .next (if (seqAt s c).open then resend s c m else s)
      | [] => .next s
  | _ => .next s

/-- The next instruction. -/
def Seq.advance (q : Seq) : Seq := { q with pc := q.pc + 1 }

/-- Write a register and go on. -/
def seqPut (s : State) (c : SeqId) (q : Seq) (d : BitVec 5) (v : DWord) : State := setSeq s c (setGreg q d v).advance

/-! ### Arithmetic (R292) -/

/-- gd := f g[ga] g[gb]. -/
def aluRR (d a b : BitVec 5) (f : DWord → DWord → DWord) (s : State) : Host.Outcome State Fault Refusal :=
  seqRun s [d, a, b] fun c q => seqPut s c q d (f (greg q a) (greg q b))

/-- gd := f g[ga] i, with i sign-extended. -/
def aluRI (d a : BitVec 5) (i : BitVec 16) (f : DWord → DWord → DWord) (s : State) : Host.Outcome State Fault Refusal :=
  seqRun s [d, a] fun c q => seqPut s c q d (f (greg q a) (i.signExtend 64))

/-- gd := g[ga] shifted by an immediate. -/
def aluSh (d a : BitVec 5) (i : BitVec 6) (f : DWord → Nat → DWord) (s : State) : Host.Outcome State Fault Refusal :=
  seqRun s [d, a] fun c q => seqPut s c q d (f (greg q a) i.toNat)

/-- The shift amount in a register: its low 6 bits. -/
def shAmount (b : DWord) : Nat := b.toNat % 64

/-- The high 64 bits of the signed product. -/
def mulHigh (a b : DWord) : DWord := BitVec.ofInt 64 (a.toInt * b.toInt / 2 ^ 64)

/-- Signed division, truncated; by 0 all ones. -/
def divS (a b : DWord) : DWord := if b = 0 then BitVec.allOnes 64 else a.sdiv b

/-- Signed remainder with the sign of a; by 0 the dividend. -/
def remS (a b : DWord) : DWord := if b = 0 then a else a.srem b

def execAdd (d a b : BitVec 5) (s : State) : Host.Outcome State Fault Refusal := aluRR d a b (· + ·) s
def execSub (d a b : BitVec 5) (s : State) : Host.Outcome State Fault Refusal := aluRR d a b (· - ·) s
def execMul (d a b : BitVec 5) (s : State) : Host.Outcome State Fault Refusal := aluRR d a b (· * ·) s
def execMulh (d a b : BitVec 5) (s : State) : Host.Outcome State Fault Refusal := aluRR d a b mulHigh s
def execDiv (d a b : BitVec 5) (s : State) : Host.Outcome State Fault Refusal := aluRR d a b divS s
def execRem (d a b : BitVec 5) (s : State) : Host.Outcome State Fault Refusal := aluRR d a b remS s
def execSeqAnd (d a b : BitVec 5) (s : State) : Host.Outcome State Fault Refusal := aluRR d a b (· &&& ·) s
def execSeqOr (d a b : BitVec 5) (s : State) : Host.Outcome State Fault Refusal := aluRR d a b (· ||| ·) s
def execSeqXor (d a b : BitVec 5) (s : State) : Host.Outcome State Fault Refusal := aluRR d a b (· ^^^ ·) s
def execSeqShl (d a b : BitVec 5) (s : State) : Host.Outcome State Fault Refusal := aluRR d a b (fun x y => x <<< shAmount y) s
def execSeqShr (d a b : BitVec 5) (s : State) : Host.Outcome State Fault Refusal := aluRR d a b (fun x y => x >>> shAmount y) s
def execSeqSar (d a b : BitVec 5) (s : State) : Host.Outcome State Fault Refusal := aluRR d a b (fun x y => x.sshiftRight (shAmount y)) s
def execSlt (d a b : BitVec 5) (s : State) : Host.Outcome State Fault Refusal := aluRR d a b (fun x y => if x.slt y then 1 else 0) s
def execSltn (d a b : BitVec 5) (s : State) : Host.Outcome State Fault Refusal := aluRR d a b (fun x y => if x < y then 1 else 0) s
def execAddi (d a : BitVec 5) (i : BitVec 16) (s : State) : Host.Outcome State Fault Refusal := aluRI d a i (· + ·) s
def execAndi (d a : BitVec 5) (i : BitVec 16) (s : State) : Host.Outcome State Fault Refusal := aluRI d a i (· &&& ·) s
def execOri (d a : BitVec 5) (i : BitVec 16) (s : State) : Host.Outcome State Fault Refusal := aluRI d a i (· ||| ·) s
def execXori (d a : BitVec 5) (i : BitVec 16) (s : State) : Host.Outcome State Fault Refusal := aluRI d a i (· ^^^ ·) s
def execShli (d a : BitVec 5) (i : BitVec 6) (s : State) : Host.Outcome State Fault Refusal := aluSh d a i (fun x n => x <<< n) s
def execShri (d a : BitVec 5) (i : BitVec 6) (s : State) : Host.Outcome State Fault Refusal := aluSh d a i (fun x n => x >>> n) s
def execSari (d a : BitVec 5) (i : BitVec 6) (s : State) : Host.Outcome State Fault Refusal := aluSh d a i (fun x n => x.sshiftRight n) s
def execLih (d a : BitVec 5) (i : BitVec 16) (s : State) : Host.Outcome State Fault Refusal := aluRI d a i (fun x y => x + y <<< 16) s

/-! ### Control flow (R295) -/

/-- PC := PC + off. -/
def Seq.jump (q : Seq) (off : Int) : Seq := { q with pc := (((q.pc : Int) + off) % (2 ^ 64 : Int)).toNat }

/-- A conditional branch. -/
def branch (a b : BitVec 5) (o : BitVec 16) (f : DWord → DWord → Bool) (s : State) : Host.Outcome State Fault Refusal :=
  seqRun s [a, b] fun c q => setSeq s c (if f (greg q a) (greg q b) then q.jump o.toInt else q.advance)

def execBeq (a b : BitVec 5) (o : BitVec 16) (s : State) : Host.Outcome State Fault Refusal := branch a b o (· == ·) s
def execBne (a b : BitVec 5) (o : BitVec 16) (s : State) : Host.Outcome State Fault Refusal := branch a b o (· != ·) s
def execBlt (a b : BitVec 5) (o : BitVec 16) (s : State) : Host.Outcome State Fault Refusal := branch a b o (fun x y => x.slt y) s
def execBge (a b : BitVec 5) (o : BitVec 16) (s : State) : Host.Outcome State Fault Refusal := branch a b o (fun x y => !x.slt y) s

/-- LOOP: the counter falls by one, wrapping; g0 stays zero. -/
def execLoop (a : BitVec 5) (o : BitVec 16) (s : State) : Host.Outcome State Fault Refusal :=
  seqRun s [a] fun c q =>
    let v := greg q a - 1
    let q1 := setGreg q a v
    setSeq s c (if v ≠ 0 then q1.jump o.toInt else q1.advance)

def execJmp (o : BitVec 26) (s : State) : Host.Outcome State Fault Refusal :=
  seqRun s [] fun c q => setSeq s c (q.jump o.toInt)

def execJal (o : BitVec 26) (s : State) : Host.Outcome State Fault Refusal :=
  seqRun s [31] fun c q => setSeq s c ((setGreg q 31 (BitVec.ofNat 64 (q.pc + 1))).jump o.toInt)

def execJr (a : BitVec 5) (s : State) : Host.Outcome State Fault Refusal :=
  seqRun s [a] fun c q => setSeq s c { q with pc := (greg q a).toNat }

/-! ### Memory (R293, R294) -/

/-- Accesses of a context that have not performed. -/
def seqReqs (s : State) (c : SeqId) : List MemReq :=
  s.reqs.filter fun q => match q.who with | .seqLoad c1 _ _ | .seqStore c1 | .seqAmo c1 _ _ => c1 == c | _ => false

/-- Stores and SAMO of a context that have not performed: a release waits for them. -/
def seqWrites (s : State) (c : SeqId) : Bool := (seqReqs s c).any fun q => !q.reads

/-- Targets that SAMO reaches. -/
def amoTarget : Target → Bool
  | .dram .. | .host _ | .remote .. | .bank .. => true
  | _ => false

/-- Send one access of a context: alignment, translation at the partition's lowest-indexed SP, then on its way. -/
def seqAccess (s : State) (c : SeqId) (q : Seq) (va n : Nat) (who : Who) (acc : Access) (owe : BitVec 5) : State :=
  let write := acc.needsW
  if va % n ≠ 0 then parkSeq (setSeq s c q) c clsSeq 0x02
  else if !vaCanonical va then parkSeq (setSeq s c q) c clsXlate 0x01
  else
    match tlbLookup s c.part (lowKey c.part) va write with
    | some (s1, e) =>
      let t := targetOf c.part e.size e.leaf.toNat va
      match targetFault s1 c.part e.size e.leaf.toNat va with
      | some (cls, k) => parkSeq (setSeq s1 c q) c cls k
      | none =>
        if acc.isAmo && !amoTarget t then parkSeq (setSeq s1 c q) c clsSeq 0x06
        else
          let q1 := if owe = 0 then q else { q with owed := q.owed ||| ((1 : BitVec 32) <<< owe.toNat) }
          setSeq (sendReq s1 c.part who va e t acc (2 ^ 64 - 1)) c q1.advance
    | none => setSeq (startWalk s c.part (lowKey c.part) va write (.seq c)) c { q with park := .walk, resumeTo := .nothing }

/-- The address of a load or store. -/
def seqAddr (q : Seq) (a : BitVec 5) (i : BitVec 16) : Nat := (greg q a + i.signExtend 64).toNat

/-- A load of n bytes. -/
def seqLoadN (n : Nat) (signed : Bool) (d a : BitVec 5) (i : BitVec 16) (s : State) : Host.Outcome State Fault Refusal :=
  seqRun s [d, a] fun c q => seqAccess s c q (seqAddr q a i) n (.seqLoad c d.toNat signed) (.read n) d

/-- A store of the low n bytes of gd. -/
def seqStoreN (n : Nat) (d a : BitVec 5) (i : BitVec 16) (s : State) : Host.Outcome State Fault Refusal :=
  seqRun s [d, a] fun c q => seqAccess s c q (seqAddr q a i) n (.seqStore c) (.write (bytesOfNat n (greg q d).toNat) false) 0

def execSeqLd (d a : BitVec 5) (i : BitVec 16) (s : State) : Host.Outcome State Fault Refusal := seqLoadN 8 false d a i s
def execLdw (d a : BitVec 5) (i : BitVec 16) (s : State) : Host.Outcome State Fault Refusal := seqLoadN 4 true d a i s
def execSeqSt (d a : BitVec 5) (i : BitVec 16) (s : State) : Host.Outcome State Fault Refusal := seqStoreN 8 d a i s
def execStw (d a : BitVec 5) (i : BitVec 16) (s : State) : Host.Outcome State Fault Refusal := seqStoreN 4 d a i s

/-- SAMO: the word at g[ga] becomes old op g[gb]; CAS compares with gd (R293). -/
def samo (op : Nat) (d a b : BitVec 5) (w : Bool) (s : State) : Host.Outcome State Fault Refusal :=
  let n := if w then 4 else 8
  seqRun s [d, a, b] fun c q =>
    seqAccess s c q (greg q a).toNat n (.seqAmo c d.toNat w)
      (.amo op n ((greg q b).toNat % 2 ^ (8 * n)) ((greg q d).toNat % 2 ^ (8 * n))) d

def execSamoAdd (d a b : BitVec 5) (w : Bool) (s : State) : Host.Outcome State Fault Refusal := samo 0 d a b w s
def execSamoSwap (d a b : BitVec 5) (w : Bool) (s : State) : Host.Outcome State Fault Refusal := samo 1 d a b w s
def execSamoCas (d a b : BitVec 5) (w : Bool) (s : State) : Host.Outcome State Fault Refusal := samo 2 d a b w s
def execSamoAnd (d a b : BitVec 5) (w : Bool) (s : State) : Host.Outcome State Fault Refusal := samo 3 d a b w s
def execSamoOr (d a b : BitVec 5) (w : Bool) (s : State) : Host.Outcome State Fault Refusal := samo 4 d a b w s
def execSamoXor (d a b : BitVec 5) (w : Bool) (s : State) : Host.Outcome State Fault Refusal := samo 5 d a b w s
def execSamoMin (d a b : BitVec 5) (w : Bool) (s : State) : Host.Outcome State Fault Refusal := samo 6 d a b w s
def execSamoMax (d a b : BitVec 5) (w : Bool) (s : State) : Host.Outcome State Fault Refusal := samo 7 d a b w s
def execSamoMinu (d a b : BitVec 5) (w : Bool) (s : State) : Host.Outcome State Fault Refusal := samo 8 d a b w s
def execSamoMaxu (d a b : BitVec 5) (w : Bool) (s : State) : Host.Outcome State Fault Refusal := samo 9 d a b w s

/-! ### Special registers, FENCE, TRAP, NOP (R305 to R307) -/

/-- A status as the word of R298. -/
def statusWord (st : Status) : Nat := st.code % 256 + st.cls % 256 * 2 ^ 8 + st.sub % 65536 * 2 ^ 16

/-- A special register (Table 14-4). -/
def specialReg (s : State) (c : SeqId) (q : Seq) (k r : Nat) : Nat :=
  let x := sectAt q k
  match r with
  | 0x00 => s.cycle.toNat
  | 0x01 => c.n + partDie c.part * 2 ^ 6 + c.part * 2 ^ 8
  | 0x02 => q.prio
  | 0x03 => q.deadline
  | 0x04 => q.sqrec
  | 0x10 => x.lv
  | 0x11 => x.cpc
  | 0x12 => x.mode.toNat
  | 0x13 => statusWord x.sstat
  | 0x14 => x.armq.length % 8 + (if x.armed then 8 else 0)
  | _ => 0

def execSrd (d : BitVec 5) (k r : BitVec 8) (s : State) : Host.Outcome State Fault Refusal :=
  seqRun s [d] fun c q => seqPut s c q d (BitVec.ofNat 64 (specialReg s c q k.toNat r.toNat))

def execSwr (a : BitVec 5) (_k r : BitVec 8) (s : State) : Host.Outcome State Fault Refusal :=
  seqRun s [a] fun c q =>
    let v := (greg q a).toNat
    setSeq s c (if r = 0x02 then { q with prio := v % 4 } else if r = 0x03 then { q with deadline := v } else q).advance

/-- FENCE.S: every earlier access of the context has performed (R294, R306). -/
def execSeqFence (scope : BitVec 3) (s : State) : Host.Outcome State Fault Refusal :=
  seqRun s [] fun c q => if (seqReqs s c).isEmpty then setSeq (atScope s scope.toNat) c q.advance else s

/-- TRAP: SWTRAP with the code; GO continues behind it (R307). -/
def execSeqTrap (code : BitVec 8) (s : State) : Host.Outcome State Fault Refusal :=
  seqRun s [] fun c q => parkSeq (setSeq s c q.advance) c clsSwtrap code.toNat

def execSeqNop (s : State) : Host.Outcome State Fault Refusal :=
  seqRun s [] fun c q => setSeq s c q.advance

/-! ### Link words, WAITM, TAIL, LAUNCH (R280, R302 to R304) -/

/-- The failure of an access made at once: a page fault withholds the context, a line of another module is asked for, anything else
parks the context. -/
def seqMiss (s : State) (c : SeqId) (m : Miss × Nat) : State :=
  match m.1 with
  | .page cause level => withhold s c.part m.2 cause level (.seq c)
  | .bad cls k => parkSeq s c cls k
  | .far e t => askFar s c m.2 e t

/-- The next record's VA of a link word. -/
def linkNext (w : Nat) : Nat := bitsOf w 6 51 * 64 + (if w.testBit 56 then 2 ^ 64 - 2 ^ 57 else 0)

def linkFull (w : Nat) : Bool := w.testBit 63

/-- A link word that names a record, with FULL. -/
def linkTo (va : Nat) : Nat := 2 ^ 63 + bitsOf va 6 51 * 64

/-- Read an 8-byte link or wait word: LOCAL, PEER or HOST only (R282, R302). -/
def readLink (s : State) (c : SeqId) (va : Nat) : Except (Miss × Nat) Nat :=
  match immTarget s c.part va false with
  | .error m => .error (m, va)
  | .ok (_, t) =>
    match t with
    | .dram .. | .host _ =>
      match immRead s c.part va 8 with
      | .error m => .error m
      | .ok bs => .ok (natOfBytes bs)
    | _ => .error (.bad clsSeq 0x06, va)

/-- WAITM: bit 63 of the word at g[ga] set, gd takes the word; else the context stays parked (R302). Each read is counted (R51). -/
def waitmTry (s : State) (c : SeqId) (q : Seq) (d : BitVec 5) (va : Nat) : State :=
  if va % 8 ≠ 0 then parkSeq (setSeq s c q) c clsSeq 0x02
  else
    match readLink s c va with
    | .error m => seqMiss (setSeq s c q) c m
    | .ok w =>
      let t := countSeq s c va
      if linkFull w then seqPut t c (q.after t c) d (BitVec.ofNat 64 w)
      else setSeq t c { q.after t c with st := .parkwait, park := .waitm d.toNat va }

def execWaitm (d a : BitVec 5) (s : State) : Host.Outcome State Fault Refusal :=
  seqRun s [d, a] fun c q => waitmTry s c q d (greg q a).toNat

/-- WAITM_WAKE (R302): the word is read again after a write to its line. -/
def execWaitmWake (c : SeqId) (s : State) : Host.Outcome State Fault Refusal :=
  let q := seqAt s c
  match q.park with
  | .waitm d va => .next (waitmTry s c { q with st := .run, park := .nothing } (BitVec.ofNat 5 d) va)
  | _ => .next s

/-- Run a chain of accesses made at once; a failure takes effect on the state before them. -/
def seqTry (s : State) (c : SeqId) (x : Except (Miss × Nat) State) : State :=
  match x with
  | .ok s1 => s1
  | .error m => seqMiss s c m

/-- The accesses of TAIL (R303): CTL takes PRIO, the record's LINK takes that of TP, and TP's LINK names the record. -/
def tailWrites (s : State) (c : SeqId) (q : Seq) (rec : Nat) : Except (Miss × Nat) State := do
  let ctl ← seqRead s c (vaAdd rec 18) 1
  let s1 ← immWrite s c.part (vaAdd rec 18) [BitVec.ofNat 8 (natOfBytes ctl / 4 * 4 + q.prio % 4)]
  let v ← readLink s1 c q.tp
  let s2 ← immWrite s1 c.part rec (bytesOfNat 8 v)
  immWrite s2 c.part q.tp (bytesOfNat 8 (linkTo rec))

/-- TAIL (R303), behind a release at SYSTEM (R294). The record is noted: its ARMs take the age of its parent's start (R334). -/
def execTail (a : BitVec 5) (s : State) : Host.Outcome State Fault Refusal :=
  seqRun s [a] fun c q =>
    let rec_ := (greg q a).toNat
    if rec_ % 64 ≠ 0 then parkSeq (setSeq s c q) c clsSeq 0x05
    else if seqWrites s c then s
    else
      let s0 := atScope (setSeq s c q) 5
      match tailWrites s0 c q rec_ with
      | .error m => seqMiss s0 c m
      | .ok s1 =>
        let s2 := dropFar ([rec_, rec_, q.tp, rec_, q.tp].foldl (fun t va => countSeq t c va) s1) c
        setSeq s2 c { (seqAt s2 c) with
          tp := rec_, pc := q.pc + 1, spliced := aset q.spliced rec_ (q.startAge.getD q.recStart) }

/-- The record at the end of a graph, found by following links from one; fuel bounds the links. -/
def graphEnd (s : State) (c : SeqId) : Nat → Nat → Except (Miss × Nat) (Option Nat)
  | 0, _ => .ok none
  | n + 1, va =>
    match readLink s c va with
    | .error m => .error m
    | .ok w => if linkFull w then graphEnd s c n (linkNext w) else .ok (some va)

/-- The links that graphEnd reads, each counted (R51). -/
def countLinks (s : State) (c : SeqId) : Nat → State → Nat → State
  | 0, t, _ => t
  | n + 1, t, va =>
    match readLink s c va with
    | .error _ => t
    | .ok w => if linkFull w then countLinks s c n (countSeq t c va) (linkNext w) else countSeq t c va

/-- LAUNCH (R304): it follows the links and writes one behind a release at SYSTEM (R294). -/
def execLaunch (a b : BitVec 5) (s : State) : Host.Outcome State Fault Refusal :=
  seqRun s [a, b] fun c q =>
    let new := (greg q a).toNat
    let at_ := (greg q b).toNat
    let s0 := setSeq s c q
    if new % 64 ≠ 0 ∨ at_ % 64 ≠ 0 then parkSeq s0 c clsSeq 0x05
    else if seqWrites s c then s
    else
      match readLink s0 c new with
      | .error m => seqMiss s0 c m
      | .ok w =>
        if linkFull w then parkSeq s0 c clsSeq 0x05
        else
          let t := atScope s0 5
          match graphEnd t c 65536 at_ with
          | .error m => seqMiss t c m
          | .ok none => parkSeq t c clsSeq 0x08
          | .ok (some e) =>
            match immWrite t c.part e (bytesOfNat 8 (linkTo new)) with
            | .error m => seqMiss t c m
            | .ok s1 =>
              let s2 := countSeq (countLinks t c 65536 (countSeq s1 c new) at_) c e
              setSeq s2 c (q.after s2 c).advance

end Sys2Proof.Machine
end

