-- ==== Sys2Proof/WellFormed.lean ====
section
/-! DEFINITION. Well-formed instructions: what the encoding tables leave to a check beyond the width of a field. -/

namespace Sys2Proof

/-- A special register number that Table 14-4 assigns, with its section rule (R289). -/
def sregReadable (s r : Nat) : Bool :=
  (r ≤ 0x04 && s == 0) || (0x10 ≤ r && r ≤ 0x14)

/-- A special register that SWR may write (R289). -/
def sregWritable (s r : Nat) : Bool := s == 0 && (r == 0x02 || r == 0x03)

/-- R290, R145, R58: F26, F92 and F93 are words of their own rows, WR of LIN is the constructor, a fence names a scope
of Table 13-1, and SRD and SWR name a register of Table 14-4. -/
def Instr.wf : Instr → Bool
  | .write f _ => f != 26 && f != 92 && f != 93
  | .linRead h _ => !h.wr
  | .linWrite h _ => h.wr
  | .seqFence s => s.toNat ≤ 5
  | .srd _ s r => sregReadable s.toNat r.toNat
  | .swr _ s r => sregWritable s.toNat r.toNat
  | .setc _ _ => true
  | .movc _ _ => true
  | .autox _ _ => true
  | .rect _ _ => true
  | .vers _ _ => true
  | .ends _ => true
  | .hard _ _ => true
  | .localRegisterCommit _ => true
  | .bankInitCommit _ => true
  | .tilePreload _ => true
  | .iadd _ => true
  | .isub _ => true
  | .imul _ => true
  | .imulh _ => true
  | .imad _ => true
  | .ineg _ => true
  | .iabs _ => true
  | .imin _ => true
  | .imax _ => true
  | .icmp _ => true
  | .and _ => true
  | .or _ => true
  | .xor _ => true
  | .andn _ => true
  | .not _ => true
  | .shl _ => true
  | .shr _ => true
  | .sar _ => true
  | .rotl _ => true
  | .clz _ => true
  | .popc _ => true
  | .sel _ => true
  | .fadd _ => true
  | .fsub _ => true
  | .fmul _ => true
  | .ffma _ => true
  | .fneg _ => true
  | .fabs _ => true
  | .fmin _ => true
  | .fmax _ => true
  | .fcmp _ => true
  | .frcp _ => true
  | .frsq _ => true
  | .fsqrt _ => true
  | .fexp2 _ => true
  | .flog2 _ => true
  | .fscale _ => true
  | .cvt _ => true
  | .qpack _ => true
  | .qunpk _ => true
  | .bcast _ => true
  | .shuf _ => true
  | .slide _ => true
  | .pack _ => true
  | .unpack _ => true
  | .laneid _ => true
  | .hsum _ => true
  | .hmax _ => true
  | .hmin _ => true
  | .acc _ => true
  | .accmax _ => true
  | .pscan _ => true
  | .count _ => true
  | .steer _ => true
  | .fork _ => true
  | .merge _ => true
  | .mergerr _ => true
  | .mergesel _ => true
  | .dist _ => true
  | .dispatch _ => true
  | .gate _ => true
  | .drop _ => true
  | .sink _ => true
  | .gen _ => true
  | .carry _ => true
  | .invar _ => true
  | .repeatN _ => true
  | .seqtag _ => true
  | .reorder _ => true
  | .mark _ => true
  | .stopi _ => true
  | .stopx _ => true
  | .stopup _ => true
  | .waitmk _ => true
  | .specres _ => true
  | .retype _ => true
  | .ld _ => true
  | .st _ => true
  | .ldreq _ => true
  | .streq _ => true
  | .push _ => true
  | .pop _ => true
  | .tld _ => true
  | .tst _ => true
  | .spbsend _ => true
  | .aadd _ => true
  | .amin _ => true
  | .amax _ => true
  | .axchg _ => true
  | .acas _ => true
  | .atas _ => true
  | .aor _ => true
  | .fence _ => true
  | .fscan _ => true
  | .flook _ => true
  | .fisect _ => true
  | .funion _ => true
  | .frep _ => true
  | .fred _ => true
  | .fwrite _ => true
  | .oadd _ => true
  | .omul _ => true
  | .ocmp _ => true
  | .ocut _ => true
  | .ocvt _ => true
  | .pqcell _ => true
  | .stat _ => true
  | .rate _ => true
  | .ver _ => true
  | .sysid _ => true
  | .trap _ => true
  | .nop _ => true
  | .nodeTokenFire _ => true
  | .matchDiscard _ _ => true
  | .latchAdvance _ _ _ => true
  | .freeSlotReturn _ _ => true
  | .retypeApply _ _ => true
  | .bridgeSend _ => true
  | .allowanceReturn _ _ _ => true
  | .flitReceive _ _ => true
  | .flitReplay _ => true
  | .linkFlitReceive _ _ _ => true
  | .remoteAccessRequest _ _ => true
  | .cxlLinkDown _ => true
  | .hostMemAccess _ _ => true
  | .windowAccess _ => true
  | .gath _ _ => true
  | .scat _ _ => true
  | .copy _ _ => true
  | .fib _ _ => true
  | .hash _ _ => true
  | .flush _ _ => true
  | .pref _ _ => true
  | .elementIssue _ _ => true
  | .faultNoticePendingWrite _ => true
  | .walkComplete _ => true
  | .writePerform _ => true
  | .spbComplete _ _ _ => true
  | .eventTokenArrive _ => true
  | .spReqMark _ _ => true
  | .spDataToken _ _ _ => true
  | .relRelease _ _ _ => true
  | .invalidationStart _ => true
  | .invalidationComplete _ => true
  | .resume _ _ => true
  | .tPfExpiry _ _ => true
  | .streamBufferGrow _ => true
  | .statTokenAdd _ => true
  | .meCommandEnqueue _ _ => true
  | .mload _ => true
  | .mswap _ => true
  | .mmul _ => true
  | .mdrain _ => true
  | .mzero _ => true
  | .mfmt _ => true
  | .mmigr _ => true
  | .mcount _ => true
  | .meMarkerEntry _ _ => true
  | .meMigrate _ _ _ _ => true
  | .meMigrationReturn _ _ => true
  | .add _ _ _ => true
  | .sub _ _ _ => true
  | .mul _ _ _ => true
  | .mulh _ _ _ => true
  | .div _ _ _ => true
  | .rem _ _ _ => true
  | .seqAnd _ _ _ => true
  | .seqOr _ _ _ => true
  | .seqXor _ _ _ => true
  | .seqShl _ _ _ => true
  | .seqShr _ _ _ => true
  | .seqSar _ _ _ => true
  | .slt _ _ _ => true
  | .sltn _ _ _ => true
  | .addi _ _ _ => true
  | .andi _ _ _ => true
  | .ori _ _ _ => true
  | .xori _ _ _ => true
  | .shli _ _ _ => true
  | .shri _ _ _ => true
  | .sari _ _ _ => true
  | .lih _ _ _ => true
  | .seqLd _ _ _ => true
  | .ldw _ _ _ => true
  | .seqSt _ _ _ => true
  | .stw _ _ _ => true
  | .samoAdd _ _ _ _ => true
  | .samoSwap _ _ _ _ => true
  | .samoCas _ _ _ _ => true
  | .samoAnd _ _ _ _ => true
  | .samoOr _ _ _ _ => true
  | .samoXor _ _ _ _ => true
  | .samoMin _ _ _ _ => true
  | .samoMax _ _ _ _ => true
  | .samoMinu _ _ _ _ => true
  | .samoMaxu _ _ _ _ => true
  | .beq _ _ _ => true
  | .bne _ _ _ => true
  | .blt _ _ _ => true
  | .bge _ _ _ => true
  | .loop _ _ => true
  | .jmp _ => true
  | .jal _ => true
  | .jr _ => true
  | .cfgl _ _ => true
  | .shadowLoad _ _ => true
  | .cfgs _ _ => true
  | .planeSwap _ => true
  | .drainTimeout _ => true
  | .arm _ _ _ => true
  | .waits _ _ => true
  | .waitsReturn _ => true
  | .pure _ _ _ => true
  | .mode _ _ => true
  | .waitm _ _ => true
  | .waitmWake _ => true
  | .launch _ _ => true
  | .tail _ => true
  | .seqTrap _ => true
  | .halt => true
  | .kernelComplete _ => true
  | .seqNop => true
  | .recordStart _ => true
  | .linkWake _ => true
  | .sqctlGo _ => true
  | .sqctlSkip _ => true
  | .sqctlStop _ => true
  | .allocatorRun _ => true
  | .pwbudWrite _ _ => true
  | .entryAging _ _ => true
  | .contextAging _ => true
  | .configInstall _ => true
  | .invocationArm _ _ => true
  | .agateLookup _ => true
  | .invocationRetire _ => true
  | .prectlGo _ _ => true
  | .schedulerPreempt _ => true
  | .cutComplete _ => true
  | .tCutExpiry _ => true
  | .invocationResume _ _ => true
  | .windowEnd _ => true
  | .commit _ _ => true
  | .rbstatClear _ => true
  | .regionFreeze _ => true
  | .faultRecordPendingWrite _ => true
  | .hangTimeout _ => true
  | .frctlRelease _ _ => true
  | .frctlClear _ _ => true
  | .fltstatClear _ => true
  | .softError _ => true
  | .bankReassign _ => true
  | .agateFlush _ => true
  | .agsbaseWrite _ _ => true
  | .agssizeWrite _ _ => true
  | .shape _ _ => true
  | .bind _ _ _ => true
  | .revoke _ => true
  | .quote _ => true
  | .domset _ _ => true
  | .cxlmap _ _ _ _ => true
  | .krvcntClear => true
  | .deviceReset _ => true
  | .registerWrite _ _ _ => true
  | .readPerform _ => true
  | .linkRetrain _ => true

end Sys2Proof
end

