-- ==== Sys2Proof/Machine/Loader.lean ====
section
/-! DEFINITION. Loading an image (R167 to R170, R281, R285, R290, R330): header, digest, streams, relocations, sequencer
code and controller tree. -/

namespace Sys2Proof.Machine

/-! ### Reading fields and words -/

/-- The n-byte little-endian field at an offset. -/
def leAt (bs : List Byte) (o n : Nat) : Nat := natOfBytes ((bs.drop o).take n)

/-- Replace the bytes from an offset on. -/
def putBytes (bs : List Byte) (o : Nat) (new : List Byte) : List Byte := bs.take o ++ new ++ bs.drop (o + new.length)

/-- Bytes as 32-bit words. -/
def wordsOfBytes : Nat → List Byte → List Word
  | 0, _ => []
  | n + 1, bs => BitVec.ofNat 32 (natOfBytes (bs.take 4)) :: wordsOfBytes n (bs.drop 4)

/-- The index of the first ENDS of a stream. -/
def endsAt (ws : List Word) : Option Nat := ws.findIdx? fun w => w.toNat / 2 ^ 28 == 0xD

/-- The checksum of a stream (R149). -/
def streamSum (ws : List Word) : Nat := (ws.map fun w => w.toNat).foldl (· + ·) 0 % 2 ^ 28

/-- The ENDS word of the words ahead of it. -/
def endsWord (ws : List Word) : Word := BitVec.ofNat 32 (0xD * 2 ^ 28 + streamSum ws)

/-- A stream with its checksum recomputed (R170). -/
def resum (ws : List Word) : List Word :=
  match endsAt ws with
  | none => ws
  | some k => ws.take k ++ [endsWord (ws.take k)] ++ ws.drop (k + 1)

/-! ### The header and the section table (R167, R168) -/

/-- The header of Table 8-16. -/
structure ImgHead where
  nsect : Nat
  sectoff : Nat
  seqoff : Nat
  seqlen : Nat
  dataoff : Nat
  datalen : Nat
  reloff : Nat
  nrel : Nat
  fsize : Nat
  deriving DecidableEq, Repr, Inhabited

def imgHead (bs : List Byte) : ImgHead :=
  { nsect := leAt bs 6 2, sectoff := leAt bs 8 4, seqoff := leAt bs 12 4, seqlen := leAt bs 16 4, dataoff := leAt bs 20 4,
    datalen := leAt bs 24 4, reloff := leAt bs 28 4, nrel := leAt bs 32 4, fsize := leAt bs 36 4 }

/-- An area at a multiple of 4 inside the file. -/
def areaOk (h : ImgHead) (o n : Nat) : Bool := o % 4 == 0 && decide (o + n ≤ h.fsize)

/-- The header is legal; FSIZE bytes are to be read. -/
def headOk (bs : List Byte) (h : ImgHead) : Bool :=
  leAt bs 0 4 == 0x4C495A45 && leAt bs 4 2 == 1 && decide (1 ≤ h.nsect) && decide (h.nsect ≤ 1024) && decide (96 ≤ h.fsize) &&
    h.seqlen != 0 && ((bs.drop 40).take 24).all (· == 0) && areaOk h h.sectoff (32 * h.nsect) && areaOk h h.seqoff (4 * h.seqlen) &&
    areaOk h h.dataoff h.datalen && areaOk h h.reloff (16 * h.nrel)

/-- DIGEST covers the FSIZE bytes with its own 32 taken as zero. -/
def digestOk (bs : List Byte) : Bool :=
  shake256 (putBytes bs 64 (List.replicate 32 0)) 32 == (bs.drop 64).take 32

/-- A section entry of Table 8-17, with its file offset. -/
def sectEntry (bs : List Byte) (e : List Byte) : Nat × SectInfo :=
  (leAt e 0 4,
   { stream := wordsOfBytes (leAt e 4 4) (bs.drop (leAt e 0 4)), w := leAt e 8 2, h := leAt e 10 2, cph := leAt e 12 1, rph := leAt e 13 1,
     hnone := leAt e 14 1 == 1, hw := leAt e 16 2, hh := leAt e 18 2, spill := leAt e 20 4 })

/-- The entry is legal (R168). -/
def entryOk (bs : List Byte) (h : ImgHead) (e : List Byte) : Bool :=
  let s := (sectEntry bs e).2
  let name := leAt e 24 4
  areaOk h (leAt e 0 4) (4 * leAt e 4 4) && decide (1 ≤ s.w) && decide (s.w ≤ 128) && decide (1 ≤ s.h) && decide (s.h ≤ 112) &&
    decide (s.cph ≤ 7) && decide (s.rph ≤ 7) && decide (leAt e 14 1 ≤ 1) && leAt e 15 1 == 0 && leAt e 28 4 == 0 &&
    name % 4 == 0 && decide (name < h.fsize) && (bs.drop name).contains 0

/-- The words of a stream are legal for its entry: no HARD under HNONE, nothing behind the first ENDS. -/
def streamFits (s : SectInfo) : Bool :=
  match endsAt s.stream with
  | none => !(s.hnone && s.stream.any fun w => w.toNat / 2 ^ 28 == 0xE)
  | some k => decide (k + 1 = s.stream.length) && !(s.hnone && (s.stream.take k).any fun w => w.toNat / 2 ^ 28 == 0xE)

/-- The bytes of the section entries. -/
def entryBytes (bs : List Byte) (h : ImgHead) : List (List Byte) :=
  (List.range h.nsect).map fun i => (bs.drop (h.sectoff + 32 * i)).take 32

/-! ### Relocations (R169) -/

/-- Where a relocation points: bytes of the data area or code, or the beat of a stream at a word. -/
inductive RelTgt where
  | file (off : Nat)
  | beat (sect word byte : Nat)
  deriving DecidableEq, Repr, Inhabited

/-- The eleven words F81 to F91 stand at a word of a stream. -/
def beatWords (ws : List Word) (i : Nat) : Bool :=
  (List.range 11).all fun m => (ws[i + m]?).any fun w => w.toNat / 2 ^ 24 == 81 + m

/-- The place that a relocation entry names. -/
def relPlace (h : ImgHead) (secs : List (Nat × SectInfo)) (e : List Byte) : Option RelTgt :=
  let tgt := leAt e 0 4
  let kind := leAt e 4 1
  let byte := leAt e 5 1
  let inArea (o n : Nat) : Bool := decide (o ≤ tgt) && decide (tgt + 8 ≤ o + n)
  if leAt e 6 2 ≠ 0 then none
  else if kind = 1 then (if inArea h.dataoff h.datalen || inArea h.seqoff (4 * h.seqlen) then some (.file tgt) else none)
  else if kind = 2 ∧ byte ≤ 24 then
    ((List.range secs.length).find? fun k =>
      let x := secs.getD k default
      decide (x.1 ≤ tgt) && (tgt - x.1) % 4 == 0 && beatWords x.2.stream ((tgt - x.1) / 4)).map fun k =>
        .beat k ((tgt - (secs.getD k default).1) / 4) byte
  else none

/-- Patch 8 bytes of the beat assembled at a word (KIND 2). -/
def patchBeat (ws : List Word) (i byte v : Nat) : List Word :=
  let old := (List.range 11).map fun m => ((ws[i + m]?).map fun w => w.toNat % 2 ^ 24).getD 0
  let n := natOfElems 24 old
  let new := putBytes (bytesOfNat 33 n) byte (bytesOfNat 8 v)
  let m := natOfBytes new
  (List.range ws.length).map fun j =>
    let w := ws.getD j 0
    if i ≤ j ∧ j < i + 11 then BitVec.ofNat 32 (w.toNat / 2 ^ 24 * 2 ^ 24 + bitsOf m (24 * (j - i)) 24) else w

/-- The streams with one relocation applied. -/
def patchStreams (secs : List SectInfo) (t : RelTgt) (v : Nat) : List SectInfo :=
  match t with
  | .file _ => secs
  | .beat k i b => lmod secs k fun x => { x with stream := patchBeat x.stream i b v }

/-- The file bytes with one relocation applied. -/
def patchFile (bs : List Byte) (t : RelTgt) (v : Nat) : List Byte :=
  match t with
  | .file o => putBytes bs o (bytesOfNat 8 v)
  | .beat _ _ _ => bs

/-- Every stream's ENDS with the relocated bytes taken as zero (R170). -/
def sumsOk (secs : List SectInfo) (ts : List RelTgt) : Bool :=
  (ts.foldl (fun x t => patchStreams x t 0) secs).all fun s =>
    match endsAt s.stream with
    | none => true
    | some k => s.stream.getD k 0 == endsWord (s.stream.take k)

/-! ### Sequencer code (R285, R290) -/

/-- The prefix of the code: kinds, parents, the sections' parents, its length. -/
structure Prefix where
  kinds : List Nat
  parents : List Nat
  sectParents : List Nat
  len : Nat
  deriving DecidableEq, Repr, Inhabited

/-- No parent. -/
def rootIx : Nat := 0xFFFF

/-- Follow parents from a controller; fuel bounds a tree without cycles. -/
def reachesRoot (parents : List Nat) : Nat → Nat → Bool
  | 0, _ => false
  | f + 1, c => if c = rootIx then true else reachesRoot parents f (parents.getD c rootIx)

/-- The controller tree; none: "illegal controller tree". -/
def readPrefix (code : List Word) (nsect : Nat) : Option Prefix :=
  let w0 := (code.getD 0 0).toNat
  let ctn := w0 % 2 ^ 16
  let len := 1 + ctn + (if ctn = 0 then 0 else nsect)
  let nodes := ((code.drop 1).take ctn).map (·.toNat)
  let sects := if ctn = 0 then [] else ((code.drop (1 + ctn)).take nsect).map (·.toNat)
  let kinds := nodes.map fun w => bitsOf w 30 2
  let parents := nodes.map fun w => w % 2 ^ 16
  let ok := decide (len ≤ code.length) && w0 / 2 ^ 16 == 0 && decide (ctn ≤ 1023) && kinds.all (· != 3) &&
    nodes.all (fun w => bitsOf w 16 14 == 0) && sects.all (fun w => w / 2 ^ 16 == 0) &&
    (parents ++ sects).all (fun p => p == rootIx || decide (p < ctn)) &&
    (List.range ctn).all (reachesRoot parents (ctn + 1)) && parents.all (fun p => p == rootIx || kinds.getD p 0 != 2)
  if ok then some { kinds := kinds, parents := parents, sectParents := sects, len := len } else none

/-- The section index that an instruction names. -/
def sectIndex : Instr → Option Nat
  | .cfgl _ n | .cfgs _ n | .arm _ _ n | .waits _ n | .pure _ _ n | .mode _ n => some n.toNat
  | .srd _ s _ => some s.toNat
  | _ => none

/-- The static offset of a branch. -/
def branchOff : Instr → Option Int
  | .beq _ _ o | .bne _ _ o | .blt _ _ o | .bge _ _ o | .loop _ o => some o.toInt
  | .jmp o | .jal o => some o.toInt
  | _ => none

/-- The first error of one word of code at a place. -/
def codeWordErr (lo hi nsect pc : Nat) (w : Word) : Option LoadErr :=
  match decodeSeq w with
  | .error _ => some .illegalInstruction
  | .ok i =>
    if !i.wf then some .illegalSpecialRegister
    else if (branchOff i).any fun o => !(decide ((lo : Int) ≤ (pc : Int) + o) && decide ((pc : Int) + o < hi)) then some .illegalBranchTarget
    else if (sectIndex i).any fun k => decide (nsect ≤ k) then some .sectionNotOwned
    else none

/-- The first error of the code behind its prefix. -/
def codeErr (code : List Word) (lo nsect : Nat) : Option LoadErr :=
  (List.range (code.length - lo)).findSome? fun k => codeWordErr lo code.length nsect (lo + k) (code.getD (lo + k) 0)

/-! ### What a section installs, and whether it can be placed (R330, R333, R363) -/

/-- A blank region at the phase origin. -/
def phaseRegion (x : SectInfo) : Region :=
  { id := ⟨⟨0, 0⟩, 0⟩, org := ⟨x.cph, x.rph⟩, w := x.w, h := x.h, hw := x.hw, hh := x.hh }

/-- Feed a word, the checks of ENDS apart. -/
def dryWord (rg : Region) (g : Feed) (w : Word) : Feed :=
  if g.closed then g
  else
    match decodeCfg w with
    | .ok (.setc x y) => feedSet rg x y false g
    | .ok (.movc x y) => feedMove rg x y g
    | .ok (.autox x y) => feedSet rg x y true g
    | .ok (.rect x y) => feedRect rg x y g
    | .ok (.hard x y) => feedHard rg x y g
    | .ok (.write f v) => feedWrite rg f.toNat v.toNat g
    | .ok (.localRegisterCommit v) => feedLreg rg v.toNat g
    | .ok (.bankInitCommit v) => feedBinit rg v.toNat g
    | .ok (.tilePreload v) => feedPreload rg v.toNat g
    | .ok (.vers _ _) => { g with begun := true }
    | _ => { g with closed := true }

/-- The plane that a stream leaves behind. -/
def dryPlane (x : SectInfo) : Plane :=
  (x.stream.foldl (dryWord (phaseRegion x)) { for_ := .install, words := [], complete := true, plane := [] }).plane

/-- Whole blocks of a plane, each once. -/
def wholeBlocks (rg : Region) (p : Plane) : List Offset :=
  (blocksOf rg p).foldl (fun l o => if l.contains o then l else l ++ [o]) []

/-- Positions installed: the cells named and the four positions of each block (log 27). -/
def positionsOf (rg : Region) (p : Plane) : Nat := (cellsOf rg p).length + 4 * (wholeBlocks rg p).length

/-- The bytes of the tile-store segments of a plane. -/
def tileBytesOf (rg : Region) (p : Plane) : Nat :=
  ((cellsOf rg p).map fun o => ((List.range 8).map fun n =>
    let d := segDesc p o n
    if d.typ = 2 then 32 * d.size else 0).foldl (· + ·) 0).foldl (· + ·) 0

def measure (x : SectInfo) : SectInfo :=
  let rg := phaseRegion x
  let p := dryPlane x
  { x with npos := positionsOf rg p, tileBytes := tileBytesOf rg p }

/-- Every position of a rectangle belongs to a partition of the group. -/
def inGroup (s : State) (group : BitVec 8) (x y w h : Nat) : Bool :=
  (List.range ((x + w - 1) / 32 - x / 32 + 1)).all fun i => (List.range ((y + h - 1) / 56 - y / 56 + 1)).all fun j =>
    let hx := x / 32 + i
    (ownerOf s (hx / 2 + 2 * (y / 56 + j)) (hx % 2)).any fun p => group.getLsbD p

/-- The origins of a section's phase at which its rectangle lies in the grid, row by row. -/
def phaseOrigins (x : SectInfo) : List Pos :=
  ((List.range 14).map fun j => (List.range 16).map fun i => (⟨x.cph + 8 * i, x.rph + 8 * j⟩ : Pos)).flatten.filter fun p =>
    decide (p.x + x.w ≤ 128) && decide (p.y + x.h ≤ 112)

/-- Some legal rectangle exists (R330). -/
def placeable (s : State) (part : Nat) (x : SectInfo) : Bool :=
  !(x.hnone && decide (6 < x.cph + x.w - 1)) && (phaseOrigins x).any fun p => inGroup s (partAt s part).plgrp p.x p.y x.w x.h

/-! ### The load (R170, R281) -/

/-- What the bytes of a file give: the error, or the image and the patches to the file. -/
def readImage (s : State) (part va : Nat) (bs : List Byte) : Except LoadErr (Image × List Byte) :=
  let h := imgHead bs
  let ents := entryBytes bs h
  let secs := ents.map (sectEntry bs)
  let rels := (List.range h.nrel).map fun i => (bs.drop (h.reloff + 16 * i)).take 16
  let places := rels.map (relPlace h secs)
  let ts := places.filterMap fun x => x
  let base := vaAdd va h.dataoff
  let vals := rels.map fun e => (base + leAt e 8 8) % 2 ^ 64
  let done := (ts.zip vals).foldl (fun x t => patchStreams x t.1 t.2) (secs.map (·.2))
  let file := (ts.zip vals).foldl (fun x t => patchFile x t.1 t.2) bs
  let code := wordsOfBytes h.seqlen (file.drop h.seqoff)
  let final := done.map fun x => measure { x with stream := resum x.stream }
  if !digestOk bs then .error .imageDigest
  else if !(ents.all (entryOk bs h) && secs.all fun x => streamFits x.2) then .error .imageVersion
  else if places.any Option.isNone then .error .illegalRelocation
  else if !sumsOk (secs.map (·.2)) ts then .error .checksumMismatch
  else
    match readPrefix code h.nsect with
    | none => .error .illegalControllerTree
    | some pf =>
      match codeErr code pf.len h.nsect with
      | some e => .error e
      | none =>
        if final.all (placeable s part) then
          let id := (bs.drop 64).take 32
          .ok ({ part := part, va := va, digest := id, code := code, hlen := pf.len, kinds := pf.kinds, parents := pf.parents,
                 sectParents := pf.sectParents, sects := final.zipIdx.map fun x => { x.1 with farEnds := Config.farEnds id x.2 } }, file)
        else .error .illegalRegion

/-- The outcome of a load. -/
inductive Loaded where
  | image (i : Image) (s : State)
  | rejected (e : LoadErr) (s : State)
  | miss (m : Miss × Nat)

/-- Load the image at a VA for a context, or find it loaded. KIND 1 patches are written into the file in place. What is read is counted
(R51). -/
def loadImage (s : State) (c : SeqId) (va : Nat) : Loaded :=
  let part := c.part
  match s.images.find? fun i => i.part == part && i.va == va with
  | some i => .image i s
  | none =>
    match seqRead s c va 96 with
    | .error m => .miss m
    | .ok hb =>
      let h := imgHead hb
      if !headOk hb h then .rejected .imageVersion (dropFar (countBytes s c va 96) c)
      else
        match seqRead s c va h.fsize with
        | .error m => .miss m
        | .ok bs =>
          match readImage s part va bs with
          | .error e => .rejected e (dropFar (countBytes s c va h.fsize) c)
          | .ok (i, file) =>
            let part1 (t : State) (o n : Nat) : Except (Miss × Nat) State :=
              if (file.drop o).take n == (bs.drop o).take n then .ok t else immWrite t part (vaAdd va o) ((file.drop o).take n)
            match part1 s h.dataoff h.datalen with
            | .error m => .miss m
            | .ok s1 =>
              match part1 s1 h.seqoff (4 * h.seqlen) with
              | .error m => .miss m
              | .ok s2 => .image i (dropFar (countBytes { s2 with images := i :: s2.images } c va h.fsize) c)

end Sys2Proof.Machine
end

