-- ==== Sys2Proof/Machine/SeqSect.lean ====
section
/-! DEFINITION. The section instructions and the walk of records (R281 to R283, R296 to R301, R307, R363, R369): MODE, ARM, PURE,
CFGL, CFGS, WAITS, HALT; a record's start and completion; the link; SQCTL. -/

namespace Sys2Proof.Machine

/-! ### MODE, ARM, PURE (R296, R297, R299) -/

def execMode (m : BitVec 5) (n : BitVec 16) (s : State) : Host.Outcome State Fault Refusal :=
  seqRun s [m] fun c q =>
    let v := (greg q m).toNat
    let x := sectAt q n.toNat
    setSeq s c (setSect q n.toNat { x with mode := BitVec.ofNat 32 v, modeBad := decide (2 ^ 32 ≤ v) }).advance

/-- Entries of an ARM queue. -/
def armCap : Nat := 4

/-- The launch constants at a VA: 8 words. -/
def readConsts (s : State) (c : SeqId) (va : Nat) : Except (Miss × Nat) (List Word) :=
  match seqRead s c va 32 with
  | .error m => .error m
  | .ok bs => .ok (wordsOfBytes 8 bs)

/-- Queue an invocation (R296): its number, age and the count that WAITS looks at. -/
def queueEntry (s : State) (c : SeqId) (q : Seq) (k t : Nat) (consts : Option (List Word)) (pi : Option PureInv) : State :=
  let x := sectAt q k
  let e : ArmEntry :=
    { tiles := t, consts := consts, mode := x.mode, modeBad := x.modeBad, deadline := if q.deadline = 0 then 2 ^ 64 - 1 else q.deadline,
      prio := q.prio, pureInv := pi, age := q.startAge.getD s.cycle.toNat, since := s.cycle.toNat, no := q.queuedNo + 1 }
  let x1 := { x with armq := x.armq ++ [e], queued := x.queued + 1, sinceWait := true }
  setSeq s c (setSect { q with queuedNo := q.queuedNo + 1 } k x1).advance

/-- The part that ARM and PURE share; pur answers the pure invocation, or the subcode of SEQ or a miss, on the state with its
watch set. -/
def armWith (gc gb : BitVec 5) (n : BitVec 16) (s : State)
    (pur : SeqId → Seq → Except (Sum Nat (Miss × Nat)) (State × Option PureInv)) : Host.Outcome State Fault Refusal :=
  seqRun s [gc, gb] fun c q =>
    let t := (greg q gc).toNat
    let ka := (greg q gb).toNat
    let s0 := setSeq s c q
    if t = 0 then setSeq s c q.advance
    else if 2 ^ 32 ≤ t then parkSeq s0 c clsSeq 0x03
    else if gb ≠ 0 ∧ ka % 32 ≠ 0 then parkSeq s0 c clsSeq 0x02
    else if armCap ≤ (sectAt q n.toNat).armq.length || seqWrites s c then s
    else
      match (if gb = 0 then .ok none else (readConsts s c ka).map some) with
      | .error m => seqMiss s0 c m
      | .ok k =>
        match pur c q with
        | .error (.inl sub) => parkSeq s0 c clsSeq sub
        | .error (.inr m) => seqMiss s0 c m
        | .ok (s1, p) =>
          let s2 := dropFar (if gb = 0 then s1 else countBytes s1 c ka 32) c
          queueEntry s2 c (q.after s2 c) n.toNat t k p

def execArm (gc gb : BitVec 5) (n : BitVec 16) (s : State) : Host.Outcome State Fault Refusal :=
  armWith gc gb n s fun _ _ => .ok (s, none)

/-- Extents lo to lo + n - 1 of the table at a VA. -/
def readExtents (s : State) (c : SeqId) (va lo : Nat) : Nat → Except (Miss × Nat) (List (Nat × Nat))
  | 0 => .ok []
  | n + 1 =>
    match seqRead s c (vaAdd va (16 * lo)) 16 with
    | .error m => .error m
    | .ok bs =>
      match readExtents s c va (lo + 1) n with
      | .error m => .error m
      | .ok t => .ok ((natOfBytes (bs.take 8), natOfBytes (bs.drop 8)) :: t)

/-- No two extents overlap. -/
def apart : List (Nat × Nat) → Bool
  | [] => true
  | x :: t => t.all (fun y => decide (x.1 + x.2 ≤ y.1) || decide (y.1 + y.2 ≤ x.1)) && apart t

/-- The limits of R363. -/
def extentsOk (args res : List (Nat × Nat)) (tileBytes : Nat) : Bool :=
  decide (1 ≤ args.length) && decide (args.length ≤ 8) && decide (res.length ≤ 4) &&
    (args ++ res).all (fun x => x.1 % 4 == 0 && x.2 != 0 && x.2 % 4 == 0) && res.all (fun x => decide (x.2 ≤ 2 ^ 24)) &&
    apart (args ++ res) && decide ((args.map (·.2)).foldl (· + ·) 0 ≤ tileBytes)

/-- The LOCAL granules of an extent whose pages are mapped now (R369). -/
def extentGranules (s : State) (part : Nat) (x : Nat × Nat) : List Nat :=
  (List.range ((x.1 + x.2 - 1) / 2 ^ 16 - x.1 / 2 ^ 16 + 1)).filterMap fun i =>
    let va := if i = 0 then x.1 else (x.1 / 2 ^ 16 + i) * 2 ^ 16
    match immTarget s part va false with
    | .ok (_, .dram d a) => if d = partDie part ∧ ownerOfDram s d a = some part then some (a / 2 ^ 16) else none
    | _ => none

/-- What the image says of a section. -/
def sectInfo (q : Seq) (k : Nat) : SectInfo :=
  match q.image with
  | some i => i.sects.getD k default
  | none => default

/-- The pure invocation of a PURE, its granules watched from now on (R363, R369). -/
def pureOf (s : State) (c : SeqId) (q : Seq) (k : Nat) : Except (Sum Nat (Miss × Nat)) (State × Option PureInv) :=
  if q.nArg = 0 ∨ q.extVa = 0 then .error (.inl 0x07)
  else
    match readExtents s c q.extVa 0 q.nArg, readExtents s c q.extVa 8 q.nRes with
    | .error m, _ => .error (.inr m)
    | _, .error m => .error (.inr m)
    | .ok args, .ok res =>
      if !extentsOk args res (sectInfo q k).tileBytes then .error (.inl 0x07)
      else
        let gs := (args.map (extentGranules s c.part)).flatten.eraseDups
        let p := partAt s c.part
        let new := gs.filter fun g => !p.watch.contains g
        let fits := decide (p.watch.length + new.length ≤ 2048)
        let s0 := countBytes (countBytes s c q.extVa (16 * q.nArg)) c (vaAdd q.extVa 128) (16 * q.nRes)
        let s1 := if fits then setPart s0 c.part { partAt s0 c.part with watch := p.watch ++ new } else s0
        .ok (s1, some { args := args, res := res, granules := if fits then gs else [], overflow := !fits })

def execPure (gc gb : BitVec 5) (n : BitVec 16) (s : State) : Host.Outcome State Fault Refusal :=
  armWith gc gb n s fun c q => pureOf s c q n.toNat

/-! ### CFGL and its load (R300) -/

/-- A second stream discards the first and the shadow plane. -/
def dropShadow (s : State) (r : RegId) : State :=
  match regionAt s r with
  | none => s
  | some rg => setRegion s { rg with shadow := none, feed := rg.feed.bind fun f => if f.for_ == .load then none else some f }

def execCfgl (g : BitVec 5) (n : BitVec 16) (s : State) : Host.Outcome State Fault Refusal :=
  seqRun s [g] fun c q =>
    let va := (greg q g).toNat
    if va % 4 ≠ 0 then parkSeq (setSeq s c q) c clsSeq 0x02
    else if seqWrites s c then s
    else
      let x := sectAt q n.toNat
      setSeq (dropShadow s ⟨c, n.toNat⟩) c (setSect q n.toNat { x with pend := some va, loadErr := none }).advance

/-- Read a stream up to its first ENDS, line by line, so that no line behind it is read (R168); fuel bounds the lines. -/
def readStream (s : State) (c : SeqId) : Nat → Nat → Except (Miss × Nat) (List Word)
  | 0, _ => .ok []
  | f + 1, va =>
    let n := 64 - va % 256 / 4
    match seqRead s c va (4 * n) with
    | .error m => .error m
    | .ok bs =>
      let ws := wordsOfBytes n bs
      match endsAt ws with
      | some k => .ok (ws.take (k + 1))
      | none =>
        match readStream s c f (vaAdd va (4 * n)) with
        | .error m => .error m
        | .ok t => .ok (ws ++ t)

/-- Lines of the whole address space. -/
def vaLines : Nat := 2 ^ 49

/-- A region takes the pending stream of its section: nothing is being fed, and no cut has begun (R300, R343). -/
def Region.takesLoad (rg : Region) : Bool := rg.installed && rg.feed.isNone && rg.shadow.isNone && rg.cut.isNone && rg.frozen.isNone

/-- SHADOW_LOAD (R300): the pending stream is fed from the plane as written. -/
def execShadowLoad (c : SeqId) (k : Nat) (s : State) : Host.Outcome State Fault Refusal :=
  let x := sectAt (seqAt s c) k
  match x.pend, regionAt s ⟨c, k⟩ with
  | some va, some rg =>
    if !rg.takesLoad || x.loadErr.isSome then .next s
    else
      match readStream s c vaLines va with
      | .error m => .next (seqMiss s c m)
      | .ok ws =>
        let i := sectInfo (seqAt s c) k
        let f : Feed := { for_ := .load, words := placeWords i.cph i.rph rg.org ws, complete := false, plane := writtenPlane rg }
        .next (dropFar (countBytes (setRegion s { rg with feed := some f }) c va (4 * ws.length)) c)
  | _, _ => .next s

/-! ### WAITS and CFGS (R298, R301) -/

def doneStatus : Status := ⟨0, 0, 0, 0⟩
def rejectStatus (stage : Nat) : Status := ⟨0x04, stage, 0, 0⟩

/-- Answer a status; a FAULT or REJECT into g0 faults and answers nothing (R298, R301). -/
def answerStatus (s : State) (c : SeqId) (q : Seq) (d : BitVec 5) (st : Status) (k : Seq → Seq) : State :=
  if d = 0 ∧ (st.code = 0x03 ∨ st.code = 0x04) then parkSeq (setSeq s c q) c clsSeq 0x04
  else seqPut s c (k q) d (BitVec.ofNat 64 (statusWord st))

/-- The status that WAITS gives. -/
def waitsStatus (x : SectCtx) : Status :=
  if x.sinceWait then (x.statuses.find? fun st => st.code != 0).getD doneStatus else x.sstat

/-- Every invocation has ended: WAITS answers (R298). Else the context waits in PARKWAIT. -/
def waitsTry (s : State) (c : SeqId) (q : Seq) (d : BitVec 5) (k : Nat) : State :=
  let x := sectAt q k
  if x.queued ≠ 0 then setSeq s c { q with st := .parkwait, park := .waits d.toNat k }
  else answerStatus s c q d (waitsStatus x) fun q => setSect q k { x with statuses := [], sinceWait := false }

def execWaits (d : BitVec 5) (n : BitVec 16) (s : State) : Host.Outcome State Fault Refusal :=
  seqRun s [d] fun c q => waitsTry s c q d n.toNat

/-- WAITS_RETURN (R298). -/
def execWaitsReturn (c : SeqId) (s : State) : Host.Outcome State Fault Refusal :=
  let q := seqAt s c
  match q.park with
  | .waits d k => .next (waitsTry s c { q with st := .run, park := .nothing } (BitVec.ofNat 5 d) k)
  | _ => .next s

/-- The pending stream is used up. -/
def pendDone (k : Nat) (q : Seq) : Seq := setSect q k { sectAt q k with pend := none, loadErr := none }

/-- CFGS on a region that is not frozen: the load's end, the layout at the swap, the drain (R301, R357). -/
def cfgsRegion (s : State) (c : SeqId) (q : Seq) (d : BitVec 5) (k : Nat) (rg : Region) : State :=
  let x := sectAt q k
  let wait : Seq := { q with st := .parkwait, park := .cfgs d.toNat k }
  match x.loadErr, rg.shadow with
  | some _, _ => answerStatus s c q d (rejectStatus 2) (pendDone k)
  | none, none => setSeq s c wait
  | none, some f =>
    if f.tag ≠ x.lv % 2 ^ 14 then
      answerStatus (setRegion s { rg with shadow := none, drain := none }) c
        { q with errNo := LoadErr.staleLayout.number, errStage := 2 } d (rejectStatus 2) (pendDone k)
    else if rg.drain.isSome then setSeq s c wait
    else
      let rg1 := beginDrain rg s.cycle.toNat
      setSeq (setRegion s (injectDrains rg1)) c wait

/-- CFGS (R301). It answers a swap once LV has its value (R326). -/
def cfgsTry (s : State) (c : SeqId) (q : Seq) (d : BitVec 5) (k : Nat) : State :=
  let x := sectAt q k
  if x.queued ≠ 0 then setSeq s c { q with st := .parkwait, park := .cfgs d.toNat k }
  else
    match regionAt s ⟨c, k⟩ with
    | some rg =>
      match rg.frozen, x.pend with
      | some fi, _ => answerStatus s c q d ⟨0x03, fi.cls, fi.sub, 0⟩ (fun q => q)
      | none, none =>
        if rg.lvDue.isSome then setSeq s c { q with st := .parkwait, park := .cfgs d.toNat k } else answerStatus s c q d doneStatus (fun q => q)
      | none, some _ => cfgsRegion s c q d k rg
    | none =>
      match x.pend with
      | none => answerStatus s c q d doneStatus (fun q => q)
      | some va =>
        answerStatus s c q d doneStatus fun q =>
          setSect q k { x with pend := none, loadErr := none, cpc := (x.cpc + 1) % 2 ^ 16, streams := x.streams ++ [(va, false)] }

def execCfgs (d : BitVec 5) (n : BitVec 16) (s : State) : Host.Outcome State Fault Refusal :=
  seqRun s [d] fun c q => if seqWrites s c then s else cfgsTry s c q d n.toNat

/-! ### Drain and swap (R357, R358) -/

/-- The layout record (R326). -/
def pairWord (a : Offset × Nat) : Nat := (a.1.dx % 2 ^ 14).toNat * 2 ^ 18 + (a.1.dy % 2 ^ 14).toNat * 2 ^ 4 + a.2

def layoutEntry (l : NodeLayout) : List Byte :=
  bytesOfNat 2 l.nid ++ [BitVec.ofNat 8 (l.copies.length + (if l.folded then 8 else 0))] ++ List.replicate 5 0 ++
    ((List.range 4).map fun k => bytesOfNat 4 ((l.copies[k]?.map pairWord).getD 0)).flatten ++ List.replicate 8 0

/-- The writes of a section's record: LVH, the entries, LVT (R326); none where LRBASE is 0. -/
def layoutWrites (base : Nat) (r : RegId) (lv : Nat) (ls : List NodeLayout) : List (Nat × List Byte) :=
  let va := vaAdd base (4096 * (1024 * r.seq.n + r.sect))
  let ents := (ls.map layoutEntry).flatten
  if base = 0 then []
  else
    lineWrites 1 va (bytesOfNat 4 lv ++ bytesOfNat 2 ls.length ++ bytesOfNat 2 r.sect) ++
      lineWrites 17 (vaAdd va 12) (List.replicate 4 0 ++ ents ++ List.replicate (4080 - ents.length) 0) ++
      lineWrites 1 (vaAdd va 8) (bytesOfNat 4 lv)

/-- The record of a section is rewritten, and LV takes its value behind it (R326). -/
def writeLayout (s : State) (r : RegId) (lv : Nat) (ls : List NodeLayout) : State :=
  match regionAt s r with
  | none => s
  | some rg => recordSend r (setRegion s { rg with lvDue := some lv }) (layoutWrites (partAt s r.seq.part).lrbase r lv ls)

/-- The next layout version (R324). -/
def lvNext (lv : Nat) : Nat := (lv + 1) % 2 ^ 32

/-- A layout takes effect: the record is rewritten and LV moves on (R324, R326). -/
def newLayout (s : State) (r : RegId) (lays : List NodeLayout) : State :=
  let q := seqAt s r.seq
  let x := sectAt q r.sect
  writeLayout (setSeq s r.seq (setSect q r.sect { x with layouts := lays, kept := none })) r (lvNext x.lv) lays

/-- The drained region with its planes exchanged: hosted commands have gone home, the bridge circuits are those of the new plane (R261,
R357, R376). -/
def swapped (s0 : State) (rg : Region) (f : Feed) (ls : List Link) (lays : List NodeLayout) : State :=
  let s := recallAll (setRegion (dropFlits s0 rg.id) rg) rg.id
  let rg1 := (regionAt s rg.id).getD rg
  let us := bridgeUses s rg1 ls
  clearUses (setRegion s { swapPlane rg1 f (numberCircuits s rg.id ls) lays with uses := us }) rg.id us

/-- PLANE_SWAP (R357): the region is drained and holds no stray token. -/
def execPlaneSwap (r : RegId) (s : State) : Host.Outcome State Fault Refusal :=
  match regionAt s r with
  | none => .next s
  | some rg0 =>
    match rg0.drain, rg0.shadow with
    | some _, some f =>
      if rg0.frozen.isSome then .next s
      else
        let rg := injectDrains rg0
        if !sinksDone rg then .next (setRegion s rg)
        else
          match strayFault s rg, linksOf rg f.plane with
          | some fi, _ => .next (faultRegion (setRegion s rg) r fi)
          | none, .error _ => .next s
          | none, .ok ls =>
            let lays := writtenLayouts rg f.plane
            let moved := rg.layouts.any (·.moved)
            let q := seqAt s r.seq
            let x := sectAt q r.sect
            let x1 := { x with pend := none, loadErr := none, cpc := (x.cpc + 1) % 2 ^ 16, layouts := lays,
                               streams := x.streams ++ (x.pend.map fun va => (va, true)).toList }
            let s1 := swapped (setSeq s r.seq (setSect q r.sect x1)) rg f ls lays
            .next (if moved then newLayout s1 r lays else s1)
    | _, _ => .next s

/-- The hang interval of a mode word; 0 is off (R20). -/
def hangBits (mode : Nat) : Nat := bitsOf mode 9 5

/-- DRAIN_TIMEOUT (R358): the drain is not complete in time. -/
def execDrainTimeout (r : RegId) (s : State) : Host.Outcome State Fault Refusal :=
  match regionAt s r with
  | none => .next s
  | some rg =>
    match rg.drain with
    | none => .next s
    | some d =>
      let h := hangBits (sectAt (seqAt s r.seq) r.sect).mode.toNat
      if rg.frozen.isSome || sinksDone rg || decide (s.cycle.toNat - d.start < (if h = 0 then 2 ^ 24 else 2 ^ h)) then .next s
      else .next (faultRegion (writeMap s rg) r (originFault clsStray 0x03))

/-! ### HALT, the end of a record, the link (R282, R307) -/

/-- HALT: the context waits in PARKWAIT for KERNEL_COMPLETE. -/
def execHalt (s : State) : Host.Outcome State Fault Refusal :=
  seqRun s [] fun c q => setSeq s c { q with st := .parkwait, park := .halt }

/-- The first status, by the invocations' order, that was not DONE and that no WAITS reported. -/
def firstBad (q : Seq) : Status :=
  ((q.sects.map fun x => x.statuses.filter fun st => st.code != 0).flatten.foldl
    (fun (m : Option Status) st => match m with
      | none => some st
      | some y => if st.no < y.no then some st else some y) none).getD doneStatus

/-- A record is complete: the context releases at SYSTEM, STATUS is written, the host interrupted if the record asks, and the context
goes to its link or stops. -/
def finishRecord (s0 : State) (c : SeqId) (q : Seq) (st : Status) : State :=
  let s := atScope s0 5
  match immWrite s c.part (vaAdd q.sqrec 44) (bytesOfNat 4 (statusWord st)) with
  | .error m => seqMiss (setSeq s c q) c m
  | .ok s2 =>
    let s1 := countSeq s2 c (vaAdd q.sqrec 44)
    let q1 : Seq :=
      { q.after s1 c with
        completed := (q.completed + 1) % 2 ^ 32, stopReq := false, st := if q.stopReq then .idle else .parklink,
        park := if q.stopReq then .nothing else .link }
    let s2 := setSeq s1 c q1
    if q.irqAtEnd then raiseIrq s2 c.part 3 else s2

/-- KERNEL_COMPLETE (R307); the end of a skipped record whose STATUS met a page fault goes on here too (R283). An access that was refused
behind the HALT goes again first, after GO. -/
def execKernelComplete (c : SeqId) (s : State) : Host.Outcome State Fault Refusal :=
  let q := seqAt s c
  match q.park with
  | .finish st => .next (finishRecord s c q st)
  | _ =>
    if q.park != .halt || q.st != .parkwait then .next s
    else
      match q.retry with
      | m :: _ => .next (resend s c m)
      | [] => if q.sects.any (fun x => x.queued != 0) || seqWrites s c then .next s else .next (finishRecord s c q (firstBad q))

/-- LINK_WAKE (R282): LINK is read again. -/
def execLinkWake (c : SeqId) (s : State) : Host.Outcome State Fault Refusal :=
  let q := seqAt s c
  if q.park != .link || q.st != .parklink then .next s
  else
    match readLink s c q.sqrec with
    | .error m => .next (seqMiss s c m)
    | .ok w =>
      .next (if linkFull w then
          let t := countSeq s c q.sqrec
          setSeq t c { q.after t c with sqrec := linkNext w, st := .run, park := .start }
        else s)

/-! ### The start of a record (R280, R281) -/

/-- The fields of a record that are checked (R281). -/
def recordOk (bs : List Byte) : Bool :=
  let link := leAt bs 0 8
  let extn := leAt bs 19 1
  bitsOf link 57 6 == 0 && bitsOf link 0 6 == 0 && leAt bs 18 1 / 8 == 0 && extn / 128 == 0 && decide (extn % 16 ≤ 8) &&
    decide (bitsOf extn 4 3 ≤ 4) && leAt bs 8 8 % 256 == 0 && leAt bs 48 8 % 16 == 0

/-- The section contexts at the start: fresh ones for another image; else mode word and ARM queue are cleared. -/
def startSects (q : Seq) (i : Image) : List SectCtx :=
  if q.image.any fun j => j.va == i.va then
    q.sects.map fun x => { x.dropSaved with mode := 0, modeBad := false, armq := [], statuses := [], queued := 0, sinceWait := false,
                                            placed := false, charge := 0 }
  else List.replicate i.sects.length {}

/-- Invocations that wait or are saved are given up with the record that queued them: places not yet armed, charges and save areas
are returned. -/
def giveUp (s : State) (c : SeqId) : State :=
  let q := seqAt s c
  let p := partAt s c.part
  let s1 := setPart s c.part { p with saves := p.saves.filter fun x => x.reg.seq != c }
  let s2 := (s1.regions.filter fun rg => rg.id.seq == c && !rg.installed).foldl (fun t rg => freeRegion t rg.id) s1
  (List.range q.sects.length).foldl (fun t k =>
    match regionAt t ⟨c, k⟩ with
    | some rg =>
      if (sectAt q k).placed then
        let p := partAt t c.part
        setRegion (setPart t c.part { p with pwuse := p.pwuse - rg.charge }) { rg with charge := 0 }
      else t
    | none => t) s2

/-- Idle regions of the context's earlier image go. -/
def freeOld (s : State) (c : SeqId) : State :=
  (s.regions.filter fun rg => rg.id.seq == c && rg.inv.isNone && rg.frozen.isNone).foldl (fun t rg => freeRegion t rg.id) s

/-- Loads of an earlier record that are on their way write no register of the new one. -/
def orphanLoads (s : State) (c : SeqId) : State :=
  { s with reqs := s.reqs.map fun q => match q.who with
      | .seqLoad c1 _ w => if c1 = c then { q with who := .seqLoad c 0 w } else q
      | .seqAmo c1 _ w => if c1 = c then { q with who := .seqAmo c 0 w } else q
      | _ => q }

/-- The context begins the record (R281). -/
def beginRecord (s : State) (c : SeqId) (q : Seq) (bs : List Byte) (i : Image) : State :=
  let extn := leAt bs 19 1
  let dl := leAt bs 24 8
  let regs := ((Vector.replicate 32 (0 : DWord)).setIfInBounds 1 (BitVec.ofNat 64 (leAt bs 56 8))).setIfInBounds 2 (BitVec.ofNat 64 q.sqrec)
  let same := q.image.any fun j => j.va == i.va
  let s1 := if same then giveUp s c else freeOld (giveUp s c) c
  pruneWatch (setSeq (orphanLoads (dropFar s1 c) c) c
    { q with
      st := .run, park := .nothing, resumeTo := .nothing, regs := regs, owed := 0, retry := [], pc := i.hlen + leAt bs 16 2, prio := leAt bs 18 1 % 4,
      deadline := if dl = 0 then 0 else (s.cycle.toNat + dl) % 2 ^ 64, image := some i, tp := q.sqrec, sects := startSects q i,
      startAge := aget q.spliced q.sqrec, recStart := s.cycle.toNat, spliced := adel q.spliced q.sqrec, queuedNo := 0,
      irqAtEnd := (leAt bs 18 1).testBit 2, spill := leAt bs 20 4, ovfVa := leAt bs 32 8, ovfLen := leAt bs 40 4, extVa := leAt bs 48 8,
      nArg := extn % 16, nRes := bitsOf extn 4 3 }) c.part

/-- RECORD_START (R281). Invocations that a skipped record armed end first (log 28). -/
def execRecordStart (c : SeqId) (s : State) : Host.Outcome State Fault Refusal :=
  let q := seqAt s c
  if q.park != .start || q.st != .run || q.sects.any (fun x => x.armed) then .next s
  else
    match seqRead s c q.sqrec 64 with
    | .error m => .next (seqMiss s c m)
    | .ok bs =>
      let read (t : State) : State := countBytes t c q.sqrec 64
      if !recordOk bs then .next (parkSeq (read s) c clsSeq 0x05)
      else
        match loadImage s c (leAt bs 8 8) with
        | .miss m => .next (seqMiss s c m)
        | .rejected e s1 =>
          .next (finishRecord (read s1) c { q with errNo := e.number, errStage := 4, irqAtEnd := (leAt bs 18 1).testBit 2 } (rejectStatus 4))
        | .image i s1 => .next (beginRecord (read s1) c q bs i)

/-! ### SQCTL (R283) -/

/-- Contexts of a partition. -/
def sqCount (p : Part) : Nat := if p.shape = 1 then 32 else if p.shape = 2 then 16 else 0

def execSqctlGo (c : SeqId) (s : State) : Host.Outcome State Fault Refusal :=
  let q := seqAt s c
  if sqCount (partAt s c.part) ≤ c.n then .next s
  else
    match q.st with
    | .idle => .next (setSeq s c { q with st := .run, park := .start, sqrec := q.sqhead })
    | .parkfault => .next (setSeq s c q.restore)
    | _ => .next s

/-- SKIP: the fault status goes to STATUS, and the context to the next record. -/
def execSqctlSkip (c : SeqId) (s : State) : Host.Outcome State Fault Refusal :=
  let q := seqAt s c
  if q.st != .parkfault then .next s
  else
    let st : Status := ⟨0x03, q.cls, q.sub, 0⟩
    let q1 := { q with st := .parkwait, park := .finish st, resumeTo := .nothing }
    .next (finishRecord (setSeq s c q1) c q1 st)

def execSqctlStop (c : SeqId) (s : State) : Host.Outcome State Fault Refusal :=
  let q := seqAt s c
  match q.st with
  | .parklink => .next (setSeq s c { q with st := .idle, park := .nothing })
  | .idle => .next s
  | _ => .next (setSeq s c { q with stopReq := true })

end Sys2Proof.Machine
end

