-- ==== Sys2Proof/Machine/Sched.lean ====
section
/-! DEFINITION. Placement and power (R329 to R333), the order of admission (R334, R335), installing a placed section (R28, R301),
arming (R286, R296), the window table at a placement (R345), retiring (R269, R298). -/

namespace Sys2Proof.Machine

/-! ### What stands where (R330, R331) -/

/-- Cycles of a microsecond at 2 GHz (R1). -/
def cyclesPerUs : Nat := 2000

/-- Two rectangles meet. -/
def rectsMeet (x y w h x1 y1 w1 h1 : Nat) : Bool :=
  decide (x < x1 + w1) && decide (x1 < x + w) && decide (y < y1 + h1) && decide (y1 < y + h)

/-- A region holds a position of a rectangle: its own rectangle, reserved headroom, or headroom that a copy occupies. -/
def Region.meets (g : Region) (x y w h : Nat) : Bool :=
  rectsMeet x y w h g.org.x g.org.y g.w g.h ||
    (!g.soft && rectsMeet x y w h g.org.x g.org.y (g.w + g.hw) (g.h + g.hh)) ||
    g.layouts.any fun l => l.copies.any fun c => rectsMeet x y w h (g.posOf c.1).x (g.posOf c.1).y 1 1

/-- A rectangle is free for a section: no region but an idle one holds a position of it, and no bank of it is being scrubbed (R330,
R361). -/
def rectFree (s : State) (r : RegId) (x y w h : Nat) : Bool :=
  (holders s r).all (fun g => !g.meets x y w h) && !s.scrubbing.any fun p => rectsMeet x y w h p.x p.y 1 1

/-- The order of R331 within the group: die, row, column. -/
def originKey (p : Pos) : Nat := (dieOf p * 56 + p.y % 56) * 64 + p.x % 64

def insertOrigin (p : Pos) : List Pos → List Pos
  | [] => [p]
  | q :: t => if originKey p ≤ originKey q then p :: q :: t else q :: insertOrigin p t

/-- Candidate origins, in order. -/
def originsOf (x : SectInfo) : List Pos := (phaseOrigins x).foldr insertOrigin []

/-- The ends of Slaundene circuits with the T16 tracks exchanged (R83). -/
def exchFar (x : Bool × Bool) (f : FarEnd) : FarEnd := { f with word := exchAt x.1 x.2 16 f.word }

/-- The region as it would stand at an origin. -/
def regionAtOrigin (r : RegId) (x : SectInfo) (p : Pos) (hw hh : Nat) (soft : Bool) : Region :=
  { id := r, org := p, w := x.w, h := x.h, hw := hw, hh := hh, soft := soft, farEnds := x.farEnds.map (exchFar (exchPhase x.cph x.rph p)) }

/-- The links of a section at an origin, as far as its streams give them, one behind the other. -/
def dryLinks (rg : Region) (x : SectInfo) (more : List (List Word)) : List Link :=
  let f := (x.stream :: more).foldl (fun f ws =>
      (placeWords x.cph x.rph rg.org ws).foldl (dryWord rg) { f with begun := false, closed := false, cursor := none, hardCur := false,
                                                                     autox := false, rect := none, last := none })
    ({ for_ := .install, words := [], complete := true, plane := [] } : Feed)
  match linksOf rg f.plane with
  | .ok ls => ls
  | .error _ => []

/-! ### A layout at another origin (R83, R344, R408) -/

/-- The exchange of T16 tracks between a region's origin and another one, in row and in column channels (R83). -/
def exchBetween (rg : Region) (org : Pos) : Bool × Bool :=
  ((org.x + 16 - rg.org.x % 16) % 16 == 8, (org.y + 16 - rg.org.y % 16) % 16 == 8)

/-- A descriptor of a region at another origin. -/
def exchDescAt (rg : Region) (org : Pos) (d : Nat) : Nat := exchDesc (exchBetween rg org).1 (exchBetween rg org).2 d

/-- A region's plane as routed at another origin: the T16 exchange between the two (R83, R344). -/
def exchPlane (rg : Region) (org : Pos) (p : Plane) : Plane :=
  let (ew, ns) := exchBetween rg org
  if !ew && !ns then p
  else p.map fun x => (x.1, x.2.map fun f =>
    let fld := if 128 ≤ f.1 then 13 + (f.1 - 128) % 8 else f.1
    (f.1, BitVec.ofNat 24 (exchField ew ns (rg.hardCol (keyOff x.1).dx) fld f.2.toNat)))

/-- A region's Slaundene ends at another origin. -/
def farMoved (rg : Region) (org : Pos) : Region := { rg with org := org, farEnds := rg.farEnds.map (exchFar (exchBetween rg org)) }

/-- The beats of a link in order: those behind its converter, and those ahead of it. -/
def Link.inOrder (l : Link) : List Beat × List Beat :=
  let n := l.lat.length
  let last := (l.lat.getD (n - 1) none).toList
  let far (k : Nat) : List Beat := (((l.crossings.filter fun x => x.at_ == k).map (·.far)).reverse).flatten
  let up := ((List.range n).reverse.map fun k => far k ++ (if k = 0 then [] else (l.lat.getD (k - 1) none).toList)).flatten
  (l.queue ++ far n ++ last ++ l.cvq, up ++ l.pipe)

/-- A link of a layout at a new origin: its route with the T16 tracks exchanged, its tokens in their order, and the producer's count for
what the route holds there. -/
def rerouteLink (rg : Region) (org : Pos) (old : Link) : Link :=
  let route := old.route.map fun x => (x.1, exchDescAt rg org x.2)
  let (post, pre) := old.inOrder
  let used : Int := ((old.cap + old.share : Nat) : Int) - old.free - old.ret
  let share := if old.crossings.isEmpty then 8 else old.share
  let xs := crossingsOf { rg with org := org } share (old.cap + share) route
  let xs := old.farCrossings route.length xs
  let base : Link := { old with route := route, lat := List.replicate old.lat.length none, crossings := xs, ret := 0 }
  let l : Link := { base with free := if old.src.far then old.free else ((base.cap + base.share : Nat) : Int) - used }
  if l.lat.isEmpty then { l with queue := post ++ pre }
  else if l.zeroSlot then { l with queue := [], free := old.free, lat := lmod l.lat (l.lat.length - 1) fun _ => (post ++ pre).head? }
  else
    let keep := post.take l.cap
    let rest := post.drop l.cap
    if old.boxBusy then { l with queue := keep, cvq := rest, pipe := pre } else { l with queue := keep, cvq := [], pipe := rest ++ pre }

/-- The links of a layout at an origin. -/
def linksAt (rg : Region) (org : Pos) : List Link := rg.links.map (rerouteLink rg org)

/-! ### What a placement asks for (R330, R331, R376) -/

/-- The cells that the copies and folds of layouts stand in, from an origin, are free. -/
def copiesFree (s : State) (r : RegId) (lays : List NodeLayout) (p : Pos) : Bool :=
  (lays.filter (·.moved)).all fun l => l.copies.all fun c =>
    let x := (p.x : Int) + c.1.dx
    let y := (p.y : Int) + c.1.dy
    decide (0 ≤ x) && decide (x < 128) && decide (0 ≤ y) && decide (y < 112) &&
      inGroup s (partAt s r.seq.part).plgrp x.toNat y.toNat 1 1 && rectFree s r x.toNat y.toNat 1 1

/-- A rectangle at an origin lies in the grid and in the group, off the hard columns that HNONE rules out (R330). -/
def originInGroup (s : State) (r : RegId) (x : SectInfo) (w h : Nat) (p : Pos) : Bool :=
  inGroup s (partAt s r.seq.part).plgrp p.x p.y w h && decide (p.x + w ≤ 128) && decide (p.y + h ≤ 112) &&
    !(x.hnone && decide (6 < p.x % 8 + x.w - 1))

/-- The bridge circuits that links take at an origin. -/
def usesAt (s : State) (r : RegId) (x : SectInfo) (links : Pos → List Link) (p : Pos) : List BridgeUse :=
  bridgeUses s (regionAtOrigin r x p 0 0 false) (links p)

/-- The Slaundene ports of a section's circuits belong to partitions of the group: port 2d + h to half h of die d (Table 19-1). -/
def portsOwned (s : State) (r : RegId) (x : SectInfo) : Bool :=
  x.farEnds.all fun f => (ownerOf s (f.port / 2) (f.port % 2)).any fun p => (partAt s r.seq.part).plgrp.getLsbD p

/-- An origin is legal now, for a rectangle with headroom, the layouts that come back there and the links that are laid. -/
def originLegal (s : State) (r : RegId) (x : SectInfo) (w h : Nat) (lays : List NodeLayout) (links : Pos → List Link) (p : Pos) : Bool :=
  originInGroup s r x w h p && portsOwned s r x && rectFree s r p.x p.y w h && copiesFree s r lays p && bridgeFits s (usesAt s r x links p) (holders s r)

/-- First fit in two passes (R331): the origin, and whether the headroom is held softly. -/
def firstFit (s : State) (r : RegId) (x : SectInfo) (hw hh : Nat) (lays : List NodeLayout) (links : Pos → List Link) : Option (Pos × Bool) :=
  match (if hw + hh = 0 then none else (originsOf x).find? (originLegal s r x (x.w + hw) (x.h + hh) lays links)) with
  | some p => some (p, false)
  | none => ((originsOf x).find? (originLegal s r x x.w x.h lays links)).map fun p => (p, true)

/-- Some origin would be legal with every other region removed (R332). -/
def everLegal (s : State) (r : RegId) (x : SectInfo) (lays : List NodeLayout) (links : Pos → List Link) : Bool :=
  (originsOf x).any (originLegal { s with regions := [], scrubbing := [] } r x x.w x.h lays links)

/-- The charge of R333. -/
def chargeOf (mode : Word) (npos : Nat) : Nat := (bitsOf mode.toNat 6 3 + 1) * ((npos + 15) / 16)

/-- A mode word is illegal (R20). -/
def modeIllegal (m : Word) : Bool :=
  let v := m.toNat
  bitsOf v 20 12 != 0 || (decide (1 ≤ hangBits v) && decide (hangBits v ≤ 9)) || decide (10 < bitsOf v 14 4)

/-! ### The waiting entries (R334) -/

/-- An entry that waits for admission and placement. -/
structure Waiting where
  c : SeqId
  k : Nat
  e : ArmEntry
  deriving DecidableEq, Repr, Inhabited

/-- The context of a key. -/
def seqOfKey (k : Nat) : SeqId := ⟨k / 32, k % 32⟩

/-- T_age in cycles. -/
def tAgeOf (p : Part) : Nat := p.tAge.toNat * cyclesPerUs

/-- Levels gained after a wait. -/
def levelsAt (tAge waited : Nat) : Nat := if tAge = 0 then 0 else waited / tAge

/-- Effective priority. -/
def ArmEntry.eff (e : ArmEntry) : Nat := min 3 (e.prio + e.raised)

/-- The waiting entries of the contexts of a section list. -/
def waitingOf (c : SeqId) (q : Seq) : List Waiting :=
  (List.range q.sects.length).filterMap fun k =>
    let x := sectAt q k
    match x.armq with
    | [] => none
    | e :: _ => if x.placed || x.armed then none else some { c := c, k := k, e := e }

/-- Ahead in the order of admission: effective priority, age, context, section. -/
def Waiting.ahead (a b : Waiting) : Bool :=
  if a.e.eff ≠ b.e.eff then decide (b.e.eff < a.e.eff)
  else if a.e.age ≠ b.e.age then decide (a.e.age < b.e.age)
  else if seqKey a.c ≠ seqKey b.c then decide (seqKey a.c < seqKey b.c)
  else decide (a.k < b.k)

def insertWaiting (a : Waiting) : List Waiting → List Waiting
  | [] => [a]
  | b :: t => if a.ahead b then a :: b :: t else b :: insertWaiting a t

/-- The waiting entries of the partitions of a group, in order. -/
def waitingIn (s : State) (group : BitVec 8) : List Waiting :=
  ((s.seqs.map fun x => if group.getLsbD (x.1 / 32) then waitingOf (seqOfKey x.1) x.2 else []).flatten).foldr insertWaiting []

/-- An entry's levels brought up to date, for the time that it has waited (log 149). -/
def ageEntry (s : State) (w : Waiting) : State :=
  modHead s w.c w.k fun e => { e with raised := levelsAt (tAgeOf (partAt s w.c.part)) (s.cycle.toNat - e.since) }

/-- ENTRY_AGING (R334): the k-th waiting entry of a partition's group is raised for the T_age it has waited. -/
def execEntryAging (part k : Nat) (s : State) : Host.Outcome State Fault Refusal :=
  match (waitingIn s (partAt s part).plgrp)[k]? with
  | none => .next s
  | some w => .next (ageEntry s w)

/-- A context in RUN that has not issued for T_age (R335). -/
def execContextAging (c : SeqId) (s : State) : Host.Outcome State Fault Refusal :=
  let q := seqAt s c
  let t := tAgeOf (partAt s c.part)
  if q.st == .run && t != 0 && decide (t ≤ s.cycle.toNat - q.lastIssue) then .next (setSeq s c { q with raised := true }) else .next s

/-! ### Ending and placing an entry -/

/-- The head entry ends without being armed (R296, R332, R333); with a saved invocation its save goes. -/
def rejectEntry (s : State) (c : SeqId) (k stage : Nat) (err : Option LoadErr) : State :=
  let q := seqAt s c
  let x := sectAt q k
  match x.armq with
  | [] => s
  | e :: t =>
    let x1 := { endStatus x.dropSaved { rejectStatus stage with no := e.no } with armq := t, placed := false, charge := 0 }
    let q1 := match err with
      | some y => { q with errNo := y.number, errStage := stage }
      | none => q
    pruneWatch (setSeq (dropSave s ⟨c, k⟩) c (setSect q1 k x1)) c.part

/-- The entry is admitted: its charge is taken. -/
def takeIn (s : State) (c : SeqId) (k charge : Nat) : State :=
  let p := partAt s c.part
  let q := seqAt s c
  setSeq (setPart s c.part { p with pwuse := p.pwuse + charge }) c (setSect q k { sectAt q k with placed := true, charge := charge })

/-- The idle regions that a rectangle takes the place of go. -/
def clearRect (s : State) (r : RegId) (x y w h : Nat) : State :=
  ((s.regions.filter fun g => g.id != r && idleRegion s g && g.meets x y w h).map (·.id)).foldl freeRegion s

/-- The idle regions that stand where copies and folds come back go. -/
def clearCopies (s : State) (r : RegId) (lays : List NodeLayout) (p : Pos) : State :=
  (lays.filter (·.moved)).foldl (fun t l => l.copies.foldl (fun u c =>
    clearRect u r ((p.x : Int) + c.1.dx).toNat ((p.y : Int) + c.1.dy).toNat 1 1) t) s

/-- The streams behind an image's own, and whether each is tested as it is installed: an untested one is (R301). -/
def moreStreams (s : State) (c : SeqId) : List (Nat × Bool) → Except (Miss × Nat) (List (Bool × List Word))
  | [] => .ok []
  | (va, tested) :: t =>
    match readStream s c vaLines va with
    | .error m => .error m
    | .ok ws =>
      match moreStreams s c t with
      | .error m => .error m
      | .ok l => .ok ((!tested, ws) :: l)

/-- Count what was read of streams (R51). -/
def countStreams (s : State) (c : SeqId) (vas : List (Nat × Bool)) (l : List (Bool × List Word)) : State :=
  (vas.zip l).foldl (fun t x => countBytes t c x.1.1 (4 * x.2.2.length)) s

/-- The layout that a section comes back with: that of its LV, but for a CFGS that takes it back to the written one (R325, R408). -/
def SectCtx.comesBack (x : SectCtx) : Option Region := if x.streams.any (fun y => !y.2) then none else x.kept

/-- A placed region whose stream is about to be fed; it has the layouts that come back. -/
def placedRegion (s : State) (r : RegId) (x : SectInfo) (org : Pos) (hw hh : Nat) (soft : Bool) (charge : Nat)
    (more : List (Bool × List Word)) (lays : List NodeLayout) (us : List BridgeUse) : Region :=
  { regionAtOrigin r x org hw hh soft with
    placedAt := s.cycle.toNat, charge := charge, layouts := lays, uses := us,
    feed := some { for_ := .install, words := placeWords x.cph x.rph org x.stream,
                   more := more.map fun y => (y.1, placeWords x.cph x.rph org y.2), complete := true, plane := [] } }

/-- The place that a saved region comes back to: its state stands in the section context until INVOCATION_RESUME. -/
def returningRegion (s : State) (rg : Region) (org : Pos) (soft : Bool) (charge : Nat) (us : List BridgeUse) : Region :=
  { id := rg.id, org := org, w := rg.w, h := rg.h, hw := rg.hw, hh := rg.hh, soft := soft, placedAt := s.cycle.toNat, charge := charge,
    layouts := rg.layouts, uses := us }

/-- A notice of one of a region's elements is still outstanding (R49). -/
def noticeOut (s : State) (r : RegId) : Bool :=
  (partAt s r.seq.part).notices.any fun n => match n.waiter with | .slot r1 _ _ | .hit r1 => r1 == r | _ => false

/-- A saved region that a fault drain parked waits for its RESUME (R49). -/
def parked (s : State) (rg : Region) : Bool := rg.cut.any (fun c => c.forDrain) && noticeOut s rg.id

/-- What came of trying an entry. -/
inductive Tried where
  | done (s : State)
  | waits

/-- A region stands at a place: the idle regions there, and those whose bridge circuits leave it no room, are gone (R331, R376). -/
def standAt (s : State) (r : RegId) (g : Region) : State :=
  let s1 := clearRect s r g.org.x g.org.y (if g.soft then g.w else g.w + g.hw) (if g.soft then g.h else g.h + g.hh)
  let s2 := clearUses (clearCopies s1 r g.layouts g.org) r g.uses
  { s2 with regions := s2.regions ++ [g] }

/-- What an entry asks of a place: headroom, the layouts that come back, and the links it lays at an origin (R331, R344, R408). `more` are
the words of the streams behind its image's own. -/
def entryAsks (s : State) (w : Waiting) (more : List (List Word)) : Nat × Nat × List NodeLayout × (Pos → List Link) :=
  let q := seqAt s w.c
  let x := sectAt q w.k
  let i := sectInfo q w.k
  let big := decide (2 ≤ bitsOf w.e.mode.toNat 1 2)
  match x.saved, x.comesBack with
  | some rg, _ => (rg.hw, rg.hh, rg.layouts, linksAt rg)
  | none, some k => (if big then i.hw else 0, if big then i.hh else 0, k.layouts, linksAt k)
  | none, none =>
    (if big then i.hw else 0, if big then i.hh else 0, [], fun p => dryLinks (regionAtOrigin ⟨w.c, w.k⟩ i p 0 0 false) i more)

/-- Place an entry at the origin found for it: a saved invocation comes back (R344), any other is to be installed (R330 to R332). -/
def placeAt (s : State) (w : Waiting) (charge : Nat) (more : List (Bool × List Word)) (at_ : Pos × Bool) : State :=
  let q := seqAt s w.c
  let x := sectAt q w.k
  let i := sectInfo q w.k
  let r : RegId := ⟨w.c, w.k⟩
  let asks := entryAsks s w (more.map (·.2))
  let us := usesAt s r i asks.2.2.2 at_.1
  match x.saved with
  | some rg => takeIn (standAt s r (returningRegion s rg at_.1 at_.2 charge us)) w.c w.k charge
  | none =>
    let s1 := countStreams (dropFar s w.c) w.c x.streams more
    takeIn (standAt s1 r (placedRegion s r i at_.1 asks.1 asks.2.1 at_.2 charge more asks.2.2.1 us)) w.c w.k charge

/-- The streams behind its image's own that an entry is installed with. -/
def entryStreams (s : State) (w : Waiting) : Except (Miss × Nat) (List (Bool × List Word)) :=
  let x := sectAt (seqAt s w.c) w.k
  if x.saved.isSome then .ok [] else moreStreams s w.c x.streams

/-- A region that its section's next entry is armed in, where it stands: its bridge circuits have room, and its headroom follows REB. Where
it had none, what is free of it is held softly (R331). -/
def keepPlace (s : State) (w : Waiting) (rg : Region) (charge : Nat) : Tried :=
  let i := sectInfo (seqAt s w.c) w.k
  let big := decide (2 ≤ bitsOf w.e.mode.toNat 1 2)
  let none_ := decide (rg.hw + rg.hh = 0)
  if rg.installed && rg.frozen.isNone && rg.inv.isNone && rg.cut.isNone && rg.lvDue.isNone && bridgeFits s rg.uses (holders s rg.id) then
    .done (takeIn (setRegion s { rg with charge := charge, hw := if big then i.hw else 0, hh := if big then i.hh else 0,
                                         soft := rg.soft || none_ }) w.c w.k charge)
  else .waits

/-- The number of positions that the entry's section installs: its region's, when it has one. -/
def nposOf (s : State) (w : Waiting) : Nat :=
  let x := sectAt (seqAt s w.c) w.k
  match x.saved, regionAt s ⟨w.c, w.k⟩ with
  | some rg, _ => positionsOf rg rg.plane
  | none, some rg => positionsOf rg rg.plane
  | none, none => (sectInfo (seqAt s w.c) w.k).npos

/-- Place an entry that has no region: one for which no origin is ever legal ends (R332), any other waits for an origin and for its
budget. -/
def placeEntry (s : State) (w : Waiting) (charge : Nat) : Tried :=
  let r : RegId := ⟨w.c, w.k⟩
  let i := sectInfo (seqAt s w.c) w.k
  match entryStreams s w with
  | .error m => .done (seqMiss s w.c m)
  | .ok more =>
    let asks := entryAsks s w (more.map (·.2))
    match firstFit s r i asks.1 asks.2.1 asks.2.2.1 asks.2.2.2 with
    | none => if everLegal s r i asks.2.2.1 asks.2.2.2 then .waits else .done (rejectEntry s w.c w.k 3 none)
    | some p => if (partAt s w.c.part).pwbud < (partAt s w.c.part).pwuse + charge then .waits else .done (placeAt s w charge more p)

/-- Try one waiting entry: the checks that end it, admission, then its place. -/
def tryEntry (s : State) (w : Waiting) : Tried :=
  let x := sectAt (seqAt s w.c) w.k
  let p := partAt s w.c.part
  let charge := chargeOf w.e.mode (nposOf s w)
  if !w.e.resumed && (w.e.modeBad || modeIllegal w.e.mode) then .done (rejectEntry s w.c w.k 1 (some .illegalModeWord))
  else if p.pwbud < charge then .done (rejectEntry s w.c w.k 3 none)
  else
    match regionAt s ⟨w.c, w.k⟩ with
    | some rg => if p.pwbud < p.pwuse + charge then .waits else keepPlace s w rg charge
    | none => if x.saved.any (parked s) then .waits else placeEntry s w charge

/-- The entry has waited at effective priority 3 for more than 2 T_age: no younger one is placed past it. -/
def stopsOthers (s : State) (w : Waiting) : Bool :=
  let t := tAgeOf (partAt s w.c.part)
  let waited := s.cycle.toNat - w.e.since
  t != 0 && w.e.eff == 3 && decide (2 * t < waited - (3 - w.e.prio) * t)

/-- The loop of R334 over the entries in order. -/
def serve (s : State) : List Waiting → State
  | [] => s
  | w :: t =>
    match tryEntry s w with
    | .done s1 => serve s1 t
    | .waits => if stopsOthers s w then s else serve s t

/-- The allocator: the entries' levels are brought up to date, then each is tried in order (R334). -/
def allocate (s : State) (part : Nat) : State :=
  let g := (partAt s part).plgrp
  let s1 := (waitingIn s g).foldl ageEntry s
  serve s1 (waitingIn s1 g)

def execAllocatorRun (part : Nat) (s : State) : Host.Outcome State Fault Refusal := .next (allocate s part)

/-- PWBUD (R333, Table 16-1): the budget is written, and the allocator runs. -/
def execPwbudWrite (part : Nat) (v : BitVec 64) (s : State) : Host.Outcome State Fault Refusal :=
  .next (allocate (setPart s part { partAt s part with pwbud := bitsOf v.toNat 0 16 }) part)

/-! ### Windows (R345) -/

/-- Write a leaf of the window table. -/
def writeLeaf (s : State) (part ptea : Nat) (e : Nat) : State :=
  devWrite s (partBinding s part) (dramKey (partDie part) ptea) (bytesOfNat 8 e) false

/-- The entries of a section whose offset lies in its region. -/
def windowsOf (s : State) (rg : Region) : List WinEntry :=
  (winOf s rg.id).filter fun w => w.counts s rg

/-- FRAME of a cell (Table 3-4). -/
def frameOf (p : Pos) : Nat := dieOf p * 2 ^ 32 + p.x % 64 * 2 ^ 24 + p.y % 56 * 2 ^ 16

/-- KIND 00 in every leaf of a section's windows, and their translations invalidated. -/
def windowsGone (s : State) (rg : Region) : State :=
  (windowsOf s rg).foldl (fun t w =>
    let e := readLeaf t rg.id.seq.part w.ptea
    invalidate (writeLeaf t rg.id.seq.part w.ptea (e % 2 ^ 62)) rg.id.seq.part (w.wva / 2 ^ 16 * 2 ^ 16) 1) s

/-- FRAME at the region's place and KIND 10; RESUMEs that waited for a window take effect. -/
def windowsBack (s : State) (rg : Region) : State :=
  let part := rg.id.seq.part
  let s1 := (windowsOf s rg).foldl (fun t w =>
    let e := readLeaf t part w.ptea
    let e1 := 2 ^ 63 + e % 2 ^ 62 / 2 ^ 48 * 2 ^ 48 + frameOf (rg.posOf w.off) + e % 2 ^ 16
    invalidate (writeLeaf t part w.ptea e1) part (w.wva / 2 ^ 16 * 2 ^ 16) 1) s
  let p := partAt s1 part
  let back := p.notices.filter fun n => n.resumed && !winSaved s1 part n.fva
  let s2 := setPart s1 part { p with notices := p.notices.filter fun n => !back.contains n }
  back.foldl (fun t n => leavePlace (goOn t n.waiter) n.waiter) s2

/-! ### CONFIG_INSTALL (R28, R301, R408) -/

/-- A node that was moved takes its state along: copies have copy 0's registers, a folded node its own. -/
def comeBackNode (rg : Region) (l : NodeLayout) : Region :=
  let x := ctxAt (cellAt rg l.home.1) l.home.2
  if l.folded then (rg.putCtx l.home {}).putCtx l.at_ x else (l.copies.drop 1).foldl (fun r c => r.putCtx c (copyState x)) rg

/-- An installed region takes back the layout of its LV, at its origin (R408). -/
def comeBack (s : State) (rg k : Region) : Region :=
  let lays := k.layouts.map NodeLayout.restart
  let r1 : Region := { rg with plane := exchPlane k rg.org k.plane, links := numberCircuits s rg.id (linksAt k rg.org), layouts := lays }
  (lays.filter (·.moved)).foldl comeBackNode r1

/-- The plane of an install goes live; the section's place has its pools and its bridge circuits. -/
def goLive (s : State) (rg : Region) (f : Feed) (ls : List Link) : State :=
  let x := sectAt (seqAt s rg.id.seq) rg.id.sect
  let rg1 := installPlane rg f (numberCircuits s rg.id ls) (writtenLayouts rg f.plane)
  let rg2 := match x.comesBack with
    | some k => comeBack s rg1 k
    | none => rg1
  let us := bridgeUses s rg2 rg2.links
  let (s1, rg3) := takePools s { rg2 with uses := us }
  clearUses (setRegion s1 rg3) rg.id us

/-- The section's side of an install: its streams are tested and its layout stands. Where a CFGS took it back to the written layout, LV
moves on (R325). -/
def installDone (s : State) (r : RegId) : State :=
  let q := seqAt s r.seq
  let x := sectAt q r.sect
  let lays := ((regionAt s r).map (·.layouts)).getD []
  let s1 := setSeq s r.seq (setSect q r.sect { x with layouts := lays, kept := none, streams := x.streams.map fun y => (y.1, true) })
  if x.kept.isSome && x.comesBack.isNone then newLayout s1 r lays else s1

/-- The install stream has been fed: an error rejects the entry with stage 2; else the plane goes live. -/
def execConfigInstall (r : RegId) (s : State) : Host.Outcome State Fault Refusal :=
  match regionAt s r with
  | none => .next s
  | some rg =>
    match rg.feed with
    | none => .next s
    | some f =>
      if !f.closed || f.for_ != .install then .next s
      else
        let q := seqAt s r.seq
        let x := sectAt q r.sect
        let reject (e : LoadErr) : State :=
          let s1 := freeRegion s r
          rejectEntry (setSeq s1 r.seq (setSect q r.sect { x with streams := x.streams.filter (·.2) })) r.seq r.sect 2 (some e)
        match f.err, linksOf rg f.plane with
        | some e, _ => .next (reject e)
        | none, .error e => .next (reject e)
        | none, .ok ls =>
          let s1 := installDone (goLive s rg f ls) r
          .next (windowsBack s1 ((regionAt s1 r).getD rg))

/-! ### The controller tree (R286) -/

/-- Ancestors from a controller up; fuel bounds the tree. -/
def ancestors (i : Image) : Nat → Nat → List Nat
  | 0, _ => []
  | f + 1, c => if c = rootIx then [] else c :: ancestors i f (i.parents.getD c rootIx)

/-- The path of a section: its controllers from its parent up. -/
def treePath (i : Image) (k : Nat) : List Nat := ancestors i (i.kinds.length + 1) (i.sectParents.getD k rootIx)

/-- The child of ancestor a on the path of a section: a controller, or the section itself. -/
def childUnder (i : Image) (k a : Nat) : Option (Bool × Nat) :=
  let path := treePath i k
  match path.findIdx? fun x => x == a with
  | none => none
  | some 0 => some (true, k)
  | some (j + 1) => some (false, path.getD j 0)

/-- No section in another child subtree of a SEQ ancestor has an invocation armed. -/
def seqFree (q : Seq) (i : Image) (k : Nat) : Bool :=
  (treePath i k).all fun a => i.kinds.getD a 0 != 0 ||
    (List.range q.sects.length).all fun t =>
      !(sectAt q t).armed || (childUnder i t a).isNone || childUnder i t a == childUnder i k a

/-- The sections that leave their queues together: those of a STREAM parent, or the section alone. -/
def armGroup (q : Seq) (i : Image) (k : Nat) : List Nat :=
  match i.sectParents.getD k rootIx with
  | p => if p ≠ rootIx ∧ i.kinds.getD p 0 = 2 then (List.range q.sects.length).filter fun t => i.sectParents.getD t rootIx == p else [k]

/-! ### Arming (R296) -/

/-- A section whose head entry can be armed: placed, installed, the previous invocation retired. -/
def armable (s : State) (c : SeqId) (k : Nat) : Bool :=
  let x := sectAt (seqAt s c) k
  x.placed && !x.armed && x.armq.head?.any (fun e => !e.resumed) &&
    (regionAt s ⟨c, k⟩).any fun rg =>
      rg.running && rg.inv.isNone && rg.feed.all (fun f => f.for_ == .load) && rg.drain.isNone && rg.cut.isNone && rg.lvDue.isNone

/-- K in the local registers of context 0. -/
def putConsts (k : Option (List Word)) (x : CtxState) : CtxState :=
  match k with
  | none => x
  | some ws => { x with lregs := (List.range 8).map fun j => ws.getD j 0, lpois := 0 }

/-- A context at ARM: operation state and rounds start afresh. -/
def armCtx (k : Option (List Word)) (n : Nat) (x : CtxState) : CtxState :=
  let y := { x with op := {}, fires := 0, repFires := 0 }
  if n = 0 then putConsts k y else y

/-- A cell at ARM. -/
def armCell (k : Option (List Word)) (c : Cell) : Cell := { c with ctxs := (List.range 4).map fun n => armCtx k n (ctxAt c n) }

/-- A link at ARM. -/
def armLink (l : Link) : Link :=
  { l with round := 0, eoi := false, lastCoord := none, tokens := 0, stall := 0, repTokens := 0, repStall := 0, blocked := false }

/-- Chunks of the carve-out: the image gives the largest size, and the record trims it (R116, R168). -/
def carveOf (rg : Region) (largest spill : Nat) : Nat :=
  min (min largest spill) (((cellsOf rg rg.plane).map fun o => ((List.range 8).map fun n =>
    let d := segDesc rg.plane o n
    if d.typ = 5 then d.size / 64 else 0).foldl (· + ·) 0).foldl (· + ·) 0)

/-- The prefix of Table 18-1. -/
def purePrefix (s : State) (r : RegId) (q : Seq) (e : ArmEntry) (p : PureInv) : List Byte :=
  let tenant := ((partSlot s r.seq.part).map (·.tenant)).getD (List.replicate 16 0)
  let digest := (q.image.map (·.digest)).getD []
  tenant ++ digest ++ (match e.consts with | some ws => (ws.map fun w => bytesOfNat 4 w.toNat).flatten | none => List.replicate 32 0) ++
    bytesOfNat 4 e.tiles ++ bytesOfNat 2 r.sect ++ [BitVec.ofNat 8 p.args.length, BitVec.ofNat 8 p.res.length] ++
    ((List.range 4).map fun i => bytesOfNat 8 ((p.res[i]?.map (·.2)).getD 0)).flatten

/-- SPs by dy and then dx; the first is the one that stages (R364). -/
def firstSp (rg : Region) : Option Offset :=
  (rg.sps.map (·.off)).foldl (fun m o => match m with
    | none => some o
    | some p => if o.dy < p.dy ∨ (o.dy = p.dy ∧ o.dx < p.dx) then some o else some p) none

/-- Digest context 0 of the first SP opened with the prefix. -/
def openDigest (rg : Region) (bs : List Byte) : Region :=
  match firstSp rg with
  | none => rg
  | some o => { rg with sps := rg.sps.map fun x =>
      if x.off == o then { x with digs := lmod x.digs 0 fun _ => { isOpen := true, bytes := bs, count := 0 } } else x }

/-- One section is armed. -/
def armOne (s : State) (c : SeqId) (k : Nat) : State :=
  let q := seqAt s c
  let x := sectAt q k
  match x.armq, regionAt s ⟨c, k⟩ with
  | e :: t, some rg =>
    let rg1 : Region :=
      { rg with
        inv := some { entry := e, armedAt := s.cycle.toNat, windowStart := s.cycle.toNat }, hang := 0, halted := [], detected := none, more := false,
        cells := rg.cells.map fun y => (y.1, armCell e.consts y.2), links := rg.links.map armLink,
        sps := rg.sps.map fun x => { x with sides := List.replicate 4 {} },
        layouts := rg.layouts.map NodeLayout.restart,
        mes := rg.mes.map fun m => { m with counters := List.replicate 5 0, round := 0 },
        carve := carveOf rg (((q.image.bind fun i => i.sects[k]?).map (·.spill)).getD 0) q.spill, ovfVa := q.ovfVa, ovfLen := q.ovfLen }
    let rg2 := match e.pureInv with
      | some p => openDigest rg1 (purePrefix s rg.id q e p)
      | none => rg1
    setSeq (setRegion s rg2) c (setSect q k { x with armq := t, placed := false, armed := true })
  | _, _ => s

/-- Some layout of a region is to go before its next entry is armed, under DET (R322). -/
def detDue (s : State) (c : SeqId) (k : Nat) : Bool :=
  (sectAt (seqAt s c) k).armq.head?.any fun e => bitsOf e.mode.toNat 0 1 == 1 && (regionAt s ⟨c, k⟩).any fun rg => (detLayouts rg).2

/-- The accumulators that DET keeps whole stand in their written layout: a commit ahead of the ARM (R322, R324, log 128). -/
def detCommit (s : State) (c : SeqId) (k : Nat) : State :=
  match regionAt s ⟨c, k⟩ with
  | some rg =>
    let rg1 := (detLayouts rg).1
    let p := partAt s c.part
    newLayout (setPart (setRegion s rg1) c.part { p with rbCommits := p.rbCommits + 1 }) ⟨c, k⟩ rg1.layouts
  | none => s

/-- INVOCATION_ARM (R286, R296): the entry leaves its queue and its invocation is armed; the sections of a STREAM parent leave
together, and unequal tile counts fault SEQ 0x03. Where DET takes layouts back first, the event that follows arms. -/
def execInvocationArm (c : SeqId) (k : Nat) (s : State) : Host.Outcome State Fault Refusal :=
  let q := seqAt s c
  match q.image with
  | none => .next s
  | some i =>
    let g := armGroup q i k
    let heads := g.map fun t => (sectAt q t).armq.head?
    if heads.any Option.isNone then .next s
    else
      let tiles := heads.map fun h => (h.map (·.tiles)).getD 0
      if tiles.any fun t => t != tiles.headD 0 then
        (if q.st == .parkfault then .next s else .next (parkSeq s c clsSeq 0x03))
      else if !g.all (fun t => armable s c t && seqFree q i t) then .next s
      else if g.any (detDue s c) then .next ((g.filter (detDue s c)).foldl (fun t j => detCommit t c j) s)
      else .next (g.foldl (fun t j => armOne t c j) s)

end Sys2Proof.Machine
end

