-- ==== Sys2Proof/Machine/Preempt.lean ====
section
/-! DEFINITION. Pre-emption (R338 to R346): requests for a cut, the cut, a forced freeze, the save, fault drains (R49, R342) and
the resume of a saved invocation (R344). -/

namespace Sys2Proof.Machine

/-! ### The save area (R341) -/

/-- Bytes that a save may take: segments and 2 KiB for each cell, 256 KiB for each ME, 64 KiB for each SP. -/
def saveBytes (rg : Region) : Nat :=
  ((cellsOf rg rg.plane).map fun o => 2048 + ((List.range 8).map fun n =>
    let d := segDesc rg.plane o n
    if d.typ = 0 then 0 else 32 * d.size).foldl (· + ·) 0).foldl (· + ·) 0 + 2 ^ 18 * rg.mes.length + 2 ^ 16 * rg.sps.length

def saveUnits (rg : Region) : Nat := (saveBytes rg + 4095) / 4096

/-- First fit in the save area: the first unit at which n units lie free. -/
def saveFit (p : Part) (n : Nat) : Option Nat :=
  let ends := 0 :: p.saves.map fun x => x.first + x.units
  let ok (a : Nat) : Bool := decide (a + n ≤ p.cksize.toNat) && p.saves.all fun x => decide (a + n ≤ x.first) || decide (x.first + x.units ≤ a)
  (ends.filter ok).foldl (fun m a => match m with | none => some a | some b => some (min a b)) none

/-- The VA of a save. -/
def saveVa (p : Part) (x : SaveArea) : Nat := vaAdd p.ckbase (4096 * x.first)

/-- What a save writes (log 17). -/
def saveImage (x : SaveArea) : List Byte := (List.range (4096 * x.units)).map (Config.saveByte x.tick)

/-- The save of a region. -/
def saveOf (s : State) (r : RegId) : Option SaveArea := (partAt s r.seq.part).saves.find? fun x => x.reg == r

/-- The check of a save holds: its bytes are as they were written, under a key slot that has not been revoked since (R379). -/
def saveIntact (s : State) (r : RegId) : Bool :=
  match saveOf s r with
  | none => false
  | some x =>
    match immRead s r.seq.part (saveVa (partAt s r.seq.part) x) (4096 * x.units) with
    | .ok bs => !x.revoked && bs == saveImage x
    | .error _ => false

/-! ### Starting a cut (R339) -/

/-- The largest open round of the nodes of a region. -/
def openRound (rg : Region) : Nat :=
  ((rg.cells.map fun x => (x.2.ctxs.map fun c => c.op.round).foldl max 0).foldl max 0)

/-- The cut of a region becomes a forced freeze, which counts (R340). -/
def forceCut (s0 : State) (r : RegId) : State :=
  let s := recallAll s0 r
  match regionAt s r with
  | none => s
  | some rg =>
    let p := partAt s r.seq.part
    setRegion (setPart s r.seq.part { p with preFreezes := p.preFreezes + 1 }) { rg with cut := rg.cut.map fun c => { c with forced := true } }

/-- CKP is delivered: the sources stop; a commit not yet at step 4 yields, and the tests start again (R325). With a T_cut of 0 the region
is frozen at once (Table 16-1, R426). -/
def startCut (s : State) (rg : Region) (forDrain inPlace : Bool) : State :=
  let s1 := setRegion s { rg with
    cut := some { round := openRound rg, forDrain := forDrain, start := s.cycle.toNat, inPlace := inPlace }, commit := none,
    layouts := if rg.commit.isSome then rg.layouts.map NodeLayout.restart else rg.layouts,
    links := if rg.lvDue.isSome then rg.links else rg.links.map Link.unheld }
  if !inPlace && (partAt s rg.id.seq.part).cutlim == 0 then forceCut s1 rg.id else s1

/-- Take room in the save area and start the cut; none: there is no room. -/
def tryCut (s : State) (rg : Region) (forDrain : Bool) : Option State :=
  let p := partAt s rg.id.seq.part
  let n := saveUnits rg
  match saveFit p n with
  | none => none
  | some a =>
    some (startCut (setPart s rg.id.seq.part { p with saves := p.saves ++ [{ reg := rg.id, first := a, units := n, tick := s.tick }] }) rg forDrain false)

/-- PRESTAT counts a refused request (R342). -/
def countRefused (s : State) (part : Nat) : State := setPart s part { partAt s part with preRefused := (partAt s part).preRefused + 1 }

/-- A host's request for a cut of a region (R338): one cut serves it and any other (R346); a fault that the region is freezing for wins;
a region that runs no invocation gives up its place, and one for which the save area has no room runs on (R342). -/
def hostCut (s s0 : State) (part : Nat) (rg : Region) : State :=
  let r := rg.id
  if rg.cut.any fun c => !c.inPlace then s
  else if rg.frozen.isSome || rg.detected.isSome then s0
  else if rg.inv.isNone then (if (sectAt (seqAt s0 r.seq) r.sect).placed then abandonPlace s0 r else s0)
  else
    match tryCut s0 rg (rg.cut.any (·.forDrain)) with
    | none => countRefused s0 part
    | some s1 => setPart s1 part { partAt s1 part with preBusy := true, preFor := some r }

/-- PRECTL (R337, R338): the section is named, and GO asks for its cut. A GO while BUSY is ignored, and one for a section that is being
cut. -/
def execPrectlGo (part : Nat) (v : BitVec 64) (s : State) : Host.Outcome State Fault Refusal :=
  let p := partAt s part
  let s0 := setPart s part { p with preN := BitVec.ofNat 5 v.toNat, preS := BitVec.ofNat 16 (v.toNat / 2 ^ 16) }
  if !v.getLsbD 63 then .next s0
  else if p.preBusy then .next s
  else
    match regionAt s0 ⟨⟨part, v.toNat % 32⟩, v.toNat / 2 ^ 16 % 2 ^ 16⟩ with
    | none => .next s0
    | some rg => .next (hostCut s s0 part rg)

/-- Regions whose removal would let a waiting entry be placed: of its group, of lower PRIO, placed for 50 µs; one that is being cut
among them. -/
def cuttable (s : State) (w : Waiting) (group : BitVec 8) (rg : Region) : Bool :=
  group.getLsbD rg.id.seq.part && rg.frozen.isNone && rg.detected.isNone && rg.installed &&
    rg.inv.any (fun i => decide (i.entry.prio < 3)) && decide (50 * cyclesPerUs ≤ s.cycle.toNat - rg.placedAt) &&
    match tryEntry (freeRegion s rg.id) w with
    | .done _ => true
    | .waits => false

/-- The youngest by age. -/
def youngest (l : List Region) : Option Region :=
  let age (g : Region) : Nat := (g.inv.map fun i => i.entry.age).getD 0
  l.foldl (fun m g => match m with
    | none => some g
    | some h => if age h < age g then some g else some h) none

/-- SCHEDULER_PREEMPT (R338). Where the youngest region is being cut already, that cut serves. -/
def execSchedulerPreempt (part : Nat) (s : State) : Host.Outcome State Fault Refusal :=
  let p := partAt s part
  match waitingIn s p.plgrp with
  | [] => .next s
  | w :: _ =>
    if !p.pren || w.e.prio != 3 then .next s
    else
      match tryEntry s w with
      | .done _ => .next s
      | .waits =>
        match youngest (s.regions.filter (cuttable s w p.plgrp)) with
        | none => .next s
        | some rg =>
          if rg.cut.any fun c => !c.inPlace then .next s
          else
            match tryCut s rg (rg.cut.any (·.forDrain)) with
            | none => .next (countRefused s rg.id.seq.part)
            | some s1 => .next s1

/-- The region of a notice's element. -/
def noticeRegion (n : Notice) : Option RegId :=
  match n.waiter with
  | .slot r _ _ | .hit r | .ahead r _ => some r
  | .seq _ => none

/-- T_PF_EXPIRY (R49, R342): no RESUME has come in T_pf, and the region of the element drains to a cut. -/
def execTPfExpiry (part : Nat) (nseq : BitVec 32) (s : State) : Host.Outcome State Fault Refusal :=
  let p := partAt s part
  match p.notices.find? fun n => n.nseq == nseq with
  | none => .next s
  | some n =>
    if n.resumed || decide (s.cycle.toNat - n.since < p.pflim.toNat * cyclesPerUs) then .next s
    else
      match (noticeRegion n).bind (regionAt s) with
      | none => .next s
      | some rg =>
        if rg.frozen.isSome || rg.detected.isSome || rg.inv.isNone then .next s
        else
          match rg.cut with
          | some c => .next (setRegion s { rg with cut := some { c with forDrain := true } })
          | none =>
            match tryCut s rg true with
            | some s1 => .next s1
            | none => .next (startCut s rg true true)

/-! ### The cut completes (R339, R340) -/

/-- Accesses of a region that are on their way, those of its layout record among them. -/
def reqsLeft (s : State) (r : RegId) : Bool := s.reqs.any fun q => q.who.region == some r

/-- Accesses and bridge flits of a region that are on their way. -/
def regionBusy (s : State) (r : RegId) : Bool := reqsLeft s r || s.bridges.any fun b => b.retry.any fun f => f.reg == r

/-- Every node that reads a port has emitted round n's closing marker, and every engine has done what lies ahead of it. -/
def cutReached (rg : Region) (n : Nat) : Bool :=
  (rg.links.all fun l => !l.live || !l.dist.isEmpty || l.dst.hard || rg.pastCut l.dst.off l.dst.ctx n) &&
    rg.mes.all fun m =>
      (rg.links.all fun l => !l.live || !(l.dst.hard && l.dst.off == m.off) || l.eoi || decide (n < l.round)) &&
        m.queue.all fun e => decide (n < e.round)

/-- Buffer k of store n of a cell is one that staging writes. -/
def stagedBuffer (staged : List (Offset × Nat × Nat)) (o : Offset) (n k : Nat) : Bool :=
  staged.any fun x => x.1 == o && x.2.1 == n && decide (k < x.2.2)

/-- The beats of a bank that a save keeps (Table 16-2): scratch, memory tile, full and filling tile buffers, and those that the staging of
a pure invocation fills (R373). -/
def beatSaved (p : Plane) (staged : List (Offset × Nat × Nat)) (o : Offset) (c : Cell) (a : Nat) : Bool :=
  (List.range 8).any fun n =>
    let d := segDesc p o n
    let g := segAt c n
    let size := d.size / (d.param + 1)
    let k := (a - d.base) / size
    decide (d.base ≤ a) && decide (a < d.base + d.size) &&
      (d.typ == 3 || d.typ == 4 || (d.typ == 2 && (g.full.getD k false || (k == g.wp && g.fill != 0) || stagedBuffer staged o n k)))

/-- A cell as saved. -/
def savedCell (p : Plane) (staged : List (Offset × Nat × Nat)) (o : Offset) (c : Cell) : Cell :=
  { c with bank := c.bank.filter fun x => beatSaved p staged o c x.1, bpois := c.bpois.filter fun w => beatSaved p staged o c (w / 4),
           ctxs := c.ctxs.map fun x => { x with fires := 0, repFires := 0 } }

/-- A slot as saved: a walk is made again, and so are the reads of its chasers; a PREF's read-ahead is dropped (R76). -/
def savedSlot (x : Slot) : Slot :=
  let y := { x with walk := false, words := [], asked := [], fetched := [] }
  match x.spb with
  | .pref _ _ => { y with finished := true }
  | _ => y

/-- A port as saved: neither pool nor staging. -/
def savedSp (x : Sp) : Sp := { x with slots := x.slots.map fun y => y.map savedSlot, staging := [], stagePois := [], pool := [] }

/-- A link as saved: counters of the window afresh. -/
def savedLink (l : Link) : Link := { l with tokens := 0, stall := 0, repTokens := 0, repStall := 0, blocked := false }

/-- A region as saved. -/
def savedRegion (rg : Region) : Region :=
  { rg with
    feed := none, shadow := none, drain := none, commit := none, hang := 0, charge := 0,
    cells := rg.cells.map fun x => (x.1, savedCell rg.plane ((rg.pureInv.map (·.staged)).getD []) (keyOff x.1) x.2),
    links := rg.links.map savedLink, sps := rg.sps.map savedSp }

/-- The partition's side of a save: the charge returns, the area holds the tick, and PRESTAT counts a cut that was not forced. -/
def savedPart (p : Part) (rg : Region) (a : SaveArea) : Part :=
  { p with pwuse := p.pwuse - rg.charge, saves := p.saves.map fun x => if x.reg == rg.id then a else x,
           preCuts := if rg.cut.any (·.forced) then p.preCuts else p.preCuts + 1 }

/-- The section's side of a save: its entry waits again, at the front. -/
def savedSect (x : SectCtx) (rg : Region) (e : ArmEntry) : SectCtx :=
  { x with armq := { e with resumed := true } :: x.armq, armed := false, placed := false, charge := 0, saved := some (savedRegion rg) }

/-- The region is gone from the fabric, and its units' waiters from the walks. -/
def takeOut (s : State) (r : RegId) : State :=
  { s with
    regions := s.regions.filter fun g => g.id != r,
    walks := s.walks.map fun w => { w with waiters := w.waiters.filter fun y =>
      match y.who with | .slot r1 _ _ | .hit r1 | .ahead r1 _ => r1 != r | _ => true } }

/-- The save's writes: the partition, the image in memory, the section. -/
def saveWrites (s : State) (rg : Region) (e : ArmEntry) (a : SaveArea) : State :=
  let p := partAt s rg.id.seq.part
  let s1 := setPart s rg.id.seq.part (savedPart p rg a)
  let s2 := immWriteD s1 rg.id.seq.part (saveVa p a) (saveImage a)
  let q := seqAt s2 rg.id.seq
  setSeq s2 rg.id.seq (setSect q rg.id.sect (savedSect (sectAt q rg.id.sect) rg e))

/-- The region leaves its place for the save area (R339 steps 5 and 6); its notices stay. -/
def saveRegion (s0 : State) (r : RegId) : State :=
  let s := recallAll s0 r
  match regionAt s r with
  | none => s
  | some rg =>
    match rg.inv, saveOf s r with
    | some i, some a =>
      preDone (takeOut (saveWrites (windowsGone s rg) rg { i.entry with since := s.cycle.toNat } { a with tick := s.tick }) r) r
    | _, _ => s

/-- The cut is complete, or the region stands still by force, and its accesses have performed; no COPY or HASH stands within a granule (R76). -/
def cutDone (s : State) (rg : Region) (c : Cut) : Bool :=
  !c.inPlace && (c.forced || cutReached rg c.round) && !regionBusy s rg.id && rg.lvDue.isNone &&
    rg.sps.all fun x => x.busy.all fun y => !y.midGranule

/-- CUT_COMPLETE (R339). A fault that has been detected wins (R346). -/
def execCutComplete (r : RegId) (s : State) : Host.Outcome State Fault Refusal :=
  match regionAt s r with
  | none => .next s
  | some rg =>
    match rg.cut with
    | none => .next s
    | some c => if rg.frozen.isNone && rg.detected.isNone && cutDone s rg c then .next (saveRegion s r) else .next s

/-- T_CUT_EXPIRY (R340): the region is frozen by force; a cut that completes in this cycle counts as complete (R346). -/
def execTCutExpiry (r : RegId) (s : State) : Host.Outcome State Fault Refusal :=
  match regionAt s r with
  | none => .next s
  | some rg =>
    match rg.cut with
    | none => .next s
    | some c =>
      if rg.frozen.isSome || rg.detected.isSome || c.inPlace || c.forced || decide (s.cycle.toNat - c.start < (partAt s r.seq.part).cutlim.toNat * cyclesPerUs) then .next s
      else if cutDone s rg c then .next (saveRegion s r)
      else .next (forceCut s r)

/-! ### Resuming (R344) -/

/-- A withheld element whose notice has been answered translates again. -/
def freeSlots (s : State) (r : RegId) (x : Sp) : Sp :=
  let out (st : Nat) : Bool := (partAt s r.seq.part).notices.any fun n => n.waiter == .slot r x.off st
  { x with slots := x.slots.map fun y => y.map fun z => { z with withheld := z.withheld && out z.stamp } }

/-- A hit copy whose notice has been answered goes on too (R368). -/
def freeHit (s : State) (rg : Region) : Region :=
  rg.setPure fun p => { p with withheld := p.withheld && (partAt s rg.id.seq.part).notices.any fun n => n.waiter == .hit rg.id }

/-- The saved region at its new place. -/
def restoredRegion (s : State) (old place : Region) : Region :=
  freeHit s { old with
    org := place.org, farEnds := (farMoved old place.org).farEnds, soft := place.soft, placedAt := place.placedAt, charge := place.charge, cut := none,
    plane := exchPlane old place.org old.plane, links := numberCircuits s old.id (linksAt old place.org), uses := place.uses,
    sps := old.sps.map (freeSlots s old.id), inv := old.inv.map fun i => { i with windowStart := s.cycle.toNat },
    layouts := old.layouts.map NodeLayout.restart }

/-- INVOCATION_RESUME (R344): the saved state is restored at the place that the allocator gave; a save whose check fails
faults CFGSTREAM 0x40 (R342). -/
def execInvocationResume (c : SeqId) (k : Nat) (s : State) : Host.Outcome State Fault Refusal :=
  let r : RegId := ⟨c, k⟩
  let q := seqAt s c
  let x := sectAt q k
  match x.saved, regionAt s r, q.image with
  | some old, some place, some i =>
    if place.installed || !x.placed || !seqFree q i k then .next s
    else
      match linksOf (farMoved old place.org) (exchPlane old place.org (writtenPlane old)) with
      | .error _ => .next s
      | .ok _ =>
        let (s0, rg) := takePools s (restoredRegion s old place)
        let x1 := { x with armq := x.armq.drop 1, armed := true, placed := false, saved := none }
        let s1 := setSeq (setRegion s0 rg) c (setSect q k x1)
        if saveIntact s r then .next (windowsBack (dropSave s1 r) rg)
        else .next (faultRegion (dropSave s1 r) r (originFault clsCfg 0x40))
  | _, _, _ => .next s

end Sys2Proof.Machine
end

