-- ==== Sys2Proof/Machine/Agate.lean ====
section
/-! DEFINITION. The end of an invocation (R269, R298) and Agate, the reuse table (R363 to R374): the lookup and its hit copies, the
insert at retirement, flushes. -/

namespace Sys2Proof.Machine

/-! ### The table (R366, R367) -/

/-- The set of a key. -/
def agSet (key : List Byte) : Nat := (key.getD 0 0).toNat + 256 * ((key.getD 1 0).toNat % 4)

/-- The partition has ways and EN. -/
def Part.agate (p : Part) : Bool := p.agEn && p.agWays != 0

/-- The number of ways of a mask. -/
def ways (m : BitVec 16) : Nat := ((List.range 16).filter fun i => m.getLsbD i).length

/-- A valid entry of the same key slot and key. -/
def agFind (p : Part) (key : List Byte) : Option AgEntry := p.entries.find? fun e => e.key == key && p.slot == some e.slot

/-- Units of 4 KiB that results take. -/
def unitsOf (lens : List Nat) : Nat := (lens.foldl (· + ·) 0 + 4095) / 4096

/-- The units that an entry holds: the first one and their number. -/
def AgEntry.units (e : AgEntry) : Nat × Nat := (e.store, unitsOf e.lens)

/-- First fit in the reuse store, beside the units that are held. -/
def storeFit (size : Nat) (held : List (Nat × Nat)) (n : Nat) : Option Nat :=
  let ok (a : Nat) : Bool := decide (a + n ≤ size) && held.all fun e => decide (a + n ≤ e.1) || decide (e.1 + e.2 ≤ a)
  ((0 :: held.map fun e => e.1 + e.2).filter ok).foldl (fun m a => match m with | none => some a | some b => some (min a b)) none

/-- The entry hit least recently. -/
def coldest (es : List AgEntry) : Option AgEntry :=
  es.foldl (fun m e => match m with
    | none => some e
    | some x => if e.stamp < x.stamp then some e else some x) none

/-- Evict until n units lie free: the entries left, and the place; fuel counts the evictions. -/
def evictFor (size n : Nat) (held : List (Nat × Nat)) : Nat → List AgEntry → Option (List AgEntry × Nat)
  | 0, es => (storeFit size (held ++ es.map (·.units)) n).map fun a => (es, a)
  | f + 1, es =>
    match storeFit size (held ++ es.map (·.units)) n with
    | some a => some (es, a)
    | none =>
      match coldest es with
      | none => none
      | some e => evictFor size n held f (es.filter (· != e))

/-- Evict from a full set. -/
def evictSet (cap : Nat) (key : List Byte) (es : List AgEntry) : List AgEntry :=
  let mine := es.filter fun e => agSet e.key == agSet key
  if mine.length < cap then es
  else
    match coldest mine with
    | none => es
    | some e => es.filter (· != e)

/-! ### The lookup (R368) -/

/-- Buffers 0 to m - 1 of a store that staging wrote are set full by the miss (R368). -/
def missBuffers (n m : Nat) (x : SegState) : SegState :=
  { fillBuffers n m x with missed := (List.range n).map fun i => decide (i < m) || x.missed.getD i false }

/-- The buffers that staging wrote are set full. -/
def stagedFull (rg : Region) (l : List (Offset × Nat × Nat)) : Region :=
  l.foldl (fun r x =>
    let c := cellAt r x.1
    setCell r x.1 (setSeg c x.2.1 (missBuffers ((segDesc r.plane x.1 x.2.1).param + 1) x.2.2 (segAt c x.2.1)))) rg

/-- The outcome of a lookup. -/
def lookup (s : State) (rg : Region) (p : PureInv) (key : List Byte) : State :=
  let pt := partAt s rg.id.seq.part
  match (if pt.agate then agFind pt key else none) with
  | some e =>
    let upd (x : AgEntry) : AgEntry := if x == e then { x with stamp := s.tick } else x
    setRegion (setPart s rg.id.seq.part { pt with agHits := pt.agHits + 1, entries := pt.entries.map upd })
      (rg.setPure fun p => { p with looked := true, hit := true, store := e.store })
  | none => setRegion s ((stagedFull rg p.staged).setPure fun p => { p with looked := true, missed := true })

/-- The bytes of all results. -/
def PureInv.total (p : PureInv) : Nat := (p.res.map (·.2)).foldl (· + ·) 0

/-- Where byte k of the results goes, and how many bytes of its extent are left. -/
def resAt : List (Nat × Nat) → Nat → Option (Nat × Nat)
  | [], _ => none
  | (va, n) :: t, k => if k < n then some (va + k, n - k) else resAt t (k - n)

/-- Translate an address of a hit copy at the first SP: ok, or the state that stops it. -/
def hitXlate (s : State) (rg : Region) (o : Offset) (va : Nat) (write : Bool) : Except State (State × TlbEntry × Target) :=
  let part := rg.id.seq.part
  if !vaCanonical va then .error (spFault s rg.id o clsXlate 0x01 7 none 0)
  else
    match tlbLookup s part (spKey (rg.posOf o)) va write with
    | some (s1, e) =>
      let t := targetOf part e.size e.leaf.toNat va
      match targetFault s1 part e.size e.leaf.toNat va with
      | some (c, k) => .error (spFault s1 rg.id o c k 7 none 0)
      | none => .ok (s1, e, t)
    | none =>
      .error (setRegion (startWalk s part (spKey (rg.posOf o)) va write (.hit rg.id)) (rg.setPure fun p => { p with withheld := true }))

/-- One piece of a hit copy: at most a beat at either end (R62), a word where either target takes words only. -/
def hitPiece (s : State) (rg : Region) (p : PureInv) : State :=
  match firstSp rg, resAt p.res p.copied with
  | some o, some (dst, left) =>
    let src := vaAdd (partAt s rg.id.seq.part).agsBase (4096 * p.store + p.copied)
    let n0 := min left (min (32 - src % 32) (32 - dst % 32))
    match hitXlate s rg o src false with
    | .error s1 => s1
    | .ok (s1, e, t) =>
      match hitXlate s1 rg o dst true with
      | .error s2 => s2
      | .ok (s2, e2, t2) =>
        let n := if t.wordOnly || t2.wordOnly then min n0 (4 - src % 4) else n0
        let d : CopyDst := { va := dst, tgt := t2, key := (t2.key).getD 0, binding := leafBinding s2 e2.leaf.toNat, big := decide (16 < e2.size), page := e2.page }
        sendReq (setRegion s2 (rg.setPure fun p => { p with copying := true })) rg.id.seq.part (.hitCopy rg.id) src e t (.copy n (some d)) rg.deadline
  | _, _ => s

/-- AGATE_LOOKUP (R368, R373): the squeezed key is looked up, never within a cut; on a hit the first SP then copies the stored
result, a piece a time. -/
def execAgateLookup (r : RegId) (s : State) : Host.Outcome State Fault Refusal :=
  match regionAt s r with
  | none => .next s
  | some rg =>
    match rg.pureInv with
    | none => .next s
    | some p =>
      if !rg.running || rg.cut.isSome then .next s
      else if p.looked then
        .next (if p.hit && !p.copying && !p.withheld && decide (p.copied < p.total) then hitPiece s rg p else s)
      else
        match p.key with
        | none => .next s
        | some k => .next (lookup s rg p k)

/-! ### The insert (R367, R368) -/

/-- Copy n bytes from one VA to another, piece by piece, poison with them; fuel counts the pieces. -/
def storeFrom (part : Nat) : Nat → State → Nat → Nat → Nat → Except Miss State
  | 0, s, _, _, _ => .ok s
  | f + 1, s, src, dst, n =>
    if n = 0 then .ok s
    else
      let k := min n (min (256 - src % 256) (256 - dst % 256))
      match immReadLine s part src k with
      | .error m => .error m
      | .ok (bs, pois) =>
        match immWriteLine s part dst bs pois with
        | .error m => .error m
        | .ok s1 => storeFrom part f s1 (vaAdd src k) (vaAdd dst k) (n - k)

/-- The results are read into the reuse store from a VA on. -/
def storeResults (part : Nat) : State → Nat → List (Nat × Nat) → Except Miss State
  | s, _, [] => .ok s
  | s, dst, (va, n) :: t =>
    match storeFrom part (n / 64 + 4) s va dst n with
    | .error m => .error m
    | .ok s1 => storeResults part s1 (vaAdd dst n) t

/-- The LOCAL address of the leaf that maps a VA; fuel counts the levels. -/
def leafPlace (s : State) (part va : Nat) : Nat → Nat → Bool → Nat → Option Nat
  | 0, _, _, _ => none
  | n + 1, level, coarse, table =>
    let a := table + 8 * levelIndex va level coarse
    let e := natOfBytes (devRead s (partBinding s part) (dramKey (partDie part) a) 8).1
    match e / 2 ^ 62 with
    | 1 => leafPlace s part va n (level + 1) (bitsOf e 60 2 == 1) (bitsOf e 8 40 * 256)
    | 2 => some a
    | _ => none

/-- RS of a leaf (R369). -/
def reuseBit : BitVec 64 := (1 : BitVec 64) <<< 52

/-- Set RS in the leaf at a key. -/
def markLeaf (s : State) (part k : Nat) : State :=
  devWrite s (partBinding s part) k
    (bytesOfNat 8 (BitVec.ofNat 64 (natOfBytes (devRead s (partBinding s part) k 8).1) ||| reuseBit).toNat) false

/-- Set RS in the TLB entries of a page. -/
def markTlbs (p : Part) (va : Nat) : Part :=
  let f (x : TlbEntry) : TlbEntry := if x.hits va false then { x with leaf := x.leaf ||| reuseBit } else x
  { p with llTlb := p.llTlb.map f, l1Tlb := p.l1Tlb.map fun x => (x.1, x.2.map f) }

/-- RS is set in the leaf at a place, and in the TLB entries of its page. -/
def markAt (s : State) (part va a : Nat) : State :=
  let s1 := markLeaf s part (dramKey (partDie part) a)
  setPart s1 part (markTlbs (partAt s1 part) va)

/-- RS is set at the place a walk found, where it found a leaf. -/
def markFound (s : State) (part va : Nat) : Option Nat → State
  | none => s
  | some a => markAt s part va a

/-- RS is set in the leaf of a VA, and where a TLB holds that leaf. -/
def markReuse (s : State) (part va : Nat) : State :=
  markFound s part va (leafPlace s part va 4 0 false (partAt s part).xroot)

/-- The pages of an extent, by one VA for each 64 KiB. -/
def pageVas (x : Nat × Nat) : List Nat :=
  (List.range ((x.1 + x.2 - 1) / 2 ^ 16 - x.1 / 2 ^ 16 + 1)).map fun i => (x.1 / 2 ^ 16 + i) * 2 ^ 16

/-- The page filter of granules (R369). -/
def filterOf (gs : List Nat) : BitVec 64 := gs.foldl (fun f g => f ||| (1 : BitVec 64) <<< filterBit (g * 2 ^ 16)) 0

/-- Units that a hit is being copied from: they are not given to another result meanwhile. -/
def hitUnits (s : State) (part : Nat) : List (Nat × Nat) :=
  let of (rg : Region) : Option (Nat × Nat) := rg.pureInv.bind fun p =>
    if rg.id.seq.part == part && p.hit then some (p.store, unitsOf (p.res.map (·.2))) else none
  s.regions.filterMap of ++ ((s.seqs.map fun x => x.2.sects.filterMap fun y => y.saved.bind of).flatten)

/-- An insert that is dropped counts in REFUSED. -/
def refuseInsert (s : State) (part : Nat) : State := setPart s part { partAt s part with agRefused := (partAt s part).agRefused + 1 }

/-- A VA translates to LOCAL memory of the partition, for writes (R367). -/
def vaLocal (s : State) (part va : Nat) : Bool :=
  match immTarget s part va true with
  | .ok (_, .dram d a) => d == partDie part && ownerOfDram s d a == some part
  | _ => false

/-- The entries an insert leaves and the units it takes, where it can be made: units free after evictions, AGSBASE and the pages of
the units LOCAL (R367). -/
def insertPlan (s : State) (part : Nat) (lens : List Nat) (key : List Byte) : Option (List AgEntry × Nat) :=
  let pt := partAt s part
  let es := evictSet (ways pt.agWays) key pt.entries
  if !vaLocal s part pt.agsBase then none
  else
    match evictFor pt.agsSize.toNat (unitsOf lens) (hitUnits s part) es.length es with
    | none => none
    | some x =>
      if (pageVas (vaAdd pt.agsBase (4096 * x.2), 4096 * unitsOf lens)).all (vaLocal s part) then some x else none

/-- RS in the leaves of the argument pages, and the entry in the table, after its results are stored. -/
def enterResult (s : State) (part : Nat) (p : PureInv) (e : AgEntry) : State :=
  let s1 := ((p.args.map pageVas).flatten.eraseDups).foldl (fun t va => markReuse t part va) s
  let q := partAt s1 part
  setPart s1 part { q with entries := q.entries ++ [e], agInserts := q.agInserts + 1 }

/-- The insert once its units are known: the results are stored, and a fault of that store refuses it. -/
def insertAt (s : State) (part : Nat) (p : PureInv) (key : List Byte) (left : List AgEntry) (a : Nat) : State :=
  let pt := partAt s part
  let s1 := setPart s part { pt with entries := left }
  match storeResults part s1 (vaAdd pt.agsBase (4096 * a)) p.res with
  | .error _ => refuseInsert s1 part
  | .ok s2 =>
    enterResult s2 part p { key := key, slot := pt.slot.getD 0, filter := filterOf p.granules, granules := p.granules, lens := p.res.map (·.2),
                            store := a, stamp := s.tick }

/-- The insert by a plan, or its refusal. -/
def insertBy (s : State) (part : Nat) (p : PureInv) (key : List Byte) : Option (List AgEntry × Nat) → State
  | none => refuseInsert s part
  | some x => insertAt s part p key x.1 x.2

/-- The insert of a pure invocation that retires DONE after a miss. -/
def insertResult (s : State) (part : Nat) (p : PureInv) (key : List Byte) : State :=
  let pt := partAt s part
  if !pt.agate || p.cancelled then s
  else if p.overflow || pt.agsSize == 0 || (agFind pt key).isSome then refuseInsert s part
  else insertBy s part p key (insertPlan s part (p.res.map (·.2)) key)

/-! ### Retirement (R269, R298, R357, R423) -/

/-- A node without an output: its inputs are sinks; ports b and c of a CARRY count as sinks too. -/
def sinkPort (rg : Region) (e : LinkEnd) : Bool :=
  e.hard || !(rg.links.any fun l => l.live && !l.src.hard && l.src.off == e.off && l.src.ctx == e.ctx && decide (l.src.port < 6)) ||
    match nodeInstr rg ⟨rg.id, e.off, e.ctx⟩ with
    | some (.carry w) => e.port != portA w
    | _ => false

/-- A source has emitted its EOI. -/
def sourceDone (rg : Region) (o : Offset) (c : Nat) : Bool :=
  match nodeInstr rg ⟨rg.id, o, c⟩ with
  | some i => !sourceInstr i || !bitsOf (planeField rg.plane o 12) c 1 == 1 || (ctxAt (cellAt rg o) c).op.eoi
  | none => true

/-- EOI has reached every sink, and every source has emitted it. -/
def eoiReached (rg : Region) : Bool :=
  (rg.links.all fun l => !l.live || !l.dist.isEmpty || !sinkPort rg l.dst || l.eoi) &&
    (cellsOf rg rg.plane).all fun o => (List.range 4).all fun c => sourceDone rg o c

/-- The hard blocks of the region have nothing left to do. -/
def blocksIdle (rg : Region) : Bool :=
  rg.sps.all (fun x => x.slots.all Option.isNone && x.marks.isEmpty) && rg.mes.all fun m => m.queue.isEmpty

/-- The invocation of the region can retire. -/
def retires (s : State) (rg : Region) : Bool :=
  rg.running && rg.detected.isNone && rg.commit.isNone && rg.lvDue.isNone && blocksIdle rg && !reqsLeft s rg.id &&
    match rg.pureInv with
    | some p =>
      if p.hit then decide (p.total ≤ p.copied) && !p.copying
      else p.missed && eoiReached rg && s.statLane.all fun t => t.sect != rg.id
    | none => eoiReached rg && s.statLane.all fun t => t.sect != rg.id

/-- The status of an invocation that retires (R298, R368, R371). -/
def retireStatus (i : Invocation) : Status :=
  match i.entry.pureInv with
  | some p =>
    if p.hit then ⟨0x01, 0, 0, i.entry.no⟩
    else match p.violation with
      | some v => ⟨0x02, 0, v, i.entry.no⟩
      | none => ⟨0x00, 0, 0, i.entry.no⟩
  | none => ⟨0x00, 0, 0, i.entry.no⟩

/-- The region without its invocation; it keeps its place and its plane (R331). -/
def retiredRegion (rg : Region) (hit : Bool) : Region :=
  { rg with inv := none, cut := none, charge := 0, links := if hit then rg.links.map Link.cleared else rg.links }

/-- The invocation retires: status, charge, and what a cut under way had taken. -/
def retire (s : State) (rg : Region) (i : Invocation) : State :=
  let r := rg.id
  let hit := i.entry.pureInv.any (·.hit)
  let st := retireStatus i
  let q := seqAt s r.seq
  let x := sectAt q r.sect
  let p := partAt s r.seq.part
  let s1 := setPart s r.seq.part { p with pwuse := p.pwuse - rg.charge }
  let s2 := setSeq (setRegion s1 (retiredRegion rg hit)) r.seq (setSect q r.sect { endStatus x st with armed := false })
  let s3 := if rg.cut.isSome then dropSave (preDone s2 r) r else s2
  let s4 := if hit then dropFlits s3 r else s3
  match i.entry.pureInv with
  | none => s4
  | some pi =>
    let s5 := if st.code = 0 then (match pi.key with | some k => insertResult s4 r.seq.part pi k | none => s4) else s4
    pruneWatch s5 r.seq.part

/-- INVOCATION_RETIRE (R269, R298). -/
def execInvocationRetire (r : RegId) (s : State) : Host.Outcome State Fault Refusal :=
  match regionAt s r with
  | none => .next s
  | some rg =>
    match rg.inv with
    | none => .next s
    | some i => if retires s rg then .next (retire s rg i) else .next s

/-! ### Agate's registers (R366, R367) -/

/-- Every entry of the partition goes. -/
def flushEntries (s : State) (part : Nat) : State := pruneWatch (setPart s part { partAt s part with entries := [] }) part

/-- AGATE_FLUSH (R367): the flush that a write of FLUSH began, or the whole of one: the entries go, and BUSY falls. -/
def execAgateFlush (part : Nat) (s : State) : Host.Outcome State Fault Refusal :=
  .next (flushEntries (setPart s part { partAt s part with agBusy := false }) part)

/-- A VA field of a register: bits [56:lo], extended with bit 56. -/
def vaField (v lo : Nat) : Nat := bitsOf v lo (57 - lo) * 2 ^ lo + (if v.testBit 56 then 2 ^ 64 - 2 ^ 57 else 0)

/-- AGSBASE_WRITE: the base is written and the partition's entries go. -/
def execAgsbaseWrite (part : Nat) (v : BitVec 64) (s : State) : Host.Outcome State Fault Refusal :=
  .next (flushEntries (setPart s part { partAt s part with agsBase := vaField v.toNat 12 }) part)

/-- AGSSIZE_WRITE: the size is written and the partition's entries go. -/
def execAgssizeWrite (part : Nat) (v : BitVec 64) (s : State) : Host.Outcome State Fault Refusal :=
  .next (flushEntries (setPart s part { partAt s part with agsSize := v.setWidth 32 }) part)

end Sys2Proof.Machine
end

