-- ==== Sys2Proof/Machine/Faults.lean ====
section
/-! DEFINITION. Faults of chapter 17 as events: freezing, records that wait, hangs (R355), release (R359), soft errors (R360), bank
reassignment (R361); a stream buffer that grows (R117, R118). -/

namespace Sys2Proof.Machine

/-! ### Freezing and records (R349, R351, R354) -/

/-- REGION_FREEZE (R349): the fault detected is delivered. -/
def execRegionFreeze (r : RegId) (s : State) : Host.Outcome State Fault Refusal := .next (freezeRegion s r)

/-- FLTSTAT_CLEAR (Table 17-2): SLOST and ECCC. -/
def execFltstatClear (part : Nat) (s : State) : Host.Outcome State Fault Refusal :=
  .next (setPart s part { partAt s part with fSlost := 0, fEccc := 0 })

/-! ### Release (R359) -/

/-- The section and the action that a value of FRCTL names (Table 17-2). -/
def frctlReg (part : Nat) (v : BitVec 64) : RegId := ⟨⟨part, bitsOf v.toNat 0 5⟩, bitsOf v.toNat 16 16⟩
def frctlOp (v : BitVec 64) : BitVec 2 := BitVec.ofNat 2 (v.toNat / 2 ^ 32)

/-- The fields of FRCTL as a write sets them. -/
def frctlSet (s : State) (part : Nat) (v : BitVec 64) : State :=
  setPart s part { partAt s part with frN := BitVec.ofNat 5 v.toNat, frS := BitVec.ofNat 16 (v.toNat / 2 ^ 16), frAct := frctlOp v }

/-- A write of FRCTL (R359): one of GO while BUSY is ignored; so is GO for a section without a frozen region, with ACT 10 or 11, or with
CLEAR after another fault than STRAY. -/
def writeFrctl (part : Nat) (v : BitVec 64) (s : State) : State :=
  if v.getLsbD 63 && (partAt s part).frBusy then s
  else
    let s1 := frctlSet s part v
    if !v.getLsbD 63 || !frctlValid s1 (frctlReg part v) (frctlOp v) then s1
    else if frctlWaits s1 (frctlReg part v) then
      setPart s1 part { partAt s1 part with frBusy := true, frFor := some (frctlReg part v, frctlOp v) }
    else frctlAct s1 (frctlReg part v) (frctlOp v)

/-- FRCTL_RELEASE (R359): a write of FRCTL with ACT 00. -/
def execFrctlRelease (part : Nat) (v : BitVec 64) (s : State) : Host.Outcome State Fault Refusal :=
  .next (writeFrctl part (v &&& ~~~((3 : BitVec 64) <<< 32)) s)

/-- FRCTL_CLEAR (R359): a write of FRCTL with ACT 01. -/
def execFrctlClear (part : Nat) (v : BitVec 64) (s : State) : Host.Outcome State Fault Refusal :=
  .next (writeFrctl part ((v &&& ~~~((3 : BitVec 64) <<< 32)) ||| (1 : BitVec 64) <<< 32) s)

/-- FAULT_RECORD_PENDING_WRITE (R351): the oldest record that waits is written when the queue has room. -/
def execFaultRecordPendingWrite (part : Nat) (s : State) : Host.Outcome State Fault Refusal :=
  let p := partAt s part
  match p.pending with
  | [] => .next s
  | x :: t =>
    match queuePut s part p.frq (frqCount p) 32 x.bytes with
    | none => .next s
    | some (s1, q) =>
      let s2 := setPart s1 part { partAt s1 part with frq := q, pending := t }
      .next (match x.who with | some r => faultedOn s2 r | none => s2)

/-! ### Hangs (R355) -/

/-- HANG_TIMEOUT (R355): the count has reached 2^h. -/
def execHangTimeout (r : RegId) (s : State) : Host.Outcome State Fault Refusal :=
  match regionAt s r with
  | none => .next s
  | some rg =>
    let h := hangBits rg.modeWord
    if rg.frozen.isSome || h == 0 || decide (rg.hang < 2 ^ h) then .next s
    else .next (faultRegion (writeMap s rg) r (originFault clsHang 0x01))

/-! ### Soft errors (R360) -/

/-- Change beat k of a list of latches. -/
def modLat (f : Beat → Beat) : Nat → List (Option Beat) → List (Option Beat)
  | _, [] => []
  | k, none :: t => none :: modLat f k t
  | 0, some b :: t => some (f b) :: t
  | k + 1, some b :: t => some b :: modLat f k t

/-- Beats of the latches. -/
def latCount (l : List (Option Beat)) : Nat := (l.filter Option.isSome).length

/-- Change beat k of a link, in the order queue, pipe, latches, converter, far buffers. -/
def Link.modBeat (l : Link) (k : Nat) (f : Beat → Beat) : Link :=
  let k1 := k - l.queue.length
  let k2 := k1 - l.pipe.length
  let k3 := k2 - latCount l.lat
  let k4 := k3 - l.cvin.length
  let k5 := k4 - l.part.length
  let k6 := k5 - l.cvq.length
  if k < l.queue.length then { l with queue := lmod l.queue k f }
  else if k1 < l.pipe.length then { l with pipe := lmod l.pipe k1 f }
  else if k2 < latCount l.lat then { l with lat := modLat f k2 l.lat }
  else if k3 < l.cvin.length then { l with cvin := lmod l.cvin k3 f }
  else if k4 < l.part.length then { l with part := lmod l.part k4 f }
  else if k5 < l.cvq.length then { l with cvq := lmod l.cvq k5 f }
  else
    { l with crossings := (l.crossings.foldl (fun (a : List Crossing × Nat) x =>
        (a.1 ++ [if a.2 < x.far.length then { x with far := lmod x.far a.2 f } else x],
          if a.2 < x.far.length then 2 ^ 64 else a.2 - x.far.length)) ([], k6)).1 }

/-- The chunks of the carve-out (R116, R117): the cell and the first beat of each, in ascending cell offset, row 0 first. -/
def carveChunks (rg : Region) : List (Offset × Nat) :=
  ((cellsOf rg rg.plane).map fun o => ((List.range 8).map fun n =>
    let d := segDesc rg.plane o n
    if d.typ = 5 then (List.range (d.size / chunkBeats)).map fun j => (o, d.base + chunkBeats * j) else []).flatten).flatten

/-- Where the tokens of a stream buffer stand, oldest first: the cell and the bank beat of each that stands in a bank. DESIGN CHOICE:
the ring's oldest token stands at the segment's first beat (log 136). -/
def SegState.places (rg : Region) (o : Offset) (d : SegDesc) (g : SegState) : List (Option (Offset × Nat)) :=
  (g.parts.foldl (fun (a : List (Option (Offset × Nat)) × Nat) p => match p.chunk with
    | none => (a.1 ++ (List.range p.n).map fun j => some (o, d.base + (a.2 + j) % d.size), a.2 + p.n)
    | some (.carve k) => (a.1 ++ (List.range p.n).map fun j => (carveChunks rg)[k]?.map fun x => (x.1, x.2 + (p.used - p.n + j)), a.2)
    | some (.ovf _) => (a.1 ++ List.replicate p.n none, a.2)) ([], 0)).1

/-- The tokens of a segment that stand at a beat of a bank carry POISON: a stream buffer's, or REORDER's in slot b of its store. -/
def SegState.spoil (rg : Region) (o : Offset) (d : SegDesc) (p : Offset) (b : Nat) (g : SegState) : SegState :=
  let bad (x : Beat) : Beat := { x with poison := true }
  { g with beats := (g.beats.zip (g.places rg o d)).map fun x => if x.2 == some (p, b) then bad x.1 else x.1,
           slots := g.slots.map fun x => if o == p && b == d.base + x.1 then (x.1, bad x.2) else x }

/-- The tokens of a region that stand at a beat of a cell's bank carry POISON (Table 17-4). -/
def Region.spoil (rg : Region) (p : Offset) (b : Nat) : Region :=
  { rg with cells := rg.cells.map fun x => (x.1,
      { x.2 with segs := x.2.segs.mapIdx fun n g => g.spoil rg (keyOff x.1) (segDesc rg.plane (keyOff x.1) n) p b }) }

/-- SOFT_ERROR (R360, Table 17-4). -/
def execSoftError (e : SoftErr) (s : State) : Host.Outcome State Fault Refusal :=
  match e with
  | .corrected part => .next (setPart s part { partAt s part with fEccc := min ((partAt s part).fEccc + 1) 65535 })
  | .beatPayload r link k =>
    match regionAt s r with
    | none => .next s
    | some rg => .next (setRegion s (rg.modLink link fun l => l.modBeat k fun b => { b with poison := true }))
  | .beatSideband r link k =>
    match regionAt s r with
    | none => .next s
    | some rg =>
      match (rg.linkAt link).bind fun l => l.allBeats[k]?.map fun b => linkFault rg l clsPoison 0x03 b with
      | none => .next s
      | some f => .next (raiseFault s r f)
  | .bankWord r o w =>
    match regionAt s r with
    | none => .next s
    | some rg =>
      let c := cellAt rg o
      if w < 8192 ∧ rg.hardCol o.dx = false ∧ (aget rg.cells (offKey o)).isSome = true then
        .next (setRegion s ((setCell rg o { c with bpois := addWords c.bpois [w] }).spoil o (w / 4)))
      else .next s
  | .dramWord w => .next { s with memPois := joinWords s.memPois [w] }
  | .planeField r o =>
    match regionAt s r with
    | none => .next s
    | some rg =>
      if (aget rg.plane (offKey o)).isNone then .next s
      else
        let unit := if !rg.hardCol o.dx then 0 else if rg.blockIsSp o then 1 else 2
        .next (raiseFault s r { originFault clsCfg 0x41 with off := o, unit := unit })

/-! ### Bank reassignment (R361) -/

/-- A queued store or other access of a cell's bank. -/
def bankBusy (s : State) (p : Pos) : Bool := s.reqs.any fun q => match q.tgt with | .bank x _ => x == p | _ => false

/-- BANK_REASSIGN (R361): begun while no region holds the cell and no access to its bank is queued; the second event releases the
cell, scrubbed, which no region has taken meanwhile. -/
def execBankReassign (p : Pos) (s : State) : Host.Outcome State Fault Refusal :=
  if s.scrubbing.contains p then
    .next (if (regionAtPos s p).isSome then s else { s with scrubbing := s.scrubbing.filter (· != p) })
  else if (regionAtPos s p).isSome || bankBusy s p then .next s
  else .next { s with scrubbing := s.scrubbing ++ [p] }

/-! ### Growing a stream buffer (R117, R118) -/

/-- The chunks linked over a region. -/
def chunksUsed (rg : Region) : List Chunk :=
  (rg.cells.map fun x => (x.2.segs.map fun g => g.parts.filterMap (·.chunk)).flatten).flatten

/-- The first free one of n chunks, in ascending order (R116, R117). DESIGN CHOICE: a region numbers the chunks that it links, and
those linked keep their numbers under a later ARM's record (log 151). -/
def freeChunk (rg : Region) (mk : Nat → Chunk) (n : Nat) : Option Nat := (List.range n).find? fun k => !(chunksUsed rg).contains (mk k)

/-- The VA of slot i of chunk k of the overflow area, 32 bytes a beat. DESIGN CHOICE: the layout is Flint's (log 38). -/
def ovfAt (rg : Region) (k i : Nat) : Nat := vaAdd rg.ovfVa (32 * (chunkBeats * k + i))

/-- The word of a PUSH. -/
def pushOf (i : Instr) : Option NodeWord :=
  match i with
  | .push w => some w
  | _ => none

/-- A beat that finds no chunk: QOVF (R117). -/
def growFail (s : State) (rg : Region) (u : UnitId) (port : Nat) (b : Beat) (sub : Nat) : State :=
  raiseFault s u.reg { cls := clsQovf, sub := sub, off := u.off, ctx := u.ctx, port := port, unit := 0, tok := some b, partner := 0,
                       round := (ctxAt (cellAt rg u.off) u.ctx).op.round }

/-- The stream buffer of segment n takes a chunk of the carve, or of the overflow area. -/
def growPut (s : State) (rg : Region) (u : UnitId) (n : Nat) (f : SegState → SegState) : State :=
  let c := cellAt rg u.off
  setRegion s (setCell rg u.off (setSeg c n (f (segAt c n))))

/-- Link a chunk. -/
def SegState.link (c : Chunk) (g : SegState) : SegState := { g with parts := g.parts ++ [⟨some c, 0, 0⟩] }

/-- A full stream buffer grows by one chunk, the carve-out's first, or faults (R117, R118). -/
def growBuffer (s : State) (rg : Region) (u : UnitId) (n port : Nat) (b : Beat) : State :=
  match freeChunk rg .carve rg.carve with
  | some k => growPut s rg u n (SegState.link (.carve k))
  | none =>
    if rg.ovfVa = 0 then growFail s rg u port b 0x01
    else
      match freeChunk rg .ovf rg.ovfLen with
      | none => growFail s rg u port b 0x02
      | some k =>
        match immTarget s u.reg.seq.part (ovfAt rg k 0) true with
        | .error _ => growFail s rg u port b 0x03
        | .ok _ => growPut s rg u n (SegState.link (.ovf k))

/-- The place in the overflow area of the next beat of a buffer, when it goes there. -/
def SegState.ovfSlot (g : SegState) : Option (Nat × Nat) :=
  match g.parts.getLast? with
  | some ⟨some (.ovf k), _, i⟩ => if i < chunkBeats then some (k, i) else none
  | _ => none

/-- PUSH stores a token of any kind whole (R215). -/
def pushFire (w : NodeWord) (s : State) (e : Env) : Fire :=
  let a := portA w
  match e.head a with
  | none => .stall
  | some d =>
    let g := segAt e.cell (segNo w)
    if g.space (segDesc e.rg.plane e.off (segNo w)) = 0 then .stall
    else
      let e1 := e.consume a
      let e2 := { e1 with cell := setSeg e1.cell (segNo w) (g.put d) }
      let done : Fire := .ok ((if d.isData then e2.fired else e2.statAt d).noteRound d)
      match g.ovfSlot with
      | none => done
      | some (k, i) =>
        match immTarget s e.rg.id.seq.part (ovfAt e.rg k i) true with
        | .error _ => .bad e clsQovf 0x03 a (some d) 0
        | .ok _ => done

/-- A beat stored in an overflow chunk goes out to its place, through the cell's serving SP and outside its slots (R117); its
sideband stays with the chain. -/
def pushOut (w : NodeWord) (s t : State) : State :=
  match s.actor with
  | .node u =>
    match (regionAt s u.reg).map (fun rg => (rg, segAt (cellAt rg u.off) (segNo w))),
        (regionAt t u.reg).map fun rg => segAt (cellAt rg u.off) (segNo w) with
    | some (rg, g), some h =>
      match g.ovfSlot, h.beats.getLast? with
      | some (k, i), some b =>
        if h.beats.length = g.beats.length + 1 then
          match immTarget s u.reg.seq.part (ovfAt rg k i) true with
          | .ok (x, y) => { t with reqs := t.reqs ++ [immReq t u.reg.seq.part (ovfAt rg k i) x y
                                     (.write (bytesOfNat 32 b.pay.toNat) b.poison)], reqSeq := t.reqSeq + 1 }
          | .error _ => t
        else t
      | _, _ => t
    | _, _ => t
  | _ => t

/-- PUSH (R215, R117): a full extensible buffer waits for STREAM_BUFFER_GROW. -/
def execPush (w : NodeWord) (s : State) : Host.Outcome State Fault Refusal :=
  match statefulRun w s [portA w] (pushFire w s) with
  | .next t => .next (pushOut w s t)
  | o => o

/-- The node word of the PUSH of the unit, if its node is one. -/
def pushWord (rg : Region) (u : UnitId) : Option NodeWord := (nodeInstr rg u).bind pushOf

/-- The PUSH `w` of the unit waits at a full extensible buffer (R117). -/
def growFor (s : State) (rg : Region) (u : UnitId) (w : NodeWord) : Host.Outcome State Fault Refusal :=
  let d := segDesc rg.plane u.off (segNo w)
  match (rg.portHeads u.off false u.ctx (portA w)).head? with
  | none => .next s
  | some b =>
    if !rg.running || rg.isHalted 0 u.off u.ctx || !d.ext ||
        (segAt (cellAt rg u.off) (segNo w)).space d != 0
    then .next s
    else .next (growBuffer s rg u (segNo w) (portA w) b)

/-- The unit's PUSH, if it has one, asks for a chunk (R117). -/
def growAt (s : State) (rg : Region) (u : UnitId) (i : Option NodeWord) : Host.Outcome State Fault Refusal :=
  match i with
  | none => .next s
  | some w => growFor s rg u w

/-- STREAM_BUFFER_GROW (R117): a PUSH waits at a full extensible buffer, and Flint links a chunk. -/
def execStreamBufferGrow (u : UnitId) (s : State) : Host.Outcome State Fault Refusal :=
  match regionAt s u.reg with
  | none => .next s
  | some rg => growAt s rg u (pushWord rg u)

end Sys2Proof.Machine
end

