-- ==== Sys2Proof/Machine/Fibre.lean ====
section
/-! DEFINITION. Fibre streams (R231 to R233) and the fibre units (R234 to R242). A unit takes one element or token a step. -/

namespace Sys2Proof.Machine

/-- The absent reference (R231). -/
def absentRef : Nat := 0xFFFFFFFF

/-- The next valid lane of a beat from lane l on. -/
def nextLane (b : Beat) (l : Nat) : Option Nat := (List.range 8).find? fun i => decide (l ≤ i) && b.valid.getLsbD i

/-! ### Packed output -/

/-- A beat of packed elements, lane 0 first. -/
def packedBeat (els : List (Option Nat)) (tag : BitVec 14) (round : Nat) (pois : Bool) : Beat :=
  { dataBeat (payOfElems 32 (els.map fun o => o.getD 0)) (BitVec.ofNat 8 (2 ^ els.length - 1)) tag round with poison := pois }

/-- Elements wait to be emitted. -/
def OpState.pending (o : OpState) : Bool := !o.outX.isEmpty || !o.outY.isEmpty

/-- The beats of the elements packed for X and for Y; `yTag0`: Y beats carry TAG 0 (FWRITE). op.phase and op.phaseY: an element among
them is from before the last boundary and poisoned. -/
def OpState.xBeat (o : OpState) : Beat := packedBeat o.outX (o.outTag.getD 0) o.round (o.pois || o.phase)
def OpState.yBeat (o : OpState) (yTag0 : Bool) : Beat := packedBeat o.outY (if yTag0 then 0 else o.outTag.getD 0) o.round (o.pois || o.phaseY)

/-- The packed elements of X have been emitted, or of Y. -/
def OpState.dropX (o : OpState) (yTag0 : Bool) : OpState :=
  { o with outX := [], phase := false, outTag := if yTag0 || o.outY.isEmpty then none else o.outTag }
def OpState.dropY (o : OpState) : OpState := { o with outY := [], phaseY := false, outTag := if o.outX.isEmpty then none else o.outTag }

/-- Emit what is packed for the outputs chosen. -/
def Env.emitOuts (e : Env) (yTag0 x y : Bool) : Fire :=
  let o := e.cs.op
  e.fireXY (if x then [o.xBeat] else []) (if y then [o.yBeat yTag0] else []) fun e1 =>
    e1.setOp fun o => let o1 := if x then o.dropX yTag0 else o; if y then o1.dropY else o1

/-- Emit all that is packed: both outputs together, but FWRITE's each as it has room. -/
def Env.flushPacked (e : Env) (yTag0 : Bool) : Fire :=
  let x := !e.cs.op.outX.isEmpty
  let y := !e.cs.op.outY.isEmpty
  if yTag0 && x && y then
    match e.emitOuts true true false with
    | .full _ => e.emitOuts true false true
    | f => f
  else e.emitOuts yTag0 x y

/-- A step that packs the eighth element of a beat emits it (R234). -/
def Env.emitFull (e : Env) (yTag0 : Bool) : Fire :=
  let x := decide (8 ≤ e.cs.op.outX.length)
  let y := decide (8 ≤ e.cs.op.outY.length)
  if x || y then e.emitOuts yTag0 x y else .ok e

/-- Before a token: what waits goes first. -/
def Env.beforeToken (e : Env) (yTag0 : Bool) (f : Fire) : Fire := if e.cs.op.pending then e.flushPacked yTag0 else f

/-- Append an element pair to the packed output. -/
def OpState.push (o : OpState) (x y : Option Nat) (tag : BitVec 14) : OpState :=
  { o with outX := o.outX ++ (match x with | some v => [some v] | none => []),
           outY := o.outY ++ (match y with | some v => [some v] | none => []),
           outTag := some (o.outTag.getD tag) }

/-- The depth of AUX[5:3] (Table 11-3). -/
def depthOf (w : NodeWord) : Nat := bitsOf w.aux.toNat 3 3 + 1

/-- Tokens under R89 with the sides fresh after EOI. -/
def Env.fibreTokens (e : Env) (ps : List Nat) : Fire :=
  match e.defaultTokens ps with
  | .ok e1 =>
    .ok (if ps.any fun p => (e.head p).any Beat.isEoi then
           e1.setOp fun o => { o with sideA := {}, sideB := {}, sideOut := {}, pois := false, any := false, cnt := 0 }
         else e1)
  | f => f

/-- Run a fibre unit: SPEC beats are held at every port, and a STOP after EOI is malformed (R232). A full beat leaves with the step that
fills it, and what is packed when the next step must wait, for a held head too (R234). -/
def fibreRun (w : NodeWord) (s : State) (ps : List Nat) (yTag0 : Bool) (op : Env → Fire) : Host.Outcome State Fault Refusal :=
  nodeRun w s fun e =>
    match e.attempt ps ps true op with
    | .stall => if e.cs.op.pending then e.flushPacked yTag0 else .stall
    | .ok e1 => e1.emitFull yTag0
    | f => f

/-! ### FSCAN (R235) -/

/-- The scratch segment of the context that holds a beat, as its range of 32-bit words. -/
def Env.scratchWords (e : Env) (beat : Nat) : Option (Nat × Nat) :=
  (e.holding 3 beat).map fun n =>
    let d := segDesc e.rg.plane e.home.1 n
    (8 * d.base, 8 * (d.base + d.size))

/-- A word of the scratch segment that holds a beat. -/
def Env.scratchWord (e : Env) (beat word : Nat) : Option Nat :=
  match e.scratchWords beat with
  | some (lo, hi) => if lo ≤ word ∧ word < hi then some (bankWord e.bankCell word) else none
  | none => none

/-- Begin the fibre of a reference: op.any, op.cnt the next index, op.next the end, op.pos the reference base (U level).
None: a fault of subcode 0x05. -/
def scanBegin (e : Env) (p : Nat) : Option (OpState × Bool) :=
  let im := immNat e.w
  if bitsOf e.w.aux.toNat 0 1 = 0 then
    some ({ e.cs.op with any := true, cnt := 0, next := im, pos := p * im }, false)
  else
    let sb := bitsOf im 0 11
    match e.scratchWord sb (8 * sb + p), e.scratchWord sb (8 * sb + p + 1) with
    | some x, some y =>
      if y < x then none
      else some ({ e.cs.op with any := true, cnt := x, next := y, pos := 0 },
                 wordPoisoned e.bankCell (8 * sb + p) || wordPoisoned e.bankCell (8 * sb + p + 1))
    | _, _ => none

/-- The coordinate and reference of index q of the fibre being scanned, and its poison. -/
def scanElem (e : Env) (q : Nat) : Option (Nat × Nat × Bool) :=
  let im := immNat e.w
  if bitsOf e.w.aux.toNat 0 1 = 0 then
    if absentRef ≤ e.cs.op.pos + q then none else some (q, e.cs.op.pos + q, false)
  else
    let cb := bitsOf im 11 11
    (e.scratchWord cb (8 * cb + q)).map fun c => (c, q, wordPoisoned e.bankCell (8 * cb + q))

/-- FSCAN (R235). op.turn counts the root scans of the invocation. -/
def execFscan (w : NodeWord) (s : State) : Host.Outcome State Fault Refusal :=
  let ports := srcPort w.srcA
  let d := depthOf w
  let wantY := w.dy
  fibreRun w s ports false fun e =>
    let o := e.cs.op
    if o.any then
      if o.cnt < o.next then
        match scanElem e o.cnt with
        | none => .bad e clsMalformed 0x05 (ports.headD 7) (ports.head?.bind e.head) 0
        | some (c, r, p) =>
          match o.sideOut.element 1 c true with
          | none => .bad e clsMalformed 0x02 (ports.headD 7) (ports.head?.bind e.head) 0
          | some sd =>
            let o1 := o.push (some c) (if wantY then some r else none) ((o.held.head?.map (·.tag)).getD 0)
            .ok (e.setOp fun _ => { o1 with cnt := o.cnt + 1, sideOut := sd, pois := o.pois || p })
      else
        e.beforeToken false (e.fireBoth [stopBeat 0 (BitVec.ofNat 3 o.round)] fun e1 =>
          e1.setOp fun o => { o with any := false, held := [], sideOut := {}, pois := o.pois && !(o.sideA.boundary (d - 1)) })
    else
      match ports with
      | [] =>
        match e.rg.sourceOpen false with
        | some inv =>
          if o.eoi then .stall
          else if o.turn < inv.entry.tiles then
            match scanBegin e 0 with
            | none => .bad e clsMalformed 0x05 7 none 0
            | some (o1, p) => .ok (((e.issued o.turn).setOp fun _ => { o1 with turn := o.turn + 1, pois := o.pois || p }).fired)
          else
            let m := markBeat 2 o.round 0
            e.beforeToken false (e.fireBoth [m] fun e1 => (e1.setOp fun o => { o with eoi := true }).noteRound m)
        | none => .stall
      | a :: _ =>
        match e.head a with
        | none => .stall
        | some b =>
          if b.isData then
            match nextLane b o.sideA.lane with
            | none => .ok ((e.consume a).fired.setOp fun o => { o with sideA := { o.sideA with lane := 0 } })
            | some l =>
              let p := payElem b.pay 32 l
              let sd := { (o.sideA.element (d - 1) p false).getD o.sideA with lane := l + 1 }
              if p = absentRef then
                e.beforeToken false (e.fireBoth [stopBeat 0 (BitVec.ofNat 3 o.round)] fun e1 =>
                  e1.setOp fun o => { o with sideA := sd, pois := (o.pois || b.poison) && !sd.boundary (d - 1) })
              else
                match scanBegin e p with
                | none => .bad e clsMalformed 0x05 a (some b) 0
                | some (o1, q) =>
                  .ok (e.setOp fun _ => { o1 with sideA := sd, held := [b], pois := o.pois || b.poison || q })
          else if b.isStop then
            let k := b.level.toNat
            if d - 1 ≤ k then .bad e clsMalformed 0x01 a (some b) 0
            else
              e.beforeToken false (e.fireBoth [stopBeat (k + 1) b.round] fun e1 =>
                (e1.consume a).setOp fun o =>
                  let sd := { o.sideA.stop (d - 1) k with lane := 0 }
                  { o with sideA := sd, pois := o.pois && !sd.boundary (d - 1) })
          else if b.needsBoundary && !o.sideA.boundary (d - 1) then .bad e clsMalformed 0x07 a (some b) 0
          else e.beforeToken false (e.fibreTokens [a])

/-! ### FLOOK (R236) -/

/-- Two heads are in lockstep (R231). -/
def lockstep (x y : Beat) : Bool := x.kind == y.kind && x.level == y.level && (!x.isData || x.valid == y.valid)

/-- The lookups of one beat, lane by lane: the outputs and the side, or the subcode of a fault. -/
def lookLanes (d n : Nat) (x : Beat) (y : Option Beat) : List Nat → FibreSide → List Nat → Except Nat (FibreSide × List Nat)
  | [], sd, rs => .ok (sd, rs)
  | i :: t, sd, rs =>
    if x.valid.getLsbD i = false then lookLanes d n x y t sd (rs ++ [0])
    else
      let c := payElem x.pay 32 i
      let q := match y with | some b => payElem b.pay 32 i | none => 0
      match sd.element d c true with
      | none => .error 0x02
      | some sd1 =>
        if c = absentRef ∨ q = absentRef then lookLanes d n x y t sd1 (rs ++ [absentRef])
        else if n ≤ c ∨ absentRef ≤ c + q * n then .error 0x05
        else lookLanes d n x y t sd1 (rs ++ [c + q * n])

/-- FLOOK (R236). -/
def execFlook (w : NodeWord) (s : State) : Host.Outcome State Fault Refusal :=
  let a := portA w
  let bs := srcPort w.srcB
  let d := depthOf w
  fibreRun w s (a :: bs) false fun e =>
    match e.headsOf (a :: bs) with
    | none => .stall
    | some hs =>
      match hs with
      | [] => .stall
      | x :: rest =>
        if rest.any fun y => !lockstep x y then .bad e clsMalformed 0x07 a (some x) ((rest.head?.map (·.pay)).getD 0)
        else if x.isData then
          match lookLanes d (immNat w) x rest.head? (List.range 8) e.cs.op.sideA [] with
          | .error k => .bad e clsMalformed k a (some x) ((rest.head?.map (·.pay)).getD 0)
          | .ok (sd, rs) =>
            let p := e.cs.op.pois || x.poison || rest.any Beat.poison
            e.fireBoth [{ x with pay := payOfElems 32 rs, poison := p }] fun e1 =>
              (e1.consumeAll (a :: bs)).fired.setOp fun o => { o with sideA := sd, pois := p }
        else if x.isStop then
          if d ≤ x.level.toNat then .bad e clsMalformed 0x01 a (some x) 0
          else
            let sd := e.cs.op.sideA.stop d x.level.toNat
            e.fireBoth [x] fun e1 =>
              (e1.consumeAll (a :: bs)).setOp fun o => { o with sideA := sd, pois := o.pois && !sd.boundary d }
        else if x.needsBoundary && !e.cs.op.sideA.boundary d then .bad e clsMalformed 0x07 a (some x) 0
        else e.fibreTokens (a :: bs)

/-! ### FISECT and FUNION (R237, R238) -/

/-- The state of one side's heads. -/
inductive SideHead where
  | waiting
  | broken
  /-- A DATA beat with no lane left. -/
  | spent
  | elem (c : Nat) (r : Nat) (b : Beat)
  | stop (k : Nat) (b : Beat)
  | mark (b : Beat)
  deriving DecidableEq, Repr

/-- Read a side: its coordinate port, and its reference port if `out` names it. -/
def Env.sideHead (e : Env) (pc : Nat) (pr : List Nat) (sd : FibreSide) : SideHead :=
  match e.headsOf (pc :: pr) with
  | none => .waiting
  | some hs =>
    match hs with
    | [] => .waiting
    | x :: rest =>
      if rest.any fun y => !lockstep x y then .broken
      else if x.isData then
        match nextLane x sd.lane with
        | none => .spent
        | some l => .elem (payElem x.pay 32 l) ((rest.head?.map fun y => payElem y.pay 32 l).getD absentRef)
            { x with poison := x.poison || rest.any Beat.poison }
      else if x.isStop then .stop x.level.toNat x
      else .mark x

/-- The elements that the output mode AUX[2:0] places on X and on Y: 0 coordinate and a's reference, 1 coordinate and b's, else both references. -/
def joinPair (out c ra rb : Nat) : Nat × Nat :=
  if out = 0 then (c, ra) else if out = 1 then (c, rb) else (ra, rb)

/-- The shared rule of FISECT (`union` false) and FUNION. -/
def joinRun (w : NodeWord) (s : State) (union : Bool) : Host.Outcome State Fault Refusal :=
  let d := depthOf w
  let out := bitsOf w.aux.toNat 0 3
  let refA : List Nat := if out = 1 then [] else [1]
  let refB : List Nat := if out = 0 then [] else [3]
  let portsA := 0 :: refA
  let portsB := 2 :: refB
  let ports := portsA ++ portsB
  fibreRun w s ports false fun e =>
    let o := e.cs.op
    let setA (sd : FibreSide) (x : Env) : Env := x.setOp fun o => { o with sideA := sd }
    let setB (sd : FibreSide) (x : Env) : Env := x.setOp fun o => { o with sideB := sd }
    -- one element taken from a side: its new state, or none for subcode 0x02
    let takeEl (sd : FibreSide) (p c : Nat) : Option FibreSide :=
      (sd.element d c true).map fun x => { x with lane := ((e.head p).bind fun b => nextLane b sd.lane).getD 7 + 1 }
    let emitEl (c ra rb : Nat) (tag : BitVec 14) (pois : Bool) (x : Env) : Env :=
      x.setOp fun o =>
        { o.push (some (joinPair out c ra rb).1) (some (joinPair out c ra rb).2) tag with pois := o.pois || pois }
    let note (pois : Bool) (x : Env) : Env := x.setOp fun o => { o with pois := o.pois || pois }
    let takeA (c r : Nat) (b : Beat) (emitIt : Bool) : Fire :=
      match takeEl o.sideA 0 c with
      | none => .bad e clsMalformed 0x02 0 (some b) 0
      | some sd => .ok (setA sd (if emitIt then emitEl c r absentRef b.tag b.poison e else note b.poison e))
    let takeB (c r : Nat) (b : Beat) (emitIt : Bool) : Fire :=
      match takeEl o.sideB 2 c with
      | none => .bad e clsMalformed 0x02 2 (some b) 0
      | some sd => .ok (setB sd (if emitIt then emitEl c absentRef r b.tag b.poison e else note b.poison e))
    let ha := e.sideHead 0 refA o.sideA
    let hb := e.sideHead 2 refB o.sideB
    match ha, hb with
    | .broken, _ => .bad e clsMalformed 0x07 0 (e.head 0) (((e.head 1).map (·.pay)).getD 0)
    | _, .broken => .bad e clsMalformed 0x07 2 (e.head 2) (((e.head 3).map (·.pay)).getD 0)
    | .spent, _ => .ok ((e.consumeAll portsA).fired.setOp fun o => { o with sideA := { o.sideA with lane := 0 } })
    | _, .spent => .ok ((e.consumeAll portsB).fired.setOp fun o => { o with sideB := { o.sideB with lane := 0 } })
    | .waiting, _ => .stall
    | _, .waiting => .stall
    | .elem ca ra x, .elem cb rb y =>
      -- what comes of a comparison is poisoned by either head (R234)
      let pois := x.poison || y.poison
      if ca < cb then takeA ca ra { x with poison := pois } union
      else if cb < ca then takeB cb rb { y with poison := pois } union
      else
        match takeEl o.sideA 0 ca, takeEl o.sideB 2 cb with
        | some sa, some sb => .ok (setA sa (setB sb (emitEl ca ra rb x.tag (x.poison || y.poison) e)))
        | none, _ => .bad e clsMalformed 0x02 0 (some x) y.pay
        | _, none => .bad e clsMalformed 0x02 2 (some y) x.pay
    | .elem ca ra x, .stop _ _ => takeA ca ra x union
    | .stop _ _, .elem cb rb y => takeB cb rb y union
    | .stop j x, .stop k y =>
      if j ≠ k then .bad e clsMalformed 0x03 2 (some y) x.pay
      else if d ≤ j then .bad e clsMalformed 0x01 0 (some x) y.pay
      else
        e.beforeToken false (e.fireBoth [x] fun e1 =>
          (e1.consumeAll ports).setOp fun o =>
            let sa := { o.sideA.stop d j with lane := 0 }
            let sb := { o.sideB.stop d j with lane := 0 }
            { o with sideA := sa, sideB := sb, pois := o.pois && !(sa.boundary d && sb.boundary d) })
    | .mark x, .mark y =>
      if (x.needsBoundary || y.needsBoundary) && !(o.sideA.boundary d && o.sideB.boundary d) then
        .bad e clsMalformed 0x07 0 (some x) y.pay
      else e.beforeToken false (e.fibreTokens ports)
    | .mark x, .elem _ _ y => .bad e clsMalformed 0x07 0 (some x) y.pay
    | .mark x, .stop _ y => .bad e clsMalformed 0x07 0 (some x) y.pay
    | .elem _ _ x, .mark y => .bad e clsMalformed 0x07 2 (some y) x.pay
    | .stop _ x, .mark y => .bad e clsMalformed 0x07 2 (some y) x.pay

/-- FISECT (R237). -/
def execFisect (w : NodeWord) (s : State) : Host.Outcome State Fault Refusal := joinRun w s false

/-- FUNION (R238). -/
def execFunion (w : NodeWord) (s : State) : Host.Outcome State Fault Refusal := joinRun w s true

/-! ### FREP (R239) -/

/-- FREP (R239): op.any says that the element of the fibre that a STOP ends has been consumed. -/
def execFrep (w : NodeWord) (s : State) : Host.Outcome State Fault Refusal :=
  let as := srcPort w.srcA
  let b := portB w
  let d := depthOf w
  fibreRun w s (as ++ [b]) false fun e =>
    let o := e.cs.op
    -- a DATA beat of a whose lanes are used up is consumed first
    match as.find? fun p => (e.head p).any fun x => x.isData && (nextLane x o.sideA.lane).isNone with
    | some p => .ok ((e.consume p).fired.setOp fun o => { o with sideA := { o.sideA with lane := 0 } })
    | none =>
      let cur : Option (Except Unit (Nat × Bool)) := match as with
        | [] => some (.ok (immNat w, false))
        | a :: _ => (e.head a).map fun x =>
            if x.isData then .ok (payElem x.pay 32 ((nextLane x o.sideA.lane).getD 0), x.poison) else .error ()
      let step (x : Env) : Env := x.setOp fun o => { o with sideA := { o.sideA with
        lane := ((as.head?.bind e.head).bind fun y => nextLane y o.sideA.lane).getD 7 + 1 } }
      match e.head b with
      | none => .stall
      | some x =>
        if x.isData && x.valid == 0 then
          e.fireBoth [{ x with pay := 0, poison := o.pois || x.poison }] fun e1 => (e1.consume b).fired
        else if x.isData then
          match cur with
          | none => .stall
          | some (.error _) => .bad e clsMalformed 0x03 (as.headD 0) (as.head?.bind e.head) x.pay
          | some (.ok (v, p)) =>
            let sd := (o.sideB.element d 0 false).getD o.sideB
            let vals := (List.range 8).map fun i => if x.valid.getLsbD i then v else 0
            let q := o.pois || p || x.poison
            e.fireBoth [{ x with pay := payOfElems 32 vals, poison := q }] fun e1 =>
              (e1.consume b).fired.setOp fun o => { o with sideB := sd, pois := q }
        else if x.isStop then
          let k := x.level.toNat
          if d ≤ k then .bad e clsMalformed 0x01 b (some x) 0
          else
            let endsFibre := o.sideB.open_.getLsbD 0 || (k == 0 && !o.sideB.closes 0)
            let finish (pre : Env → Env) : Fire := e.fireBoth [x] fun e1 =>
              ((pre e1).consume b).setOp fun o =>
                let sd := o.sideB.stop d k
                { o with sideB := sd, any := false, pois := o.pois && !sd.boundary d }
            match as with
            | [] => finish id
            | a :: _ =>
              if endsFibre && !o.any then
                match cur with
                | none => .stall
                | some (.error _) => .bad e clsMalformed 0x03 a (e.head a) x.pay
                | some (.ok _) => .ok ((step e).setOp fun o => { o with any := true })
              else if k = 0 then finish id
              else
                match e.head a with
                | none => .stall
                | some y =>
                  if y.isStop && y.level.toNat == k - 1 then
                    finish fun e1 => (e1.consume a).setOp fun o => { o with sideA := { o.sideA with lane := 0 } }
                  else .bad e clsMalformed 0x03 a (some y) x.pay
        else if x.needsBoundary && !o.sideB.boundary d then .bad e clsMalformed 0x07 b (some x) 0
        else e.fibreTokens (as ++ [b])

/-! ### FRED (R240) -/

/-- One fold of FRED: op code, running value, element. -/
def fredStep (w : NodeWord) (op x y : Nat) : Rounded × Bool :=
  match op with
  | 0 => addOnce w x y
  | 1 => (exactly (elemPick (fmtElem w.fmt) true x y), true)
  | 2 => (exactly (elemPick (fmtElem w.fmt) false x y), true)
  | 3 => (exactly (x &&& y), true)
  | 4 => (exactly (x ||| y), true)
  | _ => (exactly (x ^^^ y), true)

/-- Fold the valid elements of a beat, ascending. -/
def fredFold (w : NodeWord) (op : Nat) : Option Nat → List Nat → Counts → Option Nat × Counts
  | r, [], c => (r, c)
  | none, y :: t, c => fredFold w op (some y) t c
  | some x, y :: t, c =>
    let (z, n) := fredStep w op x y
    fredFold w op (some z.code) t (countResult c z n)

/-- FRED (R240); op.acc holds r. -/
def execFred (w : NodeWord) (s : State) : Host.Outcome State Fault Refusal :=
  let a := portA w
  let op := bitsOf w.aux.toNat 3 3
  let lv := bitsOf w.aux.toNat 0 3
  let wd := fmtWidth w.fmt
  fibreRun w s [a] false fun e =>
    let o := e.cs.op
    match e.head a with
    | none => .stall
    | some b =>
      if b.isData then
        let els := (beatElems wd b).filterMap id
        let (r, c) := fredFold w op (o.acc.headD none) els {}
        let sd := if els.isEmpty then o.sideA else (o.sideA.element 8 0 false).getD o.sideA
        .ok (((e.consume a).fired.setOp fun o => { o with acc := [r], sideA := sd, pois := o.pois || b.poison }).count none c)
      else if b.isStop then
        let j := b.level.toNat
        let gives := decide (lv ≤ j) && (o.sideA.open_.getLsbD lv || (j == lv && !o.sideA.closes j))
        let r : Beat := match o.acc.headD none with
          | some v => { dataBeat (payOfElems wd [v]) 1 0 0 with round := b.round, poison := o.pois }
          | none => { dataBeat 0 0 0 0 with round := b.round, poison := o.pois }
        let out := (if gives then [r] else []) ++ (if lv < j then [stopBeat (j - lv - 1) b.round] else [])
        e.fireBoth out fun e1 =>
          ((e1.consume a).statAt b).setOp fun o =>
            { o with sideA := o.sideA.stop 8 j, acc := if gives then [] else o.acc, pois := o.pois && !gives }
      else if b.needsBoundary && !o.sideA.settled then .bad e clsMalformed 0x07 a (some b) 0
      else
        match e.defaultTokens [a] with
        | .ok e1 =>
          .ok (if b.isEoi then e1.setOp fun o => { o with sideA := {}, acc := [], pois := false }
               else if b.needsBoundary then e1.setOp fun o => { o with sideA := o.sideA.pass } else e1)
        | f => f

/-! ### FWRITE (R241) -/

/-- FWRITE (R241): op.cnt counts elements; op.any: the leading 0 has been queued. -/
def execFwrite (w : NodeWord) (s : State) : Host.Outcome State Fault Refusal :=
  let a := portA w
  let d := depthOf w
  fibreRun w s [a] true fun e =>
    let o := e.cs.op
    match e.head a with
    | none => .stall
    | some b =>
      if !o.any then .ok (e.setOp fun o => { o with any := true, outY := o.outY ++ [some 0] })
      else if b.isData then
        match nextLane b o.sideA.lane with
        | none => .ok ((e.consume a).fired.setOp fun o => { o with sideA := { o.sideA with lane := 0 } })
        | some l =>
          let c := payElem b.pay 32 l
          match o.sideA.element d c true with
          | none => .bad e clsMalformed 0x02 a (some b) 0
          | some sd =>
            if absentRef ≤ o.cnt + 1 then .bad e clsMalformed 0x05 a (some b) 0
            else
              .ok (e.setOp fun o => { o.push (some c) none b.tag with
                cnt := o.cnt + 1, sideA := { sd with lane := l + 1 }, pois := o.pois || b.poison })
      else if b.isStop then
        let k := b.level.toNat
        if d ≤ k then .bad e clsMalformed 0x01 a (some b) 0
        else
          let entry := o.sideA.open_.getLsbD 0 || (k == 0 && !o.sideA.closes 0)
          .ok ((e.consume a).setOp fun o =>
            let sd := { o.sideA.stop d k with lane := 0 }
            let o1 := { o with sideA := sd, outY := if entry then o.outY ++ [some o.cnt] else o.outY }
            if sd.boundary d then
              { o1 with pois := false, phase := !o1.outX.isEmpty && (o.pois || o.phase), phaseY := !o1.outY.isEmpty && (o.pois || o.phaseY) }
            else o1)
      else if b.needsBoundary && !o.sideA.boundary d then .bad e clsMalformed 0x07 a (some b) 0
      else
        e.beforeToken true (match e.defaultTokens [a] with
          | .ok e1 =>
            .ok (if b.isEoi then e1.setOp fun o => { o with sideA := {}, cnt := 0, any := false, pois := false }
                 else e1)
          | f => f)

end Sys2Proof.Machine
end

