-- ==== Sys2Proof/Machine/Misc.lean ====
section
/-! DEFINITION. Miscellaneous and system node ops (R226 to R229), and the link by which a written port of a registered node
is measured (R312). -/

namespace Sys2Proof.Machine

/-! ### PQCELL (R226) -/

/-- Score p ranks strictly above score q: greater, a NaN below every other score. -/
def scoreAbove (ef : ElemFmt) (p q : Nat) : Bool :=
  match ef with
  | .int sg w => decide (intOf sg w q < intOf sg w p)
  | .flt f =>
    if fltIsNan f p then false
    else if fltIsNan f q then true
    else fltCmp f p q == some .gt

/-- Pair p ranks above pair q: by score, equal scores by the lower index. -/
def pairAbove (ef : ElemFmt) (p q : Beat) : Bool :=
  let sp := payElem p.pay 32 0
  let sq := payElem q.pay 32 0
  scoreAbove ef sp sq || (!scoreAbove ef sq sp && decide (payElem p.pay 32 1 < payElem q.pay 32 1))

/-- The pair of a beat alone, with VALID 0x03. -/
def pairBeat (b : Beat) : Beat := { b with pay := payOfElems 32 [payElem b.pay 32 0, payElem b.pay 32 1], valid := 0x03 }

/-- PQCELL (R226): op.held is the pair held. -/
def execPqcell (w : NodeWord) (s : State) : Host.Outcome State Fault Refusal :=
  let a := portA w
  let lv := bitsOf w.aux.toNat 0 3
  statefulRun w s [a] fun e =>
    let keep (f : Fire) : Fire := match f with
      | .ok e1 => .ok { e1 with cs := { e1.cs with lregs := e.cs.lregs, lpois := e.cs.lpois } }
      | g => g
    match e.head a with
    | none => .stall
    | some d =>
      if d.isData then
        match e.cs.op.held with
        | [] =>
          if e.lackRates.isEmpty then .ok ((e.consume a).fired.setOp fun o => { o with held := [d] }) else .full e.lackRates
        | h :: _ =>
          let dUp := pairAbove (fmtElem w.fmt) d h
          e.fireData [] [if dUp then h else d] fun e1 =>
            (e1.consume a).fired.setOp fun o => { o with held := [if dUp then d else h] }
      else if d.isEog || (d.isStop && decide (lv ≤ d.level.toNat)) then
        let out := match e.cs.op.held with
          | [] => dataBeat 0 0 0 e.cs.op.round
          | h :: _ => pairBeat h
        keep (e.fireXY [out, d] [d] fun e1 => ((e1.consume a).setOp fun o => { o with held := [] }).statAt d)
      else if d.isEoi then
        keep (e.fireXY (e.cs.op.held.map pairBeat ++ [d]) [d] fun e1 =>
          (((e1.consume a).setOp fun o => { o with held := [] }).statAt d).noteRound d)
      else e.defaultTokens [a]

/-! ### STAT (R227) -/

/-- STAT (R227): one value token for each DATA beat. -/
def execStat (w : NodeWord) (s : State) : Host.Outcome State Fault Refusal :=
  let a := portA w
  statefulRun w s [a] fun e =>
    match e.head a with
    | none => .stall
    | some d =>
      if d.isData then
        e.fireData [d] [] fun e1 =>
          let e2 := (e1.consume a).fired
          match tapOf e.rg.plane (e.rg.writtenAt e.off e.ctx).1 (e.rg.writtenAt e.off e.ctx).2 5 with
          | some (_, tap) =>
            { e2 with toks := e2.toks ++ [valueToken e.rg.id e.off e.ctx tap false d.ctl (payElem d.pay 32 1 % 256)] }
          | none => e2
      else e.defaultTokens [a]

/-! ### RATE, VER, SYSID (R228, R312) -/

/-- The link by which a written port is measured: port 0-3 A-D, 4 X, 5 Y. A distributor's or a merge's own link stands for
those of the copies (R312). -/
def Region.measured (rg : Region) (l : NodeLayout) (port : Nat) : Option Link :=
  let (o, c) := l.copies.headD l.home
  if port < 4 then
    match rg.inLink o false c port with
    | none => none
    | some k => (rg.links.find? fun x => x.live && x.dist.contains k).or (rg.linkAt k)
  else
    match rg.outLink o false c port with
    | none => none
    | some k => (rg.links.find? fun x => x.live && x.merge.contains k).or (rg.linkAt k)

/-- The operand of RATE: a registered node and a link code, if it names a link. -/
def rateLink (rg : Region) (v : Nat) : Option Link :=
  if v / 2 ^ 19 ≠ 0 ∨ 5 < bitsOf v 16 3 then none
  else
    match rg.layouts.find? fun l => l.nid == bitsOf v 0 16 && l.nid != 0 with
    | none => none
    | some l => rg.measured l (bitsOf v 16 3)

/-- A system reading: four N32 lanes on X with a's TAG; a purity violation in a pure invocation (R371). -/
def sysRead (w : NodeWord) (s : State) (f : Env → Beat → List Nat) : Host.Outcome State Fault Refusal :=
  let a := portA w
  statelessRun w s [a] [a] fun e =>
    match e.head a with
    | none => .stall
    | some d =>
      e.pureEvent 0x03 fun e =>
        e.fireXY [{ d with pay := payOfElems 32 (f e d), valid := 0x0F }] [] fun e1 => e1.consume a

/-- RATE (R228, R312): under REB 0 the counters read zero (R328). -/
def execRate (w : NodeWord) (s : State) : Host.Outcome State Fault Refusal :=
  sysRead w s fun e d =>
    let lv := (sectAt (seqAt s e.rg.id.seq) e.rg.id.sect).lv
    match e.rg.reb, rateLink e.rg d.ctl, e.rg.inv with
    | _ + 1, some l, some i => [l.repTokens, l.repStall, i.windows, lv]
    | _, _, _ => [0, 0, 0, lv]

/-- VER (R228). -/
def execVer (w : NodeWord) (s : State) : Host.Outcome State Fault Refusal :=
  sysRead w s fun e _ =>
    [(sectAt (seqAt s e.rg.id.seq) e.rg.id.sect).lv, e.rg.id.sect, e.rg.tag, Config.implCode]

/-- The region origin as SYSID reports it. -/
def originWord (p : Pos) : Nat := dieOf p * 2 ^ 30 + p.x % 64 * 2 ^ 24 + p.y % 56 * 2 ^ 16

/-- SYSID (R228). -/
def execSysid (w : NodeWord) (s : State) : Host.Outcome State Fault Refusal :=
  sysRead w s fun e _ =>
    [identity0 0x01, identity1 (e.rg.posOf e.off), e.rg.id.seq.part, originWord e.rg.org]

/-! ### TRAP and NOP (R229) -/

/-- TRAP (R229). -/
def execTrap (w : NodeWord) (s : State) : Host.Outcome State Fault Refusal :=
  let a := portA w
  statefulRun w s [a] fun e =>
    match e.head a with
    | none => .stall
    | some d =>
      if d.isData then
        if d.ctl ≠ 0 then .bad e clsSwtrap (bitsOf (immNat w) 0 8) a (some d) 0 else .ok (e.consume a).fired
      else .ok (((e.consume a).statAt d).noteRound d)

/-- NOP (R229). -/
def execNop (w : NodeWord) (s : State) : Host.Outcome State Fault Refusal :=
  let a := portA w
  statelessRun w s [a] [] fun e =>
    match e.head a with
    | none => .stall
    | some d => e.fireBoth [d] fun e1 => e1.consume a

end Sys2Proof.Machine
end

