-- ==== Sys2Proof/Machine/Rebalance.lean ====
section
/-! DEFINITION. Rate windows, the tests and the commits of the rebalancer (R310 to R328). -/

namespace Sys2Proof.Machine

/-! ### What a window measured (R310 to R316) -/

/-- The window of a mode word, in cycles (R311). -/
def windowLen (mode : Nat) : Nat := 2 ^ (bitsOf mode 14 4 + 10)

/-- The input ports that a node reads, and its enabled outputs (4 X, 5 Y). -/
def Region.readPorts (rg : Region) (l : NodeLayout) : List Nat :=
  [0, 1, 2, 3].filter fun q => inField rg.plane l.at_.1 l.at_.2 q != 0
def Region.writePorts (rg : Region) (l : NodeLayout) : List Nat :=
  [4, 5].filter fun q => outEn rg.plane l.at_.1 l.at_.2 (q - 4)

/-- The full-stall count of a port's link; an output with no link counts as unstalled. -/
def Region.stallAt (rg : Region) (l : NodeLayout) (q : Nat) : Nat := ((rg.measured l q).map (·.repStall)).getD 0

/-- Data firings of a node, summed over its copies. -/
def Region.firesOf (rg : Region) (l : NodeLayout) : Nat :=
  (l.copies.map fun c => (ctxAt (cellAt rg c.1) c.2).repFires).foldl (· + ·) 0

/-- One window's test of R314. -/
def Region.testBottle (rg : Region) (p : Part) (w : Nat) (l : NodeLayout) : Bool :=
  (rg.readPorts l).all (fun q => decide (p.bthr * w ≤ 16 * rg.stallAt l q)) &&
    (rg.writePorts l).all (fun q => decide (16 * rg.stallAt l q < p.othr * w))

/-- One window's test of R315. -/
def Region.testOver (rg : Region) (p : Part) (w : Nat) (l : NodeLayout) : Bool :=
  decide (2 ≤ l.copies.length) && (rg.readPorts l).all (fun q => rg.stallAt l q == 0) &&
    (rg.writePorts l).any (fun q => decide (p.othr * w ≤ 16 * rg.stallAt l q))

/-- The critical rate (R316). -/
def Region.criticalRate (rg : Region) : Nat :=
  let fixed := (rg.layouts.filter fun l => !rg.mayFold l).map rg.firesOf
  match fixed with
  | x :: t => t.foldl min x
  | [] => (rg.layouts.map rg.firesOf).foldl max 0

/-- The node owns a bank segment: a memory tile and a carve-out have no owner (R102). -/
def ownsSegment (p : Plane) (o : Offset) (c : Nat) : Bool :=
  (List.range 8).any fun n => let d := segDesc p o n; d.typ != 0 && decide (d.typ < 4) && d.ctx == c

/-- One window's test of an idle node (R316). -/
def Region.testIdle (rg : Region) (l : NodeLayout) : Bool :=
  rg.mayFold l && l.copies.length == 1 && !ownsSegment rg.plane l.at_.1 l.at_.2 && decide (4 * rg.firesOf l < rg.criticalRate)

/-- The transition that the runs of tests call for (R317): 0 none. -/
def Region.transition (rg : Region) (p : Part) (l : NodeLayout) : Nat :=
  let bottle := decide (p.hold ≤ l.runBottle)
  let n := l.copies.length
  if l.folded then (if rg.reb != 2 && (bottle || decide (rg.criticalRate ≤ 2 * rg.firesOf l)) then 4 else 0)
  else if bottle && decide (n < rg.maxCopies l) && !rg.detKeeps l then 1
  else if n ≥ 2 then (if decide (p.hold ≤ l.runOver) then 2 else 0)
  else if rg.reb != 2 && decide (p.hold ≤ l.runIdle) then 3
  else 0

/-- A run of windows goes on, or starts again. -/
def runNext (n : Nat) (test : Bool) : Nat := if test then n + 1 else 0

/-- A node after a window. A window in which a commit touched it is skipped, and a commit under way keeps its transition. -/
def Region.windowNode (rg : Region) (p : Part) (w : Nat) (l : NodeLayout) : NodeLayout :=
  if rg.commit.any fun c => c.nid == l.nid then l
  else if l.skip then { l with skip := false, runBottle := 0, runOver := 0, runIdle := 0, want := 0 }
  else
    let l1 := { l with runBottle := runNext l.runBottle (rg.testBottle p w l), runOver := runNext l.runOver (rg.testOver p w l),
                       runIdle := runNext l.runIdle (rg.testIdle l) }
    { l1 with want := rg.transition p l1 }

/-- The counters go to the report and start again. -/
def reportLink (l : Link) : Link := { l with repTokens := l.tokens, repStall := l.stall, tokens := 0, stall := 0 }
def reportCell (c : Cell) : Cell := { c with ctxs := c.ctxs.map fun x => { x with repFires := x.fires, fires := 0 } }

/-- WINDOW_END (R311): the window of a running invocation is over. Under REB 1 the transitions are counted in PROPOSED only. -/
def execWindowEnd (r : RegId) (s : State) : Host.Outcome State Fault Refusal :=
  match regionAt s r with
  | none => .next s
  | some rg =>
    match rg.inv with
    | none => .next s
    | some i =>
      let w := windowLen rg.modeWord
      if !rg.running || rg.reb == 0 || decide (s.cycle.toNat < i.windowStart + w) then .next s
      else
        let p := partAt s r.seq.part
        let rg1 : Region :=
          { rg with links := rg.links.map reportLink, cells := rg.cells.map fun x => (x.1, reportCell x.2),
                    inv := some { i with windows := (i.windows + 1) % 2 ^ 32, windowStart := i.windowStart + w } }
        let lays := rg1.layouts.map (rg1.windowNode p w)
        let n := (lays.filter fun l => l.want != 0).length
        if rg.reb == 1 then
          .next (setPart (setRegion s { rg1 with layouts := lays.map fun l => { l with want := 0 } }) r.seq.part
            { p with rbProposed := min (p.rbProposed + n) 65535 })
        else .next (setRegion s { rg1 with layouts := lays })

/-! ### Legal plans (R318) -/

/-- EN of a context; a cell that is not configured has none. -/
def enabled (p : Plane) (o : Offset) (c : Nat) : Bool := (aget p (offKey o)).isSome && bitsOf (planeField p o 12) c 1 == 1

/-- A position of the section's larger rectangle, of a partition of its group, that no other region holds (R318, R330, R331). -/
def roomAt (s : State) (rg : Region) (o : Offset) : Bool :=
  let p := rg.posOf o
  decide (0 ≤ o.dx) && decide (o.dx < rg.w + rg.hw) && decide (0 ≤ o.dy) && decide (o.dy < rg.h + rg.hh) &&
    decide (p.x < 128) && decide (p.y < 112) && inGroup s (partAt s rg.id.seq.part).plgrp p.x p.y 1 1 &&
    s.regions.all fun g => g.id == rg.id || !g.meets p.x p.y 1 1

/-- A cell that a copy may stand on; the bank of no cell is being scrubbed (R361). -/
def cellFree (s : State) (rg : Region) (o : Offset) : Bool := roomAt s rg o && !rg.hardCol o.dx && !s.scrubbing.contains (rg.posOf o)

/-- Slots of all links into a cell. -/
def Region.cellSlots (rg : Region) (o : Offset) : Nat := rg.poolUse o rg.links.length

/-- Slots of a node's input links. -/
def Region.nodeSlots (rg : Region) (l : NodeLayout) : Nat :=
  ((rg.nodeIns l).map fun k => ((rg.linkAt k).map (·.slots)).getD 0).foldl (· + ·) 0

/-- A position that a route of the section may pass: in the region, or in headroom that stands free. -/
def routeThrough (s : State) (rg : Region) (o : Offset) : Bool := rg.holds o || roomAt s rg o

/-- A route may leave a box on a segment: it exists, joins no cell to itself, and ends within the rectangle (R82, R84). -/
def segOpen (s : State) (rg : Region) (o : Offset) (d : Nat) : Bool :=
  descClass d != 3 && validSeg (rg.posOf o) d && routeThrough s rg (segEnd o d).1

/-- A chain of segments from one box to another, within the rectangle. -/
def routeJoins (s : State) (rg : Region) : List (Offset × Nat) → Offset → Offset → Bool
  | [], a, b => a == b
  | (o, d) :: t, a, b => o == a && segOpen s rg o d && routeJoins s rg t (segEnd o d).1 b

/-- No segment is taken twice. -/
def segsApart : List (Offset × Nat) → Bool
  | [] => true
  | x :: t => !t.contains x && segsApart t

/-- The boxes that routes pass: each pass takes a JOIN entry. -/
def boxesPassed (routes : List (List (Offset × Nat))) : List Offset := (routes.map fun r => (r.drop 1).map (·.1)).flatten

/-- The entries of a box suffice for what passes it, beside its converters (Table 8-10). -/
def boxFits (rg : Region) (passed : List Offset) (o : Offset) : Bool :=
  decide ((passed.filter (· == o)).length + ((switchBox rg rg.plane o).filter fun v => swKind v == 2).length ≤ 16)

/-- The live links but for those that a plan lays anew. -/
def stayLinks (rg : Region) (moved : List Nat) : List Link :=
  ((List.range rg.links.length).filter fun k => !moved.contains k).filterMap fun k => (rg.linkAt k).filter (·.live)

/-- The routes of a plan are legal beside those of the links that stay (R82 to R87, R318, R376): `moved` are the links that it lays anew,
`new` those it lays as they would stand. -/
def routesLegal (s : State) (rg : Region) (moved : List Nat) (new : List Link) (ends : List (Offset × Offset))
    (routes : List (List (Offset × Nat))) : Bool :=
  let stay := stayLinks rg moved
  let all := stay.map (·.route) ++ routes
  decide (routes.length = ends.length) && (routes.zip ends).all (fun x => routeJoins s rg x.1 x.2.1 x.2.2) && segsApart all.flatten &&
    (boxesPassed routes).all (boxFits rg (boxesPassed all)) &&
    new.all (fun x => (x.crossings.isEmpty || x.dst.hard || x.slots != 0) && (!x.converts || !x.route.isEmpty)) &&
    bridgeFits s (bridgeUses s rg (stay ++ new)) (holders s rg.id)

/-- A spare context. -/
def spareCtx (rg : Region) (a : Offset × Nat) : Bool := !rg.hardCol a.1.dx && decide (a.2 < 4) && !enabled rg.plane a.1 a.2

/-- The cell has slots for a node's links, beside those it has. -/
def slotsFit (rg : Region) (l : NodeLayout) (a : Offset × Nat) : Bool := decide (rg.cellSlots a.1 + rg.nodeSlots l ≤ 64)

/-- The links that a transition lays anew at a place, on the routes of a plan; those of a node that moves take the place of its own. -/
def plannedLinks (rg : Region) (l : NodeLayout) (a : Offset × Nat) (routes : List (List (Offset × Nat))) : List Link :=
  let n := (rg.nodeIns l).length
  (rg.nodeIns l ++ rg.nodeOuts l).zipIdx.filterMap fun x => (rg.linkAt x.1).map fun y =>
    if l.want = 1 then
      copyLink rg y ⟨a.1, false, a.2, 8⟩ ⟨a.1, false, a.2, 0⟩ (if x.2 < n then y.slots else beatsOf rg.plane l.home) y.fmtD (routes.getD x.2 [])
    else y.laid rg (routes.getD x.2 []) 0

/-- The links that a transition lays in place of what they were. -/
def movedLinks (rg : Region) (l : NodeLayout) : List Nat := if l.want = 1 then [] else rg.nodeIns l ++ rg.nodeOuts l

/-- Every link of the region as a plan lays it. -/
def linksAfter (rg : Region) (l : NodeLayout) (a : Offset × Nat) (routes : List (List (Offset × Nat))) : List Link :=
  if l.want = 2 then rg.links else stayLinks rg (movedLinks rg l) ++ plannedLinks rg l a routes

/-- The place of a transition is legal (R318): a spare context with slots for the node; for a copy, a cell of its own in the larger
rectangle; for a fold, a neighbour without a bottleneck; for an unfold, the written place. -/
def placeLegal (s : State) (rg : Region) (l : NodeLayout) (a : Offset × Nat) : Bool :=
  spareCtx rg a && slotsFit rg l a &&
    match l.want with
    | 1 => cellFree s rg a.1 && l.copies.all fun c => c.1 != a.1
    | 3 => rg.holds a.1 && max (a.1.dx - l.home.1.dx).natAbs (a.1.dy - l.home.1.dy).natAbs == 1 &&
        rg.layouts.all fun x => !(x.copies.any fun c => c.1 == a.1) || decide (x.runBottle < (partAt s rg.id.seq.part).hold)
    | _ => a == l.home

/-- The plan carries out the transition that the node's tests called for, at a legal place on legal routes. A copy that goes needs
none. -/
def planLegal (s : State) (rg : Region) (l : NodeLayout) (a : Offset × Nat) (routes : List (List (Offset × Nat))) : Bool :=
  l.want == 2 || (placeLegal s rg l a &&
    routesLegal s rg (movedLinks rg l) (plannedLinks rg l a routes) (rg.planEnds l (l.want == 1) a.1) routes)

/-! ### Whether some plan is legal (R318) -/

/-- Segments of the larger rectangle: a bound on any route that takes none twice. -/
def Region.roomSegments (rg : Region) : Nat := 48 * (rg.w + rg.hw) * (rg.h + rg.hh)

/-- Some route from one box to another satisfies a test; `used` are the segments taken, fuel bounds the route. -/
def someRoute (s : State) (rg : Region) (goal : Offset) (k : List (Offset × Nat) → Bool) :
    Nat → List (Offset × Nat) → Offset → List (Offset × Nat) → Bool
  | 0, _, o, r => o == goal && k r
  | f + 1, used, o, r =>
    (o == goal && k r) || (List.range 128).any fun d =>
      segOpen s rg o d && !used.contains (o, d) && someRoute s rg goal k f ((o, d) :: used) (segEnd o d).1 (r ++ [(o, d)])

/-- Some routes for a list of ends satisfy a test together. -/
def someRoutes (s : State) (rg : Region) (k : List (List (Offset × Nat)) → Bool) :
    List (Offset × Offset) → List (Offset × Nat) → List (List (Offset × Nat)) → Bool
  | [], _, rs => k rs
  | (a, b) :: t, used, rs =>
    someRoute s rg b (fun r => someRoutes s rg k t (r ++ used) (rs ++ [r])) rg.roomSegments used a []

/-- The contexts of the larger rectangle. -/
def Region.roomPlaces (rg : Region) : List (Offset × Nat) :=
  ((List.range (rg.h + rg.hh)).map fun j => ((List.range (rg.w + rg.hw)).map fun i =>
    (List.range 4).map fun c => ((⟨(i : Nat), (j : Nat)⟩ : Offset), c)).flatten).flatten

/-- The transition of a node has a legal plan. -/
def somePlan (s : State) (rg : Region) (l : NodeLayout) : Bool :=
  l.want == 2 || rg.roomPlaces.any fun a => placeLegal s rg l a &&
    someRoutes s rg (planLegal s rg l a) (rg.planEnds l (l.want == 1) a.1) ((stayLinks rg (movedLinks rg l)).map (·.route)).flatten []

/-! ### The commit (R324 to R326) -/

/-- Every link that a commit on a node holds. -/
def Region.affected (rg : Region) (l : NodeLayout) : List Nat := rg.nodeIns l ++ rg.nodeOuts l

/-- The round at whose edge a commit on a node takes effect: the latest that is open on an affected link. -/
def Region.closingRound (rg : Region) (l : NodeLayout) : Nat :=
  ((rg.affected l).map fun k => ((rg.linkAt k).map (·.sentRound)).getD 0).foldl max 0

/-- The written nodes that a commit affects: the changing node, the producers of its input links and the consumers of its outputs. -/
def Region.affectedNodes (rg : Region) (l : NodeLayout) : List (Offset × Nat) :=
  l.home :: (((rg.affected l).filterMap rg.linkAt).map fun x => [x.src, x.dst]).flatten.filterMap fun e =>
    if e.hard then none else some (rg.writtenAt e.off e.ctx)

/-- The commit begins: the affected producers stop behind the next closing marker, and the affected nodes once they have emitted it. -/
def beginCommit (s : State) (rg : Region) (l : NodeLayout) (plan : CommitPlan) : State :=
  let n := rg.closingRound l
  let us := bridgeUses s rg (linksAfter rg l (plan.off, plan.ctx) plan.routes)
  clearUses (setRegion s ((({ rg with commit := some plan, commitNodes := rg.affectedNodes l, commitRound := n, uses := us } : Region)).modLinks
    (rg.affected l) fun x => { x with cuntil := some n, cheld := x.cheld || x.eoi })) rg.id us

/-- A link of the bridge flits of a region. -/
def linkOnBridge (s : State) (r : RegId) (k : Nat) : Bool := s.bridges.any fun b => b.retry.any fun f => f.reg == r && f.link == k

/-- Every affected link is held and empty, and no affected node holds a SPEC token (step 4). -/
def commitReady (s : State) (rg : Region) (l : NodeLayout) : Bool :=
  let ks := rg.affected l
  (ks.all fun k => (rg.linkAt k).any fun x => (x.cheld || x.eoi) && x.empty && !linkOnBridge s rg.id k) &&
    ((rg.copyLinks l).all fun k => (rg.linkAt k).any fun x => x.empty && !linkOnBridge s rg.id k) &&
    l.copies.all fun c => let op := (ctxAt (cellAt rg c.1) c.2).op; op.held.all (fun b => !b.spec) && op.owe.isEmpty

/-- Steps 4 and 5: the layout changes, and its record begins; step 6 comes when it is written. -/
def finishCommit (s : State) (rg : Region) (l : NodeLayout) (plan : CommitPlan) : State :=
  let r := rg.id
  let ks := rg.affected l
  let ends := (ks.filterMap rg.linkAt).map fun x => [(x.src.off, x.src.ctx), (x.dst.off, x.dst.ctx)]
  let l1 := { l.moveTo (plan.off, plan.ctx) with runBottle := 0, runOver := 0, runIdle := 0, want := 0, skip := true }
  let touched (x : NodeLayout) : Bool := x.copies.any ends.flatten.contains
  let lays := rg.layouts.map fun x =>
    if x.nid = l.nid then l1 else if touched x then { x with runBottle := 0, runOver := 0, runIdle := 0, want := 0, skip := true } else x
  let q := seqAt s r.seq
  let x := sectAt q r.sect
  let r1 := (transitionRegion rg l plan).modLinks ks freshCounts
  let rg1 : Region :=
    { r1 with commit := none, commitNodes := [], layouts := lays, links := numberCircuits s r r1.links, tag := x.lv % 2 ^ 14,
              uses := bridgeUses s r1 r1.links }
  let p := partAt s r.seq.part
  newLayout (setPart (setRegion s rg1) r.seq.part { p with rbCommits := p.rbCommits + 1 }) r lays

/-- COMMIT (R324): the first event with a legal plan begins the commit, and the event that finds every affected link empty carries it
out. A transition that has no legal plan is refused (R318). -/
def execCommit (r : RegId) (plan : CommitPlan) (s : State) : Host.Outcome State Fault Refusal :=
  match regionAt s r with
  | none => .next s
  | some rg =>
    let p := partAt s r.seq.part
    if !rg.running || rg.cut.isSome || rg.inv.isNone || rg.lvDue.isSome then .next s
    else
      match rg.commit with
      | some pl =>
        match rg.layouts.find? fun l => l.nid == pl.nid with
        | none => .next s
        | some l => if commitReady s rg l then .next (finishCommit s rg l pl) else .next s
      | none =>
        match rg.layouts.find? fun l => l.nid == plan.nid && l.want != 0 with
        | none => .next s
        | some l =>
          if p.susp then .next s
          else if planLegal s rg l (plan.off, plan.ctx) plan.routes then .next (beginCommit s rg l plan)
          else if somePlan s rg l then .next s
          else
            .next (setPart (setRegion s { rg with layouts := rg.layouts.map fun x => if x.nid = l.nid then { x with want := 0 } else x })
              r.seq.part { p with rbRefused := min (p.rbRefused + 1) 65535 })

/-- RBSTAT_CLEAR (Table 15-1): REFUSED and PROPOSED. -/
def execRbstatClear (part : Nat) (s : State) : Host.Outcome State Fault Refusal :=
  .next (setPart s part { partAt s part with rbRefused := 0, rbProposed := 0 })

end Sys2Proof.Machine
end

