-- ==== Sys2Proof/Machine/Registers.lean ====
section
/-! DEFINITION. The registers of the partition control pages (Tables 3-6, 4-8, 7-10, 14-2, 15-1, 16-1, 17-2, 18-2, 19-5) and of the
device page (Table 19-3): REGISTER_WRITE, with the behaviour of each. -/

namespace Sys2Proof.Machine

/-- What a queue base register takes: bits [47:6], s, the target code; none: the write is ignored (Tables 3-6, 17-2). -/
def queueBase (q : NQueue) (v : Nat) (withSize : Bool) : Option NQueue :=
  let s := if withSize then bitsOf v 2 4 else 0
  if 10 < s ∨ 2 ≤ bitsOf v 0 2 then none
  else some { q with base := bitsOf v 6 42 * 64, s := s, host := bitsOf v 0 2 == 1 }

/-- Change a partition's page. -/
def modPart (s : State) (p : Nat) (f : Part → Part) : State := setPart s p (f (partAt s p))

/-- XROOT (Table 3-6): only while no section of the partition is armed, and with a root table that the partition owns. -/
def writeXroot (s : State) (p v : Nat) : State :=
  let a := bitsOf v 14 34 * 2 ^ 14
  let armed := s.seqs.any fun x => x.1 / 32 == p && x.2.sects.any (·.armed)
  if armed || !ownsLocal s p a (2 ^ 14) then s else modPart s p fun x => { x with xroot := a }

/-- PLGRP (Table 16-1): it names the partition itself, and only partitions of its tenant. -/
def writePlgrp (s : State) (p v : Nat) : State :=
  let g := BitVec.ofNat 8 v
  if g.getLsbD p && (List.range 8).all (fun q => !g.getLsbD q || sameTenant s p q) then modPart s p fun x => { x with plgrp := g } else s

/-- CKBASE (Table 16-1): it must translate to LOCAL. -/
def writeCkbase (s : State) (p v : Nat) : State :=
  let va := vaField v 12
  match immTarget s p va false with
  | .ok (_, .dram d _) => if d = partDie p then modPart s p fun x => { x with ckbase := va } else s
  | _ => s

/-- RBCTL (Table 15-1): a write that would set BTHR or HOLD to 0 is ignored. -/
def writeRbctl (s : State) (p v : Nat) : State :=
  if bitsOf v 0 4 = 0 ∨ bitsOf v 8 4 = 0 then s
  else modPart s p fun x => { x with bthr := bitsOf v 0 4, othr := bitsOf v 4 4, hold := bitsOf v 8 4, susp := v.testBit 31 }

/-- AGCTL (Table 18-2): EN; FLUSH sets BUSY until AGATE_FLUSH has taken every entry away, and one written while BUSY is ignored. -/
def writeAgctl (s : State) (p v : Nat) : State :=
  modPart s p fun x => { x with agEn := v.testBit 0, agBusy := x.agBusy || v.testBit 1 }

/-- A state that an event leaves. -/
def stateOf (s : State) (o : Host.Outcome State Fault Refusal) : State :=
  match o with
  | .next t => t
  | _ => s

/-- SQCTL (Table 14-2). DESIGN CHOICE: bits set together act in turn, GO, SKIP, STOP (log 150). -/
def writeSqctl (s : State) (c : SeqId) (v : Nat) : State :=
  let go (t : State) : State := if v.testBit 0 then stateOf t (execSqctlGo c t) else t
  let skip (t : State) : State := if v.testBit 1 then stateOf t (execSqctlSkip c t) else t
  let stop (t : State) : State := if v.testBit 2 then stateOf t (execSqctlStop c t) else t
  stop (skip (go s))

/-- SQHEAD (Table 14-2): ignored unless the context is IDLE. -/
def writeSqhead (s : State) (c : SeqId) (v : Nat) : State :=
  let q := seqAt s c
  if q.st == .idle then setSeq s c { q with sqhead := vaField v 6 } else s

/-- The registers of the sequencer contexts. -/
def writeSeqReg (s : State) (p off v : Nat) : State :=
  let n := (off - 0x400) / 64
  if sqCount (partAt s p) ≤ n then s
  else
    match (off - 0x400) % 64 with
    | 0 => writeSqhead s ⟨p, n⟩ v
    | 8 => writeSqctl s ⟨p, n⟩ v
    | _ => s

/-- Registers from 0x100 to 0x1E8. -/
def writeLow (s : State) (p off : Nat) (w : BitVec 64) : State :=
  let v := w.toNat
  match off with
  | 0x100 => writeXroot s p v
  | 0x108 => modPart s p fun x => { x with invAddr := vaField v 16 }
  | 0x110 => modPart s p fun x => { x with invCnt := w.setWidth 32 }
  | 0x118 => if v.testBit 0 then stateOf s (execInvalidationStart p s) else s
  | 0x120 => modPart s p fun x => { x with pflim := w.setWidth 16 }
  | 0x128 => match queueBase (partAt s p).fnq v true with | some q => modPart s p fun x => { x with fnq := q } | none => s
  | 0x130 => modPart s p fun x => { x with fnq := { x.fnq with head := w.setWidth 16 } }
  | 0x140 => match queueBase (partAt s p).mnq v true with | some q => modPart s p fun x => { x with mnq := q } | none => s
  | 0x148 => modPart s p fun x => { x with mnq := { x.mnq with head := w.setWidth 16 } }
  | 0x158 => if v.testBit 63 then modPart s p fun x => { x with mnOvf := false } else s
  | 0x160 => if 4 ≤ bitsOf v 0 5 ∧ bitsOf v 0 5 ≤ 20 then modPart s p fun x => { x with acthr := bitsOf v 0 5 } else s
  | 0x168 => stateOf s (execResume p (w.setWidth 32) s)
  | 0x180 => modPart s p fun x => { x with dlTrap := v.testBit 0 }
  | 0x188 => stateOf s (execPrectlGo p w s)
  | 0x190 => writePlgrp s p v
  | 0x198 => stateOf s (execPwbudWrite p w s)
  | 0x1A0 => modPart s p fun x => { x with tAge := w.setWidth 16, pren := v.testBit 16 }
  | 0x1A8 => modPart s p fun x => { x with cutlim := w.setWidth 16 }
  | 0x1B0 => writeCkbase s p v
  | 0x1B8 => modPart s p fun x => { x with cksize := w.setWidth 32 }
  | 0x1C0 => writeRbctl s p v
  | 0x1C8 => modPart s p fun x => { x with lrbase := vaField v 12 }
  | 0x1D0 => modPart s p fun x => { x with rbRefused := 0, rbProposed := 0 }
  | 0x1D8 => modPart s p fun x => { x with winbase := vaField v 5 }
  | 0x1E0 => modPart s p fun x => { x with wincnt := w.setWidth 12 }
  | _ => s

/-- Registers from 0x220 to 0x308. -/
def writeMid (s : State) (p off : Nat) (w : BitVec 64) : State :=
  let v := w.toNat
  match off with
  | 0x220 => modPart s p fun x => { x with statOvf := x.statOvf &&& ~~~(w.setWidth 256) }
  | 0x228 => modPart s p fun x => { x with statOvf := x.statOvf &&& ~~~(w.setWidth 256 <<< 64) }
  | 0x230 => modPart s p fun x => { x with statOvf := x.statOvf &&& ~~~(w.setWidth 256 <<< 128) }
  | 0x238 => modPart s p fun x => { x with statOvf := x.statOvf &&& ~~~(w.setWidth 256 <<< 192) }
  | 0x240 => match queueBase (partAt s p).frq v true with | some q => modPart s p fun x => { x with frq := q } | none => s
  | 0x248 => modPart s p fun x => { x with frq := { x.frq with head := w.setWidth 16 } }
  | 0x258 => match queueBase (partAt s p).sfq v true with | some q => modPart s p fun x => { x with sfq := q } | none => s
  | 0x260 => modPart s p fun x => { x with sfq := { x.sfq with head := w.setWidth 16 } }
  | 0x270 => match queueBase {} v false with
    | some q => modPart s p fun x => { x with hmBase := q.base, hmHost := q.host }
    | none => s
  | 0x278 => modPart s p fun x => { x with hmLen := w.setWidth 20 }
  | 0x280 => stateOf s (execFltstatClear p s)
  | 0x288 => writeFrctl p w s
  | 0x290 => writeAgctl s p v
  | 0x2A0 => stateOf s (execAgsbaseWrite p w s)
  | 0x2A8 => stateOf s (execAgssizeWrite p w s)
  | 0x300 => modPart s p fun x => { x with pirq := x.pirq &&& ~~~(w.setWidth 4) }
  | 0x308 => modPart s p fun x => { x with hdmRead := v.testBit 0, hdmWrite := v.testBit 1 }
  | _ => s

/-- A sum word takes the written value (R143). -/
def writeSum (s : State) (p off : Nat) (w : BitVec 64) : State :=
  modPart s p fun x => { x with statSum := aset x.statSum ((off - 0x1000) / 4) (w.setWidth 32) }

/-- A write to a partition control page. -/
def writePage (s : State) (p off : Nat) (w : BitVec 64) : State :=
  if off < 0x200 then writeLow s p off w
  else if off < 0x400 then writeMid s p off w
  else if off < 0x1000 then writeSeqReg s p off w.toNat
  else if off < 0x2000 ∧ off % 4 = 0 then writeSum s p off w
  else s

/-- The registers of the device page as they read (Table 19-3). -/
def readDevice (s : State) (off : Nat) : BitVec 64 :=
  match off with
  | 0x000 => BitVec.ofNat 64 (0x0100 + (s.modId % 64) * 2 ^ 16 + (s.domSize % 128) * 2 ^ 22)
  | 0x008 => s.pmap.setWidth 64
  | 0x010 => BitVec.ofNat 64 (s.fwStat.toNat + s.fwVersion.toNat * 2 ^ 16)
  | 0x018 => BitVec.ofNat 64 s.mbAddr
  | 0x020 => s.mbCmd.setWidth 64
  | 0x028 => BitVec.ofNat 64 (s.mbBusy.toNat + 2 * s.mbDone.toNat + s.mbResult.toNat * 2 ^ 8)
  | 0x030 => BitVec.ofNat 64 s.krvCnt
  | _ => 0

/-- A write to the device page (Table 19-3), partition number 8 in the event: GO of MBCMD begins the command, which its own event
carries out, and is ignored while BUSY; a code that no command has ends with result 0x03. -/
def writeDevice (s : State) (off : Nat) (w : BitVec 64) : State :=
  match off with
  | 0x018 => { s with mbAddr := bitsOf w.toNat 12 36 * 2 ^ 12 }
  | 0x020 =>
    let c := w.setWidth 8
    if !w.getLsbD 63 then { s with mbCmd := c }
    else if s.mbBusy then s
    else
      if 1 ≤ c.toNat ∧ c.toNat ≤ 6 then { s with mbCmd := c, mbRun := c, mbBusy := true, mbDone := false }
      else { s with mbCmd := c, mbDone := true, mbResult := 0x03, mbIrqs := s.mbIrqs + 1 }
  | 0x028 => if w.getLsbD 1 then { s with mbDone := false } else s
  | 0x030 => { s with krvCnt := 0 }
  | _ => s

/-- REGISTER_WRITE (R42, R143, R283, R313, R337, R351, R366, R382, R383): a write to a register of a page. A device whose
firmware does not verify exposes its device page only (R380). -/
def execRegisterWrite (part off : Nat) (v : BitVec 64) (s : State) : Host.Outcome State Fault Refusal :=
  if part = 8 then .next (writeDevice s off v)
  else if 8 < part ∨ s.fwStat ≠ 0 then .next s
  else .next (writePage s part off v)

end Sys2Proof.Machine
end

