-- ==== Sys2Proof/Machine/Mailbox.lean ====
section
/-! DEFINITION. The mailbox commands (R375, R377, R379, R381, R382), the reset of the device (R380), and what comes over the CXL and
Slaundene ports (R384 to R387, R362). -/

namespace Sys2Proof.Machine

/-! ### Mailbox and measurement (R381, R382) -/

/-- The command runs: GO was written with its code, and it has not ended (R382). Its arguments are the event's: no file places them in
the command buffer (log 153). -/
def mailRuns (s : State) (code : BitVec 8) : Bool := s.mbBusy && s.mbRun == code

/-- The command that runs ends with a result; vector 8 is raised. -/
def mailDone (s : State) (result : BitVec 8) : State :=
  { s with mbBusy := false, mbDone := true, mbResult := result, mbIrqs := s.mbIrqs + 1 }

/-- M takes an event (R381). -/
def record (s : State) (kind : Nat) (vals : List Byte) : State :=
  { s with measure := shake256 (s.measure ++ shake256 (Config.measuredEvent kind vals) 64) 64, measureCount := s.measureCount + 1 }

/-! ### SHAPE (R375) -/

/-- A region stands on a die with some position (R329). -/
def Region.onDie (rg : Region) (d : Nat) : Bool :=
  ((List.range rg.h).any fun j => (List.range rg.w).any fun i => dieOf (rg.posOf ⟨(i : Int), (j : Int)⟩) == d) ||
    rg.plane.any fun x => dieOf (rg.posOf (keyOff x.1)) == d

/-- A region, saved invocation or parked context of a die exists: of its partitions, or a region of another that stands on it. -/
def dieBusy (s : State) (d : Nat) : Bool :=
  let mine (p : Nat) : Bool := p / 2 == d
  s.regions.any (fun g => mine g.id.seq.part || g.onDie d) ||
    s.seqs.any fun x => mine (x.1 / 32) &&
      (x.2.st == .parklink || x.2.st == .parkwait || x.2.st == .parkfault || x.2.sects.any fun y => y.saved.isSome)

/-- A partition as a SHAPE leaves it: its page at the defaults of its shape (R333, R366, Table 19-1). -/
def shapedPart (p shape : Nat) : Part :=
  if shape = 1 then { Part.fresh p with shape := 1, pwbud := 1024, agWays := 0xFFFF }
  else if shape = 2 then { Part.fresh p with shape := 2, pwbud := 512, agWays := if p % 2 = 0 then 0x00FF else 0xFF00 }
  else Part.fresh p

/-- The die in its new shape. -/
def shapeDie (s : State) (d shape : Nat) : State :=
  let one (p : Nat) : Part := shapedPart p (if shape = 1 then (if p % 2 = 0 then 1 else 0) else shape)
  let pm := BitVec.ofNat 8 (s.pmap.toNat - bitsOf s.pmap.toNat (2 * d) 2 * 2 ^ (2 * d) + shape * 2 ^ (2 * d))
  { setPart (setPart s (2 * d) (one (2 * d))) (2 * d + 1) (one (2 * d + 1)) with
    pmap := pm, shaped := true, seqs := s.seqs.filter fun x => x.1 / 64 != d }

/-- SHAPE (R375, R381). -/
def execShape (d shape : Nat) (s : State) : Host.Outcome State Fault Refusal :=
  if !mailRuns s 0x01 then .next s
  else if 4 ≤ d ∨ 3 ≤ shape then .next (mailDone s 0x03)
  else if dieBusy s d || s.fwStat != 0 then .next (mailDone s 0x01)
  else
    let s1 := shapeDie s d shape
    .next (mailDone (record s1 2 [BitVec.ofNat 8 d, BitVec.ofNat 8 shape, s1.pmap]) 0x00)

/-! ### BIND and REVOKE (R377 to R379, R382) -/

/-- The partitions of a mask. -/
def maskParts (m : BitVec 8) : List Nat := (List.range 8).filter fun p => m.getLsbD p

/-- The wrapping key of a blob: SHAKE256 of the 56-byte X448 secret shared with its ephemeral key. -/
def blobKey (blob : List Byte) : List Byte := shake256 ((List.range 56).map (Config.x448Shared (blob.take 56))) 32

/-- The 112 plaintext bytes of a blob, if its tag is right: AES-256-GCM with a zero nonce. -/
def openBlob (blob : List Byte) : Option (List Byte) :=
  gcmOpen (blobKey blob) (List.replicate 12 0) [] ((blob.drop 72).take 112) ((blob.drop 184).take 16)

/-- The slot that a blob's plaintext gives. -/
def slotOfBlob (plain : List Byte) (binding : Nat) : KeySlot :=
  { st := .bound, data := plain.take 32, tweak := (plain.drop 32).take 32, tenant := (plain.drop 64).take 16,
    tdn := (plain.getD 80 0).toNat, binding := binding }

/-- A slot takes a binding, and the partitions of the mask are bound to it. -/
def bindSlot (s : State) (slot : Nat) (mask : BitVec 8) (k : KeySlot) : State :=
  (maskParts mask).foldl (fun t p => modPart t p fun x => { x with slot := some slot })
    { s with slots := lmod s.slots slot fun _ => k, bindings := s.bindings + 1 }

/-- BIND (R377, R382). -/
def execBind (slot : Nat) (mask : BitVec 8) (blob : List Byte) (s : State) : Host.Outcome State Fault Refusal :=
  if !mailRuns s 0x02 then .next s
  else if 64 ≤ slot ∨ blob.length ≠ 200 ∨ (maskParts mask).any (fun p => (partAt s p).shape == 0) = true then .next (mailDone s 0x03)
  else if (s.slots.getD slot {}).st != .empty || (maskParts mask).any fun p => (partAt s p).slot.isSome then .next (mailDone s 0x01)
  else
    match openBlob blob with
    | none => .next (mailDone s 0x02)
    | some plain =>
      let k := slotOfBlob plain (s.bindings + 1)
      .next (mailDone (record (bindSlot s slot mask k) 3 (BitVec.ofNat 8 slot :: k.tenant ++ [BitVec.ofNat 8 k.tdn])) 0x00)

/-- The partitions bound to a slot. -/
def partsOf (s : State) (k : Nat) : List Nat := (List.range 8).filter fun p => (partAt s p).slot == some k

/-- The contexts of a partition park (R379). -/
def parkAll (s : State) (p : Nat) : State :=
  (s.seqs.filter fun x => x.1 / 32 == p && x.2.st != .idle && x.2.st != .parkfault).foldl
    (fun t x => parkSeq t (seqOfKey x.1) clsKeyrev 0x02) s

/-- Steps 1 and 2 of R379. -/
def beginRevoke (s : State) (k : Nat) : State :=
  let s1 := { s with slots := lmod s.slots k fun x => { x with st := .revoking } }
  let ps := partsOf s k
  let rs := (s.regions.filter fun g => ps.contains g.id.seq.part && g.frozen.isNone).map (·.id)
  ps.foldl parkAll (rs.foldl (fun t r => faultRegion t r (originFault clsKeyrev 0x02)) s1)

/-- A write issued under the slot's binding has not performed. -/
def writesUnder (s : State) (b : Nat) : Bool :=
  s.reqs.any fun q => match q.acc with
    | .write _ _ | .amo .. => q.binding == b
    | .copy _ (some d) => d.binding == b
    | _ => false

/-- A pending insert is cancelled (R372). -/
def cancelPending (p : PureInv) : PureInv := { p with cancelled := true, granules := [] }

/-- A frozen region of a revoked partition, its cells scrubbed and its staging cleared (R361, R379). -/
def scrubbed (g : Region) : Region :=
  { g.setPure cancelPending with
    cells := [], plane := [], links := g.links.map Link.cleared, installed := false, feed := none, shadow := none,
    sps := g.sps.map fun x => { x with staging := [], stagePois := [], pool := [] } }

/-- Pending inserts in a section context. -/
def cancelSaved (x : SectCtx) : SectCtx :=
  { x with armq := x.armq.map fun e => { e with pureInv := e.pureInv.map cancelPending }, saved := x.saved.map fun g => g.setPure cancelPending }

/-- Steps 4 and 5 of R379. -/
def endRevoke (s : State) (k : Nat) : State :=
  let ps := partsOf s k
  let s1 := { s with
    pools := s.pools.filter fun x => !ps.contains (x.1 / 1048576),
    parts := s.parts.map fun x => { x with entries := x.entries.filter fun e => e.slot != k },
    regions := s.regions.map fun g => if ps.contains g.id.seq.part then scrubbed g else g,
    seqs := s.seqs.map fun x => if ps.contains (x.1 / 32) then (x.1, { x.2 with sects := x.2.sects.map cancelSaved }) else x,
    slots := lmod s.slots k fun _ => {} }
  ps.foldl (fun t p => modPart t p fun x => { x with watch := [], slot := none, saves := x.saves.map fun a => { a with revoked := true } }) s1

/-- REVOKE of a slot that its state allows: BOUND, it freezes its partitions; REVOKING, it is zeroed once every write under it has
performed. -/
def revokeSlot (s : State) (k : Nat) (x : KeySlot) : State :=
  match x.st with
  | .empty => mailDone s 0x01
  | .bound => beginRevoke s k
  | .revoking => if writesUnder s x.binding then s else mailDone (record (endRevoke s k) 4 [BitVec.ofNat 8 k]) 0x00

/-- Another slot is being revoked: the command that runs is not for slot k. -/
def revokesOther (s : State) (k : Nat) : Bool := s.slots.zipIdx.any fun x => x.1.st == .revoking && x.2 != k

/-- REVOKE (R379): the command's first event, and the events that go on with it until it completes. -/
def execRevoke (k : Nat) (s : State) : Host.Outcome State Fault Refusal :=
  if !mailRuns s 0x03 || revokesOther s k then .next s
  else
    match s.slots[k]? with
    | none => .next (mailDone s 0x03)
    | some x => .next (revokeSlot s k x)

/-! ### QUOTE, DOMSET, CXLMAP, KRVCNT (R381 to R385) -/

/-- "PORVIS-NEROST-QUOTE". -/
def quoteText : List Byte := "PORVIS-NEROST-QUOTE".toList.map fun c => BitVec.ofNat 8 c.toNat

/-- The bytes that QUOTE signs. -/
def quoteBytes (s : State) (nonce : List Byte) : List Byte :=
  quoteText ++ nonce ++ s.measure ++ bytesOfNat 8 s.measureCount ++ [s.pmap, BitVec.ofNat 8 s.modId]

/-- QUOTE (R381): the 114-byte signature and M go to the command buffer. -/
def execQuote (nonce : List Byte) (s : State) : Host.Outcome State Fault Refusal :=
  if !mailRuns s 0x04 then .next s
  else if nonce.length ≠ 32 then .next (mailDone s 0x03)
  else
    let out := (List.range 114).map (Config.ed448Sign (quoteBytes s nonce)) ++ s.measure
    let s1 := devWrite { s with mbOut := out } 0 (hostKey s.mbAddr) out false
    .next (mailDone s1 0x00)

/-- DOMSET (R382, R385): before the first SHAPE only. -/
def execDomset (mid size : Nat) (s : State) : Host.Outcome State Fault Refusal :=
  if !mailRuns s 0x05 then .next s
  else if size = 0 ∨ 64 < size ∨ size ≤ mid then .next (mailDone s 0x03)
  else if s.shaped then .next (mailDone s 0x01)
  else .next (mailDone { s with modId := mid, domSize := size } 0x00)

/-- CXLMAP (R382): offset and length in units of 1 GiB. -/
def execCxlmap (part port off len : Nat) (s : State) : Host.Outcome State Fault Refusal :=
  let o := off * gib
  let n := len * gib
  if !mailRuns s 0x06 then .next s
  else if 2 ≤ port ∨ (partAt s part).shape = 0 then .next (mailDone s 0x03)
  else if s.cxlCap.getD port 0 < o + n || s.cxlMap.any fun x => x.part != part && x.port == port && decide (x.off < o + n) && decide (o < x.off + x.len) then
    .next (mailDone s 0x01)
  else .next (mailDone { s with cxlMap := s.cxlMap ++ [⟨part, port, o, n⟩] } 0x00)

/-- KRVCNT_CLEAR (Table 19-3). -/
def execKrvcntClear (s : State) : Host.Outcome State Fault Refusal := .next { s with krvCnt := 0 }

/-! ### Reset (R380, R381) -/

/-- DEVICE_RESET (R380): everything is as after reset but what outlives it: memory, the number of bindings, the sealed-record
count, what is fused or burnt in, and the model's own bookkeeping. Firmware whose signature verifies under the key of the ROM's digest, and
whose version is at least the fused one, is measured, its image and then its configuration (R381). -/
def execDeviceReset (fw : Firmware) (s : State) : Host.Outcome State Fault Refusal :=
  let s0 : State :=
    { State.reset with
      mem := s.mem, memPois := s.memPois, lineKey := s.lineKey, bindings := s.bindings, fseq := s.fseq, tick := s.tick,
      agenda := s.agenda, actor := s.actor, hostReads := s.hostReads, hostHeld := s.hostHeld,
      romDigest := s.romDigest, fusedVersion := s.fusedVersion, idKey := s.idKey, certChain := s.certChain }
  if !Config.fwVerify s.romDigest fw.image fw.sig then .next { s0 with fwStat := 0x01 }
  else if fw.version < s.fusedVersion then .next { s0 with fwStat := 0x02 }
  else .next (record (record { s0 with fwVersion := fw.version } 0 fw.image) 1 fw.config)

/-! ### CXL and Slaundene ports (R384, R386, R387, R362) -/

/-- CXL_LINK_DOWN (R384): a LINK fault in every region whose partition holds a range on the port. -/
def execCxlLinkDown (port : Nat) (s : State) : Host.Outcome State Fault Refusal :=
  let rs := (s.regions.filter fun g => s.cxlMap.any fun x => x.part == g.id.seq.part && x.port == port).map (·.id)
  .next (rs.foldl (fun t r => raiseFault t r (bridgeFault 0x03 port)) { s with cxlUp := lmod s.cxlUp port fun _ => false })

/-- An access waits at a port for another module. -/
def onPort (s : State) (port : Nat) (q : MemReq) : Bool :=
  match q.tgt with
  | .remote m _ _ => q.sent && q.status.isNone && hopPort s.domSize s.modId m == port
  | _ => false

/-- Regions with an access outstanding on a port. -/
def portRegions (s : State) (port : Nat) : List RegId :=
  ((s.reqs.filter (onPort s port)).filterMap fun q => q.who.region).eraseDups

/-- The number of data bytes that an access's answer carries. -/
def answerSize (a : Access) : Nat :=
  match a with
  | .read n | .copy n _ | .amo _ n _ _ => n
  | .write _ _ => 0

/-- A response flit: 32 data bytes, then a status; the last flit's status counts (log 13). -/
def takeResponse (f : LinkFlit) (q : MemReq) : MemReq :=
  let bs := bytesOfNat 32 (f.body.toNat % 2 ^ 256)
  let st := f.body.toNat / 2 ^ 256 % 2 ^ 32
  let got := q.reply ++ bs
  let n := answerSize q.acc
  if n ≤ got.length ∨ st = 1 then { q with reply := got.take n, status := some st } else { q with reply := got }

/-- Change the link of the running regions that holds a circuit of a Slaundene port: its incoming end, or its outgoing one. -/
def modCircuit (s : State) (port circ : Nat) (into : Bool) (f : Link → Link) : Option State :=
  (s.regions.findSome? fun rg =>
    (rg.links.findIdx? fun l => l.live && (let e := if into then l.src else l.dst; e.far && e.port == 8 + port && e.ctx == circ)).map fun j =>
      setRegion s (rg.modLink j f))

/-- A circuit beat that has come: into the circuit's receive buffer (R97); one whose circuit is not there waits. -/
def takeCircuit (s : State) (port : Nat) (f : LinkFlit) : State :=
  (modCircuit s port f.id.toNat true fun l =>
      { l with crossings := lmod l.crossings 0 fun x => { x with far := x.far ++ [Beat.ofFlit f.body] } }).getD
    { s with sports := lmod s.sports port fun p => { p with circuits := p.circuits ++ [f] } }

/-- An acknowledgement, as a flit of TYPE 3 (log 137). -/
def isAck (f : LinkFlit) : Bool := f.typ == 3 && f.body.toNat % 4 == 0

/-- An acknowledgement frees the flits before the SEQ that it names; a credit of 1 returns an allowance, one of 2 a slot (R86, R97). -/
def takeCredit (s : State) (port : Nat) (f : LinkFlit) : State :=
  let v := f.body.toNat % 4
  if v = 0 then { s with sports := lmod s.sports port fun p => p.acknowledged (BitVec.ofNat 16 (f.body.toNat / 2 ^ 16)) }
  else
    (modCircuit s port f.id.toNat false fun l =>
      if v = 2 then { l with free := l.free + 1 }
      else { l with crossings := l.crossings.map fun x => if x.dir = 8 + port then { x with allow := x.allow + 1 } else x }).getD s

/-- What a flit that is taken does: a response goes to its access, a circuit beat to its circuit, an acknowledgement
frees flits sent, a credit returns to its circuit. A memory request is served by REMOTE_ACCESS_REQUEST. -/
def takeFlit (s : State) (port : Nat) (f : LinkFlit) : State :=
  match f.typ.toNat with
  | 0 => takeCircuit s port f
  | 2 =>
    match s.reqs.find? fun q => onPort s port q && q.id % 4096 == f.id.toNat with
    | none => s
    | some q => { s with reqs := s.reqs.map fun x => if x.id = q.id then takeResponse f x else x }
  | 3 => takeCredit s port f
  | _ => s

/-- The port has taken a flit: one that has a number of its own is counted and acknowledged (R98). -/
def SPort.took (f : LinkFlit) (p : SPort) : SPort :=
  if isAck f then { p with refused := 0 } else SPort.acknowledge { p with recvSeq := p.recvSeq + 1, refused := 0 }

/-- LINK_FLIT_RECEIVE (R386): a flit that fails its CRC, is out of SEQ or has a reserved TYPE is refused; the eighth refusal in a
row stops the port. -/
def execLinkFlitReceive (port : Nat) (f : LinkFlit) (crcOk : Bool) (s : State) : Host.Outcome State Fault Refusal :=
  match s.sports[port]? with
  | none => .next s
  | some p =>
    if p.stopped then .next s
    else if crcOk && f.seq == p.recvSeq && decide (f.typ.toNat < 5) then
      .next (takeFlit { s with sports := lmod s.sports port (SPort.took f) } port f)
    else if p.refused + 1 < 8 then .next { s with sports := lmod s.sports port fun x => { x with refused := x.refused + 1 } }
    else
      let rs := (portRegions s port ++ onBridge s (8 + port)).eraseDups
      let s1 := { s with sports := lmod s.sports port fun x => { x with refused := 8, stopped := true, faulted := rs } }
      .next (rs.foldl (fun t r => raiseFault t r (bridgeFault 0x02 port)) s1)

/-- Response flits: the data, 32 bytes a flit, with the status in each; at least one (log 13). -/
def responseFlits (bs : List Byte) (status : Nat) : List (BitVec 288) :=
  let n := max 1 ((bs.length + 31) / 32)
  (List.range n).map fun i => flitBody ((bs.drop (32 * i)).take 32) status

/-- The partition that serves a remote access, or the status of its refusal: the line's owner must be bound to a slot with the same TDN
(1: PERM, R387), and one whose slot is being revoked serves nothing (3: KEYREV, R379; log 13). -/
def remoteOwner (s : State) (q : RemoteReq) : Except Nat Nat :=
  match ownerOfDram s q.die q.addr with
  | none => .error 1
  | some p =>
    match partSlot s p with
    | none => .error 1
    | some k => if k.tdn != q.tdn then .error 1 else if k.st == .bound then .ok p else .error (if k.st == .revoking then 3 else 1)

/-- Answer on a port. -/
def respond (s : State) (port : Nat) (tag : BitVec 12) (bs : List Byte) (status : Nat) : State :=
  { s with sports := lmod s.sports port fun p => sendFlits p 2 tag (responseFlits bs status) }

/-- REMOTE_ACCESS_REQUEST (R387): an access of another module to a DRAM line of this one. -/
def execRemoteAccessRequest (port : Nat) (q : RemoteReq) (s : State) : Host.Outcome State Fault Refusal :=
  if (s.sports[port]?).all (·.stopped) then .next s
  else
    match remoteOwner s q with
    | .error st => .next (respond s port q.tag [] st)
    | .ok p =>
      let b := partBinding s p
      let k := dramKey q.die q.addr
      match q.write, q.amo with
      | some bs, _ => .next (respond (devWrite s b k bs q.poison) port q.tag [] 0)
      | none, none =>
        let (bs, pois) := devRead s b k q.len
        .next (respond s port q.tag bs (if pois then 2 else 0))
      | none, some (op, arg, cmp) =>
        let (bs, pois) := devRead s b k q.len
        if q.poison then .next (respond (devWrite s b k (List.replicate q.len 0) true) port q.tag bs 2)
        else if pois then .next (respond s port q.tag bs 2)
        else
          match amoNew op q.len (natOfBytes bs) arg cmp with
          | none => .next (respond s port q.tag bs 0)
          | some v => .next (respond (devWrite s b k (bytesOfNat q.len v) false) port q.tag bs 0)

/-- LINK_RETRAIN (R362): bridge directions are 0 to 7, Slaundene port k is 8 + k. The circuits come back once every region that
faulted has been released; accesses still waiting on the port are sent again. -/
def execLinkRetrain (port : Nat) (s : State) : Host.Outcome State Fault Refusal :=
  if port < 8 then
    let b := bridgeAt s port
    if !b.stopped || !b.faulted.isEmpty then .next s
    else .next (setBridge s port { retries := b.retries })
  else
    match s.sports[port - 8]? with
    | none => .next s
    | some p =>
      if !p.stopped || !p.faulted.isEmpty then .next s
      else
        let again (q : MemReq) : MemReq := if onPort s (port - 8) q then { q with sent := false, reply := [] } else q
        .next { s with
          sports := lmod s.sports (port - 8) fun x => { x with stopped := false, refused := 0, recvSeq := 0, sendSeq := 0, outgoing := [], faulted := [] },
          reqs := (s.reqs.filter fun q => !(onPort s (port - 8) q && q.who == .detached)).map again }

end Sys2Proof.Machine
end

