-- ==== Sys2Proof/Machine/Online.lean ====
section
/-! DEFINITION. Online signed-digit groups (R136 to R138) and the online node ops (R223 to R225). -/

namespace Sys2Proof.Machine

/-! ### Groups (R136) -/

/-- The signed exponent of lane i of an exponent beat. -/
def osdE (x : Beat) (i : Nat) : Int := signedOf 16 (payElem x.pay 16 (2 * i + 1))
/-- The digit count of lane i. -/
def osdN (x : Beat) (i : Nat) : Nat := payElem x.pay 16 (2 * i)

/-- Lanes with VALID set. -/
def validLanes (v : BitVec 8) : List Nat := (List.range 8).filter fun i => v.getLsbD i

/-- D: digit beats of the group (R136). -/
def osdD (x : Beat) : Nat := ((validLanes x.valid).foldl (fun m i => max m (osdN x i)) 0 + 15) / 16

/-- Digit code j (from 1) of a lane in the digit beats received. -/
def osdCode (digs : List Beat) (i j : Nat) : Nat :=
  match digs[(j - 1) / 16]? with
  | some b => payElem b.pay 32 i / 2 ^ (30 - 2 * ((j - 1) % 16)) % 4
  | none => 0

/-- The digit of a code. -/
def digitOf (c : Nat) : Int := match c with | 1 => 1 | 3 => -1 | _ => 0

/-- Digit j of a lane; digits beyond n_i are ignored, missing ones are 0 (R137). -/
def OsdSide.digit (x : OsdSide) (i j : Nat) : Int :=
  match x.exp with
  | none => 0
  | some e => if j = 0 ∨ osdN e i < j then 0 else digitOf (osdCode x.digs i j)

/-- The integer of the first m digits, in units of 2^(E - m). -/
def OsdSide.prefixInt (x : OsdSide) (i : Nat) : Nat → Int
  | 0 => 0
  | m + 1 => 2 * x.prefixInt i m + x.digit i (m + 1)

/-- What taking one beat of a group does: the new side, a fault subcode, or a token between groups. -/
inductive OsdTake where
  | ok (x : OsdSide)
  | bad (sub : Nat)
  | between
  deriving DecidableEq, Repr

/-- A counted digit code 10 stands in the beat (R138). -/
def badDigit (e : Beat) (k : Nat) (b : Beat) : Bool :=
  (validLanes e.valid).any fun i => (List.range 16).any fun t =>
    decide (16 * k + t + 1 ≤ osdN e i) && payElem b.pay 32 i / 2 ^ (30 - 2 * t) % 4 == 2

/-- Take the head of a group's port (R136, R138). DESIGN CHOICE: a digit beat with another VALID than the exponent beat's and a code 10
is subcode 0x09 (log 152). -/
def OsdSide.take (x : OsdSide) (b : Beat) : OsdTake :=
  match x.exp with
  | none =>
    if b.isData then
      if (validLanes b.valid).any fun i => decide (1024 < osdN b i) then .bad 0x09
      else .ok { exp := some b, digs := [], closed := false }
    else .between
  | some e =>
    if b.isData then
      if osdD e ≤ x.digs.length || b.valid != e.valid then .bad 0x09
      else if badDigit e x.digs.length b then .bad 0x06
      else .ok { x with digs := x.digs ++ [b] }
    else if b.isStop && b.level == 0 then .ok { x with closed := true }
    else .bad 0x09

/-- Digits of a lane that have been received. -/
def OsdSide.have (x : OsdSide) (i : Nat) : Nat :=
  match x.exp with
  | none => 0
  | some e => if x.closed then osdN e i else min (osdN e i) (16 * x.digs.length)

/-! ### OADD and OMUL (R223) -/

/-- E_r and n_r of a lane (R223). -/
def osdShape (mul : Bool) (a b : Beat) (i : Nat) : Int × Nat :=
  let ea := osdE a i
  let eb := osdE b i
  if mul then (ea + eb, min 1024 (osdN a i + osdN b i))
  else
    let er := (if ea < eb then eb else ea) + 1
    (er, min 1024 (max (osdN a i + (er - ea).toNat) (osdN b i + (er - eb).toNat)))

/-- T of step k in units of 2^(E_r - u), with u (R223, R137): the operand digits up to k + delta. -/
def osdT (mul : Bool) (a b : OsdSide) (sha shb i k : Nat) : Int × Nat :=
  if mul then (a.prefixInt i (k + 3) * b.prefixInt i (k + 3), 2 * (k + 3))
  else (a.prefixInt i (k + 2 - sha) + b.prefixInt i (k + 2 - shb), k + 2)

/-- The digit of step k, given P in units of 2^(E_r - (k - 1)). -/
def osdPick (t : Int) (u k : Nat) (p : Int) (exact : Bool) : Int :=
  -- g = (t - 2 p 2^(u - k)) / 2^(u - k)
  let q : Int := (2 ^ (u - k) : Nat)
  let g := t - 2 * p * q
  if exact then g / q
  else if q ≤ 2 * g then 1 else if 2 * g < -q then -1 else 0

/-- The first `count` result digits of a lane, from digit k on with prefix p. -/
def osdDigits (mul : Bool) (a b : OsdSide) (sha shb i nr : Nat) : Nat → Nat → Int → List Int
  | 0, _, _ => []
  | count + 1, k, p =>
    if nr < k then []
    else
      let (t, u) := osdT mul a b sha shb i k
      let d := osdPick t u k p (k == nr && nr != 1024)
      d :: osdDigits mul a b sha shb i nr count (k + 1) (2 * p + d)

/-- Two bits of a digit. -/
def codeOfDigit (d : Int) : Nat := if d = 1 then 1 else if d = -1 then 3 else 0

/-- Digit beat k of a result, from the digits of each lane. -/
def digitBeat (digs : List (List Int)) (k : Nat) (valid : BitVec 8) (like : Beat) (pois : Bool) : Beat :=
  let word (l : List Int) : Nat :=
    (List.range 16).foldl (fun acc t => acc * 4 + codeOfDigit (l.getD (16 * k + t) 0)) 0
  { like with pay := payOfElems 32 (digs.map word), valid := valid, poison := pois }

/-- The exponent beat of a group from each lane's E and n. -/
def expBeat (lanes : List (Int × Nat)) (valid : BitVec 8) (like : Beat) (pois : Bool) : Beat :=
  { like with pay := payOfElems 32 ((List.range 8).map fun i =>
                match lanes[i]?, valid.getLsbD i with
                | some (e, n), true => codeOfInt 16 e * 65536 + n
                | _, _ => 0),
              valid := valid, poison := pois }

/-- Whether the operand digits that step k needs have been received. -/
def osdReady (mul : Bool) (a b : OsdSide) (sha shb i k : Nat) : Bool :=
  let need (x : OsdSide) (m : Nat) : Bool :=
    match x.exp with
    | none => false
    | some e => x.closed || decide (min m (osdN e i) ≤ x.have i)
  if mul then need a (k + 3) && need b (k + 3) else need a (k + 2 - sha) && need b (k + 2 - shb)

/-- Take one beat of side a or b of a two-operand online op. Where both sources name one port, both sides read the same beats
(R152). -/
def Env.osdTakeSide (e : Env) (second : Bool) (p : Nat) : Option Fire :=
  let same := portA e.w == portB e.w
  let x := if second then e.cs.op.osdB else e.cs.op.osdA
  if x.closed || (same && second) then none
  else
    match e.head p with
    | none => none
    | some b =>
      match x.take b with
      | .between => none
      | .bad k => some (.bad e clsMalformed k p (some b) 0)
      | .ok y => some (.ok (((if b.isData then (e.consume p).fired else e.consume p)).setOp fun o =>
          let o1 := if same then { o with osdA := y, osdB := y } else if second then { o with osdB := y } else { o with osdA := y }
          { o1 with pois := o.pois || b.poison }))

/-- Group state cleared after its STOP 0. -/
def OpState.endGroup (o : OpState) : OpState :=
  { o with osdA := {}, osdB := {}, phase := false, any := false, cnt := 0, pois := false }

/-- The shared rule of OADD and OMUL (R223). op.phase: the exponent beat has left; op.cnt: digit beats emitted; op.any: the
output group has ended and the operands' rest is discarded. -/
def onlineRun (w : NodeWord) (s : State) (mul : Bool) : Host.Outcome State Fault Refusal :=
  let a := portA w
  let b := portB w
  let cut := srcPort w.srcC
  statefulRun w s (a :: b :: cut) fun e =>
    let o := e.cs.op
    match cut.find? fun p => (e.head p).any Beat.isData with
    | some p =>
      -- a cut beat ends the open output group; with none open it has nothing to end
      if o.phase && !o.any then
        e.fireBoth [stopBeat 0 (BitVec.ofNat 3 o.round)] fun e1 => (e1.consume p).fired.setOp fun o => { o with any := true }
      else .ok (e.consume p).fired
    | none =>
      if o.any then
        -- the output group has ended: discard through both STOP 0
        if o.osdA.closed && o.osdB.closed then .ok (e.setOp OpState.endGroup)
        else
          match e.osdTakeSide false a with
          | some f => f
          | none => (e.osdTakeSide true b).getD .stall
      else
        let produce : Option Fire :=
          match o.osdA.exp, o.osdB.exp with
          | some x, some y =>
            let valid := x.valid &&& y.valid
            let shapes := (List.range 8).map (osdShape mul x y)
            let sh (z : Beat) (i : Nat) : Nat := ((shapes.getD i (0, 0)).1 - osdE z i).toNat
            if !o.phase then
              some (e.fireBoth [expBeat shapes valid x o.pois] fun e1 => e1.setOp fun o => { o with phase := true })
            else
              let nmax := (validLanes valid).foldl (fun m i => max m (shapes.getD i (0, 0)).2) 0
              if (nmax + 15) / 16 ≤ o.cnt then
                if o.osdA.closed && o.osdB.closed then
                  some (e.fireBoth [stopBeat 0 x.round] fun e1 => e1.setOp OpState.endGroup)
                else none
              else
                let last (i : Nat) : Nat := min (shapes.getD i (0, 0)).2 (16 * (o.cnt + 1))
                if (validLanes valid).all fun i => osdReady mul o.osdA o.osdB (sh x i) (sh y i) i (last i) then
                  let digs := (List.range 8).map fun i =>
                    if valid.getLsbD i then
                      osdDigits mul o.osdA o.osdB (sh x i) (sh y i) i (shapes.getD i (0, 0)).2 (last i) 1 0
                    else []
                  some (e.fireBoth [digitBeat digs o.cnt valid x o.pois] fun e1 => e1.setOp fun o => { o with cnt := o.cnt + 1 })
                else none
          | _, _ => none
        match produce with
        | some (.ok e1) => .ok e1
        | _ =>
          match e.osdTakeSide false a with
          | some f => f
          | none =>
            match e.osdTakeSide true b with
            | some f => f
            | none =>
              match produce with
              | some f => f
              | none =>
                if o.osdA.exp.isNone && o.osdB.exp.isNone then e.defaultTokens (a :: b :: cut)
                else
                  -- a token of one operand while the other's group is open can never meet its like
                  match [a, b].find? fun p => (e.head p).any fun z => z.isMark || z.isStop with
                  | some p =>
                    let side := if p = a then o.osdA else o.osdB
                    if side.exp.isNone && !side.closed then .bad e clsMalformed 0x07 p (e.head p) 0 else .stall
                  | none => .stall

/-- OADD (R223). -/
def execOadd (w : NodeWord) (s : State) : Host.Outcome State Fault Refusal := onlineRun w s false

/-- OMUL (R223). -/
def execOmul (w : NodeWord) (s : State) : Host.Outcome State Fault Refusal := onlineRun w s true

/-! ### OCMP (R224) -/

/-- The difference of two prefixes and the bound of R224, in one unit: (D, bound). -/
def cmpDiff (x y : OsdSide) (ex ey : Beat) (i : Nat) : Int × Int :=
  let ja := x.have i
  let jb := y.have i
  let la := osdE ex i - ja
  let lb := osdE ey i - jb
  let l : Int := if la < lb then la else lb
  let ua : Int := (2 ^ (la - l).toNat : Nat)
  let ub : Int := (2 ^ (lb - l).toNat : Nat)
  (x.prefixInt i ja * ua - y.prefixInt i jb * ub, ua + ub)

/-- A lane is decided (R224). -/
def cmpDecided (x y : OsdSide) (ex ey : Beat) (i : Nat) : Bool :=
  (decide (osdN ex i ≤ x.have i) && decide (osdN ey i ≤ y.have i)) ||
    (let (d, b) := cmpDiff x y ex ey i
     decide (b < d) || decide (d < -b))

/-- OCMP (R224). op.phase: the result has been emitted. -/
def execOcmp (w : NodeWord) (s : State) : Host.Outcome State Fault Refusal :=
  let a := portA w
  let b := portB w
  statefulRun w s [a, b] fun e =>
    let o := e.cs.op
    let takeAny (otherwise : Fire) : Fire :=
      match e.osdTakeSide false a with
      | some f => f
      | none => (e.osdTakeSide true b).getD otherwise
    if o.phase && o.osdA.closed && o.osdB.closed then .ok (e.setOp OpState.endGroup)
    else
      match o.osdA.exp, o.osdB.exp with
      | some x, some y =>
        let valid := x.valid &&& y.valid
        if !o.phase && (validLanes valid).all (cmpDecided o.osdA o.osdB x y) then
          let r := (List.range 8).map fun i =>
            if valid.getLsbD i then
              let d := (cmpDiff o.osdA o.osdB x y i).1
              codeOfInt 32 (if 0 < d then 1 else if d < 0 then -1 else 0)
            else 0
          let bx : Beat := { x with pay := payOfElems 32 r, valid := valid, poison := o.pois }
          let bt : Beat := { x with pay := 1, valid := 1, poison := o.pois }
          e.fireXY [bx] [bt] fun e1 => e1.setOp fun o => { o with phase := true }
        else takeAny .stall
      | none, none => takeAny (e.defaultTokens [a, b])
      | _, _ =>
        takeAny (match [a, b].find? fun p => (e.head p).any fun z => !z.isData with
          | some p => if (if p = a then o.osdA else o.osdB).exp.isNone then .bad e clsMalformed 0x07 p (e.head p) 0 else .stall
          | none => .stall)

/-! ### OCUT (R225) -/

/-- OCUT (R225). op.phase: the output group has ended and the rest is discarded; op.cnt: digit beats passed. -/
def execOcut (w : NodeWord) (s : State) : Host.Outcome State Fault Refusal :=
  let a := portA w
  let cut := srcPort w.srcB
  let k := bitsOf (immNat w) 0 11
  statefulRun w s (a :: cut) fun e =>
    let o := e.cs.op
    match cut.find? fun p => (e.head p).any Beat.isData with
    | some p =>
      if o.osdA.exp.isSome && !o.phase then
        e.fireBoth [stopBeat 0 (BitVec.ofNat 3 o.round)] fun e1 => (e1.consume p).fired.setOp fun o => { o with phase := true }
      else .ok (e.consume p).fired
    | none =>
      if !o.phase && o.osdA.exp.isSome && decide ((k + 15) / 16 ≤ o.cnt) then
        e.fireBoth [stopBeat 0 (BitVec.ofNat 3 o.round)] fun e1 => e1.setOp fun o => { o with phase := true }
      else
        match e.head a with
        | none => .stall
        | some b =>
          match o.osdA.take b with
          | .bad c => .bad e clsMalformed c a (some b) 0
          | .between => e.defaultTokens (a :: cut)
          | .ok y =>
            let take (f : OpState → OpState) (e1 : Env) : Env :=
              (if b.isData then (e1.consume a).fired else e1.consume a).setOp f
            if o.osdA.exp.isNone then
              let lanes := (List.range 8).map fun i => (osdE b i, min (osdN b i) k)
              e.fireBoth [expBeat lanes b.valid b b.poison] (take fun o => { o with osdA := y, cnt := 0, phase := false })
            else if y.closed then
              if o.phase then .ok (take OpState.endGroup e)
              else e.fireBoth [b] (take OpState.endGroup)
            else if o.phase then .ok (take (fun o => { o with osdA := y }) e)
            else e.fireBoth [b] (take fun o => { o with osdA := y, cnt := o.cnt + 1 })

/-! ### OCVT (R225) -/

/-- The exact value of a lane (R137). -/
def osdValue (x : OsdSide) (i : Nat) : Exact :=
  match x.exp with
  | none => .num false 0 0 false
  | some e =>
    let m := min (osdN e i) (16 * x.digs.length)
    exactSigned .rne (x.prefixInt i m) (osdE e i - m)

/-- The first n binary digits of a magnitude m, most significant first. -/
def binDigits (m : Nat) : Nat → List Nat
  | 0 => []
  | n + 1 =>
    let l := Nat.log2 m + 1
    binDigits m n ++ [if n < l then m / 2 ^ (l - 1 - n) % 2 else 0]

/-- A float element as an OSD lane: E, its n digits, and the counts (R225). -/
def osdOfFlt (f : FloatFmt) (n c : Nat) : Int × List Int × Counts :=
  let sg : Int := if fltNeg f c then -1 else 1
  match fltOf f c with
  | .num _ m e _ =>
    if m = 0 then (0, List.replicate n 0, {})
    else
      let l := Nat.log2 m + 1
      let lost := n < l ∧ m % 2 ^ (l - n) ≠ 0
      ((l : Int) + e, (binDigits m n).map fun (d : Nat) => sg * (d : Int), { inex := if lost then 1 else 0 })
  | _ => (0x7FFF, List.replicate n sg, { satc := 1 })

/-- The groups of one float beat, in order (R225). -/
def osdGroups (f : FloatFmt) (n : Nat) (b : Beat) : List Beat × Counts :=
  let els := beatElems f.width b
  let gs := (List.range (els.length / 8)).map fun q =>
    let l := (els.drop (8 * q)).take 8
    let rs := l.map fun o => o.map (osdOfFlt f n)
    let valid : BitVec 8 := BitVec.ofNat 8 (natOfElems 1 (rs.map fun r => if r.isSome then 1 else 0))
    let ex := expBeat (rs.map fun r => match r with | some (e, _, _) => (e, n) | none => (0, 0)) valid b b.poison
    let digs := rs.map fun r => match r with | some (_, d, _) => d | none => []
    let beats := if valid = 0 then 0 else (n + 15) / 16
    (ex :: ((List.range beats).map fun k => digitBeat digs k valid b b.poison) ++ [stopBeat 0 b.round],
     rs.foldl (fun c r => match r with | some (_, _, k) => countAdd c k | none => c) {})
  ((gs.map (·.1)).flatten, gs.foldl (fun c g => countAdd c g.2) {})

/-- OCVT (R225). From OSD: op.acc keeps the elements of the groups packed so far, op.held their first exponent beat. -/
def execOcvt (w : NodeWord) (s : State) : Host.Outcome State Fault Refusal :=
  let a := portA w
  if w.fmt = .osd then
    let f := fltShape (fmt2 w)
    let n := bitsOf (immNat w) 0 11
    statefulRun w s [a] fun e =>
      match e.head a with
      | none => .stall
      | some b =>
        if b.isData then
          let (out, c) := osdGroups f n b
          e.fireBoth out fun e1 => (e1.consume a).fired.count none c
        else if b.isStop then
          if b.level = 7 then .bad e clsMalformed 0x01 a (some b) 0
          else e.fireBoth [{ b with level := b.level + 1 }] fun e1 => (e1.consume a).statAt b
        else e.defaultTokens [a]
  else
    let wd := fmtWidth w.fmt
    let per := fmtCount w.fmt / 8
    statefulRun w s [a] fun e =>
      let o := e.cs.op
      let flush : List Beat := match o.held with
        | h :: _ => [beatOfElems wd o.acc h o.pois]
        | [] => []
      let clear (o : OpState) : OpState := { o with acc := [], held := [], pois := false, cnt := 0 }
      match e.head a with
      | none => .stall
      | some b =>
        match o.osdA.take b with
        | .bad c => .bad e clsMalformed c a (some b) 0
        | .between =>
          if b.isStop then
            let t := if b.level = 0 then [] else [{ b with level := b.level - 1 }]
            e.fireBoth (flush ++ t) fun e1 => ((e1.consume a).statAt b).setOp clear
          else e.flushTokens [a] flush fun e1 => e1.setOp clear
        | .ok y =>
          if y.closed then
            let ex := y.exp.getD default
            let rs := (List.range 8).map fun i =>
              if ex.valid.getLsbD i then some (roundTo (fmtElem w.fmt) false w.sat w.rnd (osdValue y i)) else none
            let counts := rs.foldl (fun c r => match r with | some x => countResult c x false | none => c) {}
            let acc := o.acc ++ rs.map fun r => r.map (·.code)
            let like := o.held.headD ex
            let pois := o.pois || ex.poison || y.digs.any Beat.poison
            if per ≤ o.cnt + 1 then
              e.fireBoth [beatOfElems wd acc like pois] fun e1 =>
                (((e1.consume a).setOp fun o => { clear o with osdA := {} }).count none counts).statAt b
            else
              .ok ((((e.consume a).setOp fun o =>
                { o with acc := acc, held := [like], pois := pois, cnt := o.cnt + 1, osdA := {} }).count none counts).statAt b)
          else .ok ((e.consume a).fired.setOp fun o => { o with osdA := y })

end Sys2Proof.Machine
end

