-- ==== Sys2Proof/Machine/Dispatch.lean ====
section
/-! DEFINITION. One arm per constructor of Instr: each calls that instruction's meaning. -/

namespace Sys2Proof.Machine

def exec (i : Instr) (s : State) : Host.Outcome State Fault Refusal :=
  match i with
  | .setc x y => Sys2Proof.Machine.execSetc x y s
  | .movc x y => Sys2Proof.Machine.execMovc x y s
  | .autox x y => Sys2Proof.Machine.execAutox x y s
  | .rect x y => Sys2Proof.Machine.execRect x y s
  | .vers x v => Sys2Proof.Machine.execVers x v s
  | .ends c => Sys2Proof.Machine.execEnds c s
  | .hard x y => Sys2Proof.Machine.execHard x y s
  | .write f v => Sys2Proof.Machine.execWrite f v s
  | .localRegisterCommit v => Sys2Proof.Machine.execLocalRegisterCommit v s
  | .bankInitCommit v => Sys2Proof.Machine.execBankInitCommit v s
  | .tilePreload v => Sys2Proof.Machine.execTilePreload v s
  | .iadd w => Sys2Proof.Machine.execIadd w s
  | .isub w => Sys2Proof.Machine.execIsub w s
  | .imul w => Sys2Proof.Machine.execImul w s
  | .imulh w => Sys2Proof.Machine.execImulh w s
  | .imad w => Sys2Proof.Machine.execImad w s
  | .ineg w => Sys2Proof.Machine.execIneg w s
  | .iabs w => Sys2Proof.Machine.execIabs w s
  | .imin w => Sys2Proof.Machine.execImin w s
  | .imax w => Sys2Proof.Machine.execImax w s
  | .icmp w => Sys2Proof.Machine.execIcmp w s
  | .and w => Sys2Proof.Machine.execAnd w s
  | .or w => Sys2Proof.Machine.execOr w s
  | .xor w => Sys2Proof.Machine.execXor w s
  | .andn w => Sys2Proof.Machine.execAndn w s
  | .not w => Sys2Proof.Machine.execNot w s
  | .shl w => Sys2Proof.Machine.execShl w s
  | .shr w => Sys2Proof.Machine.execShr w s
  | .sar w => Sys2Proof.Machine.execSar w s
  | .rotl w => Sys2Proof.Machine.execRotl w s
  | .clz w => Sys2Proof.Machine.execClz w s
  | .popc w => Sys2Proof.Machine.execPopc w s
  | .sel w => Sys2Proof.Machine.execSel w s
  | .fadd w => Sys2Proof.Machine.execFadd w s
  | .fsub w => Sys2Proof.Machine.execFsub w s
  | .fmul w => Sys2Proof.Machine.execFmul w s
  | .ffma w => Sys2Proof.Machine.execFfma w s
  | .fneg w => Sys2Proof.Machine.execFneg w s
  | .fabs w => Sys2Proof.Machine.execFabs w s
  | .fmin w => Sys2Proof.Machine.execFmin w s
  | .fmax w => Sys2Proof.Machine.execFmax w s
  | .fcmp w => Sys2Proof.Machine.execFcmp w s
  | .frcp w => Sys2Proof.Machine.execFrcp w s
  | .frsq w => Sys2Proof.Machine.execFrsq w s
  | .fsqrt w => Sys2Proof.Machine.execFsqrt w s
  | .fexp2 w => Sys2Proof.Machine.execFexp2 w s
  | .flog2 w => Sys2Proof.Machine.execFlog2 w s
  | .fscale w => Sys2Proof.Machine.execFscale w s
  | .cvt w => Sys2Proof.Machine.execCvt w s
  | .qpack w => Sys2Proof.Machine.execQpack w s
  | .qunpk w => Sys2Proof.Machine.execQunpk w s
  | .bcast w => Sys2Proof.Machine.execBcast w s
  | .shuf w => Sys2Proof.Machine.execShuf w s
  | .slide w => Sys2Proof.Machine.execSlide w s
  | .pack w => Sys2Proof.Machine.execPack w s
  | .unpack w => Sys2Proof.Machine.execUnpack w s
  | .laneid w => Sys2Proof.Machine.execLaneid w s
  | .hsum w => Sys2Proof.Machine.execHsum w s
  | .hmax w => Sys2Proof.Machine.execHmax w s
  | .hmin w => Sys2Proof.Machine.execHmin w s
  | .acc w => Sys2Proof.Machine.execAcc w s
  | .accmax w => Sys2Proof.Machine.execAccmax w s
  | .pscan w => Sys2Proof.Machine.execPscan w s
  | .count w => Sys2Proof.Machine.execCount w s
  | .steer w => Sys2Proof.Machine.execSteer w s
  | .fork w => Sys2Proof.Machine.execFork w s
  | .merge w => Sys2Proof.Machine.execMerge w s
  | .mergerr w => Sys2Proof.Machine.execMergerr w s
  | .mergesel w => Sys2Proof.Machine.execMergesel w s
  | .dist w => Sys2Proof.Machine.execDist w s
  | .dispatch w => Sys2Proof.Machine.execDispatch w s
  | .gate w => Sys2Proof.Machine.execGate w s
  | .drop w => Sys2Proof.Machine.execDrop w s
  | .sink w => Sys2Proof.Machine.execSink w s
  | .gen w => Sys2Proof.Machine.execGen w s
  | .carry w => Sys2Proof.Machine.execCarry w s
  | .invar w => Sys2Proof.Machine.execInvar w s
  | .repeatN w => Sys2Proof.Machine.execRepeat w s
  | .seqtag w => Sys2Proof.Machine.execSeqtag w s
  | .reorder w => Sys2Proof.Machine.execReorder w s
  | .mark w => Sys2Proof.Machine.execMark w s
  | .stopi w => Sys2Proof.Machine.execStopi w s
  | .stopx w => Sys2Proof.Machine.execStopx w s
  | .stopup w => Sys2Proof.Machine.execStopup w s
  | .waitmk w => Sys2Proof.Machine.execWaitmk w s
  | .specres w => Sys2Proof.Machine.execSpecres w s
  | .retype w => Sys2Proof.Machine.execRetype w s
  | .ld w => Sys2Proof.Machine.execLd w s
  | .st w => Sys2Proof.Machine.execSt w s
  | .ldreq w => Sys2Proof.Machine.execLdreq w s
  | .streq w => Sys2Proof.Machine.execStreq w s
  | .push w => Sys2Proof.Machine.execPush w s
  | .pop w => Sys2Proof.Machine.execPop w s
  | .tld w => Sys2Proof.Machine.execTld w s
  | .tst w => Sys2Proof.Machine.execTst w s
  | .spbsend w => Sys2Proof.Machine.execSpbsend w s
  | .aadd w => Sys2Proof.Machine.execAadd w s
  | .amin w => Sys2Proof.Machine.execAmin w s
  | .amax w => Sys2Proof.Machine.execAmax w s
  | .axchg w => Sys2Proof.Machine.execAxchg w s
  | .acas w => Sys2Proof.Machine.execAcas w s
  | .atas w => Sys2Proof.Machine.execAtas w s
  | .aor w => Sys2Proof.Machine.execAor w s
  | .fence w => Sys2Proof.Machine.execFence w s
  | .fscan w => Sys2Proof.Machine.execFscan w s
  | .flook w => Sys2Proof.Machine.execFlook w s
  | .fisect w => Sys2Proof.Machine.execFisect w s
  | .funion w => Sys2Proof.Machine.execFunion w s
  | .frep w => Sys2Proof.Machine.execFrep w s
  | .fred w => Sys2Proof.Machine.execFred w s
  | .fwrite w => Sys2Proof.Machine.execFwrite w s
  | .oadd w => Sys2Proof.Machine.execOadd w s
  | .omul w => Sys2Proof.Machine.execOmul w s
  | .ocmp w => Sys2Proof.Machine.execOcmp w s
  | .ocut w => Sys2Proof.Machine.execOcut w s
  | .ocvt w => Sys2Proof.Machine.execOcvt w s
  | .pqcell w => Sys2Proof.Machine.execPqcell w s
  | .stat w => Sys2Proof.Machine.execStat w s
  | .rate w => Sys2Proof.Machine.execRate w s
  | .ver w => Sys2Proof.Machine.execVer w s
  | .sysid w => Sys2Proof.Machine.execSysid w s
  | .trap w => Sys2Proof.Machine.execTrap w s
  | .nop w => Sys2Proof.Machine.execNop w s
  | .nodeTokenFire u => Sys2Proof.Machine.execNodeTokenFire u s
  | .matchDiscard u cd => Sys2Proof.Machine.execMatchDiscard u cd s
  | .latchAdvance r link k => Sys2Proof.Machine.execLatchAdvance r link k s
  | .freeSlotReturn r link => Sys2Proof.Machine.execFreeSlotReturn r link s
  | .retypeApply u port => Sys2Proof.Machine.execRetypeApply u port s
  | .bridgeSend dir => Sys2Proof.Machine.execBridgeSend dir s
  | .allowanceReturn r link dir => Sys2Proof.Machine.execAllowanceReturn r link dir s
  | .flitReceive dir good => Sys2Proof.Machine.execFlitReceive dir good s
  | .flitReplay dir => Sys2Proof.Machine.execFlitReplay dir s
  | .linkFlitReceive port flit crcOk => Sys2Proof.Machine.execLinkFlitReceive port flit crcOk s
  | .remoteAccessRequest port req => Sys2Proof.Machine.execRemoteAccessRequest port req s
  | .cxlLinkDown port => Sys2Proof.Machine.execCxlLinkDown port s
  | .hostMemAccess off acc => Sys2Proof.Machine.execHostMemAccess off acc s
  | .windowAccess req => Sys2Proof.Machine.execWindowAccess req s
  | .linRead h b => Sys2Proof.Machine.execLinRead h b s
  | .linWrite h b => Sys2Proof.Machine.execLinWrite h b s
  | .gath h b => Sys2Proof.Machine.execGath h b s
  | .scat h b => Sys2Proof.Machine.execScat h b s
  | .copy h b => Sys2Proof.Machine.execCopy h b s
  | .fib h b => Sys2Proof.Machine.execFib h b s
  | .hash h b => Sys2Proof.Machine.execHash h b s
  | .flush h b => Sys2Proof.Machine.execFlush h b s
  | .pref h b => Sys2Proof.Machine.execPref h b s
  | .elementIssue r sp => Sys2Proof.Machine.execElementIssue r sp s
  | .faultNoticePendingWrite part => Sys2Proof.Machine.execFaultNoticePendingWrite part s
  | .walkComplete walk => Sys2Proof.Machine.execWalkComplete walk s
  | .writePerform req => Sys2Proof.Machine.execWritePerform req s
  | .spbComplete r sp slot => Sys2Proof.Machine.execSpbComplete r sp slot s
  | .eventTokenArrive k => Sys2Proof.Machine.execEventTokenArrive k s
  | .spReqMark r sp => Sys2Proof.Machine.execSpReqMark r sp s
  | .spDataToken r sp port => Sys2Proof.Machine.execSpDataToken r sp port s
  | .relRelease r sp port => Sys2Proof.Machine.execRelRelease r sp port s
  | .invalidationStart part => Sys2Proof.Machine.execInvalidationStart part s
  | .invalidationComplete part => Sys2Proof.Machine.execInvalidationComplete part s
  | .resume part nseq => Sys2Proof.Machine.execResume part nseq s
  | .tPfExpiry part nseq => Sys2Proof.Machine.execTPfExpiry part nseq s
  | .streamBufferGrow u => Sys2Proof.Machine.execStreamBufferGrow u s
  | .statTokenAdd k => Sys2Proof.Machine.execStatTokenAdd k s
  | .meCommandEnqueue r me => Sys2Proof.Machine.execMeCommandEnqueue r me s
  | .mload c => Sys2Proof.Machine.execMload c s
  | .mswap c => Sys2Proof.Machine.execMswap c s
  | .mmul c => Sys2Proof.Machine.execMmul c s
  | .mdrain c => Sys2Proof.Machine.execMdrain c s
  | .mzero c => Sys2Proof.Machine.execMzero c s
  | .mfmt c => Sys2Proof.Machine.execMfmt c s
  | .mmigr c => Sys2Proof.Machine.execMmigr c s
  | .mcount c => Sys2Proof.Machine.execMcount c s
  | .meMarkerEntry r me => Sys2Proof.Machine.execMeMarkerEntry r me s
  | .meMigrate r me entry south => Sys2Proof.Machine.execMeMigrate r me entry south s
  | .meMigrationReturn r me => Sys2Proof.Machine.execMeMigrationReturn r me s
  | .add d a b => Sys2Proof.Machine.execAdd d a b s
  | .sub d a b => Sys2Proof.Machine.execSub d a b s
  | .mul d a b => Sys2Proof.Machine.execMul d a b s
  | .mulh d a b => Sys2Proof.Machine.execMulh d a b s
  | .div d a b => Sys2Proof.Machine.execDiv d a b s
  | .rem d a b => Sys2Proof.Machine.execRem d a b s
  | .seqAnd d a b => Sys2Proof.Machine.execSeqAnd d a b s
  | .seqOr d a b => Sys2Proof.Machine.execSeqOr d a b s
  | .seqXor d a b => Sys2Proof.Machine.execSeqXor d a b s
  | .seqShl d a b => Sys2Proof.Machine.execSeqShl d a b s
  | .seqShr d a b => Sys2Proof.Machine.execSeqShr d a b s
  | .seqSar d a b => Sys2Proof.Machine.execSeqSar d a b s
  | .slt d a b => Sys2Proof.Machine.execSlt d a b s
  | .sltn d a b => Sys2Proof.Machine.execSltn d a b s
  | .addi d a im => Sys2Proof.Machine.execAddi d a im s
  | .andi d a im => Sys2Proof.Machine.execAndi d a im s
  | .ori d a im => Sys2Proof.Machine.execOri d a im s
  | .xori d a im => Sys2Proof.Machine.execXori d a im s
  | .shli d a im => Sys2Proof.Machine.execShli d a im s
  | .shri d a im => Sys2Proof.Machine.execShri d a im s
  | .sari d a im => Sys2Proof.Machine.execSari d a im s
  | .lih d a im => Sys2Proof.Machine.execLih d a im s
  | .seqLd d a im => Sys2Proof.Machine.execSeqLd d a im s
  | .ldw d a im => Sys2Proof.Machine.execLdw d a im s
  | .seqSt d a im => Sys2Proof.Machine.execSeqSt d a im s
  | .stw d a im => Sys2Proof.Machine.execStw d a im s
  | .samoAdd d a b w => Sys2Proof.Machine.execSamoAdd d a b w s
  | .samoSwap d a b w => Sys2Proof.Machine.execSamoSwap d a b w s
  | .samoCas d a b w => Sys2Proof.Machine.execSamoCas d a b w s
  | .samoAnd d a b w => Sys2Proof.Machine.execSamoAnd d a b w s
  | .samoOr d a b w => Sys2Proof.Machine.execSamoOr d a b w s
  | .samoXor d a b w => Sys2Proof.Machine.execSamoXor d a b w s
  | .samoMin d a b w => Sys2Proof.Machine.execSamoMin d a b w s
  | .samoMax d a b w => Sys2Proof.Machine.execSamoMax d a b w s
  | .samoMinu d a b w => Sys2Proof.Machine.execSamoMinu d a b w s
  | .samoMaxu d a b w => Sys2Proof.Machine.execSamoMaxu d a b w s
  | .beq a b o => Sys2Proof.Machine.execBeq a b o s
  | .bne a b o => Sys2Proof.Machine.execBne a b o s
  | .blt a b o => Sys2Proof.Machine.execBlt a b o s
  | .bge a b o => Sys2Proof.Machine.execBge a b o s
  | .loop a o => Sys2Proof.Machine.execLoop a o s
  | .jmp o => Sys2Proof.Machine.execJmp o s
  | .jal o => Sys2Proof.Machine.execJal o s
  | .jr a => Sys2Proof.Machine.execJr a s
  | .cfgl x n => Sys2Proof.Machine.execCfgl x n s
  | .shadowLoad c sect => Sys2Proof.Machine.execShadowLoad c sect s
  | .cfgs d n => Sys2Proof.Machine.execCfgs d n s
  | .planeSwap r => Sys2Proof.Machine.execPlaneSwap r s
  | .drainTimeout r => Sys2Proof.Machine.execDrainTimeout r s
  | .arm c b n => Sys2Proof.Machine.execArm c b n s
  | .waits d n => Sys2Proof.Machine.execWaits d n s
  | .waitsReturn c => Sys2Proof.Machine.execWaitsReturn c s
  | .pure c b n => Sys2Proof.Machine.execPure c b n s
  | .mode m n => Sys2Proof.Machine.execMode m n s
  | .waitm d a => Sys2Proof.Machine.execWaitm d a s
  | .waitmWake c => Sys2Proof.Machine.execWaitmWake c s
  | .launch a b => Sys2Proof.Machine.execLaunch a b s
  | .tail a => Sys2Proof.Machine.execTail a s
  | .srd d x r => Sys2Proof.Machine.execSrd d x r s
  | .swr a x r => Sys2Proof.Machine.execSwr a x r s
  | .seqFence x => Sys2Proof.Machine.execSeqFence x s
  | .seqTrap c => Sys2Proof.Machine.execSeqTrap c s
  | .halt => Sys2Proof.Machine.execHalt s
  | .kernelComplete c => Sys2Proof.Machine.execKernelComplete c s
  | .seqNop => Sys2Proof.Machine.execSeqNop s
  | .recordStart c => Sys2Proof.Machine.execRecordStart c s
  | .linkWake c => Sys2Proof.Machine.execLinkWake c s
  | .sqctlGo c => Sys2Proof.Machine.execSqctlGo c s
  | .sqctlSkip c => Sys2Proof.Machine.execSqctlSkip c s
  | .sqctlStop c => Sys2Proof.Machine.execSqctlStop c s
  | .allocatorRun part => Sys2Proof.Machine.execAllocatorRun part s
  | .pwbudWrite part v => Sys2Proof.Machine.execPwbudWrite part v s
  | .entryAging part k => Sys2Proof.Machine.execEntryAging part k s
  | .contextAging c => Sys2Proof.Machine.execContextAging c s
  | .configInstall r => Sys2Proof.Machine.execConfigInstall r s
  | .invocationArm c sect => Sys2Proof.Machine.execInvocationArm c sect s
  | .agateLookup r => Sys2Proof.Machine.execAgateLookup r s
  | .invocationRetire r => Sys2Proof.Machine.execInvocationRetire r s
  | .prectlGo part v => Sys2Proof.Machine.execPrectlGo part v s
  | .schedulerPreempt part => Sys2Proof.Machine.execSchedulerPreempt part s
  | .cutComplete r => Sys2Proof.Machine.execCutComplete r s
  | .tCutExpiry r => Sys2Proof.Machine.execTCutExpiry r s
  | .invocationResume c sect => Sys2Proof.Machine.execInvocationResume c sect s
  | .windowEnd r => Sys2Proof.Machine.execWindowEnd r s
  | .commit r plan => Sys2Proof.Machine.execCommit r plan s
  | .rbstatClear part => Sys2Proof.Machine.execRbstatClear part s
  | .regionFreeze r => Sys2Proof.Machine.execRegionFreeze r s
  | .faultRecordPendingWrite part => Sys2Proof.Machine.execFaultRecordPendingWrite part s
  | .hangTimeout r => Sys2Proof.Machine.execHangTimeout r s
  | .frctlRelease part v => Sys2Proof.Machine.execFrctlRelease part v s
  | .frctlClear part v => Sys2Proof.Machine.execFrctlClear part v s
  | .fltstatClear part => Sys2Proof.Machine.execFltstatClear part s
  | .softError e => Sys2Proof.Machine.execSoftError e s
  | .bankReassign pos => Sys2Proof.Machine.execBankReassign pos s
  | .agateFlush part => Sys2Proof.Machine.execAgateFlush part s
  | .agsbaseWrite part v => Sys2Proof.Machine.execAgsbaseWrite part v s
  | .agssizeWrite part v => Sys2Proof.Machine.execAgssizeWrite part v s
  | .shape die shape => Sys2Proof.Machine.execShape die shape s
  | .bind slot mask blob => Sys2Proof.Machine.execBind slot mask blob s
  | .revoke slot => Sys2Proof.Machine.execRevoke slot s
  | .quote nonce => Sys2Proof.Machine.execQuote nonce s
  | .domset mid size => Sys2Proof.Machine.execDomset mid size s
  | .cxlmap part port off len => Sys2Proof.Machine.execCxlmap part port off len s
  | .krvcntClear => Sys2Proof.Machine.execKrvcntClear s
  | .deviceReset fw => Sys2Proof.Machine.execDeviceReset fw s
  | .registerWrite part off v => Sys2Proof.Machine.execRegisterWrite part off v s
  | .readPerform req => Sys2Proof.Machine.execReadPerform req s
  | .linkRetrain port => Sys2Proof.Machine.execLinkRetrain port s

end Sys2Proof.Machine
end

