-- ==== Sys2Proof/Machine/Fetch.lean ====
section
/-! DEFINITION. Where each agent finds its next instruction, and what happens when it finds none. -/

namespace Sys2Proof.Machine

/-- The word at the PC of a context: the code area from its prefix on (R285, R290). -/
def seqWord (q : Seq) : Option Word :=
  q.image.bind fun i => if i.hlen ≤ q.pc then i.code[q.pc]? else none

/-- The next word of the stream that is fed to a section. -/
def cfgWord (s : State) (r : RegId) : Option Word :=
  (regionAt s r).bind fun rg => rg.feed.bind fun f => if f.closed then none else f.words.head?

/-- The SPB at the head of the REQ port: the first CFG beat is its bytes 0-31 (R56). -/
def spWord (s : State) (r : RegId) (o : Offset) : Option (BitVec 512) :=
  (regionAt s r).bind fun rg => (reqPort rg o).bind fun k => (pairAtHead (spHeads rg o k)).map fun x => x.2.pay ++ x.1.pay

/-- The command beat at the lowest port whose head is a CFG beat. -/
def meWord (s : State) (r : RegId) (o : Offset) : Option Payload :=
  (meOf s r o).bind fun x => (cfgPort x.1 o).bind fun k => (blockHeads x.1 o k).head?.map fun b => b.pay

/-- Fetch and decode: what an agent runs next. -/
def fetch (a : Actor) (s : State) : Option Instr :=
  match a with
  | .idle => none
  | .seq c => (seqWord (seqAt s c)).bind fun w => (decodeSeq w).toOption
  | .cfg r => (cfgWord s r).bind fun w => (decodeCfg w).toOption
  | .node u => (regionAt s u.reg).bind fun rg => (decodeNode (nodeBits rg.plane u.off u.ctx)).toOption
  | .sp r o => (spWord s r o).bind fun w => (decodeSpb w).toOption
  | .me r o k =>
    if k = meCap then (meWord s r o).bind fun w => (decodeCmd w).toOption
    else (meOf s r o).bind fun x => x.2.queue[k]?.bind fun e => e.cmd

/-- A stream that has no next word, or one that is no configuration word, is rejected (R146, R150). -/
def feedNone (rg : Region) (s : State) : State :=
  match rg.feed with
  | none => s
  | some f =>
    if f.closed then s
    else feedPut s rg (f.fail (if f.words.isEmpty then .streamNotClosed else .illegalCursorOp))

/-- What an agent does when it finds no instruction: a running context whose PC lies outside its code faults SEQ 0x01 (R290),
a stream without a next word is rejected, and a beat pair or command beat of no known code faults where R45 and R249 say; any
other agent has nothing to do. -/
def fetchNone (a : Actor) (s : State) : Host.Outcome State Fault Refusal :=
  match a with
  | .seq c =>
    let q := seqAt s c
    if q.st == .run && q.park == .nothing && q.image.any (fun i => !(decide (i.hlen ≤ q.pc) && decide (q.pc < i.code.length)))
    then .next (parkSeq s c clsSeq 0x01)
    else .next s
  | .cfg r => match regionAt s r with
    | none => .next s
    | some rg => .next (feedNone rg s)
  | .sp r o => execSpReqMark r o s
  | .me r o k => if k = meCap then execMeCommandEnqueue r o s else .next s
  | _ => .next s

/-! ### An instruction put where the next step fetches it -/

/-- The context, the section and its region that hold a planted instruction. -/
def plantSeq : SeqId := ⟨0, 0⟩
def plantReg : RegId := ⟨plantSeq, 0⟩

/-- An image whose code is a one-word prefix and a word. -/
def plantImage (w : Word) : Image :=
  { part := 0, va := 0, digest := [], code := [0, w], hlen := 1, kinds := [], parents := [], sectParents := [], sects := [] }

/-- A sequencer word at the PC of context 0 of partition 0, which runs. -/
def plantSeqWord (s : State) (w : Word) : State :=
  let q := seqAt s plantSeq
  { setSeq s plantSeq { q with st := .run, park := .nothing, image := some (plantImage w), pc := 1 } with
    agenda := .agent (.seq plantSeq) :: s.agenda }

/-- An invocation that runs. -/
def plantInv : Invocation :=
  { entry := { tiles := 1, consts := none, mode := 0, deadline := 2 ^ 64 - 1, prio := 0, pureInv := none, age := 0 }, armedAt := 0 }

/-- An installed region at the origin of die 0: cells in columns 0-6, a stream port at (7, 0), an engine at (7, 4). -/
def plantRegion : Region :=
  { id := plantReg, org := ⟨0, 0⟩, w := 8, h := 8, hw := 0, hh := 0, installed := true, inv := some plantInv,
    sps := [{ off := ⟨7, 0⟩ }], mes := [{ off := ⟨7, 4⟩ }] }

/-- A link between two ports, with beats in its queue. -/
def plantLink (src dst : LinkEnd) (q : List Beat) : Link :=
  { src := src, dst := dst, fmtS := .raw, fmtD := .raw, slots := 4, queue := q, free := 4 }

/-- Port p of a cell or hard block. -/
def plantEnd (x y : Int) (hard : Bool) (p : Nat) : LinkEnd := ⟨⟨x, y⟩, hard, 0, p⟩

/-- The region takes the place of the one with its number. -/
def plantIn (s : State) (rg : Region) (a : Actor) : State :=
  { s with regions := rg :: s.regions.filter fun x => x.id != rg.id, agenda := .agent a :: s.agenda }

/-- A configuration word as the next of a stream, with the cursor at the origin. -/
def plantCfgWord (s : State) (w : Word) : State :=
  let vers := match decodeCfg w with
    | .ok (.vers _ _) => true
    | _ => false
  let f : Feed := { for_ := .install, words := [w], complete := true, begun := !vers, cursor := some ⟨0, 0⟩, plane := [] }
  plantIn s { plantRegion with installed := false, feed := some f } (.cfg plantReg)

/-- A node word in context 0 of the cell at the origin, with a beat at each input port and room behind each output. -/
def plantNodeWord (s : State) (w : BitVec 72) : State :=
  let fs : Fields := [(0, fld w 48 24), (1, fld w 24 24), (2, fld w 0 24)]
  let ins := (List.range 4).map fun p => plantLink (plantEnd 1 0 false 4) (plantEnd 0 0 false p) [dataBeat 0 0xFF 0 0]
  let outs := (List.range 2).map fun q => plantLink (plantEnd 0 0 false (4 + q)) (plantEnd 2 0 false q) []
  plantIn s { plantRegion with plane := [(0, fs)], cells := [(0, {})], links := ins ++ outs } (.node ⟨plantReg, ⟨0, 0⟩, 0⟩)

/-- An SPB as two CFG beats at the REQ port of the stream port. -/
def plantSpb (s : State) (w : BitVec 512) : State :=
  let l := plantLink (plantEnd 0 0 false 4) (plantEnd 7 0 true 0) [cfgBeat (fld w 0 256) 0 0, cfgBeat (fld w 256 256) 1 0]
  let out := plantLink (plantEnd 7 0 true 0) (plantEnd 0 0 false 0) []
  plantIn s { plantRegion with plane := [(offKey ⟨7, 0⟩, [(0, 1)])], links := [l, out] } (.sp plantReg ⟨7, 0⟩)

/-- A command beat at port 0 of the engine. -/
def plantCmd (s : State) (w : Payload) : State :=
  let l := plantLink (plantEnd 0 0 false 4) (plantEnd 7 4 true 0) [cfgBeat w 2 0]
  plantIn s { plantRegion with links := [l] } (.me plantReg ⟨7, 4⟩ meCap)

/-- The instruction of a table word put where its agent fetches next: 32 bits that decode as a sequencer word stand in the code
of a context, others in a stream. -/
def plant (s : State) (nbits w : Nat) : State :=
  match nbits with
  | 32 =>
    match decodeSeq (BitVec.ofNat 32 w) with
    | .ok _ => plantSeqWord s (BitVec.ofNat 32 w)
    | .error _ => plantCfgWord s (BitVec.ofNat 32 w)
  | 72 => plantNodeWord s (BitVec.ofNat 72 w)
  | 256 => plantCmd s (BitVec.ofNat 256 w)
  | 512 => plantSpb s (BitVec.ofNat 512 w)
  | _ => s

end Sys2Proof.Machine
end

