-- ==== Sys2Proof/Machine/Turn.lean ====
section
/-! DEFINITION. Whose turn it is: the context counter of a cell (R110) and the choice of the sequencer complex of a die (R335). -/

namespace Sys2Proof.Machine

/-- The state in which the action acts: the agenda moves on, the acting agent is noted, and the tick counts. -/
def State.begin (s : State) (a : Actor) : State := { s with agenda := s.agenda.tail, actor := a, tick := s.tick + 1 }

/-- What becomes of the state if an agent runs the instruction that it fetches. -/
def ranBy (s : State) (a : Actor) : Option State :=
  match fetch a s with
  | none => none
  | some i =>
    match exec i (s.begin a) with
    | .next t => some t
    | _ => none

/-! ### The context counter (R110) -/

/-- What shows that a node of a cell has fired or faulted: the context counter, and the units that stand still. -/
def cellMarks (s : State) (u : UnitId) : Option (Nat × List (Nat × Offset × Nat)) :=
  (regionAt s u.reg).map fun rg => ((cellAt rg u.off).ctr, rg.halted)

/-- The node of a context is ready: were it its turn, it would fire (R88, R89, or the op's own rule). -/
def nodeReady (s : State) (u : UnitId) : Bool := (ranBy s (.node u)).any fun t => cellMarks t u != cellMarks s u

/-- A node that may have to wait though its firing rule holds: it reads a local register that an earlier firing of its own may be about to
write (R110), or it goes through S1 of a memory tile (R106). -/
def mayLag (s : State) (u : UnitId) : Bool :=
  (regionAt s u.reg).any fun rg =>
    let b := nodeBits rg.plane u.off u.ctx
    let w := NodeWord.ofBits b
    let opc := b.toNat / 2 ^ 63
    let src (x : Src) : Bool := x == .lreg || (x == .bank && w.imm.getLsbD 11)
    (w.dl && w.la == w.ld && (src w.srcA || src w.srcB || src w.srcC)) || opc == 0x102 || opc == 0x103 ||
      (decide (0x109 ≤ opc) && decide (opc ≤ 0x10F))

/-- The contexts that the counter of the unit's cell examines before the unit's own. -/
def contextsBefore (s : State) (u : UnitId) : List Nat :=
  let ctr := ((regionAt s u.reg).map fun rg => (cellAt rg u.off).ctr).getD 0
  ((List.range 4).map fun k => (ctr + 1 + k) % 4).takeWhile (· != u.ctx)

/-- No context that the counter examines before the unit's is ready (R110). -/
def nodeTurn (s : State) (u : UnitId) : Bool :=
  (contextsBefore s u).all fun k => mayLag s { u with ctx := k } || !nodeReady s { u with ctx := k }

/-! ### The sequencer complex (R335) -/

/-- The level of a context in the choice: its PRIO, one higher after T_age in RUN without issuing. -/
def seqLevel (s : State) (c : SeqId) : Nat :=
  let q := seqAt s c
  let t := tAgeOf (partAt s c.part)
  q.prio + if q.raised || (t != 0 && decide (t ≤ s.cycle.toNat - q.lastIssue)) then 1 else 0

/-- Context x is chosen before context y. -/
def seqAhead (s : State) (x y : SeqId) : Bool :=
  decide (seqLevel s y < seqLevel s x) ||
    (seqLevel s x == seqLevel s y && decide ((seqAt s x).lastIssue < (seqAt s y).lastIssue))

/-- A context in RUN that can issue: its next instruction does something. DEDUCED: one that waits takes none of the four places (log 154). -/
def seqReady (s : State) (c : SeqId) : Bool :=
  (seqAt s c).st == .run && (ranBy s (.seq c)).any fun t => seqAt t c != seqAt s c

/-- Fewer than four contexts of the die are chosen before this one (R335). -/
def seqTurn (s : State) (c : SeqId) : Bool :=
  decide (((s.seqs.map fun x => seqOfKey x.1).filter fun x =>
    x.part / 2 == c.part / 2 && seqAhead s x c && seqReady s x).length < 4)

/-! ### Actions -/

/-- It is the agent's turn. -/
def agentTurn (s : State) (a : Actor) : Bool :=
  match a with
  | .node u => nodeTurn s u
  | .seq c => seqTurn s c
  | _ => true

/-- It is the turn of the unit that an event is about: a token that a node passes on is a firing like any other (R89, R110). -/
def eventTurn (s : State) (i : Instr) : Bool :=
  match i with
  | .nodeTokenFire u => nodeTurn s u
  | _ => true

end Sys2Proof.Machine
end

