-- ==== Sys2Proof/Machine/Step.lean ====
section
/-! DEFINITION. One step: the action at the head of the agenda, or a free one when there is none (log 3). -/

namespace Sys2Proof.Machine

/-- What happens in this step. -/
def State.nextAction (s : State) : Action := s.agenda.headD (Config.freeChoice s.tick)

/-- One step. An agent whose turn it is runs the instruction that it fetches; an event occurs; or cycles pass. Out of turn nothing
happens (R110, R335). -/
def step (s : State) : Host.Outcome State Fault Refusal :=
  match s.nextAction with
  | .agent a =>
    if agentTurn s a then
      match fetch a s with
      | some i => exec i (s.begin a)
      | none => fetchNone a (s.begin a)
    else .next (s.begin a)
  | .event i => if eventTurn s i then exec i (s.begin .idle) else .next (s.begin .idle)
  | .elapse n => .next (elapse n (s.begin .idle))

/-- The state with an instruction of the opcode table where the next step fetches it (log 5). -/
def State.withFetchWord (s : State) (nbits w : Nat) : State := plant s nbits w

end Sys2Proof.Machine
end

