-- ==== Sys2Proof/Safety.lean ====
section
/-! DEFINITION. What a safe run is: the machine has not stopped, and memory is in its canonical form. And the terms in which the statements speak
of the machine: when an agent may act, and the shapes that the results of instructions of one kind share. -/

namespace Sys2Proof

/-- The outcome is a next state. -/
def Continues (o : Host.Outcome Machine.State Machine.Fault Machine.Refusal) : Prop := ∃ t, o = .next t

/-- A state whose data keep their canonical forms: memory (log 1). -/
structure Machine.State.Canonical (s : Machine.State) : Prop where
  mem : Machine.Memory.wf s.mem = true

/-- k steps from a state all continue. -/
def SafeFor (k : Nat) (s : Machine.State) : Prop := Continues (core.run k s)

namespace Machine

/-- A context may fire word w in environment e: it acts, it owes no beat, and no head at a port that the op reads is refused,
ignored, speculative or unmatched. `late`: a STOP after EOI is refused too. -/
structure NodeReady (s : State) (u : UnitId) (w : NodeWord) (e : Env) (ports held : List Nat) (late : Bool) : Prop where
  actor : s.actor = .node u
  env : nodeEnv s u w = some e
  owe : e.cs.op.owe = []
  heads : ∀ p ∈ ports, e.checkPort p late = .fine
  spec : ∀ p ∈ held, e.resolveAt p = none
  pairs : e.unmatched 0 1 = false ∧ e.unmatched 2 3 = false

/-- And every port has a DATA head, and every output the room that the emit rates ask (R88). -/
structure DataReady (s : State) (u : UnitId) (w : NodeWord) (e : Env) (ports held : List Nat) : Prop where
  ready : NodeReady s u w e ports held false
  data : e.allData ports = true
  rates : e.lackRates = []

/-- An element-wise instruction of width n: where its context may fire and the outputs have room for the beat of results, the firing consumes
one beat of each port it reads and sends that beat on every enabled output. -/
def WidthLaw (i : NodeWord → Instr) (n : NodeWord → Env → Nat) (srcs : NodeWord → List Src) (f : NodeWord → List Nat → Nat) : Prop :=
  ∀ w s u e h, DataReady s u w e (srcPorts w) [] → (srcPorts w).head?.bind e.head = some h →
    (e.operands (n w e) (srcs w)).any Operand.badBank = false →
    let b := e.elemBeat (n w e) (srcs w) h (f w)
    e.lack [b] [b] = [] →
    ∃ c, exec (i w) s = .next (applyFire s u (.ok (((e.fired.consumeAll (srcPorts w)).count b.specOwner c).send [b] [b])))

/-- As WidthLaw, where the width is that of the instruction's own format. -/
def ElementLaw (i : NodeWord → Instr) (n : NodeWord → Nat) (srcs : NodeWord → List Src) (f : NodeWord → List Nat → Nat) : Prop :=
  WidthLaw i (fun w _ => n w) srcs f

/-- The width of the elements of an op on raw bits (R119): the format's, or under RAW that of the link at its first port. -/
def rawBits (w : NodeWord) (e : Env) : Nat := e.width w.fmt ((srcPorts w).headD 0)

/-- The element width of the instruction's format. -/
def bits (w : NodeWord) : Nat := fmtWidth w.fmt
def srcsA (w : NodeWord) : List Src := [w.srcA]
def srcsAB (w : NodeWord) : List Src := [w.srcA, w.srcB]
def srcsABC (w : NodeWord) : List Src := [w.srcA, w.srcB, w.srcC]

/-- The value of an operand element under the format's signedness (R175). -/
def ival (w : NodeWord) (c : Nat) : Int := intOf (fmtSigned w.fmt) (bits w) c

/-- An exact integer result in the format (R124, R179): clamped under SAT, wrapped otherwise. -/
def fit (w : NodeWord) (v : Int) : Nat :=
  let lo := intMin (fmtSigned w.fmt) (bits w)
  let hi := intMax (fmtSigned w.fmt) (bits w)
  codeOfInt (bits w) (if w.sat then max lo (min hi v) else v)

/-- The element width of a float op, and the value of an operand element. -/
def fbits (w : NodeWord) : Nat := (fltShape w.fmt).width
def fval (w : NodeWord) (c : Nat) : Exact := fltOf (fltShape w.fmt) c

/-- An exact value rounded once into the float format (R124). -/
def rounded (w : NodeWord) (x : Exact) : Nat := (roundFlt (fltShape w.fmt) w.sat w.rnd x).code

/-- Element i of operand k of a lane op, absent in a lane that is not valid. -/
def laneEl (wd : Nat) (ops : List Operand) (k i : Nat) : Option Nat := elAt ((ops.map (operandElems wd)).getD k []) i

/-- A lane instruction (R188): one beat of each port is consumed; element i of the X beat is fx, of the Y beat fy, of the element width and of the
operands' elements; POISON and SPEC spread. -/
def LaneLaw (i : NodeWord → Instr) (srcs : NodeWord → List Src) (fx fy : NodeWord → Nat → (Nat → Nat → Option Nat) → Nat → Option Nat) : Prop :=
  ∀ w s u e h, DataReady s u w e (srcPorts w) [] → (srcPorts w).head?.bind e.head = some h →
    ((srcs w).map fun x => e.operand x (rawBits w e)).any Operand.badBank = false →
    let wd := rawBits w e
    let ops := (srcs w).map fun x => e.operand x wd
    let like := { h with spec := (e.specOf (srcPorts w)).isSome, owner := (e.specOf (srcPorts w)).getD 0 }
    let n := 256 / wd
    let x := beatOfElems wd ((List.range n).map (fx w wd (laneEl wd ops))) like (ops.any Operand.poison)
    let y := beatOfElems wd ((List.range n).map (fy w wd (laneEl wd ops))) like (ops.any Operand.poison)
    e.lack [x] [y] = [] →
    exec (i w) s = .next (applyFire s u (.ok ((e.fired.consumeAll (srcPorts w)).send [x] [y])))

/-- A reduction of one beat (R189): the valid elements give one element in lane 0; a beat without any gives one without. -/
def ReduceLaw (i : NodeWord → Instr) (f : NodeWord → List Nat → Rounded × Bool) : Prop :=
  ∀ w s u e h, DataReady s u w e [portA w] [] → e.head (portA w) = some h →
    let els := (beatElems (bits w) h).filterMap id
    let full := { h with pay := payOfElems (bits w) [(f w els).1.code], valid := 1 }
    let none := { h with pay := 0, valid := 0 }
    (els ≠ [] → e.lack [full] [full] = [] →
      exec (i w) s = .next (applyFire s u (.ok (((e.fired.consume (portA w)).count h.specOwner (countResult {} (f w els).1 (f w els).2)).send [full] [full])))) ∧
    (els = [] → e.lack [none] [none] = [] → exec (i w) s = .next (applyFire s u (.ok ((e.fired.consume (portA w)).send [none] [none]))))

/-- The local registers and their poison keep their values. -/
def Env.keepLocals (e0 e : Env) : Env := { e with cs := { e.cs with lregs := e0.cs.lregs, lpois := e0.cs.lpois } }

/-- Level AUX[2:0]. -/
def auxLevel (w : NodeWord) : Nat := w.aux.toNat % 8

/-- An accumulation (R190): a DATA beat is folded into the operation's state by `step`; a STOP of the level LV or above sends the
closing beat `out`, and the STOP that is left of it, and clears the state. -/
def AccumulateLaw (i : NodeWord → Instr) (step : NodeWord → Env → Beat → OpState × Counts) (out : NodeWord → OpState → BitVec 3 → Beat) : Prop :=
  ∀ w s u e b, NodeReady s u w e [portA w] [portA w] false → e.head (portA w) = some b →
    (b.isData = true → e.lackRates = [] →
      exec (i w) s = .next (applyFire s u (.ok (((e.consume (portA w)).fired.setOp fun _ =>
        { (step w e b).1 with any := true, pois := (step w e b).1.pois || b.poison }).count none (step w e b).2)))) ∧
    (b.isData = false → b.isStop = true → b.level.toNat < auxLevel w →
      exec (i w) s = .next (applyFire s u (.ok ((e.consume (portA w)).statAt b)))) ∧
    (b.isData = false → b.isStop = true → auxLevel w ≤ b.level.toNat →
      let r := out w e.cs.op b.round
      let bs := if auxLevel w < b.level.toNat then [r, stopBeat (b.level.toNat - auxLevel w - 1) b.round] else [r]
      e.lack bs bs = [] →
      exec (i w) s = .next (applyFire s u (.ok ((e.keepLocals ((((e.consume (portA w)).statAt b).setOp fun o =>
        { o with acc := [], cnt := 0, pois := false, any := false }).send bs bs)).writeLocal [r]))))

/-- The firing of a memory-tile instruction has ended: its beats are consumed, b has left, and the next copy is in turn. -/
def Env.lanesEnded (e : Env) (ps : List Nat) (b : Beat) : Env :=
  ((((e.consumeAll ps).fired.setOp fun o => { o with phase := false, pos := 0, outX := [], pois := false }).beatDone).send [b] [b])

/-- What an instruction that goes on with a firing already begun makes of its next environment: no firing of its own (R110). -/
def Env.goes (e x : Env) : Fire := if e.cs.op.phase then .quiet x true else .ok x

/-- A memory-tile instruction at a DATA beat d (R106, R107, R214, R217): the lanes that are left of the beat act in turn, one access a step, and
with the last of them the firing ends: the beats are consumed and `out` leaves on every enabled output. `ports` are the ports read, `lane` what
one lane does. -/
def LanesLaw (i : NodeWord → Instr) (ports : NodeWord → List Nat) (writes : Bool)
    (lane : NodeWord → SegDesc → Bool → Nat → Env → Beat → Option LaneDone) (out : NodeWord → Env → Beat → Bool → Beat) : Prop :=
  ∀ w s u e d tile, NodeReady s u w e (ports w) (ports w) false → e.allData (ports w) = true → e.mayUpdate = true →
    e.head (portA w) = some d → memTile e.rg.plane e.home.1 = some tile → (e.cs.op.phase = true ∨ e.lackRates = []) →
    e.rg.ptrap = false → e.rg.pureInv = none →
    let pois := writes && (ports w).any fun p => (e.head p).any Beat.poison
    let b (e1 : Env) : Beat := out w e1 d pois
    (e.lanesLeft d = [] → e.lack [b e] [b e] = [] → exec (i w) s = .next (applyFire s u (e.goes (e.lanesEnded (ports w) (b e))))) ∧
    (∀ k rest x, e.lanesLeft d = k :: rest → lane w tile pois k e d = some x →
      (rest ≠ [] → exec (i w) s = .next (applyFire s u (e.goes (e.laneTaken k x)))) ∧
      (rest = [] → (e.laneTaken k x).lack [b (e.laneTaken k x)] [b (e.laneTaken k x)] = [] →
        exec (i w) s = .next (applyFire s u (e.goes ((e.laneTaken k x).lanesEnded (ports w) (b (e.laneTaken k x)))))))

/-- Such an instruction whose lanes apply `op` to their word and two operands, and whose reply beat carries the values returned. -/
def TileLaw (i : NodeWord → Instr) (ports : NodeWord → List Nat) (bits writes : Bool) (op : NodeWord → LaneOp) : Prop :=
  LanesLaw i ports writes
    (fun w tile pois k e d => tileLane tile bits (op w) pois k d (e.payAt (portB w)) (e.payAt (portC w)) e.bankCell)
    (fun _ e d pois => { d with pay := payOfElems 32 e.cs.op.replies, poison := d.poison || e.cs.op.pois || pois })

/-- Context c acts and may issue an instruction that names these registers (R288): it runs, and no load owes any of them. -/
structure SeqReady (s : State) (c : SeqId) (regs : List (BitVec 5)) : Prop where
  actor : s.actor = .seq c
  ready : (seqAt s c).ready regs = true

/-- The context as it issues. -/
def seqIssued (s : State) (c : SeqId) : Seq := (seqAt s c).issue s.cycle.toNat

/-- A three-register instruction of the sequencer: gd takes f of g[ga] and g[gb], and the PC moves to the next word. -/
def RegisterLaw (i : BitVec 5 → BitVec 5 → BitVec 5 → Instr) (f : DWord → DWord → DWord) : Prop :=
  ∀ s c d a b, SeqReady s c [d, a, b] →
    let q := seqIssued s c
    exec (i d a b) s = .next (setSeq s c { setGreg q d (f (greg q a) (greg q b)) with pc := (seqAt s c).pc + 1 })

/-- As RegisterLaw with a sign-extended immediate of 16 bits. -/
def ImmediateLaw (i : BitVec 5 → BitVec 5 → BitVec 16 → Instr) (f : DWord → DWord → DWord) : Prop :=
  ∀ s c d a (k : BitVec 16), SeqReady s c [d, a] →
    let q := seqIssued s c
    exec (i d a k) s = .next (setSeq s c { setGreg q d (f (greg q a) (k.signExtend 64)) with pc := (seqAt s c).pc + 1 })

/-- As RegisterLaw with a shift amount of 6 bits. -/
def ShiftLaw (i : BitVec 5 → BitVec 5 → BitVec 6 → Instr) (f : DWord → Nat → DWord) : Prop :=
  ∀ s c d a (k : BitVec 6), SeqReady s c [d, a] →
    let q := seqIssued s c
    exec (i d a k) s = .next (setSeq s c { setGreg q d (f (greg q a) k.toNat) with pc := (seqAt s c).pc + 1 })

/-- The PC o words from here. -/
def pcPlus (pc : Nat) (o : Int) : Nat := (((pc : Int) + o) % (2 ^ 64 : Int)).toNat

/-- A conditional branch: where the condition holds the PC moves by the signed offset, else to the next word; no register changes. -/
def BranchLaw (i : BitVec 5 → BitVec 5 → BitVec 16 → Instr) (f : DWord → DWord → Bool) : Prop :=
  ∀ s c a b o, SeqReady s c [a, b] →
    let q := seqIssued s c
    exec (i a b o) s = .next (setSeq s c { q with pc := if f (greg q a) (greg q b) then pcPlus (seqAt s c).pc o.toInt else (seqAt s c).pc + 1 })

/-- An access of n bytes at va with the effect acc, which owes register owe: aligned, canonical, translated at the partition's lowest SP, allowed,
and of a target that serves it, it is sent, and the PC moves on; misaligned, it parks with SEQ 0x02. -/
def AccessLaw (s : State) (c : SeqId) (i : Instr) (va n : Nat) (who : Who) (acc : Access) (owe : BitVec 5) : Prop :=
  let q := seqIssued s c
  (va % n ≠ 0 → exec i s = .next (parkSeq (setSeq s c q) c clsSeq 0x02)) ∧
  (∀ s1 e, va % n = 0 → vaCanonical va = true →
    tlbLookup s c.part (lowKey c.part) va acc.needsW = some (s1, e) →
    let t := targetOf c.part e.size e.leaf.toNat va
    targetFault s1 c.part e.size e.leaf.toNat va = none → (acc.isAmo && !amoTarget t) = false →
    exec i s = .next (setSeq (sendReq s1 c.part who va e t acc (2 ^ 64 - 1)) c
      { q with owed := if owe = 0 then q.owed else q.owed ||| ((1 : BitVec 32) <<< owe.toNat), pc := (seqAt s c).pc + 1 }))

/-- A SAMO operation: the word at g[ga] with operand g[gb] and comparand gd. -/
def AmoLaw (i : BitVec 5 → BitVec 5 → BitVec 5 → Bool → Instr) (op : Nat) : Prop :=
  ∀ s c d a b w, SeqReady s c [d, a, b] →
    let q := seqIssued s c
    let n := if w then 4 else 8
    AccessLaw s c (i d a b w) (greg q a).toNat n (.seqAmo c d.toNat w)
      (.amo op n ((greg q b).toNat % 2 ^ (8 * n)) ((greg q d).toNat % 2 ^ (8 * n))) d

/-- An SPB at its stream port (R56, R57, R77): where the port may accept it, a free slot takes it with the next stamp, and both beats are consumed;
a HASH takes its number in its digest context and counts there (R364); one that breaks a rule of its format raises CFG at the REQ port. -/
def AcceptLaw (i : Instr) : Prop :=
  ∀ s r o rg sp k a b n, s.actor = .sp r o → spOf s r o = some (rg, sp) → rg.running = true → rg.isHalted 1 o 0 = false →
    reqPort rg o = some k → pairAtHead (spHeads rg o k) = some (a, b) → a.spec = false → b.spec = false →
    sp.slots.findIdx? Option.isNone = some n →
    let rg1 := (rg.consumePort o true 0 k).consumePort o true 0 k
    (∀ sub, spbCheck rg o i = some sub → exec i s = .next (spFault (setRegion s rg1) r o clsCfg sub k (some a) b.pay)) ∧
    (spbCheck rg o i = none →
      let sl : Slot := { spb := i, stamp := sp.nextStamp, port := k, deadline := rg.deadline, round := b.round, hashNo := sp.hashNo i }
      let sp1 := { sp.countHash i with slots := lmod sp.slots n fun _ => some sl, nextStamp := sp.nextStamp + 1 }
      exec i s = .next (setRegion s { setSp rg1 sp1 with hang := 0 }))

/-- A stream port acts and its region runs: the heads of inbound port k, k's role, and the state after its head has left. -/
structure SpReady (s : State) (r : RegId) (o : Offset) (rg : Region) (sp : Sp) : Prop where
  unit : spOf s r o = some (rg, sp)
  running : rg.running = true
  whole : rg.isHalted 1 o 0 = false

/-- The state after the head of inbound port k has been consumed. -/
def spTake (s : State) (rg : Region) (o : Offset) (k : Nat) : State := setRegion s { rg.consumePort o true 0 k with hang := 0 }

/-- The acting engine holds the command as entry k, which no cut has ended (R256). -/
structure MeHolds (s : State) (code : Nat) (c : MCmd) (x : MeRun) : Prop where
  actor : s.actor = .me x.rg.id x.m.off x.k
  entry : x.k ≠ 16
  unit : meOf s x.rg.id x.m.off = some (x.rg, x.m)
  queued : x.m.queue[x.k]? = some x.e
  command : x.e.code = (code, c)
  round : x.rg.beyondCut x.e.round = false

/-- And it may start now. -/
structure MeStarts (s : State) (code : Nat) (c : MCmd) (x : MeRun) : Prop where
  holds : MeHolds s code c x
  waits : x.e.started = false
  free : meMayStart x.m x.k = true
  format : meFormatOk x.rg x.m code c = true

/-- The next operand beat of a running command is at the port that its mask gives, and completes line `num` of format f. -/
structure OperandLine (x : MeRun) (f : Fmt) (num : Nat) (b : Beat) (l : MLine) (keep : List Beat) : Prop where
  head : (blockHeads x.rg x.m.off (maskPort x.e.code.2.pmask x.e.beat)).head? = some b
  data : b.isData = true
  spec : b.spec = false
  linkOpen : ((x.rg.inLink x.m.off true 0 (maskPort x.e.code.2.pmask x.e.beat)).bind x.rg.linkAt).any (fun l => l.eoi) = false
  scale : (wantsScale f x.e.lineBuf && b.valid != 0xFF) = false
  line : takeLine f num (x.e.lineBuf ++ [b]) = some (l, keep)

/-- The region after that beat has been consumed, and the entry. -/
def MeRun.taken (x : MeRun) : Region := x.rg.consumePort x.m.off true 0 (maskPort x.e.code.2.pmask x.e.beat)
def MeRun.next (x : MeRun) (keep : List Beat) : MeEntry := { x.e with beat := x.e.beat + 1, lineBuf := keep }

/-- The feed of a region has a word at its head, and acts on it; `g` is the feed behind that word. -/
structure CfgReady (s : State) (rg : Region) (adds : Bool) (g : Feed) : Prop where
  actor : s.actor = .cfg rg.id
  region : regionAt s rg.id = some rg
  word : ∃ f w, rg.feed = some f ∧ f.words = w :: g.words ∧ f.closed = false ∧
    g = { f with words := g.words, sum := if adds then f.sum + w.toNat else f.sum }

/-- A cursor word ends AUTOX and RECT. -/
def Feed.fresh (g : Feed) : Feed := { g with autox := false, rect := none, last := none }

/-- The stream has begun, and writes to the one cell at its cursor. -/
structure OneCell (rg : Region) (g : Feed) (c : Offset) : Prop where
  begun : g.begun = true
  cursor : g.cursor = some c
  cell : g.hardCur = false
  rect : g.rect = none
  auto : g.autox = false
  inside : rg.holds c = true
  soft : rg.hardCol c.dx = false

/-- The constructors whose step may store to memory: the accesses that perform, what writes notices, fault records, saves and statistics, what moves
a region's buffers, and what does one of these on its way. -/
def mayStore : Instr → Bool
  | .remoteAccessRequest .. | .hostMemAccess .. | .windowAccess .. | .faultNoticePendingWrite .. | .walkComplete .. | .writePerform ..
  | .readPerform .. | .elementIssue .. | .invalidationComplete .. | .resume .. | .seqLd .. | .ldw .. | .seqSt .. | .stw .. | .samoAdd .. | .samoSwap .. | .samoCas ..
  | .samoAnd .. | .samoOr .. | .samoXor .. | .samoMin .. | .samoMax .. | .samoMinu .. | .samoMaxu .. | .cfgl .. | .shadowLoad .. | .cfgs ..
  | .planeSwap .. | .drainTimeout .. | .arm .. | .waits .. | .waitsReturn .. | .pure .. | .waitm .. | .waitmWake .. | .launch .. | .tail ..
  | .seqTrap .. | .kernelComplete .. | .recordStart .. | .linkWake .. | .sqctlSkip .. | .allocatorRun .. | .pwbudWrite .. | .configInstall ..
  | .invocationArm .. | .invocationRetire .. | .schedulerPreempt .. | .cutComplete .. | .tCutExpiry .. | .invocationResume ..
  | .regionFreeze .. | .faultRecordPendingWrite .. | .hangTimeout .. | .revoke .. | .quote .. | .registerWrite .. => true
  | _ => false

/-- An access may perform: it writes bytes bs to DRAM, CXL or host memory, no earlier access touches its granule, and it is in time. -/
structure PlainWrite (s : State) (q : MemReq) (bs : List Byte) : Prop where
  plain : (∃ d a, q.tgt = .dram d a) ∨ (∃ p o, q.tgt = .cxl p o) ∨ ∃ a, q.tgt = .host a
  effect : q.acc = .write bs false
  first : mayPerform s q = true
  inTime : s.cycle.toNat ≤ q.deadline

/-- The lines of the n bytes from k on hold no ciphertext, or are held under binding b. -/
def KeyedUnder (s : State) (b k n : Nat) : Prop :=
  ∀ i, k / 256 ≤ i → i ≤ (k + n - 1) / 256 → isCrypt (256 * i) = false ∨ aget s.lineKey i = none ∨ aget s.lineKey i = some b

/-- The acting context has no earlier access to send again: the step is the instruction's own (R283, R293). -/
def NoRetry (s : State) : Prop := ∀ c, s.actor = .seq c → (seqAt s c).retry = []

/-- A step of the instruction writes no register but these, and moves the PC of its own context; nothing else of the machine changes but what
issuing notes. -/
def OnlyRegisters (i : Instr) (rds : List (BitVec 5)) : Prop :=
  ∀ s t, NoRetry s → exec i s = .next t → t = { s with seqs := t.seqs } ∧ ∀ c, s.actor = .seq c →
    (∀ d, seqKey d ≠ seqKey c → seqAt t d = seqAt s d) ∧
    (let x := seqAt t c
     x = { seqAt s c with regs := x.regs, pc := x.pc, st := x.st, park := x.park, lastIssue := x.lastIssue, raised := x.raised }) ∧
    (∀ r, r ∉ rds → greg (seqAt t c) r = greg (seqAt s c) r)

end Machine

end Sys2Proof
end

