-- ==== Sys2Proof/Certificates/Slice0/Obligations.lean ====
section
/-! DEFINITION. The statements about the machine. -/

open Sys2Proof Sys2Proof.Machine

/-- R178, R179 (IADD, ISUB, IMUL, IMAD, INEG, IABS, SHL): each result element is the exact integer result of the operand elements, read under the
format's signedness, clamped to the format under SAT and wrapped otherwise. -/
def Obligations.IntegerResultsFitTheFormat : Prop :=
  ElementLaw .iadd bits srcsAB (fun w l => fit w (ival w (arg0 l) + ival w (arg1 l))) ∧
  ElementLaw .isub bits srcsAB (fun w l => fit w (ival w (arg0 l) - ival w (arg1 l))) ∧
  ElementLaw .imul bits srcsAB (fun w l => fit w (ival w (arg0 l) * ival w (arg1 l))) ∧
  ElementLaw .imad bits srcsABC (fun w l => fit w (ival w (arg0 l) * ival w (arg1 l) + ival w (arg2 l))) ∧
  ElementLaw .ineg bits srcsA (fun w l => fit w (-(ival w (arg0 l)))) ∧
  ElementLaw .iabs bits srcsA (fun w l => fit w ((ival w (arg0 l)).natAbs)) ∧
  ElementLaw .shl bits srcsAB (fun w l => fit w (ival w (arg0 l) * ((2 ^ (arg1 l % 256) : Nat) : Int)))

/-- R178, R180 (IMULH, IMIN, IMAX, ICMP, AND, OR, XOR, ANDN, NOT, SHR, SAR, ROTL, CLZ, POPC, SEL): each result element, in the bits of the element
width, which under RAW is that of the link at the first port (R119). -/
def Obligations.IntegerCodeResults : Prop :=
  ElementLaw .imulh bits srcsAB (fun w l => codeOfInt (bits w) (ival w (arg0 l) * ival w (arg1 l) / ((2 ^ bits w : Nat) : Int)) % 2 ^ bits w) ∧
  ElementLaw .imin bits srcsAB (fun w l => (if ival w (arg0 l) < ival w (arg1 l) then arg0 l else arg1 l) % 2 ^ bits w) ∧
  ElementLaw .imax bits srcsAB (fun w l => (if ival w (arg0 l) < ival w (arg1 l) then arg1 l else arg0 l) % 2 ^ bits w) ∧
  ElementLaw .icmp bits srcsAB (fun w l =>
    (if condHolds (w.aux.toNat % 8) (some (compare (ival w (arg0 l)) (ival w (arg1 l)))) then 2 ^ bits w - 1 else 0) % 2 ^ bits w) ∧
  ElementLaw .and bits srcsAB (fun w l => (arg0 l &&& arg1 l) % 2 ^ bits w) ∧
  ElementLaw .or bits srcsAB (fun w l => (arg0 l ||| arg1 l) % 2 ^ bits w) ∧
  ElementLaw .xor bits srcsAB (fun w l => (arg0 l ^^^ arg1 l) % 2 ^ bits w) ∧
  ElementLaw .andn bits srcsAB (fun w l => (arg0 l &&& (2 ^ bits w - 1 - arg1 l)) % 2 ^ bits w) ∧
  ElementLaw .not bits srcsA (fun w l => (2 ^ bits w - 1 - arg0 l) % 2 ^ bits w) ∧
  ElementLaw .shr bits srcsAB (fun w l => arg0 l / 2 ^ (arg1 l % 256) % 2 ^ bits w) ∧
  ElementLaw .sar bits srcsAB (fun w l =>
    codeOfInt (bits w) (signedOf (bits w) (arg0 l) / ((2 ^ min (arg1 l % 256) (bits w - 1) : Nat) : Int)) % 2 ^ bits w) ∧
  ElementLaw .rotl bits srcsAB (fun w l =>
    let k := arg1 l % 256 % bits w
    (arg0 l * 2 ^ k % 2 ^ bits w + arg0 l / 2 ^ (bits w - k)) % 2 ^ bits w) ∧
  ElementLaw .clz bits srcsA (fun w l => (if arg0 l = 0 then bits w else bits w - 1 - Nat.log2 (arg0 l)) % 2 ^ bits w) ∧
  ElementLaw .popc bits srcsA (fun w l => ((List.range (bits w)).filter fun i => (arg0 l).testBit i).length % 2 ^ bits w) ∧
  WidthLaw .sel rawBits srcsABC (fun _ l => if arg0 l ≠ 0 then arg1 l else arg2 l)

/-- R182 (FADD, FSUB, FMUL, FFMA, FRCP, FRSQ, FSQRT, FEXP2, FLOG2, FSCALE): each result element is the exact result of the operand values,
rounded once under RND and SAT; the values of FEXP2 and FLOG2 are those of log 11. -/
def Obligations.FloatResultsAreRoundedOnce : Prop :=
  ElementLaw .fadd fbits srcsAB (fun w l => rounded w (exactAdd w.rnd (fval w (arg0 l)) (fval w (arg1 l)))) ∧
  ElementLaw .fsub fbits srcsAB (fun w l => rounded w (exactAdd w.rnd (fval w (arg0 l)) (exactNeg (fval w (arg1 l))))) ∧
  ElementLaw .fmul fbits srcsAB (fun w l => rounded w (exactMul (fval w (arg0 l)) (fval w (arg1 l)))) ∧
  ElementLaw .ffma fbits srcsABC (fun w l => rounded w (exactAdd w.rnd (exactMul (fval w (arg0 l)) (fval w (arg1 l))) (fval w (arg2 l)))) ∧
  ElementLaw .frcp fbits srcsA (fun w l => rounded w (exactRecip (fval w (arg0 l)))) ∧
  ElementLaw .frsq fbits srcsA (fun w l => rounded w (exactRsqrt (fval w (arg0 l)))) ∧
  ElementLaw .fsqrt fbits srcsA (fun w l => rounded w (exactSqrt (fval w (arg0 l)))) ∧
  ElementLaw .fexp2 fbits srcsA (fun w l => rounded w (exactExp2 (fval w (arg0 l)))) ∧
  ElementLaw .flog2 fbits srcsA (fun w l => rounded w (exactLog2 (fval w (arg0 l)))) ∧
  ElementLaw .fscale fbits srcsAB (fun w l => rounded w (exactScale (fval w (arg0 l)) (scaleBound (signedOf (fbits w) (arg1 l)))))

/-- R180, R183 (FNEG, FABS, FMIN, FMAX, FCMP): sign operations on the bits with a canonical NaN, selections, and comparisons that a NaN makes unordered. -/
def Obligations.FloatCodeResults : Prop :=
  ElementLaw .fneg fbits srcsA (fun w l =>
    (if fltIsNan (fltShape w.fmt) (arg0 l) then (fltShape w.fmt).canon
     else fltCode (fltShape w.fmt) (!fltNeg (fltShape w.fmt) (arg0 l)) (fltMag (fltShape w.fmt) (arg0 l))) % 2 ^ fbits w) ∧
  ElementLaw .fabs fbits srcsA (fun w l =>
    (if fltIsNan (fltShape w.fmt) (arg0 l) then (fltShape w.fmt).canon else fltMag (fltShape w.fmt) (arg0 l)) % 2 ^ fbits w) ∧
  ElementLaw .fmin fbits srcsAB (fun w l => fltPick (fltShape w.fmt) true (arg0 l) (arg1 l) % 2 ^ fbits w) ∧
  ElementLaw .fmax fbits srcsAB (fun w l => fltPick (fltShape w.fmt) false (arg0 l) (arg1 l) % 2 ^ fbits w) ∧
  ElementLaw .fcmp fbits srcsAB (fun w l =>
    (if condHolds (w.aux.toNat % 8) (fltCmp (fltShape w.fmt) (arg0 l) (arg1 l)) then 2 ^ fbits w - 1 else 0) % 2 ^ fbits w)

/-- R188 (BCAST, SHUF, SLIDE, PACK, UNPACK, LANEID): where each element of the result comes from; the element width under RAW is that of the link
at the first port (R119). -/
def Obligations.LaneMovesPlaceElements : Prop :=
  LaneLaw .bcast srcsA (fun w _ el _ => el 0 (w.imm.toNat % 64)) (fun w _ el _ => el 0 (w.imm.toNat % 64)) ∧
  LaneLaw .shuf srcsAB (fun _ wd el i => (el 1 i).bind fun j => el 0 (j % (256 / wd))) (fun _ wd el i => (el 1 i).bind fun j => el 0 (j % (256 / wd))) ∧
  LaneLaw .slide srcsAB
    (fun w wd el i => if i + w.imm.toNat % 64 < 256 / wd then el 0 (i + w.imm.toNat % 64) else el 1 (i + w.imm.toNat % 64 - 256 / wd))
    (fun w wd el i => if i + w.imm.toNat % 64 < 256 / wd then el 0 (i + w.imm.toNat % 64) else el 1 (i + w.imm.toNat % 64 - 256 / wd)) ∧
  LaneLaw .pack srcsAB (fun _ _ el i => el (i % 2) (i / 2)) (fun _ wd el i => el (i % 2) (256 / wd / 2 + i / 2)) ∧
  LaneLaw .unpack srcsAB (fun _ wd el i => if i < 256 / wd / 2 then el 0 (2 * i) else el 1 (2 * (i - 256 / wd / 2)))
    (fun _ wd el i => if i < 256 / wd / 2 then el 0 (2 * i + 1) else el 1 (2 * (i - 256 / wd / 2) + 1)) ∧
  LaneLaw .laneid srcsA (fun w wd el i => (el 0 i).map fun _ => (w.imm.toNat + i) % 2 ^ wd)
    (fun w wd el i => (el 0 i).map fun _ => (w.imm.toNat + i) % 2 ^ wd)

/-- R185 (CVT) and R186, R187 (QPACK, QUNPK): which source beats a conversion takes together, and what it sends. -/
def Obligations.ConversionsTakeWholeGroups : Prop :=
  (∀ w s u e b, DataReady s u w e [portA w] [] → fmtCount w.fmt / fmtCount (fmt2 w) ≤ 1 → e.head (portA w) = some b →
    let r := convertBeats (fmt2 w) w.fmt w.rnd w.sat (cvtK w) [b]
    e.lack r.1 r.1 = [] →
    exec (.cvt w) s = .next (applyFire s u (.ok (((e.fired.consume (portA w)).count b.specOwner r.2).send r.1 r.1)))) ∧
  (∀ w s u e b, NodeReady s u w e [portA w] [portA w] false → e.lackRates = [] → e.head (portA w) = some b → b.isData = true →
    1 < fmtCount w.fmt / fmtCount (fmt2 w) →
    let held := e.cs.op.held ++ [b]
    let r := convertBeats (fmt2 w) w.fmt w.rnd w.sat (cvtK w) held
    (held.length < fmtCount w.fmt / fmtCount (fmt2 w) →
      exec (.cvt w) s = .next (applyFire s u (.ok ((e.consume (portA w)).fired.setOp fun o => { o with held := held })))) ∧
    (fmtCount w.fmt / fmtCount (fmt2 w) ≤ held.length → e.lack r.1 r.1 = [] →
      exec (.cvt w) s = .next (applyFire s u (.ok ((((e.consume (portA w)).fired.setOp fun o => { o with held := [] }).count none r.2).send r.1 r.1))))) ∧
  (∀ w s u e b, NodeReady s u w e [portA w] [portA w] false → e.lackRates = [] → e.head (portA w) = some b → b.isData = true →
    let held := e.cs.op.held ++ [b]
    let r := quadGroup w.fmt (fmt2 w) w.rnd held
    (held.length < 128 / fmtCount (fmt2 w) →
      exec (.qpack w) s = .next (applyFire s u (.ok ((e.consume (portA w)).fired.setOp fun o => { o with held := held })))) ∧
    (128 / fmtCount (fmt2 w) ≤ held.length → e.lack r.1 r.1 = [] →
      exec (.qpack w) s = .next (applyFire s u (.ok ((((e.consume (portA w)).fired.setOp fun o => { o with held := [] }).count none r.2).send r.1 r.1))))) ∧
  (∀ w s u e b, NodeReady s u w e [portA w] [portA w] false → e.lackRates = [] → e.head (portA w) = some b → b.isData = true →
    (e.cs.op.held = [] → b.valid = 0xFF →
      exec (.qunpk w) s = .next (applyFire s u (.ok ((e.consume (portA w)).fired.setOp fun o => { o with held := [b], cnt := 0 })))) ∧
    (∀ scale rest, e.cs.op.held = scale :: rest →
      let n := fmtCount (fmt2 w)
      let res := ((beatElems (fmtWidth (fmt2 w)) b).zip (List.range n)).map fun x => x.1.map fun c =>
        let v := quadElem (fmt2 w) (payElem scale.pay 8 ((e.cs.op.cnt * n + x.2) / 4)) c
        (roundTo (fmtElem w.fmt) false w.sat w.rnd v, exactIsNan v)
      let out := (chunks (fmtCount w.fmt) (n / fmtCount w.fmt) (res.map fun r => r.map fun x => x.1.code)).map fun l =>
        beatOfElems (fmtWidth w.fmt) l b (b.poison || scale.poison)
      let done := decide (quadBeats (fmt2 w) ≤ e.cs.op.cnt + 1)
      e.lack out out = [] →
      ∃ c, exec (.qunpk w) s = .next (applyFire s u (.ok ((((e.consume (portA w)).fired.setOp fun o =>
        { o with held := if done then [] else o.held, cnt := if done then 0 else e.cs.op.cnt + 1 }).count none c).send out out)))))

/-- R189 (HSUM, HMAX, HMIN): a sum rounded once, the greatest and the least valid element. -/
def Obligations.ReductionsGiveOneElement : Prop :=
  ReduceLaw .hsum (fun w l => sumOnce w l) ∧
  ReduceLaw .hmax (fun w l => (exactly (l.foldl (elemPick (fmtElem w.fmt) false) (l.headD 0)), true)) ∧
  ReduceLaw .hmin (fun w l => (exactly (l.foldl (elemPick (fmtElem w.fmt) true) (l.headD 0)), true))

/-- R190, R191 (ACC, ACCMAX, COUNT, PSCAN): what a DATA beat adds to the running values and what leaves at a STOP of the level LV
or above; PSCAN passes each STOP on, and one of the level LV or above ends its carry. -/
def Obligations.AccumulationsCloseAtTheirLevel : Prop :=
  AccumulateLaw .acc
    (fun w e b => ({ e.cs.op with acc := (accStep (addOnce w) e.cs.op.acc (beatElems (bits w) b)).1 },
      (accStep (addOnce w) e.cs.op.acc (beatElems (bits w) b)).2))
    (fun w o rd => accBeat (bits w) (if o.acc.isEmpty then List.replicate (256 / bits w) none else o.acc) o.pois rd) ∧
  AccumulateLaw .accmax
    (fun w e b => ({ e.cs.op with
      acc := (accStep (fun x y => (exactly (elemPick (fmtElem w.fmt) false x y), true)) e.cs.op.acc (beatElems (bits w) b)).1 }, {}))
    (fun w o rd => accBeat (bits w) (if o.acc.isEmpty then List.replicate (256 / bits w) none else o.acc) o.pois rd) ∧
  AccumulateLaw .count
    (fun w e b =>
      let r := roundInt (fmtSigned w.fmt) (bits w) true w.sat .rne
        (exactOfInt (ival w e.cs.op.cnt + validElements (((e.linkIn (portA w)).map (·.fmtD)).getD .raw) b.valid))
      ({ e.cs.op with cnt := r.code }, countResult {} r false))
    (fun _ o rd => accBeat 32 [some o.cnt] o.pois rd) ∧
  (∀ w s u e b, NodeReady s u w e [portA w] [portA w] false → e.lackRates = [] → e.head (portA w) = some b → b.isData = true →
    let r := scanStep (addOnce w) (e.cs.op.acc.headD none) (beatElems (bits w) b)
    let x := { b with pay := payOfElems (bits w) (r.1.map fun o => o.getD 0) }
    e.lack [x] [x] = [] →
    exec (.pscan w) s = .next (applyFire s u (.ok ((((e.consume (portA w)).fired.setOp fun o => { o with acc := [r.2.1] }).count none r.2.2).send [x] [x])))) ∧
  (∀ w s u e b, NodeReady s u w e [portA w] [portA w] false → e.head (portA w) = some b → b.isData = false → b.isStop = true →
    let e0 := if auxLevel w ≤ b.level.toNat then e.setOp fun o => { o with acc := [] } else e
    e.lack [b] [b] = [] →
    exec (.pscan w) s = .next (applyFire s u (.ok (e.keepLocals (((e0.consume (portA w)).statAt b).send [b] [b])))))

/-- R199, R229, R220: FORK, GATE, DROP, SINK, NOP and FENCE each complete with a next state on the heads named here: what is consumed and what passes.
That a FENCE with nothing awaited passes its beat at once is the model's choice (log 34). -/
def Obligations.PassingOpsForwardOrDiscard : Prop :=
  (∀ w s u e d, DataReady s u w e [portA w] [] → e.head (portA w) = some d → e.lack [d] [d] = [] →
    exec (.fork w) s = .next (applyFire s u (.ok ((e.fired.consume (portA w)).send [d] [d]))) ∧
    exec (.nop w) s = .next (applyFire s u (.ok ((e.fired.consume (portA w)).send [d] [d])))) ∧
  (∀ w s u e d, NodeReady s u w e [portA w] [portA w] false → e.head (portA w) = some d → d.isData = true → e.lackRates = [] → e.lack [d] [d] = [] →
    exec (.fence w) s = .next (applyFire s u (.ok ((e.consume (portA w)).fired.send [d] [d])))) ∧
  (∀ w s u e d c, DataReady s u w e [portA w, portB w] [portB w] → e.head (portA w) = some d → e.head (portB w) = some c →
    (c.ctl ≠ 0 → e.lack [steered d c] [steered d c] = [] →
      exec (.gate w) s = .next (applyFire s u (.ok ((e.fired.consumeAll [portA w, portB w]).send [steered d c] [steered d c])))) ∧
    (c.ctl = 0 → exec (.gate w) s = .next (applyFire s u (.ok ((e.fired.consumeAll [portA w, portB w]).send [] []))))) ∧
  (∀ w s u e d, NodeReady s u w e [portA w] [] false → e.head (portA w) = some d → d.isData = true → e.lackRates = [] →
    (d.valid = 0 → exec (.drop w) s = .next (applyFire s u (.ok ((e.consume (portA w)).fired.send [] [])))) ∧
    (d.valid ≠ 0 → e.lack [d] [d] = [] → exec (.drop w) s = .next (applyFire s u (.ok ((e.consume (portA w)).fired.send [d] [d]))))) ∧
  (∀ w s u e d, NodeReady s u w e [portA w] [] false → e.head (portA w) = some d →
    exec (.sink w) s =
      .next (applyFire s u (.ok ((if d.isData then (e.consume (portA w)).fired else (e.consume (portA w)).statAt d).noteRound d))))

/-- R199, R200, R202, R203: STEER, DIST and DISPATCH each complete with a next state on the heads named here: which output a beat takes; and what STEER does with
the oldest beat that it sent before its predicate came: an SPR confirms it, or squashes it and the beat leaves on the other arm. -/
def Obligations.SteeringSelectsTheOutput : Prop :=
  (∀ w s u e d c, NodeReady s u w e [portA w, portB w] [portB w] false → e.head (portA w) = some d → e.head (portB w) = some c →
    d.isData = true → c.isData = true → e.cs.op.held = [] → e.lackRates = [] →
    let e1 := ((e.awake (portB w)).consumeAll [portA w, portB w]).fired
    (c.ctl ≠ 0 → e.lack [steered d c] [] = [] → exec (.steer w) s = .next (applyFire s u (.ok (e1.send [steered d c] [])))) ∧
    (c.ctl = 0 → e.lack [] [steered d c] = [] → exec (.steer w) s = .next (applyFire s u (.ok (e1.send [] [steered d c]))))) ∧
  (∀ w s u e c h t, NodeReady s u w e [portA w, portB w] [portB w] false → e.head (portB w) = some c → c.isData = true → e.cs.op.held = h :: t →
    let e1 := ((e.awake (portB w)).consume (portB w)).fired.setOp fun o => { o with held := t }
    let spr (ok : Bool) : Beat := sprBeat ok e.cs.op.round h.owner
    let x := { steered h c with owner := 0 }
    (w.aux.toNat % 2 = 0 → c.ctl ≠ 0 → e.lack [spr true] [] = [] → exec (.steer w) s = .next (applyFire s u (.ok (e1.send [spr true] [])))) ∧
    (w.aux.toNat % 2 = 0 → c.ctl = 0 → e.lack [spr false] [x] = [] → exec (.steer w) s = .next (applyFire s u (.ok (e1.send [spr false] [x])))) ∧
    (w.aux.toNat % 2 = 1 → c.ctl = 0 → e.lack [] [spr true] = [] → exec (.steer w) s = .next (applyFire s u (.ok (e1.send [] [spr true])))) ∧
    (w.aux.toNat % 2 = 1 → c.ctl ≠ 0 → e.lack [x] [spr false] = [] → exec (.steer w) s = .next (applyFire s u (.ok (e1.send [x] [spr false]))))) ∧
  (∀ w s u e d, DataReady s u w e [portA w] [] → e.head (portA w) = some d →
    let wx := w.aux.toNat % 8 + 1
    let wy := w.aux.toNat / 8 % 8 + 1
    let t := ((e.fired.consume (portA w)).setOp fun o => { o with turn := (o.turn + 1) % (wx + wy) })
    (e.cs.op.turn < wx → e.lack [d] [] = [] → exec (.dist w) s = .next (applyFire s u (.ok (t.send [d] [])))) ∧
    (wx ≤ e.cs.op.turn → e.lack [] [d] = [] → exec (.dist w) s = .next (applyFire s u (.ok (t.send [] [d]))))) ∧
  (∀ w s u e d c, NodeReady s u w e [portA w, portB w] [portA w, portB w] false → e.head (portA w) = some d →
    e.head (portB w) = some c → d.isData = true → c.isData = true → c.ctl < w.imm.toNat % 2 ^ 9 → e.lackRates = [] →
    let n := w.imm.toNat % 2 ^ 9
    let cnts := if e.cs.op.counts.isEmpty then List.replicate n 0 else e.cs.op.counts
    let ovfs := if e.cs.op.ovfs.isEmpty then List.replicate n false else e.cs.op.ovfs
    let k := cnts.getD c.ctl 0
    let y : Beat := { d with pay := payOfElems 32 [c.ctl, k], valid := 3, poison := c.poison, spec := false }
    e.lack [steered d c] [y] = [] →
    exec (.dispatch w) s = .next (applyFire s u
      (.ok (((e.consumeAll [portA w, portB w]).fired.setOp fun o =>
        { o with counts := if k = 2 ^ 20 - 1 then cnts else lmod cnts c.ctl fun _ => k + 1,
                 ovfs := if k = 2 ^ 20 - 1 then lmod ovfs c.ctl fun _ => true else ovfs }).send [steered d c] [y]))))

/-- R201: MERGE, MERGERR and MERGESEL each complete with a next state on a DATA beat at the port they take from; a selector that names its own port
takes the beat behind it. -/
def Obligations.MergesTakeOnePort : Prop :=
  (∀ w s u e p d, NodeReady s u w e (mergePorts w) [] false →
    (if e.cs.op.turn = 0 then mergePorts w else afterPort (mergePorts w) (e.cs.op.turn - 1)).find? (fun q => (e.head q).any Beat.isData) = some p →
    e.head p = some d → e.lack [d] [d] = [] →
    exec (.merge w) s = .next (applyFire s u (.ok (((e.consume p).fired.setOp fun o => { o with turn := p + 1 }).send [d] [d])))) ∧
  (∀ w s u e d, NodeReady s u w e (mergePorts w) [] false →
    let p := (mergePorts w).getD (e.cs.op.turn % (mergePorts w).length) 0
    e.head p = some d → d.isData = true → e.lack [d] [d] = [] →
    exec (.mergerr w) s = .next (applyFire s u
      (.ok (((e.consume p).fired.setOp fun o => { o with turn := (o.turn + 1) % (mergePorts w).length }).send [d] [d])))) ∧
  (∀ w s u e c d, NodeReady s u w e (portA w :: mergePorts w) [portA w] false → e.head (portA w) = some c → c.isData = true →
    c.ctl ∈ mergePorts w → (if c.ctl = portA w then (e.heads (portA w))[1]? else e.head c.ctl) = some d → d.isData = true → e.lack [steered d c] [steered d c] = [] →
    exec (.mergesel w) s =
      .next (applyFire s u (.ok (((e.consume (portA w)).consume c.ctl).fired.send [steered d c] [steered d c]))))

/-- R204 to R206: GEN, CARRY, INVAR and REPEAT each complete with a next state on the heads named here: what a source, a loop value and a repeated fibre
send next. -/
def Obligations.SourcesAndLoopsSendInOrder : Prop :=
  (∀ w s u e inv, NodeReady s u w e [] [] false → e.rg.sourceOpen false = some inv → e.cs.op.eoi = false →
    let rs := (List.range (fmtCount w.fmt)).map fun i => roundTo (fmtElem w.fmt) true w.sat w.rnd (exactOfInt (genElem w e.cs.op.cnt i))
    let b := dataBeat (payOfElems (bits w) (rs.map (·.code))) 0xFF (BitVec.ofNat 14 e.cs.op.cnt) e.cs.op.round
    (e.cs.op.cnt < inv.entry.tiles → e.lackRates = [] → e.lack [b] [b] = [] →
      ∃ c, exec (.gen w) s = .next (applyFire s u (.ok (((((e.issued e.cs.op.cnt).setOp fun o => { o with cnt := e.cs.op.cnt + 1 }).count none c).fired).send [b] [b])))) ∧
    (let m := markBeat 2 e.cs.op.round 0
     inv.entry.tiles ≤ e.cs.op.cnt → e.lack [m] [m] = [] →
      exec (.gen w) s = .next (applyFire s u
        (.ok (e.keepLocals ((((e.setOp fun o => { o with eoi := true }).statAt m).noteRound m).send [m] [m])))))) ∧
  (∀ w s u e d, NodeReady s u w e [portA w, portB w, portC w] [portA w, portB w, portC w] false → e.cs.op.phase = false → e.cs.op.eoi = false →
    e.head (portA w) = some d → d.isData = true → e.lackRates = [] → e.lack [d] [d] = [] →
    exec (.carry w) s = .next (applyFire s u (.ok (((e.consume (portA w)).fired.setOp fun o => { o with phase := true, held := [] }).send [d] [d])))) ∧
  (∀ w s u e p d, NodeReady s u w e [portA w, portB w, portC w] [portA w, portB w, portC w] false → e.cs.op.phase = true →
    e.head (portB w) = some p → p.isData = true → e.head (portC w) = some d → d.isData = true →
    (p.ctl = 0 → exec (.carry w) s = .next (applyFire s u (.ok ((e.consume (portB w)).fired.setOp fun o => { o with phase := false, held := [] })))) ∧
    (p.ctl ≠ 0 → e.lackRates = [] → e.lack [steered d p] [steered d p] = [] →
      exec (.carry w) s = .next (applyFire s u (.ok ((e.consumeAll [portB w, portC w]).fired.send [steered d p] [steered d p]))))) ∧
  (∀ w s u e d, NodeReady s u w e [portA w, portB w] [portA w, portB w] false → e.cs.op.phase = false →
    e.head (portA w) = some d → d.isData = true → e.lackRates = [] → e.lack [d] [d] = [] →
    exec (.invar w) s = .next (applyFire s u (.ok (((e.consume (portA w)).fired.setOp fun o => { o with phase := true, held := [d] }).send [d] [d])))) ∧
  (∀ w s u e p d t, NodeReady s u w e [portA w, portB w] [portA w, portB w] false → e.cs.op.phase = true → e.cs.op.held = d :: t →
    e.head (portB w) = some p → p.isData = true →
    (p.ctl = 0 → exec (.invar w) s = .next (applyFire s u (.ok ((e.consume (portB w)).fired.setOp fun o => { o with phase := false, held := [] })))) ∧
    (p.ctl ≠ 0 → e.lackRates = [] → e.lack [steered d p] [steered d p] = [] →
      exec (.invar w) s = .next (applyFire s u (.ok ((e.consume (portB w)).fired.send [steered d p] [steered d p]))))) ∧
  (∀ w s u e, NodeReady s u w e [portA w, portB w] [portA w, portB w] false →
    (∀ c, e.cs.op.any = false → e.head (portB w) = some c → c.isData = true →
      exec (.repeatN w) s = .next (applyFire s u (.ok ((e.consume (portB w)).fired.setOp fun o =>
        { o with any := true, next := c.ctl, turn := 0, pos := 0, pois := c.poison })))) ∧
    (∀ d, e.cs.op.any = true → e.cs.op.turn = 0 → e.head (portA w) = some d → d.isData = true → e.cs.op.next ≠ 0 →
      let kept := (segAt e.cell (segNo w)).beats
      let x := { d with poison := d.poison || e.cs.op.pois }
      kept.length < (segDesc e.rg.plane e.off (segNo w)).size → e.lack [x] [x] = [] →
      exec (.repeatN w) s = .next (applyFire s u (.ok ((((e.consume (portA w)).setSegBeats (segNo w) (kept ++ [d])).fired).send [x] [x])))) ∧
    (∀ d, e.cs.op.any = true → e.cs.op.turn ≠ 0 → (segAt e.cell (segNo w)).beats[e.cs.op.pos]? = some d →
      let x := { d with poison := d.poison || e.cs.op.pois }
      e.lack [x] [x] = [] →
      exec (.repeatN w) s = .next (applyFire s u (.ok ((e.setOp fun o => { o with pos := o.pos + 1 }).send [x] [x])))))

/-- R207: SEQTAG and REORDER each complete with a next state on the heads named here: tags count the beats, and beats leave in the order of their tags. -/
def Obligations.TagsOrderBeats : Prop :=
  (∀ w s u e d, NodeReady s u w e [portA w] [portA w] false → e.head (portA w) = some d → d.isData = true →
    let x := { d with tag := BitVec.ofNat 14 (w.imm.toNat % 2 ^ 14 + e.cs.op.cnt) }
    e.lackRates = [] → e.lack [x] [x] = [] →
    exec (.seqtag w) s = .next (applyFire s u (.ok (((e.consume (portA w)).fired.setOp fun o => { o with cnt := o.cnt + 1 }).send [x] [x])))) ∧
  (∀ w s u e d, NodeReady s u w e [portA w] [portA w] false → e.head (portA w) = some d → d.isData = true →
    let size := (segDesc e.rg.plane e.off (segNo w)).size
    let sg := segAt e.cell (segNo w)
    let next := (w.imm.toNat / 8 % 2 ^ 14 + e.cs.op.next) % 2 ^ 14
    (d.tag.toNat + 2 ^ 14 - next) % 2 ^ 14 < size → aget sg.slots (d.tag.toNat % size) = none →
    (∀ b, aget sg.slots (next % size) = some b → e.lack [b] [b] ≠ []) →
    exec (.reorder w) s = .next (applyFire s u (.ok (Env.fired
      { (e.consume (portA w)) with cell := setSeg e.cell (segNo w) { sg with slots := aset sg.slots (d.tag.toNat % size) d } })))) ∧
  (∀ w s u e b, NodeReady s u w e [portA w] [portA w] false →
    let size := (segDesc e.rg.plane e.off (segNo w)).size
    let sg := segAt e.cell (segNo w)
    let next := (w.imm.toNat / 8 % 2 ^ 14 + e.cs.op.next) % 2 ^ 14
    aget sg.slots (next % size) = some b → e.lack [b] [b] = [] →
    exec (.reorder w) s = .next (applyFire s u (.ok ((Env.setOp
      { e with cell := setSeg e.cell (segNo w) { sg with slots := adel sg.slots (next % size) } }
      fun o => { o with next := (o.next + 1) % 2 ^ 14 }).send [b] [b]))))

/-- R208 to R212: MARK, STOPI, STOPX, STOPUP, WAITMK, SPECRES and RETYPE each complete with a next state on the heads named here: which markers and stops are added, raised, lowered or dropped; a token of a
passes a gate for rounds, an SPR tells a data-dependent outcome, and a retyped beat passes. -/
def Obligations.MarkersAndStopsAreEdited : Prop :=
  (∀ w s u e d, NodeReady s u w e [portA w] [portA w] false → e.head (portA w) = some d → d.isData = true →
    let x := { d with round := BitVec.ofNat 3 e.cs.op.round }
    e.lackRates = [] →
    let m := markBeat (w.aux.toNat % 8) e.cs.op.round (if w.aux.toNat % 8 = 0 then w.aux.toNat / 8 % 8 else 0)
    (e.cs.op.cnt + 1 ≠ w.imm.toNat % 2 ^ 16 → e.lack [x] [x] = [] →
      exec (.mark w) s = .next (applyFire s u (.ok (((e.consume (portA w)).fired.setOp fun o => { o with cnt := o.cnt + 1 }).send [x] [x])))) ∧
    (e.cs.op.cnt + 1 = w.imm.toNat % 2 ^ 16 → e.lack [x, m] [x, m] = [] →
      exec (.mark w) s = .next (applyFire s u (.ok (((e.consume (portA w)).fired.setOp fun o =>
        { o with cnt := 0, round := if w.aux.toNat % 8 = 3 then o.round else o.round + 1 }).send [x, m] [x, m]))))) ∧
  (∀ w s u e d, NodeReady s u w e [portA w] [portA w] false → e.head (portA w) = some d → d.isData = true →
    let bs := if e.cs.op.cnt + 1 = w.imm.toNat % 2 ^ 16 then [d, stopBeat (auxLevel w) d.round] else [d]
    e.lackRates = [] → e.lack bs bs = [] →
    exec (.stopi w) s = .next (applyFire s u (.ok (((e.consume (portA w)).fired.setOp fun o =>
      { o with cnt := if e.cs.op.cnt + 1 = w.imm.toNat % 2 ^ 16 then 0 else o.cnt + 1,
               any := decide (e.cs.op.cnt + 1 ≠ w.imm.toNat % 2 ^ 16) }).send bs bs)))) ∧
  (∀ w s u e d, NodeReady s u w e [portA w] [] false → e.head (portA w) = some d → d.isData = true → e.lackRates = [] → e.lack [d] [d] = [] →
    exec (.stopx w) s = .next (applyFire s u (.ok ((e.consume (portA w)).fired.send [d] [d]))) ∧
    exec (.stopup w) s = .next (applyFire s u (.ok ((e.consume (portA w)).fired.send [d] [d])))) ∧
  (∀ w s u e d, NodeReady s u w e [portA w] [] false → e.head (portA w) = some d → d.isData = false → d.isStop = true →
    (d.level.toNat ≤ auxLevel w → exec (.stopx w) s = .next (applyFire s u (.ok (((e.consume (portA w)).statAt d).send [] [])))) ∧
    (auxLevel w < d.level.toNat →
      let x := { d with level := BitVec.ofNat 3 (d.level.toNat - auxLevel w - 1) }
      e.lack [x] [x] = [] → exec (.stopx w) s = .next (applyFire s u (.ok (((e.consume (portA w)).statAt d).send [x] [x])))) ∧
    (d.level.toNat + auxLevel w ≤ 7 →
      let x := { d with level := BitVec.ofNat 3 (d.level.toNat + auxLevel w) }
      e.lack [x] [x] = [] → exec (.stopup w) s = .next (applyFire s u (.ok (((e.consume (portA w)).statAt d).send [x] [x]))))) ∧
  (∀ w s u e d, NodeReady s u w e [portA w, portB w] [portA w, portB w] false → e.head (portA w) = some d → d.isEoi = false →
    e.room 0 [d] = true →
    exec (.waitmk w) s = .next (applyFire s u (.ok (e.keepLocals (((e.consume (portA w)).emit 0 [d]).setOp fun o =>
      { o with counts := if d.isClosing then o.counts ++ [d.markRound] else o.counts }))))) ∧
  (∀ w s u e d, NodeReady s u w e [portA w] [portA w] false → e.head (portA w) = some d → d.isData = true →
    let x := sprBeat (decide (d.ctl ≠ 0)) e.cs.op.round 0
    e.lackRates = [] → e.lack [x] [x] = [] → exec (.specres w) s = .next (applyFire s u (.ok ((e.consume (portA w)).fired.send [x] [x])))) ∧
  (∀ w s u e d, NodeReady s u w e [portA w, portB w] [portA w, portB w] false → e.head (portA w) = some d → d.isData = true →
    e.lackRates = [] → e.lack [d] [d] = [] →
    exec (.retype w) s = .next (applyFire s u (.ok ((e.consume (portA w)).fired.send [d] [d]))))

/-- R213: LD and ST each complete with a next state at DATA heads whose beat the node owns: a bank beat of the context's scratch or tile is read, or written in
the lanes of b's VALID. That an ST at a poisoned address stores poison is the model's choice (log 35). -/
def Obligations.BankBeatsAreReadAndWritten : Prop :=
  (∀ w s u e d, NodeReady s u w e [portA w] [portA w] false → e.head (portA w) = some d → d.isData = true →
    let k := (d.ctl + w.imm.toNat % 2 ^ 11) % 2048
    let x := { d with pay := bankBeat e.bankCell k, valid := 0xFF, poison := d.poison || bankPoisoned e.bankCell k }
    e.beatOwned k = true → e.lackRates = [] → e.lack [x] [x] = [] →
    exec (.ld w) s = .next (applyFire s u (.ok ((e.consume (portA w)).fired.send [x] [x])))) ∧
  (∀ w s u e d v, NodeReady s u w e [portA w, portB w] [portA w, portB w] false → e.head (portA w) = some d → e.head (portB w) = some v →
    d.isData = true → v.isData = true →
    let k := (d.ctl + w.imm.toNat % 2 ^ 11) % 2048
    let pois := d.poison || v.poison
    e.beatOwned k = true → (pois && e.rg.ptrap) = false → e.lackRates = [] → e.lack [d] [d] = [] →
    exec (.st w) s = .next (applyFire s u
      (.ok (((e.consumeAll [portA w, portB w]).fired.setBankCell (bankWrite e.bankCell k v.pay v.valid pois)).send [d] [d]))))

/-- R106, R107, R214, R217: LDREQ, STREQ, AADD, AMIN, AMAX, AXCHG, ACAS, ATAS and AOR each complete with a next state, one lane a step: what each valid lane
does at its word of the memory tile, and what the beat that leaves with the last lane carries. -/
def Obligations.TileWordsAreAccessedByLanes : Prop :=
  TileLaw .ldreq (fun w => [portA w]) false false (fun _ old _ _ => (none, old)) ∧
  TileLaw .aadd abPorts false true (fun w old b _ => (some (addOnce w old b), old)) ∧
  TileLaw .amin abPorts false true (fun w old b _ => (some (exactly (elemPick (fmtElem w.fmt) true old b), true), old)) ∧
  TileLaw .amax abPorts false true (fun w old b _ => (some (exactly (elemPick (fmtElem w.fmt) false old b), true), old)) ∧
  TileLaw .axchg abPorts false true (fun _ old b _ => (some (exactly b, true), old)) ∧
  TileLaw .acas (fun w => dedupNat [portA w, portB w, portC w]) false true
    (fun _ old b c => (some (exactly (if old = c then b else old), true), old)) ∧
  TileLaw .atas (fun w => [portA w]) true true (fun _ old b _ => (some (exactly (old ||| 2 ^ b), true), old / 2 ^ b % 2)) ∧
  TileLaw .aor abPorts false true (fun _ old b _ => (some (exactly (old ||| b), true), old)) ∧
  LanesLaw .streq abPorts true (fun w tile pois k e d => storeLane tile pois k d (e.payAt (portB w)) e.bankCell) (fun _ _ d _ => d)

/-- R215, R216: PUSH, POP, TLD and TST each complete with a next state where the buffer has room or a beat: stream buffers keep whole beats in order; tile
stores fill and hand over buffers; a POP that was moved pops where its segment stands (R322). Which chunk a full buffer's beat goes to, and that a beat
in the overflow area is written to its place in memory, are the model's choices (logs 37 and 38). -/
def Obligations.BuffersKeepBeats : Prop :=
  (∀ w s u e d, NodeReady s u w e [portA w] [portA w] false → e.head (portA w) = some d →
    let g := segAt e.cell (segNo w)
    let e2 : Env := { (e.consume (portA w)) with cell := setSeg e.cell (segNo w) (g.put d) }
    let t := applyFire s u (.ok ((if d.isData then e2.fired else e2.statAt d).noteRound d))
    g.space (segDesc e.rg.plane e.off (segNo w)) ≠ 0 →
    (g.ovfSlot = none → exec (.push w) s = .next t) ∧
    (∀ k i x y, g.ovfSlot = some (k, i) → immTarget s e.rg.id.seq.part (ovfAt e.rg k i) true = .ok (x, y) → exec (.push w) s = .next (pushOut w s t))) ∧
  (∀ w s u e d t, NodeReady s u w e [] [] false → (segAt e.bankCell (segNo w)).beats = d :: t →
    let e1 := e.setBankCell (setSeg e.bankCell (segNo w) (segAt e.bankCell (segNo w)).drop1)
    e.lack [d] [d] = [] →
    (d.isData = true → e.lackRates = [] → exec (.pop w) s = .next (applyFire s u (.ok (e1.fired.send [d] [d])))) ∧
    (d.isData = false → exec (.pop w) s = .next (applyFire s u (.ok (e.keepLocals (((e1.statAt d).noteRound d).send [d] [d])))))) ∧
  (∀ w s u e d, NodeReady s u w e [portA w] [portA w] false → e.cs.op.held = [] → e.head (portA w) = some d → d.isData = true →
    bufFull (segAt e.cell (segNo w)) (segAt e.cell (segNo w)).rp = true → e.lackRates = [] →
    exec (.tld w) s = .next (applyFire s u (.ok ((e.consume (portA w)).fired.setOp fun o => { o with held := [d], pos := 0 })))) ∧
  (∀ w s u e t rest, NodeReady s u w e [portA w] [portA w] false → e.cs.op.held = t :: rest →
    let d := segDesc e.rg.plane e.off (segNo w)
    let g := segAt e.cell (segNo w)
    let k := d.base + g.rp * tileBufSize d + e.cs.op.pos
    let x := { t with pay := bankBeat e.cell k, valid := 0xFF, poison := t.poison || bankPoisoned e.cell k }
    e.cs.op.pos + 1 < tileBufSize d → e.lackRates = [] → e.lack [x] [x] = [] →
    exec (.tld w) s = .next (applyFire s u (.ok ((e.setOp fun o => { o with pos := o.pos + 1 }).send [x] [x])))) ∧
  (∀ w s u e b, NodeReady s u w e [portA w] [portA w] false → e.head (portA w) = some b → b.isData = true →
    let d := segDesc e.rg.plane e.off (segNo w)
    let g := segAt e.cell (segNo w)
    bufFull g g.wp = false → e.lackRates = [] → (b.poison && e.rg.ptrap) = false →
    let c := bankWrite e.cell (d.base + g.wp * tileBufSize d + g.fill) b.pay 0xFF b.poison
    let g1 := if tileBufSize d ≤ g.fill + 1 then { setFull d g g.wp true with wp := (g.wp + 1) % (d.param + 1), fill := 0 }
      else { g with fill := g.fill + 1 }
    exec (.tst w) s = .next (applyFire s u (.ok (Env.fired { (e.consume (portA w)) with cell := setSeg c (segNo w) g1 }))))

/-- R221: SPBSEND completes with a next state, triggered by a DATA beat or as a source: the two CFG beats of each block, patched from a's payload, or as a source one group per tile. -/
def Obligations.SpbSendEmitsBlockBeats : Prop :=
  (∀ w s u e a t d, srcPort w.srcA = a :: t → NodeReady s u w e (a :: t) (a :: t) false → e.head a = some d → d.isData = true →
    let n := w.imm.toNat / 2 ^ 11 % 16 + 1
    let patch := if w.aux.toNat % 2 = 1 then d.pay.toNat % 2 ^ 64 else 0
    let bs := ((List.range n).map (spbBeats e patch (d.poison && w.aux.toNat % 2 == 1))).flatten
    e.lackRates = [] → e.lack bs bs = [] →
    exec (.spbsend w) s = .next (applyFire s u (.ok ((e.consume a).fired.send bs bs)))) ∧
  (∀ w s u e inv, srcPort w.srcA = [] → NodeReady s u w e [] [] false → e.rg.sourceOpen (spbStaging e) = some inv → e.cs.op.eoi = false →
    e.cs.op.cnt < inv.entry.tiles →
    let bs := ((List.range (w.imm.toNat / 2 ^ 11 % 16 + 1)).map (spbBeats e 0 false)).flatten
    e.lackRates = [] → e.lack bs bs = [] →
    exec (.spbsend w) s = .next (applyFire s u (.ok (((e.issued e.cs.op.cnt).setOp fun o => { o with cnt := o.cnt + 1 }).fired.send bs bs))))

/-- R226 to R229: PQCELL, STAT, RATE, VER, SYSID and TRAP each complete with a next state on a DATA beat: the pair kept, the value token, the readings, and the trap that a nonzero value raises. -/
def Obligations.SystemOpsReportAndTrap : Prop :=
  (∀ w s u e d, NodeReady s u w e [portA w] [portA w] false → e.head (portA w) = some d → d.isData = true →
    (e.cs.op.held = [] → e.lackRates = [] → exec (.pqcell w) s = .next (applyFire s u (.ok ((e.consume (portA w)).fired.setOp fun o => { o with held := [d] })))) ∧
    (∀ h t, e.cs.op.held = h :: t →
      let up := pairAbove (fmtElem w.fmt) d h
      e.lackRates = [] → e.lack [] [if up then h else d] = [] →
      exec (.pqcell w) s = .next (applyFire s u
        (.ok (((e.consume (portA w)).fired.setOp fun o => { o with held := [if up then d else h] }).send [] [if up then h else d])))) ∧
    (∀ lvl tap, tapOf e.rg.plane (e.rg.writtenAt e.off e.ctx).1 (e.rg.writtenAt e.off e.ctx).2 5 = some (lvl, tap) → e.lackRates = [] → e.lack [d] [] = [] →
      exec (.stat w) s = .next (applyFire s u (.ok (Env.send { (e.consume (portA w)).fired with
        toks := (e.consume (portA w)).fired.toks ++ [valueToken e.rg.id e.off e.ctx tap false d.ctl (payElem d.pay 32 1 % 256)] }
        [d] [])))) ∧
    (d.ctl = 0 → exec (.trap w) s = .next (applyFire s u (.ok (e.consume (portA w)).fired))) ∧
    (d.ctl ≠ 0 → exec (.trap w) s = .next (applyFire s u (.bad e clsSwtrap (w.imm.toNat % 256) (portA w) (some d) 0)))) ∧
  (∀ w s u e d, DataReady s u w e [portA w] [portA w] → e.head (portA w) = some d → e.rg.pureInv = none →
    let sx := sectAt (seqAt s e.rg.id.seq) e.rg.id.sect
    let reply (l : List Nat) : Beat := { d with pay := payOfElems 32 l, valid := 0x0F }
    (let x := reply (match e.rg.reb, rateLink e.rg d.ctl, e.rg.inv with
       | _ + 1, some l, some i => [l.repTokens, l.repStall, i.windows, sx.lv]
       | _, _, _ => [0, 0, 0, sx.lv])
     e.lack [x] [] = [] → exec (.rate w) s = .next (applyFire s u (.ok ((e.fired.consume (portA w)).send [x] [])))) ∧
    (let x := reply [sx.lv, e.rg.id.sect, e.rg.tag, Config.implCode]
     e.lack [x] [] = [] → exec (.ver w) s = .next (applyFire s u (.ok ((e.fired.consume (portA w)).send [x] [])))) ∧
    (let x := reply [identity0 0x01, identity1 (e.rg.posOf e.off), e.rg.id.seq.part, originWord e.rg.org]
     e.lack [x] [] = [] → exec (.sysid w) s = .next (applyFire s u (.ok ((e.fired.consume (portA w)).send [x] [])))))

/-- R235, R239, R241: FSCAN, FREP and FWRITE each complete with a next state on the heads named here: the next
element of a scanned fibre, a parent value at every element, and the arrays written; R234: the step that packs the eighth element of a beat emits it. -/
def Obligations.FibreElementsArePlacedInOrder : Prop :=
  (∀ (e : Env) t0,
    let x := e.cs.op.xBeat
    let y := e.cs.op.yBeat t0
    (e.cs.op.outX.length < 8 → e.cs.op.outY.length < 8 → e.emitFull t0 = .ok e) ∧
    (8 ≤ e.cs.op.outX.length → e.cs.op.outY.length < 8 → e.lack [x] [] = [] → e.emitFull t0 = .ok ((e.setOp fun o => o.dropX t0).send [x] [])) ∧
    (e.cs.op.outX.length < 8 → 8 ≤ e.cs.op.outY.length → e.lack [] [y] = [] → e.emitFull t0 = .ok ((e.setOp OpState.dropY).send [] [y])) ∧
    (8 ≤ e.cs.op.outX.length → 8 ≤ e.cs.op.outY.length → e.lack [x] [y] = [] →
      e.emitFull t0 = .ok ((e.setOp fun o => (o.dropX t0).dropY).send [x] [y]))) ∧
  (∀ w s u e c r p sd, NodeReady s u w e (srcPort w.srcA) (srcPort w.srcA) true → e.cs.op.any = true → e.cs.op.cnt < e.cs.op.next →
    scanElem e e.cs.op.cnt = some (c, r, p) → e.cs.op.sideOut.element 1 c true = some sd →
    exec (.fscan w) s = .next (applyFire s u ((e.setOp fun o =>
      { o.push (some c) (if w.dy then some r else none) ((o.held.head?.map (·.tag)).getD 0) with
        cnt := o.cnt + 1, sideOut := sd, pois := o.pois || p }).emitFull false))) ∧
  (∀ w s u e, NodeReady s u w e (srcPort w.srcA) (srcPort w.srcA) true → e.cs.op.any = true → e.cs.op.next ≤ e.cs.op.cnt →
    e.cs.op.outX = [] → e.cs.op.outY = [] →
    let st := stopBeat 0 (BitVec.ofNat 3 e.cs.op.round)
    e.lack [st] [st] = [] →
    exec (.fscan w) s = .next (applyFire s u (.ok ((e.setOp fun o =>
      { o with any := false, held := [], sideOut := {}, pois := o.pois && !(o.sideA.boundary (depthOf w - 1)) }).send [st] [st])))) ∧
  (∀ w s u e a x y l, srcPort w.srcA = [a] → NodeReady s u w e [a, portB w] [a, portB w] true →
    e.head a = some y → y.isData = true → nextLane y e.cs.op.sideA.lane = some l → e.head (portB w) = some x → x.isData = true → x.valid ≠ 0 →
    let q := e.cs.op.pois || y.poison || x.poison
    let v := { x with pay := payOfElems 32 ((List.range 8).map fun i => if x.valid.getLsbD i then payElem y.pay 32 l else 0), poison := q }
    let sd := (e.cs.op.sideB.element (depthOf w) 0 false).getD e.cs.op.sideB
    e.lack [v] [v] = [] →
    exec (.frep w) s = .next (applyFire s u ((((e.consume (portB w)).fired.setOp fun o =>
      { o with sideB := sd, pois := q }).send [v] [v]).emitFull false))) ∧
  (∀ w s u e x, (∀ a ∈ srcPort w.srcA, (e.head a).any (fun y => y.isData && (nextLane y e.cs.op.sideA.lane).isNone) = false) →
    NodeReady s u w e (srcPort w.srcA ++ [portB w]) (srcPort w.srcA ++ [portB w]) true → e.head (portB w) = some x → x.isData = true → x.valid = 0 →
    let v := { x with pay := 0, poison := e.cs.op.pois || x.poison }
    e.lack [v] [v] = [] →
    exec (.frep w) s = .next (applyFire s u (((e.consume (portB w)).fired.send [v] [v]).emitFull false))) ∧
  (∀ w s u e b l sd, NodeReady s u w e [portA w] [portA w] true → e.cs.op.any = true →
    e.head (portA w) = some b → b.isData = true → nextLane b e.cs.op.sideA.lane = some l →
    e.cs.op.sideA.element (depthOf w) (payElem b.pay 32 l) true = some sd → e.cs.op.cnt + 1 < absentRef →
    exec (.fwrite w) s = .next (applyFire s u ((e.setOp fun o => { o.push (some (payElem b.pay 32 l)) none b.tag with
      cnt := o.cnt + 1, sideA := { sd with lane := l + 1 }, pois := o.pois || b.poison }).emitFull true)))

/-- R236, R240: FLOOK and FRED each complete with a next state on the heads named here: the references looked up lane by lane, and the elements folded, and
given at each STOP j of level LV or above that closes an open level LV or makes an empty fibre of it; the STOP that is left of it follows. -/
def Obligations.FibresAreLookedUpAndReduced : Prop :=
  (∀ w s u e x y p sd rs, srcPort w.srcB = [p] → NodeReady s u w e [portA w, p] [portA w, p] true → e.head (portA w) = some x → e.head p = some y →
    lockstep x y = true → x.isData = true →
    lookLanes (depthOf w) (immNat w) x (some y) (List.range 8) e.cs.op.sideA [] = .ok (sd, rs) →
    let q := e.cs.op.pois || x.poison || y.poison
    let v := { x with pay := payOfElems 32 rs, poison := q }
    e.lack [v] [v] = [] →
    exec (.flook w) s = .next (applyFire s u
      ((((e.consumeAll [portA w, p]).fired.setOp fun o => { o with sideA := sd, pois := q }).send [v] [v]).emitFull false))) ∧
  (∀ w s u e b, NodeReady s u w e [portA w] [portA w] true → e.head (portA w) = some b → b.isData = true →
    let els := (beatElems (bits w) b).filterMap id
    let r := fredFold w (w.aux.toNat / 8 % 8) (e.cs.op.acc.headD none) els {}
    let sd := if els.isEmpty then e.cs.op.sideA else (e.cs.op.sideA.element 8 0 false).getD e.cs.op.sideA
    exec (.fred w) s = .next (applyFire s u ((((e.consume (portA w)).fired.setOp fun o =>
      { o with acc := [r.1], sideA := sd, pois := o.pois || b.poison }).count none r.2).emitFull false))) ∧
  (∀ w s u e b, NodeReady s u w e [portA w] [portA w] true → e.head (portA w) = some b → b.isData = false → b.isStop = true →
    let lv := auxLevel w
    let j := b.level.toNat
    let gives := decide (lv ≤ j) && (e.cs.op.sideA.open_.getLsbD lv || (j == lv && !e.cs.op.sideA.closes j))
    let r : Beat := match e.cs.op.acc.headD none with
      | some v => { dataBeat (payOfElems (bits w) [v]) 1 0 0 with round := b.round, poison := e.cs.op.pois }
      | none => { dataBeat 0 0 0 0 with round := b.round, poison := e.cs.op.pois }
    let bs := (if gives then [r] else []) ++ (if lv < j then [stopBeat (j - lv - 1) b.round] else [])
    e.lack bs bs = [] →
    exec (.fred w) s = .next (applyFire s u (((((e.consume (portA w)).statAt b).setOp fun o =>
      { o with sideA := o.sideA.stop 8 j, acc := if gives then [] else o.acc, pois := o.pois && !gives }).send bs bs).emitFull false)))

/-- R237, R238: FISECT and FUNION each complete with a next state at two elements: equal coordinates are emitted by both; the smaller of two is consumed, and only FUNION emits it, with an absent
reference for the other side. -/
def Obligations.FibresIntersectAndUnite : Prop :=
  ∀ (w : NodeWord) s u e ca ra x cb rb y la lb,
    let out := w.aux.toNat % 8
    let refA : List Nat := if out = 1 then [] else [1]
    let refB : List Nat := if out = 0 then [] else [3]
    let ports := (0 :: refA) ++ (2 :: refB)
    NodeReady s u w e ports ports true →
    e.sideHead 0 refA e.cs.op.sideA = .elem ca ra x → e.sideHead 2 refB e.cs.op.sideB = .elem cb rb y →
    (e.head 0).bind (nextLane · e.cs.op.sideA.lane) = some la → (e.head 2).bind (nextLane · e.cs.op.sideB.lane) = some lb →
    let q := x.poison || y.poison
    let put (c r t : Nat) (tag : BitVec 14) (o : OpState) : OpState :=
      { o.push (some (joinPair out c r t).1) (some (joinPair out c r t).2) tag with pois := o.pois || q }
    let skip (o : OpState) : OpState := { o with pois := o.pois || q }
    (∀ sa, ca < cb → e.cs.op.sideA.element (depthOf w) ca true = some sa →
      let past (o : OpState) : OpState := { o with sideA := { sa with lane := la + 1 } }
      exec (.fisect w) s = .next (applyFire s u (((e.setOp skip).setOp past).emitFull false)) ∧
      exec (.funion w) s = .next (applyFire s u (((e.setOp (put ca ra absentRef x.tag)).setOp past).emitFull false))) ∧
    (∀ sb, cb < ca → e.cs.op.sideB.element (depthOf w) cb true = some sb →
      let past (o : OpState) : OpState := { o with sideB := { sb with lane := lb + 1 } }
      exec (.fisect w) s = .next (applyFire s u (((e.setOp skip).setOp past).emitFull false)) ∧
      exec (.funion w) s = .next (applyFire s u (((e.setOp (put cb absentRef rb y.tag)).setOp past).emitFull false))) ∧
    (∀ sa sb, ca = cb → e.cs.op.sideA.element (depthOf w) ca true = some sa → e.cs.op.sideB.element (depthOf w) cb true = some sb →
      let t := ((e.setOp (put ca ra rb x.tag)).setOp fun o => { o with sideB := { sb with lane := lb + 1 } }).setOp
        fun o => { o with sideA := { sa with lane := la + 1 } }
      exec (.fisect w) s = .next (applyFire s u (t.emitFull false)) ∧ exec (.funion w) s = .next (applyFire s u (t.emitFull false)))

/-- R137, R223: OADD and OMUL each complete with a next state where both groups are open: the exponent beat of the result leaves first, with E and n of each common lane; then the
digit beats, each as soon as the operand digits that its last digit needs have been received. -/
def Obligations.OnlineResultsLeaveDigitByDigit : Prop :=
  ∀ (mul : Bool) (w : NodeWord) s u e x y,
    let i := if mul then Instr.omul w else Instr.oadd w
    let ports := portA w :: portB w :: srcPort w.srcC
    let valid := x.valid &&& y.valid
    let shapes := (List.range 8).map (osdShape mul x y)
    let shift (z : Beat) (j : Nat) : Nat := ((shapes.getD j (0, 0)).1 - osdE z j).toNat
    NodeReady s u w e ports ports false → (∀ p ∈ srcPort w.srcC, (e.head p).any Beat.isData = false) → e.cs.op.any = false →
    e.cs.op.osdA.exp = some x → e.cs.op.osdB.exp = some y →
    (e.cs.op.phase = false →
      let b := expBeat shapes valid x e.cs.op.pois
      e.lack [b] [b] = [] → exec i s = .next (applyFire s u (.ok ((e.setOp fun o => { o with phase := true }).send [b] [b])))) ∧
    (e.cs.op.phase = true →
      let last (j : Nat) : Nat := min (shapes.getD j (0, 0)).2 (16 * (e.cs.op.cnt + 1))
      let digs := (List.range 8).map fun j => if valid.getLsbD j then
        osdDigits mul e.cs.op.osdA e.cs.op.osdB (shift x j) (shift y j) j (shapes.getD j (0, 0)).2 (last j) 1 0 else []
      let b := digitBeat digs e.cs.op.cnt valid x e.cs.op.pois
      e.cs.op.cnt < ((validLanes valid).foldl (fun m j => max m (shapes.getD j (0, 0)).2) 0 + 15) / 16 →
      ((validLanes valid).all fun j => osdReady mul e.cs.op.osdA e.cs.op.osdB (shift x j) (shift y j) j (last j)) = true →
      e.lack [b] [b] = [] → exec i s = .next (applyFire s u (.ok ((e.setOp fun o => { o with cnt := o.cnt + 1 }).send [b] [b]))))

/-- R224, R225: OCMP, OCUT and OCVT each complete with a next state: the order of two groups once every common lane is decided, a group cut to k digits,
and conversions of floats to groups and of a closed group's lanes to elements (its STOP 0 emits the statistics token of a LVL 0 tap). -/
def Obligations.OnlineGroupsCompareCutAndConvert : Prop :=
  (∀ w s u e x y, NodeReady s u w e [portA w, portB w] [portA w, portB w] false → e.cs.op.osdA.exp = some x → e.cs.op.osdB.exp = some y →
    e.cs.op.phase = false → (validLanes (x.valid &&& y.valid)).all (cmpDecided e.cs.op.osdA e.cs.op.osdB x y) = true →
    let sign (i : Nat) : Int := (cmpDiff e.cs.op.osdA e.cs.op.osdB x y i).1
    let r := (List.range 8).map fun i =>
      if (x.valid &&& y.valid).getLsbD i then codeOfInt 32 (if 0 < sign i then 1 else if sign i < 0 then -1 else 0) else 0
    let bx : Beat := { x with pay := payOfElems 32 r, valid := x.valid &&& y.valid, poison := e.cs.op.pois }
    let bt : Beat := { x with pay := 1, valid := 1, poison := e.cs.op.pois }
    e.lack [bx] [bt] = [] →
    exec (.ocmp w) s = .next (applyFire s u (.ok ((e.setOp fun o => { o with phase := true }).send [bx] [bt])))) ∧
  (∀ w s u e b y, NodeReady s u w e (portA w :: srcPort w.srcB) (portA w :: srcPort w.srcB) false →
    (∀ p ∈ srcPort w.srcB, (e.head p).any Beat.isData = false) → e.cs.op.osdA.exp = none → e.head (portA w) = some b → b.isData = true →
    e.cs.op.osdA.take b = .ok y →
    let k := w.imm.toNat % 2 ^ 11
    let x := expBeat ((List.range 8).map fun i => (osdE b i, min (osdN b i) k)) b.valid b b.poison
    e.lack [x] [x] = [] →
    exec (.ocut w) s = .next (applyFire s u (.ok (((e.consume (portA w)).fired.setOp fun o =>
      { o with osdA := y, cnt := 0, phase := false }).send [x] [x])))) ∧
  (∀ w s u e b, w.fmt = .osd → NodeReady s u w e [portA w] [portA w] false → e.head (portA w) = some b → b.isData = true →
    let g := osdGroups (fltShape (fmt2 w)) (w.imm.toNat % 2 ^ 11) b
    e.lack g.1 g.1 = [] →
    exec (.ocvt w) s = .next (applyFire s u (.ok (((e.consume (portA w)).fired.count none g.2).send g.1 g.1)))) ∧
  (∀ w s u e b y ex, w.fmt ≠ .osd → NodeReady s u w e [portA w] [portA w] false → e.head (portA w) = some b →
    e.cs.op.osdA.take b = .ok y → y.closed = true → y.exp = some ex → fmtCount w.fmt / 8 ≤ e.cs.op.cnt + 1 →
    let rs := (List.range 8).map fun i =>
      if ex.valid.getLsbD i then some (roundTo (fmtElem w.fmt) false w.sat w.rnd (osdValue y i)) else none
    let x := beatOfElems (bits w) (e.cs.op.acc ++ rs.map fun r => r.map (·.code)) (e.cs.op.held.headD ex)
      (e.cs.op.pois || ex.poison || y.digs.any Beat.poison)
    e.lack [x] [x] = [] →
    ∃ c, exec (.ocvt w) s = .next (applyFire s u (.ok (((((e.consume (portA w)).setOp fun o =>
      { o with acc := [], held := [], pois := false, cnt := 0, osdA := {} }).count none c).statAt b).send [x] [x]))))

/-- R292: ADD, SUB, MUL, MULH, DIV, REM, AND, OR, XOR, SHL, SHR, SAR, SLT, SLTN, ADDI, ANDI, ORI, XORI, LIH, SHLI, SHRI and SARI each complete with a next
state: the arithmetic of the sequencer's 64-bit registers; a shift immediate of more than 6 bits is no instruction. -/
def Obligations.SequencerArithmetic : Prop :=
  RegisterLaw .add (fun x y => BitVec.ofNat 64 (x.toNat + y.toNat)) ∧ RegisterLaw .sub (fun x y => BitVec.ofInt 64 (x.toNat - y.toNat)) ∧
  RegisterLaw .mul (fun x y => BitVec.ofNat 64 (x.toNat * y.toNat)) ∧ RegisterLaw .mulh (fun x y => BitVec.ofInt 64 (x.toInt * y.toInt / 2 ^ 64)) ∧
  RegisterLaw .div (fun x y => if y = 0 then BitVec.allOnes 64 else BitVec.ofInt 64 (x.toInt.tdiv y.toInt)) ∧
  RegisterLaw .rem (fun x y => if y = 0 then x else BitVec.ofInt 64 (x.toInt.tmod y.toInt)) ∧
  RegisterLaw .seqAnd (· &&& ·) ∧ RegisterLaw .seqOr (· ||| ·) ∧ RegisterLaw .seqXor (· ^^^ ·) ∧
  RegisterLaw .seqShl (fun x y => BitVec.ofNat 64 (x.toNat * 2 ^ (y.toNat % 64))) ∧
  RegisterLaw .seqShr (fun x y => BitVec.ofNat 64 (x.toNat / 2 ^ (y.toNat % 64))) ∧
  RegisterLaw .seqSar (fun x y => BitVec.ofInt 64 (x.toInt / 2 ^ (y.toNat % 64))) ∧
  RegisterLaw .slt (fun x y => if x.toInt < y.toInt then 1 else 0) ∧ RegisterLaw .sltn (fun x y => if x.toNat < y.toNat then 1 else 0) ∧
  ImmediateLaw .addi (· + ·) ∧ ImmediateLaw .andi (· &&& ·) ∧ ImmediateLaw .ori (· ||| ·) ∧ ImmediateLaw .xori (· ^^^ ·) ∧
  ImmediateLaw .lih (fun x y => x + y <<< 16) ∧
  ShiftLaw .shli (fun x n => BitVec.ofNat 64 (x.toNat * 2 ^ n)) ∧ ShiftLaw .shri (fun x n => BitVec.ofNat 64 (x.toNat / 2 ^ n)) ∧
  ShiftLaw .sari (fun x n => BitVec.ofInt 64 (x.toInt / 2 ^ n)) ∧
  (∀ w : BitVec 32, (fld w 26 6 : BitVec 6) = 5 ∨ (fld w 26 6 : BitVec 6) = 6 ∨ (fld w 26 6 : BitVec 6) = 7 → (fld w 6 10 : BitVec 10) ≠ 0 →
    decodeSeq w = .error .illegalInstruction)

/-- R295, R306: BEQ, BNE, BLT, BGE, LOOP, JMP, JAL, JR, NOP and FENCE.S (with no access of the context on its way) each complete with a next state. -/
def Obligations.SequencerControlFlow : Prop :=
  BranchLaw .beq (fun x y => decide (x = y)) ∧ BranchLaw .bne (fun x y => decide (x ≠ y)) ∧
  BranchLaw .blt (fun x y => decide (x.toInt < y.toInt)) ∧ BranchLaw .bge (fun x y => decide (y.toInt ≤ x.toInt)) ∧
  (∀ s c a o, SeqReady s c [a] →
    let q := seqIssued s c
    let v := greg q a - 1
    exec (.loop a o) s = .next (setSeq s c { setGreg q a v with pc := if v ≠ 0 then pcPlus (seqAt s c).pc o.toInt else (seqAt s c).pc + 1 })) ∧
  (∀ s c o, SeqReady s c [] → exec (.jmp o) s = .next (setSeq s c { seqIssued s c with pc := pcPlus (seqAt s c).pc o.toInt })) ∧
  (∀ s c o, SeqReady s c [31] → exec (.jal o) s =
    .next (setSeq s c { setGreg (seqIssued s c) 31 (BitVec.ofNat 64 ((seqAt s c).pc + 1)) with pc := pcPlus (seqAt s c).pc o.toInt })) ∧
  (∀ s c a, SeqReady s c [a] → exec (.jr a) s = .next (setSeq s c { seqIssued s c with pc := (greg (seqIssued s c) a).toNat })) ∧
  (∀ s c, SeqReady s c [] → exec .seqNop s = .next (setSeq s c { seqIssued s c with pc := (seqAt s c).pc + 1 })) ∧
  (∀ s c k, SeqReady s c [] → seqReqs s c = [] → exec (.seqFence k) s = .next (setSeq (atScope s k.toNat) c { seqIssued s c with pc := (seqAt s c).pc + 1 }))

/-- R293, R294: LD, LDW, ST, STW and the ten SAMO forms each complete with a next state: the access is on its way and the PC has moved on. -/
def Obligations.SequencerAccessesAreSent : Prop :=
  (∀ s c d a i, SeqReady s c [d, a] →
    let q := seqIssued s c
    let va := (greg q a + i.signExtend 64).toNat
    AccessLaw s c (.seqLd d a i) va 8 (.seqLoad c d.toNat false) (.read 8) d ∧
    AccessLaw s c (.ldw d a i) va 4 (.seqLoad c d.toNat true) (.read 4) d ∧
    AccessLaw s c (.seqSt d a i) va 8 (.seqStore c) (.write (bytesOfNat 8 (greg q d).toNat) false) 0 ∧
    AccessLaw s c (.stw d a i) va 4 (.seqStore c) (.write (bytesOfNat 4 (greg q d).toNat) false) 0) ∧
  AmoLaw .samoAdd 0 ∧ AmoLaw .samoSwap 1 ∧ AmoLaw .samoCas 2 ∧ AmoLaw .samoAnd 3 ∧ AmoLaw .samoOr 4 ∧ AmoLaw .samoXor 5 ∧
  AmoLaw .samoMin 6 ∧ AmoLaw .samoMax 7 ∧ AmoLaw .samoMinu 8 ∧ AmoLaw .samoMaxu 9

/-- R288, R305, Table 14-4: SRD and SWR each complete with a next state: the special registers, g0, and a write of PRIO and DEADLINE. -/
def Obligations.SpecialRegistersAreReadAndWritten : Prop :=
  (∀ s c (d : BitVec 5) (k r : BitVec 8), SeqReady s c [d] →
    let q := seqIssued s c
    let x := sectAt q k.toNat
    let read (v : Nat) : Prop := exec (.srd d k r) s = .next (setSeq s c { setGreg q d (BitVec.ofNat 64 v) with pc := (seqAt s c).pc + 1 })
    (r = 0x00 → read s.cycle.toNat) ∧ (r = 0x02 → read q.prio) ∧ (r = 0x03 → read q.deadline) ∧ (r = 0x04 → read q.sqrec) ∧
    (r = 0x01 → read (c.n + partDie c.part * 2 ^ 6 + c.part * 2 ^ 8)) ∧
    (r = 0x10 → read x.lv) ∧ (r = 0x11 → read x.cpc) ∧ (r = 0x12 → read x.mode.toNat) ∧ (r = 0x13 → read (statusWord x.sstat)) ∧
    (r = 0x14 → read (x.armq.length % 8 + (if x.armed then 8 else 0)))) ∧
  (∀ s c (a : BitVec 5) (k : BitVec 8), SeqReady s c [a] →
    let q := seqIssued s c
    exec (.swr a k 0x02) s = .next (setSeq s c { q with prio := (greg q a).toNat % 4, pc := (seqAt s c).pc + 1 }) ∧
    exec (.swr a k 0x03) s = .next (setSeq s c { q with deadline := (greg q a).toNat, pc := (seqAt s c).pc + 1 })) ∧
  (∀ (q : Seq) (r p : BitVec 5) (v : DWord), greg q 0 = 0 ∧ setGreg q 0 v = q ∧ (r ≠ 0 → greg (setGreg q r v) r = v) ∧
    (p ≠ r → greg (setGreg q r v) p = greg q p))

/-- R290, R307: TRAP and SQCTL GO each complete with a next state: a trap parks its context with class and subcode and interrupts the host, and GO takes the context back to where
it was; no other context changes, but for the pure invocations waiting in it that the fault record's own write cancels (R370). -/
def Obligations.TrapsParkAndGoReturns : Prop :=
  (∀ s c k, SeqReady s c [] →
    exec (.seqTrap k) s = .next (parkSeq (setSeq s c { seqIssued s c with pc := (seqAt s c).pc + 1 }) c clsSwtrap k.toNat)) ∧
  (∀ s c cls sub,
    let q := seqAt s c
    let t := parkSeq s c cls sub
    let x := seqAt t c
    x.st = .parkfault ∧ x.park = .trap ∧ x.resumeTo = q.parkFrom ∧ x.cls = cls ∧ x.sub = sub ∧ x.pc = q.pc ∧ x.regs = q.regs ∧
    (∀ c1, seqKey c1 ≠ seqKey c → seqAt t c1 = { seqAt s c1 with sects := (seqAt t c1).sects }) ∧ t.reqs = s.reqs ∧ t.cycle = s.cycle ∧
    (c.part < s.parts.length → (partAt t c.part).pirq.getLsbD 0 = true)) ∧
  (∀ s c, (seqAt s c).st = .parkfault → c.n < sqCount (partAt s c.part) →
    let st : SeqSt := match (seqAt s c).resumeTo with | .halt | .finish _ => .parkwait | .link => .parklink | _ => .run
    exec (.sqctlGo c) s = .next (setSeq s c { seqAt s c with park := (seqAt s c).resumeTo, resumeTo := .nothing, st := st }))

/-- R282, R302 to R304: WAITM, WAITM_WAKE, TAIL, LAUNCH and LINK_WAKE each complete with a next state: words with bit 63 set are taken; a record is spliced behind TP, or at the end
of a graph, each write at SYSTEM scope (R294).  -/
def Obligations.LinksAreReadAndSpliced : Prop :=
  (∀ s c d a w, SeqReady s c [d, a] →
    let q := seqIssued s c
    let va := (greg q a).toNat
    let t := countSeq s c va
    va % 8 = 0 → readLink s c va = .ok w →
    (w.testBit 63 = true →
      exec (.waitm d a) s = .next (setSeq t c { setGreg (q.after t c) d (BitVec.ofNat 64 w) with pc := (seqAt s c).pc + 1 })) ∧
    (w.testBit 63 = false → exec (.waitm d a) s = .next (setSeq t c { q.after t c with st := .parkwait, park := .waitm d.toNat va }))) ∧
  (∀ s c (d : BitVec 5) va w, (seqAt s c).park = .waitm d.toNat va → va % 8 = 0 → readLink s c va = .ok w → w.testBit 63 = true →
    let t := countSeq s c va
    let q : Seq := { seqAt s c with st := .run, park := .nothing }
    exec (.waitmWake c) s = .next (setSeq t c { setGreg (q.after t c) d (BitVec.ofNat 64 w) with pc := q.pc + 1 })) ∧
  (∀ s c a s1, SeqReady s c [a] →
    let q := seqIssued s c
    let record := (greg q a).toNat
    record % 64 = 0 → seqWrites s c = false → tailWrites (atScope (setSeq s c q) 5) c q record = .ok s1 →
    let s2 := dropFar ([record, record, q.tp, record, q.tp].foldl (fun t va => countSeq t c va) s1) c
    exec (.tail a) s = .next (setSeq s2 c { seqAt s2 c with
      tp := record, pc := q.pc + 1, spliced := aset q.spliced record (q.startAge.getD q.recStart) })) ∧
  (∀ s c a b w e s1, SeqReady s c [a, b] →
    let q := seqIssued s c
    let s0 := setSeq s c q
    let new := (greg q a).toNat
    let graph := (greg q b).toNat
    new % 64 = 0 → graph % 64 = 0 → seqWrites s c = false → readLink s0 c new = .ok w → w.testBit 63 = false →
    let s2 := atScope s0 5
    graphEnd s2 c 65536 graph = .ok (some e) → immWrite s2 c.part e (bytesOfNat 8 (linkTo new)) = .ok s1 →
    let t := countSeq (countLinks s2 c 65536 (countSeq s1 c new) graph) c e
    exec (.launch a b) s = .next (setSeq t c { q.after t c with pc := (seqAt s c).pc + 1 })) ∧
  (∀ s c w, (seqAt s c).st = .parklink → (seqAt s c).park = .link → readLink s c (seqAt s c).sqrec = .ok w → w.testBit 63 = true →
    let t := countSeq s c (seqAt s c).sqrec
    exec (.linkWake c) s = .next (setSeq t c { (seqAt s c).after t c with sqrec := linkNext w, st := .run, park := .start }))

/-- R280, R281, R283, R307: RECORD_START, HALT, KERNEL_COMPLETE, SQCTL SKIP, STOP and GO each complete with a next state: how a record begins, ends, and is skipped or stopped. -/
def Obligations.RecordsBeginAndEnd : Prop :=
  (∀ s c bs i s1, let q := seqAt s c
    q.park = .start → q.st = .run → q.sects.any (fun x => x.armed) = false → seqRead s c q.sqrec 64 = .ok bs → recordOk bs = true →
    loadImage s c (leAt bs 8 8) = .image i s1 →
    ∃ t, exec (.recordStart c) s = .next t ∧
      let x := seqAt t c
      x.st = .run ∧ x.pc = i.hlen + leAt bs 16 2 ∧ x.prio = leAt bs 18 1 % 4 ∧ x.tp = q.sqrec ∧ x.image = some i ∧ x.owed = 0 ∧
      greg x 1 = BitVec.ofNat 64 (leAt bs 56 8) ∧ greg x 2 = BitVec.ofNat 64 q.sqrec ∧ (∀ r, r ≠ 1 → r ≠ 2 → greg x r = 0)) ∧
  (∀ s c, SeqReady s c [] → exec .halt s = .next (setSeq s c { seqIssued s c with st := .parkwait, park := .halt })) ∧
  (∀ s c, let q := seqAt s c
    q.park = .halt → q.st = .parkwait → q.retry = [] → q.sects.any (fun x => x.queued != 0) = false → seqWrites s c = false →
    exec (.kernelComplete c) s = .next (finishRecord s c q (firstBad q))) ∧
  (∀ s c, let q := seqAt s c
    (q.st = .parkfault →
      let st : Status := ⟨0x03, q.cls, q.sub, 0⟩
      let q1 : Seq := { q with st := .parkwait, park := .finish st, resumeTo := .nothing }
      exec (.sqctlSkip c) s = .next (finishRecord (setSeq s c q1) c q1 st)) ∧
    (q.st = .parklink → exec (.sqctlStop c) s = .next (setSeq s c { q with st := .idle, park := .nothing })) ∧
    (q.st = .run → exec (.sqctlStop c) s = .next (setSeq s c { q with stopReq := true })) ∧
    (q.st = .idle → c.n < sqCount (partAt s c.part) →
      exec (.sqctlGo c) s = .next (setSeq s c { q with st := .run, park := .start, sqrec := q.sqhead }))) ∧
  (∀ s c q st s1, immWrite (atScope s 5) c.part (vaAdd q.sqrec 44) (bytesOfNat 4 (statusWord st)) = .ok s1 →
    let x := seqAt (finishRecord s c q st) c
    x.completed = (q.completed + 1) % 2 ^ 32 ∧ x.st = (if q.stopReq then .idle else .parklink) ∧ x.stopReq = false ∧ x.pc = q.pc)

/-- R296, R297, R299, R363: MODE, ARM and PURE each complete with a next state: the mode word of a section, and an invocation queued behind the earlier ones. -/
def Obligations.InvocationsAreQueued : Prop :=
  (∀ s c m n, SeqReady s c [m] →
    let q := seqIssued s c
    let v := (greg q m).toNat
    let x := sectAt q n.toNat
    exec (.mode m n) s = .next (setSeq s c { setSect q n.toNat { x with mode := BitVec.ofNat 32 v, modeBad := decide (2 ^ 32 ≤ v) } with
      pc := (seqAt s c).pc + 1 })) ∧
  (∀ s c gc gb n k, SeqReady s c [gc, gb] →
    let q := seqIssued s c
    let t := (greg q gc).toNat
    let va := (greg q gb).toNat
    0 < t → t < 2 ^ 32 → (gb = 0 ∨ va % 32 = 0) → (sectAt q n.toNat).armq.length < 4 → seqWrites s c = false →
    (if gb = 0 then .ok none else (readConsts s c va).map some) = .ok k →
    let read (u : State) : State := dropFar (if gb = 0 then u else countBytes u c va 32) c
    exec (.arm gc gb n) s = .next (queueEntry (read s) c (q.after (read s) c) n.toNat t k none) ∧
    (∀ s1 p, pureOf s c q n.toNat = .ok (s1, p) → exec (.pure gc gb n) s = .next (queueEntry (read s1) c (q.after (read s1) c) n.toNat t k p))) ∧
  (∀ s c gc gb n, SeqReady s c [gc, gb] → (greg (seqIssued s c) gc).toNat = 0 →
    exec (.arm gc gb n) s = .next (setSeq s c { seqIssued s c with pc := (seqAt s c).pc + 1 })) ∧
  (∀ s c q k t consts p, k < q.sects.length →
    let x := sectAt q k
    let y := sectAt (seqAt (queueEntry s c q k t consts p) c) k
    ∃ e, y.armq = x.armq ++ [e] ∧ e.tiles = t ∧ e.consts = consts ∧ e.mode = x.mode ∧ e.prio = q.prio ∧ e.pureInv = p ∧
      e.deadline = (if q.deadline = 0 then 2 ^ 64 - 1 else q.deadline) ∧ y.queued = x.queued + 1)

/-- R298: WAITS and WAITS_RETURN each complete with a next state: with every invocation ended WAITS answers and clears the statuses; else the context waits; a FAULT or a REJECT
into g0 faults. -/
def Obligations.WaitsAnswersWhenAllHaveEnded : Prop :=
  (∀ s c d n, SeqReady s c [d] →
    let q := seqIssued s c
    let x := sectAt q n.toNat
    (x.queued ≠ 0 → exec (.waits d n) s = .next (setSeq s c { q with st := .parkwait, park := .waits d.toNat n.toNat })) ∧
    (x.queued = 0 →
      let st := waitsStatus x
      (d = 0 ∧ (st.code = 3 ∨ st.code = 4) → exec (.waits d n) s = .next (parkSeq (setSeq s c q) c clsSeq 4)) ∧
      (¬(d = 0 ∧ (st.code = 3 ∨ st.code = 4)) → exec (.waits d n) s =
        .next (setSeq s c { setGreg (setSect q n.toNat { x with statuses := [], sinceWait := false }) d (BitVec.ofNat 64 (statusWord st)) with
          pc := (seqAt s c).pc + 1 })))) ∧
  (∀ s c (d : BitVec 5) k, let q : Seq := { seqAt s c with st := .run, park := .nothing }
    let x := sectAt q k
    (seqAt s c).park = .waits d.toNat k → x.queued = 0 → d ≠ 0 →
    exec (.waitsReturn c) s =
      .next (setSeq s c { setGreg (setSect q k { x with statuses := [], sinceWait := false }) d (BitVec.ofNat 64 (statusWord (waitsStatus x))) with
        pc := q.pc + 1 }))

/-- R300, R301, R357, R358: CFGL, SHADOW_LOAD, CFGS, PLANE_SWAP and DRAIN_TIMEOUT each complete with a next state: a stream is pending, fed, drained for, swapped in, or timed out. -/
def Obligations.StreamsAreLoadedAndSwapped : Prop :=
  (∀ s c g n, SeqReady s c [g] →
    let q := seqIssued s c
    let va := (greg q g).toNat
    va % 4 = 0 → seqWrites s c = false →
    exec (.cfgl g n) s = .next (setSeq (dropShadow s ⟨c, n.toNat⟩) c
      { setSect q n.toNat { sectAt q n.toNat with pend := some va, loadErr := none } with pc := (seqAt s c).pc + 1 })) ∧
  (∀ s c k va rg ws, let x := sectAt (seqAt s c) k
    x.pend = some va → x.loadErr = none → regionAt s ⟨c, k⟩ = some rg → rg.takesLoad = true → readStream s c vaLines va = .ok ws →
    let i := sectInfo (seqAt s c) k
    let f : Feed := { for_ := .load, words := placeWords i.cph i.rph rg.org ws, complete := false, plane := writtenPlane rg }
    exec (.shadowLoad c k) s = .next (dropFar (countBytes (setRegion s { rg with feed := some f }) c va (4 * ws.length)) c)) ∧
  (∀ s c d n, SeqReady s c [d] → seqWrites s c = false →
    let q := seqIssued s c
    let x := sectAt q n.toNat
    x.queued = 0 →
    (x.pend = none → (∀ rg, regionAt s ⟨c, n.toNat⟩ = some rg → rg.frozen = none ∧ rg.lvDue = none) →
      exec (.cfgs d n) s = .next (setSeq s c { setGreg q d 0 with pc := (seqAt s c).pc + 1 })) ∧
    (∀ va rg f, x.pend = some va → x.loadErr = none → regionAt s ⟨c, n.toNat⟩ = some rg → rg.frozen = none → rg.shadow = some f →
      f.tag = x.lv % 2 ^ 14 → rg.drain = none →
      exec (.cfgs d n) s = .next (setSeq (setRegion s (injectDrains (beginDrain rg s.cycle.toNat))) c
        { q with st := .parkwait, park := .cfgs d.toNat n.toNat }))) ∧
  (∀ s r rg d f ls, regionAt s r = some rg → rg.drain = some d → rg.shadow = some f → rg.frozen = none → sinksDone (injectDrains rg) = true →
    strayFault s (injectDrains rg) = none → linksOf (injectDrains rg) f.plane = .ok ls →
    let lays := writtenLayouts (injectDrains rg) f.plane
    let q := seqAt s r.seq
    let x := sectAt q r.sect
    let x1 := { x with pend := none, loadErr := none, cpc := (x.cpc + 1) % 2 ^ 16, layouts := lays,
                       streams := x.streams ++ (x.pend.map fun va => (va, true)).toList }
    let t := swapped (setSeq s r.seq (setSect q r.sect x1)) (injectDrains rg) f ls lays
    exec (.planeSwap r) s = .next (if (injectDrains rg).layouts.any (·.moved) then newLayout t r lays else t) ∧
    (r.sect < q.sects.length →
      let y := sectAt (seqAt t r.seq) r.sect
      y.cpc = (x.cpc + 1) % 2 ^ 16 ∧ y.pend = none ∧ y.lv = x.lv)) ∧
  (∀ s r rg d, regionAt s r = some rg → rg.drain = some d → rg.frozen = none →
    let h := (sectAt (seqAt s r.seq) r.sect).mode.toNat / 2 ^ 9 % 32
    (if h = 0 then 2 ^ 24 else 2 ^ h) ≤ s.cycle.toNat - d.start → sinksDone rg = false →
    exec (.drainTimeout r) s = .next (faultRegion (writeMap s rg) r (originFault clsStray 3)))

/-- R89, R113, R95: NODE_TOKEN_FIRE, MATCH_DISCARD and RETYPE_APPLY each complete with a next state: an agreed token passes a default node once, the smaller of two matched
coordinates is discarded, and a legal RETYPE gives its port the new count of slots. -/
def Obligations.TokensPassMatchAndRetype : Prop :=
  (∀ s u i ps e0 b, defaultNode s u = some (i, ps, e0) →
    let e := awakeNode (some i) e0
    e.cs.op.owe = [] → (∀ p ∈ ps, e.checkPort p false = .fine) → e.unmatched 0 1 = false → e.unmatched 2 3 = false → e.cs.op.held = [] →
    e.someToken ps = true → tokensAgree (ps.map e.head) = .agreed b → e.lack [b] [b] = [] →
    let e1 := e.keepLocals ((((e.consumeAll ps).statAt b).noteRound b).send [b] [b])
    exec (.nodeTokenFire u) s = .next (applyFire s u (.ok (afterToken i (ps.any fun p => (e.head p).any Beat.isClosing) e1)))) ∧
  (∀ s u rg e0 (cd : Bool) x y, regionAt s u.reg = some rg → nodeEnv s u (NodeWord.ofBits (nodeBits rg.plane u.off u.ctx)) = some e0 →
    let e := awakeNode (nodeInstr rg u) e0
    let p := if cd then 2 else 0
    e.matched p = true → e.matched (p + 1) = true → e.checkPort p false = .fine → e.checkPort (p + 1) false = .fine →
    e.head p = some x → e.head (p + 1) = some y →
    (x.isData = true → y.isData = true → x.ctl < y.ctl → exec (.matchDiscard u cd) s = .next (applyFire s u (.quiet (e.consume p) false))) ∧
    (x.isData = true → y.isData = true → y.ctl < x.ctl → exec (.matchDiscard u cd) s = .next (applyFire s u (.quiet (e.consume (p + 1)) false))) ∧
    (x.isData = true → y.isData = false → y.isStop = true → exec (.matchDiscard u cd) s = .next (applyFire s u (.quiet (e.consume p) false))) ∧
    (x.isData = false → x.isStop = true → y.isData = true → exec (.matchDiscard u cd) s = .next (applyFire s u (.quiet (e.consume (p + 1)) false)))) ∧
  (∀ s u rg e p b j l, regionAt s u.reg = some rg → nodeEnv s u (NodeWord.ofBits (nodeBits rg.plane u.off u.ctx)) = some e →
    e.head p = some b → e.rg.inLink e.off false e.ctx p = some j → e.rg.linkAt j = some l → e.checkPort p false = .hold →
    b.isCfg = true → b.spec = false → l.lat ≠ [] → b.pay.toNat / 2 ^ 16 = 0 → b.pay.toNat / 2 ^ 6 % 4 = 0 →
    let keep := b.pay.toNat / 2 ^ 5 % 2 == 1
    let n := b.pay.toNat % 2 ^ 5
    (keep = false → n ≠ 0 ∧ e.rg.poolUse e.off j + n ≤ 64) →
    let slots := if keep then l.slots else n
    let l2 := l.consume
    let l3 := { l2 with slots := slots, refill := true, ret := 0, crossings := l2.crossings.map fun x => { x with allow := slots + x.share, ret := 0 } }
    exec (.retypeApply u p) s = .next (applyFire s u (.quiet { e with rg := e.rg.modLink j fun _ => l3 } false)))

/-- R85, R86, R96 to R98, R143: LATCH_ADVANCE, FREE_SLOT_RETURN, BRIDGE_SEND, ALLOWANCE_RETURN, FLIT_RECEIVE, FLIT_REPLAY and STAT_TOKEN_ADD each
complete with a next state: how beats, slots, allowances and statistics move. -/
def Obligations.LinksAndBridgesMoveBeats : Prop :=
  (∀ s r k rg l, regionAt s r = some rg → rg.linkAt k = some l → rg.running = true → l.live = true → l.dist = [] →
    exec (.latchAdvance r k l.lat.length) s = .next (setRegion s (rg.modLink k fun _ => l.enqueue))) ∧
  (∀ s r k rg l, regionAt s r = some rg → rg.linkAt k = some l → rg.running = true → l.refill = false → l.ret ≠ 0 →
    exec (.freeSlotReturn r k) s = .next (setRegion s (rg.modLink k fun x => { x with ret := x.ret - 1, free := x.free + 1 }))) ∧
  (∀ s dir r j i circ rg x l1, let b := bridgeAt s dir
    dir < 8 → b.stopped = false → b.retry.length < 512 →
    (((circuits s dir).filter (canSend s)).find? fun x => decide (b.turn ≤ x.2.2.2)) = some (r, j, i, circ) → regionAt s r = some rg →
    ((rg.linkAt j).bind fun l => l.leaving i) = some (x, l1) →
    let l2 := { l1 with crossings := lmod l1.crossings i fun y => { y with allow := y.allow - 1 } }
    let f : BridgeFlit := { reg := r, link := j, seq := b.sendSeq, beat := x }
    exec (.bridgeSend dir) s = .next (setBridge (modLinkOf s r j fun _ => l2) dir
      { b with retry := b.retry ++ [f], wire := b.wire ++ [f], sendSeq := (b.sendSeq + 1) % 65536, turn := circ + 1 })) ∧
  (∀ s port sp r j circ l x, let h := holdBeats s port
    h.sports[port]? = some sp → sp.stopped = false → sp.outgoing.length < 512 →
    nextSend h (8 + port) sp.turn = some (r, j, circ, l, x) →
    let s1 := modLinkOf h r j fun _ => { l with drn := l.drn || x.isDrn }
    let send (y : SPort) : SPort := sendFlits { y with turn := circ + 1 } 0 (BitVec.ofNat 12 circ) [x.flit]
    (egressFault h r j x = none → exec (.bridgeSend (8 + port)) s = .next { s1 with sports := lmod s1.sports port send }) ∧
    (∀ fi, egressFault h r j x = some fi → exec (.bridgeSend (8 + port)) s = .next (raiseFault h r fi))) ∧
  (∀ s r k dir rg l i, regionAt s r = some rg → rg.linkAt k = some l → l.crossIx dir = some i →
    (dir < 8 → exec (.allowanceReturn r k dir) s = .next (setRegion s (rg.modLink k fun l => { l with crossings := lmod l.crossings i fun y =>
      if y.ret = 0 then y else { y with ret := y.ret - 1, allow := y.allow + 1 } }))) ∧
    (∀ v l1, 8 ≤ dir → l.farReturn i = some (v, l1) →
      let s1 := setRegion s (rg.modLink k fun _ => l1)
      let send (p : SPort) : SPort := sendFlits p 3 (BitVec.ofNat 12 (l.crossings.getD i default).circ) [BitVec.ofNat 288 v]
      exec (.allowanceReturn r k dir) s = .next { s1 with sports := lmod s1.sports (dir - 8) send })) ∧
  (∀ s dir f rest, let b := bridgeAt s dir
    b.wire = f :: rest → b.stopped = false →
    (f.seq = b.recvSeq → regionAt s f.reg = none → exec (.flitReceive dir true) s = .next (setBridge s dir
      { b with wire := rest, retry := b.retry.drop 1, recvSeq := (b.recvSeq + 1) % 65536, refused := 0 })) ∧
    (∀ rg, f.seq = b.recvSeq → regionAt s f.reg = some rg → exec (.flitReceive dir true) s = .next (setRegion (setBridge s dir
      { b with wire := rest, retry := b.retry.drop 1, recvSeq := (b.recvSeq + 1) % 65536, refused := 0 })
      (rg.modLink f.link fun l => match l.crossIx dir with
        | none => l
        | some i => { l with crossings := lmod l.crossings i fun y => { y with far := y.far ++ [f.beat] } }))) ∧
    (f.seq = b.recvSeq → b.refused + 1 < 8 → exec (.flitReceive dir false) s = .next (setBridge s dir
      { b with wire := rest, refused := b.refused + 1, stopped := false, faulted := [] }))) ∧
  (∀ s dir, let b := bridgeAt s dir
    b.stopped = false → b.retry ≠ [] → b.wire = [] →
    (dir < 8 → exec (.flitReplay dir) s = .next (setBridge s dir { b with wire := b.retry, retries := b.retries + 1 }))) ∧
  (∀ s port, exec (.flitReplay (8 + port)) s =
    .next { s with sports := lmod s.sports port fun p => if p.stopped then p else { p with wire := p.wire ++ p.outgoing } }) ∧
  (∀ s k t, s.statLane[k]? = some t →
    (t.entered = false → exec (.statTokenAdd k) s = .next { s with statLane := s.statLane.set k { t with entered := true } }) ∧
    (t.entered = true →
      exec (.statTokenAdd k) s = .next (setPart { s with statLane := s.statLane.eraseIdx k } t.part (addToken (partAt s t.part) t))))

/-- R56 to R59, R77: LINREAD, LINWRITE, GATH, SCAT, COPY, FIB, HASH, FLUSH and PREF each complete with a next state: every kind of SPB is accepted alike. -/
def Obligations.SpbsAreAccepted : Prop :=
  (∀ h b, AcceptLaw (.linRead h b)) ∧ (∀ h b, AcceptLaw (.linWrite h b)) ∧ (∀ h b, AcceptLaw (.gath h b)) ∧ (∀ h b, AcceptLaw (.scat h b)) ∧
  (∀ h b, AcceptLaw (.copy h b)) ∧ (∀ h b, AcceptLaw (.fib h b)) ∧ (∀ h b, AcceptLaw (.hash h b)) ∧ (∀ h b, AcceptLaw (.flush h b)) ∧
  (∀ h b, AcceptLaw (.pref h b))

/-- R57, R69, R72 to R74: ELEMENT_ISSUE, SPB_COMPLETE, EVENT_TOKEN_ARRIVE, SP_REQ_MARK, SP_DATA_TOKEN and REL_RELEASE each complete with a next state:
the ready SPB of the earliest deadline issues where no chaser reads ahead (log 115); a finished one frees its slot and sends its event token; markers join the order of replies; a token leaves a DATA port. -/
def Obligations.StreamPortsIssueAndComplete : Prop :=
  (∀ s r o rg sp s1 rg1, SpReady (sendReplies s r o) r o rg sp →
    firstAhead (sendReplies s r o) rg o sp (edfOrder sp.busy) = none → firstStep (sendReplies s r o) rg o sp (edfOrder sp.busy) = some s1 →
    regionAt s1 r = some rg1 → exec (.elementIssue r o) s = .next (setRegion s1 { rg1 with hang := 0 })) ∧
  (∀ s r o n rg sp sl, SpReady (sendReplies s r o) r o rg sp → sp.slots.getD n none = some sl →
    (sl.finished && !sl.faulted && sl.items.isEmpty && sl.cur.isEmpty && sl.outst == 0) = true →
    let s1 := setRegion (sendReplies s r o) (setSp rg { sp with slots := lmod sp.slots n fun _ => none })
    let ev : EvTok := { reg := r, off := ⟨sl.head.rdx.toInt, sl.head.rdy.toInt⟩, ctx := sl.head.rctx.toNat, word := eventWord sl n }
    exec (.spbComplete r o n) s = .next (if sl.head.evt then { s1 with evLane := s1.evLane ++ [ev] } else s1)) ∧
  (∀ s k t, s.evLane[k]? = some t →
    exec (.eventTokenArrive k) s = .next { s with evLane := s.evLane.eraseIdx k, evFired := s.evFired ++ [t] }) ∧
  (∀ s r o rg sp k b rest, SpReady (sendReplies s r o) r o rg sp → reqPort rg o = some k → spHeads rg o k = b :: rest →
    b.isMark = true → (b.isDrn = true ∨ b.isEoi = true → sp.busy = []) →
    (b.isTdr = true → exec (.spReqMark r o) s = .next (spTake (sendReplies s r o) rg o k)) ∧
    (b.isTdr = false → exec (.spReqMark r o) s = .next (modSp (spTake (sendReplies s r o) rg o k) r o fun x =>
      { x with marks := x.marks ++ (if (routedPorts rg o).isEmpty then [] else [{ stamp := sp.nextStamp, tok := b, ports := routedPorts rg o }]),
               nextStamp := sp.nextStamp + 1 }))) ∧
  (∀ s r o rg sp k b rest, SpReady s r o rg sp → spRole rg o k = 2 → spHeads rg o k = b :: rest →
    (b.isCfg = false → b.isMark = true → (b.isRlx = true ∨ b.isEog = true ∨ b.isDrn = true ∨ b.isTdr = true) →
      (b.needsBoundary = true → (sp.side k).settled = true) →
      exec (.spDataToken r o k) s = .next (passAt (spTake s rg o k) r o k b)) ∧
    (b.isRel = true → (sp.side k).settled = true → writesFrom s r o k = false →
      exec (.relRelease r o k) s = .next (atScope (passAt (spTake s rg o k) r o k b) b.relScope)))

/-- R250, R252, R253: MSWAP, MZERO, MFMT and MMIGR each complete with a next state as they start, and MLOAD, MMUL, MDRAIN and MCOUNT each start. -/
def Obligations.MatrixCommandsStart : Prop :=
  (∀ s c x, MeStarts s 2 c x → x.m.tlf = true →
    exec (.mswap c) s = .next (putMe s x.rg (x.finish { x.m with ta := x.m.tl, tl := x.m.ta, taf := true, tlf := false, tln := 0 }) [])) ∧
  (∀ s c x, MeStarts s 5 c x →
    exec (.mzero c) s = .next (putMe s x.rg (x.finish ((List.range c.nrow.toNat).foldl (fun m i => m.zeroRow (rowKey c i)) x.m)) [])) ∧
  (∀ s c x, MeStarts s 6 c x → pairOk c.fa c.fb c.fd = true →
    let m1 := if accIsInt x.m.fa != accIsInt c.fa then { x.m with acc := [], accPois := [] } else x.m
    let m2 := if x.m.fb != c.fb then { m1 with taf := false, tlf := false, tln := 0 } else m1
    exec (.mfmt c) s = .next (putMe s x.rg (x.finish
      { m2 with fa := c.fa, fb := c.fb, fd := c.fd, rnd := c.rnd, sat := c.sat, eswap := c.eswap }) [])) ∧
  (∀ s c x, MeStarts s 7 c x →
    exec (.mmigr c) s = .next (putMe s x.rg (x.finish { x.m with mon := c.mon, mthr := c.mthr.toNat }) [])) ∧
  (∀ s c x, MeStarts s 1 c x →
    (x.m.tlf = false → exec (.mload c) s = .next (x.begin s)) ∧ (x.m.tlf = true → exec (.mload c) s = .next (meStartFault x s 6))) ∧
  (∀ s c x, MeStarts s 3 c x →
    (x.m.taf = true → exec (.mmul c) s = .next (x.begin s)) ∧ (x.m.taf = false → exec (.mmul c) s = .next (meStartFault x s 4))) ∧
  (∀ s c x, MeStarts s 4 c x → exec (.mdrain c) s = .next (x.begin s)) ∧
  (∀ s c x, MeStarts s 8 c x → x.rg.pureInv = none → exec (.mcount c) s = .next (x.begin s))

/-- R247, R250, R251, R253: MLOAD, MMUL, MDRAIN and MCOUNT each complete with a next state: the last line of a load, the last line of a product, the last beat of a drain, the beat of
the counters. -/
def Obligations.MatrixCommandsRun : Prop :=
  (∀ s c x b l keep, MeHolds s 1 c x → x.e.started = true → OperandLine x x.m.fb x.m.tln b l keep → x.m.tln = 63 →
    let tl := { x.m.tl with lines := aset x.m.tl.lines 63 l.codes, pois := x.m.tl.pois || l.pois,
                            scales := if l.scales.isEmpty then x.m.tl.scales else aset x.m.tl.scales 63 l.scales }
    exec (.mload c) s = .next (putMe s x.taken (x.finish { x.m with tl := tl, tln := 64, tlf := true }) [])) ∧
  (∀ s c x b l keep, MeHolds s 3 c x → x.e.started = true → OperandLine x x.m.fa x.e.line b l keep → x.e.migrated = false →
    x.e.line + 1 = c.nrow.toNat →
    let r := mulInto x.m.fa x.m.fb x.m.sat c.z x.m.ta l (rowKey c x.e.line) x.m.acc x.m.accPois
    exec (.mmul c) s = .next (putMe s x.taken (x.finish (meCount x.taken { x.m with acc := r.1, accPois := r.2.1 } r.2.2).countLine) [])) ∧
  (∀ s c x, MeHolds s 4 c x → x.e.started = true → x.e.beat + 1 = drainBeats x.m.fd * c.nrow.toNat →
    let bd := drainBeats x.m.fd
    let row := rowKey c (x.e.beat / bd)
    let part := x.e.beat % bd
    let d := drainBeat x.m row part x.e.round (c.tagb.toNat + x.e.beat)
    x.rg.roomFor x.m.off true 0 c.oport.toNat [d.1] = true →
    let m1 := meCount x.rg (if c.z && part + 1 == bd then x.m.zeroRow row else x.m) d.2
    let r := meToken x.rg (x.finish m1) false
    exec (.mdrain c) s = .next (putMe s (x.rg.emitPort x.m.off true 0 c.oport.toNat [d.1]) r.1 r.2)) ∧
  (∀ s c x, MeHolds s 8 c x → x.e.started = true →
    let b := countBeat x.m c x.e.round
    x.rg.roomFor x.m.off true 0 c.oport.toNat [b] = true →
    exec (.mcount c) s = .next (putMe s (x.rg.emitPort x.m.off true 0 c.oport.toNat [b]) (x.finish x.m) []))

/-- R249, R254 to R256, R260: ME_COMMAND_ENQUEUE, ME_MARKER_ENTRY, ME_MIGRATE and ME_MIGRATION_RETURN each complete with a next state: a legal command enters the queue in order; a
marker leaves on its ports; a command that has waited long enough multiplies at the neighbour, and its rows come home. -/
def Obligations.MatrixQueuesMoveInOrder : Prop :=
  (∀ s r o rg m k b rest i, meOf s r o = some (rg, m) → m.off = o → cfgPort rg o = some k → blockHeads rg o k = b :: rest → rg.beyondCut m.round = false →
    b.poison = false → b.spec = false → b.level = 2 → meGroupAt m k = false → m.queue.length < 16 → decodeCmd b.pay = .ok i →
    let e := MeEntry.code { cmd := some i, marker := none, tag := 0, round := 0 }
    (meUnused e.1 e.2 = true → meLimits rg o e.1 e.2 = true →
      exec (.meCommandEnqueue r o) s =
        .next (setRegion s (setMe { (rg.consumePort o true 0 k) with hang := 0 } (m.push (some i) none [] s.cycle.toNat)))) ∧
    (meUnused e.1 e.2 = false → exec (.meCommandEnqueue r o) s = .next (meFault s r o clsMatrix 2 k (some b))) ∧
    (meUnused e.1 e.2 = true → meLimits rg o e.1 e.2 = false → exec (.meCommandEnqueue r o) s = .next (meFault s r o clsMatrix 3 k (some b)))) ∧
  (∀ s r o rg m e q b, meOf s r o = some (rg, m) → m.queue = e :: q → e.marker = some b →
    exec (.meMarkerEntry r o) s = .next (forwardMarker s rg m e b)) ∧
  (∀ s r o rg m b, meOf s r o = some (rg, m) → m.queue = [] → rg.beyondCut m.round = false → oddPort rg m (linkedPorts rg o) = none →
    linkedPorts rg o ≠ [] → (∀ k ∈ linkedPorts rg o, ∃ x, (blockHeads rg m.off k).head? = some x ∧ x.isMark = true) →
    tokensAgree ((linkedPorts rg o).map fun k => (blockHeads rg m.off k).head?) = .agreed b →
    let m1 := m.push none (some b) (markOuts rg m.off b) s.cycle.toNat
    exec (.meMarkerEntry r o) s = .next (putMe s ((linkedPorts rg o).foldl (fun g k => g.consumePort m.off true 0 k) rg)
      (if b.isClosing then { m1 with round := b.markRound + 1 } else m1) [])) ∧
  (∀ s r o k south rg m p rg1 n e, meOf s r o = some (rg, m) → neighbourPos (rg.posOf o) south = some p → meAtPos s r.seq.part p = some (rg1, n) →
    m.queue[k]? = some e → mayMigrate s.cycle.toNat rg m k = true → migEn rg1 n.off = true → n.queue = [] → n.hosted = none →
    exec (.meMigrate r o k south) s = .next (modMe
      (modMe s r o fun _ => { m with queue := lmod m.queue k fun e => { e with started := true, migrated := true },
                                     counters := lmod m.counters 2 fun n => (n + 1) % 2 ^ 32 })
      rg1.id n.off fun y => { y with hosted := some (hostRecord r m e), counters := lmod y.counters 3 fun n => (n + 1) % 2 ^ 32 })) ∧
  (∀ s r o rg m k e r1 o1 h, meOf s r o = some (rg, m) → (m.queue.findIdx? fun e => e.migrated && e.line == e.code.2.nrow.toNat) = some k →
    m.queue[k]? = some e → hostOf s r o e.tag = some (r1, o1, h) →
    let m1 := { m.takeRows h with queue := m.queue.eraseIdx k, counters := lmod m.counters 0 fun n => (n + 1) % 2 ^ 32 }
    exec (.meMigrationReturn r o) s = .next (modMe (modMe s r1 o1 fun n => { n with hosted := none }) r o fun _ => m1))

/-- R114, R267, R293: READ_PERFORM, WRITE_PERFORM and WINDOW_ACCESS each complete with a next state: an access that may perform takes its value or writes once, is counted, and answers
who asked, and the last write of a faulted run lets its retirement be observed; one that arrives over the mesh past its deadline under TRAP faults; a load answers its register. -/
def Obligations.AccessesPerformOnce : Prop :=
  (∀ s id q s2 bs pois, (s.reqs.find? fun x => x.id == id) = some q → mayPerform s q = true → (∀ m d a, q.tgt = .remote m d a → q.sent = true) →
    performAt s q = .ok s2 bs pois →
    ((s.cycle.toNat ≤ q.deadline ∨ onMesh s q = false) →
      let t := wrotePast (answer (countReq s2 q) q bs pois) q
      (q.reads = true → q.atBank = false → exec (.readPerform id) s = .next t) ∧
      (q.reads = false → q.atBank = false → exec (.writePerform id) s = .next t) ∧
      (q.atBank = true → exec (.windowAccess id) s = .next t)) ∧
    (q.deadline < s.cycle.toNat → onMesh s q = true → (partAt s q.part).dlTrap = true → q.reads = true → q.atBank = false →
      exec (.readPerform id) s = .next (wrotePast (refuse (setPart s q.part { partAt s q.part with dlLate := (partAt s q.part).dlLate + 1 }) q clsDeadline 2) q))) ∧
  (∀ s c gd n bs, let t := loadTo s c gd n false bs false
    0 < gd → gd < 32 →
    greg (seqAt t c) (BitVec.ofNat 5 gd) = BitVec.ofNat 64 (natOfBytes bs) ∧ (seqAt t c).owed.getLsbD gd = false ∧ t.mem = s.mem)

/-- R39, R40, R43 to R48: WALK_COMPLETE, INVALIDATION_START, INVALIDATION_COMPLETE, RESUME and FAULT_NOTICE_PENDING_WRITE each complete with a next
state: a walk gives its slot to the next and answers each access that joined it, by a translation that fills the TLBs or by what it misses;
translations are invalidated, and taken again. -/
def Obligations.TranslationsAreFilledAndInvalidated : Prop :=
  (∀ s id w, (s.walks.find? fun x => x.id == id) = some w → w.started = true →
    let s1 := { s with walks := s.walks.filter fun x => x.id != id }
    (w.again = true →
      exec (.walkComplete id) s = .next { s with walks := s.walks.map fun x => if x.id = id then { x with again := false } else x }) ∧
    (w.again = false →
      exec (.walkComplete id) s = .next (w.waiters.foldl (fun t j => walkResult t w.part j) (grantWalk s1 (partDie w.part))))) ∧
  (∀ s p j, (∀ e, walk s p j.va j.write = .ok e → walkResult s p j = goOn (fillTlbs s p (waiterKey s p j.who) e) j.who) ∧
    (∀ m, walk s p j.va j.write = .error m → walkResult s p j = waiterMiss s p j.va m j.who)) ∧
  (∀ s p, let x := partAt s p
    (x.invBusy = false → exec (.invalidationStart p) s =
      .next (invalidate (setPart s p { x with invBusy := true, invWait := [] }) p x.invAddr x.invCnt.toNat)) ∧
    (x.invBusy = true → exec (.invalidationStart p) s = .next s) ∧
    (x.invBusy = true → s.reqs.any (fun q => x.invWait.contains q.id) = false → x.notices = [] →
      exec (.invalidationComplete p) s =
        .next (setPart s p { x with invBusy := false, invDone := x.invDone + 1, invWait := [], notices := [] }))) ∧
  (∀ s p seq n, let s0 := setPart s p { partAt s p with resume := seq }
    let x := partAt s0 p
    (x.notices.find? fun n => n.nseq == seq) = some n → winSaved s0 p n.fva = false →
    exec (.resume p seq) s = .next (leavePlace (goOn
      (setPart s0 p { x with notices := x.notices.filter fun x => x.nseq != seq }) n.waiter) n.waiter)) ∧
  (∀ s p n t, ((partAt s p).notices.find? fun n => !n.written) = some n → deliverNotice s p n = some t →
    exec (.faultNoticePendingWrite p) s = .next t)

/-- R111, R145 to R150, R155, R161: SETC, MOVC, AUTOX, RECT, HARD, VERS, WRITE, LOCAL_REGISTER_COMMIT, BANK_INIT_COMMIT, TILE_PRELOAD and ENDS each complete
with a next state: what each word of a configuration stream does to the feed. -/
def Obligations.ConfigurationWordsAct : Prop :=
  (∀ s rg g x y, CfgReady s rg true g → g.begun = false → x.toNat = rg.id.sect →
    exec (.vers x y) s = .next (feedPut s rg { g with begun := true, tag := y.toNat, autox := false, rect := none, last := none })) ∧
  (∀ s rg g x y, CfgReady s rg true g → g.begun = true → rg.holds ⟨x.toInt, y.toInt⟩ = true →
    let o : Offset := ⟨x.toInt, y.toInt⟩
    let h (auto : Bool) : Feed := { g.fresh with cursor := some o, hardCur := false, autox := auto, plane := resetSel g.plane [o] }
    exec (.setc x y) s = .next (feedPut s rg (h false)) ∧ exec (.autox x y) s = .next (feedPut s rg (h true)) ∧
    (rg.hardCol x.toInt = true → exec (.hard x y) s = .next (feedPut s rg { g.fresh with cursor := some o, hardCur := true }))) ∧
  (∀ s rg g x y c, CfgReady s rg true g → g.begun = true → g.cursor = some c →
    let o : Offset := ⟨c.dx + x.toInt, c.dy + y.toInt⟩
    rg.holds o = true →
    exec (.movc x y) s = .next (feedPut s rg { g.fresh with cursor := some o, hardCur := false, plane := resetSel g.plane [o] }) ∧
    (rg.holds c = true → 0 ≤ x.toInt → 0 ≤ y.toInt → exec (.rect x y) s = .next (feedPut s rg
      { g.fresh with rect := some (x.toNat + 1, y.toNat + 1), hardCur := false,
                     plane := resetSel g.plane (rectCells rg c (x.toNat + 1) (y.toNat + 1)) }))) ∧
  (∀ s rg g c, CfgReady s rg true g → OneCell rg g c →
    let g1 := { g with last := none }
    (∀ f v, cellFieldErr f.toNat v.toNat = none → exec (.write f v) s =
      .next (feedPut s rg { g1 with plane := setField g.plane c (heldKey g.plane c f.toNat) v.toNat })) ∧
    (∀ v, cellFieldErr 26 v.toNat = none →
      let sel := planeField g.plane c 24
      exec (.localRegisterCommit v) s = .next (feedPut s rg { g1 with
        plane := setField g.plane c 26 v.toNat,
        lregs := aset g.lregs (lregKey c (bitsOf sel 3 2) (bitsOf sel 0 3))
          (BitVec.ofNat 32 (v.toNat % 256 * 2 ^ 24 + planeField g.plane c 25)) })) ∧
    (∀ v, cellFieldErr 92 v.toNat = none →
      let n := v.toNat % 2048 + 1
      let a := planeField g.plane c 80
      a + n ≤ 2048 → exec (.bankInitCommit v) s = .next (feedPut s rg { g1 with
        binit := g.binit ++ [(offKey c, a, n, initBeat g.plane c)],
        plane := setField (setField g.plane c 92 v.toNat) c 80 ((a + n) % 2048) })) ∧
    (∀ v m, bitsOf v.toNat 16 5 = 0 → ((List.range 16).takeWhile fun i => bitsOf v.toNat i 1 == 1).length = m → m ≠ 0 → bitsOf v.toNat 0 16 = 2 ^ m - 1 →
      (segDesc g.plane c (bitsOf v.toNat 21 3)).typ = 2 → m ≤ (segDesc g.plane c (bitsOf v.toNat 21 3)).param + 1 →
      exec (.tilePreload v) s = .next (feedPut s rg { g1 with
        plane := setField g.plane c 93 v.toNat, preload := g.preload ++ [(offKey c, bitsOf v.toNat 21 3, m)] }))) ∧
  (∀ s rg g c, CfgReady s rg false g → g.begun = true → g.sum % 2 ^ 28 = c.toNat →
    (g.complete = true ∨ g.tag = (sectAt (seqAt s rg.id.seq) rg.id.sect).lv % 2 ^ 14) → planeErr rg g.plane = none → bridgeErr s rg g.plane = none →
    blocksErr rg g = none →
    exec (.ends c) s = .next (feedPut s rg g.next)) ∧
  (∀ s rg g c, CfgReady s rg false g → g.begun = true → g.sum % 2 ^ 28 ≠ c.toNat →
    exec (.ends c) s = .next (feedPut s rg (g.fail .checksumMismatch)))

/-- R286, R287, R296, R301, R333 to R335: ALLOCATOR_RUN, PWBUD_WRITE, ENTRY_AGING, CONTEXT_AGING, CONFIG_INSTALL and INVOCATION_ARM each complete with a
next state: ageing, the allocator's run, the plane made live,
and the entry of a placed section armed; where DET takes clones away, a commit that does so comes first (the model's choice, log 128). -/
def Obligations.EntriesAgeAreInstalledAndArmed : Prop :=
  (∀ s p v, exec (.allocatorRun p) s = .next (allocate s p) ∧
    exec (.pwbudWrite p v) s = .next (allocate (setPart s p { partAt s p with pwbud := v.toNat % 2 ^ 16 }) p)) ∧
  (∀ s p k w, (waitingIn s (partAt s p).plgrp)[k]? = some w → exec (.entryAging p k) s = .next (ageEntry s w)) ∧
  (∀ s c, let q := seqAt s c
    let t := tAgeOf (partAt s c.part)
    q.st = .run → t ≠ 0 → t ≤ s.cycle.toNat - q.lastIssue → exec (.contextAging c) s = .next (setSeq s c { q with raised := true })) ∧
  (∀ s r rg f ls, regionAt s r = some rg → rg.feed = some f → f.closed = true → f.for_ = .install → f.err = none → linksOf rg f.plane = .ok ls →
    let s1 := installDone (goLive s rg f ls) r
    exec (.configInstall r) s = .next (windowsBack s1 ((regionAt s1 r).getD rg))) ∧
  (∀ s rg f ls, (sectAt (seqAt s rg.id.seq) rg.id.sect).comesBack = none →
    let rg1 := installPlane rg f (numberCircuits s rg.id ls) (writtenLayouts rg f.plane)
    let us := bridgeUses s rg1 rg1.links
    let t := takePools s { rg1 with uses := us }
    goLive s rg f ls = clearUses (setRegion t.1 t.2) rg.id us) ∧
  (∀ s r, let q := seqAt s r.seq
    let x := sectAt q r.sect
    let lays := ((regionAt s r).map (·.layouts)).getD []
    x.kept = none →
    installDone s r = setSeq s r.seq (setSect q r.sect { x with layouts := lays, streams := x.streams.map fun y => (y.1, true) })) ∧
  (∀ s c k i, let q := seqAt s c
    q.image = some i → armGroup q i k = [k] → (sectAt q k).armq ≠ [] → armable s c k = true → seqFree q i k = true →
    (detDue s c k = false → exec (.invocationArm c k) s = .next (armOne s c k)) ∧
    (detDue s c k = true → exec (.invocationArm c k) s = .next (detCommit s c k))) ∧
  (∀ s c k e t rg, let q := seqAt s c
    k < q.sects.length → (sectAt q k).armq = e :: t → regionAt s ⟨c, k⟩ = some rg →
    let y := sectAt (seqAt (armOne s c k) c) k
    y.armq = t ∧ y.placed = false ∧ y.armed = true ∧ ∃ rg1 i, regionAt (armOne s c k) ⟨c, k⟩ = some rg1 ∧ rg1.inv = some i ∧ i.entry = e)

/-- R338 to R342, R344, R346: PRECTL_GO, SCHEDULER_PREEMPT, T_PF_EXPIRY, CUT_COMPLETE, T_CUT_EXPIRY and INVOCATION_RESUME each complete with a next
state: a request takes room and starts
the cut, the cut saves, time forces it, and a saved invocation is restored. -/
def Obligations.InvocationsAreSavedAndResumed : Prop :=
  (∀ s p (v : BitVec 64), let x := partAt s p
    let s0 := setPart s p { x with preN := BitVec.ofNat 5 v.toNat, preS := BitVec.ofNat 16 (v.toNat / 2 ^ 16) }
    let at_ := regionAt s0 ⟨⟨p, v.toNat % 32⟩, v.toNat / 2 ^ 16 % 2 ^ 16⟩
    (v.getLsbD 63 = false → exec (.prectlGo p v) s = .next s0) ∧
    (v.getLsbD 63 = true → x.preBusy = true → exec (.prectlGo p v) s = .next s) ∧
    (v.getLsbD 63 = true → x.preBusy = false → at_ = none → exec (.prectlGo p v) s = .next s0) ∧
    (∀ rg, v.getLsbD 63 = true → x.preBusy = false → at_ = some rg → rg.frozen = none → rg.detected = none → rg.inv.isSome = true → rg.cut = none →
      (∀ t, tryCut s0 rg false = some t →
        exec (.prectlGo p v) s = .next (setPart t p { partAt t p with preBusy := true, preFor := some rg.id })) ∧
      (tryCut s0 rg false = none → exec (.prectlGo p v) s = .next (countRefused s0 p)))) ∧
  (∀ s p w l rg, let x := partAt s p
    waitingIn s x.plgrp = w :: l → x.pren = true → w.e.prio = 3 → tryEntry s w = .waits →
    youngest (s.regions.filter (cuttable s w x.plgrp)) = some rg →
    (∀ t, rg.cut = none → tryCut s rg false = some t → exec (.schedulerPreempt p) s = .next t) ∧
    (rg.cut = none → tryCut s rg false = none → exec (.schedulerPreempt p) s = .next (countRefused s rg.id.seq.part)) ∧
    (∀ c, rg.cut = some c → c.inPlace = false → exec (.schedulerPreempt p) s = .next s)) ∧
  (∀ s p seq n rg t, let x := partAt s p
    (x.notices.find? fun n => n.nseq == seq) = some n → x.pflim.toNat * cyclesPerUs ≤ s.cycle.toNat - n.since →
    n.resumed = false → (noticeRegion n).bind (regionAt s) = some rg → rg.frozen = none → rg.detected = none → rg.inv.isSome = true → rg.cut = none →
    tryCut s rg true = some t → exec (.tPfExpiry p seq) s = .next t) ∧
  (∀ s r rg c, regionAt s r = some rg → rg.cut = some c → rg.frozen = none → rg.detected = none →
    (cutDone s rg c = true → exec (.cutComplete r) s = .next (saveRegion s r)) ∧
    (c.inPlace = false → c.forced = false → (partAt s r.seq.part).cutlim.toNat * cyclesPerUs ≤ s.cycle.toNat - c.start →
      (cutDone s rg c = true → exec (.tCutExpiry r) s = .next (saveRegion s r)) ∧
      (cutDone s rg c = false → exec (.tCutExpiry r) s = .next (forceCut s r)))) ∧
  (∀ s c k old place i ls, let r : RegId := ⟨c, k⟩
    let q := seqAt s c
    let x := sectAt q k
    x.saved = some old → regionAt s r = some place → q.image = some i → place.installed = false → x.placed = true → seqFree q i k = true →
    linksOf (farMoved old place.org) (exchPlane old place.org (writtenPlane old)) = .ok ls →
    let w := takePools s (restoredRegion s old place)
    let rg := w.2
    let s1 := dropSave (setSeq (setRegion w.1 rg) c
      (setSect q k { x with armq := x.armq.drop 1, armed := true, placed := false, saved := none })) r
    (saveIntact s r = true → exec (.invocationResume c k) s = .next (windowsBack s1 rg)) ∧
    (saveIntact s r = false → exec (.invocationResume c k) s = .next (faultRegion s1 r (originFault clsCfg 0x40))))

/-- R269, R298, R311, R324, R366 to R370: AGATE_LOOKUP, INVOCATION_RETIRE, AGATE_FLUSH, AGSBASE_WRITE, AGSSIZE_WRITE, WINDOW_END, COMMIT and RBSTAT_CLEAR each
complete with a next state: reuse, the end of
an invocation, and the windows and commits of rebalancing. -/
def Obligations.InvocationsAreReusedRetiredRebalanced : Prop :=
  (∀ s r rg p k, regionAt s r = some rg → rg.pureInv = some p → rg.running = true → rg.cut = none → p.looked = false → p.key = some k →
    exec (.agateLookup r) s = .next (lookup s rg p k)) ∧
  (∀ s r rg p, regionAt s r = some rg → rg.pureInv = some p → rg.running = true → rg.cut = none → p.looked = true → p.hit = true → p.copying = false →
    p.withheld = false → p.copied < p.total → exec (.agateLookup r) s = .next (hitPiece s rg p)) ∧
  (∀ s r rg i, regionAt s r = some rg → rg.inv = some i → retires s rg = true → exec (.invocationRetire r) s = .next (retire s rg i)) ∧
  (∀ s p v, exec (.agateFlush p) s = .next (flushEntries (setPart s p { partAt s p with agBusy := false }) p) ∧
    exec (.agsbaseWrite p v) s = .next (flushEntries (setPart s p { partAt s p with agsBase := vaField v.toNat 12 }) p) ∧
    exec (.agssizeWrite p v) s = .next (flushEntries (setPart s p { partAt s p with agsSize := v.setWidth 32 }) p)) ∧
  (∀ s r rg i, regionAt s r = some rg → rg.inv = some i → rg.running = true → rg.reb ≠ 0 →
    let w := windowLen rg.modeWord
    i.windowStart + w ≤ s.cycle.toNat →
    let rg1 : Region := { rg with links := rg.links.map reportLink, cells := rg.cells.map fun x => (x.1, reportCell x.2),
                                  inv := some { i with windows := (i.windows + 1) % 2 ^ 32, windowStart := i.windowStart + w } }
    let p := partAt s r.seq.part
    let lays := rg1.layouts.map (rg1.windowNode p w)
    (rg.reb ≠ 1 → exec (.windowEnd r) s = .next (setRegion s { rg1 with layouts := lays })) ∧
    (rg.reb = 1 → exec (.windowEnd r) s =
      .next (setPart (setRegion s { rg1 with layouts := lays.map fun l => { l with want := 0 } }) r.seq.part
        { p with rbProposed := min (p.rbProposed + (lays.filter fun l => l.want != 0).length) 65535 }))) ∧
  (∀ s r rg plan l, regionAt s r = some rg → rg.running = true → rg.cut = none → rg.inv.isSome = true → rg.lvDue = none →
    (rg.commit = none → (rg.layouts.find? fun l => l.nid == plan.nid && l.want != 0) = some l → (partAt s r.seq.part).susp = false →
      (planLegal s rg l (plan.off, plan.ctx) plan.routes = true → exec (.commit r plan) s = .next (beginCommit s rg l plan)) ∧
      (planLegal s rg l (plan.off, plan.ctx) plan.routes = false → somePlan s rg l = true → exec (.commit r plan) s = .next s) ∧
      (planLegal s rg l (plan.off, plan.ctx) plan.routes = false → somePlan s rg l = false →
        let p := partAt s r.seq.part
        exec (.commit r plan) s = .next (setPart (setRegion s
          { rg with layouts := rg.layouts.map fun x => if x.nid = l.nid then { x with want := 0 } else x })
          r.seq.part { p with rbRefused := min (p.rbRefused + 1) 65535 }))) ∧
    (∀ pl, rg.commit = some pl → (rg.layouts.find? fun l => l.nid == pl.nid) = some l → commitReady s rg l = true →
      exec (.commit r plan) s = .next (finishCommit s rg l pl))) ∧
  (∀ s p, exec (.rbstatClear p) s = .next (setPart s p { partAt s p with rbRefused := 0, rbProposed := 0 }))

/-- R117, R349 to R361: STREAM_BUFFER_GROW, REGION_FREEZE, FAULT_RECORD_PENDING_WRITE, HANG_TIMEOUT, FRCTL_RELEASE, FRCTL_CLEAR, FLTSTAT_CLEAR, SOFT_ERROR and
BANK_REASSIGN each complete with a next state: how faults freeze a region, are recorded, released and cleared. -/
def Obligations.FaultsFreezeAndRelease : Prop :=
  (∀ s u rg w b, regionAt s u.reg = some rg → pushWord rg u = some w → (rg.portHeads u.off false u.ctx (portA w)).head? = some b →
    rg.running = true → rg.isHalted 0 u.off u.ctx = false →
    let n := segNo w
    let d := segDesc rg.plane u.off n
    let g := segAt (cellAt rg u.off) n
    d.ext = true → g.space d = 0 →
    (∀ k, freeChunk rg .carve rg.carve = some k → exec (.streamBufferGrow u) s = .next (growPut s rg u n (SegState.link (.carve k)))) ∧
    (∀ k x, freeChunk rg .carve rg.carve = none → rg.ovfVa ≠ 0 → freeChunk rg .ovf rg.ovfLen = some k →
      immTarget s u.reg.seq.part (ovfAt rg k 0) true = .ok x →
      exec (.streamBufferGrow u) s = .next (growPut s rg u n (SegState.link (.ovf k)))) ∧
    (∀ k m, freeChunk rg .carve rg.carve = none → rg.ovfVa ≠ 0 → freeChunk rg .ovf rg.ovfLen = some k →
      immTarget s u.reg.seq.part (ovfAt rg k 0) true = .error m →
      exec (.streamBufferGrow u) s = .next (growFail s rg u (portA w) b 3)) ∧
    (freeChunk rg .carve rg.carve = none → rg.ovfVa = 0 → exec (.streamBufferGrow u) s = .next (growFail s rg u (portA w) b 1)) ∧
    (freeChunk rg .carve rg.carve = none → rg.ovfVa ≠ 0 → freeChunk rg .ovf rg.ovfLen = none →
      exec (.streamBufferGrow u) s = .next (growFail s rg u (portA w) b 2))) ∧
  (∀ s r, exec (.regionFreeze r) s = .next (freezeRegion s r)) ∧
  (∀ s p x t s1 q, (partAt s p).pending = x :: t → queuePut s p (partAt s p).frq (frqCount (partAt s p)) 32 x.bytes = some (s1, q) →
    let s2 := setPart s1 p { partAt s1 p with frq := q, pending := t }
    (x.who = none → exec (.faultRecordPendingWrite p) s = .next s2) ∧
    (∀ r, x.who = some r → exec (.faultRecordPendingWrite p) s = .next (faultedOn s2 r))) ∧
  (∀ s r rg, regionAt s r = some rg → rg.frozen = none → hangBits rg.modeWord ≠ 0 → 2 ^ hangBits rg.modeWord ≤ rg.hang →
    exec (.hangTimeout r) s = .next (faultRegion (writeMap s rg) r (originFault clsHang 1))) ∧
  (∀ s p (v : BitVec 64), let x := partAt s p
    v.getLsbD 63 = true →
    let r : RegId := ⟨⟨p, v.toNat % 2 ^ 5⟩, v.toNat / 2 ^ 16 % 2 ^ 16⟩
    let s1 (act : BitVec 2) : State := setPart s p { x with frN := BitVec.ofNat 5 v.toNat, frS := BitVec.ofNat 16 (v.toNat / 2 ^ 16), frAct := act }
    (x.frBusy = true → exec (.frctlRelease p v) s = .next s ∧ exec (.frctlClear p v) s = .next s) ∧
    (x.frBusy = false → (frctlValid (s1 0) r 0 = false → exec (.frctlRelease p v) s = .next (s1 0)) ∧
      (frctlValid (s1 1) r 1 = false → exec (.frctlClear p v) s = .next (s1 1)) ∧
      (frctlValid (s1 0) r 0 = true → frctlWaits (s1 0) r = false → exec (.frctlRelease p v) s = .next (abandonPlace (s1 0) r)) ∧
      (frctlValid (s1 1) r 1 = true → frctlWaits (s1 1) r = false → exec (.frctlClear p v) s = .next (unplace (clearRegion (s1 1) r) r)) ∧
      (frctlValid (s1 0) r 0 = true → frctlWaits (s1 0) r = true → exec (.frctlRelease p v) s =
        .next (setPart (s1 0) p { partAt (s1 0) p with frBusy := true, frFor := some (r, 0) })))) ∧
  (∀ s p, exec (.fltstatClear p) s = .next (setPart s p { partAt s p with fSlost := 0, fEccc := 0 })) ∧
  (∀ s p, exec (.softError (.corrected p)) s = .next (setPart s p { partAt s p with fEccc := min ((partAt s p).fEccc + 1) 65535 })) ∧
  (∀ s r k j rg, regionAt s r = some rg → exec (.softError (.beatPayload r k j)) s =
    .next (setRegion s (rg.modLink k fun l => l.modBeat j fun b => { b with poison := true }))) ∧
  (∀ s w, exec (.softError (.dramWord w)) s = .next { s with memPois := joinWords s.memPois [w] }) ∧
  (∀ s r k j rg l b, regionAt s r = some rg → rg.linkAt k = some l → l.allBeats[j]? = some b →
    exec (.softError (.beatSideband r k j)) s = .next (raiseFault s r (linkFault rg l clsPoison 3 b))) ∧
  (∀ s r o w rg, regionAt s r = some rg → w < 8192 → rg.hardCol o.dx = false → (aget rg.cells (offKey o)).isSome = true →
    let c := cellAt rg o
    exec (.softError (.bankWord r o w)) s = .next (setRegion s ((setCell rg o { c with bpois := addWords c.bpois [w] }).spoil o (w / 4)))) ∧
  (∀ s r o rg, regionAt s r = some rg → (aget rg.plane (offKey o)).isSome = true →
    let unit := if rg.hardCol o.dx = false then 0 else if rg.blockIsSp o = true then 1 else 2
    exec (.softError (.planeField r o)) s = .next (raiseFault s r { originFault clsCfg 0x41 with off := o, unit := unit })) ∧
  (∀ s p, (s.scrubbing.contains p = true → regionAtPos s p = none → exec (.bankReassign p) s = .next { s with scrubbing := s.scrubbing.filter (· != p) }) ∧
    (s.scrubbing.contains p = false → regionAtPos s p = none → bankBusy s p = false →
      exec (.bankReassign p) s = .next { s with scrubbing := s.scrubbing ++ [p] }))

/-- R375 to R382, Tables 16-1, 19-1, 19-3: SHAPE, BIND, REVOKE, QUOTE, DOMSET, CXLMAP, KRVCNT_CLEAR, DEVICE_RESET and REGISTER_WRITE each complete with a next
state. -/
def Obligations.MailboxAndRegistersAct : Prop :=
  (∀ s d shape, mailRuns s 1 = true → d < 4 → shape < 3 → dieBusy s d = false → s.fwStat = 0 →
    let s1 := shapeDie s d shape
    exec (.shape d shape) s = .next (mailDone (record s1 2 [BitVec.ofNat 8 d, BitVec.ofNat 8 shape, s1.pmap]) 0)) ∧
  (∀ s slot mask blob, mailRuns s 2 = true → slot < 64 → blob.length = 200 → (maskParts mask).any (fun p => (partAt s p).shape == 0) = false →
    (s.slots.getD slot {}).st = .empty → (maskParts mask).any (fun p => (partAt s p).slot.isSome) = false →
    exec (.bind slot mask blob) s = .next (match openBlob blob with
      | none => mailDone s 2
      | some plain =>
        let k := slotOfBlob plain (s.bindings + 1)
        mailDone (record (bindSlot s slot mask k) 3 (BitVec.ofNat 8 slot :: k.tenant ++ [BitVec.ofNat 8 k.tdn])) 0)) ∧
  (∀ s k x, mailRuns s 3 = true → revokesOther s k = false → s.slots[k]? = some x →
    (x.st = .empty → exec (.revoke k) s = .next (mailDone s 1)) ∧
    (x.st = .bound → exec (.revoke k) s = .next (beginRevoke s k)) ∧
    (x.st = .revoking → writesUnder s x.binding = true → exec (.revoke k) s = .next s) ∧
    (x.st = .revoking → writesUnder s x.binding = false →
      exec (.revoke k) s = .next (mailDone (record (endRevoke s k) 4 [BitVec.ofNat 8 k]) 0))) ∧
  (∀ s nonce, mailRuns s 4 = true → nonce.length = 32 →
    let out := (List.range 114).map (Config.ed448Sign (quoteBytes s nonce)) ++ s.measure
    exec (.quote nonce) s = .next (mailDone (devWrite { s with mbOut := out } 0 (hostKey s.mbAddr) out false) 0)) ∧
  (∀ s mid size, mailRuns s 5 = true → 0 < size → size ≤ 64 → mid < size → s.shaped = false →
    exec (.domset mid size) s = .next (mailDone { s with modId := mid, domSize := size } 0)) ∧
  (∀ s p port off len, mailRuns s 6 = true → port < 2 → (partAt s p).shape ≠ 0 → (off + len) * gib ≤ s.cxlCap.getD port 0 → s.cxlMap = [] →
    exec (.cxlmap p port off len) s = .next (mailDone { s with cxlMap := [⟨p, port, off * gib, len * gib⟩] } 0)) ∧
  (∀ s, exec .krvcntClear s = .next { s with krvCnt := 0 }) ∧
  (∀ s fw, ∃ t, exec (.deviceReset fw) s = .next t ∧ t.mem = s.mem ∧ t.fseq = s.fseq ∧ t.regions = [] ∧ t.seqs = [] ∧ t.reqs = [] ∧
    t.slots = List.replicate 64 {} ∧ t.pmap = 0 ∧ t.cycle = 0 ∧
    t.romDigest = s.romDigest ∧ t.fusedVersion = s.fusedVersion ∧
    t.fwStat = (if Config.fwVerify s.romDigest fw.image fw.sig = false then 1 else if fw.version < s.fusedVersion then 2 else 0)) ∧
  (∀ s p (v : BitVec 64), p < 8 → s.fwStat = 0 →
    exec (.registerWrite p 0x108 v) s = .next (modPart s p fun x => { x with invAddr := vaField v.toNat 16 }) ∧
    exec (.registerWrite p 0x120 v) s = .next (modPart s p fun x => { x with pflim := v.setWidth 16 }) ∧
    exec (.registerWrite p 0x1A8 v) s = .next (modPart s p fun x => { x with cutlim := v.setWidth 16 }) ∧
    exec (.registerWrite p 0x300 v) s = .next (modPart s p fun x => { x with pirq := x.pirq &&& ~~~(v.setWidth 4) }) ∧
    exec (.registerWrite p 0x308 v) s = .next (modPart s p fun x => { x with hdmRead := v.getLsbD 0, hdmWrite := v.getLsbD 1 }) ∧
    exec (.registerWrite p 0x290 v) s = .next (modPart s p fun x => { x with agEn := v.getLsbD 0, agBusy := x.agBusy || v.getLsbD 1 }) ∧
    exec (.registerWrite 8 0x018 v) s = .next { s with mbAddr := v.toNat / 2 ^ 12 % 2 ^ 36 * 2 ^ 12 }) ∧
  (∀ s (v : BitVec 64), let c : BitVec 8 := v.setWidth 8
    (v.getLsbD 63 = false → exec (.registerWrite 8 0x020 v) s = .next { s with mbCmd := c }) ∧
    (v.getLsbD 63 = true → s.mbBusy = true → exec (.registerWrite 8 0x020 v) s = .next s) ∧
    (v.getLsbD 63 = true → s.mbBusy = false → 1 ≤ c.toNat → c.toNat ≤ 6 →
      exec (.registerWrite 8 0x020 v) s = .next { s with mbCmd := c, mbRun := c, mbBusy := true, mbDone := false })) ∧
  (∀ s p off v, p < 8 → s.fwStat ≠ 0 → exec (.registerWrite p off v) s = .next s)

/-- R362, R383 to R387: HOST_MEM_ACCESS, CXL_LINK_DOWN, LINK_FLIT_RECEIVE, REMOTE_ACCESS_REQUEST and LINK_RETRAIN each complete with a next state: what the host and other modules do to
this one's memory and ports. -/
def Obligations.HostAndModulesReachMemory : Prop :=
  (∀ s off n bs, 768 * gib ≤ off →
    exec (.hostMemAccess off (.read n)) s = .fault .hdmOutOfRange ∧ (∀ pois, exec (.hostMemAccess off (.write bs pois)) s = .fault .hdmOutOfRange) ∧
    exec (.hostMemAccess off (.load n)) s = .fault .hdmOutOfRange ∧ exec (.hostMemAccess off .drop) s = .fault .hdmOutOfRange) ∧
  (∀ s off, off < 768 * gib →
    let d := off / (192 * gib)
    let a := off % (192 * gib)
    let o := ownerOfDram s d a
    let b := (o.map (partBinding s)).getD 0
    (∀ n, (hdmRefused s o false = false → exec (.hostMemAccess off (.read n)) s =
        .next (hostAnswer s off (devRead s b (dramKey d a) n).1 (devRead s b (dramKey d a) n).2)) ∧
      (hdmRefused s o false = true → exec (.hostMemAccess off (.read n)) s = .next (hostAnswer (countHdmRefused s) off [] true))) ∧
    (∀ bs pois, (hdmRefused s o true = false →
        exec (.hostMemAccess off (.write bs pois)) s = .next (devWrite (hostDrop s off bs.length) b (dramKey d a) bs pois)) ∧
      (hdmRefused s o true = true → exec (.hostMemAccess off (.write bs pois)) s = .next (countHdmRefused s))) ∧
    (∀ n bs p, (s.hostHeld.find? fun x => x.1 == off / 256) = some (off / 256, bs, p) →
      exec (.hostMemAccess off (.load n)) s = .next (hostAnswer s off ((bs.drop (off % 256)).take n) p)) ∧
    exec (.hostMemAccess off .drop) s = .next (hostDrop s off 1)) ∧
  (∀ s off bs p n, exec (.hostMemAccess off (.own bs)) s = .next (devWrite s 0 (hostKey off) bs false) ∧
    exec (.hostMemAccess off (.bankRead p n)) s = .next (hostBank s p off (.read n)) ∧
    exec (.hostMemAccess off (.bankWrite p bs)) s = .next (hostBank s p off (.write bs false))) ∧
  (∀ s port, exec (.cxlLinkDown port) s = .next (((s.regions.filter fun g => s.cxlMap.any fun x => x.part == g.id.seq.part && x.port == port).map
    (·.id)).foldl (fun t r => raiseFault t r (bridgeFault 3 port)) { s with cxlUp := lmod s.cxlUp port fun _ => false })) ∧
  (∀ s port f x, s.sports[port]? = some x → x.stopped = false →
    (f.seq = x.recvSeq → f.typ.toNat < 5 → exec (.linkFlitReceive port f true) s =
      .next (takeFlit { s with sports := lmod s.sports port (SPort.took f) } port f)) ∧
    (x.refused + 1 < 8 → exec (.linkFlitReceive port f false) s =
      .next { s with sports := lmod s.sports port fun x => { x with refused := x.refused + 1 } })) ∧
  (∀ s port q x, s.sports[port]? = some x → x.stopped = false →
    (∀ st, remoteOwner s q = .error st → exec (.remoteAccessRequest port q) s = .next (respond s port q.tag [] st)) ∧
    (∀ p bs, remoteOwner s q = .ok p → q.write = some bs →
      exec (.remoteAccessRequest port q) s = .next (respond (devWrite s (partBinding s p) (dramKey q.die q.addr) bs q.poison) port q.tag [] 0)) ∧
    (∀ p, remoteOwner s q = .ok p → q.write = none → q.amo = none →
      let r := devRead s (partBinding s p) (dramKey q.die q.addr) q.len
      exec (.remoteAccessRequest port q) s = .next (respond s port q.tag r.1 (if r.2 then 2 else 0)))) ∧
  (∀ s port, port < 8 → (bridgeAt s port).stopped = true → (bridgeAt s port).faulted = [] →
    exec (.linkRetrain port) s = .next (setBridge s port { retries := (bridgeAt s port).retries }))

/-- R110, R335, R285, R290, R145, R151, R56, R249: a step of an agent whose turn it is runs the instruction that the word at its PC, in its stream, in its plane, at its REQ
port or at its command port decodes to, after the agenda has moved on; an event is its own
instruction. Out of turn an agent does nothing. The agenda is the model's (log 3). -/
def Obligations.StepRunsTheDecodedInstruction : Prop :=
  (∀ s a t i, s.agenda = .agent a :: t → agentTurn s a = true → fetch a s = some i →
    step s = exec i { s with agenda := t, actor := a, tick := s.tick + 1 }) ∧
  (∀ s r o k, agentTurn s (.cfg r) = true ∧ agentTurn s (.sp r o) = true ∧ agentTurn s (.me r o k) = true) ∧
  (∀ s u, contextsBefore s u = [] → agentTurn s (.node u) = true) ∧
  (∀ s c, (s.seqs.filter fun x => (seqOfKey x.1).part / 2 == c.part / 2 && seqAhead s (seqOfKey x.1) c).length < 4 → agentTurn s (.seq c) = true) ∧
  (∀ s a t, s.agenda = .agent a :: t → agentTurn s a = false → step s = .next { s with agenda := t, actor := a, tick := s.tick + 1 }) ∧
  (∀ s i t, s.agenda = .event i :: t → eventTurn s i = true → step s = exec i { s with agenda := t, actor := .idle, tick := s.tick + 1 }) ∧
  (∀ s c im w i, (seqAt s c).image = some im → im.hlen ≤ (seqAt s c).pc → im.code[(seqAt s c).pc]? = some w → decodeSeq w = .ok i →
    fetch (.seq c) s = some i) ∧
  (∀ s r rg f w l i, regionAt s r = some rg → rg.feed = some f → f.closed = false → f.words = w :: l → decodeCfg w = .ok i →
    fetch (.cfg r) s = some i) ∧
  (∀ s u rg i, regionAt s u.reg = some rg → decodeNode (nodeBits rg.plane u.off u.ctx) = .ok i → fetch (.node u) s = some i) ∧
  (∀ s r o rg k a b i, regionAt s r = some rg → reqPort rg o = some k → pairAtHead (spHeads rg o k) = some (a, b) →
    decodeSpb (b.pay ++ a.pay) = .ok i → fetch (.sp r o) s = some i) ∧
  (∀ s r o rg m k b i, meOf s r o = some (rg, m) → cfgPort rg o = some k → (blockHeads rg o k).head? = some b → decodeCmd b.pay = .ok i →
    fetch (.me r o meCap) s = some i) ∧
  (∀ s r o rg m k e, k ≠ meCap → meOf s r o = some (rg, m) → m.queue[k]? = some e → fetch (.me r o k) s = e.cmd)

/-- R192, R259, Tables 8-2, 8-14, 8-15, 14-5, 14-6: words that the specification writes out decode to what they stand for. -/
def Obligations.WordsDecodeAsTheTablesSay : Prop :=
  (decodeCfg 0x80004000#32).toOption = some (.setc 1 0) ∧ (decodeCfg 0x9FFFC000#32).toOption = some (.movc (-1) 0) ∧ (decodeCfg 0xA0000002#32).toOption = some (.autox 0 2) ∧
  (decodeCfg 0xB000C001#32).toOption = some (.rect 3 1) ∧ (decodeCfg 0xDF60A3C0#32).toOption = some (.ends 0xF60A3C0) ∧ (decodeCfg 0xE0004000#32).toOption = some (.hard 1 0) ∧
  (decodeCfg 0x0DC02300#32).toOption = some (.write 13 0xC02300) ∧
  (decodeCfg 0x0021B912#32).toOption = some (.write 0 0x21B912) ∧ (decodeCfg 0x01D4C000#32).toOption = some (.write 1 0xD4C000) ∧
  (decodeCfg 0x02003FC0#32).toOption = some (.write 2 0x003FC0) ∧
  (decodeNode 0x001807C00000000000#72).toOption = some (.iadd ⟨.i32, .rne, false, .a, .b, .none, true, false, false, 0, 0, 0, 0⟩) ∧
  (decodeNode 0x21B912D4C000003FC0#72).toOption =
    some (.ffma ⟨.bf16, .rne, true, .a, .lreg, .imm, true, false, true, 2, 3, 0, 0x3FC0⟩) ∧
  (decodeSeq 0b00000000011000010001000000000000#32).toOption = some (.add 3 1 2) ∧ (decodeSeq 0b01100000001000101111111111111110#32).toOption = some (.beq 1 2 0xFFFE) ∧
  (decodeSeq 0b11010000000000000000000000000000#32).toOption = some .halt ∧
  (decodeCmd (BitVec.ofNat 256 (0x03310204 * 2 ^ 224))).toOption = some (.mmul { (default : MCmd) with pmask := 3, bank := 1, nrow := 64, z := true }) ∧
  (payBytes (BitVec.ofNat 256 (0x03310204 * 2 ^ 224))).drop 28 = [0x04, 0x02, 0x31, 0x03]

/-- R381, R382: the measurement is zero at reset; before any SHAPE no die is shaped and no partition, region or context exists. The other values at
reset are the model's choice (log 2). -/
def Obligations.ResetMeasuresNothing : Prop :=
  State.reset.measure = List.replicate 64 0 ∧ State.reset.measureCount = 0 ∧ State.reset.pmap = 0 ∧ State.reset.regions = [] ∧ State.reset.seqs = [] ∧
  (∀ p, (partAt State.reset p).shape = 0)

/-- The model's memory (log 1) is in its canonical form at reset. -/
def Obligations.ResetMemoryIsCanonical : Prop := State.reset.Canonical

/-- The model's memory (log 1) keeps its canonical form over every step from any state. -/
def Obligations.StepsKeepMemoryCanonical : Prop := ∀ s t, s.Canonical → step s = .next t → t.Canonical

/-- An instruction that is none of those that store leaves every byte of memory as it was, where its context has no earlier access to send again. -/
def Obligations.OnlyStoresWriteMemory : Prop :=
  ∀ i s t, mayStore i = false → NoRetry s → exec i s = .next t → ∀ k, memGet t.mem k = memGet s.mem k

/-- R35, R52, R378: WRITE_PERFORM completes with a next state: a write that performs stores its bytes at its address and leaves every other byte; where it takes a line over from
another binding, the other bytes of that line are what this binding's key makes of them (log 9), so the clauses about single bytes ask for a line that stands
under this binding already. Then the access is counted, which stores a migration notice at
most, and none where the partition's queue of them is full, and its asker is answered. -/
def Obligations.WritesStoreTheirBytesOnly : Prop :=
  ∀ s id q bs, s.Canonical → (s.reqs.find? fun x => x.id == id) = some q → PlainWrite s q bs → bs ≠ [] →
    ∃ w t, exec (.writePerform id) s = .next t ∧ t = wrotePast (answer (countReq w q) q [] false) q ∧
      ((partAt w q.part).mnq.isFull (mnqCount (partAt w q.part)) = true → t.mem = w.mem) ∧
      (∀ j, j / 256 < q.key / 256 ∨ (q.key + bs.length - 1) / 256 < j / 256 → memGet w.mem j = memGet s.mem j) ∧
      (KeyedUnder s q.binding q.key bs.length →
        (∀ i b, bs[i]? = some b → memGet w.mem (q.key + i) = b) ∧
        (∀ j, j < q.key ∨ q.key + bs.length ≤ j → memGet w.mem j = memGet s.mem j))

/-- A node that acts changes its own region, the statistics on their way, and two counts of its own partition: purity violations and faults beyond
the first; a PUSH into an overflow buffer also sends the write of its beat; every other register, region and byte of memory stays. -/
def Obligations.NodesTouchTheirRegion : Prop :=
  ∀ i w s t u, encode i = .node w → s.actor = .node u → exec i s = .next t →
    t = { s with regions := t.regions, parts := t.parts, statLane := t.statLane, reqs := t.reqs, reqSeq := t.reqSeq } ∧
    ((∀ x, i ≠ .push x) → t.reqs = s.reqs ∧ t.reqSeq = s.reqSeq) ∧
    (∀ r, r ≠ u.reg → regionAt t r = regionAt s r) ∧
    (∀ p, p ≠ u.reg.seq.part → partAt t p = partAt s p) ∧
    (let x := partAt t u.reg.seq.part
     x = { partAt s u.reg.seq.part with agPurity := x.agPurity, fMore := x.fMore })

/-- R292, R295, R306: an arithmetic instruction of the sequencer writes its destination only, LOOP its counter and JAL g31; other branches and NOP
write no register, where the context has no earlier access to send again. -/
def Obligations.SequencerWritesItsRegisterOnly : Prop :=
  (∀ d a b, OnlyRegisters (.add d a b) [d] ∧ OnlyRegisters (.sub d a b) [d] ∧ OnlyRegisters (.mul d a b) [d] ∧ OnlyRegisters (.mulh d a b) [d] ∧
    OnlyRegisters (.div d a b) [d] ∧ OnlyRegisters (.rem d a b) [d] ∧ OnlyRegisters (.seqAnd d a b) [d] ∧ OnlyRegisters (.seqOr d a b) [d] ∧
    OnlyRegisters (.seqXor d a b) [d] ∧ OnlyRegisters (.seqShl d a b) [d] ∧ OnlyRegisters (.seqShr d a b) [d] ∧ OnlyRegisters (.seqSar d a b) [d] ∧
    OnlyRegisters (.slt d a b) [d] ∧ OnlyRegisters (.sltn d a b) [d]) ∧
  (∀ d a k, OnlyRegisters (.addi d a k) [d] ∧ OnlyRegisters (.andi d a k) [d] ∧ OnlyRegisters (.ori d a k) [d] ∧ OnlyRegisters (.xori d a k) [d] ∧
    OnlyRegisters (.lih d a k) [d]) ∧
  (∀ d a k, OnlyRegisters (.shli d a k) [d] ∧ OnlyRegisters (.shri d a k) [d] ∧ OnlyRegisters (.sari d a k) [d]) ∧
  (∀ a b o, OnlyRegisters (.beq a b o) [] ∧ OnlyRegisters (.bne a b o) [] ∧ OnlyRegisters (.blt a b o) [] ∧ OnlyRegisters (.bge a b o) []) ∧
  (∀ a o, OnlyRegisters (.loop a o) [a]) ∧ (∀ o, OnlyRegisters (.jmp o) []) ∧ (∀ o, OnlyRegisters (.jal o) [31]) ∧ (∀ a, OnlyRegisters (.jr a) []) ∧
  OnlyRegisters .seqNop []

/-- R145, R151, R249, R290 and the SPB formats: the words of a well-formed instruction decode to that instruction, with every operand. -/
def Obligations.EncodingsDecodeBack : Prop :=
  ∀ i, i.wf = true → encode i ≠ .none → (encode i).decode = some i
end

