-- ==== Sys2Proof/Laws/Bits.lean ====
section
/-! SUPPORT. The fields of concatenated words, and what the decoders read from an encoded node word, command beat and block. -/

namespace Sys2Proof

set_option linter.unusedSimpArgs false

theorem fld_low {m n : Nat} (a : BitVec m) (b : BitVec n) (lo k : Nat) (h : lo + k ≤ n) : fld (a ++ b) lo k = fld b lo k := by
  ext i hi
  simp only [fld, BitVec.getElem_extractLsb', BitVec.getLsbD_append]
  rw [if_pos (by omega)]

theorem fld_high {m n : Nat} (a : BitVec m) (b : BitVec n) (lo k : Nat) (h : n ≤ lo) : fld (a ++ b) lo k = fld a (lo - n) k := by
  ext i hi
  simp only [fld, BitVec.getElem_extractLsb', BitVec.getLsbD_append]
  rw [if_neg (by omega)]
  congr 1; omega

theorem fld_whole {n : Nat} (a : BitVec n) : fld a 0 n = a := by
  ext i hi
  simp [fld]

theorem bit_low {m n : Nat} (a : BitVec m) (b : BitVec n) (i : Nat) (h : i < n) : bit (a ++ b) i = bit b i := by
  simp [bit, BitVec.getLsbD_append, h]

theorem bit_high {m n : Nat} (a : BitVec m) (b : BitVec n) (i : Nat) (h : n ≤ i) : bit (a ++ b) i = bit a (i - n) := by
  simp only [bit, BitVec.getLsbD_append]; rw [if_neg (by omega)]

theorem bit_ofBool (b : Bool) : bit (BitVec.ofBool b) 0 = b := by cases b <;> rfl

theorem fmt_code (f : Fmt) : Fmt.ofCode f.code = f := by cases f <;> rfl

theorem rnd_code (f : Rnd) : Rnd.ofCode f.code = f := by cases f <;> rfl

theorem src_code (f : Src) : Src.ofCode f.code = f := by cases f <;> rfl

theorem node_fld (w : NodeWord) (o : BitVec 9) (lo k : Nat) : fld (w.bits o) lo k = @fld (9+4+2+1+3+3+3+1+1+1+3+3+6+32) (o ++ w.fmt.code ++ w.rnd.code ++ BitVec.ofBool w.sat ++ w.srcA.code ++ w.srcB.code ++ w.srcC.code
    ++ BitVec.ofBool w.dx ++ BitVec.ofBool w.dy ++ BitVec.ofBool w.dl ++ w.la ++ w.ld ++ w.aux ++ w.imm) lo k := rfl

theorem node_bit (w : NodeWord) (o : BitVec 9) (i : Nat) : bit (w.bits o) i = @bit (9+4+2+1+3+3+3+1+1+1+3+3+6+32) (o ++ w.fmt.code ++ w.rnd.code ++ BitVec.ofBool w.sat ++ w.srcA.code ++ w.srcB.code ++ w.srcC.code
    ++ BitVec.ofBool w.dx ++ BitVec.ofBool w.dy ++ BitVec.ofBool w.dl ++ w.la ++ w.ld ++ w.aux ++ w.imm) i := rfl

theorem node_opc (w : NodeWord) (o : BitVec 9) : fld (w.bits o) 63 9 = o := by
  simp (disch := decide) only [node_fld, fld_high]
  exact fld_whole o

theorem node_bits (w : NodeWord) (o : BitVec 9) : NodeWord.ofBits (w.bits o) = w := by
  simp only [NodeWord.ofBits]
  simp (disch := decide) only [node_fld, node_bit, fld_low, fld_high, bit_low, bit_high]
  simp [fld_whole, bit_ofBool, fmt_code, rnd_code, src_code]

theorem dec_node (w : NodeWord) (o : BitVec 9) (i : Instr) (h : nodeOfOpc o.toNat w = some i) : (decodeNode (w.bits o)).toOption = some i := by
  simp [decodeNode, node_bits, node_opc, h, Except.toOption]

theorem cmd_fld (w : MCmd) (o : BitVec 8) (lo k : Nat) :
    fld (w.bits o) lo k = @fld (8+4+2+2+6+7+1+14+4+4+4+2+1+1+1+4+191) (o ++ w.pmask ++ w.oport ++ w.bank ++ w.row0 ++ w.nrow
      ++ BitVec.ofBool w.z ++ w.tagb ++ w.fa.code ++ w.fb.code ++ w.fd.code ++ w.rnd.code ++ BitVec.ofBool w.sat ++ BitVec.ofBool w.eswap
      ++ BitVec.ofBool w.mon ++ w.mthr ++ w.rsv) lo k := rfl

theorem cmd_bit (w : MCmd) (o : BitVec 8) (k : Nat) :
    bit (w.bits o) k = @bit (8+4+2+2+6+7+1+14+4+4+4+2+1+1+1+4+191) (o ++ w.pmask ++ w.oport ++ w.bank ++ w.row0 ++ w.nrow
      ++ BitVec.ofBool w.z ++ w.tagb ++ w.fa.code ++ w.fb.code ++ w.fd.code ++ w.rnd.code ++ BitVec.ofBool w.sat ++ BitVec.ofBool w.eswap
      ++ BitVec.ofBool w.mon ++ w.mthr ++ w.rsv) k := rfl

theorem cmd_code (w : MCmd) (o : BitVec 8) : fld (w.bits o) 248 8 = o := by
  simp (disch := decide) only [cmd_fld, fld_high]
  exact fld_whole o

theorem cmd_bits (w : MCmd) (o : BitVec 8) : MCmd.ofBits (w.bits o) = w := by
  simp only [MCmd.ofBits]
  simp (disch := decide) only [cmd_fld, cmd_bit, fld_low, fld_high, bit_low, bit_high]
  simp [fld_whole, bit_ofBool, fmt_code, rnd_code]

theorem dec_cmd (w : MCmd) (o : BitVec 8) (i : Instr) (h : (match o.toNat with
    | 0x01 => some (Instr.mload w) | 0x02 => some (.mswap w) | 0x03 => some (.mmul w) | 0x04 => some (.mdrain w) | 0x05 => some (.mzero w)
    | 0x06 => some (.mfmt w) | 0x07 => some (.mmigr w) | 0x08 => some (.mcount w) | _ => none) = some i) :
    (decodeCmd (w.bits o)).toOption = some i := by
  unfold decodeCmd
  simp only [cmd_code, cmd_bits]
  (repeat' split at h) <;> simp_all [Except.toOption]

theorem head_fld (w : SpbHead) (o : BitVec 8) (lo k : Nat) :
    fld (w.bits o) lo k = @fld (32+2+14+5+3+8+16+16+1+1+2+2+2+2+2+2+2+4+1+1+1+1+8) (w.count ++ fld w.rsv 0 2 ++ w.tagb ++ fld w.rsv 2 5 ++ w.scope
    ++ w.etag ++ w.rdy ++ w.rdx ++ fld w.rsv 9 1 ++ BitVec.ofBool w.r2en ++ w.rctx ++ fld w.rsv 7 2 ++ w.rin
    ++ fld w.rsv 10 2 ++ w.r2port ++ w.dport ++ w.rport
    ++ w.fmt.code ++ BitVec.ofBool w.evt ++ BitVec.ofBool w.wr ++ BitVec.ofBool w.lastArg ++ fld w.rsv 12 1 ++ o) lo k := rfl

theorem head_bit (w : SpbHead) (o : BitVec 8) (k : Nat) :
    bit (w.bits o) k = @bit (32+2+14+5+3+8+16+16+1+1+2+2+2+2+2+2+2+4+1+1+1+1+8) (w.count ++ fld w.rsv 0 2 ++ w.tagb ++ fld w.rsv 2 5 ++ w.scope
    ++ w.etag ++ w.rdy ++ w.rdx ++ fld w.rsv 9 1 ++ BitVec.ofBool w.r2en ++ w.rctx ++ fld w.rsv 7 2 ++ w.rin
    ++ fld w.rsv 10 2 ++ w.r2port ++ w.dport ++ w.rport
    ++ w.fmt.code ++ BitVec.ofBool w.evt ++ BitVec.ofBool w.wr ++ BitVec.ofBool w.lastArg ++ fld w.rsv 12 1 ++ o) k := rfl

theorem spb_bit (x : BitVec 384) (y : BitVec 128) (k : Nat) : @bit 512 (x ++ y) k = @bit (384+128) (x ++ y) k := rfl

theorem rsv_join (r : BitVec 13) : (fld r 12 1 ++ fld r 10 2 ++ fld r 9 1 ++ fld r 7 2 ++ fld r 2 5 ++ fld r 0 2 : BitVec 13) = r := by
  ext i hi
  simp only [fld, BitVec.getElem_append, BitVec.getElem_extractLsb']
  (repeat' split) <;> (rw [← BitVec.getLsbD_eq_getElem]; congr 1; omega)

theorem rsv2_join (r : BitVec 4) : (fld r 2 2 ++ fld r 0 2 : BitVec 4) = r := by
  ext i hi
  simp only [fld, BitVec.getElem_append, BitVec.getElem_extractLsb']
  (repeat' split) <;> (rw [← BitVec.getLsbD_eq_getElem]; congr 1; omega)

theorem head_bits (h : SpbHead) (o : BitVec 8) (x : BitVec 384) : SpbHead.ofBits (x ++ h.bits o) = h := by
  simp only [SpbHead.ofBits]
  simp (disch := decide) only [fld_low, bit_low, head_fld, head_bit, fld_high, bit_high]
  simp only [Nat.reduceSub, fld_whole, bit_ofBool, fmt_code, rsv_join]

theorem spb_kind (h : SpbHead) (o : BitVec 8) (x : BitVec 384) : @fld 512 (x ++ h.bits o) 0 8 = o := by
  simp (disch := decide) only [fld_low, head_fld]
  exact fld_whole o

theorem lin_fld (w : LinBody) (lo k : Nat) : fld w.bits lo k = @fld (64+32+32+32+32+32+32+32+32+64) (w.rsv ++ w.s3 ++ w.e3 ++ w.s2 ++ w.e2 ++ w.s1 ++ w.e1 ++ w.s0 ++ w.e0 ++ w.base) lo k := rfl

theorem lin_bits (w : LinBody) (y : BitVec 128) : LinBody.ofBits (w.bits ++ y) = w := by
  simp only [LinBody.ofBits]
  simp (disch := decide) only [fld_high]
  simp (disch := decide) only [lin_fld, fld_low, fld_high]
  simp only [Nat.reduceSub, fld_whole]

theorem gath_fld (w : GathBody) (lo k : Nat) : fld w.bits lo k = @fld (32+32+16+8+8+32+32+32+64+64+64) (w.mlimit ++ w.nidx ++ w.rsv ++ w.isrc ++ w.depth ++ w.elen ++ w.estride ++ w.ilimit ++ w.mid ++ w.iva ++ w.base) lo k := rfl

theorem gath_bits (w : GathBody) (y : BitVec 128) : GathBody.ofBits (w.bits ++ y) = w := by
  simp only [GathBody.ofBits]
  simp (disch := decide) only [fld_high]
  simp (disch := decide) only [gath_fld, fld_low, fld_high]
  simp only [Nat.reduceSub, fld_whole]

theorem copy_fld (w : CopyBody) (lo k : Nat) : fld w.bits lo k = @fld (192+64+64+64) (w.rsv ++ w.len ++ w.dva ++ w.sva) lo k := rfl

theorem copy_bits (w : CopyBody) (y : BitVec 128) : CopyBody.ofBits (w.bits ++ y) = w := by
  simp only [CopyBody.ofBits]
  simp (disch := decide) only [fld_high]
  simp (disch := decide) only [copy_fld, fld_low, fld_high]
  simp only [Nat.reduceSub, fld_whole]

theorem fib_fld (w : FibBody) (lo k : Nat) : fld w.bits lo k = @fld (88+2+2+2+2+16+16+32+24+8+32+32+64+64) (w.rsv3 ++ fld w.rsv2 2 2 ++ w.r2ctx ++ fld w.rsv2 0 2 ++ w.r2in ++ w.r2dy ++ w.r2dx ++ w.climit ++ w.rsv1 ++ w.isrc ++ w.p1 ++ w.p0 ++ w.crdva ++ w.segva) lo k := rfl

theorem fib_bits (w : FibBody) (y : BitVec 128) : FibBody.ofBits (w.bits ++ y) = w := by
  simp only [FibBody.ofBits]
  simp (disch := decide) only [fld_high]
  simp (disch := decide) only [fib_fld, fld_low, fld_high]
  simp only [Nat.reduceSub, fld_whole, rsv2_join]

theorem hash_fld (w : HashBody) (lo k : Nat) : fld w.bits lo k = @fld (184+8+64+64+64) (w.rsv ++ w.dctx ++ w.len ++ w.dva ++ w.sva) lo k := rfl

theorem hash_bits (w : HashBody) (y : BitVec 128) : HashBody.ofBits (w.bits ++ y) = w := by
  simp only [HashBody.ofBits]
  simp (disch := decide) only [fld_high]
  simp (disch := decide) only [hash_fld, fld_low, fld_high]
  simp only [Nat.reduceSub, fld_whole]

theorem pref_fld (w : PrefBody) (lo k : Nat) : fld w.bits lo k = @fld (256+64+64) (w.rsv ++ w.len ++ w.va) lo k := rfl

theorem pref_bits (w : PrefBody) (y : BitVec 128) : PrefBody.ofBits (w.bits ++ y) = w := by
  simp only [PrefBody.ofBits]
  simp (disch := decide) only [fld_high]
  simp (disch := decide) only [pref_fld, fld_low, fld_high]
  simp only [Nat.reduceSub, fld_whole]

theorem flush_bits (w : BitVec 384) (y : BitVec 128) : @fld 512 (w ++ y) 128 384 = w := by
  simp (disch := decide) only [fld_high]
  exact fld_whole w

theorem seqR_fld (op : BitVec 6) (d a b : BitVec 5) (f : BitVec 11) (lo k : Nat) :
    @fld 32 (op ++ d ++ a ++ b ++ f) lo k = @fld (6+5+5+5+11) (op ++ d ++ a ++ b ++ f) lo k := rfl

theorem seqR_bit (op : BitVec 6) (d a b : BitVec 5) (f : BitVec 11) (k : Nat) :
    @bit 32 (op ++ d ++ a ++ b ++ f) k = @bit (6+5+5+5+11) (op ++ d ++ a ++ b ++ f) k := rfl

theorem seqI_fld (op : BitVec 6) (d a : BitVec 5) (i : BitVec 16) (lo k : Nat) :
    @fld 32 (op ++ d ++ a ++ i) lo k = @fld (6+5+5+16) (op ++ d ++ a ++ i) lo k := rfl

theorem seqJ_fld (op : BitVec 6) (i : BitVec 26) (lo k : Nat) : @fld 32 (op ++ i) lo k = @fld (6+26) (op ++ i) lo k := rfl

theorem cfgC_fld (b : BitVec 1) (op : BitVec 3) (x y : BitVec 14) (lo k : Nat) :
    @fld 32 (b ++ op ++ x ++ y) lo k = @fld (1+3+14+14) (b ++ op ++ x ++ y) lo k := rfl

theorem cfgC_bit (b : BitVec 1) (op : BitVec 3) (x y : BitVec 14) (k : Nat) :
    @bit 32 (b ++ op ++ x ++ y) k = @bit (1+3+14+14) (b ++ op ++ x ++ y) k := rfl

theorem cfgW_fld (b : BitVec 1) (f : BitVec 7) (v : BitVec 24) (lo k : Nat) :
    @fld 32 (b ++ f ++ v) lo k = @fld (1+7+24) (b ++ f ++ v) lo k := rfl

theorem cfgE_fld (b : BitVec 4) (x : BitVec 28) (lo k : Nat) : @fld 32 (b ++ x) lo k = @fld (4+28) (b ++ x) lo k := rfl

theorem cfgE_bit (b : BitVec 4) (x : BitVec 28) (k : Nat) : @bit 32 (b ++ x) k = @bit (4+28) (b ++ x) k := rfl

theorem seqF_fld (b : BitVec 6) (z : BitVec 23) (x : BitVec 3) (lo k : Nat) : @fld 32 (b ++ z ++ x) lo k = @fld (6+23+3) (b ++ z ++ x) lo k := rfl

theorem seqT_fld (b : BitVec 6) (z : BitVec 18) (x : BitVec 8) (lo k : Nat) : @fld 32 (b ++ z ++ x) lo k = @fld (6+18+8) (b ++ z ++ x) lo k := rfl

theorem cfgW_bit (b : BitVec 1) (f : BitVec 7) (v : BitVec 24) (k : Nat) :
    @bit 32 (b ++ f ++ v) k = @bit (1+7+24) (b ++ f ++ v) k := rfl

end Sys2Proof
end

