-- ==== Sys2Proof/Laws/State.lean ====
section
/-! SUPPORT. What each update of a record leaves alone, field by field, and what it sets. -/

namespace Sys2Proof.Machine

/-! ### The state -/

@[simp] theorem setRegion_cycle (s : State) (rg : Region) : (setRegion s rg).cycle = s.cycle := rfl
@[simp] theorem setRegion_tick (s : State) (rg : Region) : (setRegion s rg).tick = s.tick := rfl
@[simp] theorem setRegion_agenda (s : State) (rg : Region) : (setRegion s rg).agenda = s.agenda := rfl
@[simp] theorem setRegion_actor (s : State) (rg : Region) : (setRegion s rg).actor = s.actor := rfl
@[simp] theorem setRegion_mem (s : State) (rg : Region) : (setRegion s rg).mem = s.mem := rfl
@[simp] theorem setRegion_memPois (s : State) (rg : Region) : (setRegion s rg).memPois = s.memPois := rfl
@[simp] theorem setRegion_lineKey (s : State) (rg : Region) : (setRegion s rg).lineKey = s.lineKey := rfl
@[simp] theorem setRegion_pmap (s : State) (rg : Region) : (setRegion s rg).pmap = s.pmap := rfl
@[simp] theorem setRegion_shaped (s : State) (rg : Region) : (setRegion s rg).shaped = s.shaped := rfl
@[simp] theorem setRegion_modId (s : State) (rg : Region) : (setRegion s rg).modId = s.modId := rfl
@[simp] theorem setRegion_domSize (s : State) (rg : Region) : (setRegion s rg).domSize = s.domSize := rfl
@[simp] theorem setRegion_fwStat (s : State) (rg : Region) : (setRegion s rg).fwStat = s.fwStat := rfl
@[simp] theorem setRegion_fwVersion (s : State) (rg : Region) : (setRegion s rg).fwVersion = s.fwVersion := rfl
@[simp] theorem setRegion_mbAddr (s : State) (rg : Region) : (setRegion s rg).mbAddr = s.mbAddr := rfl
@[simp] theorem setRegion_mbCmd (s : State) (rg : Region) : (setRegion s rg).mbCmd = s.mbCmd := rfl
@[simp] theorem setRegion_mbBusy (s : State) (rg : Region) : (setRegion s rg).mbBusy = s.mbBusy := rfl
@[simp] theorem setRegion_mbRun (s : State) (rg : Region) : (setRegion s rg).mbRun = s.mbRun := rfl
@[simp] theorem setRegion_mbDone (s : State) (rg : Region) : (setRegion s rg).mbDone = s.mbDone := rfl
@[simp] theorem setRegion_mbResult (s : State) (rg : Region) : (setRegion s rg).mbResult = s.mbResult := rfl
@[simp] theorem setRegion_mbOut (s : State) (rg : Region) : (setRegion s rg).mbOut = s.mbOut := rfl
@[simp] theorem setRegion_mbIrqs (s : State) (rg : Region) : (setRegion s rg).mbIrqs = s.mbIrqs := rfl
@[simp] theorem setRegion_krvCnt (s : State) (rg : Region) : (setRegion s rg).krvCnt = s.krvCnt := rfl
@[simp] theorem setRegion_measure (s : State) (rg : Region) : (setRegion s rg).measure = s.measure := rfl
@[simp] theorem setRegion_measureCount (s : State) (rg : Region) : (setRegion s rg).measureCount = s.measureCount := rfl
@[simp] theorem setRegion_slots (s : State) (rg : Region) : (setRegion s rg).slots = s.slots := rfl
@[simp] theorem setRegion_bindings (s : State) (rg : Region) : (setRegion s rg).bindings = s.bindings := rfl
@[simp] theorem setRegion_cxlMap (s : State) (rg : Region) : (setRegion s rg).cxlMap = s.cxlMap := rfl
@[simp] theorem setRegion_cxlUp (s : State) (rg : Region) : (setRegion s rg).cxlUp = s.cxlUp := rfl
@[simp] theorem setRegion_cxlCap (s : State) (rg : Region) : (setRegion s rg).cxlCap = s.cxlCap := rfl
@[simp] theorem setRegion_bridges (s : State) (rg : Region) : (setRegion s rg).bridges = s.bridges := rfl
@[simp] theorem setRegion_sports (s : State) (rg : Region) : (setRegion s rg).sports = s.sports := rfl
@[simp] theorem setRegion_parts (s : State) (rg : Region) : (setRegion s rg).parts = s.parts := rfl
@[simp] theorem setRegion_seqs (s : State) (rg : Region) : (setRegion s rg).seqs = s.seqs := rfl
@[simp] theorem setRegion_images (s : State) (rg : Region) : (setRegion s rg).images = s.images := rfl
@[simp] theorem setRegion_reqs (s : State) (rg : Region) : (setRegion s rg).reqs = s.reqs := rfl
@[simp] theorem setRegion_walks (s : State) (rg : Region) : (setRegion s rg).walks = s.walks := rfl
@[simp] theorem setRegion_walkTurn (s : State) (rg : Region) : (setRegion s rg).walkTurn = s.walkTurn := rfl
@[simp] theorem setRegion_far (s : State) (rg : Region) : (setRegion s rg).far = s.far := rfl
@[simp] theorem setRegion_statLane (s : State) (rg : Region) : (setRegion s rg).statLane = s.statLane := rfl
@[simp] theorem setRegion_evLane (s : State) (rg : Region) : (setRegion s rg).evLane = s.evLane := rfl
@[simp] theorem setRegion_evFired (s : State) (rg : Region) : (setRegion s rg).evFired = s.evFired := rfl
@[simp] theorem setRegion_scrubbing (s : State) (rg : Region) : (setRegion s rg).scrubbing = s.scrubbing := rfl
@[simp] theorem setRegion_fseq (s : State) (rg : Region) : (setRegion s rg).fseq = s.fseq := rfl
@[simp] theorem setRegion_reqSeq (s : State) (rg : Region) : (setRegion s rg).reqSeq = s.reqSeq := rfl
@[simp] theorem setRegion_hostReads (s : State) (rg : Region) : (setRegion s rg).hostReads = s.hostReads := rfl
@[simp] theorem setRegion_hostHeld (s : State) (rg : Region) : (setRegion s rg).hostHeld = s.hostHeld := rfl
@[simp] theorem setRegion_pools (s : State) (rg : Region) : (setRegion s rg).pools = s.pools := rfl
@[simp] theorem setRegion_romDigest (s : State) (rg : Region) : (setRegion s rg).romDigest = s.romDigest := rfl
@[simp] theorem setRegion_fusedVersion (s : State) (rg : Region) : (setRegion s rg).fusedVersion = s.fusedVersion := rfl
@[simp] theorem setRegion_idKey (s : State) (rg : Region) : (setRegion s rg).idKey = s.idKey := rfl
@[simp] theorem setRegion_certChain (s : State) (rg : Region) : (setRegion s rg).certChain = s.certChain := rfl

@[simp] theorem setRegion_regions (s : State) (rg : Region) :
    (setRegion s rg).regions = s.regions.map fun x => if x.id == rg.id then rg else x := rfl

@[simp] theorem setPart_cycle (s : State) (p : Nat) (x : Part) : (setPart s p x).cycle = s.cycle := rfl
@[simp] theorem setPart_tick (s : State) (p : Nat) (x : Part) : (setPart s p x).tick = s.tick := rfl
@[simp] theorem setPart_agenda (s : State) (p : Nat) (x : Part) : (setPart s p x).agenda = s.agenda := rfl
@[simp] theorem setPart_actor (s : State) (p : Nat) (x : Part) : (setPart s p x).actor = s.actor := rfl
@[simp] theorem setPart_mem (s : State) (p : Nat) (x : Part) : (setPart s p x).mem = s.mem := rfl
@[simp] theorem setPart_memPois (s : State) (p : Nat) (x : Part) : (setPart s p x).memPois = s.memPois := rfl
@[simp] theorem setPart_lineKey (s : State) (p : Nat) (x : Part) : (setPart s p x).lineKey = s.lineKey := rfl
@[simp] theorem setPart_pmap (s : State) (p : Nat) (x : Part) : (setPart s p x).pmap = s.pmap := rfl
@[simp] theorem setPart_shaped (s : State) (p : Nat) (x : Part) : (setPart s p x).shaped = s.shaped := rfl
@[simp] theorem setPart_modId (s : State) (p : Nat) (x : Part) : (setPart s p x).modId = s.modId := rfl
@[simp] theorem setPart_domSize (s : State) (p : Nat) (x : Part) : (setPart s p x).domSize = s.domSize := rfl
@[simp] theorem setPart_fwStat (s : State) (p : Nat) (x : Part) : (setPart s p x).fwStat = s.fwStat := rfl
@[simp] theorem setPart_fwVersion (s : State) (p : Nat) (x : Part) : (setPart s p x).fwVersion = s.fwVersion := rfl
@[simp] theorem setPart_mbAddr (s : State) (p : Nat) (x : Part) : (setPart s p x).mbAddr = s.mbAddr := rfl
@[simp] theorem setPart_mbCmd (s : State) (p : Nat) (x : Part) : (setPart s p x).mbCmd = s.mbCmd := rfl
@[simp] theorem setPart_mbBusy (s : State) (p : Nat) (x : Part) : (setPart s p x).mbBusy = s.mbBusy := rfl
@[simp] theorem setPart_mbRun (s : State) (p : Nat) (x : Part) : (setPart s p x).mbRun = s.mbRun := rfl
@[simp] theorem setPart_mbDone (s : State) (p : Nat) (x : Part) : (setPart s p x).mbDone = s.mbDone := rfl
@[simp] theorem setPart_mbResult (s : State) (p : Nat) (x : Part) : (setPart s p x).mbResult = s.mbResult := rfl
@[simp] theorem setPart_mbOut (s : State) (p : Nat) (x : Part) : (setPart s p x).mbOut = s.mbOut := rfl
@[simp] theorem setPart_mbIrqs (s : State) (p : Nat) (x : Part) : (setPart s p x).mbIrqs = s.mbIrqs := rfl
@[simp] theorem setPart_krvCnt (s : State) (p : Nat) (x : Part) : (setPart s p x).krvCnt = s.krvCnt := rfl
@[simp] theorem setPart_measure (s : State) (p : Nat) (x : Part) : (setPart s p x).measure = s.measure := rfl
@[simp] theorem setPart_measureCount (s : State) (p : Nat) (x : Part) : (setPart s p x).measureCount = s.measureCount := rfl
@[simp] theorem setPart_slots (s : State) (p : Nat) (x : Part) : (setPart s p x).slots = s.slots := rfl
@[simp] theorem setPart_bindings (s : State) (p : Nat) (x : Part) : (setPart s p x).bindings = s.bindings := rfl
@[simp] theorem setPart_cxlMap (s : State) (p : Nat) (x : Part) : (setPart s p x).cxlMap = s.cxlMap := rfl
@[simp] theorem setPart_cxlUp (s : State) (p : Nat) (x : Part) : (setPart s p x).cxlUp = s.cxlUp := rfl
@[simp] theorem setPart_cxlCap (s : State) (p : Nat) (x : Part) : (setPart s p x).cxlCap = s.cxlCap := rfl
@[simp] theorem setPart_bridges (s : State) (p : Nat) (x : Part) : (setPart s p x).bridges = s.bridges := rfl
@[simp] theorem setPart_sports (s : State) (p : Nat) (x : Part) : (setPart s p x).sports = s.sports := rfl
@[simp] theorem setPart_seqs (s : State) (p : Nat) (x : Part) : (setPart s p x).seqs = s.seqs := rfl
@[simp] theorem setPart_images (s : State) (p : Nat) (x : Part) : (setPart s p x).images = s.images := rfl
@[simp] theorem setPart_regions (s : State) (p : Nat) (x : Part) : (setPart s p x).regions = s.regions := rfl
@[simp] theorem setPart_reqs (s : State) (p : Nat) (x : Part) : (setPart s p x).reqs = s.reqs := rfl
@[simp] theorem setPart_walks (s : State) (p : Nat) (x : Part) : (setPart s p x).walks = s.walks := rfl
@[simp] theorem setPart_walkTurn (s : State) (p : Nat) (x : Part) : (setPart s p x).walkTurn = s.walkTurn := rfl
@[simp] theorem setPart_far (s : State) (p : Nat) (x : Part) : (setPart s p x).far = s.far := rfl
@[simp] theorem setPart_statLane (s : State) (p : Nat) (x : Part) : (setPart s p x).statLane = s.statLane := rfl
@[simp] theorem setPart_evLane (s : State) (p : Nat) (x : Part) : (setPart s p x).evLane = s.evLane := rfl
@[simp] theorem setPart_evFired (s : State) (p : Nat) (x : Part) : (setPart s p x).evFired = s.evFired := rfl
@[simp] theorem setPart_scrubbing (s : State) (p : Nat) (x : Part) : (setPart s p x).scrubbing = s.scrubbing := rfl
@[simp] theorem setPart_fseq (s : State) (p : Nat) (x : Part) : (setPart s p x).fseq = s.fseq := rfl
@[simp] theorem setPart_reqSeq (s : State) (p : Nat) (x : Part) : (setPart s p x).reqSeq = s.reqSeq := rfl
@[simp] theorem setPart_hostReads (s : State) (p : Nat) (x : Part) : (setPart s p x).hostReads = s.hostReads := rfl
@[simp] theorem setPart_hostHeld (s : State) (p : Nat) (x : Part) : (setPart s p x).hostHeld = s.hostHeld := rfl
@[simp] theorem setPart_pools (s : State) (p : Nat) (x : Part) : (setPart s p x).pools = s.pools := rfl
@[simp] theorem setPart_romDigest (s : State) (p : Nat) (x : Part) : (setPart s p x).romDigest = s.romDigest := rfl
@[simp] theorem setPart_fusedVersion (s : State) (p : Nat) (x : Part) : (setPart s p x).fusedVersion = s.fusedVersion := rfl
@[simp] theorem setPart_idKey (s : State) (p : Nat) (x : Part) : (setPart s p x).idKey = s.idKey := rfl
@[simp] theorem setPart_certChain (s : State) (p : Nat) (x : Part) : (setPart s p x).certChain = s.certChain := rfl

@[simp] theorem setPart_parts (s : State) (p : Nat) (x : Part) : (setPart s p x).parts = lmod s.parts p fun _ => x := rfl

@[simp] theorem setSeq_cycle (s : State) (c : SeqId) (q : Seq) : (setSeq s c q).cycle = s.cycle := rfl
@[simp] theorem setSeq_tick (s : State) (c : SeqId) (q : Seq) : (setSeq s c q).tick = s.tick := rfl
@[simp] theorem setSeq_agenda (s : State) (c : SeqId) (q : Seq) : (setSeq s c q).agenda = s.agenda := rfl
@[simp] theorem setSeq_actor (s : State) (c : SeqId) (q : Seq) : (setSeq s c q).actor = s.actor := rfl
@[simp] theorem setSeq_mem (s : State) (c : SeqId) (q : Seq) : (setSeq s c q).mem = s.mem := rfl
@[simp] theorem setSeq_memPois (s : State) (c : SeqId) (q : Seq) : (setSeq s c q).memPois = s.memPois := rfl
@[simp] theorem setSeq_lineKey (s : State) (c : SeqId) (q : Seq) : (setSeq s c q).lineKey = s.lineKey := rfl
@[simp] theorem setSeq_pmap (s : State) (c : SeqId) (q : Seq) : (setSeq s c q).pmap = s.pmap := rfl
@[simp] theorem setSeq_shaped (s : State) (c : SeqId) (q : Seq) : (setSeq s c q).shaped = s.shaped := rfl
@[simp] theorem setSeq_modId (s : State) (c : SeqId) (q : Seq) : (setSeq s c q).modId = s.modId := rfl
@[simp] theorem setSeq_domSize (s : State) (c : SeqId) (q : Seq) : (setSeq s c q).domSize = s.domSize := rfl
@[simp] theorem setSeq_fwStat (s : State) (c : SeqId) (q : Seq) : (setSeq s c q).fwStat = s.fwStat := rfl
@[simp] theorem setSeq_fwVersion (s : State) (c : SeqId) (q : Seq) : (setSeq s c q).fwVersion = s.fwVersion := rfl
@[simp] theorem setSeq_mbAddr (s : State) (c : SeqId) (q : Seq) : (setSeq s c q).mbAddr = s.mbAddr := rfl
@[simp] theorem setSeq_mbCmd (s : State) (c : SeqId) (q : Seq) : (setSeq s c q).mbCmd = s.mbCmd := rfl
@[simp] theorem setSeq_mbBusy (s : State) (c : SeqId) (q : Seq) : (setSeq s c q).mbBusy = s.mbBusy := rfl
@[simp] theorem setSeq_mbRun (s : State) (c : SeqId) (q : Seq) : (setSeq s c q).mbRun = s.mbRun := rfl
@[simp] theorem setSeq_mbDone (s : State) (c : SeqId) (q : Seq) : (setSeq s c q).mbDone = s.mbDone := rfl
@[simp] theorem setSeq_mbResult (s : State) (c : SeqId) (q : Seq) : (setSeq s c q).mbResult = s.mbResult := rfl
@[simp] theorem setSeq_mbOut (s : State) (c : SeqId) (q : Seq) : (setSeq s c q).mbOut = s.mbOut := rfl
@[simp] theorem setSeq_mbIrqs (s : State) (c : SeqId) (q : Seq) : (setSeq s c q).mbIrqs = s.mbIrqs := rfl
@[simp] theorem setSeq_krvCnt (s : State) (c : SeqId) (q : Seq) : (setSeq s c q).krvCnt = s.krvCnt := rfl
@[simp] theorem setSeq_measure (s : State) (c : SeqId) (q : Seq) : (setSeq s c q).measure = s.measure := rfl
@[simp] theorem setSeq_measureCount (s : State) (c : SeqId) (q : Seq) : (setSeq s c q).measureCount = s.measureCount := rfl
@[simp] theorem setSeq_slots (s : State) (c : SeqId) (q : Seq) : (setSeq s c q).slots = s.slots := rfl
@[simp] theorem setSeq_bindings (s : State) (c : SeqId) (q : Seq) : (setSeq s c q).bindings = s.bindings := rfl
@[simp] theorem setSeq_cxlMap (s : State) (c : SeqId) (q : Seq) : (setSeq s c q).cxlMap = s.cxlMap := rfl
@[simp] theorem setSeq_cxlUp (s : State) (c : SeqId) (q : Seq) : (setSeq s c q).cxlUp = s.cxlUp := rfl
@[simp] theorem setSeq_cxlCap (s : State) (c : SeqId) (q : Seq) : (setSeq s c q).cxlCap = s.cxlCap := rfl
@[simp] theorem setSeq_bridges (s : State) (c : SeqId) (q : Seq) : (setSeq s c q).bridges = s.bridges := rfl
@[simp] theorem setSeq_sports (s : State) (c : SeqId) (q : Seq) : (setSeq s c q).sports = s.sports := rfl
@[simp] theorem setSeq_parts (s : State) (c : SeqId) (q : Seq) : (setSeq s c q).parts = s.parts := rfl
@[simp] theorem setSeq_images (s : State) (c : SeqId) (q : Seq) : (setSeq s c q).images = s.images := rfl
@[simp] theorem setSeq_regions (s : State) (c : SeqId) (q : Seq) : (setSeq s c q).regions = s.regions := rfl
@[simp] theorem setSeq_reqs (s : State) (c : SeqId) (q : Seq) : (setSeq s c q).reqs = s.reqs := rfl
@[simp] theorem setSeq_walks (s : State) (c : SeqId) (q : Seq) : (setSeq s c q).walks = s.walks := rfl
@[simp] theorem setSeq_walkTurn (s : State) (c : SeqId) (q : Seq) : (setSeq s c q).walkTurn = s.walkTurn := rfl
@[simp] theorem setSeq_far (s : State) (c : SeqId) (q : Seq) : (setSeq s c q).far = s.far := rfl
@[simp] theorem setSeq_statLane (s : State) (c : SeqId) (q : Seq) : (setSeq s c q).statLane = s.statLane := rfl
@[simp] theorem setSeq_evLane (s : State) (c : SeqId) (q : Seq) : (setSeq s c q).evLane = s.evLane := rfl
@[simp] theorem setSeq_evFired (s : State) (c : SeqId) (q : Seq) : (setSeq s c q).evFired = s.evFired := rfl
@[simp] theorem setSeq_scrubbing (s : State) (c : SeqId) (q : Seq) : (setSeq s c q).scrubbing = s.scrubbing := rfl
@[simp] theorem setSeq_fseq (s : State) (c : SeqId) (q : Seq) : (setSeq s c q).fseq = s.fseq := rfl
@[simp] theorem setSeq_reqSeq (s : State) (c : SeqId) (q : Seq) : (setSeq s c q).reqSeq = s.reqSeq := rfl
@[simp] theorem setSeq_hostReads (s : State) (c : SeqId) (q : Seq) : (setSeq s c q).hostReads = s.hostReads := rfl
@[simp] theorem setSeq_hostHeld (s : State) (c : SeqId) (q : Seq) : (setSeq s c q).hostHeld = s.hostHeld := rfl
@[simp] theorem setSeq_pools (s : State) (c : SeqId) (q : Seq) : (setSeq s c q).pools = s.pools := rfl
@[simp] theorem setSeq_romDigest (s : State) (c : SeqId) (q : Seq) : (setSeq s c q).romDigest = s.romDigest := rfl
@[simp] theorem setSeq_fusedVersion (s : State) (c : SeqId) (q : Seq) : (setSeq s c q).fusedVersion = s.fusedVersion := rfl
@[simp] theorem setSeq_idKey (s : State) (c : SeqId) (q : Seq) : (setSeq s c q).idKey = s.idKey := rfl
@[simp] theorem setSeq_certChain (s : State) (c : SeqId) (q : Seq) : (setSeq s c q).certChain = s.certChain := rfl

@[simp] theorem setSeq_seqs (s : State) (c : SeqId) (q : Seq) : (setSeq s c q).seqs = aset s.seqs (seqKey c) q := rfl

@[simp] theorem begin_cycle (s : State) (a : Actor) : (s.begin a).cycle = s.cycle := rfl
@[simp] theorem begin_mem (s : State) (a : Actor) : (s.begin a).mem = s.mem := rfl
@[simp] theorem begin_memPois (s : State) (a : Actor) : (s.begin a).memPois = s.memPois := rfl
@[simp] theorem begin_lineKey (s : State) (a : Actor) : (s.begin a).lineKey = s.lineKey := rfl
@[simp] theorem begin_pmap (s : State) (a : Actor) : (s.begin a).pmap = s.pmap := rfl
@[simp] theorem begin_shaped (s : State) (a : Actor) : (s.begin a).shaped = s.shaped := rfl
@[simp] theorem begin_modId (s : State) (a : Actor) : (s.begin a).modId = s.modId := rfl
@[simp] theorem begin_domSize (s : State) (a : Actor) : (s.begin a).domSize = s.domSize := rfl
@[simp] theorem begin_fwStat (s : State) (a : Actor) : (s.begin a).fwStat = s.fwStat := rfl
@[simp] theorem begin_fwVersion (s : State) (a : Actor) : (s.begin a).fwVersion = s.fwVersion := rfl
@[simp] theorem begin_mbAddr (s : State) (a : Actor) : (s.begin a).mbAddr = s.mbAddr := rfl
@[simp] theorem begin_mbCmd (s : State) (a : Actor) : (s.begin a).mbCmd = s.mbCmd := rfl
@[simp] theorem begin_mbBusy (s : State) (a : Actor) : (s.begin a).mbBusy = s.mbBusy := rfl
@[simp] theorem begin_mbRun (s : State) (a : Actor) : (s.begin a).mbRun = s.mbRun := rfl
@[simp] theorem begin_mbDone (s : State) (a : Actor) : (s.begin a).mbDone = s.mbDone := rfl
@[simp] theorem begin_mbResult (s : State) (a : Actor) : (s.begin a).mbResult = s.mbResult := rfl
@[simp] theorem begin_mbOut (s : State) (a : Actor) : (s.begin a).mbOut = s.mbOut := rfl
@[simp] theorem begin_mbIrqs (s : State) (a : Actor) : (s.begin a).mbIrqs = s.mbIrqs := rfl
@[simp] theorem begin_krvCnt (s : State) (a : Actor) : (s.begin a).krvCnt = s.krvCnt := rfl
@[simp] theorem begin_measure (s : State) (a : Actor) : (s.begin a).measure = s.measure := rfl
@[simp] theorem begin_measureCount (s : State) (a : Actor) : (s.begin a).measureCount = s.measureCount := rfl
@[simp] theorem begin_slots (s : State) (a : Actor) : (s.begin a).slots = s.slots := rfl
@[simp] theorem begin_bindings (s : State) (a : Actor) : (s.begin a).bindings = s.bindings := rfl
@[simp] theorem begin_cxlMap (s : State) (a : Actor) : (s.begin a).cxlMap = s.cxlMap := rfl
@[simp] theorem begin_cxlUp (s : State) (a : Actor) : (s.begin a).cxlUp = s.cxlUp := rfl
@[simp] theorem begin_cxlCap (s : State) (a : Actor) : (s.begin a).cxlCap = s.cxlCap := rfl
@[simp] theorem begin_bridges (s : State) (a : Actor) : (s.begin a).bridges = s.bridges := rfl
@[simp] theorem begin_sports (s : State) (a : Actor) : (s.begin a).sports = s.sports := rfl
@[simp] theorem begin_parts (s : State) (a : Actor) : (s.begin a).parts = s.parts := rfl
@[simp] theorem begin_seqs (s : State) (a : Actor) : (s.begin a).seqs = s.seqs := rfl
@[simp] theorem begin_images (s : State) (a : Actor) : (s.begin a).images = s.images := rfl
@[simp] theorem begin_regions (s : State) (a : Actor) : (s.begin a).regions = s.regions := rfl
@[simp] theorem begin_reqs (s : State) (a : Actor) : (s.begin a).reqs = s.reqs := rfl
@[simp] theorem begin_walks (s : State) (a : Actor) : (s.begin a).walks = s.walks := rfl
@[simp] theorem begin_walkTurn (s : State) (a : Actor) : (s.begin a).walkTurn = s.walkTurn := rfl
@[simp] theorem begin_far (s : State) (a : Actor) : (s.begin a).far = s.far := rfl
@[simp] theorem begin_statLane (s : State) (a : Actor) : (s.begin a).statLane = s.statLane := rfl
@[simp] theorem begin_evLane (s : State) (a : Actor) : (s.begin a).evLane = s.evLane := rfl
@[simp] theorem begin_evFired (s : State) (a : Actor) : (s.begin a).evFired = s.evFired := rfl
@[simp] theorem begin_scrubbing (s : State) (a : Actor) : (s.begin a).scrubbing = s.scrubbing := rfl
@[simp] theorem begin_fseq (s : State) (a : Actor) : (s.begin a).fseq = s.fseq := rfl
@[simp] theorem begin_reqSeq (s : State) (a : Actor) : (s.begin a).reqSeq = s.reqSeq := rfl
@[simp] theorem begin_hostReads (s : State) (a : Actor) : (s.begin a).hostReads = s.hostReads := rfl
@[simp] theorem begin_hostHeld (s : State) (a : Actor) : (s.begin a).hostHeld = s.hostHeld := rfl
@[simp] theorem begin_pools (s : State) (a : Actor) : (s.begin a).pools = s.pools := rfl
@[simp] theorem begin_romDigest (s : State) (a : Actor) : (s.begin a).romDigest = s.romDigest := rfl
@[simp] theorem begin_fusedVersion (s : State) (a : Actor) : (s.begin a).fusedVersion = s.fusedVersion := rfl
@[simp] theorem begin_idKey (s : State) (a : Actor) : (s.begin a).idKey = s.idKey := rfl
@[simp] theorem begin_certChain (s : State) (a : Actor) : (s.begin a).certChain = s.certChain := rfl

@[simp] theorem begin_agenda (s : State) (a : Actor) : (s.begin a).agenda = s.agenda.tail := rfl
@[simp] theorem begin_actor (s : State) (a : Actor) : (s.begin a).actor = a := rfl
@[simp] theorem begin_tick (s : State) (a : Actor) : (s.begin a).tick = s.tick + 1 := rfl

@[simp] theorem elapse_tick (n : Nat) (s : State) : (elapse n s).tick = s.tick := rfl
@[simp] theorem elapse_agenda (n : Nat) (s : State) : (elapse n s).agenda = s.agenda := rfl
@[simp] theorem elapse_actor (n : Nat) (s : State) : (elapse n s).actor = s.actor := rfl
@[simp] theorem elapse_mem (n : Nat) (s : State) : (elapse n s).mem = s.mem := rfl
@[simp] theorem elapse_memPois (n : Nat) (s : State) : (elapse n s).memPois = s.memPois := rfl
@[simp] theorem elapse_lineKey (n : Nat) (s : State) : (elapse n s).lineKey = s.lineKey := rfl
@[simp] theorem elapse_pmap (n : Nat) (s : State) : (elapse n s).pmap = s.pmap := rfl
@[simp] theorem elapse_shaped (n : Nat) (s : State) : (elapse n s).shaped = s.shaped := rfl
@[simp] theorem elapse_modId (n : Nat) (s : State) : (elapse n s).modId = s.modId := rfl
@[simp] theorem elapse_domSize (n : Nat) (s : State) : (elapse n s).domSize = s.domSize := rfl
@[simp] theorem elapse_fwStat (n : Nat) (s : State) : (elapse n s).fwStat = s.fwStat := rfl
@[simp] theorem elapse_fwVersion (n : Nat) (s : State) : (elapse n s).fwVersion = s.fwVersion := rfl
@[simp] theorem elapse_mbAddr (n : Nat) (s : State) : (elapse n s).mbAddr = s.mbAddr := rfl
@[simp] theorem elapse_mbCmd (n : Nat) (s : State) : (elapse n s).mbCmd = s.mbCmd := rfl
@[simp] theorem elapse_mbBusy (n : Nat) (s : State) : (elapse n s).mbBusy = s.mbBusy := rfl
@[simp] theorem elapse_mbRun (n : Nat) (s : State) : (elapse n s).mbRun = s.mbRun := rfl
@[simp] theorem elapse_mbDone (n : Nat) (s : State) : (elapse n s).mbDone = s.mbDone := rfl
@[simp] theorem elapse_mbResult (n : Nat) (s : State) : (elapse n s).mbResult = s.mbResult := rfl
@[simp] theorem elapse_mbOut (n : Nat) (s : State) : (elapse n s).mbOut = s.mbOut := rfl
@[simp] theorem elapse_mbIrqs (n : Nat) (s : State) : (elapse n s).mbIrqs = s.mbIrqs := rfl
@[simp] theorem elapse_krvCnt (n : Nat) (s : State) : (elapse n s).krvCnt = s.krvCnt := rfl
@[simp] theorem elapse_measure (n : Nat) (s : State) : (elapse n s).measure = s.measure := rfl
@[simp] theorem elapse_measureCount (n : Nat) (s : State) : (elapse n s).measureCount = s.measureCount := rfl
@[simp] theorem elapse_slots (n : Nat) (s : State) : (elapse n s).slots = s.slots := rfl
@[simp] theorem elapse_bindings (n : Nat) (s : State) : (elapse n s).bindings = s.bindings := rfl
@[simp] theorem elapse_cxlMap (n : Nat) (s : State) : (elapse n s).cxlMap = s.cxlMap := rfl
@[simp] theorem elapse_cxlUp (n : Nat) (s : State) : (elapse n s).cxlUp = s.cxlUp := rfl
@[simp] theorem elapse_cxlCap (n : Nat) (s : State) : (elapse n s).cxlCap = s.cxlCap := rfl
@[simp] theorem elapse_bridges (n : Nat) (s : State) : (elapse n s).bridges = s.bridges := rfl
@[simp] theorem elapse_sports (n : Nat) (s : State) : (elapse n s).sports = s.sports := rfl
@[simp] theorem elapse_parts (n : Nat) (s : State) : (elapse n s).parts = s.parts := rfl
@[simp] theorem elapse_seqs (n : Nat) (s : State) : (elapse n s).seqs = s.seqs := rfl
@[simp] theorem elapse_images (n : Nat) (s : State) : (elapse n s).images = s.images := rfl
@[simp] theorem elapse_reqs (n : Nat) (s : State) : (elapse n s).reqs = s.reqs := rfl
@[simp] theorem elapse_walks (n : Nat) (s : State) : (elapse n s).walks = s.walks := rfl
@[simp] theorem elapse_walkTurn (n : Nat) (s : State) : (elapse n s).walkTurn = s.walkTurn := rfl
@[simp] theorem elapse_far (n : Nat) (s : State) : (elapse n s).far = s.far := rfl
@[simp] theorem elapse_statLane (n : Nat) (s : State) : (elapse n s).statLane = s.statLane := rfl
@[simp] theorem elapse_evLane (n : Nat) (s : State) : (elapse n s).evLane = s.evLane := rfl
@[simp] theorem elapse_evFired (n : Nat) (s : State) : (elapse n s).evFired = s.evFired := rfl
@[simp] theorem elapse_scrubbing (n : Nat) (s : State) : (elapse n s).scrubbing = s.scrubbing := rfl
@[simp] theorem elapse_fseq (n : Nat) (s : State) : (elapse n s).fseq = s.fseq := rfl
@[simp] theorem elapse_reqSeq (n : Nat) (s : State) : (elapse n s).reqSeq = s.reqSeq := rfl
@[simp] theorem elapse_hostReads (n : Nat) (s : State) : (elapse n s).hostReads = s.hostReads := rfl
@[simp] theorem elapse_hostHeld (n : Nat) (s : State) : (elapse n s).hostHeld = s.hostHeld := rfl
@[simp] theorem elapse_pools (n : Nat) (s : State) : (elapse n s).pools = s.pools := rfl
@[simp] theorem elapse_romDigest (n : Nat) (s : State) : (elapse n s).romDigest = s.romDigest := rfl
@[simp] theorem elapse_fusedVersion (n : Nat) (s : State) : (elapse n s).fusedVersion = s.fusedVersion := rfl
@[simp] theorem elapse_idKey (n : Nat) (s : State) : (elapse n s).idKey = s.idKey := rfl
@[simp] theorem elapse_certChain (n : Nat) (s : State) : (elapse n s).certChain = s.certChain := rfl

@[simp] theorem elapse_cycle (n : Nat) (s : State) : (elapse n s).cycle = s.cycle + BitVec.ofNat 64 n := rfl
@[simp] theorem elapse_regions (n : Nat) (s : State) : (elapse n s).regions = s.regions.map (Region.elapse n) := rfl

/-! ### Regions -/

@[simp] theorem setCell_id (rg : Region) (k : Offset) (c : Cell) : (setCell rg k c).id = rg.id := rfl
@[simp] theorem setCell_org (rg : Region) (k : Offset) (c : Cell) : (setCell rg k c).org = rg.org := rfl
@[simp] theorem setCell_w (rg : Region) (k : Offset) (c : Cell) : (setCell rg k c).w = rg.w := rfl
@[simp] theorem setCell_h (rg : Region) (k : Offset) (c : Cell) : (setCell rg k c).h = rg.h := rfl
@[simp] theorem setCell_hw (rg : Region) (k : Offset) (c : Cell) : (setCell rg k c).hw = rg.hw := rfl
@[simp] theorem setCell_hh (rg : Region) (k : Offset) (c : Cell) : (setCell rg k c).hh = rg.hh := rfl
@[simp] theorem setCell_soft (rg : Region) (k : Offset) (c : Cell) : (setCell rg k c).soft = rg.soft := rfl
@[simp] theorem setCell_plane (rg : Region) (k : Offset) (c : Cell) : (setCell rg k c).plane = rg.plane := rfl
@[simp] theorem setCell_tag (rg : Region) (k : Offset) (c : Cell) : (setCell rg k c).tag = rg.tag := rfl
@[simp] theorem setCell_installed (rg : Region) (k : Offset) (c : Cell) : (setCell rg k c).installed = rg.installed := rfl
@[simp] theorem setCell_feed (rg : Region) (k : Offset) (c : Cell) : (setCell rg k c).feed = rg.feed := rfl
@[simp] theorem setCell_shadow (rg : Region) (k : Offset) (c : Cell) : (setCell rg k c).shadow = rg.shadow := rfl
@[simp] theorem setCell_links (rg : Region) (k : Offset) (c : Cell) : (setCell rg k c).links = rg.links := rfl
@[simp] theorem setCell_sps (rg : Region) (k : Offset) (c : Cell) : (setCell rg k c).sps = rg.sps := rfl
@[simp] theorem setCell_mes (rg : Region) (k : Offset) (c : Cell) : (setCell rg k c).mes = rg.mes := rfl
@[simp] theorem setCell_inv (rg : Region) (k : Offset) (c : Cell) : (setCell rg k c).inv = rg.inv := rfl
@[simp] theorem setCell_detected (rg : Region) (k : Offset) (c : Cell) : (setCell rg k c).detected = rg.detected := rfl
@[simp] theorem setCell_detectedAt (rg : Region) (k : Offset) (c : Cell) : (setCell rg k c).detectedAt = rg.detectedAt := rfl
@[simp] theorem setCell_halted (rg : Region) (k : Offset) (c : Cell) : (setCell rg k c).halted = rg.halted := rfl
@[simp] theorem setCell_more (rg : Region) (k : Offset) (c : Cell) : (setCell rg k c).more = rg.more := rfl
@[simp] theorem setCell_frozen (rg : Region) (k : Offset) (c : Cell) : (setCell rg k c).frozen = rg.frozen := rfl
@[simp] theorem setCell_cut (rg : Region) (k : Offset) (c : Cell) : (setCell rg k c).cut = rg.cut := rfl
@[simp] theorem setCell_drain (rg : Region) (k : Offset) (c : Cell) : (setCell rg k c).drain = rg.drain := rfl
@[simp] theorem setCell_commit (rg : Region) (k : Offset) (c : Cell) : (setCell rg k c).commit = rg.commit := rfl
@[simp] theorem setCell_commitNodes (rg : Region) (k : Offset) (c : Cell) : (setCell rg k c).commitNodes = rg.commitNodes := rfl
@[simp] theorem setCell_commitRound (rg : Region) (k : Offset) (c : Cell) : (setCell rg k c).commitRound = rg.commitRound := rfl
@[simp] theorem setCell_hang (rg : Region) (k : Offset) (c : Cell) : (setCell rg k c).hang = rg.hang := rfl
@[simp] theorem setCell_placedAt (rg : Region) (k : Offset) (c : Cell) : (setCell rg k c).placedAt = rg.placedAt := rfl
@[simp] theorem setCell_charge (rg : Region) (k : Offset) (c : Cell) : (setCell rg k c).charge = rg.charge := rfl
@[simp] theorem setCell_layouts (rg : Region) (k : Offset) (c : Cell) : (setCell rg k c).layouts = rg.layouts := rfl
@[simp] theorem setCell_recWrites (rg : Region) (k : Offset) (c : Cell) : (setCell rg k c).recWrites = rg.recWrites := rfl
@[simp] theorem setCell_lvDue (rg : Region) (k : Offset) (c : Cell) : (setCell rg k c).lvDue = rg.lvDue := rfl
@[simp] theorem setCell_farEnds (rg : Region) (k : Offset) (c : Cell) : (setCell rg k c).farEnds = rg.farEnds := rfl
@[simp] theorem setCell_uses (rg : Region) (k : Offset) (c : Cell) : (setCell rg k c).uses = rg.uses := rfl
@[simp] theorem setCell_carve (rg : Region) (k : Offset) (c : Cell) : (setCell rg k c).carve = rg.carve := rfl
@[simp] theorem setCell_ovfVa (rg : Region) (k : Offset) (c : Cell) : (setCell rg k c).ovfVa = rg.ovfVa := rfl
@[simp] theorem setCell_ovfLen (rg : Region) (k : Offset) (c : Cell) : (setCell rg k c).ovfLen = rg.ovfLen := rfl

@[simp] theorem setCell_cells (rg : Region) (k : Offset) (c : Cell) : (setCell rg k c).cells = aset rg.cells (offKey k) c := rfl

@[simp] theorem setSp_id (rg : Region) (x : Sp) : (setSp rg x).id = rg.id := rfl
@[simp] theorem setSp_org (rg : Region) (x : Sp) : (setSp rg x).org = rg.org := rfl
@[simp] theorem setSp_w (rg : Region) (x : Sp) : (setSp rg x).w = rg.w := rfl
@[simp] theorem setSp_h (rg : Region) (x : Sp) : (setSp rg x).h = rg.h := rfl
@[simp] theorem setSp_hw (rg : Region) (x : Sp) : (setSp rg x).hw = rg.hw := rfl
@[simp] theorem setSp_hh (rg : Region) (x : Sp) : (setSp rg x).hh = rg.hh := rfl
@[simp] theorem setSp_soft (rg : Region) (x : Sp) : (setSp rg x).soft = rg.soft := rfl
@[simp] theorem setSp_plane (rg : Region) (x : Sp) : (setSp rg x).plane = rg.plane := rfl
@[simp] theorem setSp_tag (rg : Region) (x : Sp) : (setSp rg x).tag = rg.tag := rfl
@[simp] theorem setSp_installed (rg : Region) (x : Sp) : (setSp rg x).installed = rg.installed := rfl
@[simp] theorem setSp_feed (rg : Region) (x : Sp) : (setSp rg x).feed = rg.feed := rfl
@[simp] theorem setSp_shadow (rg : Region) (x : Sp) : (setSp rg x).shadow = rg.shadow := rfl
@[simp] theorem setSp_cells (rg : Region) (x : Sp) : (setSp rg x).cells = rg.cells := rfl
@[simp] theorem setSp_links (rg : Region) (x : Sp) : (setSp rg x).links = rg.links := rfl
@[simp] theorem setSp_mes (rg : Region) (x : Sp) : (setSp rg x).mes = rg.mes := rfl
@[simp] theorem setSp_inv (rg : Region) (x : Sp) : (setSp rg x).inv = rg.inv := rfl
@[simp] theorem setSp_detected (rg : Region) (x : Sp) : (setSp rg x).detected = rg.detected := rfl
@[simp] theorem setSp_detectedAt (rg : Region) (x : Sp) : (setSp rg x).detectedAt = rg.detectedAt := rfl
@[simp] theorem setSp_halted (rg : Region) (x : Sp) : (setSp rg x).halted = rg.halted := rfl
@[simp] theorem setSp_more (rg : Region) (x : Sp) : (setSp rg x).more = rg.more := rfl
@[simp] theorem setSp_frozen (rg : Region) (x : Sp) : (setSp rg x).frozen = rg.frozen := rfl
@[simp] theorem setSp_cut (rg : Region) (x : Sp) : (setSp rg x).cut = rg.cut := rfl
@[simp] theorem setSp_drain (rg : Region) (x : Sp) : (setSp rg x).drain = rg.drain := rfl
@[simp] theorem setSp_commit (rg : Region) (x : Sp) : (setSp rg x).commit = rg.commit := rfl
@[simp] theorem setSp_commitNodes (rg : Region) (x : Sp) : (setSp rg x).commitNodes = rg.commitNodes := rfl
@[simp] theorem setSp_commitRound (rg : Region) (x : Sp) : (setSp rg x).commitRound = rg.commitRound := rfl
@[simp] theorem setSp_hang (rg : Region) (x : Sp) : (setSp rg x).hang = rg.hang := rfl
@[simp] theorem setSp_placedAt (rg : Region) (x : Sp) : (setSp rg x).placedAt = rg.placedAt := rfl
@[simp] theorem setSp_charge (rg : Region) (x : Sp) : (setSp rg x).charge = rg.charge := rfl
@[simp] theorem setSp_layouts (rg : Region) (x : Sp) : (setSp rg x).layouts = rg.layouts := rfl
@[simp] theorem setSp_recWrites (rg : Region) (x : Sp) : (setSp rg x).recWrites = rg.recWrites := rfl
@[simp] theorem setSp_lvDue (rg : Region) (x : Sp) : (setSp rg x).lvDue = rg.lvDue := rfl
@[simp] theorem setSp_farEnds (rg : Region) (x : Sp) : (setSp rg x).farEnds = rg.farEnds := rfl
@[simp] theorem setSp_uses (rg : Region) (x : Sp) : (setSp rg x).uses = rg.uses := rfl
@[simp] theorem setSp_carve (rg : Region) (x : Sp) : (setSp rg x).carve = rg.carve := rfl
@[simp] theorem setSp_ovfVa (rg : Region) (x : Sp) : (setSp rg x).ovfVa = rg.ovfVa := rfl
@[simp] theorem setSp_ovfLen (rg : Region) (x : Sp) : (setSp rg x).ovfLen = rg.ovfLen := rfl

@[simp] theorem setMe_id (rg : Region) (x : Me) : (setMe rg x).id = rg.id := rfl
@[simp] theorem setMe_org (rg : Region) (x : Me) : (setMe rg x).org = rg.org := rfl
@[simp] theorem setMe_w (rg : Region) (x : Me) : (setMe rg x).w = rg.w := rfl
@[simp] theorem setMe_h (rg : Region) (x : Me) : (setMe rg x).h = rg.h := rfl
@[simp] theorem setMe_hw (rg : Region) (x : Me) : (setMe rg x).hw = rg.hw := rfl
@[simp] theorem setMe_hh (rg : Region) (x : Me) : (setMe rg x).hh = rg.hh := rfl
@[simp] theorem setMe_soft (rg : Region) (x : Me) : (setMe rg x).soft = rg.soft := rfl
@[simp] theorem setMe_plane (rg : Region) (x : Me) : (setMe rg x).plane = rg.plane := rfl
@[simp] theorem setMe_tag (rg : Region) (x : Me) : (setMe rg x).tag = rg.tag := rfl
@[simp] theorem setMe_installed (rg : Region) (x : Me) : (setMe rg x).installed = rg.installed := rfl
@[simp] theorem setMe_feed (rg : Region) (x : Me) : (setMe rg x).feed = rg.feed := rfl
@[simp] theorem setMe_shadow (rg : Region) (x : Me) : (setMe rg x).shadow = rg.shadow := rfl
@[simp] theorem setMe_cells (rg : Region) (x : Me) : (setMe rg x).cells = rg.cells := rfl
@[simp] theorem setMe_links (rg : Region) (x : Me) : (setMe rg x).links = rg.links := rfl
@[simp] theorem setMe_sps (rg : Region) (x : Me) : (setMe rg x).sps = rg.sps := rfl
@[simp] theorem setMe_inv (rg : Region) (x : Me) : (setMe rg x).inv = rg.inv := rfl
@[simp] theorem setMe_detected (rg : Region) (x : Me) : (setMe rg x).detected = rg.detected := rfl
@[simp] theorem setMe_detectedAt (rg : Region) (x : Me) : (setMe rg x).detectedAt = rg.detectedAt := rfl
@[simp] theorem setMe_halted (rg : Region) (x : Me) : (setMe rg x).halted = rg.halted := rfl
@[simp] theorem setMe_more (rg : Region) (x : Me) : (setMe rg x).more = rg.more := rfl
@[simp] theorem setMe_frozen (rg : Region) (x : Me) : (setMe rg x).frozen = rg.frozen := rfl
@[simp] theorem setMe_cut (rg : Region) (x : Me) : (setMe rg x).cut = rg.cut := rfl
@[simp] theorem setMe_drain (rg : Region) (x : Me) : (setMe rg x).drain = rg.drain := rfl
@[simp] theorem setMe_commit (rg : Region) (x : Me) : (setMe rg x).commit = rg.commit := rfl
@[simp] theorem setMe_commitNodes (rg : Region) (x : Me) : (setMe rg x).commitNodes = rg.commitNodes := rfl
@[simp] theorem setMe_commitRound (rg : Region) (x : Me) : (setMe rg x).commitRound = rg.commitRound := rfl
@[simp] theorem setMe_hang (rg : Region) (x : Me) : (setMe rg x).hang = rg.hang := rfl
@[simp] theorem setMe_placedAt (rg : Region) (x : Me) : (setMe rg x).placedAt = rg.placedAt := rfl
@[simp] theorem setMe_charge (rg : Region) (x : Me) : (setMe rg x).charge = rg.charge := rfl
@[simp] theorem setMe_layouts (rg : Region) (x : Me) : (setMe rg x).layouts = rg.layouts := rfl
@[simp] theorem setMe_recWrites (rg : Region) (x : Me) : (setMe rg x).recWrites = rg.recWrites := rfl
@[simp] theorem setMe_lvDue (rg : Region) (x : Me) : (setMe rg x).lvDue = rg.lvDue := rfl
@[simp] theorem setMe_farEnds (rg : Region) (x : Me) : (setMe rg x).farEnds = rg.farEnds := rfl
@[simp] theorem setMe_uses (rg : Region) (x : Me) : (setMe rg x).uses = rg.uses := rfl
@[simp] theorem setMe_carve (rg : Region) (x : Me) : (setMe rg x).carve = rg.carve := rfl
@[simp] theorem setMe_ovfVa (rg : Region) (x : Me) : (setMe rg x).ovfVa = rg.ovfVa := rfl
@[simp] theorem setMe_ovfLen (rg : Region) (x : Me) : (setMe rg x).ovfLen = rg.ovfLen := rfl

@[simp] theorem modLink_id (rg : Region) (k : Nat) (f : Link → Link) : (rg.modLink k f).id = rg.id := rfl
@[simp] theorem modLink_org (rg : Region) (k : Nat) (f : Link → Link) : (rg.modLink k f).org = rg.org := rfl
@[simp] theorem modLink_w (rg : Region) (k : Nat) (f : Link → Link) : (rg.modLink k f).w = rg.w := rfl
@[simp] theorem modLink_h (rg : Region) (k : Nat) (f : Link → Link) : (rg.modLink k f).h = rg.h := rfl
@[simp] theorem modLink_hw (rg : Region) (k : Nat) (f : Link → Link) : (rg.modLink k f).hw = rg.hw := rfl
@[simp] theorem modLink_hh (rg : Region) (k : Nat) (f : Link → Link) : (rg.modLink k f).hh = rg.hh := rfl
@[simp] theorem modLink_soft (rg : Region) (k : Nat) (f : Link → Link) : (rg.modLink k f).soft = rg.soft := rfl
@[simp] theorem modLink_plane (rg : Region) (k : Nat) (f : Link → Link) : (rg.modLink k f).plane = rg.plane := rfl
@[simp] theorem modLink_tag (rg : Region) (k : Nat) (f : Link → Link) : (rg.modLink k f).tag = rg.tag := rfl
@[simp] theorem modLink_installed (rg : Region) (k : Nat) (f : Link → Link) : (rg.modLink k f).installed = rg.installed := rfl
@[simp] theorem modLink_feed (rg : Region) (k : Nat) (f : Link → Link) : (rg.modLink k f).feed = rg.feed := rfl
@[simp] theorem modLink_shadow (rg : Region) (k : Nat) (f : Link → Link) : (rg.modLink k f).shadow = rg.shadow := rfl
@[simp] theorem modLink_cells (rg : Region) (k : Nat) (f : Link → Link) : (rg.modLink k f).cells = rg.cells := rfl
@[simp] theorem modLink_sps (rg : Region) (k : Nat) (f : Link → Link) : (rg.modLink k f).sps = rg.sps := rfl
@[simp] theorem modLink_mes (rg : Region) (k : Nat) (f : Link → Link) : (rg.modLink k f).mes = rg.mes := rfl
@[simp] theorem modLink_inv (rg : Region) (k : Nat) (f : Link → Link) : (rg.modLink k f).inv = rg.inv := rfl
@[simp] theorem modLink_detected (rg : Region) (k : Nat) (f : Link → Link) : (rg.modLink k f).detected = rg.detected := rfl
@[simp] theorem modLink_detectedAt (rg : Region) (k : Nat) (f : Link → Link) : (rg.modLink k f).detectedAt = rg.detectedAt := rfl
@[simp] theorem modLink_halted (rg : Region) (k : Nat) (f : Link → Link) : (rg.modLink k f).halted = rg.halted := rfl
@[simp] theorem modLink_more (rg : Region) (k : Nat) (f : Link → Link) : (rg.modLink k f).more = rg.more := rfl
@[simp] theorem modLink_frozen (rg : Region) (k : Nat) (f : Link → Link) : (rg.modLink k f).frozen = rg.frozen := rfl
@[simp] theorem modLink_cut (rg : Region) (k : Nat) (f : Link → Link) : (rg.modLink k f).cut = rg.cut := rfl
@[simp] theorem modLink_drain (rg : Region) (k : Nat) (f : Link → Link) : (rg.modLink k f).drain = rg.drain := rfl
@[simp] theorem modLink_commit (rg : Region) (k : Nat) (f : Link → Link) : (rg.modLink k f).commit = rg.commit := rfl
@[simp] theorem modLink_commitNodes (rg : Region) (k : Nat) (f : Link → Link) : (rg.modLink k f).commitNodes = rg.commitNodes := rfl
@[simp] theorem modLink_commitRound (rg : Region) (k : Nat) (f : Link → Link) : (rg.modLink k f).commitRound = rg.commitRound := rfl
@[simp] theorem modLink_hang (rg : Region) (k : Nat) (f : Link → Link) : (rg.modLink k f).hang = rg.hang := rfl
@[simp] theorem modLink_placedAt (rg : Region) (k : Nat) (f : Link → Link) : (rg.modLink k f).placedAt = rg.placedAt := rfl
@[simp] theorem modLink_charge (rg : Region) (k : Nat) (f : Link → Link) : (rg.modLink k f).charge = rg.charge := rfl
@[simp] theorem modLink_layouts (rg : Region) (k : Nat) (f : Link → Link) : (rg.modLink k f).layouts = rg.layouts := rfl
@[simp] theorem modLink_recWrites (rg : Region) (k : Nat) (f : Link → Link) : (rg.modLink k f).recWrites = rg.recWrites := rfl
@[simp] theorem modLink_lvDue (rg : Region) (k : Nat) (f : Link → Link) : (rg.modLink k f).lvDue = rg.lvDue := rfl
@[simp] theorem modLink_farEnds (rg : Region) (k : Nat) (f : Link → Link) : (rg.modLink k f).farEnds = rg.farEnds := rfl
@[simp] theorem modLink_uses (rg : Region) (k : Nat) (f : Link → Link) : (rg.modLink k f).uses = rg.uses := rfl
@[simp] theorem modLink_carve (rg : Region) (k : Nat) (f : Link → Link) : (rg.modLink k f).carve = rg.carve := rfl
@[simp] theorem modLink_ovfVa (rg : Region) (k : Nat) (f : Link → Link) : (rg.modLink k f).ovfVa = rg.ovfVa := rfl
@[simp] theorem modLink_ovfLen (rg : Region) (k : Nat) (f : Link → Link) : (rg.modLink k f).ovfLen = rg.ovfLen := rfl

@[simp] theorem modLink_links (rg : Region) (k : Nat) (f : Link → Link) : (rg.modLink k f).links = lmod rg.links k f := rfl

@[simp] theorem setPure_id (rg : Region) (f : PureInv → PureInv) : (rg.setPure f).id = rg.id := rfl
@[simp] theorem setPure_org (rg : Region) (f : PureInv → PureInv) : (rg.setPure f).org = rg.org := rfl
@[simp] theorem setPure_w (rg : Region) (f : PureInv → PureInv) : (rg.setPure f).w = rg.w := rfl
@[simp] theorem setPure_h (rg : Region) (f : PureInv → PureInv) : (rg.setPure f).h = rg.h := rfl
@[simp] theorem setPure_hw (rg : Region) (f : PureInv → PureInv) : (rg.setPure f).hw = rg.hw := rfl
@[simp] theorem setPure_hh (rg : Region) (f : PureInv → PureInv) : (rg.setPure f).hh = rg.hh := rfl
@[simp] theorem setPure_soft (rg : Region) (f : PureInv → PureInv) : (rg.setPure f).soft = rg.soft := rfl
@[simp] theorem setPure_plane (rg : Region) (f : PureInv → PureInv) : (rg.setPure f).plane = rg.plane := rfl
@[simp] theorem setPure_tag (rg : Region) (f : PureInv → PureInv) : (rg.setPure f).tag = rg.tag := rfl
@[simp] theorem setPure_installed (rg : Region) (f : PureInv → PureInv) : (rg.setPure f).installed = rg.installed := rfl
@[simp] theorem setPure_feed (rg : Region) (f : PureInv → PureInv) : (rg.setPure f).feed = rg.feed := rfl
@[simp] theorem setPure_shadow (rg : Region) (f : PureInv → PureInv) : (rg.setPure f).shadow = rg.shadow := rfl
@[simp] theorem setPure_cells (rg : Region) (f : PureInv → PureInv) : (rg.setPure f).cells = rg.cells := rfl
@[simp] theorem setPure_links (rg : Region) (f : PureInv → PureInv) : (rg.setPure f).links = rg.links := rfl
@[simp] theorem setPure_sps (rg : Region) (f : PureInv → PureInv) : (rg.setPure f).sps = rg.sps := rfl
@[simp] theorem setPure_mes (rg : Region) (f : PureInv → PureInv) : (rg.setPure f).mes = rg.mes := rfl
@[simp] theorem setPure_detected (rg : Region) (f : PureInv → PureInv) : (rg.setPure f).detected = rg.detected := rfl
@[simp] theorem setPure_detectedAt (rg : Region) (f : PureInv → PureInv) : (rg.setPure f).detectedAt = rg.detectedAt := rfl
@[simp] theorem setPure_halted (rg : Region) (f : PureInv → PureInv) : (rg.setPure f).halted = rg.halted := rfl
@[simp] theorem setPure_more (rg : Region) (f : PureInv → PureInv) : (rg.setPure f).more = rg.more := rfl
@[simp] theorem setPure_frozen (rg : Region) (f : PureInv → PureInv) : (rg.setPure f).frozen = rg.frozen := rfl
@[simp] theorem setPure_cut (rg : Region) (f : PureInv → PureInv) : (rg.setPure f).cut = rg.cut := rfl
@[simp] theorem setPure_drain (rg : Region) (f : PureInv → PureInv) : (rg.setPure f).drain = rg.drain := rfl
@[simp] theorem setPure_commit (rg : Region) (f : PureInv → PureInv) : (rg.setPure f).commit = rg.commit := rfl
@[simp] theorem setPure_commitNodes (rg : Region) (f : PureInv → PureInv) : (rg.setPure f).commitNodes = rg.commitNodes := rfl
@[simp] theorem setPure_commitRound (rg : Region) (f : PureInv → PureInv) : (rg.setPure f).commitRound = rg.commitRound := rfl
@[simp] theorem setPure_hang (rg : Region) (f : PureInv → PureInv) : (rg.setPure f).hang = rg.hang := rfl
@[simp] theorem setPure_placedAt (rg : Region) (f : PureInv → PureInv) : (rg.setPure f).placedAt = rg.placedAt := rfl
@[simp] theorem setPure_charge (rg : Region) (f : PureInv → PureInv) : (rg.setPure f).charge = rg.charge := rfl
@[simp] theorem setPure_layouts (rg : Region) (f : PureInv → PureInv) : (rg.setPure f).layouts = rg.layouts := rfl
@[simp] theorem setPure_recWrites (rg : Region) (f : PureInv → PureInv) : (rg.setPure f).recWrites = rg.recWrites := rfl
@[simp] theorem setPure_lvDue (rg : Region) (f : PureInv → PureInv) : (rg.setPure f).lvDue = rg.lvDue := rfl
@[simp] theorem setPure_farEnds (rg : Region) (f : PureInv → PureInv) : (rg.setPure f).farEnds = rg.farEnds := rfl
@[simp] theorem setPure_uses (rg : Region) (f : PureInv → PureInv) : (rg.setPure f).uses = rg.uses := rfl
@[simp] theorem setPure_carve (rg : Region) (f : PureInv → PureInv) : (rg.setPure f).carve = rg.carve := rfl
@[simp] theorem setPure_ovfVa (rg : Region) (f : PureInv → PureInv) : (rg.setPure f).ovfVa = rg.ovfVa := rfl
@[simp] theorem setPure_ovfLen (rg : Region) (f : PureInv → PureInv) : (rg.setPure f).ovfLen = rg.ovfLen := rfl

@[simp] theorem violate_id (rg : Region) (k : Nat) : (rg.violate k).id = rg.id := rfl
@[simp] theorem violate_org (rg : Region) (k : Nat) : (rg.violate k).org = rg.org := rfl
@[simp] theorem violate_w (rg : Region) (k : Nat) : (rg.violate k).w = rg.w := rfl
@[simp] theorem violate_h (rg : Region) (k : Nat) : (rg.violate k).h = rg.h := rfl
@[simp] theorem violate_hw (rg : Region) (k : Nat) : (rg.violate k).hw = rg.hw := rfl
@[simp] theorem violate_hh (rg : Region) (k : Nat) : (rg.violate k).hh = rg.hh := rfl
@[simp] theorem violate_soft (rg : Region) (k : Nat) : (rg.violate k).soft = rg.soft := rfl
@[simp] theorem violate_plane (rg : Region) (k : Nat) : (rg.violate k).plane = rg.plane := rfl
@[simp] theorem violate_tag (rg : Region) (k : Nat) : (rg.violate k).tag = rg.tag := rfl
@[simp] theorem violate_installed (rg : Region) (k : Nat) : (rg.violate k).installed = rg.installed := rfl
@[simp] theorem violate_feed (rg : Region) (k : Nat) : (rg.violate k).feed = rg.feed := rfl
@[simp] theorem violate_shadow (rg : Region) (k : Nat) : (rg.violate k).shadow = rg.shadow := rfl
@[simp] theorem violate_cells (rg : Region) (k : Nat) : (rg.violate k).cells = rg.cells := rfl
@[simp] theorem violate_links (rg : Region) (k : Nat) : (rg.violate k).links = rg.links := rfl
@[simp] theorem violate_sps (rg : Region) (k : Nat) : (rg.violate k).sps = rg.sps := rfl
@[simp] theorem violate_mes (rg : Region) (k : Nat) : (rg.violate k).mes = rg.mes := rfl
@[simp] theorem violate_detected (rg : Region) (k : Nat) : (rg.violate k).detected = rg.detected := rfl
@[simp] theorem violate_detectedAt (rg : Region) (k : Nat) : (rg.violate k).detectedAt = rg.detectedAt := rfl
@[simp] theorem violate_halted (rg : Region) (k : Nat) : (rg.violate k).halted = rg.halted := rfl
@[simp] theorem violate_more (rg : Region) (k : Nat) : (rg.violate k).more = rg.more := rfl
@[simp] theorem violate_frozen (rg : Region) (k : Nat) : (rg.violate k).frozen = rg.frozen := rfl
@[simp] theorem violate_cut (rg : Region) (k : Nat) : (rg.violate k).cut = rg.cut := rfl
@[simp] theorem violate_drain (rg : Region) (k : Nat) : (rg.violate k).drain = rg.drain := rfl
@[simp] theorem violate_commit (rg : Region) (k : Nat) : (rg.violate k).commit = rg.commit := rfl
@[simp] theorem violate_commitNodes (rg : Region) (k : Nat) : (rg.violate k).commitNodes = rg.commitNodes := rfl
@[simp] theorem violate_commitRound (rg : Region) (k : Nat) : (rg.violate k).commitRound = rg.commitRound := rfl
@[simp] theorem violate_hang (rg : Region) (k : Nat) : (rg.violate k).hang = rg.hang := rfl
@[simp] theorem violate_placedAt (rg : Region) (k : Nat) : (rg.violate k).placedAt = rg.placedAt := rfl
@[simp] theorem violate_charge (rg : Region) (k : Nat) : (rg.violate k).charge = rg.charge := rfl
@[simp] theorem violate_layouts (rg : Region) (k : Nat) : (rg.violate k).layouts = rg.layouts := rfl
@[simp] theorem violate_recWrites (rg : Region) (k : Nat) : (rg.violate k).recWrites = rg.recWrites := rfl
@[simp] theorem violate_lvDue (rg : Region) (k : Nat) : (rg.violate k).lvDue = rg.lvDue := rfl
@[simp] theorem violate_farEnds (rg : Region) (k : Nat) : (rg.violate k).farEnds = rg.farEnds := rfl
@[simp] theorem violate_uses (rg : Region) (k : Nat) : (rg.violate k).uses = rg.uses := rfl
@[simp] theorem violate_carve (rg : Region) (k : Nat) : (rg.violate k).carve = rg.carve := rfl
@[simp] theorem violate_ovfVa (rg : Region) (k : Nat) : (rg.violate k).ovfVa = rg.ovfVa := rfl
@[simp] theorem violate_ovfLen (rg : Region) (k : Nat) : (rg.violate k).ovfLen = rg.ovfLen := rfl

/-! ### Sequencer contexts -/

@[simp] theorem advance_st (q : Seq) : (q.advance).st = q.st := rfl
@[simp] theorem advance_park (q : Seq) : (q.advance).park = q.park := rfl
@[simp] theorem advance_sqhead (q : Seq) : (q.advance).sqhead = q.sqhead := rfl
@[simp] theorem advance_sqrec (q : Seq) : (q.advance).sqrec = q.sqrec := rfl
@[simp] theorem advance_cls (q : Seq) : (q.advance).cls = q.cls := rfl
@[simp] theorem advance_sub (q : Seq) : (q.advance).sub = q.sub := rfl
@[simp] theorem advance_completed (q : Seq) : (q.advance).completed = q.completed := rfl
@[simp] theorem advance_errNo (q : Seq) : (q.advance).errNo = q.errNo := rfl
@[simp] theorem advance_errStage (q : Seq) : (q.advance).errStage = q.errStage := rfl
@[simp] theorem advance_regs (q : Seq) : (q.advance).regs = q.regs := rfl
@[simp] theorem advance_owed (q : Seq) : (q.advance).owed = q.owed := rfl
@[simp] theorem advance_prio (q : Seq) : (q.advance).prio = q.prio := rfl
@[simp] theorem advance_deadline (q : Seq) : (q.advance).deadline = q.deadline := rfl
@[simp] theorem advance_image (q : Seq) : (q.advance).image = q.image := rfl
@[simp] theorem advance_tp (q : Seq) : (q.advance).tp = q.tp := rfl
@[simp] theorem advance_stopReq (q : Seq) : (q.advance).stopReq = q.stopReq := rfl
@[simp] theorem advance_startAge (q : Seq) : (q.advance).startAge = q.startAge := rfl
@[simp] theorem advance_recStart (q : Seq) : (q.advance).recStart = q.recStart := rfl
@[simp] theorem advance_spliced (q : Seq) : (q.advance).spliced = q.spliced := rfl
@[simp] theorem advance_resumeTo (q : Seq) : (q.advance).resumeTo = q.resumeTo := rfl
@[simp] theorem advance_lastIssue (q : Seq) : (q.advance).lastIssue = q.lastIssue := rfl
@[simp] theorem advance_raised (q : Seq) : (q.advance).raised = q.raised := rfl
@[simp] theorem advance_irqAtEnd (q : Seq) : (q.advance).irqAtEnd = q.irqAtEnd := rfl
@[simp] theorem advance_spill (q : Seq) : (q.advance).spill = q.spill := rfl
@[simp] theorem advance_ovfVa (q : Seq) : (q.advance).ovfVa = q.ovfVa := rfl
@[simp] theorem advance_ovfLen (q : Seq) : (q.advance).ovfLen = q.ovfLen := rfl
@[simp] theorem advance_extVa (q : Seq) : (q.advance).extVa = q.extVa := rfl
@[simp] theorem advance_nArg (q : Seq) : (q.advance).nArg = q.nArg := rfl
@[simp] theorem advance_nRes (q : Seq) : (q.advance).nRes = q.nRes := rfl
@[simp] theorem advance_sects (q : Seq) : (q.advance).sects = q.sects := rfl
@[simp] theorem advance_queuedNo (q : Seq) : (q.advance).queuedNo = q.queuedNo := rfl
@[simp] theorem advance_walking (q : Seq) : (q.advance).walking = q.walking := rfl
@[simp] theorem advance_retry (q : Seq) : (q.advance).retry = q.retry := rfl

@[simp] theorem advance_pc (q : Seq) : q.advance.pc = q.pc + 1 := rfl

@[simp] theorem jump_st (q : Seq) (n : Int) : (q.jump n).st = q.st := rfl
@[simp] theorem jump_park (q : Seq) (n : Int) : (q.jump n).park = q.park := rfl
@[simp] theorem jump_sqhead (q : Seq) (n : Int) : (q.jump n).sqhead = q.sqhead := rfl
@[simp] theorem jump_sqrec (q : Seq) (n : Int) : (q.jump n).sqrec = q.sqrec := rfl
@[simp] theorem jump_cls (q : Seq) (n : Int) : (q.jump n).cls = q.cls := rfl
@[simp] theorem jump_sub (q : Seq) (n : Int) : (q.jump n).sub = q.sub := rfl
@[simp] theorem jump_completed (q : Seq) (n : Int) : (q.jump n).completed = q.completed := rfl
@[simp] theorem jump_errNo (q : Seq) (n : Int) : (q.jump n).errNo = q.errNo := rfl
@[simp] theorem jump_errStage (q : Seq) (n : Int) : (q.jump n).errStage = q.errStage := rfl
@[simp] theorem jump_regs (q : Seq) (n : Int) : (q.jump n).regs = q.regs := rfl
@[simp] theorem jump_owed (q : Seq) (n : Int) : (q.jump n).owed = q.owed := rfl
@[simp] theorem jump_prio (q : Seq) (n : Int) : (q.jump n).prio = q.prio := rfl
@[simp] theorem jump_deadline (q : Seq) (n : Int) : (q.jump n).deadline = q.deadline := rfl
@[simp] theorem jump_image (q : Seq) (n : Int) : (q.jump n).image = q.image := rfl
@[simp] theorem jump_tp (q : Seq) (n : Int) : (q.jump n).tp = q.tp := rfl
@[simp] theorem jump_stopReq (q : Seq) (n : Int) : (q.jump n).stopReq = q.stopReq := rfl
@[simp] theorem jump_startAge (q : Seq) (n : Int) : (q.jump n).startAge = q.startAge := rfl
@[simp] theorem jump_recStart (q : Seq) (n : Int) : (q.jump n).recStart = q.recStart := rfl
@[simp] theorem jump_spliced (q : Seq) (n : Int) : (q.jump n).spliced = q.spliced := rfl
@[simp] theorem jump_resumeTo (q : Seq) (n : Int) : (q.jump n).resumeTo = q.resumeTo := rfl
@[simp] theorem jump_lastIssue (q : Seq) (n : Int) : (q.jump n).lastIssue = q.lastIssue := rfl
@[simp] theorem jump_raised (q : Seq) (n : Int) : (q.jump n).raised = q.raised := rfl
@[simp] theorem jump_irqAtEnd (q : Seq) (n : Int) : (q.jump n).irqAtEnd = q.irqAtEnd := rfl
@[simp] theorem jump_spill (q : Seq) (n : Int) : (q.jump n).spill = q.spill := rfl
@[simp] theorem jump_ovfVa (q : Seq) (n : Int) : (q.jump n).ovfVa = q.ovfVa := rfl
@[simp] theorem jump_ovfLen (q : Seq) (n : Int) : (q.jump n).ovfLen = q.ovfLen := rfl
@[simp] theorem jump_extVa (q : Seq) (n : Int) : (q.jump n).extVa = q.extVa := rfl
@[simp] theorem jump_nArg (q : Seq) (n : Int) : (q.jump n).nArg = q.nArg := rfl
@[simp] theorem jump_nRes (q : Seq) (n : Int) : (q.jump n).nRes = q.nRes := rfl
@[simp] theorem jump_sects (q : Seq) (n : Int) : (q.jump n).sects = q.sects := rfl
@[simp] theorem jump_queuedNo (q : Seq) (n : Int) : (q.jump n).queuedNo = q.queuedNo := rfl
@[simp] theorem jump_walking (q : Seq) (n : Int) : (q.jump n).walking = q.walking := rfl
@[simp] theorem jump_retry (q : Seq) (n : Int) : (q.jump n).retry = q.retry := rfl

@[simp] theorem setSect_st (q : Seq) (k : Nat) (x : SectCtx) : (setSect q k x).st = q.st := rfl
@[simp] theorem setSect_park (q : Seq) (k : Nat) (x : SectCtx) : (setSect q k x).park = q.park := rfl
@[simp] theorem setSect_sqhead (q : Seq) (k : Nat) (x : SectCtx) : (setSect q k x).sqhead = q.sqhead := rfl
@[simp] theorem setSect_sqrec (q : Seq) (k : Nat) (x : SectCtx) : (setSect q k x).sqrec = q.sqrec := rfl
@[simp] theorem setSect_cls (q : Seq) (k : Nat) (x : SectCtx) : (setSect q k x).cls = q.cls := rfl
@[simp] theorem setSect_sub (q : Seq) (k : Nat) (x : SectCtx) : (setSect q k x).sub = q.sub := rfl
@[simp] theorem setSect_completed (q : Seq) (k : Nat) (x : SectCtx) : (setSect q k x).completed = q.completed := rfl
@[simp] theorem setSect_errNo (q : Seq) (k : Nat) (x : SectCtx) : (setSect q k x).errNo = q.errNo := rfl
@[simp] theorem setSect_errStage (q : Seq) (k : Nat) (x : SectCtx) : (setSect q k x).errStage = q.errStage := rfl
@[simp] theorem setSect_regs (q : Seq) (k : Nat) (x : SectCtx) : (setSect q k x).regs = q.regs := rfl
@[simp] theorem setSect_owed (q : Seq) (k : Nat) (x : SectCtx) : (setSect q k x).owed = q.owed := rfl
@[simp] theorem setSect_pc (q : Seq) (k : Nat) (x : SectCtx) : (setSect q k x).pc = q.pc := rfl
@[simp] theorem setSect_prio (q : Seq) (k : Nat) (x : SectCtx) : (setSect q k x).prio = q.prio := rfl
@[simp] theorem setSect_deadline (q : Seq) (k : Nat) (x : SectCtx) : (setSect q k x).deadline = q.deadline := rfl
@[simp] theorem setSect_image (q : Seq) (k : Nat) (x : SectCtx) : (setSect q k x).image = q.image := rfl
@[simp] theorem setSect_tp (q : Seq) (k : Nat) (x : SectCtx) : (setSect q k x).tp = q.tp := rfl
@[simp] theorem setSect_stopReq (q : Seq) (k : Nat) (x : SectCtx) : (setSect q k x).stopReq = q.stopReq := rfl
@[simp] theorem setSect_startAge (q : Seq) (k : Nat) (x : SectCtx) : (setSect q k x).startAge = q.startAge := rfl
@[simp] theorem setSect_recStart (q : Seq) (k : Nat) (x : SectCtx) : (setSect q k x).recStart = q.recStart := rfl
@[simp] theorem setSect_spliced (q : Seq) (k : Nat) (x : SectCtx) : (setSect q k x).spliced = q.spliced := rfl
@[simp] theorem setSect_resumeTo (q : Seq) (k : Nat) (x : SectCtx) : (setSect q k x).resumeTo = q.resumeTo := rfl
@[simp] theorem setSect_lastIssue (q : Seq) (k : Nat) (x : SectCtx) : (setSect q k x).lastIssue = q.lastIssue := rfl
@[simp] theorem setSect_raised (q : Seq) (k : Nat) (x : SectCtx) : (setSect q k x).raised = q.raised := rfl
@[simp] theorem setSect_irqAtEnd (q : Seq) (k : Nat) (x : SectCtx) : (setSect q k x).irqAtEnd = q.irqAtEnd := rfl
@[simp] theorem setSect_spill (q : Seq) (k : Nat) (x : SectCtx) : (setSect q k x).spill = q.spill := rfl
@[simp] theorem setSect_ovfVa (q : Seq) (k : Nat) (x : SectCtx) : (setSect q k x).ovfVa = q.ovfVa := rfl
@[simp] theorem setSect_ovfLen (q : Seq) (k : Nat) (x : SectCtx) : (setSect q k x).ovfLen = q.ovfLen := rfl
@[simp] theorem setSect_extVa (q : Seq) (k : Nat) (x : SectCtx) : (setSect q k x).extVa = q.extVa := rfl
@[simp] theorem setSect_nArg (q : Seq) (k : Nat) (x : SectCtx) : (setSect q k x).nArg = q.nArg := rfl
@[simp] theorem setSect_nRes (q : Seq) (k : Nat) (x : SectCtx) : (setSect q k x).nRes = q.nRes := rfl
@[simp] theorem setSect_queuedNo (q : Seq) (k : Nat) (x : SectCtx) : (setSect q k x).queuedNo = q.queuedNo := rfl
@[simp] theorem setSect_walking (q : Seq) (k : Nat) (x : SectCtx) : (setSect q k x).walking = q.walking := rfl
@[simp] theorem setSect_retry (q : Seq) (k : Nat) (x : SectCtx) : (setSect q k x).retry = q.retry := rfl

/-! ### Ports of a region: only its links change -/

theorem consumePort_eq (rg : Region) (p : Offset) (h : Bool) (c k : Nat) :
    ∃ ls, rg.consumePort p h c k = { rg with links := ls } := by
  unfold Region.consumePort; split <;> exact ⟨_, rfl⟩
@[simp] theorem consumePort_id (rg : Region) (p : Offset) (h : Bool) (c k : Nat) : (rg.consumePort p h c k).id = rg.id := by
  obtain ⟨ls, h⟩ := consumePort_eq rg p h c k; rw [h]
@[simp] theorem consumePort_plane (rg : Region) (p : Offset) (h : Bool) (c k : Nat) : (rg.consumePort p h c k).plane = rg.plane := by
  obtain ⟨ls, h⟩ := consumePort_eq rg p h c k; rw [h]
@[simp] theorem consumePort_inv (rg : Region) (p : Offset) (h : Bool) (c k : Nat) : (rg.consumePort p h c k).inv = rg.inv := by
  obtain ⟨ls, h⟩ := consumePort_eq rg p h c k; rw [h]
@[simp] theorem consumePort_cells (rg : Region) (p : Offset) (h : Bool) (c k : Nat) : (rg.consumePort p h c k).cells = rg.cells := by
  obtain ⟨ls, h⟩ := consumePort_eq rg p h c k; rw [h]
@[simp] theorem consumePort_sps (rg : Region) (p : Offset) (h : Bool) (c k : Nat) : (rg.consumePort p h c k).sps = rg.sps := by
  obtain ⟨ls, h⟩ := consumePort_eq rg p h c k; rw [h]
@[simp] theorem consumePort_mes (rg : Region) (p : Offset) (h : Bool) (c k : Nat) : (rg.consumePort p h c k).mes = rg.mes := by
  obtain ⟨ls, h⟩ := consumePort_eq rg p h c k; rw [h]
@[simp] theorem consumePort_org (rg : Region) (p : Offset) (h : Bool) (c k : Nat) : (rg.consumePort p h c k).org = rg.org := by
  obtain ⟨ls, h⟩ := consumePort_eq rg p h c k; rw [h]
@[simp] theorem consumePort_installed (rg : Region) (p : Offset) (h : Bool) (c k : Nat) : (rg.consumePort p h c k).installed = rg.installed := by
  obtain ⟨ls, h⟩ := consumePort_eq rg p h c k; rw [h]
@[simp] theorem consumePort_frozen (rg : Region) (p : Offset) (h : Bool) (c k : Nat) : (rg.consumePort p h c k).frozen = rg.frozen := by
  obtain ⟨ls, h⟩ := consumePort_eq rg p h c k; rw [h]
@[simp] theorem consumePort_cut (rg : Region) (p : Offset) (h : Bool) (c k : Nat) : (rg.consumePort p h c k).cut = rg.cut := by
  obtain ⟨ls, h⟩ := consumePort_eq rg p h c k; rw [h]
@[simp] theorem consumePort_layouts (rg : Region) (p : Offset) (h : Bool) (c k : Nat) : (rg.consumePort p h c k).layouts = rg.layouts := by
  obtain ⟨ls, h⟩ := consumePort_eq rg p h c k; rw [h]

theorem emitPort_eq (rg : Region) (p : Offset) (h : Bool) (c k : Nat) (bs : List Beat) :
    ∃ ls, rg.emitPort p h c k bs = { rg with links := ls } := by
  unfold Region.emitPort; split <;> exact ⟨_, rfl⟩
@[simp] theorem emitPort_id (rg : Region) (p : Offset) (h : Bool) (c k : Nat) (bs : List Beat) : (rg.emitPort p h c k bs).id = rg.id := by
  obtain ⟨ls, h⟩ := emitPort_eq rg p h c k bs; rw [h]
@[simp] theorem emitPort_plane (rg : Region) (p : Offset) (h : Bool) (c k : Nat) (bs : List Beat) : (rg.emitPort p h c k bs).plane = rg.plane := by
  obtain ⟨ls, h⟩ := emitPort_eq rg p h c k bs; rw [h]
@[simp] theorem emitPort_inv (rg : Region) (p : Offset) (h : Bool) (c k : Nat) (bs : List Beat) : (rg.emitPort p h c k bs).inv = rg.inv := by
  obtain ⟨ls, h⟩ := emitPort_eq rg p h c k bs; rw [h]
@[simp] theorem emitPort_cells (rg : Region) (p : Offset) (h : Bool) (c k : Nat) (bs : List Beat) : (rg.emitPort p h c k bs).cells = rg.cells := by
  obtain ⟨ls, h⟩ := emitPort_eq rg p h c k bs; rw [h]
@[simp] theorem emitPort_sps (rg : Region) (p : Offset) (h : Bool) (c k : Nat) (bs : List Beat) : (rg.emitPort p h c k bs).sps = rg.sps := by
  obtain ⟨ls, h⟩ := emitPort_eq rg p h c k bs; rw [h]
@[simp] theorem emitPort_mes (rg : Region) (p : Offset) (h : Bool) (c k : Nat) (bs : List Beat) : (rg.emitPort p h c k bs).mes = rg.mes := by
  obtain ⟨ls, h⟩ := emitPort_eq rg p h c k bs; rw [h]
@[simp] theorem emitPort_org (rg : Region) (p : Offset) (h : Bool) (c k : Nat) (bs : List Beat) : (rg.emitPort p h c k bs).org = rg.org := by
  obtain ⟨ls, h⟩ := emitPort_eq rg p h c k bs; rw [h]
@[simp] theorem emitPort_installed (rg : Region) (p : Offset) (h : Bool) (c k : Nat) (bs : List Beat) : (rg.emitPort p h c k bs).installed = rg.installed := by
  obtain ⟨ls, h⟩ := emitPort_eq rg p h c k bs; rw [h]
@[simp] theorem emitPort_frozen (rg : Region) (p : Offset) (h : Bool) (c k : Nat) (bs : List Beat) : (rg.emitPort p h c k bs).frozen = rg.frozen := by
  obtain ⟨ls, h⟩ := emitPort_eq rg p h c k bs; rw [h]
@[simp] theorem emitPort_cut (rg : Region) (p : Offset) (h : Bool) (c k : Nat) (bs : List Beat) : (rg.emitPort p h c k bs).cut = rg.cut := by
  obtain ⟨ls, h⟩ := emitPort_eq rg p h c k bs; rw [h]
@[simp] theorem emitPort_layouts (rg : Region) (p : Offset) (h : Bool) (c k : Nat) (bs : List Beat) : (rg.emitPort p h c k bs).layouts = rg.layouts := by
  obtain ⟨ls, h⟩ := emitPort_eq rg p h c k bs; rw [h]

theorem blockPort_eq (rg : Region) (p : Offset) (h : Bool) (c k : Nat) :
    ∃ ls, rg.blockPort p h c k = { rg with links := ls } := by
  unfold Region.blockPort; split <;> exact ⟨_, rfl⟩
@[simp] theorem blockPort_id (rg : Region) (p : Offset) (h : Bool) (c k : Nat) : (rg.blockPort p h c k).id = rg.id := by
  obtain ⟨ls, h⟩ := blockPort_eq rg p h c k; rw [h]
@[simp] theorem blockPort_plane (rg : Region) (p : Offset) (h : Bool) (c k : Nat) : (rg.blockPort p h c k).plane = rg.plane := by
  obtain ⟨ls, h⟩ := blockPort_eq rg p h c k; rw [h]
@[simp] theorem blockPort_inv (rg : Region) (p : Offset) (h : Bool) (c k : Nat) : (rg.blockPort p h c k).inv = rg.inv := by
  obtain ⟨ls, h⟩ := blockPort_eq rg p h c k; rw [h]
@[simp] theorem blockPort_cells (rg : Region) (p : Offset) (h : Bool) (c k : Nat) : (rg.blockPort p h c k).cells = rg.cells := by
  obtain ⟨ls, h⟩ := blockPort_eq rg p h c k; rw [h]
@[simp] theorem blockPort_sps (rg : Region) (p : Offset) (h : Bool) (c k : Nat) : (rg.blockPort p h c k).sps = rg.sps := by
  obtain ⟨ls, h⟩ := blockPort_eq rg p h c k; rw [h]
@[simp] theorem blockPort_mes (rg : Region) (p : Offset) (h : Bool) (c k : Nat) : (rg.blockPort p h c k).mes = rg.mes := by
  obtain ⟨ls, h⟩ := blockPort_eq rg p h c k; rw [h]
@[simp] theorem blockPort_org (rg : Region) (p : Offset) (h : Bool) (c k : Nat) : (rg.blockPort p h c k).org = rg.org := by
  obtain ⟨ls, h⟩ := blockPort_eq rg p h c k; rw [h]
@[simp] theorem blockPort_installed (rg : Region) (p : Offset) (h : Bool) (c k : Nat) : (rg.blockPort p h c k).installed = rg.installed := by
  obtain ⟨ls, h⟩ := blockPort_eq rg p h c k; rw [h]
@[simp] theorem blockPort_frozen (rg : Region) (p : Offset) (h : Bool) (c k : Nat) : (rg.blockPort p h c k).frozen = rg.frozen := by
  obtain ⟨ls, h⟩ := blockPort_eq rg p h c k; rw [h]
@[simp] theorem blockPort_cut (rg : Region) (p : Offset) (h : Bool) (c k : Nat) : (rg.blockPort p h c k).cut = rg.cut := by
  obtain ⟨ls, h⟩ := blockPort_eq rg p h c k; rw [h]
@[simp] theorem blockPort_layouts (rg : Region) (p : Offset) (h : Bool) (c k : Nat) : (rg.blockPort p h c k).layouts = rg.layouts := by
  obtain ⟨ls, h⟩ := blockPort_eq rg p h c k; rw [h]

theorem requeue_eq (rg : Region) (p : Offset) (h : Bool) (c k : Nat) (bs : List Beat) :
    ∃ ls, rg.requeue p h c k bs = { rg with links := ls } := by
  unfold Region.requeue; split <;> exact ⟨_, rfl⟩
@[simp] theorem requeue_id (rg : Region) (p : Offset) (h : Bool) (c k : Nat) (bs : List Beat) : (rg.requeue p h c k bs).id = rg.id := by
  obtain ⟨ls, h⟩ := requeue_eq rg p h c k bs; rw [h]
@[simp] theorem requeue_plane (rg : Region) (p : Offset) (h : Bool) (c k : Nat) (bs : List Beat) : (rg.requeue p h c k bs).plane = rg.plane := by
  obtain ⟨ls, h⟩ := requeue_eq rg p h c k bs; rw [h]
@[simp] theorem requeue_inv (rg : Region) (p : Offset) (h : Bool) (c k : Nat) (bs : List Beat) : (rg.requeue p h c k bs).inv = rg.inv := by
  obtain ⟨ls, h⟩ := requeue_eq rg p h c k bs; rw [h]
@[simp] theorem requeue_cells (rg : Region) (p : Offset) (h : Bool) (c k : Nat) (bs : List Beat) : (rg.requeue p h c k bs).cells = rg.cells := by
  obtain ⟨ls, h⟩ := requeue_eq rg p h c k bs; rw [h]
@[simp] theorem requeue_sps (rg : Region) (p : Offset) (h : Bool) (c k : Nat) (bs : List Beat) : (rg.requeue p h c k bs).sps = rg.sps := by
  obtain ⟨ls, h⟩ := requeue_eq rg p h c k bs; rw [h]
@[simp] theorem requeue_mes (rg : Region) (p : Offset) (h : Bool) (c k : Nat) (bs : List Beat) : (rg.requeue p h c k bs).mes = rg.mes := by
  obtain ⟨ls, h⟩ := requeue_eq rg p h c k bs; rw [h]
@[simp] theorem requeue_org (rg : Region) (p : Offset) (h : Bool) (c k : Nat) (bs : List Beat) : (rg.requeue p h c k bs).org = rg.org := by
  obtain ⟨ls, h⟩ := requeue_eq rg p h c k bs; rw [h]
@[simp] theorem requeue_installed (rg : Region) (p : Offset) (h : Bool) (c k : Nat) (bs : List Beat) : (rg.requeue p h c k bs).installed = rg.installed := by
  obtain ⟨ls, h⟩ := requeue_eq rg p h c k bs; rw [h]
@[simp] theorem requeue_frozen (rg : Region) (p : Offset) (h : Bool) (c k : Nat) (bs : List Beat) : (rg.requeue p h c k bs).frozen = rg.frozen := by
  obtain ⟨ls, h⟩ := requeue_eq rg p h c k bs; rw [h]
@[simp] theorem requeue_cut (rg : Region) (p : Offset) (h : Bool) (c k : Nat) (bs : List Beat) : (rg.requeue p h c k bs).cut = rg.cut := by
  obtain ⟨ls, h⟩ := requeue_eq rg p h c k bs; rw [h]
@[simp] theorem requeue_layouts (rg : Region) (p : Offset) (h : Bool) (c k : Nat) (bs : List Beat) : (rg.requeue p h c k bs).layouts = rg.layouts := by
  obtain ⟨ls, h⟩ := requeue_eq rg p h c k bs; rw [h]

/-! ### Registers (R288) -/

@[simp] theorem setGreg_st (q : Seq) (r : BitVec 5) (v : DWord) : (setGreg q r v).st = q.st := by
  unfold setGreg; split <;> rfl
@[simp] theorem setGreg_park (q : Seq) (r : BitVec 5) (v : DWord) : (setGreg q r v).park = q.park := by
  unfold setGreg; split <;> rfl
@[simp] theorem setGreg_sqhead (q : Seq) (r : BitVec 5) (v : DWord) : (setGreg q r v).sqhead = q.sqhead := by
  unfold setGreg; split <;> rfl
@[simp] theorem setGreg_sqrec (q : Seq) (r : BitVec 5) (v : DWord) : (setGreg q r v).sqrec = q.sqrec := by
  unfold setGreg; split <;> rfl
@[simp] theorem setGreg_cls (q : Seq) (r : BitVec 5) (v : DWord) : (setGreg q r v).cls = q.cls := by
  unfold setGreg; split <;> rfl
@[simp] theorem setGreg_sub (q : Seq) (r : BitVec 5) (v : DWord) : (setGreg q r v).sub = q.sub := by
  unfold setGreg; split <;> rfl
@[simp] theorem setGreg_completed (q : Seq) (r : BitVec 5) (v : DWord) : (setGreg q r v).completed = q.completed := by
  unfold setGreg; split <;> rfl
@[simp] theorem setGreg_errNo (q : Seq) (r : BitVec 5) (v : DWord) : (setGreg q r v).errNo = q.errNo := by
  unfold setGreg; split <;> rfl
@[simp] theorem setGreg_errStage (q : Seq) (r : BitVec 5) (v : DWord) : (setGreg q r v).errStage = q.errStage := by
  unfold setGreg; split <;> rfl
@[simp] theorem setGreg_owed (q : Seq) (r : BitVec 5) (v : DWord) : (setGreg q r v).owed = q.owed := by
  unfold setGreg; split <;> rfl
@[simp] theorem setGreg_pc (q : Seq) (r : BitVec 5) (v : DWord) : (setGreg q r v).pc = q.pc := by
  unfold setGreg; split <;> rfl
@[simp] theorem setGreg_prio (q : Seq) (r : BitVec 5) (v : DWord) : (setGreg q r v).prio = q.prio := by
  unfold setGreg; split <;> rfl
@[simp] theorem setGreg_deadline (q : Seq) (r : BitVec 5) (v : DWord) : (setGreg q r v).deadline = q.deadline := by
  unfold setGreg; split <;> rfl
@[simp] theorem setGreg_image (q : Seq) (r : BitVec 5) (v : DWord) : (setGreg q r v).image = q.image := by
  unfold setGreg; split <;> rfl
@[simp] theorem setGreg_tp (q : Seq) (r : BitVec 5) (v : DWord) : (setGreg q r v).tp = q.tp := by
  unfold setGreg; split <;> rfl
@[simp] theorem setGreg_stopReq (q : Seq) (r : BitVec 5) (v : DWord) : (setGreg q r v).stopReq = q.stopReq := by
  unfold setGreg; split <;> rfl
@[simp] theorem setGreg_startAge (q : Seq) (r : BitVec 5) (v : DWord) : (setGreg q r v).startAge = q.startAge := by
  unfold setGreg; split <;> rfl
@[simp] theorem setGreg_recStart (q : Seq) (r : BitVec 5) (v : DWord) : (setGreg q r v).recStart = q.recStart := by
  unfold setGreg; split <;> rfl
@[simp] theorem setGreg_spliced (q : Seq) (r : BitVec 5) (v : DWord) : (setGreg q r v).spliced = q.spliced := by
  unfold setGreg; split <;> rfl
@[simp] theorem setGreg_resumeTo (q : Seq) (r : BitVec 5) (v : DWord) : (setGreg q r v).resumeTo = q.resumeTo := by
  unfold setGreg; split <;> rfl
@[simp] theorem setGreg_lastIssue (q : Seq) (r : BitVec 5) (v : DWord) : (setGreg q r v).lastIssue = q.lastIssue := by
  unfold setGreg; split <;> rfl
@[simp] theorem setGreg_raised (q : Seq) (r : BitVec 5) (v : DWord) : (setGreg q r v).raised = q.raised := by
  unfold setGreg; split <;> rfl
@[simp] theorem setGreg_irqAtEnd (q : Seq) (r : BitVec 5) (v : DWord) : (setGreg q r v).irqAtEnd = q.irqAtEnd := by
  unfold setGreg; split <;> rfl
@[simp] theorem setGreg_spill (q : Seq) (r : BitVec 5) (v : DWord) : (setGreg q r v).spill = q.spill := by
  unfold setGreg; split <;> rfl
@[simp] theorem setGreg_ovfVa (q : Seq) (r : BitVec 5) (v : DWord) : (setGreg q r v).ovfVa = q.ovfVa := by
  unfold setGreg; split <;> rfl
@[simp] theorem setGreg_ovfLen (q : Seq) (r : BitVec 5) (v : DWord) : (setGreg q r v).ovfLen = q.ovfLen := by
  unfold setGreg; split <;> rfl
@[simp] theorem setGreg_extVa (q : Seq) (r : BitVec 5) (v : DWord) : (setGreg q r v).extVa = q.extVa := by
  unfold setGreg; split <;> rfl
@[simp] theorem setGreg_nArg (q : Seq) (r : BitVec 5) (v : DWord) : (setGreg q r v).nArg = q.nArg := by
  unfold setGreg; split <;> rfl
@[simp] theorem setGreg_nRes (q : Seq) (r : BitVec 5) (v : DWord) : (setGreg q r v).nRes = q.nRes := by
  unfold setGreg; split <;> rfl
@[simp] theorem setGreg_sects (q : Seq) (r : BitVec 5) (v : DWord) : (setGreg q r v).sects = q.sects := by
  unfold setGreg; split <;> rfl
@[simp] theorem setGreg_queuedNo (q : Seq) (r : BitVec 5) (v : DWord) : (setGreg q r v).queuedNo = q.queuedNo := by
  unfold setGreg; split <;> rfl
@[simp] theorem setGreg_walking (q : Seq) (r : BitVec 5) (v : DWord) : (setGreg q r v).walking = q.walking := by
  unfold setGreg; split <;> rfl
@[simp] theorem setGreg_retry (q : Seq) (r : BitVec 5) (v : DWord) : (setGreg q r v).retry = q.retry := by
  unfold setGreg; split <;> rfl

end Sys2Proof.Machine
end

