-- ==== Sys2Proof/Laws/MemFrame.lean ====
section
/-! SUPPORT. What does not write memory: one lemma per operation, and one per instruction or event that has no store among its effects. -/

set_option linter.unusedSimpArgs false
set_option linter.unusedVariables false

namespace Sys2Proof.Machine

@[simp] theorem foldl_mem {α : Type} (f : State → α → State) (hf : ∀ t x, (f t x).mem = t.mem) (l : List α) (s : State) :
    (l.foldl f s).mem = s.mem := by
  induction l generalizing s with
  | nil => rfl
  | cons x t ih => rw [List.foldl_cons, ih, hf]

theorem ite_next {p : Prop} [Decidable p] {a b : Host.Outcome State Fault Refusal} {m : List Host.Cell} (ha : ∀ t, a = .next t → t.mem = m)
    (hb : ∀ t, b = .next t → t.mem = m) : ∀ t, ite p a b = .next t → t.mem = m := by
  split
  · exact ha
  · exact hb

theorem next_mem {x : State} {m : List Host.Cell} (h : x.mem = m) : ∀ t, (.next x : Host.Outcome State Fault Refusal) = .next t → t.mem = m := by
  intro t ht; injection ht with ht; subst ht; exact h

@[simp] theorem countPurity_mem (s : State) (r : RegId) (old new : Option Nat) : (countPurity s r old new).mem = s.mem := by
  unfold countPurity; split <;> rfl

@[simp] theorem raiseFault_mem (s : State) (r : RegId) (fi : FaultInfo) : (raiseFault s r fi).mem = s.mem := by
  unfold raiseFault; (repeat' split) <;> rfl

@[simp] theorem pruneWatch_mem (s : State) (part : Nat) :
    (pruneWatch s part).mem = s.mem := by
  rfl

@[simp] theorem watchHit_mem (s : State) (p g : Nat) :
    (watchHit s p g).mem = s.mem := by
  unfold watchHit; (repeat' split) <;> (first | rfl | (simp; done) | grind [setPart_mem, pruneWatch_mem])

@[simp] theorem watchWrite_mem (s : State) (k : Nat) (n : Nat) :
    (watchWrite s k n).mem = s.mem := by
  unfold watchWrite; (repeat' split) <;> (first | rfl | (simp; done) | grind [watchHit_mem])

@[simp] theorem atScope_mem (s : State) (scope : Nat) :
    (atScope s scope).mem = s.mem := by
  unfold atScope; split <;> simp

@[simp] theorem raiseIrq_mem (s : State) (p : Nat) (bit : Nat) :
    (raiseIrq s p bit).mem = s.mem := by
  unfold raiseIrq; (repeat' split) <;> (first | rfl | (simp; done) | grind [setPart_mem])

@[simp] theorem modMe_mem (s : State) (r : RegId) (o : Offset) (f : Me → Me) :
    (modMe s r o f).mem = s.mem := by
  unfold modMe; split <;> simp

@[simp] theorem recallOne_mem (s : State) (x : RegId × Offset × Hosted) :
    (recallOne s x).mem = s.mem := by
  simp [recallOne]

@[simp] theorem recallAll_mem (s : State) (r : RegId) :
    (recallAll s r).mem = s.mem := by
  simp [recallAll]

@[simp] theorem retireFaulted_mem (s : State) (r : RegId) :
    (retireFaulted s r).mem = s.mem := by
  unfold retireFaulted; (repeat' split) <;> simp

@[simp] theorem preDone_mem (s : State) (r : RegId) :
    (preDone s r).mem = s.mem := by
  unfold preDone; (repeat' split) <;> (first | rfl | (simp; done) | grind [setPart_mem])

@[simp] theorem dropSave_mem (s : State) (r : RegId) :
    (dropSave s r).mem = s.mem := by
  rfl

@[simp] theorem dropFlits_mem (s : State) (r : RegId) :
    (dropFlits s r).mem = s.mem := by
  rfl

@[simp] theorem keepLayout_mem (s : State) (rg : Region) :
    (keepLayout s rg).mem = s.mem := by
  unfold keepLayout; (repeat' split) <;> (first | rfl | (simp; done) | grind [setSeq_mem])

@[simp] theorem freeRegion_mem (s : State) (r : RegId) :
    (freeRegion s r).mem = s.mem := by
  unfold freeRegion; (repeat' split) <;> (first | rfl | (simp; done) | grind [setPart_mem, recallAll_mem, dropFlits_mem, keepLayout_mem])

@[simp] theorem modHead_mem (s : State) (c : SeqId) (k : Nat) (f : ArmEntry → ArmEntry) :
    (modHead s c k f).mem = s.mem := by
  rfl

@[simp] theorem unplace_mem (s : State) (r : RegId) :
    (unplace s r).mem = s.mem := by
  rfl

@[simp] theorem abandonPlace_mem (s : State) (r : RegId) :
    (abandonPlace s r).mem = s.mem := by
  simp [abandonPlace]

@[simp] theorem clearRegion_mem (s : State) (r : RegId) :
    (clearRegion s r).mem = s.mem := by
  unfold clearRegion; (repeat' split) <;> (first | rfl | (simp; done) | grind [setRegion_mem, setPart_mem, recallAll_mem, dropFlits_mem])

@[simp] theorem frctlAct_mem (s : State) (r : RegId) (act : BitVec 2) :
    (frctlAct s r act).mem = s.mem := by
  unfold frctlAct; (repeat' split) <;> (first | rfl | (simp; done) | grind [unplace_mem, abandonPlace_mem, clearRegion_mem])

@[simp] theorem frctlDue_mem (s : State) (part : Nat) :
    (frctlDue s part).mem = s.mem := by
  unfold frctlDue; (repeat' split) <;> (first | rfl | (simp; done) | grind [setPart_mem, frctlAct_mem])

@[simp] theorem faultedOn_mem (s : State) (r : RegId) :
    (faultedOn s r).mem = s.mem := by
  unfold faultedOn; (repeat' split) <;> (first | rfl | (simp; done) | grind [retireFaulted_mem, frctlDue_mem])

@[simp] theorem statSend_mem (s : State) (toks : List StatTok) :
    (statSend s toks).mem = s.mem := by
  rfl

@[simp] theorem applyFire_mem (s : State) (u : UnitId) (f : Fire) :
    (applyFire s u f).mem = s.mem := by
  unfold applyFire; (repeat' split) <;> simp

theorem nodeRun_mem (w : NodeWord) (s : State) (f : Env → Fire) (t : State) (h : nodeRun w s f = .next t) : t.mem = s.mem := by
  unfold nodeRun at h; (repeat' split at h) <;> (first | (injection h with h; subst h; first | rfl | (simp; done)) | grind [applyFire_mem])

theorem statelessRun_mem (w : NodeWord) (s : State) (ports : List Nat) (held : List Nat) (op : Env → Fire) (t : State) (h : statelessRun w s ports held op = .next t) : t.mem = s.mem := by
  exact nodeRun_mem _ _ _  t h

theorem statefulRun_mem (w : NodeWord) (s : State) (ports : List Nat) (op : Env → Fire) (t : State) (h : statefulRun w s ports op = .next t) : t.mem = s.mem := by
  exact nodeRun_mem _ _ _  t h

@[simp] theorem meFault_mem (s : State) (r : RegId) (o : Offset) (cls sub port : Nat) (tok : Option Beat) (partner : Payload) :
    (meFault s r o cls sub port tok partner).mem = s.mem := by
  simp [meFault]

@[simp] theorem enqueueFrom_mem (s : State) (r : RegId) (rg : Region) (m : Me) (k : Nat) (b : Beat) (rest : List Beat) :
    (enqueueFrom s r rg m k b rest).mem = s.mem := by
  unfold enqueueFrom; (repeat' split) <;> (first | rfl | (simp; done) | (dsimp only; split <;> simp))

theorem execMeCommandEnqueue_mem (r : RegId) (o : Offset) (s : State) (t : State) (h : execMeCommandEnqueue r o s = .next t) : t.mem = s.mem := by
  unfold execMeCommandEnqueue at h; (repeat' split at h) <;> (first | (injection h with h; subst h; first | rfl | (simp; done)) | grind [enqueueFrom_mem])

@[simp] theorem putMe_mem (s : State) (rg : Region) (m : Me) (toks : List StatTok) :
    (putMe s rg m toks).mem = s.mem := by
  rfl

@[simp] theorem forwardMarker_mem (s : State) (rg : Region) (m : Me) (e : MeEntry) (b : Beat) :
    (forwardMarker s rg m e b).mem = s.mem := by
  unfold forwardMarker; (repeat' split) <;> simp

@[simp] theorem takeMarker_mem (s : State) (rg : Region) (m : Me) (ps : List Nat) :
    (takeMarker s rg m ps).mem = s.mem := by
  unfold takeMarker; dsimp only; (repeat' split) <;> (first | rfl | (simp; done))

theorem execMeMarkerEntry_mem (r : RegId) (o : Offset) (s : State) (t : State) (h : execMeMarkerEntry r o s = .next t) : t.mem = s.mem := by
  unfold execMeMarkerEntry at h; (repeat' split at h) <;> (first | (injection h with h; subst h; first | rfl | (simp; done)) | grind [setRegion_mem, meFault_mem, takeMarker_mem, forwardMarker_mem])

theorem meRun_mem (code : Nat) (c : MCmd) (s : State) (start : MeRun → State) (go : MeRun → State) (h_start : ∀ z, (start z).mem = s.mem) (h_go : ∀ z, (go z).mem = s.mem) (t : State) (h : meRun code c s start go = .next t) : t.mem = s.mem := by
  unfold meRun at h; (repeat' split at h) <;> (first | (injection h with h; subst h; first | rfl | (simp; done)) | grind [execMeCommandEnqueue_mem, meFault_mem])

@[simp] theorem MeRun_atOnce_mem (x : MeRun) (s : State) (f : Me → Me) :
    (MeRun.atOnce x s f).mem = s.mem := by
  rfl

@[simp] theorem MeRun_begin_mem (x : MeRun) (s : State) :
    (MeRun.begin x s).mem = s.mem := by
  rfl

@[simp] theorem meStartFault_mem (x : MeRun) (s : State) (sub : Nat) :
    (meStartFault x s sub).mem = s.mem := by
  simp [meStartFault]

@[simp] theorem MeRun_operand_mem (x : MeRun) (s : State) (f : Fmt) (num : Nat) (line : Region → Me → MeEntry → MLine → State) (h_line : ∀ z1 z2 z3 z4, (line z1 z2 z3 z4).mem = s.mem) :
    (MeRun.operand x s f num line).mem = s.mem := by
  unfold MeRun.operand; (repeat' split) <;> (first | rfl | (simp; done) | grind [setRegion_mem, meFault_mem, putMe_mem])

theorem execMload_mem (c : MCmd) (s : State) (t : State) (h : execMload c s = .next t) : t.mem = s.mem := by
  exact meRun_mem _ _ _ _ _ (by intros; first | rfl | (simp; done) | ((repeat' split) <;> simp)) (by intros; first | rfl | (simp; done) | ((repeat' split) <;> simp)) t h

theorem execMswap_mem (c : MCmd) (s : State) (t : State) (h : execMswap c s = .next t) : t.mem = s.mem := by
  exact meRun_mem _ _ _ _ _ (by intros; first | rfl | (simp; done) | ((repeat' split) <;> simp)) (by intros; first | rfl | (simp; done) | ((repeat' split) <;> simp)) t h

theorem execMmul_mem (c : MCmd) (s : State) (t : State) (h : execMmul c s = .next t) : t.mem = s.mem := by
  unfold execMmul at h; (repeat' split at h) <;> (first | (injection h with h; subst h; first | rfl | (simp; done)) | grind [meRun_mem, MeRun_begin_mem, meStartFault_mem, MeRun_operand_mem, modMe_mem, putMe_mem])

theorem execMdrain_mem (c : MCmd) (s : State) (t : State) (h : execMdrain c s = .next t) : t.mem = s.mem := by
  unfold execMdrain at h; (repeat' split at h) <;> (first | (injection h with h; subst h; first | rfl | (simp; done)) | grind [meRun_mem, MeRun_begin_mem, setRegion_mem, putMe_mem])

theorem execMzero_mem (c : MCmd) (s : State) (t : State) (h : execMzero c s = .next t) : t.mem = s.mem := by
  exact meRun_mem _ _ _ _ _ (by intros; first | rfl | (simp; done) | ((repeat' split) <;> simp)) (by intros; first | rfl | (simp; done) | ((repeat' split) <;> simp)) t h

theorem execMfmt_mem (c : MCmd) (s : State) (t : State) (h : execMfmt c s = .next t) : t.mem = s.mem := by
  exact meRun_mem _ _ _ _ _ (by intros; first | rfl | (simp; done) | ((repeat' split) <;> simp)) (by intros; first | rfl | (simp; done) | ((repeat' split) <;> simp)) t h

theorem execMmigr_mem (c : MCmd) (s : State) (t : State) (h : execMmigr c s = .next t) : t.mem = s.mem := by
  exact meRun_mem _ _ _ _ _ (by intros; first | rfl | (simp; done) | ((repeat' split) <;> simp)) (by intros; first | rfl | (simp; done) | ((repeat' split) <;> simp)) t h

theorem execMcount_mem (c : MCmd) (s : State) (t : State) (h : execMcount c s = .next t) : t.mem = s.mem := by
  unfold execMcount at h; (repeat' split at h) <;> (first | (injection h with h; subst h; first | rfl | (simp; done)) | grind [meRun_mem, countPurity_mem, raiseFault_mem, setRegion_mem, MeRun_begin_mem, putMe_mem])

theorem execMeMigrate_mem (r : RegId) (o : Offset) (k : Nat) (south : Bool) (s : State) (t : State) (h : execMeMigrate r o k south s = .next t) : t.mem = s.mem := by
  unfold execMeMigrate at h; (repeat' split at h) <;> (first | (injection h with h; subst h; first | rfl | (simp; done)) | grind [modMe_mem])

theorem execMeMigrationReturn_mem (r : RegId) (o : Offset) (s : State) (t : State) (h : execMeMigrationReturn r o s = .next t) : t.mem = s.mem := by
  unfold execMeMigrationReturn at h; (repeat' split at h) <;> (first | (injection h with h; subst h; first | rfl | (simp; done)) | grind [modMe_mem])

theorem intOp_mem (w : NodeWord) (s : State) (srcs : List Src) (f : (Nat → Int) → Int) (t : State) (h : intOp w s srcs f = .next t) : t.mem = s.mem := by
  exact statelessRun_mem _ _ _ _ _  t h

theorem codeOp_mem (w : NodeWord) (s : State) (srcs : List Src) (f : Bool → Nat → List Nat → Nat) (t : State) (h : codeOp w s srcs f = .next t) : t.mem = s.mem := by
  exact statelessRun_mem _ _ _ _ _  t h

theorem execIadd_mem (w : NodeWord) (s : State) (t : State) (h : execIadd w s = .next t) : t.mem = s.mem := by
  exact intOp_mem _ _ _ _  t h

theorem execIsub_mem (w : NodeWord) (s : State) (t : State) (h : execIsub w s = .next t) : t.mem = s.mem := by
  exact intOp_mem _ _ _ _  t h

theorem execImul_mem (w : NodeWord) (s : State) (t : State) (h : execImul w s = .next t) : t.mem = s.mem := by
  exact intOp_mem _ _ _ _  t h

theorem execImulh_mem (w : NodeWord) (s : State) (t : State) (h : execImulh w s = .next t) : t.mem = s.mem := by
  exact codeOp_mem _ _ _ _  t h

theorem execImad_mem (w : NodeWord) (s : State) (t : State) (h : execImad w s = .next t) : t.mem = s.mem := by
  exact intOp_mem _ _ _ _  t h

theorem execIneg_mem (w : NodeWord) (s : State) (t : State) (h : execIneg w s = .next t) : t.mem = s.mem := by
  exact intOp_mem _ _ _ _  t h

theorem execIabs_mem (w : NodeWord) (s : State) (t : State) (h : execIabs w s = .next t) : t.mem = s.mem := by
  exact intOp_mem _ _ _ _  t h

theorem execImin_mem (w : NodeWord) (s : State) (t : State) (h : execImin w s = .next t) : t.mem = s.mem := by
  exact codeOp_mem _ _ _ _  t h

theorem execImax_mem (w : NodeWord) (s : State) (t : State) (h : execImax w s = .next t) : t.mem = s.mem := by
  exact codeOp_mem _ _ _ _  t h

theorem execIcmp_mem (w : NodeWord) (s : State) (t : State) (h : execIcmp w s = .next t) : t.mem = s.mem := by
  exact codeOp_mem _ _ _ _  t h

theorem execAnd_mem (w : NodeWord) (s : State) (t : State) (h : execAnd w s = .next t) : t.mem = s.mem := by
  exact codeOp_mem _ _ _ _  t h

theorem execOr_mem (w : NodeWord) (s : State) (t : State) (h : execOr w s = .next t) : t.mem = s.mem := by
  exact codeOp_mem _ _ _ _  t h

theorem execXor_mem (w : NodeWord) (s : State) (t : State) (h : execXor w s = .next t) : t.mem = s.mem := by
  exact codeOp_mem _ _ _ _  t h

theorem execAndn_mem (w : NodeWord) (s : State) (t : State) (h : execAndn w s = .next t) : t.mem = s.mem := by
  exact codeOp_mem _ _ _ _  t h

theorem execNot_mem (w : NodeWord) (s : State) (t : State) (h : execNot w s = .next t) : t.mem = s.mem := by
  exact codeOp_mem _ _ _ _  t h

theorem execShl_mem (w : NodeWord) (s : State) (t : State) (h : execShl w s = .next t) : t.mem = s.mem := by
  exact statelessRun_mem _ _ _ _ _  t h

theorem execShr_mem (w : NodeWord) (s : State) (t : State) (h : execShr w s = .next t) : t.mem = s.mem := by
  exact codeOp_mem _ _ _ _  t h

theorem execSar_mem (w : NodeWord) (s : State) (t : State) (h : execSar w s = .next t) : t.mem = s.mem := by
  exact codeOp_mem _ _ _ _  t h

theorem execRotl_mem (w : NodeWord) (s : State) (t : State) (h : execRotl w s = .next t) : t.mem = s.mem := by
  exact codeOp_mem _ _ _ _  t h

theorem execClz_mem (w : NodeWord) (s : State) (t : State) (h : execClz w s = .next t) : t.mem = s.mem := by
  exact codeOp_mem _ _ _ _  t h

theorem execPopc_mem (w : NodeWord) (s : State) (t : State) (h : execPopc w s = .next t) : t.mem = s.mem := by
  exact codeOp_mem _ _ _ _  t h

theorem execSel_mem (w : NodeWord) (s : State) (t : State) (h : execSel w s = .next t) : t.mem = s.mem := by
  unfold execSel at h; (repeat' split at h) <;> (first | (injection h with h; subst h; first | rfl | (simp; done)) | grind [statelessRun_mem])

theorem fltOp_mem (w : NodeWord) (s : State) (srcs : List Src) (f : (Nat → Exact) → Exact) (t : State) (h : fltOp w s srcs f = .next t) : t.mem = s.mem := by
  exact statelessRun_mem _ _ _ _ _  t h

theorem fltCodeOp_mem (w : NodeWord) (s : State) (srcs : List Src) (f : FloatFmt → List Nat → Nat) (t : State) (h : fltCodeOp w s srcs f = .next t) : t.mem = s.mem := by
  exact statelessRun_mem _ _ _ _ _  t h

theorem execFadd_mem (w : NodeWord) (s : State) (t : State) (h : execFadd w s = .next t) : t.mem = s.mem := by
  exact fltOp_mem _ _ _ _  t h

theorem execFsub_mem (w : NodeWord) (s : State) (t : State) (h : execFsub w s = .next t) : t.mem = s.mem := by
  exact fltOp_mem _ _ _ _  t h

theorem execFmul_mem (w : NodeWord) (s : State) (t : State) (h : execFmul w s = .next t) : t.mem = s.mem := by
  exact fltOp_mem _ _ _ _  t h

theorem execFfma_mem (w : NodeWord) (s : State) (t : State) (h : execFfma w s = .next t) : t.mem = s.mem := by
  exact fltOp_mem _ _ _ _  t h

theorem execFneg_mem (w : NodeWord) (s : State) (t : State) (h : execFneg w s = .next t) : t.mem = s.mem := by
  exact fltCodeOp_mem _ _ _ _  t h

theorem execFabs_mem (w : NodeWord) (s : State) (t : State) (h : execFabs w s = .next t) : t.mem = s.mem := by
  exact fltCodeOp_mem _ _ _ _  t h

theorem execFmin_mem (w : NodeWord) (s : State) (t : State) (h : execFmin w s = .next t) : t.mem = s.mem := by
  exact fltCodeOp_mem _ _ _ _  t h

theorem execFmax_mem (w : NodeWord) (s : State) (t : State) (h : execFmax w s = .next t) : t.mem = s.mem := by
  exact fltCodeOp_mem _ _ _ _  t h

theorem execFcmp_mem (w : NodeWord) (s : State) (t : State) (h : execFcmp w s = .next t) : t.mem = s.mem := by
  exact fltCodeOp_mem _ _ _ _  t h

theorem execFrcp_mem (w : NodeWord) (s : State) (t : State) (h : execFrcp w s = .next t) : t.mem = s.mem := by
  exact fltOp_mem _ _ _ _  t h

theorem execFrsq_mem (w : NodeWord) (s : State) (t : State) (h : execFrsq w s = .next t) : t.mem = s.mem := by
  exact fltOp_mem _ _ _ _  t h

theorem execFsqrt_mem (w : NodeWord) (s : State) (t : State) (h : execFsqrt w s = .next t) : t.mem = s.mem := by
  exact fltOp_mem _ _ _ _  t h

theorem execFexp2_mem (w : NodeWord) (s : State) (t : State) (h : execFexp2 w s = .next t) : t.mem = s.mem := by
  exact fltOp_mem _ _ _ _  t h

theorem execFlog2_mem (w : NodeWord) (s : State) (t : State) (h : execFlog2 w s = .next t) : t.mem = s.mem := by
  exact fltOp_mem _ _ _ _  t h

theorem execFscale_mem (w : NodeWord) (s : State) (t : State) (h : execFscale w s = .next t) : t.mem = s.mem := by
  exact statelessRun_mem _ _ _ _ _  t h

theorem execCvt_mem (w : NodeWord) (s : State) (t : State) (h : execCvt w s = .next t) : t.mem = s.mem := by
  unfold execCvt at h; (repeat' split at h) <;> (first | (injection h with h; subst h; first | rfl | (simp; done)) | grind [statefulRun_mem, statelessRun_mem])

theorem execQpack_mem (w : NodeWord) (s : State) (t : State) (h : execQpack w s = .next t) : t.mem = s.mem := by
  exact statefulRun_mem _ _ _ _  t h

theorem execQunpk_mem (w : NodeWord) (s : State) (t : State) (h : execQunpk w s = .next t) : t.mem = s.mem := by
  exact statefulRun_mem _ _ _ _  t h

theorem laneOp_mem (w : NodeWord) (s : State) (srcs : List Src) (f : Nat → Nat → List (List (Option Nat)) → List (Option Nat) × List (Option Nat)) (t : State) (h : laneOp w s srcs f = .next t) : t.mem = s.mem := by
  exact statelessRun_mem _ _ _ _ _  t h

theorem execBcast_mem (w : NodeWord) (s : State) (t : State) (h : execBcast w s = .next t) : t.mem = s.mem := by
  exact laneOp_mem _ _ _ _  t h

theorem execShuf_mem (w : NodeWord) (s : State) (t : State) (h : execShuf w s = .next t) : t.mem = s.mem := by
  exact laneOp_mem _ _ _ _  t h

theorem execSlide_mem (w : NodeWord) (s : State) (t : State) (h : execSlide w s = .next t) : t.mem = s.mem := by
  exact laneOp_mem _ _ _ _  t h

theorem execPack_mem (w : NodeWord) (s : State) (t : State) (h : execPack w s = .next t) : t.mem = s.mem := by
  exact laneOp_mem _ _ _ _  t h

theorem execUnpack_mem (w : NodeWord) (s : State) (t : State) (h : execUnpack w s = .next t) : t.mem = s.mem := by
  exact laneOp_mem _ _ _ _  t h

theorem execLaneid_mem (w : NodeWord) (s : State) (t : State) (h : execLaneid w s = .next t) : t.mem = s.mem := by
  exact laneOp_mem _ _ _ _  t h

theorem reduceOp_mem (w : NodeWord) (s : State) (f : List Nat → Rounded × Bool) (t : State) (h : reduceOp w s f = .next t) : t.mem = s.mem := by
  exact statelessRun_mem _ _ _ _ _  t h

theorem execHsum_mem (w : NodeWord) (s : State) (t : State) (h : execHsum w s = .next t) : t.mem = s.mem := by
  exact reduceOp_mem _ _ _  t h

theorem execHmax_mem (w : NodeWord) (s : State) (t : State) (h : execHmax w s = .next t) : t.mem = s.mem := by
  exact reduceOp_mem _ _ _  t h

theorem execHmin_mem (w : NodeWord) (s : State) (t : State) (h : execHmin w s = .next t) : t.mem = s.mem := by
  exact reduceOp_mem _ _ _  t h

theorem accRun_mem (w : NodeWord) (s : State) (step : Env → Beat → OpState × Counts) (out : OpState → BitVec 3 → Beat) (t : State) (h : accRun w s step out = .next t) : t.mem = s.mem := by
  exact statefulRun_mem _ _ _ _  t h

theorem execAcc_mem (w : NodeWord) (s : State) (t : State) (h : execAcc w s = .next t) : t.mem = s.mem := by
  unfold execAcc at h; (repeat' split at h) <;> (first | (injection h with h; subst h; first | rfl | (simp; done)) | grind [accRun_mem])

theorem execAccmax_mem (w : NodeWord) (s : State) (t : State) (h : execAccmax w s = .next t) : t.mem = s.mem := by
  unfold execAccmax at h; (repeat' split at h) <;> (first | (injection h with h; subst h; first | rfl | (simp; done)) | grind [accRun_mem])

theorem execCount_mem (w : NodeWord) (s : State) (t : State) (h : execCount w s = .next t) : t.mem = s.mem := by
  exact accRun_mem _ _ _ _  t h

theorem execPscan_mem (w : NodeWord) (s : State) (t : State) (h : execPscan w s = .next t) : t.mem = s.mem := by
  exact statefulRun_mem _ _ _ _  t h

theorem execSteer_mem (w : NodeWord) (s : State) (t : State) (h : execSteer w s = .next t) : t.mem = s.mem := by
  exact nodeRun_mem _ _ _  t h

theorem execFork_mem (w : NodeWord) (s : State) (t : State) (h : execFork w s = .next t) : t.mem = s.mem := by
  unfold execFork at h; (repeat' split at h) <;> (first | (injection h with h; subst h; first | rfl | (simp; done)) | grind [statelessRun_mem])

theorem execGate_mem (w : NodeWord) (s : State) (t : State) (h : execGate w s = .next t) : t.mem = s.mem := by
  unfold execGate at h; (repeat' split at h) <;> (first | (injection h with h; subst h; first | rfl | (simp; done)) | grind [statelessRun_mem])

theorem execDrop_mem (w : NodeWord) (s : State) (t : State) (h : execDrop w s = .next t) : t.mem = s.mem := by
  exact nodeRun_mem _ _ _  t h

theorem execSink_mem (w : NodeWord) (s : State) (t : State) (h : execSink w s = .next t) : t.mem = s.mem := by
  exact nodeRun_mem _ _ _  t h

theorem execMerge_mem (w : NodeWord) (s : State) (t : State) (h : execMerge w s = .next t) : t.mem = s.mem := by
  exact nodeRun_mem _ _ _  t h

theorem execMergerr_mem (w : NodeWord) (s : State) (t : State) (h : execMergerr w s = .next t) : t.mem = s.mem := by
  exact nodeRun_mem _ _ _  t h

theorem execMergesel_mem (w : NodeWord) (s : State) (t : State) (h : execMergesel w s = .next t) : t.mem = s.mem := by
  exact nodeRun_mem _ _ _  t h

theorem execDist_mem (w : NodeWord) (s : State) (t : State) (h : execDist w s = .next t) : t.mem = s.mem := by
  unfold execDist at h; (repeat' split at h) <;> (first | (injection h with h; subst h; first | rfl | (simp; done)) | grind [statelessRun_mem])

theorem execDispatch_mem (w : NodeWord) (s : State) (t : State) (h : execDispatch w s = .next t) : t.mem = s.mem := by
  exact statefulRun_mem _ _ _ _  t h

theorem execGen_mem (w : NodeWord) (s : State) (t : State) (h : execGen w s = .next t) : t.mem = s.mem := by
  exact nodeRun_mem _ _ _  t h

theorem loopRun_mem (w : NodeWord) (s : State) (carry : Bool) (t : State) (h : loopRun w s carry = .next t) : t.mem = s.mem := by
  exact statefulRun_mem _ _ _ _  t h

theorem execCarry_mem (w : NodeWord) (s : State) (t : State) (h : execCarry w s = .next t) : t.mem = s.mem := by
  exact loopRun_mem _ _ _  t h

theorem execInvar_mem (w : NodeWord) (s : State) (t : State) (h : execInvar w s = .next t) : t.mem = s.mem := by
  exact loopRun_mem _ _ _  t h

theorem execRepeat_mem (w : NodeWord) (s : State) (t : State) (h : execRepeat w s = .next t) : t.mem = s.mem := by
  exact statefulRun_mem _ _ _ _  t h

theorem execSeqtag_mem (w : NodeWord) (s : State) (t : State) (h : execSeqtag w s = .next t) : t.mem = s.mem := by
  exact statefulRun_mem _ _ _ _  t h

theorem execReorder_mem (w : NodeWord) (s : State) (t : State) (h : execReorder w s = .next t) : t.mem = s.mem := by
  exact statefulRun_mem _ _ _ _  t h

theorem execMark_mem (w : NodeWord) (s : State) (t : State) (h : execMark w s = .next t) : t.mem = s.mem := by
  exact statefulRun_mem _ _ _ _  t h

theorem execStopi_mem (w : NodeWord) (s : State) (t : State) (h : execStopi w s = .next t) : t.mem = s.mem := by
  exact statefulRun_mem _ _ _ _  t h

theorem execStopx_mem (w : NodeWord) (s : State) (t : State) (h : execStopx w s = .next t) : t.mem = s.mem := by
  exact nodeRun_mem _ _ _  t h

theorem execStopup_mem (w : NodeWord) (s : State) (t : State) (h : execStopup w s = .next t) : t.mem = s.mem := by
  exact nodeRun_mem _ _ _  t h

theorem execWaitmk_mem (w : NodeWord) (s : State) (t : State) (h : execWaitmk w s = .next t) : t.mem = s.mem := by
  exact statefulRun_mem _ _ _ _  t h

theorem execSpecres_mem (w : NodeWord) (s : State) (t : State) (h : execSpecres w s = .next t) : t.mem = s.mem := by
  exact statefulRun_mem _ _ _ _  t h

theorem execRetype_mem (w : NodeWord) (s : State) (t : State) (h : execRetype w s = .next t) : t.mem = s.mem := by
  exact statefulRun_mem _ _ _ _  t h

theorem execLd_mem (w : NodeWord) (s : State) (t : State) (h : execLd w s = .next t) : t.mem = s.mem := by
  exact statefulRun_mem _ _ _ _  t h

theorem execSt_mem (w : NodeWord) (s : State) (t : State) (h : execSt w s = .next t) : t.mem = s.mem := by
  exact statefulRun_mem _ _ _ _  t h

theorem tileBeat_mem (w : NodeWord) (s : State) (ps : List Nat) (atomic : Bool) (writes : Bool) (trap : Nat) (lane : SegDesc → Bool → Nat → Env → Beat → Option LaneDone) (out : Env → Beat → Bool → Beat) (t : State) (h : tileBeat w s ps atomic writes trap lane out = .next t) : t.mem = s.mem := by
  exact statefulRun_mem _ _ _ _  t h

theorem tileRun_mem (w : NodeWord) (s : State) (ps : List Nat) (bits : Bool) (writes : Bool) (op : LaneOp) (t : State) (h : tileRun w s ps bits writes op = .next t) : t.mem = s.mem := by
  exact tileBeat_mem _ _ _ _ _ _ _ _  t h

theorem execLdreq_mem (w : NodeWord) (s : State) (t : State) (h : execLdreq w s = .next t) : t.mem = s.mem := by
  exact tileRun_mem _ _ _ _ _ _  t h

theorem execStreq_mem (w : NodeWord) (s : State) (t : State) (h : execStreq w s = .next t) : t.mem = s.mem := by
  exact tileBeat_mem _ _ _ _ _ _ _ _  t h

theorem execAadd_mem (w : NodeWord) (s : State) (t : State) (h : execAadd w s = .next t) : t.mem = s.mem := by
  exact tileRun_mem _ _ _ _ _ _  t h

theorem execAmin_mem (w : NodeWord) (s : State) (t : State) (h : execAmin w s = .next t) : t.mem = s.mem := by
  exact tileRun_mem _ _ _ _ _ _  t h

theorem execAmax_mem (w : NodeWord) (s : State) (t : State) (h : execAmax w s = .next t) : t.mem = s.mem := by
  exact tileRun_mem _ _ _ _ _ _  t h

theorem execAxchg_mem (w : NodeWord) (s : State) (t : State) (h : execAxchg w s = .next t) : t.mem = s.mem := by
  exact tileRun_mem _ _ _ _ _ _  t h

theorem execAcas_mem (w : NodeWord) (s : State) (t : State) (h : execAcas w s = .next t) : t.mem = s.mem := by
  exact tileRun_mem _ _ _ _ _ _  t h

theorem execAtas_mem (w : NodeWord) (s : State) (t : State) (h : execAtas w s = .next t) : t.mem = s.mem := by
  exact tileRun_mem _ _ _ _ _ _  t h

theorem execAor_mem (w : NodeWord) (s : State) (t : State) (h : execAor w s = .next t) : t.mem = s.mem := by
  exact tileRun_mem _ _ _ _ _ _  t h

theorem execPop_mem (w : NodeWord) (s : State) (t : State) (h : execPop w s = .next t) : t.mem = s.mem := by
  exact statefulRun_mem _ _ _ _  t h

theorem execTld_mem (w : NodeWord) (s : State) (t : State) (h : execTld w s = .next t) : t.mem = s.mem := by
  exact statefulRun_mem _ _ _ _  t h

theorem execTst_mem (w : NodeWord) (s : State) (t : State) (h : execTst w s = .next t) : t.mem = s.mem := by
  exact statefulRun_mem _ _ _ _  t h

theorem execSpbsend_mem (w : NodeWord) (s : State) (t : State) (h : execSpbsend w s = .next t) : t.mem = s.mem := by
  exact statefulRun_mem _ _ _ _  t h

theorem execFence_mem (w : NodeWord) (s : State) (t : State) (h : execFence w s = .next t) : t.mem = s.mem := by
  exact statefulRun_mem _ _ _ _  t h

theorem execNodeTokenFire_mem (u : UnitId) (s : State) (t : State) (h : execNodeTokenFire u s = .next t) : t.mem = s.mem := by
  unfold execNodeTokenFire at h; (repeat' split at h) <;> (first | (injection h with h; subst h; first | rfl | (simp; done)) | grind [applyFire_mem])

theorem execMatchDiscard_mem (u : UnitId) (cd : Bool) (s : State) (t : State) (h : execMatchDiscard u cd s = .next t) : t.mem = s.mem := by
  unfold execMatchDiscard at h; (repeat' split at h) <;> (first | (injection h with h; subst h; first | rfl | (simp; done)) | grind [applyFire_mem])

theorem execLatchAdvance_mem (r : RegId) (link : Nat) (k : Nat) (s : State) (t : State) (h : execLatchAdvance r link k s = .next t) : t.mem = s.mem := by
  unfold execLatchAdvance at h; (repeat' split at h) <;> (first | (injection h with h; subst h; first | rfl | (simp; done)) | grind [setRegion_mem, raiseFault_mem, statSend_mem])

theorem execFreeSlotReturn_mem (r : RegId) (link : Nat) (s : State) (t : State) (h : execFreeSlotReturn r link s = .next t) : t.mem = s.mem := by
  unfold execFreeSlotReturn at h; (repeat' split at h) <;> (first | (injection h with h; subst h; first | rfl | (simp; done)) | grind [setRegion_mem])

theorem execRetypeApply_mem (u : UnitId) (port : Nat) (s : State) (t : State) (h : execRetypeApply u port s = .next t) : t.mem = s.mem := by
  unfold execRetypeApply at h; (repeat' split at h) <;> (first | (injection h with h; subst h; first | rfl | (simp; done)) | grind [applyFire_mem])

@[simp] theorem modLinkOf_mem (s : State) (r : RegId) (j : Nat) (f : Link → Link) :
    (modLinkOf s r j f).mem = s.mem := by
  unfold modLinkOf; split <;> simp

@[simp] theorem setBridge_mem (s : State) (d : Nat) (b : Bridge) :
    (setBridge s d b).mem = s.mem := by
  rfl

@[simp] theorem sendBridge_mem (s : State) (dir : Nat) :
    (sendBridge s dir).mem = s.mem := by
  unfold sendBridge; (repeat' split) <;> (first | rfl | (simp; done) | grind [setBridge_mem, modLinkOf_mem])

@[simp] theorem holdBeats_mem (s : State) (port : Nat) :
    (holdBeats s port).mem = s.mem := by
  unfold holdBeats; exact foldl_mem _ (fun t x => by split <;> simp) _ _

@[simp] theorem sendPortBeat_mem (s0 : State) (port : Nat) :
    (sendPortBeat s0 port).mem = s0.mem := by
  unfold sendPortBeat; dsimp only; (repeat' split) <;> simp

theorem execBridgeSend_mem (dir : Nat) (s : State) (t : State) (h : execBridgeSend dir s = .next t) : t.mem = s.mem := by
  unfold execBridgeSend at h; injection h with h; subst h; split
  · simp
  · exact sendPortBeat_mem _ _

theorem execAllowanceReturn_mem (r : RegId) (link : Nat) (dir : Nat) (s : State) (t : State) (h : execAllowanceReturn r link dir s = .next t) : t.mem = s.mem := by
  unfold execAllowanceReturn at h; (repeat' split at h) <;> (first | (injection h with h; subst h; first | rfl | (simp; done)) | grind [setRegion_mem])

theorem execFlitReceive_mem (dir : Nat) (good : Bool) (s t : State) (h : execFlitReceive dir good s = .next t) : t.mem = s.mem := by
  unfold execFlitReceive at h
  dsimp only at h
  (repeat' split at h) <;> (injection h with h; subst h; first | rfl | (simp; done) | (rw [foldl_mem _ (fun t x => by simp)]; simp))

theorem execFlitReplay_mem (dir : Nat) (s : State) (t : State) (h : execFlitReplay dir s = .next t) : t.mem = s.mem := by
  unfold execFlitReplay at h; (repeat' split at h) <;> (first | (injection h with h; subst h; first | rfl | (simp; done)) | grind [setBridge_mem])

theorem execStatTokenAdd_mem (k : Nat) (s : State) (t : State) (h : execStatTokenAdd k s = .next t) : t.mem = s.mem := by
  unfold execStatTokenAdd at h; (repeat' split at h) <;> (first | (injection h with h; subst h; first | rfl | (simp; done)) | grind [setPart_mem])

@[simp] theorem clearUses_mem (s : State) (r : RegId) (us : List BridgeUse) :
    (clearUses s r us).mem = s.mem := by
  unfold clearUses; exact foldl_mem _ (fun t i => by split <;> simp) _ _

@[simp] theorem loadEnded_mem (s : State) (r : RegId) (f : Feed) :
    (loadEnded s r f).mem = s.mem := by
  unfold loadEnded; split <;> simp

@[simp] theorem feedPut_mem (s : State) (rg : Region) (g : Feed) :
    (feedPut s rg g).mem = s.mem := by
  unfold feedPut; split <;> simp

theorem cfgRun_mem (adds : Bool) (k : Region → Feed → Feed) (s : State) (t : State) (h : cfgRun adds k s = .next t) : t.mem = s.mem := by
  unfold cfgRun at h; (repeat' split at h) <;> (first | (injection h with h; subst h; first | rfl | (simp; done)) | grind [feedPut_mem])

theorem execSetc_mem (x : BitVec 14) (y : BitVec 14) (s : State) (t : State) (h : execSetc x y s = .next t) : t.mem = s.mem := by
  exact cfgRun_mem _ _ _  t h

theorem execMovc_mem (x : BitVec 14) (y : BitVec 14) (s : State) (t : State) (h : execMovc x y s = .next t) : t.mem = s.mem := by
  exact cfgRun_mem _ _ _  t h

theorem execAutox_mem (x : BitVec 14) (y : BitVec 14) (s : State) (t : State) (h : execAutox x y s = .next t) : t.mem = s.mem := by
  exact cfgRun_mem _ _ _  t h

theorem execRect_mem (x : BitVec 14) (y : BitVec 14) (s : State) (t : State) (h : execRect x y s = .next t) : t.mem = s.mem := by
  exact cfgRun_mem _ _ _  t h

theorem execHard_mem (x : BitVec 14) (y : BitVec 14) (s : State) (t : State) (h : execHard x y s = .next t) : t.mem = s.mem := by
  exact cfgRun_mem _ _ _  t h

theorem execVers_mem (x : BitVec 14) (y : BitVec 14) (s : State) (t : State) (h : execVers x y s = .next t) : t.mem = s.mem := by
  exact cfgRun_mem _ _ _  t h

theorem execEnds_mem (c : BitVec 28) (s : State) (t : State) (h : execEnds c s = .next t) : t.mem = s.mem := by
  exact cfgRun_mem _ _ _  t h

theorem execWrite_mem (f : BitVec 7) (v : BitVec 24) (s : State) (t : State) (h : execWrite f v s = .next t) : t.mem = s.mem := by
  exact cfgRun_mem _ _ _  t h

theorem execLocalRegisterCommit_mem (v : BitVec 24) (s : State) (t : State) (h : execLocalRegisterCommit v s = .next t) : t.mem = s.mem := by
  exact cfgRun_mem _ _ _  t h

theorem execBankInitCommit_mem (v : BitVec 24) (s : State) (t : State) (h : execBankInitCommit v s = .next t) : t.mem = s.mem := by
  exact cfgRun_mem _ _ _  t h

theorem execTilePreload_mem (v : BitVec 24) (s : State) (t : State) (h : execTilePreload v s = .next t) : t.mem = s.mem := by
  exact cfgRun_mem _ _ _  t h

@[simp] theorem fillTlbs_mem (s : State) (part : Nat) (sp : Nat) (e : TlbEntry) :
    (fillTlbs s part sp e).mem = s.mem := by
  rfl

theorem tlbLookup_mem (s : State) (part : Nat) (sp : Nat) (va : Nat) (write : Bool) (t : State) (x : TlbEntry) (h : tlbLookup s part sp va write = some (t, x)) : t.mem = s.mem := by
  unfold tlbLookup at h; (repeat' split at h) <;> (first | (injection h with h; subst h; first | rfl | (simp; done)) | grind [setPart_mem])

@[simp] theorem modSp_mem (s : State) (r : RegId) (o : Offset) (f : Sp → Sp) :
    (modSp s r o f).mem = s.mem := by
  unfold modSp; split <;> simp

@[simp] theorem modSlot_mem (s : State) (r : RegId) (o : Offset) (stamp : Nat) (f : Slot → Slot) :
    (modSlot s r o stamp f).mem = s.mem := by
  simp [modSlot]

@[simp] theorem spFault_mem (s : State) (r : RegId) (o : Offset) (cls sub port : Nat) (tok : Option Beat) (partner : Payload) :
    (spFault s r o cls sub port tok partner).mem = s.mem := by
  unfold spFault; split <;> simp

@[simp] theorem slotFault_mem (s : State) (r : RegId) (o : Offset) (sl : Slot) (cls : Nat) (sub : Nat) :
    (slotFault s r o sl cls sub).mem = s.mem := by
  simp [slotFault]

theorem acceptSpb_mem (i : Instr) (s : State) (t : State) (h : acceptSpb i s = .next t) : t.mem = s.mem := by
  unfold acceptSpb at h; (repeat' split at h) <;> (first | (injection h with h; subst h; first | rfl | (simp; done)) | grind [setRegion_mem, spFault_mem])

theorem execLinRead_mem (h : SpbHead) (b : LinBody) (s : State) (t : State) (h : execLinRead h b s = .next t) : t.mem = s.mem := by
  exact acceptSpb_mem _ _  t h

theorem execLinWrite_mem (h : SpbHead) (b : LinBody) (s : State) (t : State) (h : execLinWrite h b s = .next t) : t.mem = s.mem := by
  exact acceptSpb_mem _ _  t h

theorem execGath_mem (h : SpbHead) (b : GathBody) (s : State) (t : State) (h : execGath h b s = .next t) : t.mem = s.mem := by
  exact acceptSpb_mem _ _  t h

theorem execScat_mem (h : SpbHead) (b : GathBody) (s : State) (t : State) (h : execScat h b s = .next t) : t.mem = s.mem := by
  exact acceptSpb_mem _ _  t h

theorem execCopy_mem (h : SpbHead) (b : CopyBody) (s : State) (t : State) (h : execCopy h b s = .next t) : t.mem = s.mem := by
  exact acceptSpb_mem _ _  t h

theorem execFib_mem (h : SpbHead) (b : FibBody) (s : State) (t : State) (h : execFib h b s = .next t) : t.mem = s.mem := by
  exact acceptSpb_mem _ _  t h

theorem execHash_mem (h : SpbHead) (b : HashBody) (s : State) (t : State) (h : execHash h b s = .next t) : t.mem = s.mem := by
  exact acceptSpb_mem _ _  t h

theorem execFlush_mem (h : SpbHead) (b : FlushBody) (s : State) (t : State) (h : execFlush h b s = .next t) : t.mem = s.mem := by
  exact acceptSpb_mem _ _  t h

theorem execPref_mem (h : SpbHead) (b : PrefBody) (s : State) (t : State) (h : execPref h b s = .next t) : t.mem = s.mem := by
  exact acceptSpb_mem _ _  t h

@[simp] theorem sendPort_mem (s : State) (r : RegId) (o : Offset) (q : Nat) :
    (sendPort s r o q).mem = s.mem := by
  simp only [sendPort]; (repeat' split) <;> grind [setRegion_mem, slotFault_mem]

@[simp] theorem sendReplies_mem (s : State) (r : RegId) (o : Offset) :
    (sendReplies s r o).mem = s.mem := by
  unfold sendReplies; (repeat' split) <;> simp

@[simp] theorem grantWalk_mem (s : State) (d : Nat) :
    (grantWalk s d).mem = s.mem := by
  unfold grantWalk; (repeat' split) <;> (first | rfl | (simp; done) | grind [])

@[simp] theorem startWalk_mem (s : State) (part : Nat) (sp : Nat) (va : Nat) (write : Bool) (w : Waiter) :
    (startWalk s part sp va write w).mem = s.mem := by
  unfold startWalk; split <;> simp

theorem xlatElem_ok_mem (s : State) (rg : Region) (o : Offset) (sl : Slot) (va : Nat) (write pf : Bool) (t : State) (e : TlbEntry) (x : Target)
    (h : xlatElem s rg o sl va write pf = .ok t e x) : t.mem = s.mem := by
  have := tlbLookup_mem
  unfold xlatElem at h; grind

theorem xlatElem_stop_mem (s : State) (rg : Region) (o : Offset) (sl : Slot) (va : Nat) (write pf : Bool) (t : State)
    (h : xlatElem s rg o sl va write pf = .stop t) : t.mem = s.mem := by
  unfold xlatElem at h
  (repeat' split at h) <;> grind [tlbLookup_mem, slotFault_mem, startWalk_mem, modSlot_mem]

theorem xlatAhead_ok_mem (s : State) (rg : Region) (o : Offset) (va : Nat) (t : State) (e : TlbEntry) (x : Target)
    (h : xlatAhead s rg o va = .ok t e x) : t.mem = s.mem := by
  have := tlbLookup_mem
  unfold xlatAhead at h; grind

theorem xlatAhead_stop_mem (s : State) (rg : Region) (o : Offset) (va : Nat) (t : State) (h : xlatAhead s rg o va = .stop t) : t.mem = s.mem := by
  unfold xlatAhead at h
  (repeat' split at h) <;> grind [tlbLookup_mem, startWalk_mem]

@[simp] theorem withDeadline_mem (s : State) (r : RegId) (o : Offset) (sl : Slot) (n : Nat) (k : State → State) (h_k : ∀ z, (k z).mem = z.mem) :
    (withDeadline s r o sl n k).mem = s.mem := by
  unfold withDeadline; (repeat' split) <;> (first | rfl | (simp; done) | grind [setPart_mem, slotFault_mem])

@[simp] theorem pureElem_mem (s : State) (r : RegId) (o : Offset) (sl : Slot) (sub : Nat) (bad : Bool) (k : State → State) (h_k : ∀ z, (k z).mem = z.mem) :
    (pureElem s r o sl sub bad k).mem = s.mem := by
  unfold pureElem; (repeat' split) <;> (first | rfl | (simp; done) | grind [countPurity_mem, setRegion_mem, slotFault_mem])

@[simp] theorem sendReq_mem (s : State) (part : Nat) (who : Who) (va : Nat) (e : TlbEntry) (t : Target) (acc : Access) (deadline : Nat) :
    (sendReq s part who va e t acc deadline).mem = s.mem := by
  rfl

@[simp] theorem writePoison_mem (s : State) (r : RegId) (o : Offset) (sl : Slot) (b : Beat) (port : Nat) :
    (writePoison s r o sl b port).mem = s.mem := by
  unfold writePoison; (repeat' split) <;> (first | rfl | (simp; done) | grind [modSlot_mem, spFault_mem])

theorem issueWrite_mem (s : State) (rg : Region) (o : Offset) (sp : Sp) (sl : Slot) (va es m j left : Nat) (b : Beat) (port : Nat) (upd : Nat → Slot → Slot) (t : State) (h : issueWrite s rg o sp sl va es m j left b port upd = some t) : t.mem = s.mem := by
  unfold issueWrite at h
  dsimp only at h
  split at h
  · cases h; simp
  split at h
  · cases h; simp
  split at h
  · cases h
  split at h
  · cases h
  · rename_i h1; cases h; exact xlatElem_stop_mem _ _ _ _ _ _ _ _ h1
  · rename_i h1; cases h
    rw [withDeadline_mem _ _ _ _ _ _ fun z => pureElem_mem _ _ _ _ _ _ _ fun z1 => by (repeat' split) <;> simp]
    exact xlatElem_ok_mem _ _ _ _ _ _ _ _ _ _ h1

@[simp] theorem noteSlot_mem (s : State) (r : RegId) (o : Offset) (sl : Slot) (port : Option Nat) (upd : Slot → Slot) :
    (noteSlot s r o sl port upd).mem = s.mem := by
  unfold noteSlot; (repeat' split) <;> (first | rfl | (simp; done) | grind [modSlot_mem, setRegion_mem])

theorem writeStep_mem (s : State) (rg : Region) (o : Offset) (sp : Sp) (sl : Slot) (port : Nat) (addr : Nat → Nat) (es e n : Nat) (adv : Nat → Slot → Slot) (t : State) (h : writeStep s rg o sp sl port addr es e n adv = some t) : t.mem = s.mem := by
  unfold writeStep at h; (repeat' split at h) <;> (first | (injection h with h; subst h; first | rfl | (simp; done)) | grind [writePoison_mem, issueWrite_mem, noteSlot_mem])

theorem faultDrained_mem (s : State) (r : RegId) (o : Offset) (sl : Slot) (sub : Nat) (t : State) (h : faultDrained s r o sl sub = some t) : t.mem = s.mem := by
  unfold faultDrained at h; (repeat' split at h) <;> (first | (injection h with h; subst h; first | rfl | (simp; done)) | grind [slotFault_mem])

@[simp] theorem noteSide_mem (s : State) (r : RegId) (o : Offset) (port : Nat) (f : FibreSide → FibreSide) :
    (noteSide s r o port f).mem = s.mem := by
  simp [noteSide]

theorem indexPortStep_mem (s : State) (rg : Region) (o : Offset) (sp : Sp) (sl : Slot) (port : Nat) (onStop : Nat → Option (Slot → Slot)) (t : State) (h : indexPortStep s rg o sp sl port onStop = some t) : t.mem = s.mem := by
  unfold indexPortStep at h; (repeat' split at h) <;> (first | (injection h with h; subst h; first | rfl | (simp; done)) | grind [noteSide_mem, noteSlot_mem, faultDrained_mem])

@[simp] theorem watchPiece_mem (s : State) (r : RegId) (t : Target) (n : Nat) :
    (watchPiece s r t n).mem = s.mem := by
  unfold watchPiece; (repeat' split) <;> (first | rfl | (simp; done) | grind [setPart_mem, setRegion_mem])

@[simp] theorem hashEnd_mem (s : State) (rg : Region) (sp : Sp) (sl : Slot) :
    (hashEnd s rg sp sl).mem = s.mem := by
  unfold hashEnd; (repeat' split) <;> simp

theorem copyXlate_ok_mem (s : State) (rg : Region) (o : Offset) (sl : Slot) (src dst : Nat) (both : Bool) (t : State) (e : TlbEntry) (x : Target)
    (w : Option (TlbEntry × Target)) (h : copyXlate s rg o sl src dst both = .ok (t, e, x, w)) : t.mem = s.mem := by
  unfold copyXlate at h
  split at h
  · cases h
  · cases h
  · rename_i h1
    have e1 := xlatElem_ok_mem _ _ _ _ _ _ _ _ _ _ h1
    split at h
    · split at h
      · cases h
      · cases h
      · rename_i h2
        cases h
        rw [xlatElem_ok_mem _ _ _ _ _ _ _ _ _ _ h2, e1]
    · cases h; exact e1

theorem copyXlate_error_mem (s : State) (rg : Region) (o : Offset) (sl : Slot) (src dst : Nat) (both : Bool) (t : State)
    (h : copyXlate s rg o sl src dst both = .error (some t)) : t.mem = s.mem := by
  unfold copyXlate at h
  split at h
  · cases h
  · rename_i h1; cases h; exact xlatElem_stop_mem _ _ _ _ _ _ _ _ h1
  · rename_i h1
    split at h
    · split at h
      · cases h
      · rename_i h2; cases h; rw [xlatElem_stop_mem _ _ _ _ _ _ _ _ h2, xlatElem_ok_mem _ _ _ _ _ _ _ _ _ _ h1]
      · cases h
    · cases h

@[simp] theorem noteStaged_mem (s : State) (rg : Region) (t : Option Target) (len : Nat) :
    (noteStaged s rg t len).mem = s.mem := by
  unfold noteStaged; split <;> simp

@[simp] theorem copyTaken_mem (s : State) (q : MemReq) (r : RegId) (o : Offset) (st : Nat) (n : Nat) (dst : Option CopyDst) (bs : List Byte) (pois : Bool) :
    (copyTaken s q r o st n dst bs pois).mem = s.mem := by
  unfold copyTaken; (repeat' split) <;> simp

@[simp] theorem copyEmpty_mem (s : State) (rg : Region) (o : Offset) (sp : Sp) (sl : Slot) :
    (copyEmpty s rg o sp sl).mem = s.mem := by
  unfold copyEmpty; split <;> simp

theorem prefStep_mem (s : State) (rg : Region) (o : Offset) (sp : Sp) (sl : Slot) (va len : Nat) (t : State) (h : prefStep s rg o sp sl va len = some t) : t.mem = s.mem := by
  unfold prefStep at h
  dsimp only at h
  split at h
  · cases h; simp
  split at h
  · cases h
  split at h
  · cases h; simp
  · rename_i h1; cases h; exact xlatElem_stop_mem _ _ _ _ _ _ _ _ h1
  · rename_i h1; cases h
    rw [withDeadline_mem _ _ _ _ _ _ fun z => by simp]
    exact xlatElem_ok_mem _ _ _ _ _ _ _ _ _ _ h1

theorem takeAhead_mem (s : State) (rg : Region) (o : Offset) (sp : Sp) (sl : Slot) (t : State) (h : takeAhead s rg o sp sl = some t) : t.mem = s.mem := by
  unfold takeAhead at h; (repeat' split at h) <;> (first | (injection h with h; subst h; first | rfl | (simp; done)) | grind [noteSide_mem, noteSlot_mem])

theorem aheadStep_mem (s : State) (rg : Region) (o : Offset) (sp : Sp) (sl : Slot) (t : State) (h : aheadStep s rg o sp sl = some t) : t.mem = s.mem := by
  unfold aheadStep at h
  dsimp only at h
  split at h
  · cases h
  split at h
  · rename_i h1; cases h; exact takeAhead_mem _ _ _ _ _ _ h1
  split at h
  · cases h
  split at h
  · cases h; simp
  · rename_i h1; cases h; simp [xlatAhead_stop_mem _ _ _ _ _ h1]
  · rename_i h1; cases h
    simp only [modSlot_mem]; split <;> simp [xlatAhead_ok_mem _ _ _ _ _ _ _ h1]

theorem firstAhead_mem (s : State) (rg : Region) (o : Offset) (sp : Sp) (l : List Slot) (t : State)
    (h : firstAhead s rg o sp l = some t) : t.mem = s.mem := by
  induction l with
  | nil => cases h
  | cons x l ih =>
    unfold firstAhead at h
    split at h
    · rename_i h1; cases h; exact aheadStep_mem _ _ _ _ _ _ h1
    · exact ih h

theorem execSpbComplete_mem (r : RegId) (o : Offset) (slot : Nat) (s : State) (t : State) (h : execSpbComplete r o slot s = .next t) : t.mem = s.mem := by
  unfold execSpbComplete at h; (repeat' split at h) <;> (first | (injection h with h; subst h; first | rfl | (simp; done)) | grind [sendReplies_mem, setRegion_mem])

theorem execEventTokenArrive_mem (k : Nat) (s : State) (t : State) (h : execEventTokenArrive k s = .next t) : t.mem = s.mem := by
  unfold execEventTokenArrive at h; (repeat' split at h) <;> (first | (injection h with h; subst h; first | rfl | (simp; done)) | grind [])

theorem execSpReqMark_mem (r : RegId) (o : Offset) (s : State) (t : State) (h : execSpReqMark r o s = .next t) : t.mem = s.mem := by
  simp only [execSpReqMark] at h; (repeat' split at h) <;> grind [sendReplies_mem, setRegion_mem, modSp_mem, spFault_mem]

@[simp] theorem passAt_mem (s : State) (r : RegId) (o : Offset) (k : Nat) (b : Beat) :
    (passAt s r o k b).mem = s.mem := by
  unfold passAt; split <;> simp

theorem execSpDataToken_mem (r : RegId) (o : Offset) (k : Nat) (s t : State) (h : execSpDataToken r o k s = .next t) : t.mem = s.mem := by
  revert t
  unfold execSpDataToken
  cases spOf s r o with
  | none => exact next_mem rfl
  | some v =>
    dsimp only
    refine ite_next (next_mem rfl) ?_
    cases spHeads v.1 o k with
    | nil => exact next_mem rfl
    | cons b rest =>
      dsimp only
      refine ite_next (next_mem rfl) (ite_next ?_ (ite_next (next_mem (spFault_mem ..)) (ite_next (next_mem (spFault_mem ..)) (ite_next (next_mem (spFault_mem ..))
        (ite_next (ite_next (next_mem (spFault_mem ..)) (next_mem (passAt_mem ..))) (ite_next (ite_next (next_mem rfl) (next_mem rfl)) (ite_next ?_ (next_mem rfl))))))))
      · cases resolveSpec (b :: rest) with
        | none => exact next_mem rfl
        | some q => exact next_mem rfl
      · cases writeOwes v.1 o v.2 k with
        | none => exact next_mem rfl
        | some x => exact next_mem ((spFault_mem ..).trans (modSlot_mem ..))

theorem execRelRelease_mem (r : RegId) (o : Offset) (k : Nat) (s : State) (t : State) (h : execRelRelease r o k s = .next t) : t.mem = s.mem := by
  unfold execRelRelease at h; (repeat' split at h) <;> (first | (injection h with h; subst h; first | rfl | (simp; done)) | grind [spFault_mem, atScope_mem, passAt_mem, setRegion_mem])

theorem performBank_mem (s : State) (p : Pos) (byte : Nat) (acc : Access) (t : State) (bs : List Byte) (x : Bool)
    (h : performBank s p byte acc = .ok t bs x) : t.mem = s.mem := by
  unfold performBank at h
  dsimp only at h
  (repeat' split at h) <;> first | (cases h; done) | (cases h; rfl)

@[simp] theorem sendRemote_mem (s : State) (q : MemReq) (m : Nat) (die : Nat) (addr : Nat) :
    (sendRemote s q m die addr).mem = s.mem := by
  rfl

@[simp] theorem fillPool_mem (s : State) (r : RegId) (o : Offset) (q : MemReq) (bs : List Byte) (pois : Bool) :
    (fillPool s r o q bs pois).mem = s.mem := by
  unfold fillPool; (repeat' split) <;> (first | rfl | (simp; done) | grind [modSp_mem])

@[simp] theorem loadTo_mem (s : State) (c : SeqId) (gd : Nat) (n : Nat) (signed : Bool) (bs : List Byte) (pois : Bool) :
    (loadTo s c gd n signed bs pois).mem = s.mem := by
  rfl

@[simp] theorem hitAdvance_mem (s : State) (r : RegId) (n : Nat) :
    (hitAdvance s r n).mem = s.mem := by
  unfold hitAdvance; split <;> simp

@[simp] theorem dropReq_mem (s : State) (q : MemReq) :
    (dropReq s q).mem = s.mem := by
  rfl

@[simp] theorem copyOn_mem (s : State) (q : MemReq) (r : RegId) (d : CopyDst) (bs : List Byte) (pois : Bool) :
    (copyOn s q r d bs pois).mem = s.mem := by
  unfold copyOn; (repeat' split) <;> (first | rfl | (simp; done) | grind [raiseFault_mem, dropReq_mem])

@[simp] theorem recordDone_mem (s : State) (r : RegId) :
    (recordDone s r).mem = s.mem := by
  unfold recordDone; (repeat' split) <;> (first | rfl | (simp; done) | grind [setRegion_mem, setSeq_mem])

@[simp] theorem recordSend_mem (r : RegId) (l : List (Nat × List Byte)) (s : State) : (recordSend r s l).mem = s.mem := by
  induction l generalizing s with
  | nil => simp [recordSend]
  | cons x t ih =>
    obtain ⟨va, bs⟩ := x
    unfold recordSend
    split
    · exact ih s
    · split
      · exact ih s
      · simp
      · rfl

@[simp] theorem recordNext_mem (s : State) (r : RegId) :
    (recordNext s r).mem = s.mem := by
  unfold recordNext; split
  · rfl
  · rw [recordSend_mem]; simp

@[simp] theorem answerElem_mem (s : State) (q : MemReq) (r : RegId) (o : Offset) (st : Nat) (el : Nat) (bs : List Byte) (pois : Bool) :
    (answerElem s q r o st el bs pois).mem = s.mem := by
  unfold answerElem; split <;> simp

@[simp] theorem answer_mem (s : State) (q : MemReq) (bs : List Byte) (pois : Bool) :
    (answer s q bs pois).mem = s.mem := by
  unfold answer; (repeat' split) <;> (first | rfl | (simp; done) | grind [modSlot_mem, loadTo_mem, hitAdvance_mem, dropReq_mem, copyOn_mem, recordNext_mem, answerElem_mem])

@[simp] theorem refuseSlot_mem (s : State) (r : RegId) (o : Offset) (sl : Slot) (who : Who) (cls : Nat) (sub : Nat) :
    (refuseSlot s r o sl who cls sub).mem = s.mem := by
  unfold refuseSlot; (repeat' split) <;> simp

@[simp] theorem lateCheck_mem (s : State) (q : MemReq) :
    (lateCheck s q).1.mem = s.mem := by
  unfold lateCheck; split <;> simp

@[simp] theorem wrotePast_mem (s : State) (q : MemReq) :
    (wrotePast s q).mem = s.mem := by
  unfold wrotePast; (repeat' split) <;> (first | rfl | (simp; done) | grind [faultedOn_mem])

@[simp] theorem countHdmRefused_mem (s : State) :
    (countHdmRefused s).mem = s.mem := by
  rfl

@[simp] theorem hostAnswer_mem (s : State) (off : Nat) (bs : List Byte) (p : Bool) :
    (hostAnswer s off bs p).mem = s.mem := by
  rfl

@[simp] theorem hostDrop_mem (s : State) (off : Nat) (n : Nat) :
    (hostDrop s off n).mem = s.mem := by
  rfl

@[simp] theorem hostBank_mem (s : State) (p : Pos) (byte : Nat) (acc : Access) : (hostBank s p byte acc).mem = s.mem := by
  unfold hostBank
  split
  · rename_i h; rw [hostAnswer_mem]; exact performBank_mem _ _ _ _ _ _ _ h
  · rename_i h; exact performBank_mem _ _ _ _ _ _ _ h
  · rfl
  · rfl

@[simp] theorem askFar_mem (s : State) (c : SeqId) (va : Nat) (e : TlbEntry) (t : Target) :
    (askFar s c va e t).mem = s.mem := by
  unfold askFar; (repeat' split) <;> simp

@[simp] theorem dropFar_mem (s : State) (c : SeqId) :
    (dropFar s c).mem = s.mem := by
  rfl

@[simp] theorem goOn_mem (s : State) (w : Waiter) :
    (goOn s w).mem = s.mem := by
  unfold goOn; (repeat' split) <;> (first | rfl | (simp; done) | grind [modSlot_mem, setSeq_mem, setRegion_mem])

@[simp] theorem leavePlace_mem (s : State) (w : Waiter) :
    (leavePlace s w).mem = s.mem := by
  unfold leavePlace; (repeat' split) <;> simp

@[simp] theorem dropReuse_mem (s : State) (part frame size : Nat) :
    (dropReuse s part frame size).mem = s.mem := by
  unfold dropReuse; (repeat' split) <;> (first | rfl | (simp; done) | grind [setPart_mem])

@[simp] theorem invalidate_mem (s : State) (part base cnt : Nat) :
    (invalidate s part base cnt).mem = s.mem := by
  unfold invalidate; (repeat' split) <;> (first | rfl | (simp; done) | grind [setPart_mem, pruneWatch_mem, dropReuse_mem])

theorem execInvalidationStart_mem (part : Nat) (s : State) (t : State) (h : execInvalidationStart part s = .next t) : t.mem = s.mem := by
  unfold execInvalidationStart at h; (repeat' split at h) <;> (first | (injection h with h; subst h; first | rfl | (simp; done)) | grind [invalidate_mem, setPart_mem])

@[simp] theorem seqPut_mem (s : State) (c : SeqId) (q : Seq) (d : BitVec 5) (v : DWord) :
    (seqPut s c q d v).mem = s.mem := by
  rfl

@[simp] theorem queueEntry_mem (s : State) (c : SeqId) (q : Seq) (k : Nat) (t : Nat) (consts : Option (List Word)) (pi : Option PureInv) :
    (queueEntry s c q k t consts pi).mem = s.mem := by
  rfl

@[simp] theorem dropShadow_mem (s : State) (r : RegId) :
    (dropShadow s r).mem = s.mem := by
  unfold dropShadow; split <;> simp

@[simp] theorem writeLayout_mem (s : State) (r : RegId) (lv : Nat) (ls : List NodeLayout) :
    (writeLayout s r lv ls).mem = s.mem := by
  unfold writeLayout; split
  · rfl
  · rw [recordSend_mem]; simp

@[simp] theorem newLayout_mem (s : State) (r : RegId) (lays : List NodeLayout) :
    (newLayout s r lays).mem = s.mem := by
  unfold newLayout; (repeat' split) <;> (first | rfl | (simp; done) | grind [setSeq_mem, writeLayout_mem])

@[simp] theorem swapped_mem (s0 : State) (rg : Region) (f : Feed) (ls : List Link) (lays : List NodeLayout) :
    (swapped s0 rg f ls lays).mem = s0.mem := by
  unfold swapped; (repeat' split) <;> (first | rfl | (simp; done) | grind [setRegion_mem, recallAll_mem, dropFlits_mem, clearUses_mem])

@[simp] theorem giveUp_mem (s : State) (c : SeqId) : (giveUp s c).mem = s.mem := by
  unfold giveUp
  dsimp only
  rw [foldl_mem _ (fun t k => by (repeat' split) <;> simp), foldl_mem _ (fun t rg => by simp)]; simp

@[simp] theorem freeOld_mem (s : State) (c : SeqId) :
    (freeOld s c).mem = s.mem := by
  simp [freeOld]

@[simp] theorem orphanLoads_mem (s : State) (c : SeqId) :
    (orphanLoads s c).mem = s.mem := by
  rfl

@[simp] theorem beginRecord_mem (s : State) (c : SeqId) (q : Seq) (bs : List Byte) (i : Image) :
    (beginRecord s c q bs i).mem = s.mem := by
  unfold beginRecord; (repeat' split) <;> (first | rfl | (simp; done) | grind [setSeq_mem, pruneWatch_mem, dropFar_mem, giveUp_mem, freeOld_mem, orphanLoads_mem])

theorem execSqctlGo_mem (c : SeqId) (s : State) (t : State) (h : execSqctlGo c s = .next t) : t.mem = s.mem := by
  unfold execSqctlGo at h; (repeat' split at h) <;> (first | (injection h with h; subst h; first | rfl | (simp; done)) | grind [setSeq_mem])

theorem execSqctlStop_mem (c : SeqId) (s : State) (t : State) (h : execSqctlStop c s = .next t) : t.mem = s.mem := by
  unfold execSqctlStop at h; (repeat' split at h) <;> (first | (injection h with h; subst h; first | rfl | (simp; done)) | grind [setSeq_mem])

@[simp] theorem ageEntry_mem (s : State) (w : Waiting) :
    (ageEntry s w).mem = s.mem := by
  rfl

theorem execEntryAging_mem (part : Nat) (k : Nat) (s : State) (t : State) (h : execEntryAging part k s = .next t) : t.mem = s.mem := by
  unfold execEntryAging at h; (repeat' split at h) <;> (first | (injection h with h; subst h; first | rfl | (simp; done)) | grind [ageEntry_mem])

theorem execContextAging_mem (c : SeqId) (s : State) (t : State) (h : execContextAging c s = .next t) : t.mem = s.mem := by
  unfold execContextAging at h; (repeat' split at h) <;> (first | (injection h with h; subst h; first | rfl | (simp; done)) | grind [setSeq_mem])

@[simp] theorem rejectEntry_mem (s : State) (c : SeqId) (k stage : Nat) (err : Option LoadErr) :
    (rejectEntry s c k stage err).mem = s.mem := by
  unfold rejectEntry; (repeat' split) <;> (first | rfl | (simp; done) | grind [setSeq_mem, pruneWatch_mem, dropSave_mem])

@[simp] theorem takeIn_mem (s : State) (c : SeqId) (k : Nat) (charge : Nat) :
    (takeIn s c k charge).mem = s.mem := by
  rfl

@[simp] theorem clearRect_mem (s : State) (r : RegId) (x : Nat) (y : Nat) (w : Nat) (h : Nat) :
    (clearRect s r x y w h).mem = s.mem := by
  simp [clearRect]

@[simp] theorem clearCopies_mem (s : State) (r : RegId) (lays : List NodeLayout) (p : Pos) :
    (clearCopies s r lays p).mem = s.mem := by
  unfold clearCopies; (repeat' split) <;> (first | rfl | (simp; done) | grind [clearRect_mem])

@[simp] theorem standAt_mem (s : State) (r : RegId) (g : Region) :
    (standAt s r g).mem = s.mem := by
  unfold standAt; (repeat' split) <;> (first | rfl | (simp; done) | grind [clearUses_mem, clearRect_mem, clearCopies_mem])

@[simp] theorem goLive_mem (s : State) (rg : Region) (f : Feed) (ls : List Link) :
    (goLive s rg f ls).mem = s.mem := by
  unfold goLive; dsimp only; rw [clearUses_mem, setRegion_mem]; rfl

@[simp] theorem installDone_mem (s : State) (r : RegId) :
    (installDone s r).mem = s.mem := by
  unfold installDone; (repeat' split) <;> (first | rfl | (simp; done) | grind [setSeq_mem, newLayout_mem])

@[simp] theorem armOne_mem (s : State) (c : SeqId) (k : Nat) :
    (armOne s c k).mem = s.mem := by
  unfold armOne; (repeat' split) <;> (first | rfl | (simp; done) | grind [setRegion_mem, setSeq_mem])

@[simp] theorem detCommit_mem (s : State) (c : SeqId) (k : Nat) :
    (detCommit s c k).mem = s.mem := by
  unfold detCommit; (repeat' split) <;> (first | rfl | (simp; done) | grind [setRegion_mem, setPart_mem, newLayout_mem])

@[simp] theorem forceCut_mem (s0 : State) (r : RegId) :
    (forceCut s0 r).mem = s0.mem := by
  unfold forceCut; (repeat' split) <;> (first | rfl | (simp; done) | grind [setRegion_mem, setPart_mem, recallAll_mem])

@[simp] theorem startCut_mem (s : State) (rg : Region) (forDrain inPlace : Bool) :
    (startCut s rg forDrain inPlace).mem = s.mem := by
  unfold startCut; (repeat' split) <;> (first | rfl | (simp; done) | grind [setRegion_mem, forceCut_mem])

theorem tryCut_mem (s : State) (rg : Region) (forDrain : Bool) (t : State) (h : tryCut s rg forDrain = some t) : t.mem = s.mem := by
  unfold tryCut at h; (repeat' split at h) <;> (first | (injection h with h; subst h; first | rfl | (simp; done)) | grind [startCut_mem, setPart_mem])

@[simp] theorem countRefused_mem (s : State) (part : Nat) :
    (countRefused s part).mem = s.mem := by
  rfl

theorem hostCut_mem (s s0 : State) (part : Nat) (rg : Region) (h0 : s0.mem = s.mem) :
    (hostCut s s0 part rg).mem = s.mem := by
  unfold hostCut; dsimp only
  (repeat' split) <;> (first | rfl | (simp [h0]; done) | skip)
  rename_i h1; simp [tryCut_mem _ _ _ _ h1, h0]

theorem execPrectlGo_mem (part : Nat) (v : BitVec 64) (s : State) (t : State) (h : execPrectlGo part v s = .next t) : t.mem = s.mem := by
  unfold execPrectlGo at h; (repeat' split at h) <;> (first | (injection h with h; subst h; first | rfl | (simp; done)) | grind [setPart_mem, hostCut_mem])

theorem execTPfExpiry_mem (part : Nat) (nseq : BitVec 32) (s : State) (t : State) (h : execTPfExpiry part nseq s = .next t) : t.mem = s.mem := by
  unfold execTPfExpiry at h; (repeat' split at h) <;> (first | (injection h with h; subst h; first | rfl | (simp; done)) | grind [setRegion_mem, tryCut_mem, startCut_mem])

@[simp] theorem takeOut_mem (s : State) (r : RegId) :
    (takeOut s r).mem = s.mem := by
  rfl

@[simp] theorem lookup_mem (s : State) (rg : Region) (p : PureInv) (key : List Byte) :
    (lookup s rg p key).mem = s.mem := by
  unfold lookup; (repeat' split) <;> (first | rfl | (simp; done) | grind [setRegion_mem, setPart_mem])

theorem hitXlate_ok_mem (s : State) (rg : Region) (o : Offset) (va : Nat) (write : Bool) (t : State) (e : TlbEntry) (x : Target)
    (h : hitXlate s rg o va write = .ok (t, e, x)) : t.mem = s.mem := by
  unfold hitXlate at h; (repeat' split at h) <;> grind [tlbLookup_mem]

theorem hitXlate_error_mem (s : State) (rg : Region) (o : Offset) (va : Nat) (write : Bool) (t : State)
    (h : hitXlate s rg o va write = .error t) : t.mem = s.mem := by
  unfold hitXlate at h; (repeat' split at h) <;> grind [tlbLookup_mem, spFault_mem, startWalk_mem, setRegion_mem]

@[simp] theorem hitPiece_mem (s : State) (rg : Region) (p : PureInv) : (hitPiece s rg p).mem = s.mem := by
  unfold hitPiece
  dsimp only
  split
  · split
    · exact hitXlate_error_mem _ _ _ _ _ _ ‹_›
    · rename_i h1
      have e1 := hitXlate_ok_mem _ _ _ _ _ _ _ _ h1
      split
      · rw [hitXlate_error_mem _ _ _ _ _ _ ‹_›, e1]
      · rename_i h2
        rw [sendReq_mem, setRegion_mem, hitXlate_ok_mem _ _ _ _ _ _ _ _ h2, e1]
  · rfl

theorem execAgateLookup_mem (r : RegId) (s : State) (t : State) (h : execAgateLookup r s = .next t) : t.mem = s.mem := by
  unfold execAgateLookup at h; (repeat' split at h) <;> (first | (injection h with h; subst h; first | rfl | (simp; done)) | grind [hitPiece_mem, lookup_mem])

@[simp] theorem refuseInsert_mem (s : State) (part : Nat) :
    (refuseInsert s part).mem = s.mem := by
  rfl

@[simp] theorem flushEntries_mem (s : State) (part : Nat) :
    (flushEntries s part).mem = s.mem := by
  rfl

theorem execAgateFlush_mem (part : Nat) (s : State) (t : State) (h : execAgateFlush part s = .next t) : t.mem = s.mem := by
  unfold execAgateFlush at h; (repeat' split at h) <;> (first | (injection h with h; subst h; first | rfl | (simp; done)) | grind [flushEntries_mem])

theorem execAgsbaseWrite_mem (part : Nat) (v : BitVec 64) (s : State) (t : State) (h : execAgsbaseWrite part v s = .next t) : t.mem = s.mem := by
  unfold execAgsbaseWrite at h; (repeat' split at h) <;> (first | (injection h with h; subst h; first | rfl | (simp; done)) | grind [flushEntries_mem, setPart_mem])

theorem execAgssizeWrite_mem (part : Nat) (v : BitVec 64) (s : State) (t : State) (h : execAgssizeWrite part v s = .next t) : t.mem = s.mem := by
  unfold execAgssizeWrite at h; (repeat' split at h) <;> (first | (injection h with h; subst h; first | rfl | (simp; done)) | grind [flushEntries_mem, setPart_mem])

theorem execFltstatClear_mem (part : Nat) (s : State) (t : State) (h : execFltstatClear part s = .next t) : t.mem = s.mem := by
  unfold execFltstatClear at h; (repeat' split at h) <;> (first | (injection h with h; subst h; first | rfl | (simp; done)) | grind [setPart_mem])

@[simp] theorem frctlSet_mem (s : State) (part : Nat) (v : BitVec 64) :
    (frctlSet s part v).mem = s.mem := by
  unfold frctlSet; (repeat' split) <;> (first | rfl | (simp; done) | grind [setPart_mem])

@[simp] theorem writeFrctl_mem (part : Nat) (v : BitVec 64) (s : State) :
    (writeFrctl part v s).mem = s.mem := by
  unfold writeFrctl; (repeat' split) <;> (first | rfl | (simp; done) | grind [setPart_mem, frctlAct_mem, frctlSet_mem])

theorem execFrctlRelease_mem (part : Nat) (v : BitVec 64) (s : State) (t : State) (h : execFrctlRelease part v s = .next t) : t.mem = s.mem := by
  unfold execFrctlRelease at h; (repeat' split at h) <;> (first | (injection h with h; subst h; first | rfl | (simp; done)) | grind [writeFrctl_mem])

theorem execFrctlClear_mem (part : Nat) (v : BitVec 64) (s : State) (t : State) (h : execFrctlClear part v s = .next t) : t.mem = s.mem := by
  unfold execFrctlClear at h; (repeat' split at h) <;> (first | (injection h with h; subst h; first | rfl | (simp; done)) | grind [writeFrctl_mem])

theorem execSoftError_mem (e : SoftErr) (s : State) (t : State) (h : execSoftError e s = .next t) : t.mem = s.mem := by
  unfold execSoftError at h; (repeat' split at h) <;> (first | (injection h with h; subst h; first | rfl | (simp; done)) | grind [setPart_mem, setRegion_mem, raiseFault_mem])

theorem execBankReassign_mem (p : Pos) (s : State) (t : State) (h : execBankReassign p s = .next t) : t.mem = s.mem := by
  unfold execBankReassign at h; (repeat' split at h) <;> (first | (injection h with h; subst h; first | rfl | (simp; done)) | grind [])

@[simp] theorem growFail_mem (s : State) (rg : Region) (u : UnitId) (port : Nat) (b : Beat) (sub : Nat) :
    (growFail s rg u port b sub).mem = s.mem := by
  simp [growFail]

@[simp] theorem growPut_mem (s : State) (rg : Region) (u : UnitId) (n : Nat) (f : SegState → SegState) :
    (growPut s rg u n f).mem = s.mem := by
  rfl

@[simp] theorem growBuffer_mem (s : State) (rg : Region) (u : UnitId) (n : Nat) (port : Nat) (b : Beat) :
    (growBuffer s rg u n port b).mem = s.mem := by
  unfold growBuffer; (repeat' split) <;> simp

@[simp] theorem pushOut_mem (w : NodeWord) (s t : State) : (pushOut w s t).mem = t.mem := by
  unfold pushOut
  (repeat' split) <;> rfl

theorem execPush_mem (w : NodeWord) (s t : State) (h : execPush w s = .next t) : t.mem = s.mem := by
  unfold execPush at h
  split at h
  · rename_i h1; injection h with h; subst h
    rw [pushOut_mem]; exact statefulRun_mem _ _ _ _ _ h1
  · rename_i h1; exact absurd h (h1 t)

theorem growFor_mem (s : State) (rg : Region) (u : UnitId) (w : NodeWord) (t : State) (h : growFor s rg u w = .next t) : t.mem = s.mem := by
  unfold growFor at h; (repeat' split at h) <;> (first | (injection h with h; subst h; first | rfl | (simp; done)) | grind [growBuffer_mem])

theorem growAt_mem (s : State) (rg : Region) (u : UnitId) (i : Option NodeWord) (t : State) (h : growAt s rg u i = .next t) : t.mem = s.mem := by
  unfold growAt at h; (repeat' split at h) <;> (first | (injection h with h; subst h; first | rfl | (simp; done)) | grind [growFor_mem])

theorem execStreamBufferGrow_mem (u : UnitId) (s : State) (t : State) (h : execStreamBufferGrow u s = .next t) : t.mem = s.mem := by
  unfold execStreamBufferGrow at h; (repeat' split at h) <;> (first | (injection h with h; subst h; first | rfl | (simp; done)) | grind [growAt_mem])

theorem fibreRun_mem (w : NodeWord) (s : State) (ps : List Nat) (yTag0 : Bool) (op : Env → Fire) (t : State) (h : fibreRun w s ps yTag0 op = .next t) : t.mem = s.mem := by
  exact nodeRun_mem _ _ _  t h

theorem execFscan_mem (w : NodeWord) (s : State) (t : State) (h : execFscan w s = .next t) : t.mem = s.mem := by
  exact fibreRun_mem _ _ _ _ _  t h

theorem execFlook_mem (w : NodeWord) (s : State) (t : State) (h : execFlook w s = .next t) : t.mem = s.mem := by
  exact fibreRun_mem _ _ _ _ _  t h

theorem joinRun_mem (w : NodeWord) (s : State) (union : Bool) (t : State) (h : joinRun w s union = .next t) : t.mem = s.mem := by
  exact fibreRun_mem _ _ _ _ _  t h

theorem execFisect_mem (w : NodeWord) (s : State) (t : State) (h : execFisect w s = .next t) : t.mem = s.mem := by
  exact joinRun_mem _ _ _  t h

theorem execFunion_mem (w : NodeWord) (s : State) (t : State) (h : execFunion w s = .next t) : t.mem = s.mem := by
  exact joinRun_mem _ _ _  t h

theorem execFrep_mem (w : NodeWord) (s : State) (t : State) (h : execFrep w s = .next t) : t.mem = s.mem := by
  exact fibreRun_mem _ _ _ _ _  t h

theorem execFred_mem (w : NodeWord) (s : State) (t : State) (h : execFred w s = .next t) : t.mem = s.mem := by
  exact fibreRun_mem _ _ _ _ _  t h

theorem execFwrite_mem (w : NodeWord) (s : State) (t : State) (h : execFwrite w s = .next t) : t.mem = s.mem := by
  exact fibreRun_mem _ _ _ _ _  t h

theorem execPqcell_mem (w : NodeWord) (s : State) (t : State) (h : execPqcell w s = .next t) : t.mem = s.mem := by
  exact statefulRun_mem _ _ _ _  t h

theorem execStat_mem (w : NodeWord) (s : State) (t : State) (h : execStat w s = .next t) : t.mem = s.mem := by
  exact statefulRun_mem _ _ _ _  t h

theorem sysRead_mem (w : NodeWord) (s : State) (f : Env → Beat → List Nat) (t : State) (h : sysRead w s f = .next t) : t.mem = s.mem := by
  unfold sysRead at h; (repeat' split at h) <;> (first | (injection h with h; subst h; first | rfl | (simp; done)) | grind [statelessRun_mem])

theorem execRate_mem (w : NodeWord) (s : State) (t : State) (h : execRate w s = .next t) : t.mem = s.mem := by
  exact sysRead_mem _ _ _  t h

theorem execVer_mem (w : NodeWord) (s : State) (t : State) (h : execVer w s = .next t) : t.mem = s.mem := by
  exact sysRead_mem _ _ _  t h

theorem execSysid_mem (w : NodeWord) (s : State) (t : State) (h : execSysid w s = .next t) : t.mem = s.mem := by
  exact sysRead_mem _ _ _  t h

theorem execTrap_mem (w : NodeWord) (s : State) (t : State) (h : execTrap w s = .next t) : t.mem = s.mem := by
  exact statefulRun_mem _ _ _ _  t h

theorem execNop_mem (w : NodeWord) (s : State) (t : State) (h : execNop w s = .next t) : t.mem = s.mem := by
  unfold execNop at h; (repeat' split at h) <;> (first | (injection h with h; subst h; first | rfl | (simp; done)) | grind [statelessRun_mem])

theorem execWindowEnd_mem (r : RegId) (s : State) (t : State) (h : execWindowEnd r s = .next t) : t.mem = s.mem := by
  unfold execWindowEnd at h; (repeat' split at h) <;> (first | (injection h with h; subst h; first | rfl | (simp; done)) | grind [setPart_mem, setRegion_mem])

@[simp] theorem beginCommit_mem (s : State) (rg : Region) (l : NodeLayout) (plan : CommitPlan) :
    (beginCommit s rg l plan).mem = s.mem := by
  unfold beginCommit; (repeat' split) <;> (first | rfl | (simp; done) | grind [setRegion_mem, clearUses_mem])

@[simp] theorem finishCommit_mem (s : State) (rg : Region) (l : NodeLayout) (plan : CommitPlan) :
    (finishCommit s rg l plan).mem = s.mem := by
  unfold finishCommit; (repeat' split) <;> (first | rfl | (simp; done) | grind [setRegion_mem, setPart_mem, newLayout_mem])

theorem execCommit_mem (r : RegId) (plan : CommitPlan) (s : State) (t : State) (h : execCommit r plan s = .next t) : t.mem = s.mem := by
  unfold execCommit at h; (repeat' split at h) <;> (first | (injection h with h; subst h; first | rfl | (simp; done)) | grind [setRegion_mem, setPart_mem, beginCommit_mem, finishCommit_mem])

theorem execRbstatClear_mem (part : Nat) (s : State) (t : State) (h : execRbstatClear part s = .next t) : t.mem = s.mem := by
  unfold execRbstatClear at h; (repeat' split at h) <;> (first | (injection h with h; subst h; first | rfl | (simp; done)) | grind [setPart_mem])

@[simp] theorem modPart_mem (s : State) (p : Nat) (f : Part → Part) :
    (modPart s p f).mem = s.mem := by
  rfl

@[simp] theorem writeXroot_mem (s : State) (p : Nat) (v : Nat) :
    (writeXroot s p v).mem = s.mem := by
  unfold writeXroot; (repeat' split) <;> (first | rfl | (simp; done) | grind [modPart_mem])

@[simp] theorem writePlgrp_mem (s : State) (p : Nat) (v : Nat) :
    (writePlgrp s p v).mem = s.mem := by
  unfold writePlgrp; (repeat' split) <;> (first | rfl | (simp; done) | grind [modPart_mem])

@[simp] theorem writeCkbase_mem (s : State) (p : Nat) (v : Nat) :
    (writeCkbase s p v).mem = s.mem := by
  unfold writeCkbase; (repeat' split) <;> (first | rfl | (simp; done) | grind [modPart_mem])

@[simp] theorem writeRbctl_mem (s : State) (p : Nat) (v : Nat) :
    (writeRbctl s p v).mem = s.mem := by
  unfold writeRbctl; split <;> simp

@[simp] theorem writeAgctl_mem (s : State) (p : Nat) (v : Nat) :
    (writeAgctl s p v).mem = s.mem := by
  unfold writeAgctl; (repeat' split) <;> (first | rfl | (simp; done) | grind [modPart_mem, flushEntries_mem])

@[simp] theorem writeSqhead_mem (s : State) (c : SeqId) (v : Nat) :
    (writeSqhead s c v).mem = s.mem := by
  unfold writeSqhead; (repeat' split) <;> (first | rfl | (simp; done) | grind [setSeq_mem])

@[simp] theorem writeMid_mem (s : State) (p : Nat) (off : Nat) (w : BitVec 64) :
    (writeMid s p off w).mem = s.mem := by
  unfold writeMid; (repeat' split) <;> (first | rfl | (simp; done) | grind [modPart_mem, execFltstatClear_mem, writeFrctl_mem, writeAgctl_mem, execAgsbaseWrite_mem, execAgssizeWrite_mem])

@[simp] theorem writeSum_mem (s : State) (p : Nat) (off : Nat) (w : BitVec 64) :
    (writeSum s p off w).mem = s.mem := by
  rfl

@[simp] theorem writeDevice_mem (s : State) (off : Nat) (w : BitVec 64) :
    (writeDevice s off w).mem = s.mem := by
  unfold writeDevice; (repeat' split) <;> (first | rfl | (simp; done) | grind [])

@[simp] theorem mailDone_mem (s : State) (result : BitVec 8) :
    (mailDone s result).mem = s.mem := by
  unfold mailDone; (repeat' split) <;> (first | rfl | (simp; done) | grind [])

@[simp] theorem record_mem (s : State) (kind : Nat) (vals : List Byte) :
    (record s kind vals).mem = s.mem := by
  rfl

@[simp] theorem shapeDie_mem (s : State) (d : Nat) (shape : Nat) :
    (shapeDie s d shape).mem = s.mem := by
  rfl

theorem execShape_mem (d : Nat) (shape : Nat) (s : State) (t : State) (h : execShape d shape s = .next t) : t.mem = s.mem := by
  unfold execShape at h; (repeat' split at h) <;> (first | (injection h with h; subst h; first | rfl | (simp; done)) | grind [mailDone_mem, shapeDie_mem, record_mem])

@[simp] theorem bindSlot_mem (s : State) (slot : Nat) (mask : BitVec 8) (k : KeySlot) :
    (bindSlot s slot mask k).mem = s.mem := by
  unfold bindSlot; rw [foldl_mem (hf := fun t p => modPart_mem t p _)]

theorem execBind_mem (slot : Nat) (mask : BitVec 8) (blob : List Byte) (s : State) (t : State) (h : execBind slot mask blob s = .next t) : t.mem = s.mem := by
  unfold execBind at h; dsimp only at h
  generalize openBlob blob = x at h
  split at h
  · injection h with h; subst h; rfl
  split at h
  · injection h with h; subst h; simp only [mailDone_mem]
  split at h
  · injection h with h; subst h; simp only [mailDone_mem]
  cases x with
  | none => injection h with h; subst h; simp only [mailDone_mem]
  | some v => injection h with h; subst h; simp only [mailDone_mem, record_mem, bindSlot_mem]

@[simp] theorem endRevoke_mem (s : State) (k : Nat) :
    (endRevoke s k).mem = s.mem := by
  simp [endRevoke]

theorem execDomset_mem (mid : Nat) (size : Nat) (s : State) (t : State) (h : execDomset mid size s = .next t) : t.mem = s.mem := by
  unfold execDomset at h; (repeat' split at h) <;> (first | (injection h with h; subst h; first | rfl | (simp; done)) | grind [mailDone_mem])

theorem execCxlmap_mem (part port off len : Nat) (s : State) (t : State) (h : execCxlmap part port off len s = .next t) : t.mem = s.mem := by
  unfold execCxlmap at h; dsimp only at h; (repeat' split at h) <;> (injection h with h; subst h) <;> rfl

theorem execKrvcntClear_mem (s : State) (t : State) (h : execKrvcntClear s = .next t) : t.mem = s.mem := by
  unfold execKrvcntClear at h; (repeat' split at h) <;> (first | (injection h with h; subst h; first | rfl | (simp; done)) | grind [])

theorem execDeviceReset_mem (fw : Firmware) (s : State) (t : State) (h : execDeviceReset fw s = .next t) : t.mem = s.mem := by
  unfold execDeviceReset at h; (repeat' split at h) <;> (first | (injection h with h; subst h; first | rfl | (simp; done)) | grind [record_mem])

theorem execCxlLinkDown_mem (port : Nat) (s : State) (t : State) (h : execCxlLinkDown port s = .next t) : t.mem = s.mem := by
  unfold execCxlLinkDown at h; (repeat' split at h) <;> (first | (injection h with h; subst h; first | rfl | (simp; done)) | grind [raiseFault_mem])

theorem modCircuit_mem (s : State) (port circ : Nat) (into : Bool) (f : Link → Link) (t : State)
    (h : modCircuit s port circ into f = some t) : t.mem = s.mem := by
  unfold modCircuit at h
  obtain ⟨rg, _, h1⟩ := List.exists_of_findSome?_eq_some h
  obtain ⟨j, _, h2⟩ := Option.map_eq_some_iff.mp h1
  rw [← h2]; rfl

@[simp] theorem takeCircuit_mem (s : State) (port : Nat) (f : LinkFlit) : (takeCircuit s port f).mem = s.mem := by
  unfold takeCircuit
  cases h : modCircuit s port f.id.toNat true _ with
  | none => rfl
  | some t => exact modCircuit_mem _ _ _ _ _ _ h

@[simp] theorem takeCredit_mem (s : State) (port : Nat) (f : LinkFlit) : (takeCredit s port f).mem = s.mem := by
  unfold takeCredit
  dsimp only
  split
  · rfl
  · cases h : modCircuit s port f.id.toNat false _ with
    | none => rfl
    | some t => exact modCircuit_mem _ _ _ _ _ _ h

@[simp] theorem takeFlit_mem (s : State) (port : Nat) (f : LinkFlit) :
    (takeFlit s port f).mem = s.mem := by
  unfold takeFlit; (repeat' split) <;> simp

theorem execLinkFlitReceive_mem (port : Nat) (f : LinkFlit) (crcOk : Bool) (s : State) (t : State) (h : execLinkFlitReceive port f crcOk s = .next t) : t.mem = s.mem := by
  unfold execLinkFlitReceive at h; (repeat' split at h) <;> (first | (injection h with h; subst h; first | rfl | (simp; done)) | grind [takeFlit_mem, raiseFault_mem])

@[simp] theorem respond_mem (s : State) (port : Nat) (tag : BitVec 12) (bs : List Byte) (status : Nat) :
    (respond s port tag bs status).mem = s.mem := by
  rfl

theorem execLinkRetrain_mem (port : Nat) (s : State) (t : State) (h : execLinkRetrain port s = .next t) : t.mem = s.mem := by
  unfold execLinkRetrain at h; (repeat' split at h) <;> (first | (injection h with h; subst h; first | rfl | (simp; done)) | grind [setBridge_mem])

theorem onlineRun_mem (w : NodeWord) (s : State) (mul : Bool) (t : State) (h : onlineRun w s mul = .next t) : t.mem = s.mem := by
  exact statefulRun_mem _ _ _ _  t h

theorem execOadd_mem (w : NodeWord) (s : State) (t : State) (h : execOadd w s = .next t) : t.mem = s.mem := by
  exact onlineRun_mem _ _ _  t h

theorem execOmul_mem (w : NodeWord) (s : State) (t : State) (h : execOmul w s = .next t) : t.mem = s.mem := by
  exact onlineRun_mem _ _ _  t h

theorem execOcmp_mem (w : NodeWord) (s : State) (t : State) (h : execOcmp w s = .next t) : t.mem = s.mem := by
  exact statefulRun_mem _ _ _ _  t h

theorem execOcut_mem (w : NodeWord) (s : State) (t : State) (h : execOcut w s = .next t) : t.mem = s.mem := by
  exact statefulRun_mem _ _ _ _  t h

theorem execOcvt_mem (w : NodeWord) (s : State) (t : State) (h : execOcvt w s = .next t) : t.mem = s.mem := by
  unfold execOcvt at h; (repeat' split at h) <;> (first | (injection h with h; subst h; first | rfl | (simp; done)) | grind [statefulRun_mem])

@[simp] theorem feedNone_mem (rg : Region) (s : State) :
    (feedNone rg s).mem = s.mem := by
  unfold feedNone; (repeat' split) <;> simp

end Sys2Proof.Machine
end

