-- ==== Sys2Proof/Laws/Canonical.lean ====
section
/-! SUPPORT. Every memory operation, and every instruction or event that stores, keeps the canonical form of memory. -/

set_option linter.unusedSimpArgs false
set_option linter.unusedVariables false

namespace Sys2Proof.Machine

theorem wfFrom_mono {a b : Nat} (h : a ≤ b) (m : List Host.Cell) (hm : Memory.wfFrom b m = true) : Memory.wfFrom a m = true := by
  cases m with
  | nil => rfl
  | cons x t =>
    simp only [Memory.wfFrom, Bool.and_eq_true, decide_eq_true_eq] at hm ⊢
    exact ⟨⟨Nat.le_trans h hm.1.1, hm.1.2⟩, hm.2⟩

theorem memSet_wfFrom (lo k : Nat) (v : Byte) (m : List Host.Cell) (hk : lo ≤ k) (h : Memory.wfFrom lo m = true) :
    Memory.wfFrom lo (memSet m k v) = true := by
  induction m generalizing lo with
  | nil => unfold memSet; split <;> simp_all [Memory.wfFrom]
  | cons x t ih =>
    obtain ⟨a, b⟩ := x
    simp only [Memory.wfFrom, Bool.and_eq_true, decide_eq_true_eq] at h
    unfold memSet
    split
    · split
      · simp_all [Memory.wfFrom]
      · have : k + 1 ≤ a := by omega
        simp_all [Memory.wfFrom]
    · split
      · split
        · exact wfFrom_mono (by omega) t h.2
        · subst k; simp_all [Memory.wfFrom]
      · have := ih (a + 1) (by omega) h.2
        simp_all [Memory.wfFrom]

theorem memSet_wf (k : Nat) (v : Byte) (m : List Host.Cell) (h : Memory.wf m = true) : Memory.wf (memSet m k v) = true :=
  memSet_wfFrom 0 k v m (Nat.zero_le k) h

theorem memWrite_wf (bs : List Byte) (k : Nat) (m : List Host.Cell) (h : Memory.wf m = true) :
    Memory.wf (memWrite m k bs) = true := by
  induction bs generalizing k m with
  | nil => exact h
  | cons b t ih => exact ih _ _ (memSet_wf k b m h)

theorem canonical_of_mem {s t : State} (h : t.mem = s.mem) (hs : s.Canonical) : t.Canonical :=
  ⟨h ▸ hs.mem⟩

theorem canonical_iff (s : State) : s.Canonical ↔ Memory.wf s.mem = true := ⟨fun h => h.mem, fun h => ⟨h⟩⟩

theorem rekey_canon (s : State) (b line : Nat) (hs : s.Canonical) : (rekey s b line).Canonical := by
  unfold rekey
  split
  · exact hs
  · split
    · exact ⟨hs.mem⟩
    · split
      · exact ⟨hs.mem⟩
      · dsimp only
        generalize (List.range 256).map _ = bs
        exact ⟨memWrite_wf bs _ _ hs.mem⟩

theorem foldl_canon {α : Type} (f : State → α → State) (hf : ∀ t x, t.Canonical → (f t x).Canonical) (l : List α) (s : State)
    (hs : s.Canonical) : (l.foldl f s).Canonical := by
  induction l generalizing s with
  | nil => exact hs
  | cons x t ih => exact ih _ (hf _ _ hs)

theorem devWrite_canon (s : State) (b k : Nat) (bs : List Byte) (poison : Bool) (hs : s.Canonical) :
    (devWrite s b k bs poison).Canonical := by
  unfold devWrite
  split
  · exact hs
  · have h1 := foldl_canon (fun t i => rekey t b (k / 256 + i)) (fun t x ht => rekey_canon _ _ _ ht)
      (List.range ((k + bs.length - 1) / 256 - k / 256 + 1)) (watchWrite s k bs.length) (canonical_of_mem (watchWrite_mem ..) hs)
    dsimp only
    split
    · exact canonical_of_mem (s := List.foldl _ _ _) rfl h1
    · exact ⟨memWrite_wf _ _ _ h1.mem⟩

/-- Where its context has no access to send again, an instruction of the sequencer does what its own effect does. -/
theorem seqRun_mem (s : State) (regs : List (BitVec 5)) (k : SeqId → Seq → State) (hr : NoRetry s) (h_k : ∀ c q, (k c q).mem = s.mem) (t : State)
    (h : seqRun s regs k = .next t) : t.mem = s.mem := by
  unfold seqRun at h
  split at h
  · rename_i c ha
    split at h
    · injection h with h; subst h; exact h_k _ _
    · rw [hr c ha] at h; injection h with h; subst h; rfl
  · injection h with h; subst h; rfl

theorem queuePut_canon (s : State) (p : Nat) (q : NQueue) (n : Nat) (size : Nat) (bs : List Byte) (hs : s.Canonical) (t : State) (x : NQueue) (h : queuePut s p q n size bs = some (t, x)) :
    t.Canonical := by
  unfold queuePut at h; dsimp only at h; (repeat' split at h) <;> first | (cases h; done) | (cases h; simp_all [hs, devWrite_canon]; done) | (simp_all [hs, devWrite_canon]; done) | grind [canonical_of_mem, devWrite_canon]

theorem putRecord_canon (s : State) (p : Nat) (who : Option RegId) (bs : List Byte) (hs : s.Canonical) :
    (putRecord s p who bs).1.Canonical := by
  unfold putRecord; dsimp only; (repeat' split) <;> first | (simp_all [hs, setPart_mem, queuePut_canon]; done) | grind [canonical_of_mem, setPart_mem, queuePut_canon]

theorem parkSeq_canon (s : State) (c : SeqId) (cls : Nat) (sub : Nat) (hs : s.Canonical) :
    (parkSeq s c cls sub).Canonical := by
  unfold parkSeq; dsimp only; (repeat' split) <;> first | (simp_all [hs, setSeq_mem, setPart_mem, raiseIrq_mem, putRecord_canon]; done) | grind [canonical_of_mem, setSeq_mem, setPart_mem, raiseIrq_mem, putRecord_canon]

theorem resend_canon (s : State) (c : SeqId) (m : MemReq) (hs : s.Canonical) :
    (resend s c m).Canonical := by
  unfold resend; grind [canonical_iff, tlbLookup_mem, parkSeq_canon, setSeq_mem, sendReq_mem, startWalk_mem]

theorem seqRun_canon (s : State) (regs : List (BitVec 5)) (k : SeqId → Seq → State) (hs : s.Canonical) (h_k : ∀ c q, (k c q).Canonical)
    (t : State) (h : seqRun s regs k = .next t) : t.Canonical := by
  unfold seqRun at h; (repeat' split at h) <;> (injection h with h; subst h; first | exact hs | exact resend_canon _ _ _ hs | apply h_k)

theorem aluRR_canon (d : BitVec 5) (a : BitVec 5) (b : BitVec 5) (f : DWord → DWord → DWord) (s : State) (hs : s.Canonical) (t : State) (h : aluRR d a b f s = .next t) :
    t.Canonical := by
  exact seqRun_canon _ _ _ hs (by intro c q; grind [canonical_iff, seqRun_canon, seqPut_mem]) t h

theorem execMulh_canon (d : BitVec 5) (a : BitVec 5) (b : BitVec 5) (s : State) (hs : s.Canonical) (t : State) (h : execMulh d a b s = .next t) :
    t.Canonical := by
  exact aluRR_canon _ _ _ _ _ hs t h

theorem performPlain_canon (s : State) (b key : Nat) (acc : Access) (hs : s.Canonical) (t : State) (bs : List Byte) (p : Bool)
    (h : performPlain s b key acc = .ok t bs p) : t.Canonical := by
  unfold performPlain at h
  dsimp only at h
  (repeat' split at h) <;> first | (cases h; exact hs) | (cases h; exact devWrite_canon _ _ _ _ _ hs)

theorem performStage_mem (s : State) (x : Pos) (off : Nat) (acc : Access) (t : State) (bs : List Byte) (p : Bool)
    (h : performStage s x off acc = .ok t bs p) : t.mem = s.mem := by
  unfold performStage at h
  dsimp only at h
  (repeat' split at h) <;> first | (cases h; done) | (cases h; rfl)

theorem performAt_canon (s : State) (q : MemReq) (hs : s.Canonical) (t : State) (bs : List Byte) (p : Bool)
    (h : performAt s q = .ok t bs p) : t.Canonical := by
  unfold performAt at h
  split at h
  · exact performPlain_canon _ _ _ _ hs _ _ _ h
  · exact performPlain_canon _ _ _ _ hs _ _ _ h
  · exact performPlain_canon _ _ _ _ hs _ _ _ h
  · exact canonical_of_mem (performStage_mem _ _ _ _ _ _ _ h) hs
  · exact canonical_of_mem (performBank_mem _ _ _ _ _ _ _ h) hs
  · split at h
    · unfold remoteAnswer at h; split at h <;> (cases h; try exact hs)
    · cases h; exact canonical_of_mem (sendRemote_mem ..) hs
  · cases h

theorem immWriteLine_canon (s : State) (part : Nat) (va : Nat) (bs : List Byte) (pois : Bool) (hs : s.Canonical) (t : State) (h : immWriteLine s part va bs pois = .ok t) :
    t.Canonical := by
  unfold immWriteLine at h; dsimp only at h; (repeat' split at h) <;> first | (cases h; done) | (cases h; simp_all [hs, performAt_canon]; done) | (simp_all [hs, performAt_canon]; done) | grind [canonical_of_mem, performAt_canon]

theorem immWriteFrom_canon (part f : Nat) (s : State) (va : Nat) (bs : List Byte) (hs : s.Canonical) (t : State)
    (h : immWriteFrom part f s va bs = .ok t) : t.Canonical := by
  induction f generalizing s va bs with
  | zero => unfold immWriteFrom at h; cases h; exact hs
  | succ f ih =>
    unfold immWriteFrom at h
    dsimp only at h
    split at h
    · cases h; exact hs
    · split at h
      · cases h
      · exact ih _ _ _ (immWriteLine_canon _ _ _ _ _ hs _ ‹_›) h

theorem immWrite_canon (s : State) (part va : Nat) (bs : List Byte) (hs : s.Canonical) (t : State) (h : immWrite s part va bs = .ok t) :
    t.Canonical := immWriteFrom_canon _ _ _ _ _ hs _ h

theorem tailWrites_canon (s : State) (c : SeqId) (q : Seq) (rec : Nat) (hs : s.Canonical) (t : State)
    (h : tailWrites s c q rec = .ok t) : t.Canonical := by
  unfold tailWrites at h
  simp only [bind, Except.bind] at h
  split at h
  · cases h
  · split at h
    · cases h
    · split at h
      · cases h
      · split at h
        · cases h
        · rename_i h1 _ _ _ _ _ h2
          exact immWrite_canon _ _ _ _ (immWrite_canon _ _ _ _ (immWrite_canon _ _ _ _ hs _ h1) _ h2) _ h

theorem deliverNotice_canon (s : State) (part : Nat) (n : Notice) (hs : s.Canonical) (t : State) (h : deliverNotice s part n = some t) :
    t.Canonical := by
  unfold deliverNotice at h; dsimp only at h; (repeat' split at h) <;> first | (cases h; done) | (cases h; simp_all [hs, queuePut_canon, raiseIrq_mem, setPart_mem]; done) | (simp_all [hs, queuePut_canon, raiseIrq_mem, setPart_mem]; done) | grind [canonical_of_mem, queuePut_canon, raiseIrq_mem, setPart_mem]

theorem pageFault_canon (s : State) (part va cause level : Nat) (w : Waiter) (slot spix die : Nat) (hs : s.Canonical) :
    (pageFault s part va cause level w slot spix die).Canonical := by
  unfold pageFault
  dsimp only
  cases h : deliverNotice _ _ _ with
  | none => exact canonical_of_mem (setPart_mem ..) hs
  | some t => exact deliverNotice_canon _ _ _ (canonical_of_mem (setPart_mem ..) hs) _ h

theorem withhold_canon (s : State) (part va cause level : Nat) (w : Waiter) (hs : s.Canonical) :
    (withhold s part va cause level w).Canonical := by
  unfold withhold
  generalize waiterPlace s part w = p
  obtain ⟨die, ix, slot⟩ := p
  dsimp only
  have h := pageFault_canon s part va cause level w slot ix die hs
  generalize pageFault s part va cause level w slot ix die = s1 at h ⊢
  split
  · exact canonical_of_mem (modSlot_mem ..) h
  · exact canonical_of_mem (setSeq_mem ..) h
  · exact hs
  · split
    · exact h
    · exact canonical_of_mem (setRegion_mem ..) h

theorem seqMiss_canon (s : State) (c : SeqId) (m : Miss × Nat) (hs : s.Canonical) : (seqMiss s c m).Canonical := by
  unfold seqMiss
  split
  · exact withhold_canon _ _ _ _ _ _ hs
  · exact parkSeq_canon _ _ _ _ hs
  · exact canonical_of_mem (askFar_mem ..) hs

theorem countAccess_canon (s : State) (part : Nat) (sp : Nat) (va : Nat) (big : Bool) (tgt : Nat) (hs : s.Canonical) :
    (countAccess s part sp va big tgt).Canonical := by
  unfold countAccess; dsimp only; (repeat' split) <;> first | (simp_all [hs, setPart_mem, queuePut_canon, raiseIrq_mem]; done) | grind [canonical_of_mem, setPart_mem, queuePut_canon, raiseIrq_mem]

theorem countSeq_canon (s : State) (c : SeqId) (va : Nat) (hs : s.Canonical) :
    (countSeq s c va).Canonical := by
  unfold countSeq; grind [canonical_iff, countAccess_canon]

theorem countBytes_canon (s : State) (c : SeqId) (va n : Nat) (hs : s.Canonical) : (countBytes s c va n).Canonical := by
  unfold countBytes
  generalize n / 256 + 2 = f
  induction f generalizing s va n with
  | zero => exact hs
  | succ f ih =>
    unfold countLines
    split
    · exact hs
    · exact ih _ _ _ (countSeq_canon _ _ _ hs)

theorem countStreams_canon (s : State) (c : SeqId) (vas : List (Nat × Bool)) (l : List (Bool × List Word)) (hs : s.Canonical) :
    (countStreams s c vas l).Canonical := foldl_canon _ (fun t x ht => countBytes_canon _ _ _ _ ht) _ _ hs

theorem execTail_canon (a : BitVec 5) (s : State) (hs : s.Canonical) (t : State) (h : execTail a s = .next t) : t.Canonical := by
  refine seqRun_canon _ _ _ hs (fun c q => ?_) t h
  have h1 : (atScope (setSeq s c q) 5).Canonical := canonical_of_mem (by simp) hs
  dsimp only
  split
  · exact parkSeq_canon _ _ _ _ (canonical_of_mem (setSeq_mem ..) hs)
  split
  · exact hs
  split
  · exact seqMiss_canon _ _ _ h1
  · rename_i hh
    refine canonical_of_mem (setSeq_mem ..) (canonical_of_mem (dropFar_mem ..) ?_)
    exact foldl_canon (fun t va => countSeq t c va) (fun t x ht => countSeq_canon _ _ _ ht) _ _ (tailWrites_canon _ _ _ _ h1 _ hh)

theorem storeFrom_canon (part f : Nat) (s : State) (src dst n : Nat) (hs : s.Canonical) (t : State)
    (h : storeFrom part f s src dst n = .ok t) : t.Canonical := by
  induction f generalizing s src dst n with
  | zero => unfold storeFrom at h; cases h; exact hs
  | succ f ih =>
    unfold storeFrom at h
    dsimp only at h
    split at h
    · cases h; exact hs
    · split at h
      · cases h
      · split at h
        · cases h
        · exact ih _ _ _ _ (immWriteLine_canon _ _ _ _ _ hs _ ‹_›) h

theorem storeResults_canon (part : Nat) (s : State) (dst : Nat) (l : List (Nat × Nat)) (hs : s.Canonical) (t : State)
    (h : storeResults part s dst l = .ok t) : t.Canonical := by
  induction l generalizing s dst with
  | nil => unfold storeResults at h; cases h; exact hs
  | cons x l ih =>
    unfold storeResults at h
    split at h
    · cases h
    · exact ih _ _ (storeFrom_canon _ _ _ _ _ _ hs _ ‹_›) h

theorem markLeaf_canon (s : State) (part k : Nat) (hs : s.Canonical) : (markLeaf s part k).Canonical :=
  devWrite_canon _ _ _ _ _ hs

theorem markAt_canon (s : State) (part va a : Nat) (hs : s.Canonical) : (markAt s part va a).Canonical :=
  canonical_of_mem (setPart_mem ..) (markLeaf_canon _ _ _ hs)

theorem markFound_canon (s : State) (part va : Nat) (o : Option Nat) (hs : s.Canonical) : (markFound s part va o).Canonical := by
  cases o with
  | none => exact hs
  | some a => exact markAt_canon _ _ _ _ hs

theorem markReuse_canon (s : State) (part va : Nat) (hs : s.Canonical) : (markReuse s part va).Canonical := by
  unfold markReuse
  apply markFound_canon
  exact hs

theorem enterResult_canon (s : State) (part : Nat) (p : PureInv) (e : AgEntry) (hs : s.Canonical) : (enterResult s part p e).Canonical :=
  canonical_of_mem (setPart_mem ..) (foldl_canon _ (fun _ _ ht => markReuse_canon _ _ _ ht) _ _ hs)

theorem insertAt_canon (s : State) (part : Nat) (p : PureInv) (key : List Byte) (left : List AgEntry) (a : Nat) (hs : s.Canonical) :
    (insertAt s part p key left a).Canonical := by
  unfold insertAt
  dsimp only
  split
  · exact canonical_of_mem (refuseInsert_mem ..) (canonical_of_mem (setPart_mem ..) hs)
  · rename_i h
    exact enterResult_canon _ _ _ _ (storeResults_canon _ _ _ _ (canonical_of_mem (setPart_mem ..) hs) _ h)

theorem execHalt_canon (s : State) (hs : s.Canonical) (t : State) (h : execHalt s = .next t) :
    t.Canonical := by
  exact seqRun_canon _ _ _ hs (by intro c q; grind [canonical_iff, seqRun_canon, setSeq_mem]) t h

theorem aluSh_canon (d : BitVec 5) (a : BitVec 5) (i : BitVec 6) (f : DWord → Nat → DWord) (s : State) (hs : s.Canonical) (t : State) (h : aluSh d a i f s = .next t) :
    t.Canonical := by
  exact seqRun_canon _ _ _ hs (by intro c q; grind [canonical_iff, seqRun_canon, seqPut_mem]) t h

theorem execShri_canon (d : BitVec 5) (a : BitVec 5) (i : BitVec 6) (s : State) (hs : s.Canonical) (t : State) (h : execShri d a i s = .next t) :
    t.Canonical := by
  exact aluSh_canon _ _ _ _ _ hs t h

theorem finishRecord_canon (s : State) (c : SeqId) (q : Seq) (st : Status) (hs : s.Canonical) : (finishRecord s c q st).Canonical := by
  have h1 : (atScope s 5).Canonical := canonical_of_mem (atScope_mem ..) hs
  unfold finishRecord
  dsimp only
  split
  · exact seqMiss_canon _ _ _ (canonical_of_mem (setSeq_mem ..) h1)
  · rename_i h
    have e := countSeq_canon _ c (vaAdd q.sqrec 44) (immWrite_canon _ _ _ _ h1 _ h)
    split
    · exact canonical_of_mem (by simp) e
    · exact canonical_of_mem (setSeq_mem ..) e

theorem execKernelComplete_canon (c : SeqId) (s : State) (hs : s.Canonical) (t : State) (h : execKernelComplete c s = .next t) : t.Canonical := by
  unfold execKernelComplete at h
  dsimp only at h
  (repeat' split at h) <;> (injection h with h; subst h) <;> first
    | exact hs | exact ⟨hs.mem⟩ | exact finishRecord_canon _ _ _ _ hs | exact resend_canon _ _ _ hs

theorem execSub_canon (d : BitVec 5) (a : BitVec 5) (b : BitVec 5) (s : State) (hs : s.Canonical) (t : State) (h : execSub d a b s = .next t) :
    t.Canonical := by
  exact aluRR_canon _ _ _ _ _ hs t h

theorem waitmTry_canon (s : State) (c : SeqId) (q : Seq) (d : BitVec 5) (va : Nat) (hs : s.Canonical) : (waitmTry s c q d va).Canonical := by
  have h1 : (setSeq s c q).Canonical := canonical_of_mem (setSeq_mem ..) hs
  unfold waitmTry
  split
  · exact parkSeq_canon _ _ _ _ h1
  · split
    · exact seqMiss_canon _ _ _ h1
    · split
      · exact canonical_of_mem (seqPut_mem ..) (countSeq_canon _ _ _ hs)
      · exact canonical_of_mem (setSeq_mem ..) (countSeq_canon _ _ _ hs)

theorem execWaitmWake_canon (c : SeqId) (s : State) (hs : s.Canonical) (t : State) (h : execWaitmWake c s = .next t) :
    t.Canonical := by
  unfold execWaitmWake at h; dsimp only at h; (repeat' split at h) <;> first | (cases h; done) | (cases h; simp_all [hs, waitmTry_canon]; done) | (simp_all [hs, waitmTry_canon]; done) | grind [canonical_of_mem, waitmTry_canon]

theorem execShli_canon (d : BitVec 5) (a : BitVec 5) (i : BitVec 6) (s : State) (hs : s.Canonical) (t : State) (h : execShli d a i s = .next t) :
    t.Canonical := by
  exact aluSh_canon _ _ _ _ _ hs t h

theorem execSqctlSkip_canon (c : SeqId) (s : State) (hs : s.Canonical) (t : State) (h : execSqctlSkip c s = .next t) : t.Canonical := by
  unfold execSqctlSkip at h
  dsimp only at h
  (repeat' split at h) <;> (injection h with h; subst h) <;> first | exact hs | exact ⟨hs.mem⟩ | exact finishRecord_canon _ _ _ _ (canonical_of_mem (setSeq_mem ..) hs)

theorem answerStatus_canon (s : State) (c : SeqId) (q : Seq) (d : BitVec 5) (st : Status) (k : Seq → Seq) (hs : s.Canonical) :
    (answerStatus s c q d st k).Canonical := by
  unfold answerStatus
  split
  · exact parkSeq_canon _ _ _ _ (canonical_of_mem (setSeq_mem ..) hs)
  · exact canonical_of_mem (seqPut_mem ..) hs

theorem waitsTry_canon (s : State) (c : SeqId) (q : Seq) (d : BitVec 5) (k : Nat) (hs : s.Canonical) :
    (waitsTry s c q d k).Canonical := by
  unfold waitsTry; dsimp only; (repeat' split) <;> first | (simp_all [hs, setSeq_mem, answerStatus_canon]; done) | grind [canonical_of_mem, setSeq_mem, answerStatus_canon]

theorem cfgsRegion_canon (s : State) (c : SeqId) (q : Seq) (d : BitVec 5) (k : Nat) (rg : Region) (hs : s.Canonical) :
    (cfgsRegion s c q d k rg).Canonical := by
  unfold cfgsRegion; dsimp only; (repeat' split) <;> first | (simp_all [hs, answerStatus_canon, setSeq_mem, setRegion_mem]; done) | grind [canonical_of_mem, answerStatus_canon, setSeq_mem, setRegion_mem]

theorem cfgsTry_canon (s : State) (c : SeqId) (q : Seq) (d : BitVec 5) (k : Nat) (hs : s.Canonical) :
    (cfgsTry s c q d k).Canonical := by
  unfold cfgsTry; dsimp only; (repeat' split) <;> first | (simp_all [hs, setSeq_mem, answerStatus_canon, cfgsRegion_canon]; done) | grind [canonical_of_mem, setSeq_mem, answerStatus_canon, cfgsRegion_canon]

theorem seqAccess_canon (s : State) (c : SeqId) (q : Seq) (va n : Nat) (who : Who) (acc : Access) (owe : BitVec 5) (hs : s.Canonical) :
    (seqAccess s c q va n who acc owe).Canonical := by
  have h1 : ∀ q, (setSeq s c q).Canonical := fun q => canonical_of_mem (setSeq_mem ..) hs
  unfold seqAccess
  dsimp only
  split
  · exact parkSeq_canon _ _ _ _ (h1 _)
  · split
    · exact parkSeq_canon _ _ _ _ (h1 _)
    · split
      · rename_i h2
        have e := tlbLookup_mem _ _ _ _ _ _ _ h2
        split
        · exact parkSeq_canon _ _ _ _ (canonical_of_mem (by rw [setSeq_mem, e]) hs)
        · split
          · exact parkSeq_canon _ _ _ _ (canonical_of_mem (by rw [setSeq_mem, e]) hs)
          · exact canonical_of_mem (by rw [setSeq_mem, sendReq_mem, e]) hs
      · exact canonical_of_mem (by simp) hs

theorem samo_canon (op : Nat) (d a b : BitVec 5) (w : Bool) (s : State) (hs : s.Canonical) (t : State) (h : samo op d a b w s = .next t) :
    t.Canonical := seqRun_canon _ _ _ hs (fun _ _ => seqAccess_canon _ _ _ _ _ _ _ _ hs) t h

theorem execSamoMaxu_canon (d : BitVec 5) (a : BitVec 5) (b : BitVec 5) (w : Bool) (s : State) (hs : s.Canonical) (t : State) (h : execSamoMaxu d a b w s = .next t) :
    t.Canonical := by
  exact samo_canon _ _ _ _ _ _ hs t h

theorem execSamoAdd_canon (d : BitVec 5) (a : BitVec 5) (b : BitVec 5) (w : Bool) (s : State) (hs : s.Canonical) (t : State) (h : execSamoAdd d a b w s = .next t) :
    t.Canonical := by
  exact samo_canon _ _ _ _ _ _ hs t h

theorem immWriteD_canon (s : State) (part va : Nat) (bs : List Byte) (hs : s.Canonical) : (immWriteD s part va bs).Canonical := by
  unfold immWriteD
  split
  · exact immWrite_canon _ _ _ _ hs _ ‹_›
  · exact hs

theorem writeLayout_canon (s : State) (r : RegId) (lv : Nat) (ls : List NodeLayout) (hs : s.Canonical) : (writeLayout s r lv ls).Canonical :=
  canonical_of_mem (writeLayout_mem ..) hs

theorem stateOf_canon (s : State) (o : Host.Outcome State Fault Refusal) (hs : s.Canonical) (ho : ∀ t, o = .next t → t.Canonical) :
    (stateOf s o).Canonical := by
  unfold stateOf; split
  · exact ho _ rfl
  · exact hs
theorem writeSqctl_canon (s : State) (c : SeqId) (v : Nat) (hs : s.Canonical) : (writeSqctl s c v).Canonical := by
  have ite : ∀ (b : Bool) (t : State) (o : Host.Outcome State Fault Refusal), t.Canonical → (∀ u, o = .next u → u.Canonical) →
      (if b then stateOf t o else t).Canonical := by
    intro b t o ht ho
    split
    · exact stateOf_canon _ _ ht ho
    · exact ht
  have h1 := ite (v.testBit 0) s (execSqctlGo c s) hs fun t h => canonical_of_mem (execSqctlGo_mem _ _ _ h) hs
  have h2 := ite (v.testBit 1) _ (execSqctlSkip c _) h1 fun t h => execSqctlSkip_canon _ _ h1 _ h
  exact ite (v.testBit 2) _ (execSqctlStop c _) h2 fun t h => canonical_of_mem (execSqctlStop_mem _ _ _ h) h2

theorem execWaits_canon (d : BitVec 5) (n : BitVec 16) (s : State) (hs : s.Canonical) (t : State) (h : execWaits d n s = .next t) :
    t.Canonical := by
  refine seqRun_canon _ _ _ hs (fun c q => ?_) t h
  exact waitsTry_canon _ _ _ _ _ hs

theorem aluRI_canon (d : BitVec 5) (a : BitVec 5) (i : BitVec 16) (f : DWord → DWord → DWord) (s : State) (hs : s.Canonical) (t : State) (h : aluRI d a i f s = .next t) :
    t.Canonical := by
  exact seqRun_canon _ _ _ hs (by intro c q; grind [canonical_iff, seqRun_canon, seqPut_mem]) t h

theorem execLih_canon (d : BitVec 5) (a : BitVec 5) (i : BitVec 16) (s : State) (hs : s.Canonical) (t : State) (h : execLih d a i s = .next t) :
    t.Canonical := by
  exact aluRI_canon _ _ _ _ _ hs t h

theorem execCfgl_canon (g : BitVec 5) (n : BitVec 16) (s : State) (hs : s.Canonical) (t : State) (h : execCfgl g n s = .next t) :
    t.Canonical := by
  refine seqRun_canon _ _ _ hs (fun c q => ?_) t h
  dsimp only
  (repeat' split) <;> first
    | exact hs | exact ⟨hs.mem⟩ | exact parkSeq_canon _ _ _ _ (canonical_of_mem (setSeq_mem ..) hs) | exact canonical_of_mem (by simp) hs

theorem writeMap_canon (s : State) (rg : Region) (hs : s.Canonical) :
    (writeMap s rg).Canonical := by
  unfold writeMap; dsimp only; (repeat' split) <;> simp_all [hs, devWrite_canon]

theorem execFaultRecordPendingWrite_canon (part : Nat) (s : State) (hs : s.Canonical) (t : State) (h : execFaultRecordPendingWrite part s = .next t) :
    t.Canonical := by
  unfold execFaultRecordPendingWrite at h
  dsimp only at h
  split at h
  · injection h with h; subst h; exact hs
  split at h
  · injection h with h; subst h; exact hs
  · rename_i hq
    injection h with h; subst h
    have e := queuePut_canon _ _ _ _ _ _ hs _ _ hq
    split
    · exact canonical_of_mem (by simp) e
    · exact canonical_of_mem (setPart_mem ..) e

theorem insertBy_canon (s : State) (part : Nat) (p : PureInv) (key : List Byte) (o : Option (List AgEntry × Nat)) (hs : s.Canonical) :
    (insertBy s part p key o).Canonical := by
  cases o with
  | none => exact canonical_of_mem (refuseInsert_mem ..) hs
  | some x => exact insertAt_canon _ _ _ _ _ _ hs

theorem insertResult_canon (s : State) (part : Nat) (p : PureInv) (key : List Byte) (hs : s.Canonical) : (insertResult s part p key).Canonical := by
  unfold insertResult
  dsimp only
  split
  · exact hs
  · split
    · exact canonical_of_mem (refuseInsert_mem ..) hs
    · exact insertBy_canon _ _ _ _ _ hs

theorem retire_canon (s : State) (rg : Region) (i : Invocation) (hs : s.Canonical) : (retire s rg i).Canonical := by
  unfold retire
  dsimp only
  split
  · exact canonical_of_mem (by (repeat' split) <;> simp) hs
  · refine canonical_of_mem (pruneWatch_mem ..) ?_
    split
    · split
      · exact insertResult_canon _ _ _ _ (canonical_of_mem (by (repeat' split) <;> simp) hs)
      · exact canonical_of_mem (by (repeat' split) <;> simp) hs
    · exact canonical_of_mem (by (repeat' split) <;> simp) hs

theorem execInvocationRetire_canon (r : RegId) (s : State) (hs : s.Canonical) (t : State) (h : execInvocationRetire r s = .next t) : t.Canonical := by
  unfold execInvocationRetire at h
  (repeat' split at h) <;> (injection h with h; subst h) <;> first | exact hs | exact ⟨hs.mem⟩ | exact retire_canon _ _ _ hs

theorem writeLeaf_canon (s : State) (part ptea e : Nat) (hs : s.Canonical) : (writeLeaf s part ptea e).Canonical :=
  devWrite_canon _ _ _ _ _ hs

theorem windowsBack_canon (s : State) (rg : Region) (hs : s.Canonical) : (windowsBack s rg).Canonical := by
  unfold windowsBack
  dsimp only
  refine canonical_of_mem (foldl_mem _ (fun t n => by simp) _ _) (canonical_of_mem (setPart_mem ..) ?_)
  exact foldl_canon _ (fun t w ht => canonical_of_mem (invalidate_mem ..) (writeLeaf_canon _ _ _ _ ht)) _ _ hs

theorem execWaitm_canon (d a : BitVec 5) (s : State) (hs : s.Canonical) (t : State) (h : execWaitm d a s = .next t) :
    t.Canonical :=
  seqRun_canon _ _ _ hs (fun c q => waitmTry_canon _ _ _ _ _ hs) t h

theorem execSeqTrap_canon (c : BitVec 8) (s : State) (hs : s.Canonical) (t : State) (h : execSeqTrap c s = .next t) : t.Canonical :=
  seqRun_canon _ _ _ hs (fun _ _ => parkSeq_canon _ _ _ _ (canonical_of_mem (setSeq_mem ..) hs)) t h

theorem execQuote_canon (nonce : List Byte) (s : State) (hs : s.Canonical) (t : State) (h : execQuote nonce s = .next t) :
    t.Canonical := by
  unfold execQuote at h; dsimp only at h; (repeat' split at h) <;> first | (cases h; done) | (cases h; simp_all [hs, mailDone_mem, devWrite_canon]; done) | (simp_all [hs, mailDone_mem, devWrite_canon]; done) | grind [canonical_of_mem, mailDone_mem, devWrite_canon]

theorem execMul_canon (d : BitVec 5) (a : BitVec 5) (b : BitVec 5) (s : State) (hs : s.Canonical) (t : State) (h : execMul d a b s = .next t) :
    t.Canonical := by
  exact aluRR_canon _ _ _ _ _ hs t h

theorem execLinkWake_canon (c : SeqId) (s : State) (hs : s.Canonical) (t : State) (h : execLinkWake c s = .next t) : t.Canonical := by
  unfold execLinkWake at h
  dsimp only at h
  split at h
  · injection h with h; subst h; exact hs
  split at h
  · injection h with h; subst h; exact seqMiss_canon _ _ _ hs
  · injection h with h; subst h
    split
    · exact canonical_of_mem (setSeq_mem ..) (countSeq_canon _ _ _ hs)
    · exact hs

theorem execShadowLoad_canon (c : SeqId) (k : Nat) (s : State) (hs : s.Canonical) (t : State) (h : execShadowLoad c k s = .next t) : t.Canonical := by
  unfold execShadowLoad at h
  dsimp only at h
  split at h
  · split at h
    · injection h with h; subst h; exact hs
    split at h
    · injection h with h; subst h; exact seqMiss_canon _ _ _ hs
    · injection h with h; subst h; exact canonical_of_mem (dropFar_mem ..) (countBytes_canon _ _ _ _ (canonical_of_mem (setRegion_mem ..) hs))
  · injection h with h; subst h; exact hs

theorem execSamoMax_canon (d : BitVec 5) (a : BitVec 5) (b : BitVec 5) (w : Bool) (s : State) (hs : s.Canonical) (t : State) (h : execSamoMax d a b w s = .next t) :
    t.Canonical := by
  exact samo_canon _ _ _ _ _ _ hs t h

theorem armWith_canon (gc gb : BitVec 5) (n : BitVec 16) (s : State)
    (pur : SeqId → Seq → Except (Sum Nat (Miss × Nat)) (State × Option PureInv)) (hs : s.Canonical)
    (hp : ∀ c q t x, pur c q = .ok (t, x) → t.Canonical) (t : State) (h : armWith gc gb n s pur = .next t) : t.Canonical := by
  refine seqRun_canon _ _ _ hs (fun c q => ?_) t h
  have h1 : ∀ q, (setSeq s c q).Canonical := fun q => canonical_of_mem (setSeq_mem ..) hs
  dsimp only
  split
  · exact h1 _
  split
  · exact parkSeq_canon _ _ _ _ (h1 _)
  split
  · exact parkSeq_canon _ _ _ _ (h1 _)
  split
  · exact hs
  split
  · exact seqMiss_canon _ _ _ (h1 _)
  split
  · exact parkSeq_canon _ _ _ _ (h1 _)
  · exact seqMiss_canon _ _ _ (h1 _)
  · rename_i hh
    refine canonical_of_mem (queueEntry_mem ..) (canonical_of_mem (dropFar_mem ..) ?_)
    split
    · exact hp _ _ _ _ hh
    · exact countBytes_canon _ _ _ _ (hp _ _ _ _ hh)

theorem execSeqNop_canon (s : State) (hs : s.Canonical) (t : State) (h : execSeqNop s = .next t) :
    t.Canonical := by
  exact seqRun_canon _ _ _ hs (by intro c q; grind [canonical_iff, seqRun_canon, setSeq_mem]) t h

theorem execSeqAnd_canon (d : BitVec 5) (a : BitVec 5) (b : BitVec 5) (s : State) (hs : s.Canonical) (t : State) (h : execSeqAnd d a b s = .next t) :
    t.Canonical := by
  exact aluRR_canon _ _ _ _ _ hs t h

theorem newLayout_canon (s : State) (r : RegId) (lays : List NodeLayout) (hs : s.Canonical) : (newLayout s r lays).Canonical :=
  canonical_of_mem (newLayout_mem ..) hs

theorem armOne_canon (s : State) (c : SeqId) (k : Nat) (hs : s.Canonical) : (armOne s c k).Canonical :=
  canonical_of_mem (armOne_mem ..) hs

theorem execLoop_canon (a : BitVec 5) (o : BitVec 16) (s : State) (hs : s.Canonical) (t : State) (h : execLoop a o s = .next t) :
    t.Canonical := by
  exact seqRun_canon _ _ _ hs (by intro c q; grind [canonical_iff, seqRun_canon, setSeq_mem]) t h

theorem execSrd_canon (d : BitVec 5) (k : BitVec 8) (r : BitVec 8) (s : State) (hs : s.Canonical) (t : State) (h : execSrd d k r s = .next t) :
    t.Canonical := by
  exact seqRun_canon _ _ _ hs (by intro c q; grind [canonical_iff, seqRun_canon, seqPut_mem]) t h

theorem execSwr_canon (a : BitVec 5) (_k : BitVec 8) (r : BitVec 8) (s : State) (hs : s.Canonical) (t : State) (h : execSwr a _k r s = .next t) :
    t.Canonical := by
  exact seqRun_canon _ _ _ hs (by intro c q; grind [canonical_iff, seqRun_canon, setSeq_mem]) t h

theorem execAndi_canon (d : BitVec 5) (a : BitVec 5) (i : BitVec 16) (s : State) (hs : s.Canonical) (t : State) (h : execAndi d a i s = .next t) :
    t.Canonical := by
  exact aluRI_canon _ _ _ _ _ hs t h

theorem execConfigInstall_canon (r : RegId) (s : State) (hs : s.Canonical) (t : State) (h : execConfigInstall r s = .next t) :
    t.Canonical := by
  have hr : ∀ x e, (rejectEntry (setSeq (freeRegion s r) r.seq x) r.seq r.sect 2 e).Canonical :=
    fun x e => canonical_of_mem (by rw [rejectEntry_mem, setSeq_mem, freeRegion_mem]) hs
  unfold execConfigInstall at h
  dsimp only at h
  split at h
  · injection h with h; subst h; exact hs
  split at h
  · injection h with h; subst h; exact hs
  split at h
  · injection h with h; subst h; exact hs
  split at h
  · injection h with h; subst h; exact hr _ _
  · injection h with h; subst h; exact hr _ _
  · injection h with h; subst h
    exact windowsBack_canon _ _ (canonical_of_mem (by rw [installDone_mem, goLive_mem]) hs)

theorem writeSealed_canon (s : State) (rg : Region) (fi : FaultInfo) (rseq : BitVec 16) (hs : s.Canonical) :
    (writeSealed s rg fi rseq).1.Canonical := by
  unfold writeSealed; dsimp only; (repeat' split) <;> first | (simp_all [hs, setPart_mem, queuePut_canon]; done) | grind [canonical_of_mem, setPart_mem, queuePut_canon]

theorem freezeRegion_canon (s : State) (r : RegId) (hs : s.Canonical) :
    (freezeRegion s r).Canonical := by
  unfold freezeRegion; dsimp only; (repeat' split) <;> first | (simp_all [hs, recallAll_mem, setPart_mem, writeSealed_canon, setRegion_mem, putRecord_canon, dropSave_mem, preDone_mem, raiseIrq_mem, retireFaulted_mem]; done) | grind [canonical_of_mem, recallAll_mem, setPart_mem, writeSealed_canon, setRegion_mem, putRecord_canon, dropSave_mem, preDone_mem, raiseIrq_mem, retireFaulted_mem]

theorem execRegionFreeze_canon (r : RegId) (s : State) (hs : s.Canonical) (t : State) (h : execRegionFreeze r s = .next t) : t.Canonical := by
  injection h with h; subst h; exact freezeRegion_canon _ _ hs

theorem branch_canon (a : BitVec 5) (b : BitVec 5) (o : BitVec 16) (f : DWord → DWord → Bool) (s : State) (hs : s.Canonical) (t : State) (h : branch a b o f s = .next t) :
    t.Canonical := by
  exact seqRun_canon _ _ _ hs (by intro c q; grind [canonical_iff, seqRun_canon, setSeq_mem]) t h

theorem execBne_canon (a : BitVec 5) (b : BitVec 5) (o : BitVec 16) (s : State) (hs : s.Canonical) (t : State) (h : execBne a b o s = .next t) :
    t.Canonical := by
  exact branch_canon _ _ _ _ _ hs t h

theorem execDiv_canon (d : BitVec 5) (a : BitVec 5) (b : BitVec 5) (s : State) (hs : s.Canonical) (t : State) (h : execDiv d a b s = .next t) :
    t.Canonical := by
  exact aluRR_canon _ _ _ _ _ hs t h

theorem execBge_canon (a : BitVec 5) (b : BitVec 5) (o : BitVec 16) (s : State) (hs : s.Canonical) (t : State) (h : execBge a b o s = .next t) :
    t.Canonical := by
  exact branch_canon _ _ _ _ _ hs t h

theorem seqLoadN_canon (n : Nat) (signed : Bool) (d a : BitVec 5) (i : BitVec 16) (s : State) (hs : s.Canonical) (t : State)
    (h : seqLoadN n signed d a i s = .next t) : t.Canonical :=
  seqRun_canon _ _ _ hs (fun _ _ => seqAccess_canon _ _ _ _ _ _ _ _ hs) t h

theorem execSeqLd_canon (d : BitVec 5) (a : BitVec 5) (i : BitVec 16) (s : State) (hs : s.Canonical) (t : State) (h : execSeqLd d a i s = .next t) :
    t.Canonical := by
  exact seqLoadN_canon _ _ _ _ _ _ hs t h

theorem execFaultNoticePendingWrite_canon (part : Nat) (s : State) (hs : s.Canonical) (t : State)
    (h : execFaultNoticePendingWrite part s = .next t) : t.Canonical := by
  unfold execFaultNoticePendingWrite at h
  split at h <;> (injection h with h; subst h)
  · exact hs
  · cases h1 : deliverNotice _ _ _ with
    | none => exact hs
    | some t => exact deliverNotice_canon _ _ _ hs _ h1

theorem execInvalidationComplete_canon (part : Nat) (s : State) (hs : s.Canonical) (t : State)
    (h : execInvalidationComplete part s = .next t) : t.Canonical := by
  unfold execInvalidationComplete at h
  dsimp only at h
  split at h <;> (injection h with h; subst h)
  · exact hs
  · refine canonical_of_mem (foldl_mem _ (fun t n => ?_) _ _) (canonical_of_mem (setPart_mem ..) hs)
    simp

theorem parkAll_canon (s : State) (p : Nat) (hs : s.Canonical) : (parkAll s p).Canonical :=
  foldl_canon _ (fun t x ht => parkSeq_canon _ _ _ _ ht) _ _ hs

theorem faultRegion_canon (s : State) (r : RegId) (fi : FaultInfo) (hs : s.Canonical) : (faultRegion s r fi).Canonical :=
  freezeRegion_canon _ _ (canonical_of_mem (raiseFault_mem ..) hs)

theorem beginRevoke_canon (s : State) (k : Nat) (hs : s.Canonical) : (beginRevoke s k).Canonical := by
  unfold beginRevoke
  dsimp only
  refine foldl_canon _ (fun t x ht => parkAll_canon _ _ ht) _ _ (foldl_canon _ (fun t x ht => faultRegion_canon _ _ _ ht) _ _ ?_)
  exact ⟨hs.mem⟩

theorem execXori_canon (d : BitVec 5) (a : BitVec 5) (i : BitVec 16) (s : State) (hs : s.Canonical) (t : State) (h : execXori d a i s = .next t) :
    t.Canonical := by
  exact aluRI_canon _ _ _ _ _ hs t h

theorem placeAt_canon (s : State) (w : Waiting) (charge : Nat) (more : List (Bool × List Word)) (p : Pos × Bool) (hs : s.Canonical) :
    (placeAt s w charge more p).Canonical := by
  unfold placeAt
  dsimp only
  split
  · exact canonical_of_mem (by simp) hs
  · exact canonical_of_mem (by rw [takeIn_mem, standAt_mem]) (countStreams_canon _ _ _ _ (canonical_of_mem (dropFar_mem ..) hs))

theorem keepPlace_canon (s : State) (w : Waiting) (rg : Region) (charge : Nat) (hs : s.Canonical) (t : State)
    (h : keepPlace s w rg charge = .done t) : t.Canonical := by
  unfold keepPlace at h
  dsimp only at h
  split at h
  · cases h; exact canonical_of_mem (by simp) hs
  · cases h

theorem placeEntry_canon (s : State) (w : Waiting) (charge : Nat) (hs : s.Canonical) (t : State)
    (h : placeEntry s w charge = .done t) : t.Canonical := by
  unfold placeEntry at h
  dsimp only at h
  (repeat' split at h) <;> first
    | (cases h; done) | (cases h; exact seqMiss_canon _ _ _ hs) | (cases h; exact placeAt_canon _ _ _ _ _ hs)
    | (cases h; exact canonical_of_mem (by simp) hs)

theorem tryEntry_canon (s : State) (w : Waiting) (hs : s.Canonical) (t : State) (h : tryEntry s w = .done t) : t.Canonical := by
  unfold tryEntry at h
  dsimp only at h
  (repeat' split at h) <;> first
    | (cases h; done) | (cases h; exact canonical_of_mem (by simp) hs) | exact keepPlace_canon _ _ _ _ hs _ h
    | exact placeEntry_canon _ _ _ hs _ h

theorem serve_canon (s : State) (l : List Waiting) (hs : s.Canonical) : (serve s l).Canonical := by
  induction l generalizing s with
  | nil => exact hs
  | cons w l ih =>
    unfold serve
    split
    · exact ih _ (tryEntry_canon _ _ hs _ ‹_›)
    · split
      · exact hs
      · exact ih _ hs

theorem allocate_canon (s : State) (part : Nat) (hs : s.Canonical) : (allocate s part).Canonical := by
  unfold allocate
  dsimp only
  exact serve_canon _ _ (foldl_canon _ (fun t w ht => canonical_of_mem (by simp) ht) _ _ hs)

theorem execAllocatorRun_canon (part : Nat) (s : State) (hs : s.Canonical) (t : State) (h : execAllocatorRun part s = .next t) :
    t.Canonical := by
  unfold execAllocatorRun at h
  injection h with h; subst h
  exact allocate_canon _ _ hs

theorem execLdw_canon (d : BitVec 5) (a : BitVec 5) (i : BitVec 16) (s : State) (hs : s.Canonical) (t : State) (h : execLdw d a i s = .next t) :
    t.Canonical := by
  exact seqLoadN_canon _ _ _ _ _ _ hs t h

theorem execSchedulerPreempt_canon (part : Nat) (s : State) (hs : s.Canonical) (t : State) (h : execSchedulerPreempt part s = .next t) :
    t.Canonical := by
  unfold execSchedulerPreempt at h; grind [canonical_iff, tryCut_mem, countRefused_mem]

theorem execResume_canon (part : Nat) (nseq : BitVec 32) (s : State) (hs : s.Canonical) (t : State) (h : execResume part nseq s = .next t) :
    t.Canonical := by
  unfold execResume at h; dsimp only at h; (repeat' split at h) <;> first | (cases h; done) | (cases h; simp_all [hs, setPart_mem, leavePlace_mem, goOn_mem]; done) | (simp_all [hs, setPart_mem, leavePlace_mem, goOn_mem]; done) | grind [canonical_of_mem, setPart_mem, leavePlace_mem, goOn_mem]

theorem execSamoMinu_canon (d : BitVec 5) (a : BitVec 5) (b : BitVec 5) (w : Bool) (s : State) (hs : s.Canonical) (t : State) (h : execSamoMinu d a b w s = .next t) :
    t.Canonical := by
  exact samo_canon _ _ _ _ _ _ hs t h

theorem execSamoAnd_canon (d : BitVec 5) (a : BitVec 5) (b : BitVec 5) (w : Bool) (s : State) (hs : s.Canonical) (t : State) (h : execSamoAnd d a b w s = .next t) :
    t.Canonical := by
  exact samo_canon _ _ _ _ _ _ hs t h

theorem saveWrites_canon (s : State) (rg : Region) (e : ArmEntry) (a : SaveArea) (hs : s.Canonical) : (saveWrites s rg e a).Canonical := by
  unfold saveWrites
  exact canonical_of_mem (setSeq_mem ..) (immWriteD_canon _ _ _ _ (canonical_of_mem (setPart_mem ..) hs))

theorem execArm_canon (c b : BitVec 5) (n : BitVec 16) (s : State) (hs : s.Canonical) (t : State) (h : execArm c b n s = .next t) :
    t.Canonical := armWith_canon _ _ _ _ _ hs (fun _ _ _ _ h => by cases h; exact hs) t h

theorem seqStoreN_canon (n : Nat) (d a : BitVec 5) (i : BitVec 16) (s : State) (hs : s.Canonical) (t : State)
    (h : seqStoreN n d a i s = .next t) : t.Canonical :=
  seqRun_canon _ _ _ hs (fun _ _ => seqAccess_canon _ _ _ _ _ _ _ _ hs) t h

theorem execJmp_canon (o : BitVec 26) (s : State) (hs : s.Canonical) (t : State) (h : execJmp o s = .next t) :
    t.Canonical := by
  exact seqRun_canon _ _ _ hs (by intro c q; grind [canonical_iff, seqRun_canon, setSeq_mem]) t h

theorem execPwbudWrite_canon (part : Nat) (v : BitVec 64) (s : State) (hs : s.Canonical) (t : State) (h : execPwbudWrite part v s = .next t) :
    t.Canonical := by
  unfold execPwbudWrite at h
  injection h with h; subst h
  exact allocate_canon _ _ (canonical_of_mem (setPart_mem ..) hs)

theorem writeLow_canon (s : State) (p off : Nat) (w : BitVec 64) (hs : s.Canonical) : (writeLow s p off w).Canonical := by
  unfold writeLow
  dsimp only
  (repeat' split) <;> first
    | exact hs
    | exact canonical_of_mem (by simp) hs
    | exact stateOf_canon _ _ hs fun t h => canonical_of_mem (execInvalidationStart_mem _ _ _ h) hs
    | exact stateOf_canon _ _ hs fun t h => execResume_canon _ _ _ hs _ h
    | exact stateOf_canon _ _ hs fun t h => canonical_of_mem (execPrectlGo_mem _ _ _ _ h) hs
    | exact stateOf_canon _ _ hs fun t h => execPwbudWrite_canon _ _ _ hs _ h

theorem execJal_canon (o : BitVec 26) (s : State) (hs : s.Canonical) (t : State) (h : execJal o s = .next t) :
    t.Canonical := by
  exact seqRun_canon _ _ _ hs (by intro c q; grind [canonical_iff, seqRun_canon, setSeq_mem]) t h

theorem execWaitsReturn_canon (c : SeqId) (s : State) (hs : s.Canonical) (t : State) (h : execWaitsReturn c s = .next t) :
    t.Canonical := by
  unfold execWaitsReturn at h; dsimp only at h; (repeat' split at h) <;> first | (cases h; done) | (cases h; simp_all [hs, waitsTry_canon]; done) | (simp_all [hs, waitsTry_canon]; done) | grind [canonical_of_mem, waitsTry_canon]

theorem execSeqSar_canon (d : BitVec 5) (a : BitVec 5) (b : BitVec 5) (s : State) (hs : s.Canonical) (t : State) (h : execSeqSar d a b s = .next t) :
    t.Canonical := by
  exact aluRR_canon _ _ _ _ _ hs t h

theorem windowsGone_canon (s : State) (rg : Region) (hs : s.Canonical) : (windowsGone s rg).Canonical :=
  foldl_canon _ (fun t w ht => canonical_of_mem (invalidate_mem ..) (writeLeaf_canon _ _ _ _ ht)) _ _ hs

theorem saveRegion_canon (s : State) (r : RegId) (hs : s.Canonical) : (saveRegion s r).Canonical := by
  have h1 : (recallAll s r).Canonical := canonical_of_mem (recallAll_mem ..) hs
  unfold saveRegion
  generalize recallAll s r = u at h1 ⊢
  dsimp only
  split
  · exact h1
  · split
    · exact canonical_of_mem (preDone_mem ..) (canonical_of_mem (takeOut_mem ..) (saveWrites_canon _ _ _ _ (windowsGone_canon _ _ h1)))
    · exact h1

theorem refuse_canon (s : State) (q : MemReq) (cls : Nat) (sub : Nat) (hs : s.Canonical) :
    (refuse s q cls sub).Canonical := by
  unfold refuse; dsimp only; (repeat' split) <;> first | (simp_all [hs, dropReq_mem, refuseSlot_mem, parkSeq_canon, setSeq_mem, raiseFault_mem]; done) | grind [canonical_of_mem, dropReq_mem, refuseSlot_mem, parkSeq_canon, setSeq_mem, raiseFault_mem, recordNext_mem]

theorem countReq_canon (s : State) (q : MemReq) (hs : s.Canonical) :
    (countReq s q).Canonical := by
  unfold countReq; dsimp only; (repeat' split) <;> simp_all [hs, countAccess_canon]

theorem performReq_canon (id : Nat) (pick : MemReq → Bool) (s : State) (hs : s.Canonical) (t : State) (h : performReq id pick s = .next t) :
    t.Canonical := by
  have hw : ∀ (u : State) (q : MemReq), u.Canonical → (wrotePast u q).Canonical := fun u q hu => canonical_of_mem (wrotePast_mem ..) hu
  unfold performReq at h
  dsimp only at h
  split at h
  · injection h with h; subst h; exact hs
  rename_i q _
  have hl : (lateCheck s q).1.Canonical := canonical_of_mem (lateCheck_mem ..) hs
  split at h
  · injection h with h; subst h; exact hs
  split at h
  · injection h with h; subst h; exact canonical_of_mem (sendRemote_mem ..) hs
  split at h
  · injection h with h; subst h; exact hs
  · cases h
  · injection h with h; subst h; exact hw _ _ (refuse_canon _ _ _ _ hs)
  · split at h
    · injection h with h; subst h; exact hw _ _ (refuse_canon _ _ _ _ hl)
    · split at h
      · rename_i hp
        injection h with h; subst h
        exact hw _ _ (canonical_of_mem (answer_mem ..) (countReq_canon _ _ (performAt_canon _ _ hl _ _ _ hp)))
      · injection h with h; subst h; exact hl

theorem execWindowAccess_canon (req : Nat) (s : State) (hs : s.Canonical) (t : State) (h : execWindowAccess req s = .next t) :
    t.Canonical := by
  exact performReq_canon _ _ _ hs t h

theorem execSamoOr_canon (d : BitVec 5) (a : BitVec 5) (b : BitVec 5) (w : Bool) (s : State) (hs : s.Canonical) (t : State) (h : execSamoOr d a b w s = .next t) :
    t.Canonical := by
  exact samo_canon _ _ _ _ _ _ hs t h

theorem waiterMiss_canon (s : State) (part va : Nat) (m : Miss) (w : Waiter) (hs : s.Canonical) : (waiterMiss s part va m w).Canonical := by
  have h1 : (goOn s w).Canonical := canonical_of_mem (goOn_mem ..) hs
  unfold waiterMiss
  generalize goOn s w = s1 at h1 ⊢
  dsimp only
  (repeat' split) <;> first
    | exact h1 | exact withhold_canon _ _ _ _ _ _ h1 | exact parkSeq_canon _ _ _ _ h1 | exact canonical_of_mem (modSlot_mem ..) h1
    | exact canonical_of_mem (slotFault_mem ..) h1 | exact canonical_of_mem (raiseFault_mem ..) h1

theorem walkResult_canon (s : State) (part : Nat) (j : Join) (hs : s.Canonical) : (walkResult s part j).Canonical := by
  unfold walkResult
  split
  · exact canonical_of_mem (by rw [goOn_mem, fillTlbs_mem]) hs
  · exact waiterMiss_canon _ _ _ _ _ hs

theorem execWalkComplete_canon (id : Nat) (s : State) (hs : s.Canonical) (t : State) (h : execWalkComplete id s = .next t) : t.Canonical := by
  unfold execWalkComplete at h
  split at h
  · injection h with h; subst h; exact hs
  split at h
  · injection h with h; subst h; exact hs
  split at h
  · injection h with h; subst h; exact ⟨hs.mem⟩
  · injection h with h; subst h
    exact foldl_canon _ (fun t x ht => walkResult_canon _ _ _ ht) _ _ (canonical_of_mem (grantWalk_mem ..) ⟨hs.mem⟩)

theorem execBlt_canon (a : BitVec 5) (b : BitVec 5) (o : BitVec 16) (s : State) (hs : s.Canonical) (t : State) (h : execBlt a b o s = .next t) :
    t.Canonical := by
  exact branch_canon _ _ _ _ _ hs t h

theorem execSeqOr_canon (d : BitVec 5) (a : BitVec 5) (b : BitVec 5) (s : State) (hs : s.Canonical) (t : State) (h : execSeqOr d a b s = .next t) :
    t.Canonical := by
  exact aluRR_canon _ _ _ _ _ hs t h

theorem execRemoteAccessRequest_canon (port : Nat) (q : RemoteReq) (s : State) (hs : s.Canonical) (t : State) (h : execRemoteAccessRequest port q s = .next t) :
    t.Canonical := by
  unfold execRemoteAccessRequest at h; dsimp only at h; (repeat' split at h) <;> first | (cases h; done) | (cases h; simp_all [hs, respond_mem, devWrite_canon]; done) | (simp_all [hs, respond_mem, devWrite_canon]; done) | grind [canonical_of_mem, respond_mem, devWrite_canon]

theorem hdmAccess_canon (s : State) (off : Nat) (acc : HostAccess) (hs : s.Canonical) :
    (hdmAccess s off acc).Canonical := by
  unfold hdmAccess; dsimp only; (repeat' split) <;> first | (simp_all [hs, hostAnswer_mem, countHdmRefused_mem, devWrite_canon, hostDrop_mem]; done) | grind [canonical_of_mem, hostAnswer_mem, countHdmRefused_mem, devWrite_canon, hostDrop_mem]

theorem execHostMemAccess_canon (off : Nat) (acc : HostAccess) (s : State) (hs : s.Canonical) (t : State) (h : execHostMemAccess off acc s = .next t) :
    t.Canonical := by
  unfold execHostMemAccess at h; grind [canonical_iff, devWrite_canon, hostBank_mem, hdmAccess_canon]

theorem execWritePerform_canon (req : Nat) (s : State) (hs : s.Canonical) (t : State) (h : execWritePerform req s = .next t) :
    t.Canonical := by
  exact performReq_canon _ _ _ hs t h

theorem execAdd_canon (d : BitVec 5) (a : BitVec 5) (b : BitVec 5) (s : State) (hs : s.Canonical) (t : State) (h : execAdd d a b s = .next t) :
    t.Canonical := by
  exact aluRR_canon _ _ _ _ _ hs t h

theorem execRem_canon (d : BitVec 5) (a : BitVec 5) (b : BitVec 5) (s : State) (hs : s.Canonical) (t : State) (h : execRem d a b s = .next t) :
    t.Canonical := by
  exact aluRR_canon _ _ _ _ _ hs t h

theorem execSeqXor_canon (d : BitVec 5) (a : BitVec 5) (b : BitVec 5) (s : State) (hs : s.Canonical) (t : State) (h : execSeqXor d a b s = .next t) :
    t.Canonical := by
  exact aluRR_canon _ _ _ _ _ hs t h

theorem execSeqShl_canon (d : BitVec 5) (a : BitVec 5) (b : BitVec 5) (s : State) (hs : s.Canonical) (t : State) (h : execSeqShl d a b s = .next t) :
    t.Canonical := by
  exact aluRR_canon _ _ _ _ _ hs t h

theorem execSeqShr_canon (d : BitVec 5) (a : BitVec 5) (b : BitVec 5) (s : State) (hs : s.Canonical) (t : State) (h : execSeqShr d a b s = .next t) :
    t.Canonical := by
  exact aluRR_canon _ _ _ _ _ hs t h

theorem execSlt_canon (d : BitVec 5) (a : BitVec 5) (b : BitVec 5) (s : State) (hs : s.Canonical) (t : State) (h : execSlt d a b s = .next t) :
    t.Canonical := by
  exact aluRR_canon _ _ _ _ _ hs t h

theorem execSltn_canon (d : BitVec 5) (a : BitVec 5) (b : BitVec 5) (s : State) (hs : s.Canonical) (t : State) (h : execSltn d a b s = .next t) :
    t.Canonical := by
  exact aluRR_canon _ _ _ _ _ hs t h

theorem execAddi_canon (d : BitVec 5) (a : BitVec 5) (i : BitVec 16) (s : State) (hs : s.Canonical) (t : State) (h : execAddi d a i s = .next t) :
    t.Canonical := by
  exact aluRI_canon _ _ _ _ _ hs t h

theorem execOri_canon (d : BitVec 5) (a : BitVec 5) (i : BitVec 16) (s : State) (hs : s.Canonical) (t : State) (h : execOri d a i s = .next t) :
    t.Canonical := by
  exact aluRI_canon _ _ _ _ _ hs t h

theorem execSari_canon (d : BitVec 5) (a : BitVec 5) (i : BitVec 6) (s : State) (hs : s.Canonical) (t : State) (h : execSari d a i s = .next t) :
    t.Canonical := by
  exact aluSh_canon _ _ _ _ _ hs t h

theorem execSeqSt_canon (d : BitVec 5) (a : BitVec 5) (i : BitVec 16) (s : State) (hs : s.Canonical) (t : State) (h : execSeqSt d a i s = .next t) :
    t.Canonical := by
  exact seqStoreN_canon _ _ _ _ _ hs t h

theorem execStw_canon (d : BitVec 5) (a : BitVec 5) (i : BitVec 16) (s : State) (hs : s.Canonical) (t : State) (h : execStw d a i s = .next t) :
    t.Canonical := by
  exact seqStoreN_canon _ _ _ _ _ hs t h

theorem execSamoSwap_canon (d : BitVec 5) (a : BitVec 5) (b : BitVec 5) (w : Bool) (s : State) (hs : s.Canonical) (t : State) (h : execSamoSwap d a b w s = .next t) :
    t.Canonical := by
  exact samo_canon _ _ _ _ _ _ hs t h

theorem execSamoCas_canon (d : BitVec 5) (a : BitVec 5) (b : BitVec 5) (w : Bool) (s : State) (hs : s.Canonical) (t : State) (h : execSamoCas d a b w s = .next t) :
    t.Canonical := by
  exact samo_canon _ _ _ _ _ _ hs t h

theorem execSamoXor_canon (d : BitVec 5) (a : BitVec 5) (b : BitVec 5) (w : Bool) (s : State) (hs : s.Canonical) (t : State) (h : execSamoXor d a b w s = .next t) :
    t.Canonical := by
  exact samo_canon _ _ _ _ _ _ hs t h

theorem execSamoMin_canon (d : BitVec 5) (a : BitVec 5) (b : BitVec 5) (w : Bool) (s : State) (hs : s.Canonical) (t : State) (h : execSamoMin d a b w s = .next t) :
    t.Canonical := by
  exact samo_canon _ _ _ _ _ _ hs t h

theorem execBeq_canon (a : BitVec 5) (b : BitVec 5) (o : BitVec 16) (s : State) (hs : s.Canonical) (t : State) (h : execBeq a b o s = .next t) :
    t.Canonical := by
  exact branch_canon _ _ _ _ _ hs t h

theorem execJr_canon (a : BitVec 5) (s : State) (hs : s.Canonical) (t : State) (h : execJr a s = .next t) :
    t.Canonical := by
  exact seqRun_canon _ _ _ hs (by intro c q; grind [canonical_iff, seqRun_canon, setSeq_mem]) t h

theorem execCfgs_canon (d : BitVec 5) (n : BitVec 16) (s : State) (hs : s.Canonical) (t : State) (h : execCfgs d n s = .next t) :
    t.Canonical := by
  refine seqRun_canon _ _ _ hs (fun c q => ?_) t h
  split
  · exact hs
  · exact cfgsTry_canon _ _ _ _ _ hs

theorem execPlaneSwap_canon (r : RegId) (s : State) (hs : s.Canonical) (t : State) (h : execPlaneSwap r s = .next t) : t.Canonical := by
  unfold execPlaneSwap at h
  dsimp only at h
  split at h
  · injection h with h; subst h; exact hs
  · split at h
    · split at h
      · injection h with h; subst h; exact hs
      · split at h
        · injection h with h; subst h; exact canonical_of_mem (setRegion_mem ..) hs
        · split at h
          · injection h with h; subst h; exact faultRegion_canon _ _ _ (canonical_of_mem (setRegion_mem ..) hs)
          · injection h with h; subst h; exact hs
          · injection h with h; subst h
            split <;> exact canonical_of_mem (by simp) hs
    · injection h with h; subst h; exact hs

theorem execDrainTimeout_canon (r : RegId) (s : State) (hs : s.Canonical) (t : State) (h : execDrainTimeout r s = .next t) :
    t.Canonical := by
  unfold execDrainTimeout at h; dsimp only at h; (repeat' split at h) <;> first | (cases h; done) | (cases h; simp_all [hs, faultRegion_canon, writeMap_canon]; done) | (simp_all [hs, faultRegion_canon, writeMap_canon]; done) | grind [canonical_of_mem, faultRegion_canon, writeMap_canon]

theorem pureOf_canon (s : State) (c : SeqId) (q : Seq) (k : Nat) (hs : s.Canonical) (t : State) (x : Option PureInv)
    (h : pureOf s c q k = .ok (t, x)) : t.Canonical := by
  have h1 := countBytes_canon _ c (vaAdd q.extVa 128) (16 * q.nRes) (countBytes_canon s c q.extVa (16 * q.nArg) hs)
  unfold pureOf at h
  dsimp only at h
  (repeat' split at h) <;> first | (cases h; done) | skip
  all_goals
    cases h
    first | exact canonical_of_mem (setPart_mem ..) h1 | exact h1 | (split; exact canonical_of_mem (setPart_mem ..) h1; exact h1)

theorem execPure_canon (c b : BitVec 5) (n : BitVec 16) (s : State) (hs : s.Canonical) (t : State) (h : execPure c b n s = .next t) :
    t.Canonical := armWith_canon _ _ _ _ _ hs (fun _ _ _ _ h => pureOf_canon _ _ _ _ hs _ _ h) t h

theorem execMode_canon (m : BitVec 5) (n : BitVec 16) (s : State) (hs : s.Canonical) (t : State) (h : execMode m n s = .next t) :
    t.Canonical := by
  exact seqRun_canon _ _ _ hs (by intro c q; grind [canonical_iff, seqRun_canon, setSeq_mem]) t h

theorem countLinks_canon (s : State) (c : SeqId) (n : Nat) (t : State) (va : Nat) (ht : t.Canonical) : (countLinks s c n t va).Canonical := by
  induction n generalizing t va with
  | zero => exact ht
  | succ n ih =>
    unfold countLinks
    split
    · exact ht
    · split
      · exact ih _ _ (countSeq_canon _ _ _ ht)
      · exact countSeq_canon _ _ _ ht

theorem execLaunch_canon (a b : BitVec 5) (s : State) (hs : s.Canonical) (t : State) (h : execLaunch a b s = .next t) : t.Canonical := by
  refine seqRun_canon _ _ _ hs (fun c q => ?_) t h
  have h1 : (setSeq s c q).Canonical := canonical_of_mem (setSeq_mem ..) hs
  have h2 : (atScope (setSeq s c q) 5).Canonical := canonical_of_mem (atScope_mem ..) h1
  dsimp only
  split
  · exact parkSeq_canon _ _ _ _ h1
  split
  · exact hs
  split
  · exact seqMiss_canon _ _ _ h1
  split
  · exact parkSeq_canon _ _ _ _ h1
  split
  · exact seqMiss_canon _ _ _ h2
  · exact parkSeq_canon _ _ _ _ h2
  split
  · exact seqMiss_canon _ _ _ h2
  · rename_i hh
    exact canonical_of_mem (setSeq_mem ..)
      (countSeq_canon _ _ _ (countLinks_canon _ _ _ _ _ (countSeq_canon _ _ _ (immWrite_canon _ _ _ _ h2 _ hh))))

theorem execSeqFence_canon (scope : BitVec 3) (s : State) (hs : s.Canonical) (t : State) (h : execSeqFence scope s = .next t) :
    t.Canonical := by
  exact seqRun_canon _ _ _ hs (by intro c q; grind [canonical_iff, seqRun_canon, setSeq_mem, atScope_mem]) t h

theorem loadImage_canon (s : State) (c : SeqId) (va : Nat) (hs : s.Canonical) (i : Image) (t : State) (h : loadImage s c va = .image i t) :
    t.Canonical := by
  have hw : ∀ (s : State) (b : Bool) (va : Nat) (bs : List Byte) (t : State), s.Canonical →
      (if b = true then Except.ok s else immWrite s c.part va bs) = .ok t → t.Canonical := by
    intro s b va bs t hs h
    split at h
    · cases h; exact hs
    · exact immWrite_canon _ _ _ _ hs _ h
  unfold loadImage at h
  dsimp only at h
  split at h
  · cases h; exact hs
  · split at h
    · cases h
    · split at h
      · cases h
      · split at h
        · cases h
        · split at h
          · cases h
          · split at h
            · cases h
            · rename_i h1
              have e1 := hw _ _ _ _ _ hs h1
              split at h
              · cases h
              · rename_i h2
                have e2 := hw _ _ _ _ _ e1 h2
                cases h; exact canonical_of_mem (dropFar_mem ..) (countBytes_canon _ _ _ _ ⟨e2.mem⟩)

theorem loadImage_rejected_canon (s : State) (c : SeqId) (va : Nat) (hs : s.Canonical) (e : LoadErr) (t : State)
    (h : loadImage s c va = .rejected e t) : t.Canonical := by
  unfold loadImage at h
  dsimp only at h
  (repeat' split at h) <;> first
    | (cases h; done) | (cases h; exact canonical_of_mem (dropFar_mem ..) (countBytes_canon _ _ _ _ hs))

theorem execRecordStart_canon (c : SeqId) (s : State) (hs : s.Canonical) (t : State) (h : execRecordStart c s = .next t) : t.Canonical := by
  have read : ∀ u : State, u.Canonical → (countBytes u c (seqAt s c).sqrec 64).Canonical := fun u hu => countBytes_canon _ _ _ _ hu
  unfold execRecordStart at h
  dsimp only at h
  split at h
  · injection h with h; subst h; exact hs
  split at h
  · injection h with h; subst h; exact seqMiss_canon _ _ _ hs
  split at h
  · injection h with h; subst h; exact parkSeq_canon _ _ _ _ (read _ hs)
  split at h
  · injection h with h; subst h; exact seqMiss_canon _ _ _ hs
  · rename_i hh
    injection h with h; subst h
    exact finishRecord_canon _ _ _ _ (read _ (loadImage_rejected_canon _ _ _ hs _ _ hh))
  · rename_i hh
    injection h with h; subst h; exact canonical_of_mem (beginRecord_mem ..) (read _ (loadImage_canon _ _ _ hs _ _ hh))

theorem execInvocationArm_canon (c : SeqId) (k : Nat) (s : State) (hs : s.Canonical) (t : State)
    (h : execInvocationArm c k s = .next t) : t.Canonical := by
  unfold execInvocationArm at h
  dsimp only at h
  (repeat' split at h) <;> (injection h with h; subst h) <;> first
    | exact hs | exact ⟨hs.mem⟩ | exact parkSeq_canon _ _ _ _ hs | exact foldl_canon _ (fun t x ht => armOne_canon _ _ _ ht) _ _ hs
    | exact foldl_canon _ (fun t x ht => canonical_of_mem (detCommit_mem ..) ht) _ _ hs

theorem execCutComplete_canon (r : RegId) (s : State) (hs : s.Canonical) (t : State) (h : execCutComplete r s = .next t) : t.Canonical := by
  unfold execCutComplete at h
  (repeat' split at h) <;> (injection h with h; subst h) <;> first | exact hs | exact ⟨hs.mem⟩ | exact saveRegion_canon _ _ hs

theorem execTCutExpiry_canon (r : RegId) (s : State) (hs : s.Canonical) (t : State) (h : execTCutExpiry r s = .next t) : t.Canonical := by
  unfold execTCutExpiry at h
  (repeat' split at h) <;> (injection h with h; subst h) <;> first
    | exact hs | exact saveRegion_canon _ _ hs | exact canonical_of_mem (forceCut_mem ..) hs

theorem takePools_mem (s : State) (rg : Region) : (takePools s rg).1.mem = s.mem := rfl

theorem execInvocationResume_canon (c : SeqId) (k : Nat) (s : State) (hs : s.Canonical) (t : State)
    (h : execInvocationResume c k s = .next t) : t.Canonical := by
  unfold execInvocationResume at h
  dsimp only at h
  split at h
  · split at h
    · injection h with h; subst h; exact hs
    split at h
    · injection h with h; subst h; exact hs
    split at h <;> (injection h with h; subst h)
    · exact windowsBack_canon _ _ (canonical_of_mem (by rw [dropSave_mem, setSeq_mem, setRegion_mem, takePools_mem]) hs)
    · exact faultRegion_canon _ _ _ (canonical_of_mem (by rw [dropSave_mem, setSeq_mem, setRegion_mem, takePools_mem]) hs)
  · injection h with h; subst h; exact hs

theorem finishCommit_canon (s : State) (rg : Region) (l : NodeLayout) (plan : CommitPlan) (hs : s.Canonical) :
    (finishCommit s rg l plan).Canonical := by
  unfold finishCommit
  dsimp only
  exact newLayout_canon _ _ _ (canonical_of_mem (by simp) hs)

theorem execCommit_canon (r : RegId) (plan : CommitPlan) (s : State) (hs : s.Canonical) (t : State) (h : execCommit r plan s = .next t) :
    t.Canonical := by
  unfold execCommit at h
  dsimp only at h
  (repeat' split at h) <;> (injection h with h; subst h) <;> first
    | exact hs | exact finishCommit_canon _ _ _ _ hs | exact canonical_of_mem (beginCommit_mem ..) hs | exact canonical_of_mem (by simp) hs

theorem execHangTimeout_canon (r : RegId) (s : State) (hs : s.Canonical) (t : State) (h : execHangTimeout r s = .next t) :
    t.Canonical := by
  unfold execHangTimeout at h; dsimp only at h; (repeat' split at h) <;> first | (cases h; done) | (cases h; simp_all [hs, faultRegion_canon, writeMap_canon]; done) | (simp_all [hs, faultRegion_canon, writeMap_canon]; done) | grind [canonical_of_mem, faultRegion_canon, writeMap_canon]

theorem revokeSlot_canon (s : State) (k : Nat) (x : KeySlot) (hs : s.Canonical) : (revokeSlot s k x).Canonical := by
  unfold revokeSlot
  (repeat' split) <;> first
    | exact hs | exact beginRevoke_canon _ _ ⟨hs.mem⟩ | exact canonical_of_mem (by simp) hs

theorem execRevoke_canon (k : Nat) (s : State) (hs : s.Canonical) (t : State) (h : execRevoke k s = .next t) : t.Canonical := by
  unfold execRevoke at h
  (repeat' split at h) <;> (injection h with h; subst h) <;> first
    | exact hs | exact revokeSlot_canon _ _ _ hs | exact canonical_of_mem (by simp) hs

theorem writeSeqReg_canon (s : State) (p : Nat) (off : Nat) (v : Nat) (hs : s.Canonical) :
    (writeSeqReg s p off v).Canonical := by
  unfold writeSeqReg; dsimp only
  split
  · exact hs
  · split
    · exact canonical_of_mem (writeSqhead_mem ..) hs
    · exact writeSqctl_canon _ _ _ hs
    · exact hs

theorem writePage_canon (s : State) (p : Nat) (off : Nat) (w : BitVec 64) (hs : s.Canonical) :
    (writePage s p off w).Canonical := by
  unfold writePage
  split
  · exact writeLow_canon _ _ _ _ hs
  split
  · exact canonical_of_mem (writeMid_mem ..) hs
  split
  · exact writeSeqReg_canon _ _ _ _ hs
  split
  · exact canonical_of_mem (writeSum_mem ..) hs
  · exact hs

theorem execRegisterWrite_canon (part off : Nat) (v : BitVec 64) (s : State) (hs : s.Canonical) (t : State)
    (h : execRegisterWrite part off v s = .next t) : t.Canonical := by
  unfold execRegisterWrite at h
  (repeat' split at h) <;> (injection h with h; subst h) <;> first | exact hs | exact ⟨hs.mem⟩ | exact canonical_of_mem (by simp) hs | exact writePage_canon _ _ _ _ hs

theorem execReadPerform_canon (req : Nat) (s : State) (hs : s.Canonical) (t : State) (h : execReadPerform req s = .next t) :
    t.Canonical := by
  exact performReq_canon _ _ _ hs t h

theorem countAt_canon (s : State) (rg : Region) (o : Offset) (va : Nat) (big : Bool) (t : Target) (hs : s.Canonical) :
    (countAt s rg o va big t).Canonical := by
  unfold countAt
  split
  · exact hs
  · exact countAccess_canon _ _ _ _ _ _ hs

theorem withDeadline_canon (s : State) (r : RegId) (o : Offset) (sl : Slot) (n : Nat) (k : State → State) (hs : s.Canonical)
    (hk : ∀ z, z.Canonical → (k z).Canonical) : (withDeadline s r o sl n k).Canonical := by
  have hp : ∀ p x, (setPart s p x).Canonical := fun p x => canonical_of_mem (setPart_mem ..) hs
  unfold withDeadline
  dsimp only
  split
  · exact hk _ hs
  split
  · exact canonical_of_mem (slotFault_mem ..) (hp _ _)
  · exact hk _ (hp _ _)

theorem pureElem_canon (s : State) (r : RegId) (o : Offset) (sl : Slot) (sub : Nat) (bad : Bool) (k : State → State) (hs : s.Canonical)
    (hk : ∀ z, z.Canonical → (k z).Canonical) : (pureElem s r o sl sub bad k).Canonical := by
  have hp : ∀ rg a b, (countPurity (setRegion s rg) r a b).Canonical :=
    fun rg a b => canonical_of_mem (by rw [countPurity_mem, setRegion_mem]) hs
  unfold pureElem
  dsimp only
  split
  · exact hs
  split
  · exact hk _ hs
  split
  · exact canonical_of_mem (slotFault_mem ..) (hp _ _ _)
  · exact hk _ (hp _ _ _)

theorem sendIndex_canon (s : State) (rg : Region) (o : Offset) (sp : Sp) (sl : Slot) (key va : Nat) (e : TlbEntry) (t : Target)
    (hs : s.Canonical) : (sendIndex s rg o sp sl key va e t).Canonical := by
  unfold sendIndex
  split
  · exact canonical_of_mem (modSp_mem ..) (countAt_canon _ _ _ _ _ _ hs)
  · exact canonical_of_mem (by rw [modSlot_mem, sendReq_mem]) hs

/-- What a step of a port may answer keeps memory canonical. -/
def StepKeeps (x : Option State) : Prop := ∀ t, x = some t → t.Canonical

theorem iseWord_canon (s : State) (rg : Region) (o : Offset) (sp : Sp) (sl : Slot) (key va : Nat) (hs : s.Canonical) (x : Option State)
    (h : iseWord s rg o sp sl key va = .error x) : StepKeeps x := by
  unfold iseWord at h
  split at h
  · cases h
  dsimp only at h
  injection h with h
  subst h
  intro t ht
  split at ht
  · cases ht
  split at ht
  · cases ht; exact canonical_of_mem (slotFault_mem ..) hs
  split at ht
  · cases ht
  · rename_i hx; cases ht; exact canonical_of_mem (xlatElem_stop_mem _ _ _ _ _ _ _ _ hx) hs
  · rename_i hx
    have h1 := canonical_of_mem (xlatElem_ok_mem _ _ _ _ _ _ _ _ _ _ hx) hs
    split at ht
    · cases ht
    · cases ht; exact withDeadline_canon _ _ _ _ _ _ h1 fun z hz => sendIndex_canon _ _ _ _ _ _ _ _ _ hz

theorem wordStep_canon (s : State) (rg : Region) (o : Offset) (sp : Sp) (sl : Slot) (level va : Nat) (hs : s.Canonical) :
    StepKeeps (wordStep s rg o sp sl level va) := by
  unfold wordStep
  split
  · intro t h; cases h; exact canonical_of_mem (modSlot_mem ..) hs
  · rename_i h; exact iseWord_canon _ _ _ _ _ _ _ hs _ h

theorem noteSlot_canon (s : State) (r : RegId) (o : Offset) (sl : Slot) (port : Option Nat) (upd : Slot → Slot) (hs : s.Canonical) :
    (noteSlot s r o sl port upd).Canonical := canonical_of_mem (noteSlot_mem ..) hs

theorem rowIndex_canon (s : State) (rg : Region) (o : Offset) (sp : Sp) (sl : Slot) (b : GathBody) (gather : Bool) (hs : s.Canonical) :
    StepKeeps (rowIndex s rg o sp sl b gather) := by
  unfold rowIndex
  split
  · split
    · intro t h; exact canonical_of_mem (indexPortStep_mem _ _ _ _ _ _ _ _ h) hs
    split
    · exact wordStep_canon _ _ _ _ _ _ _ hs
    · intro t h; cases h; exact noteSlot_canon _ _ _ _ _ _ hs
  · split
    · exact wordStep_canon _ _ _ _ _ _ _ hs
    · intro t h; exact canonical_of_mem (faultDrained_mem _ _ _ _ _ _ h) hs

theorem issueRead_canon (s : State) (rg : Region) (o : Offset) (sp : Sp) (sl : Slot) (va es m n : Nat) (upd : Nat → Slot → Slot)
    (hs : s.Canonical) : StepKeeps (issueRead s rg o sp sl va es m n upd) := by
  unfold issueRead
  intro t ht
  dsimp only at ht
  split at ht
  · cases ht; exact canonical_of_mem (slotFault_mem ..) hs
  split at ht
  · cases ht
  split at ht
  · cases ht
  · rename_i hx; cases ht; exact canonical_of_mem (xlatElem_stop_mem _ _ _ _ _ _ _ _ hx) hs
  · rename_i hx
    have h1 := canonical_of_mem (xlatElem_ok_mem _ _ _ _ _ _ _ _ _ _ hx) hs
    split at ht
    · cases ht
    · cases ht
      refine withDeadline_canon _ _ _ _ _ _ h1 fun z hz => pureElem_canon _ _ _ _ _ _ _ hz fun y hy => ?_
      split
      · exact canonical_of_mem (modSp_mem ..) (countAt_canon _ _ _ _ _ _ hy)
      · exact canonical_of_mem (by rw [modSp_mem, sendReq_mem]) hy

theorem copySend_canon (s : State) (rg : Region) (o : Offset) (sl : Slot) (src dst n len : Nat) (isHash : Bool) (e : TlbEntry)
    (t : Target) (w : Option (TlbEntry × Target)) (hs : s.Canonical) : (copySend s rg o sl src dst n len isHash e t w).Canonical := by
  have h6 : ∀ r t n, (if isHash && rg.pureInv.isSome then watchPiece s r t n else s).Canonical := by
    intro r t n; split
    · exact canonical_of_mem (watchPiece_mem ..) hs
    · exact hs
  have h7 : ∀ (u : State) a b, u.Canonical → (if isHash && !sl.checked then noteStaged u rg a b else u).Canonical := by
    intro u a b hu; split
    · exact canonical_of_mem (noteStaged_mem ..) hu
    · exact hu
  have h8 : ∀ (u : State) p who va e t acc d r o f, u.Canonical → (modSp (sendReq u p who va e t acc d) r o f).Canonical :=
    fun u p who va e t acc d r o f hu => canonical_of_mem (by rw [modSp_mem, sendReq_mem]) hu
  unfold copySend
  extract_lets r s6 s7 d s8
  have e : s8.Canonical := h8 _ _ _ _ _ _ _ _ _ _ _ (h7 _ _ _ (h6 _ _ _))
  split
  · exact canonical_of_mem (by rw [copyTaken_mem, modSp_mem]) (countAt_canon _ _ _ _ _ _ e)
  · exact e

theorem copyStep_canon (s : State) (rg : Region) (o : Offset) (sp : Sp) (sl : Slot) (sva dva len : Nat) (isHash : Bool) (hs : s.Canonical) :
    StepKeeps (copyStep s rg o sp sl sva dva len isHash) := by
  have hf : ∀ (u : State) r o sl c k, u.Canonical → (slotFault u r o sl c k).Canonical :=
    fun u r o sl c k hu => canonical_of_mem (slotFault_mem ..) hu
  unfold copyStep
  intro t ht
  extract_lets r both src dst n0 at ht
  split at ht
  · cases ht
  split at ht
  · cases ht; exact noteSlot_canon _ _ _ _ _ _ (canonical_of_mem (hashEnd_mem ..) hs)
  split at ht
  · cases ht; exact canonical_of_mem (copyEmpty_mem ..) hs
  split at ht
  · cases ht; exact hf _ _ _ _ _ _ hs
  split at ht
  · cases ht
  split at ht
  · rename_i hx
    subst ht
    exact canonical_of_mem (copyXlate_error_mem _ _ _ _ _ _ _ _ hx) hs
  · rename_i hx
    have h1 := canonical_of_mem (copyXlate_ok_mem _ _ _ _ _ _ _ _ _ _ _ hx) hs
    split at ht
    · cases ht; exact hf _ _ _ _ _ _ h1
    extract_lets n at ht
    split at ht
    · cases ht; exact hf _ _ _ _ _ _ h1
    split at ht
    · cases ht; exact hf _ _ _ _ _ _ h1
    split at ht
    · cases ht
    · cases ht
      exact withDeadline_canon _ _ _ _ _ _ h1 fun a ha => pureElem_canon _ _ _ _ _ _ _ ha fun b hb =>
        pureElem_canon _ _ _ _ _ _ _ hb fun d hd => copySend_canon _ _ _ _ _ _ _ _ _ _ _ _ hd

theorem fibStep_canon (s : State) (rg : Region) (o : Offset) (sp : Sp) (sl : Slot) (h : SpbHead) (b : FibBody) (hs : s.Canonical) :
    StepKeeps (fibStep s rg o sp sl h b) := by
  unfold fibStep
  dsimp only
  split
  · split
    · intro t h; exact canonical_of_mem (indexPortStep_mem _ _ _ _ _ _ _ _ h) hs
    split
    · intro t h; cases h; exact noteSlot_canon _ _ _ _ _ _ hs
    · intro t h; cases h; exact noteSlot_canon _ _ _ _ _ _ hs
  · exact wordStep_canon _ _ _ _ _ _ _ hs
  · exact wordStep_canon _ _ _ _ _ _ _ hs
  · split
    · intro t h; exact canonical_of_mem (faultDrained_mem _ _ _ _ _ _ h) hs
    split
    · intro t h; cases h; exact noteSlot_canon _ _ _ _ _ _ hs
    · exact issueRead_canon _ _ _ _ _ _ _ _ _ _ hs

theorem slotStep_canon (s : State) (rg : Region) (o : Offset) (sp : Sp) (sl : Slot) (hs : s.Canonical) : StepKeeps (slotStep s rg o sp sl) := by
  have hw : ∀ port addr es e n adv, StepKeeps (writeStep s rg o sp sl port addr es e n adv) :=
    fun port addr es e n adv t h => canonical_of_mem (writeStep_mem _ _ _ _ _ _ _ _ _ _ _ _ h) hs
  have hd : ∀ k, StepKeeps (faultDrained s rg.id o sl k) := fun k t h => canonical_of_mem (faultDrained_mem _ _ _ _ _ _ h) hs
  have hn : StepKeeps none := fun t h => by cases h
  unfold slotStep
  split
  · exact hn
  split
  · exact issueRead_canon _ _ _ _ _ _ _ _ _ _ hs
  · exact hw _ _ _ _ _ _
  · split
    · exact rowIndex_canon _ _ _ _ _ _ _ hs
    split
    · exact hd _
    · exact issueRead_canon _ _ _ _ _ _ _ _ _ _ hs
  · split
    · exact rowIndex_canon _ _ _ _ _ _ _ hs
    split
    · exact hd _
    · exact hw _ _ _ _ _ _
  · exact copyStep_canon _ _ _ _ _ _ _ _ _ hs
  · exact fibStep_canon _ _ _ _ _ _ _ hs
  · exact copyStep_canon _ _ _ _ _ _ _ _ _ hs
  · split
    · exact hn
    · intro t h; cases h; exact canonical_of_mem (by rw [modSp_mem, atScope_mem]) hs
  · intro t h; exact canonical_of_mem (prefStep_mem _ _ _ _ _ _ _ _ h) hs
  · exact hn

theorem firstStep_canon (s : State) (rg : Region) (o : Offset) (sp : Sp) (l : List Slot) (hs : s.Canonical) :
    StepKeeps (firstStep s rg o sp l) := by
  induction l with
  | nil => intro t h; cases h
  | cons x l ih =>
    unfold firstStep
    split
    · rename_i h; intro t e; cases e; exact slotStep_canon _ _ _ _ _ hs _ h
    · exact ih

theorem execElementIssue_canon (r : RegId) (o : Offset) (s : State) (hs : s.Canonical) (t : State) (h : execElementIssue r o s = .next t) :
    t.Canonical := by
  have h1 : (sendReplies s r o).Canonical := canonical_of_mem (sendReplies_mem ..) hs
  unfold execElementIssue at h
  dsimp only at h
  split at h
  · injection h with h; subst h; exact hs
  split at h
  · injection h with h; subst h
    unfold forcedStep
    split
    · cases e : firstStep _ _ _ _ _ with
      | none => exact hs
      | some u => exact firstStep_canon _ _ _ _ _ hs _ e
    · exact hs
  split at h
  · injection h with h; subst h; exact h1
  · rename_i e
    have h2 : ∀ rg sp, StepKeeps (portStep (sendReplies s r o) rg o sp) := by
      intro rg sp u hu
      unfold portStep at hu
      split at hu
      · rename_i hx
        cases hu
        split at hx
        · exact canonical_of_mem (firstAhead_mem _ _ _ _ _ _ hx) h1
        · cases hx
      · exact firstStep_canon _ _ _ _ _ h1 _ hu
    split at h
    · injection h with h; subst h; exact canonical_of_mem (setRegion_mem ..) (h2 _ _ _ e)
    · injection h with h; subst h; exact h2 _ _ _ e

theorem seqTry_canon (s : State) (c : SeqId) (x : Except (Miss × Nat) State) (hs : s.Canonical) (hx : ∀ t, x = .ok t → t.Canonical) :
    (seqTry s c x).Canonical := by
  unfold seqTry
  split
  · exact hx _ rfl
  · exact seqMiss_canon _ _ _ hs

theorem fetchNone_canon (a : Actor) (s : State) (hs : s.Canonical) (t : State) (h : fetchNone a s = .next t) :
    t.Canonical := by
  unfold fetchNone at h; grind [canonical_iff, parkSeq_canon, feedNone_mem, execSpReqMark_mem, execMeCommandEnqueue_mem]

end Sys2Proof.Machine
end

