-- ==== Sys2Proof/Laws/Ready.lean ====
section
/-! SUPPORT. What an agent that may act does: one lemma for each way in which instructions run. -/

set_option linter.unusedVariables false
set_option linter.unusedSimpArgs false

namespace Sys2Proof.Laws

open Machine

theorem find_none {α : Type} (p : α → Bool) (l : List α) (h : ∀ x ∈ l, p x = false) : l.find? p = none := by
  rw [List.find?_eq_none]; intro x hx; simp [h x hx]

theorem attempt_ready {s : State} {u : UnitId} {w : NodeWord} {e : Env} {ps held : List Nat} {late : Bool}
    (h : NodeReady s u w e ps held late) (op : Env → Fire) : e.attempt ps held late op = op e := by
  unfold Env.attempt
  rw [find_none _ ps (fun p hp => by simp [h.heads p hp]), find_none _ held (fun p hp => by simp [h.spec p hp])]
  simp [h.owe, h.pairs.1, h.pairs.2]

theorem nodeRun_ready {s : State} {u : UnitId} {w : NodeWord} {e : Env} {ps held : List Nat} {late : Bool}
    (h : NodeReady s u w e ps held late) (op : Env → Fire) :
    nodeRun w s (fun e => e.attempt ps held late op) = .next (applyFire s u (op e)) := by
  unfold nodeRun
  rw [h.actor]; simp only [h.env, attempt_ready h]

theorem statelessRun_ready {s : State} {u : UnitId} {w : NodeWord} {e : Env} {ps held : List Nat}
    (h : DataReady s u w e ps held) (op : Env → Fire) : statelessRun w s ps held op = .next (applyFire s u (op e.fired)) := by
  unfold statelessRun
  rw [nodeRun_ready h.ready]
  simp [h.data, h.rates]

theorem statefulRun_ready {s : State} {u : UnitId} {w : NodeWord} {e : Env} {ps : List Nat}
    (h : NodeReady s u w e ps ps false) (op : Env → Fire) : statefulRun w s ps op = .next (applyFire s u (op e)) := by
  unfold statefulRun
  exact nodeRun_ready h op

theorem awake_cases (e : Env) (b : Nat) : e.awake b = e ∨ e.awake b = e.setOp fun o => { o with phase := false } := by
  unfold Env.awake; split
  · exact .inr rfl
  · exact .inl rfl

theorem awake_op (e : Env) (b : Nat) : ∃ o : OpState, e.awake b = { e with cs := { e.cs with op := o } } ∧ o = { e.cs.op with phase := o.phase } := by
  rcases awake_cases e b with h | h <;> rw [h]
  · exact ⟨e.cs.op, rfl, rfl⟩
  · exact ⟨_, rfl, rfl⟩

theorem awake_head (e : Env) (b p : Nat) : (e.awake b).head p = e.head p := by rcases awake_cases e b with h | h <;> rw [h] <;> rfl

theorem awake_lack (e : Env) (b : Nat) (xs ys : List Beat) : (e.awake b).lack xs ys = e.lack xs ys := by
  rcases awake_cases e b with h | h <;> rw [h] <;> rfl

theorem awake_rates (e : Env) (b : Nat) : (e.awake b).lackRates = e.lackRates := by rcases awake_cases e b with h | h <;> rw [h] <;> rfl

theorem awake_held (e : Env) (b : Nat) : (e.awake b).cs.op.held = e.cs.op.held := by rcases awake_cases e b with h | h <;> rw [h] <;> rfl

theorem awake_round (e : Env) (b : Nat) : (e.awake b).cs.op.round = e.cs.op.round := by rcases awake_cases e b with h | h <;> rw [h] <;> rfl

theorem groupOpen_op (e : Env) (o : OpState) (p : Nat) (h1 : o.held = e.cs.op.held) (h2 : o.osdA = e.cs.op.osdA) (h3 : o.osdB = e.cs.op.osdB) :
    Env.groupOpen { e with cs := { e.cs with op := o } } p = e.groupOpen p := by
  unfold Env.groupOpen; dsimp only; rw [h1, h2, h3]

/-- An attempt of a STEER, which a predicate at its port wakes (R200). -/

theorem attempt_awake {s : State} {u : UnitId} {w : NodeWord} {e : Env} {ps held : List Nat} {late : Bool}
    (h : NodeReady s u w e ps held late) (b : Nat) (op : Env → Fire) : (e.awake b).attempt ps held late op = op (e.awake b) := by
  have hc : ∀ p, (e.awake b).checkPort p late = e.checkPort p late := by
    intro p
    obtain ⟨o, ho, hp⟩ := awake_op e b
    have hg : (e.awake b).groupOpen p = e.groupOpen p := by rw [ho]; exact groupOpen_op e o p (by rw [hp]) (by rw [hp]) (by rw [hp])
    unfold Env.checkPort; rw [hg, awake_head, ho]; rfl
  have hr : ∀ p, e.resolveAt p = none → (e.awake b).resolveAt p = none := by
    intro p; unfold Env.resolveAt; rw [awake_head]
    cases e.head p with
    | none => intro _; rfl
    | some x =>
      dsimp only; split
      · cases h : resolveSpec (e.heads p) <;> (intro hh; cases hh)
      · intro _; rfl
  have hu : ∀ p q, (e.awake b).unmatched p q = e.unmatched p q := by
    intro p q; unfold Env.unmatched; rw [awake_head, awake_head]
    rcases awake_cases e b with h | h <;> rw [h] <;> rfl
  have ho : (e.awake b).cs.op.owe = e.cs.op.owe := by rcases awake_cases e b with h | h <;> rw [h] <;> rfl
  unfold Env.attempt
  rw [find_none _ ps (fun p hp => by simp [hc, h.heads p hp]), find_none _ held (fun p hp => by simp [hr p (h.spec p hp)])]
  simp [ho, hu, h.owe, h.pairs.1, h.pairs.2]

theorem fireXY_ok (e : Env) (xs ys : List Beat) (k : Env → Env) (h : e.lack xs ys = []) : e.fireXY xs ys k = .ok ((k e).send xs ys) := by
  unfold Env.fireXY; simp [h]

theorem fireBoth_ok (e : Env) (xs : List Beat) (k : Env → Env) (h : e.lack xs xs = []) : e.fireBoth xs k = .ok ((k e).send xs xs) :=
  fireXY_ok e xs xs k h

/-- A data firing with room fires (R88). -/

theorem fireData_ok (e : Env) (xs ys : List Beat) (k : Env → Env) (hr : e.lackRates = []) (h : e.lack xs ys = []) :
    e.fireData xs ys k = .ok ((k e).send xs ys) := by
  unfold Env.fireData; simp only [hr, List.isEmpty_nil, if_true]; exact fireXY_ok e xs ys k h

/-- An element-wise firing gives the beat of results. -/

theorem elementwise_ok (e : Env) (n : Nat) (srcs : List Src) (h : Beat) (f : List Nat → Rounded × Bool)
    (hh : (srcPorts e.w).head?.bind e.head = some h) (hb : (e.operands n srcs).any Operand.badBank = false)
    (hr : e.lack [e.elemBeat n srcs h fun l => (f l).1.code] [e.elemBeat n srcs h fun l => (f l).1.code] = []) :
    e.fired.elementwise n srcs f =
      .ok (((e.fired.consumeAll (srcPorts e.w)).count (e.elemBeat n srcs h fun l => (f l).1.code).specOwner (e.elemCounts n srcs f)).send
        [e.elemBeat n srcs h fun l => (f l).1.code] [e.elemBeat n srcs h fun l => (f l).1.code]) := by
  unfold Env.elementwise
  dsimp only
  rw [show (e.fired.operands n srcs).any Operand.badBank = false from hb]
  rw [show (srcPorts e.fired.w).head?.bind e.fired.head = some h from hh]
  simp only [Bool.false_eq_true, if_false]
  exact fireBoth_ok e.fired _ _ hr

theorem env_word {s : State} {u : UnitId} {w : NodeWord} {e : Env} (h : nodeEnv s u w = some e) : e.w = w := by
  unfold nodeEnv at h
  split at h
  · cases h
  · split at h
    · cases h; rfl
    · cases h

theorem widthLaw (i : NodeWord → Instr) (n : NodeWord → Env → Nat) (srcs : NodeWord → List Src) (g : NodeWord → List Nat → Nat)
    (f : NodeWord → List Nat → Rounded × Bool) (hf : ∀ w l, (f w l).1.code = g w l) (hn : ∀ w (e : Env), n w e.fired = n w e)
    (hi : ∀ w s, exec (i w) s = statelessRun w s (srcPorts w) [] fun e => e.elementwise (n w e) (srcs w) (f w)) :
    WidthLaw i n srcs g := by
  intro w s u e h hd hh hb b hr
  have hw := env_word hd.ready.env
  have hg : (fun l => (f w l).1.code) = g w := funext (hf w)
  subst hw
  rw [hi, statelessRun_ready hd, hn, elementwise_ok e _ _ h _ hh hb (by rw [hg]; exact hr), hg]
  exact ⟨_, rfl⟩

theorem elementLaw (i : NodeWord → Instr) (n : NodeWord → Nat) (srcs : NodeWord → List Src) (g : NodeWord → List Nat → Nat)
    (f : NodeWord → List Nat → Rounded × Bool) (hf : ∀ w l, (f w l).1.code = g w l)
    (hi : ∀ w s, exec (i w) s = statelessRun w s (srcPorts w) [] fun e => e.elementwise (n w) (srcs w) (f w)) :
    ElementLaw i n srcs g := widthLaw i _ srcs g f hf (fun _ _ => rfl) hi

theorem roundInt_int (sg : Bool) (n : Nat) (sat : Bool) (rnd : Rnd) (v : Int) (hb : intMin sg n ≤ intMax sg n) :
    (roundInt sg n true sat rnd (exactOfInt v)).code = codeOfInt n (if sat then max (intMin sg n) (min (intMax sg n) v) else v) := by
  have hr : roundUnits rnd (decide (v < 0)) v.natAbs 0 false 0 = (v.natAbs, false) := by
    cases rnd <;> simp [roundUnits, roundsUp]
  unfold roundInt exactOfInt
  simp only [hr]
  have hy : (if decide (v < 0) = true then -(v.natAbs : Int) else (v.natAbs : Int)) = v := by
    by_cases h : v < 0
    · rw [if_pos (decide_eq_true h)]; omega
    · rw [if_neg (by simp only [decide_eq_true_eq]; omega)]; omega
  rw [hy]
  cases sat <;> simp only [Bool.not_true, Bool.not_false, Bool.and_true, Bool.and_false, if_true, Bool.false_eq_true, if_false]
  · split <;> rfl
  · split
    · rename_i h; show codeOfInt n v = _; congr 1; omega
    · show codeOfInt n _ = _; congr 1; split <;> omega

theorem bounds (f : Fmt) : intMin (fmtSigned f) (fmtWidth f) ≤ intMax (fmtSigned f) (fmtWidth f) := by cases f <;> decide

theorem next_ok {s : State} {u : UnitId} {f : Fire} {e : Env} (h : f = .ok e) :
    (Host.Outcome.next (applyFire s u f) : Host.Outcome State Fault Refusal) = .next (applyFire s u (.ok e)) := by
  rw [h]

theorem reduceLaw (i : NodeWord → Instr) (f : NodeWord → List Nat → Rounded × Bool) (hi : ∀ w s, exec (i w) s = reduceOp w s (f w)) :
    ReduceLaw i f := by
  intro w s u e h hd hh els full none
  rw [hi]
  unfold reduceOp
  rw [statelessRun_ready hd, show e.fired.head (portA w) = some h from hh]
  refine ⟨fun he hl => ?_, fun he hl => ?_⟩
  · simp only [List.isEmpty_iff, show ¬ (List.filterMap id (beatElems (fmtWidth w.fmt) h) = []) from he, if_false]
    exact next_ok (fireBoth_ok _ _ _ hl)
  · simp only [List.isEmpty_iff, show (List.filterMap id (beatElems (fmtWidth w.fmt) h) = []) from he, if_true]
    exact next_ok (fireBoth_ok _ _ _ hl)

theorem accLaw (i : NodeWord → Instr) (step : NodeWord → Env → Beat → OpState × Counts) (out : NodeWord → OpState → BitVec 3 → Beat)
    (hi : ∀ w s, exec (i w) s = accRun w s (step w) (out w)) : AccumulateLaw i step out := by
  intro w s u e b h hb
  rw [hi]
  unfold accRun
  dsimp only
  rw [statefulRun_ready h, hb]
  refine ⟨fun hd => ?_, fun hd hs hj => ?_, fun hd hs hj hl => ?_⟩
  · intro hl
    simp only [hd, hl, List.isEmpty_nil, Bool.not_true, Bool.false_eq_true, if_false, if_true] <;> rfl
  · simp only [hd, hs, if_true, Bool.false_eq_true, if_false, show bitsOf w.aux.toNat 0 3 = auxLevel w by simp [bitsOf, auxLevel], hj] <;> rfl
  · simp only [hd, hs, if_true, Bool.false_eq_true, if_false, show bitsOf w.aux.toNat 0 3 = auxLevel w by simp [bitsOf, auxLevel], Nat.not_lt.mpr hj]
    rw [fireBoth_ok _ _ _ hl]; rfl

theorem laneLaw (i : NodeWord → Instr) (srcs : NodeWord → List Src) (fx fy : NodeWord → Nat → (Nat → Nat → Option Nat) → Nat → Option Nat)
    (g : NodeWord → Nat → Nat → List (List (Option Nat)) → List (Option Nat) × List (Option Nat))
    (hi : ∀ w s, exec (i w) s = laneOp w s (srcs w) (g w))
    (hg : ∀ w wd l, g w wd (256 / wd) l =
      ((List.range (256 / wd)).map (fx w wd fun k i => elAt (l.getD k []) i),
       (List.range (256 / wd)).map (fy w wd fun k i => elAt (l.getD k []) i))) : LaneLaw i srcs fx fy := by
  intro w s u e h hd hh hb wd ops like n x y hl
  have hw := env_word hd.ready.env
  rw [hi]
  unfold laneOp
  rw [statelessRun_ready hd]
  dsimp only
  rw [show (List.map (fun x => e.fired.operand x (e.fired.width w.fmt ((srcPorts w).headD 0))) (srcs w)).any Operand.badBank = false from hb,
    show (srcPorts w).head?.bind e.fired.head = some h from hh]
  simp only [Bool.false_eq_true, if_false]
  rw [show e.fired.width w.fmt ((srcPorts w).headD 0) = wd from rfl]
  have := hg w wd (ops.map (operandElems wd))
  rw [show g w wd (256 / wd) (List.map (operandElems wd) (List.map (fun x => e.fired.operand x wd) (srcs w))) = _ from this]
  simp only []
  exact congrArg (fun f => Host.Outcome.next (applyFire s u f)) (fireXY_ok e.fired _ _ _ hl)

theorem lack_nil (e : Env) : e.lack [] [] = [] := by
  have h : ∀ q, e.room q [] = true := by
    intro q; unfold Env.room Region.roomFor
    cases e.dst q <;> simp
    split
    · rfl
    · split <;> simp [Link.canTake]
  unfold Env.lack; simp [h]

theorem nodeRun_awake {s : State} {u : UnitId} {w : NodeWord} {e : Env} {ps held : List Nat} {late : Bool}
    (h : NodeReady s u w e ps held late) (b : Nat) (op : Env → Fire) :
    nodeRun w s (fun e => (e.awake b).attempt ps held late op) = .next (applyFire s u (op (e.awake b))) := by
  unfold nodeRun
  rw [h.actor]; simp only [h.env, attempt_awake h]

theorem lanesLaw (i : NodeWord → Instr) (ports : NodeWord → List Nat) (atomic writes : Bool) (trap : NodeWord → Nat)
    (lane : NodeWord → SegDesc → Bool → Nat → Env → Beat → Option LaneDone) (out : NodeWord → Env → Beat → Bool → Beat)
    (hi : ∀ w s, exec (i w) s = tileBeat w s (ports w) atomic writes (trap w) (lane w) (out w)) : LanesLaw i ports writes lane out := by
  intro w s u e d tile h ha hm hd ht hr h1 hpu pois b
  rw [hi]; unfold tileBeat; dsimp only
  rw [statefulRun_ready h, if_neg (by simp [ha]), if_neg (by simp [hm]), hd, ht]
  dsimp only
  have hpe : ∀ k : Env → Fire, e.pureEvent 0x02 k = k e := by intro k; unfold Env.pureEvent; simp [hpu]
  have hif : ∀ f x : Fire, (if e.cs.op.phase = true then f.goesOn else if (!e.lackRates.isEmpty) = true then Fire.full e.lackRates else f) =
      if e.cs.op.phase then f.goesOn else f := by
    intro f x
    by_cases hp : e.cs.op.phase = true
    · rw [if_pos hp, if_pos hp]
    · rw [if_neg hp, if_neg hp, if_neg (by rcases hr with hr | hr; exact absurd hr hp; simp [hr])]
  have hgo : ∀ (f : Fire) (y : Env), f = .ok y → (Host.Outcome.next (applyFire s u (if e.cs.op.phase then f.goesOn else f)) :
      Host.Outcome State Fault Refusal) = .next (applyFire s u (e.goes y)) := by
    intro f y hf; subst hf; rfl
  rw [hpe, ite_self, hif _ .stall,
    if_neg (show ¬ ((writes && (ports w).any fun p => (e.head p).any Beat.poison) && e.rg.ptrap) = true by simp [h1])]
  refine ⟨fun hn hl => ?_, fun k rest x hk hx => ⟨fun hne => ?_, fun he hl => ?_⟩⟩
  · rw [hn]; exact hgo _ _ (fireBoth_ok _ _ _ hl)
  · rw [hk]; dsimp only
    rw [show lane w tile (writes && (ports w).any fun p => (e.head p).any Beat.poison) k e d = some x from hx]; dsimp only
    rw [if_neg (show ¬ rest.isEmpty = true by cases rest with
      | nil => exact absurd rfl hne
      | cons _ _ => simp)]
    exact hgo _ _ rfl
  · rw [hk]; dsimp only
    rw [show lane w tile (writes && (ports w).any fun p => (e.head p).any Beat.poison) k e d = some x from hx]; dsimp only
    rw [if_pos (show rest.isEmpty = true by rw [he]; rfl)]
    exact hgo _ _ (fireBoth_ok _ _ _ hl)

theorem fibreRun_is {s : State} {u : UnitId} {w : NodeWord} {e e1 : Env} {ps : List Nat} {t0 : Bool} {op : Env → Fire}
    (h : NodeReady s u w e ps ps true) (ho : op e = .ok e1) : fibreRun w s ps t0 op = .next (applyFire s u (e1.emitFull t0)) := by
  unfold fibreRun nodeRun
  rw [h.actor]; simp only [h.env, attempt_ready h, ho]

theorem emit_cs (e : Env) (q : Nat) (bs : List Beat) : (e.emit q bs).cs = e.cs := by unfold Env.emit; split <;> rfl

theorem writeLocal_op (e : Env) (bs : List Beat) : (e.writeLocal bs).cs.op = e.cs.op := by unfold Env.writeLocal; (repeat' split) <;> rfl

theorem send_op (e : Env) (xs ys : List Beat) : ∃ l, (e.send xs ys).cs.op = { e.cs.op with owe := l } := by
  have h : (((e.emit 0 (xs.take 1)).emit 1 (ys.take 1)).writeLocal (e.kept xs ys)).cs.op = e.cs.op := by
    rw [writeLocal_op, emit_cs, emit_cs]
  have hm : ∀ (m : List (Bool × Beat)) (e1 : Env), e1.cs.op = e.cs.op →
      ∃ l, (if m.isEmpty then e1 else e1.setOp fun o => { o with owe := o.owe ++ m }).cs.op = { e.cs.op with owe := l } := by
    intro m e1 h1
    split
    · exact ⟨e.cs.op.owe, h1⟩
    · exact ⟨_, by unfold Env.setOp; rw [h1]⟩
  exact hm _ _ h

theorem emitFull_small (e : Env) (t0 : Bool) (hx : e.cs.op.outX.length < 8) (hy : e.cs.op.outY.length < 8) : e.emitFull t0 = .ok e := by
  unfold Env.emitFull; simp [Nat.not_le.mpr hx, Nat.not_le.mpr hy]

theorem emitFull_rule (e : Env) (t0 : Bool) :
    let x := e.cs.op.xBeat
    let y := e.cs.op.yBeat t0
    (e.cs.op.outX.length < 8 → e.cs.op.outY.length < 8 → e.emitFull t0 = .ok e) ∧
    (8 ≤ e.cs.op.outX.length → e.cs.op.outY.length < 8 → e.lack [x] [] = [] → e.emitFull t0 = .ok ((e.setOp fun o => o.dropX t0).send [x] [])) ∧
    (e.cs.op.outX.length < 8 → 8 ≤ e.cs.op.outY.length → e.lack [] [y] = [] → e.emitFull t0 = .ok ((e.setOp OpState.dropY).send [] [y])) ∧
    (8 ≤ e.cs.op.outX.length → 8 ≤ e.cs.op.outY.length → e.lack [x] [y] = [] →
      e.emitFull t0 = .ok ((e.setOp fun o => (o.dropX t0).dropY).send [x] [y])) := by
  intro x y
  refine ⟨emitFull_small e t0, fun hx hy hl => ?_, fun hx hy hl => ?_, fun hx hy hl => ?_⟩ <;> unfold Env.emitFull
  · simp only [hx, Nat.not_le.mpr hy, decide_true, decide_false, Bool.true_or, if_true]
    exact fireXY_ok e [e.cs.op.xBeat] [] (fun e1 => e1.setOp fun o => o.dropX t0) hl
  · simp only [Nat.not_le.mpr hx, hy, decide_true, decide_false, Bool.or_true, if_true]
    exact fireXY_ok e [] [e.cs.op.yBeat t0] (fun e1 => e1.setOp fun o => o.dropY) hl
  · simp only [hx, hy, decide_true, Bool.or_self, if_true]
    exact fireXY_ok e [e.cs.op.xBeat] [e.cs.op.yBeat t0] (fun e1 => e1.setOp fun o => (o.dropX t0).dropY) hl

theorem seqRun_ready {s : State} {c : SeqId} {regs : List (BitVec 5)} (h : SeqReady s c regs) (k : SeqId → Seq → State) :
    seqRun s regs k = .next (k c (seqIssued s c)) := by
  unfold seqRun; rw [h.actor]; simp only [h.ready, if_true]; rfl

theorem rr_law (i : BitVec 5 → BitVec 5 → BitVec 5 → Instr) (f g : DWord → DWord → DWord)
    (hi : ∀ d a b s, exec (i d a b) s = aluRR d a b g s) (hf : ∀ x y, g x y = f x y) : RegisterLaw i f := by
  intro s c d a b h q
  rw [hi]; unfold aluRR; rw [seqRun_ready h]
  unfold seqPut Seq.advance; rw [setGreg_pc, hf]; rfl

theorem ri_law (i : BitVec 5 → BitVec 5 → BitVec 16 → Instr) (f : DWord → DWord → DWord)
    (hi : ∀ d a b s, exec (i d a b) s = aluRI d a b f s) : ImmediateLaw i f := by
  intro s c d a b h q
  rw [hi]; unfold aluRI; rw [seqRun_ready h]
  unfold seqPut Seq.advance; rw [setGreg_pc]; rfl

theorem sh_law (i : BitVec 5 → BitVec 5 → BitVec 6 → Instr) (f g : DWord → Nat → DWord)
    (hi : ∀ d a b s, exec (i d a b) s = aluSh d a b g s) (hf : ∀ x y, g x y = f x y) : ShiftLaw i f := by
  intro s c d a b h q
  rw [hi]; unfold aluSh; rw [seqRun_ready h]
  unfold seqPut Seq.advance; rw [setGreg_pc, hf]; rfl

theorem sar_eq (x : DWord) (n : Nat) : x.sshiftRight n = BitVec.ofInt 64 (x.toInt / 2 ^ n) := by
  unfold BitVec.sshiftRight; rw [Int.shiftRight_eq_div_pow]; norm_cast

theorem shift_illegal (w : BitVec 32) (h : (fld w 26 6 : BitVec 6) = 5 ∨ (fld w 26 6 : BitVec 6) = 6 ∨ (fld w 26 6 : BitVec 6) = 7)
    (h2 : (fld w 6 10 : BitVec 10) ≠ 0) : decodeSeq w = .error .illegalInstruction := by
  unfold decodeSeq; dsimp only
  rcases h with h | h | h <;> rw [h] <;> exact if_neg h2

theorem branch_law (i : BitVec 5 → BitVec 5 → BitVec 16 → Instr) (f g : DWord → DWord → Bool)
    (hi : ∀ d a b s, exec (i d a b) s = branch d a b g s) (hf : ∀ x y, g x y = f x y) : BranchLaw i f := by
  intro s c d a b h q
  rw [hi]; unfold branch; rw [seqRun_ready h]; rw [hf]
  split <;> rfl

theorem access_law {s : State} {c : SeqId} {i : Instr} {va n : Nat} {who : Who} {acc : Access} {owe : BitVec 5}
    (h : exec i s = .next (seqAccess s c (seqIssued s c) va n who acc owe)) : AccessLaw s c i va n who acc owe := by
  unfold AccessLaw
  refine ⟨fun hm => ?_, fun s1 e hm hc ht hf ha => ?_⟩
  · rw [h]; unfold seqAccess; simp only [hm, ne_eq, not_false_eq_true, if_true]
  · rw [h]; unfold seqAccess; dsimp only
    rw [if_neg (by simpa using hm)]
    simp only [hc, Bool.not_true, Bool.false_eq_true, if_false]
    rw [ht]; dsimp only; rw [hf]; dsimp only
    simp only [ha, Bool.false_eq_true, if_false]
    unfold Seq.advance; split <;> rfl

theorem amo_law (i : BitVec 5 → BitVec 5 → BitVec 5 → Bool → Instr) (op : Nat)
    (hi : ∀ d a b w s, exec (i d a b w) s = samo op d a b w s) : AmoLaw i op := by
  intro s c d a b w h q n
  exact access_law (by rw [hi]; unfold samo; dsimp only; rw [seqRun_ready h])

theorem aget_aset_same {α : Type} (m : AMap α) (k : Nat) (v : α) : aget (aset m k v) k = some v := by
  induction m with
  | nil => simp [aset, aget]
  | cons x t ih =>
    obtain ⟨j, y⟩ := x
    unfold aset
    split
    · simp [aget]
    · split
      · simp [aget]
      · rename_i h1 h2; unfold aget; rw [if_neg (by omega)]; exact ih

theorem aget_aset_other {α : Type} (m : AMap α) (k k1 : Nat) (v : α) (h : k1 ≠ k) : aget (aset m k v) k1 = aget m k1 := by
  induction m with
  | nil => simp [aset, aget, Ne.symm h]
  | cons x t ih =>
    obtain ⟨j, y⟩ := x
    unfold aset
    split
    · rw [show aget ((k, v) :: (j, y) :: t) k1 = aget ((j, y) :: t) k1 from by rw [aget]; rw [if_neg (Ne.symm h)]]
    · split
      · rename_i h1 h2; subst h2; simp [aget, Ne.symm h]
      · unfold aget; rw [ih]

def seqCore (q : Seq) : Seq := { q with sects := [] }

theorem seqCore_eq {q r : Seq} (h : seqCore q = seqCore r) : q = { r with sects := q.sects } := by
  cases q; cases r; simp only [seqCore, Seq.mk.injEq] at h ⊢; simp_all

theorem aget_map {α : Type} (l : AMap α) (F : Nat × α → Nat × α) (g : Nat → α → α) (hF : ∀ x, F x = (x.1, g x.1 x.2)) (k : Nat) :
    aget (l.map F) k = (aget l k).map (g k) := by
  induction l with
  | nil => rfl
  | cons x t ih =>
    obtain ⟨j, v⟩ := x
    rw [List.map_cons, hF]; unfold aget
    dsimp only
    split
    · subst_vars; rfl
    · exact ih

structure Keeps (s t : State) : Prop where
  core : ∀ c, seqCore (seqAt t c) = seqCore (seqAt s c)
  reqs : t.reqs = s.reqs
  cycle : t.cycle = s.cycle
  parts : t.parts.length = s.parts.length

theorem Keeps.refl (s : State) : Keeps s s := ⟨fun _ => rfl, rfl, rfl, rfl⟩

theorem Keeps.trans {s t u : State} (h : Keeps s t) (k : Keeps t u) : Keeps s u :=
  ⟨fun c => (k.core c).trans (h.core c), k.reqs.trans h.reqs, k.cycle.trans h.cycle, k.parts.trans h.parts⟩

theorem keeps_foldl {α : Type} (f : State → α → State) (hf : ∀ t x, Keeps t (f t x)) (l : List α) (s : State) : Keeps s (l.foldl f s) := by
  induction l generalizing s with
  | nil => exact Keeps.refl s
  | cons x t ih => exact (hf s x).trans (ih _)

theorem lmod_length {α : Type} (l : List α) (k : Nat) (f : α → α) : (lmod l k f).length = l.length := by
  induction l generalizing k with
  | nil => rfl
  | cons x t ih => cases k with
    | zero => rfl
    | succ j => simp [lmod, ih]

theorem setPart_keeps (s : State) (p : Nat) (x : Part) : Keeps s (setPart s p x) := ⟨fun _ => rfl, rfl, rfl, lmod_length _ _ _⟩

theorem watchHit_keeps (s : State) (p g : Nat) : Keeps s (watchHit s p g) := by
  unfold watchHit; dsimp only
  split
  · exact Keeps.refl s
  · refine Keeps.trans (Keeps.trans ?_ (setPart_keeps _ _ _)) (setPart_keeps _ _ _)
    refine ⟨fun c => ?_, rfl, rfl, rfl⟩
    unfold cancelList; unfold seqAt agetD
    dsimp only
    rw [aget_map s.seqs _ (fun k q => if k / 32 = p then (cancelSeq g q).1 else q) (by intro x; split <;> rfl)]
    cases aget s.seqs (seqKey c) with
    | none => rfl
    | some q => simp only [Option.map_some, Option.getD_some]; split <;> rfl

theorem watchWrite_keeps (s : State) (k n : Nat) : Keeps s (watchWrite s k n) := by
  unfold watchWrite; dsimp only
  split
  · exact Keeps.refl s
  · split
    · exact Keeps.refl s
    · split
      · exact watchHit_keeps _ _ _
      · exact (watchHit_keeps _ _ _).trans (watchHit_keeps _ _ _)

theorem rekey_keeps (s : State) (b l : Nat) : Keeps s (rekey s b l) := by
  unfold rekey
  split
  · exact Keeps.refl s
  · split
    · exact ⟨fun _ => rfl, rfl, rfl, rfl⟩
    · split
      · exact Keeps.refl s
      · dsimp only
        generalize memWrite s.mem _ _ = m1
        exact ⟨fun _ => rfl, rfl, rfl, rfl⟩

theorem devWrite_keeps (s : State) (b k : Nat) (bs : List Byte) (p : Bool) : Keeps s (devWrite s b k bs p) := by
  unfold devWrite
  split
  · exact Keeps.refl s
  · dsimp only
    have h := (watchWrite_keeps s k bs.length).trans (keeps_foldl (fun t i => rekey t b (k / 256 + i)) (fun t x => rekey_keeps _ _ _)
      (List.range ((k + bs.length - 1) / 256 - k / 256 + 1)) (watchWrite s k bs.length))
    generalize List.foldl (fun t i => rekey t b (k / 256 + i)) (watchWrite s k bs.length) (List.range ((k + bs.length - 1) / 256 - k / 256 + 1)) = z at h ⊢
    split
    · exact h.trans ⟨fun _ => rfl, rfl, rfl, rfl⟩
    · generalize memWrite z.mem k bs = m1
      exact h.trans ⟨fun _ => rfl, rfl, rfl, rfl⟩

theorem putRecord_keeps (s : State) (p : Nat) (w : Option RegId) (bs : List Byte) : Keeps s (putRecord s p w bs).1 := by
  unfold putRecord; dsimp only
  split
  · exact setPart_keeps _ _ _
  · split
    · exact setPart_keeps _ _ _
    · rename_i s1 q h
      refine Keeps.trans ?_ (setPart_keeps _ _ _)
      unfold queuePut at h
      split at h
      · cases h
      · cases h; exact devWrite_keeps _ _ _ _ _

theorem raiseIrq_keeps (s : State) (p b : Nat) : Keeps s (raiseIrq s p b) := by
  unfold raiseIrq; dsimp only; split
  · exact Keeps.refl s
  · exact setPart_keeps _ _ _

theorem lmod_getD {α : Type} (l : List α) (k : Nat) (f : α → α) (d : α) (h : k < l.length) : (lmod l k f).getD k d = f (l.getD k d) := by
  induction l generalizing k with
  | nil => simp at h
  | cons x t ih => cases k with
    | zero => rfl
    | succ j => simpa [lmod] using ih j (by simpa using h)

theorem raiseIrq_bit (s : State) (p : Nat) (h : p < s.parts.length) : (partAt (raiseIrq s p 0) p).pirq.getLsbD 0 = true := by
  unfold raiseIrq; dsimp only; split
  · assumption
  · unfold setPart partAt; dsimp only
    rw [lmod_getD _ _ _ _ h]; simp

theorem seqAt_setSeq (s : State) (c : SeqId) (q : Seq) : seqAt (setSeq s c q) c = q := by
  unfold seqAt setSeq agetD; dsimp only; rw [aget_aset_same]; rfl

theorem raiseIrq_seqs (s : State) (p b : Nat) : (raiseIrq s p b).seqs = s.seqs := by unfold raiseIrq; dsimp only; split <;> rfl

def sectCore (x : SectCtx) : SectCtx := { x with kept := none }

theorem core_eq {x y : SectCtx} (h : sectCore x = sectCore y) : x.cpc = y.cpc ∧ x.pend = y.pend ∧ x.lv = y.lv :=
  ⟨(congrArg SectCtx.cpc h :), (congrArg SectCtx.pend h :), (congrArg SectCtx.lv h :)⟩

theorem sectAt_setSect (q : Seq) (k j : Nat) (x : SectCtx) (h : sectCore x = sectCore (sectAt q k)) :
    sectCore (sectAt (setSect q k x) j) = sectCore (sectAt q j) := by
  unfold setSect sectAt at *
  dsimp only at *
  generalize q.sects = l at h ⊢
  induction l generalizing k j with
  | nil => cases k <;> rfl
  | cons y t ih => cases k with
    | zero => cases j with
      | zero => exact h
      | succ j => rfl
    | succ k => cases j with
      | zero => rfl
      | succ j => exact ih k j h

theorem keepLayout_sect (s : State) (rg : Region) (c : SeqId) (k : Nat) :
    sectCore (sectAt (seqAt (keepLayout s rg) c) k) = sectCore (sectAt (seqAt s c) k) := by
  unfold keepLayout
  split
  · rfl
  · by_cases hc : seqKey c = seqKey rg.id.seq
    · have e : ∀ u : State, seqAt u c = seqAt u rg.id.seq := fun u => by unfold seqAt; rw [hc]
      rw [e, e, seqAt_setSeq]
      exact sectAt_setSect _ _ _ _ rfl
    · unfold seqAt setSeq agetD; dsimp only; rw [aget_aset_other _ _ _ _ hc]

theorem modMe_seqs (s : State) (r : RegId) (o : Offset) (f : Me → Me) : (modMe s r o f).seqs = s.seqs := by unfold modMe; split <;> rfl

theorem recallAll_seqs (s : State) (r : RegId) : (recallAll s r).seqs = s.seqs := by
  unfold recallAll
  generalize hostedOf s r = l
  induction l generalizing s with
  | nil => rfl
  | cons x l ih => rw [List.foldl_cons, ih]; unfold recallOne; rw [modMe_seqs, modMe_seqs]

theorem freeRegion_sect (s : State) (r : RegId) (c : SeqId) (k : Nat) :
    sectCore (sectAt (seqAt (freeRegion s r) c) k) = sectCore (sectAt (seqAt s c) k) := by
  have h0 : seqAt (dropFlits (recallAll s r) r) c = seqAt s c := by
    show agetD (recallAll s r).seqs _ _ = _
    rw [recallAll_seqs]; rfl
  unfold freeRegion
  dsimp only
  split
  · rw [h0]
  · rw [← h0]; exact keepLayout_sect _ _ _ _

theorem clearUses_sect (s : State) (r : RegId) (us : List BridgeUse) (c : SeqId) (k : Nat) :
    sectCore (sectAt (seqAt (clearUses s r us) c) k) = sectCore (sectAt (seqAt s c) k) := by
  unfold clearUses
  generalize List.map _ _ = l
  induction l generalizing s with
  | nil => rfl
  | cons x l ih =>
    rw [List.foldl_cons, ih]
    split
    · rfl
    · exact freeRegion_sect _ _ _ _

theorem swapped_sect (s : State) (rg : Region) (f : Feed) (ls : List Link) (lays : List NodeLayout) (c : SeqId) (k : Nat) :
    sectCore (sectAt (seqAt (swapped s rg f ls lays) c) k) = sectCore (sectAt (seqAt s c) k) := by
  unfold swapped
  dsimp only
  rw [clearUses_sect]
  show sectCore (sectAt (agetD (recallAll _ _).seqs _ _) k) = _
  rw [recallAll_seqs]; rfl

theorem defaultTokens_ok (e : Env) (ps : List Nat) (b : Beat) (ht : e.someToken ps = true) (ha : tokensAgree (ps.map e.head) = .agreed b)
    (hl : e.lack [b] [b] = []) : e.defaultTokens ps = .ok (e.keepLocals ((((e.consumeAll ps).statAt b).noteRound b).send [b] [b])) := by
  have h : e.tokens ps [] [] id = .ok ((((e.consumeAll ps).statAt b).noteRound b).send [b] [b]) := by
    unfold Env.tokens
    rw [if_neg (by simp [ht]), ha]
    exact fireXY_ok _ _ _ _ hl
  unfold Env.defaultTokens; rw [h]; rfl

theorem tokenFire_ok (i : Instr) (e0 e : Env) (ps : List Nat) (e1 : Env) (he : awakeNode (some i) e0 = e) (ho : e.cs.op.owe = [])
    (hc : ∀ p ∈ ps, e.checkPort p false = .fine) (h1 : e.unmatched 0 1 = false) (h2 : e.unmatched 2 3 = false) (hh : e.cs.op.held = [])
    (hd : e.defaultTokens ps = .ok e1) :
    tokenFire i ps e0 = .ok (afterToken i (ps.any fun p => (e.head p).any Beat.isClosing) e1) := by
  unfold tokenFire Env.attempt
  rw [he, if_neg (by simp [ho]), find_none _ ps (fun p hp => by simp [hc p hp])]
  simp only [List.find?_nil, h1, h2, Bool.or_self, Bool.false_eq_true, if_false]
  rw [if_neg (by simp [hh]), hd]

theorem tokenFire_exec {s : State} {u : UnitId} {i : Instr} {ps : List Nat} {e e1 : Env} (hi : defaultNode s u = some (i, ps, e)) (ht : tokenFire i ps e = .ok e1) :
    execNodeTokenFire u s = .next (applyFire s u (.ok e1)) := by
  unfold execNodeTokenFire; rw [hi]; dsimp only; rw [ht]

theorem tokenFire_law (s : State) (u : UnitId) (i : Instr) (ps : List Nat) (e0 e : Env) (b : Beat) (hi : defaultNode s u = some (i, ps, e0))
    (he : awakeNode (some i) e0 = e) (ho : e.cs.op.owe = []) (hc : ∀ p ∈ ps, e.checkPort p false = .fine) (h1 : e.unmatched 0 1 = false)
    (h2 : e.unmatched 2 3 = false) (hh : e.cs.op.held = []) (ht : e.someToken ps = true) (ha : tokensAgree (ps.map e.head) = .agreed b)
    (hl : e.lack [b] [b] = []) :
    exec (.nodeTokenFire u) s = .next (applyFire s u (.ok (afterToken i (ps.any fun p => (e.head p).any Beat.isClosing)
      (e.keepLocals ((((e.consumeAll ps).statAt b).noteRound b).send [b] [b]))))) := by
  show execNodeTokenFire u s = _
  exact tokenFire_exec hi (tokenFire_ok i e0 e ps _ he ho hc h1 h2 hh (defaultTokens_ok e ps b ht ha hl))

theorem matchDiscard_law (s : State) (u : UnitId) (rg : Region) (e0 e : Env) (cd : Bool) (hr : regionAt s u.reg = some rg)
    (h0 : nodeEnv s u (NodeWord.ofBits (nodeBits rg.plane u.off u.ctx)) = some e0) (he : awakeNode (nodeInstr rg u) e0 = e) :
    exec (.matchDiscard u cd) s = .next (applyFire s u (matchFire (if cd then 2 else 0) ((if cd then 2 else 0) + 1) e)) := by
  show execMatchDiscard u cd s = _
  unfold execMatchDiscard; rw [hr]; dsimp only; rw [h0]; dsimp only; rw [he]
  cases cd <;> rfl

theorem matchFire_law (p q : Nat) (e : Env) (x y : Beat) (hm : e.matched p = true) (hm1 : e.matched q = true) (hc : e.checkPort p false = .fine)
    (hc1 : e.checkPort q false = .fine) (hx : e.head p = some x) (hy : e.head q = some y) :
    (x.isData = true → y.isData = true → x.ctl < y.ctl → matchFire p q e = .quiet (e.consume p) false) ∧
    (x.isData = true → y.isData = true → y.ctl < x.ctl → matchFire p q e = .quiet (e.consume q) false) ∧
    (x.isData = true → y.isData = false → y.isStop = true → matchFire p q e = .quiet (e.consume p) false) ∧
    (x.isData = false → x.isStop = true → y.isData = true → matchFire p q e = .quiet (e.consume q) false) := by
  have hf : ([p, q].find? fun x => e.checkPort x false != .fine) = none := by simp [hc, hc1]
  unfold matchFire; rw [hf]
  simp only [hm, hm1, Bool.and_self, Bool.not_true, Bool.false_eq_true, if_false, hx, hy]
  refine ⟨fun a b c => ?_, fun a b c => ?_, fun a b c => ?_, fun a b c => ?_⟩
  · simp only [a, b, c, Bool.and_self, if_true]
  · simp only [a, b, c, Bool.and_self, if_true, Nat.lt_asymm c, if_false]
  · simp only [a, b, c, Bool.and_false, Bool.and_self, Bool.false_eq_true, if_false, if_true]
  · simp only [a, b, c, Bool.and_true, Bool.false_and, Bool.false_eq_true, if_false, if_true]

theorem sendPortBeat_sends (s h : State) (port : Nat) (sp : SPort) (r : RegId) (j circ : Nat) (l : Link) (x : Beat) (hh : holdBeats s port = h)
    (hp : h.sports[port]? = some sp) (hs : sp.stopped = false) (hn : sp.outgoing.length < 512) (hx : nextSend h (8 + port) sp.turn = some (r, j, circ, l, x)) :
    sendPortBeat s port = match egressFault h r j x with
      | some fi => raiseFault h r fi
      | none =>
        let s1 := modLinkOf h r j fun _ => { l with drn := l.drn || x.isDrn }
        { s1 with sports := lmod s1.sports port fun y => sendFlits { y with turn := circ + 1 } 0 (BitVec.ofNat 12 circ) [x.flit] } := by
  unfold sendPortBeat
  rw [hh]; dsimp only; rw [hp]; dsimp only
  rw [if_neg (by rw [hs]; unfold retryCap; simpa using hn), hx] <;> rfl

theorem accept_law (i : Instr) (hi : ∀ s, exec i s = acceptSpb i s) : AcceptLaw i := by
  intro s r o rg sp k a b n ha hs hr hh hk hp hsa hsb hf rg1
  have hx : exec i s = .next (match spbCheck rg o i with
              | some sub => spFault (setRegion s rg1) r o clsCfg sub k (some a) b.pay
              | none => setRegion s { setSp rg1 { sp.countHash i with
                  slots := lmod sp.slots n fun _ => some { spb := i, stamp := sp.nextStamp, port := k, deadline := rg.deadline, round := b.round,
                                                           hashNo := sp.hashNo i },
                  nextStamp := sp.nextStamp + 1 } with hang := 0 }) := by
    rw [hi]; unfold acceptSpb; rw [ha]; dsimp only; rw [hs]; dsimp only; rw [hk]; dsimp only; rw [hp]; dsimp only
    simp only [hr, hh, hsa, hsb, Bool.not_true, Bool.or_self, Bool.false_eq_true, if_false, hf]
    cases spbCheck rg o i <;> rfl
  rw [hx]
  exact ⟨fun sub h => by rw [h], fun h => by rw [h]⟩

theorem meRun_start {s : State} {code : Nat} {c : MCmd} {x : MeRun} (h : MeStarts s code c x) (st go : MeRun → State) :
    meRun code c s st go = .next (st x) := by
  obtain ⟨⟨h1, h2, h3, h4, h5, h6⟩, h7, h8, h9⟩ := h
  obtain ⟨rg, m, k, e⟩ := x
  unfold meRun; rw [h1]; dsimp only at *
  rw [if_neg (show ¬ k = meCap from h2), h3]; dsimp only
  rw [h4]; dsimp only
  rw [if_neg (by simp [h5, h6]), if_neg (by simp [h7]), if_neg (by simp [h8]), if_neg (by simp [h9])]

theorem meRun_go {s : State} {code : Nat} {c : MCmd} {x : MeRun} (h : MeHolds s code c x) (hs : x.e.started = true) (st go : MeRun → State) :
    meRun code c s st go = .next (go x) := by
  obtain ⟨h1, h2, h3, h4, h5, h6⟩ := h
  obtain ⟨rg, m, k, e⟩ := x
  unfold meRun; rw [h1]; dsimp only at *
  rw [if_neg (show ¬ k = meCap from h2), h3]; dsimp only
  rw [h4]; dsimp only
  rw [if_neg (by simp [h5, h6]), if_pos hs]

theorem operand_ok {s : State} {x : MeRun} {f : Fmt} {num : Nat} {b : Beat} {l : MLine} {keep : List Beat} (h : OperandLine x f num b l keep)
    (g : Region → Me → MeEntry → MLine → State) : x.operand s f num g = g x.taken x.m (x.next keep) l := by
  obtain ⟨h1, h2, h3, h4, h5, h6⟩ := h
  unfold MeRun.operand; dsimp only
  cases hh : blockHeads x.rg x.m.off (maskPort x.e.code.2.pmask x.e.beat) with
  | nil => rw [hh] at h1; cases h1
  | cons b1 rest =>
    rw [hh] at h1; cases h1
    dsimp only
    have ht : b.isTdr = false := by
      revert h2; unfold Beat.isData Beat.isTdr Beat.isMarkOf; cases b.kind <;> simp
    rw [if_neg (by simp [h3]), if_neg (by simp [ht]), if_neg (by simp [h2]), if_neg (by simp [h4]), if_neg (by simp only [h5]; decide), h6]
    rfl

theorem perform_ok {s : State} {id : Nat} {q : MemReq} {s2 : State} {bs : List Byte} {pois : Bool} {pick : MemReq → Bool}
    (hf : (s.reqs.find? fun x => x.id == id) = some q) (hm : mayPerform s q = true) (hr : ∀ m d a, q.tgt = .remote m d a → q.sent = true)
    (hp : performAt s q = .ok s2 bs pois) (hk : pick q = true) :
    performReq id pick s = .next (if (lateCheck s q).2 then wrotePast (refuse (lateCheck s q).1 q clsDeadline 0x02) q
      else match performAt (lateCheck s q).1 q with
        | .ok s2 bs pois => wrotePast (answer (countReq s2 q) q bs pois) q
        | _ => (lateCheck s q).1) := by
  have hmain : (match performAt s q with
        | .later => .next s
        | .mmio => .refused .mmioRegister
        | .bad c k => .next (wrotePast (refuse s q c k) q)
        | .ok _ _ _ =>
          if (lateCheck s q).2 then .next (wrotePast (refuse (lateCheck s q).1 q clsDeadline 0x02) q)
          else
            match performAt (lateCheck s q).1 q with
            | .ok s2 bs pois => .next (wrotePast (answer (countReq s2 q) q bs pois) q)
            | _ => .next (lateCheck s q).1 : Host.Outcome State Fault Refusal) = .next (if (lateCheck s q).2 then wrotePast (refuse (lateCheck s q).1 q clsDeadline 0x02) q
      else match performAt (lateCheck s q).1 q with
        | .ok s2 bs pois => wrotePast (answer (countReq s2 q) q bs pois) q
        | _ => (lateCheck s q).1) := by
    rw [hp]; dsimp only
    split
    · rfl
    · cases performAt (lateCheck s q).1 q <;> rfl
  unfold performReq; rw [hf]; dsimp only
  rw [if_neg (by simp [hk, hm])]
  split
  · rename_i m d a h1 h2
    exact absurd (hr _ _ _ h1) (by simp [h2])
  · exact hmain

theorem cfgRun_ready {s : State} {rg : Region} {adds : Bool} {g : Feed} (h : CfgReady s rg adds g) (k : Region → Feed → Feed) :
    cfgRun adds k s = .next (feedPut s rg (k rg g)) := by
  obtain ⟨ha, hr, f, w, hf, hw, hc, hg⟩ := h
  unfold cfgRun; rw [ha]; dsimp only; rw [hr]; dsimp only; rw [hf]; dsimp only; rw [hw]; dsimp only
  rw [if_neg (by simp [hc]), ← hg]

theorem oneCell {rg : Region} {g : Feed} {c : Offset} (h : OneCell rg g c) (f : Nat) : feedTargets rg f g = .ok ({ g with last := none }, [c], false) := by
  obtain ⟨h1, h2, h3, h4, h5, h6, h7⟩ := h
  unfold feedTargets
  rw [if_neg (by simp [h1]), h2]; dsimp only
  rw [if_neg (by simp [h3]), h4]; dsimp only
  rw [h5]; simp only [Bool.false_and, Bool.false_eq_true, if_false, h6, h7, Bool.not_true]

theorem feedCommit_one {rg : Region} {g : Feed} {c : Offset} (h : OneCell rg g c) {f v : Nat} (hv : cellFieldErr f v = none) (k : Feed → List Offset → Feed) :
    feedCommit rg f v g k = k { g with last := none } [c] := by
  unfold feedCommit; rw [oneCell h, hv]
  rw [if_neg (by simp [h.cell])]

theorem preload_clean (v : Nat) (h : bitsOf v 16 5 = 0) : cellFieldErr 93 v = none := by
  show (if bitsOf v 16 5 = 0 then none else some LoadErr.reservedFieldBits) = none
  rw [if_pos h]

theorem regionAt_setRegion {s : State} {r : RegId} {rg g : Region} (h : regionAt s r = some rg) (hg : g.id = r) : regionAt (setRegion s g) r = some g := by
  unfold regionAt setRegion at *
  dsimp only
  revert h
  generalize s.regions = l
  induction l with
  | nil => intro h; cases h
  | cons x l ih =>
    intro h
    rw [List.map_cons]
    by_cases hx : (x.id == r) = true
    · rw [hg, if_pos hx, List.find?_cons_of_pos (by simp [hg])]
    · rw [hg, if_neg hx, List.find?_cons_of_neg (by simpa using hx)]
      rw [List.find?_cons_of_neg (by simpa using hx)] at h
      have := ih h; rw [hg] at this; exact this

theorem openDigest_id (rg : Region) (bs : List Byte) : (openDigest rg bs).id = rg.id ∧ (openDigest rg bs).inv = rg.inv := by
  unfold openDigest; split <;> exact ⟨rfl, rfl⟩

theorem armOne_kept {s : State} {c : SeqId} {k : Nat} {e : ArmEntry} {t : List ArmEntry} {rg : Region} (ha : (sectAt (seqAt s c) k).armq = e :: t)
    (hr : regionAt s ⟨c, k⟩ = some rg) :
    ∃ rg3 i, rg3.id = rg.id ∧ rg3.inv = some i ∧ i.entry = e ∧ armOne s c k = setSeq (setRegion s rg3) c
      (setSect (seqAt s c) k { sectAt (seqAt s c) k with armq := t, placed := false, armed := true }) := by
  unfold armOne; dsimp only; rw [ha, hr]; dsimp only
  refine ⟨_, { entry := e, armedAt := s.cycle.toNat, windowStart := s.cycle.toNat }, ?_, ?_, rfl, rfl⟩
  · cases e.pureInv with
    | none => rfl
    | some p => exact (openDigest_id _ _).1
  · cases e.pureInv with
    | none => rfl
    | some p => exact (openDigest_id _ _).2

theorem field_and (v w : BitVec 64) (n k : Nat) (h : ∀ i, i < n → w.getLsbD (k + i) = true) :
    BitVec.ofNat n ((v &&& w).toNat / 2 ^ k) = BitVec.ofNat n (v.toNat / 2 ^ k) := by
  apply BitVec.eq_of_getLsbD_eq; intro i hi
  simp only [BitVec.getLsbD_ofNat, hi, decide_true, Bool.true_and, Nat.testBit_div_two_pow, BitVec.testBit_toNat, BitVec.getLsbD_and, Nat.add_comm i k, h i hi, Bool.and_true]

theorem field_or (v w : BitVec 64) (n k : Nat) (h : ∀ i, i < n → w.getLsbD (k + i) = false) :
    BitVec.ofNat n ((v ||| w).toNat / 2 ^ k) = BitVec.ofNat n (v.toNat / 2 ^ k) := by
  apply BitVec.eq_of_getLsbD_eq; intro i hi
  simp only [BitVec.getLsbD_ofNat, hi, decide_true, Bool.true_and, Nat.testBit_div_two_pow, BitVec.testBit_toNat, BitVec.getLsbD_or, Nat.add_comm i k, h i hi, Bool.or_false]

theorem frctl_go (s : State) (p : Nat) (v w : BitVec 64) (act : BitVec 2) (hw : w.getLsbD 63 = true)
    (h1 : BitVec.ofNat 5 w.toNat = BitVec.ofNat 5 v.toNat) (h2 : BitVec.ofNat 16 (w.toNat / 2 ^ 16) = BitVec.ofNat 16 (v.toNat / 2 ^ 16))
    (h3 : BitVec.ofNat 2 (w.toNat / 2 ^ 32) = act) :
    let r : RegId := ⟨⟨p, v.toNat % 2 ^ 5⟩, v.toNat / 2 ^ 16 % 2 ^ 16⟩
    let s1 := setPart s p { partAt s p with frN := BitVec.ofNat 5 v.toNat, frS := BitVec.ofNat 16 (v.toNat / 2 ^ 16), frAct := act }
    writeFrctl p w s = if (partAt s p).frBusy then s else if frctlValid s1 r act then
      (if frctlWaits s1 r then setPart s1 p { partAt s1 p with frBusy := true, frFor := some (r, act) } else frctlAct s1 r act) else s1 := by
  intro r s1
  have e1 : w.toNat % 2 ^ 5 = v.toNat % 2 ^ 5 := by have := congrArg BitVec.toNat h1; simpa using this
  have e2 : w.toNat / 2 ^ 16 % 2 ^ 16 = v.toNat / 2 ^ 16 % 2 ^ 16 := by have := congrArg BitVec.toNat h2; simpa using this
  have hs : frctlSet s p w = s1 := by unfold frctlSet frctlOp; rw [h1, h2, h3]
  have hr : frctlReg p w = r := by unfold frctlReg bitsOf; rw [Nat.pow_zero, Nat.div_one, e1, e2]
  have ho : frctlOp w = act := h3
  unfold writeFrctl; dsimp only
  rw [hs, hr, ho, hw]
  cases (partAt s p).frBusy <;> cases frctlValid s1 r act <;> rfl

theorem maskBits : ∀ i, i < 64 → (~~~((3 : BitVec 64) <<< 32)).getLsbD i = (decide (i ≠ 32) && decide (i ≠ 33)) := by decide

theorem oneBits : ∀ i, i < 64 → ((1 : BitVec 64) <<< 32).getLsbD i = decide (i = 32) := by decide

theorem grow_run {s : State} {u : UnitId} {rg : Region} (hr : regionAt s u.reg = some rg) :
    execStreamBufferGrow u s = growAt s rg u (pushWord rg u) := by
  unfold execStreamBufferGrow; rw [hr]

theorem frctl_release {s : State} {p : Nat} {v : BitVec 64} (hv : v.getLsbD 63 = true) :
    let r : RegId := ⟨⟨p, v.toNat % 2 ^ 5⟩, v.toNat / 2 ^ 16 % 2 ^ 16⟩
    let s1 := setPart s p { partAt s p with frN := BitVec.ofNat 5 v.toNat, frS := BitVec.ofNat 16 (v.toNat / 2 ^ 16), frAct := 0 }
    exec (.frctlRelease p v) s = .next (if (partAt s p).frBusy then s else if frctlValid s1 r 0 then
      (if frctlWaits s1 r then setPart s1 p { partAt s1 p with frBusy := true, frFor := some (r, 0) } else frctlAct s1 r 0) else s1) := by
  intro r s1
  show execFrctlRelease p v s = _
  unfold execFrctlRelease
  rw [frctl_go s p v _ 0 ?_ ?_ ?_ ?_]
  · simp only [BitVec.getLsbD_and, hv, maskBits 63 (by decide)]; decide
  · have := field_and v (~~~((3 : BitVec 64) <<< 32)) 5 0 (by decide); simpa using this
  · exact field_and v _ 16 16 (by decide)
  · apply BitVec.eq_of_getLsbD_eq; intro i hi
    simp only [BitVec.getLsbD_ofNat, hi, decide_true, Bool.true_and, Nat.testBit_div_two_pow, BitVec.testBit_toNat, BitVec.getLsbD_and]
    rw [maskBits (i + 32) (by omega)]
    have : i = 0 ∨ i = 1 := by omega
    rcases this with rfl | rfl <;> simp

theorem frctl_clear {s : State} {p : Nat} {v : BitVec 64} (hv : v.getLsbD 63 = true) :
    let r : RegId := ⟨⟨p, v.toNat % 2 ^ 5⟩, v.toNat / 2 ^ 16 % 2 ^ 16⟩
    let s1 := setPart s p { partAt s p with frN := BitVec.ofNat 5 v.toNat, frS := BitVec.ofNat 16 (v.toNat / 2 ^ 16), frAct := 1 }
    exec (.frctlClear p v) s = .next (if (partAt s p).frBusy then s else if frctlValid s1 r 1 then
      (if frctlWaits s1 r then setPart s1 p { partAt s1 p with frBusy := true, frFor := some (r, 1) } else frctlAct s1 r 1) else s1) := by
  intro r s1
  show execFrctlClear p v s = _
  unfold execFrctlClear
  rw [frctl_go s p v _ 1 ?_ ?_ ?_ ?_]
  · simp only [BitVec.getLsbD_or, BitVec.getLsbD_and, hv, maskBits 63 (by decide)]; decide
  · have := field_or (v &&& ~~~((3 : BitVec 64) <<< 32)) ((1 : BitVec 64) <<< 32) 5 0 (by decide)
    have h2 := field_and v (~~~((3 : BitVec 64) <<< 32)) 5 0 (by decide)
    rw [h2] at this; simpa using this
  · rw [field_or _ _ 16 16 (by decide)]; exact field_and v _ 16 16 (by decide)
  · apply BitVec.eq_of_getLsbD_eq; intro i hi
    simp only [BitVec.getLsbD_ofNat, hi, decide_true, Bool.true_and, Nat.testBit_div_two_pow, BitVec.testBit_toNat, BitVec.getLsbD_or, BitVec.getLsbD_and]
    rw [maskBits (i + 32) (by omega), oneBits (i + 32) (by omega)]
    have : i = 0 ∨ i = 1 := by omega
    rcases this with rfl | rfl <;> simp

theorem bind_some' {α β} {o : Option α} {a : α} (f : α → Option β) (h : o = some a) : o.bind f = f a := by rw [h]; rfl

theorem toOpt {i : Instr} {e : Except DecodeErr Instr} (h : e = .ok i) : e.toOption = some i := by rw [h]; rfl

end Sys2Proof.Laws
end

