-- ==== Sys2Proof/Laws/Frame.lean ====
section
/-! SUPPORT. What a firing and an issue leave as they were. -/

set_option linter.unusedVariables false
set_option linter.unusedSimpArgs false

namespace Sys2Proof.Laws

open Machine

def NFrame (s : State) (u : UnitId) (t : State) : Prop :=
    t = { s with regions := t.regions, parts := t.parts, statLane := t.statLane } ∧
    (∀ r, r ≠ u.reg → regionAt t r = regionAt s r) ∧
    (∀ p, p ≠ u.reg.seq.part → partAt t p = partAt s p) ∧
    (let x := partAt t u.reg.seq.part
     x = { partAt s u.reg.seq.part with agPurity := x.agPurity, fMore := x.fMore })

theorem nf_refl (s : State) (u : UnitId) : NFrame s u s := ⟨rfl, fun _ _ => rfl, fun _ _ => rfl, rfl⟩

theorem nf_trans {s t v : State} {u : UnitId} (h : NFrame s u t) (k : NFrame t u v) : NFrame s u v := by
  obtain ⟨h1, h2, h3, h4⟩ := h; obtain ⟨k1, k2, k3, k4⟩ := k
  refine ⟨?_, fun r hr => (k2 r hr).trans (h2 r hr), fun p hp => (k3 p hp).trans (h3 p hp), ?_⟩
  · rw [h1] at k1; exact k1
  · dsimp only at h4 k4 ⊢; rw [h4] at k4; exact k4

theorem find_map_other (l : List Region) (rg : Region) (r : RegId) (h : r ≠ rg.id) :
    (l.map fun x => if x.id == rg.id then rg else x).find? (fun x => x.id == r) = l.find? fun x => x.id == r := by
  induction l with
  | nil => rfl
  | cons a l ih =>
    rw [List.map_cons, List.find?_cons, List.find?_cons, ih]
    by_cases ha : a.id = rg.id
    · have : (rg.id == r) = false := by simp [Ne.symm h]
      simp [ha, this]
    · simp [ha]

theorem nf_setRegion (s : State) (u : UnitId) (rg : Region) (h : rg.id = u.reg) : NFrame s u (setRegion s rg) :=
  ⟨rfl, fun r hr => find_map_other _ _ _ (by rw [h]; exact hr), fun _ _ => rfl, rfl⟩

theorem lmod_getD_ne {α : Type} (l : List α) (i j : Nat) (f : α → α) (d : α) (h : j ≠ i) : (lmod l i f).getD j d = l.getD j d := by
  induction l generalizing i j with
  | nil => rfl
  | cons x t ih =>
    cases i with
    | zero => cases j with
      | zero => exact absurd rfl h
      | succ j => rfl
    | succ i => cases j with
      | zero => rfl
      | succ j => exact ih i j (fun e => h (e ▸ rfl))

theorem lmod_getD_eq {α : Type} (l : List α) (i : Nat) (f : α → α) (d : α) : (lmod l i f).getD i d = if i < l.length then f (l.getD i d) else d := by
  induction l generalizing i with
  | nil => rfl
  | cons x t ih =>
    cases i with
    | zero => rfl
    | succ i =>
      show (lmod t i f).getD i d = _
      rw [ih]; simp [List.getD_cons_succ]

theorem nf_part (s : State) (u : UnitId) (g : Part → Part) (hg : ∀ x, g x = { x with agPurity := (g x).agPurity, fMore := (g x).fMore }) :
    NFrame s u (setPart s u.reg.seq.part (g (partAt s u.reg.seq.part))) := by
  refine ⟨rfl, fun _ _ => rfl, fun p hp => lmod_getD_ne _ _ _ _ _ hp, ?_⟩
  show partAt (setPart s u.reg.seq.part (g (partAt s u.reg.seq.part))) u.reg.seq.part = _
  have : partAt (setPart s u.reg.seq.part (g (partAt s u.reg.seq.part))) u.reg.seq.part =
      if u.reg.seq.part < s.parts.length then g (partAt s u.reg.seq.part) else {} := by
    unfold partAt setPart; dsimp only; exact lmod_getD_eq _ _ _ _
  rw [this]
  by_cases h : u.reg.seq.part < s.parts.length
  · rw [if_pos h]; exact hg _
  · rw [if_neg h]; unfold partAt
    rw [List.getD_eq_getElem?_getD, List.getElem?_eq_none (Nat.not_lt.mp h)]; rfl

theorem nf_part' (s : State) (u : UnitId) (x : Part) (hx : x = { partAt s u.reg.seq.part with agPurity := x.agPurity, fMore := x.fMore }) :
    NFrame s u (setPart s u.reg.seq.part x) := by
  have := nf_part s u (fun p => { p with agPurity := x.agPurity, fMore := x.fMore }) (fun _ => rfl)
  rw [hx]; exact this

theorem nf_purity (s : State) (u : UnitId) (a b : Option Nat) : NFrame s u (countPurity s u.reg a b) := by
  unfold countPurity; split
  · exact nf_part s u (fun p => { p with agPurity := p.agPurity + 1 }) (fun _ => rfl)
  · exact nf_refl s u

theorem nf_stat (s : State) (u : UnitId) (l) : NFrame s u { s with statLane := l } := ⟨rfl, fun _ _ => rfl, fun _ _ => rfl, rfl⟩

theorem regionAt_id {s : State} {r : RegId} {rg : Region} (h : regionAt s r = some rg) : rg.id = r := by
  have := List.find?_some h; simpa using this

theorem nf_raise (s : State) (u : UnitId) (fi : FaultInfo) : NFrame s u (raiseFault s u.reg fi) := by
  unfold raiseFault
  split
  · exact nf_refl s u
  · rename_i rg hr
    have hid := regionAt_id hr
    split
    · exact nf_refl s u
    · dsimp only; split
      · exact nf_setRegion s u _ hid
      · refine nf_trans (nf_setRegion s u _ ?_) (nf_part' _ u _ ?_)
        · exact hid
        · rfl

theorem foldl_id (outs : List Nat) (u : UnitId) (rg : Region) : (outs.foldl (fun r q => r.blockPort u.off false u.ctx (4 + q)) rg).id = rg.id := by
  induction outs generalizing rg with
  | nil => rfl
  | cons q l ih => rw [List.foldl_cons, ih]; unfold Region.blockPort; split <;> rfl

theorem applyFire_nf (s : State) (u : UnitId) (f : Fire) : NFrame s u (applyFire s u f) := by
  cases f with
  | stall => exact nf_refl s u
  | full outs =>
    show NFrame s u (match regionAt s u.reg with | none => s | some rg => setRegion s (outs.foldl (fun r q => r.blockPort u.off false u.ctx (4 + q)) rg))
    split
    · exact nf_refl s u
    · rename_i rg hr
      exact nf_setRegion s u _ ((foldl_id outs u rg).trans (regionAt_id hr))
  | ok e => exact nf_trans (nf_trans (nf_setRegion s u _ rfl) (nf_stat _ u _)) (nf_purity _ u _ _)
  | quiet e emits => exact nf_setRegion s u _ rfl
  | bad e c k p tok partner => exact nf_trans (nf_trans (nf_trans (nf_setRegion s u _ rfl) (nf_stat _ u _)) (nf_purity _ u _ _)) (nf_raise _ u _)

theorem nodeRun_nf (w : NodeWord) (f : Env → Fire) (s t : State) (u : UnitId) (ha : s.actor = .node u) (h : nodeRun w s f = .next t) : NFrame s u t := by
  unfold nodeRun at h; rw [ha] at h; dsimp only at h
  split at h
  · cases h; exact nf_refl s u
  · cases h; exact applyFire_nf s u _

theorem stateless_nf (w : NodeWord) (ps hs : List Nat) (f : Env → Fire) (s t : State) (u : UnitId) (ha : s.actor = .node u) (h : statelessRun w s ps hs f = .next t) : NFrame s u t :=
  nodeRun_nf w _ s t u ha h

theorem stateful_nf (w : NodeWord) (ps : List Nat) (f : Env → Fire) (s t : State) (u : UnitId) (ha : s.actor = .node u) (h : statefulRun w s ps f = .next t) : NFrame s u t :=
  nodeRun_nf w _ s t u ha h

theorem or_frame (i : Instr) (rds : List (BitVec 5)) (regs : List (BitVec 5)) (k : SeqId → Seq → Seq)
    (hi : ∀ s, exec i s = seqRun s regs fun c q => setSeq s c (k c q))
    (hk : ∀ c q, let x := k c q
      x = { q with regs := x.regs, pc := x.pc } ∧ ∀ r, r ∉ rds → greg x r = greg q r) : OnlyRegisters i rds := by
  intro s t hr h
  rw [hi] at h; unfold seqRun at h
  split at h
  · rename_i c hc
    split at h
    · cases h
      refine ⟨rfl, fun c1 h1 => ?_⟩
      rw [hc] at h1; cases h1
      have hs : seqAt (setSeq s c (k c ((seqAt s c).issue s.cycle.toNat))) c = k c ((seqAt s c).issue s.cycle.toNat) := seqAt_setSeq _ _ _
      refine ⟨fun d hd => ?_, ?_, fun r hr => ?_⟩
      · unfold seqAt setSeq agetD; dsimp only; rw [aget_aset_other _ _ _ _ hd]
      · dsimp only; rw [hs]
        have h2 := (hk c ((seqAt s c).issue s.cycle.toNat)).1
        generalize k c ((seqAt s c).issue s.cycle.toNat) = x at h2 ⊢
        rw [h2]; rfl
      · rw [hs]; exact ((hk c _).2 r hr).trans rfl
    · rw [hr c hc] at h; cases h; exact ⟨rfl, fun c1 _ => ⟨fun _ _ => rfl, rfl, fun _ _ => rfl⟩⟩
  · cases h; exact ⟨rfl, fun c1 _ => ⟨fun _ _ => rfl, rfl, fun _ _ => rfl⟩⟩

theorem sg_frame (q : Seq) (d : BitVec 5) (v : DWord) (pc : Nat) (rds : List (BitVec 5)) (hd : d ∈ rds) :
    ({ setGreg q d v with pc := pc } : Seq) = { q with regs := (setGreg q d v).regs, pc := pc } ∧
    ∀ r, r ∉ rds → greg { setGreg q d v with pc := pc } r = greg q r := by
  refine ⟨by unfold setGreg; split <;> rfl, fun r hr => ?_⟩
  have hrd : r ≠ d := fun e => hr (e ▸ hd)
  unfold greg setGreg
  by_cases h0 : d = 0
  · rw [if_pos h0]
  · rw [if_neg h0]; split
    · rfl
    · dsimp only
      have h2 : d.toNat ≠ r.toNat := fun e => hrd (BitVec.eq_of_toNat_eq e).symm
      simp [Vector.getD, Vector.getElem_setIfInBounds, h2]

end Sys2Proof.Laws
end

