-- ==== Sys2Proof/Laws/PerInstr.lean ====
section
/-! SUPPORT. Statements made of each instruction: the decoder reads a well-formed instruction back from its words. -/

namespace Sys2Proof.Laws

set_option linter.unusedSimpArgs false
set_option Elab.async false

/-- A well-formed instruction that has words is what its words decode to. -/
def Codec.Statement (i : Instr) : Prop := i.wf = true → encode i ≠ .none → (encode i).decode = some i

theorem Codec.setc (x0 : BitVec 14) (x1 : BitVec 14) : Codec.Statement (.setc x0 x1) := by
  intro _ _
  simp only [encode, encC, Code.decode, decodeCfg]
  simp (disch := decide) only [cfgC_fld, cfgC_bit, fld_low, fld_high, bit_low, bit_high]
  simp [fld_whole, Except.toOption, bit]

theorem Codec.movc (x0 : BitVec 14) (x1 : BitVec 14) : Codec.Statement (.movc x0 x1) := by
  intro _ _
  simp only [encode, encC, Code.decode, decodeCfg]
  simp (disch := decide) only [cfgC_fld, cfgC_bit, fld_low, fld_high, bit_low, bit_high]
  simp [fld_whole, Except.toOption, bit]

theorem Codec.autox (x0 : BitVec 14) (x1 : BitVec 14) : Codec.Statement (.autox x0 x1) := by
  intro _ _
  simp only [encode, encC, Code.decode, decodeCfg]
  simp (disch := decide) only [cfgC_fld, cfgC_bit, fld_low, fld_high, bit_low, bit_high]
  simp [fld_whole, Except.toOption, bit]

theorem Codec.rect (x0 : BitVec 14) (x1 : BitVec 14) : Codec.Statement (.rect x0 x1) := by
  intro _ _
  simp only [encode, encC, Code.decode, decodeCfg]
  simp (disch := decide) only [cfgC_fld, cfgC_bit, fld_low, fld_high, bit_low, bit_high]
  simp [fld_whole, Except.toOption, bit]

theorem Codec.vers (x0 : BitVec 14) (x1 : BitVec 14) : Codec.Statement (.vers x0 x1) := by
  intro _ _
  simp only [encode, encC, Code.decode, decodeCfg]
  simp (disch := decide) only [cfgC_fld, cfgC_bit, fld_low, fld_high, bit_low, bit_high]
  simp [fld_whole, Except.toOption, bit]

theorem Codec.ends (x0 : BitVec 28) : Codec.Statement (.ends x0) := by
  intro _ _
  simp only [encode, Code.decode, decodeCfg]
  simp (disch := decide) only [cfgE_fld, cfgE_bit, fld_low, fld_high, bit_low, bit_high]
  simp [fld_whole, Except.toOption, fld, bit]

theorem Codec.hard (x0 : BitVec 14) (x1 : BitVec 14) : Codec.Statement (.hard x0 x1) := by
  intro _ _
  simp only [encode, encC, Code.decode, decodeCfg]
  simp (disch := decide) only [cfgC_fld, cfgC_bit, fld_low, fld_high, bit_low, bit_high]
  simp [fld_whole, Except.toOption, bit]

theorem Codec.write (x0 : BitVec 7) (x1 : BitVec 24) : Codec.Statement (.write x0 x1) := by
  intro hw _
  simp only [encode, encW, Code.decode, decodeCfg]
  simp (disch := decide) only [cfgW_fld, cfgW_bit, fld_low, fld_high, bit_low, bit_high]
  simp only [Instr.wf, Bool.and_eq_true, bne_iff_ne, ne_eq] at hw
  have h1 : x0.toNat ≠ 26 := fun h => hw.1.1 (BitVec.eq_of_toNat_eq h)
  have h2 : x0.toNat ≠ 92 := fun h => hw.1.2 (BitVec.eq_of_toNat_eq h)
  have h3 : x0.toNat ≠ 93 := fun h => hw.2 (BitVec.eq_of_toNat_eq h)
  simp [fld_whole, Except.toOption, bit]

theorem Codec.localRegisterCommit (x0 : BitVec 24) : Codec.Statement (.localRegisterCommit x0) := by
  intro hw _
  simp only [encode, encW, Code.decode, decodeCfg]
  simp (disch := decide) only [cfgW_fld, cfgW_bit, fld_low, fld_high, bit_low, bit_high]
  simp_all [fld_whole, Except.toOption, bit, Instr.wf]

theorem Codec.bankInitCommit (x0 : BitVec 24) : Codec.Statement (.bankInitCommit x0) := by
  intro hw _
  simp only [encode, encW, Code.decode, decodeCfg]
  simp (disch := decide) only [cfgW_fld, cfgW_bit, fld_low, fld_high, bit_low, bit_high]
  simp_all [fld_whole, Except.toOption, bit, Instr.wf]

theorem Codec.tilePreload (x0 : BitVec 24) : Codec.Statement (.tilePreload x0) := by
  intro hw _
  simp only [encode, encW, Code.decode, decodeCfg]
  simp (disch := decide) only [cfgW_fld, cfgW_bit, fld_low, fld_high, bit_low, bit_high]
  simp_all [fld_whole, Except.toOption, bit, Instr.wf]

theorem Codec.iadd (x0 : NodeWord) : Codec.Statement (.iadd x0) := by
  exact fun _ _ => dec_node _ _ _ rfl

theorem Codec.isub (x0 : NodeWord) : Codec.Statement (.isub x0) := by
  exact fun _ _ => dec_node _ _ _ rfl

theorem Codec.imul (x0 : NodeWord) : Codec.Statement (.imul x0) := by
  exact fun _ _ => dec_node _ _ _ rfl

theorem Codec.imulh (x0 : NodeWord) : Codec.Statement (.imulh x0) := by
  exact fun _ _ => dec_node _ _ _ rfl

theorem Codec.imad (x0 : NodeWord) : Codec.Statement (.imad x0) := by
  exact fun _ _ => dec_node _ _ _ rfl

theorem Codec.ineg (x0 : NodeWord) : Codec.Statement (.ineg x0) := by
  exact fun _ _ => dec_node _ _ _ rfl

theorem Codec.iabs (x0 : NodeWord) : Codec.Statement (.iabs x0) := by
  exact fun _ _ => dec_node _ _ _ rfl

theorem Codec.imin (x0 : NodeWord) : Codec.Statement (.imin x0) := by
  exact fun _ _ => dec_node _ _ _ rfl

theorem Codec.imax (x0 : NodeWord) : Codec.Statement (.imax x0) := by
  exact fun _ _ => dec_node _ _ _ rfl

theorem Codec.icmp (x0 : NodeWord) : Codec.Statement (.icmp x0) := by
  exact fun _ _ => dec_node _ _ _ rfl

theorem Codec.and (x0 : NodeWord) : Codec.Statement (.and x0) := by
  exact fun _ _ => dec_node _ _ _ rfl

theorem Codec.or (x0 : NodeWord) : Codec.Statement (.or x0) := by
  exact fun _ _ => dec_node _ _ _ rfl

theorem Codec.xor (x0 : NodeWord) : Codec.Statement (.xor x0) := by
  exact fun _ _ => dec_node _ _ _ rfl

theorem Codec.andn (x0 : NodeWord) : Codec.Statement (.andn x0) := by
  exact fun _ _ => dec_node _ _ _ rfl

theorem Codec.not (x0 : NodeWord) : Codec.Statement (.not x0) := by
  exact fun _ _ => dec_node _ _ _ rfl

theorem Codec.shl (x0 : NodeWord) : Codec.Statement (.shl x0) := by
  exact fun _ _ => dec_node _ _ _ rfl

theorem Codec.shr (x0 : NodeWord) : Codec.Statement (.shr x0) := by
  exact fun _ _ => dec_node _ _ _ rfl

theorem Codec.sar (x0 : NodeWord) : Codec.Statement (.sar x0) := by
  exact fun _ _ => dec_node _ _ _ rfl

theorem Codec.rotl (x0 : NodeWord) : Codec.Statement (.rotl x0) := by
  exact fun _ _ => dec_node _ _ _ rfl

theorem Codec.clz (x0 : NodeWord) : Codec.Statement (.clz x0) := by
  exact fun _ _ => dec_node _ _ _ rfl

theorem Codec.popc (x0 : NodeWord) : Codec.Statement (.popc x0) := by
  exact fun _ _ => dec_node _ _ _ rfl

theorem Codec.sel (x0 : NodeWord) : Codec.Statement (.sel x0) := by
  exact fun _ _ => dec_node _ _ _ rfl

theorem Codec.fadd (x0 : NodeWord) : Codec.Statement (.fadd x0) := by
  exact fun _ _ => dec_node _ _ _ rfl

theorem Codec.fsub (x0 : NodeWord) : Codec.Statement (.fsub x0) := by
  exact fun _ _ => dec_node _ _ _ rfl

theorem Codec.fmul (x0 : NodeWord) : Codec.Statement (.fmul x0) := by
  exact fun _ _ => dec_node _ _ _ rfl

theorem Codec.ffma (x0 : NodeWord) : Codec.Statement (.ffma x0) := by
  exact fun _ _ => dec_node _ _ _ rfl

theorem Codec.fneg (x0 : NodeWord) : Codec.Statement (.fneg x0) := by
  exact fun _ _ => dec_node _ _ _ rfl

theorem Codec.fabs (x0 : NodeWord) : Codec.Statement (.fabs x0) := by
  exact fun _ _ => dec_node _ _ _ rfl

theorem Codec.fmin (x0 : NodeWord) : Codec.Statement (.fmin x0) := by
  exact fun _ _ => dec_node _ _ _ rfl

theorem Codec.fmax (x0 : NodeWord) : Codec.Statement (.fmax x0) := by
  exact fun _ _ => dec_node _ _ _ rfl

theorem Codec.fcmp (x0 : NodeWord) : Codec.Statement (.fcmp x0) := by
  exact fun _ _ => dec_node _ _ _ rfl

theorem Codec.frcp (x0 : NodeWord) : Codec.Statement (.frcp x0) := by
  exact fun _ _ => dec_node _ _ _ rfl

theorem Codec.frsq (x0 : NodeWord) : Codec.Statement (.frsq x0) := by
  exact fun _ _ => dec_node _ _ _ rfl

theorem Codec.fsqrt (x0 : NodeWord) : Codec.Statement (.fsqrt x0) := by
  exact fun _ _ => dec_node _ _ _ rfl

theorem Codec.fexp2 (x0 : NodeWord) : Codec.Statement (.fexp2 x0) := by
  exact fun _ _ => dec_node _ _ _ rfl

theorem Codec.flog2 (x0 : NodeWord) : Codec.Statement (.flog2 x0) := by
  exact fun _ _ => dec_node _ _ _ rfl

theorem Codec.fscale (x0 : NodeWord) : Codec.Statement (.fscale x0) := by
  exact fun _ _ => dec_node _ _ _ rfl

theorem Codec.cvt (x0 : NodeWord) : Codec.Statement (.cvt x0) := by
  exact fun _ _ => dec_node _ _ _ rfl

theorem Codec.qpack (x0 : NodeWord) : Codec.Statement (.qpack x0) := by
  exact fun _ _ => dec_node _ _ _ rfl

theorem Codec.qunpk (x0 : NodeWord) : Codec.Statement (.qunpk x0) := by
  exact fun _ _ => dec_node _ _ _ rfl

theorem Codec.bcast (x0 : NodeWord) : Codec.Statement (.bcast x0) := by
  exact fun _ _ => dec_node _ _ _ rfl

theorem Codec.shuf (x0 : NodeWord) : Codec.Statement (.shuf x0) := by
  exact fun _ _ => dec_node _ _ _ rfl

theorem Codec.slide (x0 : NodeWord) : Codec.Statement (.slide x0) := by
  exact fun _ _ => dec_node _ _ _ rfl

theorem Codec.pack (x0 : NodeWord) : Codec.Statement (.pack x0) := by
  exact fun _ _ => dec_node _ _ _ rfl

theorem Codec.unpack (x0 : NodeWord) : Codec.Statement (.unpack x0) := by
  exact fun _ _ => dec_node _ _ _ rfl

theorem Codec.laneid (x0 : NodeWord) : Codec.Statement (.laneid x0) := by
  exact fun _ _ => dec_node _ _ _ rfl

theorem Codec.hsum (x0 : NodeWord) : Codec.Statement (.hsum x0) := by
  exact fun _ _ => dec_node _ _ _ rfl

theorem Codec.hmax (x0 : NodeWord) : Codec.Statement (.hmax x0) := by
  exact fun _ _ => dec_node _ _ _ rfl

theorem Codec.hmin (x0 : NodeWord) : Codec.Statement (.hmin x0) := by
  exact fun _ _ => dec_node _ _ _ rfl

theorem Codec.acc (x0 : NodeWord) : Codec.Statement (.acc x0) := by
  exact fun _ _ => dec_node _ _ _ rfl

theorem Codec.accmax (x0 : NodeWord) : Codec.Statement (.accmax x0) := by
  exact fun _ _ => dec_node _ _ _ rfl

theorem Codec.pscan (x0 : NodeWord) : Codec.Statement (.pscan x0) := by
  exact fun _ _ => dec_node _ _ _ rfl

theorem Codec.count (x0 : NodeWord) : Codec.Statement (.count x0) := by
  exact fun _ _ => dec_node _ _ _ rfl

theorem Codec.steer (x0 : NodeWord) : Codec.Statement (.steer x0) := by
  exact fun _ _ => dec_node _ _ _ rfl

theorem Codec.fork (x0 : NodeWord) : Codec.Statement (.fork x0) := by
  exact fun _ _ => dec_node _ _ _ rfl

theorem Codec.merge (x0 : NodeWord) : Codec.Statement (.merge x0) := by
  exact fun _ _ => dec_node _ _ _ rfl

theorem Codec.mergerr (x0 : NodeWord) : Codec.Statement (.mergerr x0) := by
  exact fun _ _ => dec_node _ _ _ rfl

theorem Codec.mergesel (x0 : NodeWord) : Codec.Statement (.mergesel x0) := by
  exact fun _ _ => dec_node _ _ _ rfl

theorem Codec.dist (x0 : NodeWord) : Codec.Statement (.dist x0) := by
  exact fun _ _ => dec_node _ _ _ rfl

theorem Codec.dispatch (x0 : NodeWord) : Codec.Statement (.dispatch x0) := by
  exact fun _ _ => dec_node _ _ _ rfl

theorem Codec.gate (x0 : NodeWord) : Codec.Statement (.gate x0) := by
  exact fun _ _ => dec_node _ _ _ rfl

theorem Codec.drop (x0 : NodeWord) : Codec.Statement (.drop x0) := by
  exact fun _ _ => dec_node _ _ _ rfl

theorem Codec.sink (x0 : NodeWord) : Codec.Statement (.sink x0) := by
  exact fun _ _ => dec_node _ _ _ rfl

theorem Codec.gen (x0 : NodeWord) : Codec.Statement (.gen x0) := by
  exact fun _ _ => dec_node _ _ _ rfl

theorem Codec.carry (x0 : NodeWord) : Codec.Statement (.carry x0) := by
  exact fun _ _ => dec_node _ _ _ rfl

theorem Codec.invar (x0 : NodeWord) : Codec.Statement (.invar x0) := by
  exact fun _ _ => dec_node _ _ _ rfl

theorem Codec.repeatN (x0 : NodeWord) : Codec.Statement (.repeatN x0) := by
  exact fun _ _ => dec_node _ _ _ rfl

theorem Codec.seqtag (x0 : NodeWord) : Codec.Statement (.seqtag x0) := by
  exact fun _ _ => dec_node _ _ _ rfl

theorem Codec.reorder (x0 : NodeWord) : Codec.Statement (.reorder x0) := by
  exact fun _ _ => dec_node _ _ _ rfl

theorem Codec.mark (x0 : NodeWord) : Codec.Statement (.mark x0) := by
  exact fun _ _ => dec_node _ _ _ rfl

theorem Codec.stopi (x0 : NodeWord) : Codec.Statement (.stopi x0) := by
  exact fun _ _ => dec_node _ _ _ rfl

theorem Codec.stopx (x0 : NodeWord) : Codec.Statement (.stopx x0) := by
  exact fun _ _ => dec_node _ _ _ rfl

theorem Codec.stopup (x0 : NodeWord) : Codec.Statement (.stopup x0) := by
  exact fun _ _ => dec_node _ _ _ rfl

theorem Codec.waitmk (x0 : NodeWord) : Codec.Statement (.waitmk x0) := by
  exact fun _ _ => dec_node _ _ _ rfl

theorem Codec.specres (x0 : NodeWord) : Codec.Statement (.specres x0) := by
  exact fun _ _ => dec_node _ _ _ rfl

theorem Codec.retype (x0 : NodeWord) : Codec.Statement (.retype x0) := by
  exact fun _ _ => dec_node _ _ _ rfl

theorem Codec.ld (x0 : NodeWord) : Codec.Statement (.ld x0) := by
  exact fun _ _ => dec_node _ _ _ rfl

theorem Codec.st (x0 : NodeWord) : Codec.Statement (.st x0) := by
  exact fun _ _ => dec_node _ _ _ rfl

theorem Codec.ldreq (x0 : NodeWord) : Codec.Statement (.ldreq x0) := by
  exact fun _ _ => dec_node _ _ _ rfl

theorem Codec.streq (x0 : NodeWord) : Codec.Statement (.streq x0) := by
  exact fun _ _ => dec_node _ _ _ rfl

theorem Codec.push (x0 : NodeWord) : Codec.Statement (.push x0) := by
  exact fun _ _ => dec_node _ _ _ rfl

theorem Codec.pop (x0 : NodeWord) : Codec.Statement (.pop x0) := by
  exact fun _ _ => dec_node _ _ _ rfl

theorem Codec.tld (x0 : NodeWord) : Codec.Statement (.tld x0) := by
  exact fun _ _ => dec_node _ _ _ rfl

theorem Codec.tst (x0 : NodeWord) : Codec.Statement (.tst x0) := by
  exact fun _ _ => dec_node _ _ _ rfl

theorem Codec.spbsend (x0 : NodeWord) : Codec.Statement (.spbsend x0) := by
  exact fun _ _ => dec_node _ _ _ rfl

theorem Codec.aadd (x0 : NodeWord) : Codec.Statement (.aadd x0) := by
  exact fun _ _ => dec_node _ _ _ rfl

theorem Codec.amin (x0 : NodeWord) : Codec.Statement (.amin x0) := by
  exact fun _ _ => dec_node _ _ _ rfl

theorem Codec.amax (x0 : NodeWord) : Codec.Statement (.amax x0) := by
  exact fun _ _ => dec_node _ _ _ rfl

theorem Codec.axchg (x0 : NodeWord) : Codec.Statement (.axchg x0) := by
  exact fun _ _ => dec_node _ _ _ rfl

theorem Codec.acas (x0 : NodeWord) : Codec.Statement (.acas x0) := by
  exact fun _ _ => dec_node _ _ _ rfl

theorem Codec.atas (x0 : NodeWord) : Codec.Statement (.atas x0) := by
  exact fun _ _ => dec_node _ _ _ rfl

theorem Codec.aor (x0 : NodeWord) : Codec.Statement (.aor x0) := by
  exact fun _ _ => dec_node _ _ _ rfl

theorem Codec.fence (x0 : NodeWord) : Codec.Statement (.fence x0) := by
  exact fun _ _ => dec_node _ _ _ rfl

theorem Codec.fscan (x0 : NodeWord) : Codec.Statement (.fscan x0) := by
  exact fun _ _ => dec_node _ _ _ rfl

theorem Codec.flook (x0 : NodeWord) : Codec.Statement (.flook x0) := by
  exact fun _ _ => dec_node _ _ _ rfl

theorem Codec.fisect (x0 : NodeWord) : Codec.Statement (.fisect x0) := by
  exact fun _ _ => dec_node _ _ _ rfl

theorem Codec.funion (x0 : NodeWord) : Codec.Statement (.funion x0) := by
  exact fun _ _ => dec_node _ _ _ rfl

theorem Codec.frep (x0 : NodeWord) : Codec.Statement (.frep x0) := by
  exact fun _ _ => dec_node _ _ _ rfl

theorem Codec.fred (x0 : NodeWord) : Codec.Statement (.fred x0) := by
  exact fun _ _ => dec_node _ _ _ rfl

theorem Codec.fwrite (x0 : NodeWord) : Codec.Statement (.fwrite x0) := by
  exact fun _ _ => dec_node _ _ _ rfl

theorem Codec.oadd (x0 : NodeWord) : Codec.Statement (.oadd x0) := by
  exact fun _ _ => dec_node _ _ _ rfl

theorem Codec.omul (x0 : NodeWord) : Codec.Statement (.omul x0) := by
  exact fun _ _ => dec_node _ _ _ rfl

theorem Codec.ocmp (x0 : NodeWord) : Codec.Statement (.ocmp x0) := by
  exact fun _ _ => dec_node _ _ _ rfl

theorem Codec.ocut (x0 : NodeWord) : Codec.Statement (.ocut x0) := by
  exact fun _ _ => dec_node _ _ _ rfl

theorem Codec.ocvt (x0 : NodeWord) : Codec.Statement (.ocvt x0) := by
  exact fun _ _ => dec_node _ _ _ rfl

theorem Codec.pqcell (x0 : NodeWord) : Codec.Statement (.pqcell x0) := by
  exact fun _ _ => dec_node _ _ _ rfl

theorem Codec.stat (x0 : NodeWord) : Codec.Statement (.stat x0) := by
  exact fun _ _ => dec_node _ _ _ rfl

theorem Codec.rate (x0 : NodeWord) : Codec.Statement (.rate x0) := by
  exact fun _ _ => dec_node _ _ _ rfl

theorem Codec.ver (x0 : NodeWord) : Codec.Statement (.ver x0) := by
  exact fun _ _ => dec_node _ _ _ rfl

theorem Codec.sysid (x0 : NodeWord) : Codec.Statement (.sysid x0) := by
  exact fun _ _ => dec_node _ _ _ rfl

theorem Codec.trap (x0 : NodeWord) : Codec.Statement (.trap x0) := by
  exact fun _ _ => dec_node _ _ _ rfl

theorem Codec.nop (x0 : NodeWord) : Codec.Statement (.nop x0) := by
  exact fun _ _ => dec_node _ _ _ rfl

theorem Codec.nodeTokenFire (x0 : UnitId) : Codec.Statement (.nodeTokenFire x0) := by
  exact fun _ h => absurd rfl h

theorem Codec.matchDiscard (x0 : UnitId) (x1 : Bool) : Codec.Statement (.matchDiscard x0 x1) := by
  exact fun _ h => absurd rfl h

theorem Codec.latchAdvance (x0 : RegId) (x1 : Nat) (x2 : Nat) : Codec.Statement (.latchAdvance x0 x1 x2) := by
  exact fun _ h => absurd rfl h

theorem Codec.freeSlotReturn (x0 : RegId) (x1 : Nat) : Codec.Statement (.freeSlotReturn x0 x1) := by
  exact fun _ h => absurd rfl h

theorem Codec.retypeApply (x0 : UnitId) (x1 : Nat) : Codec.Statement (.retypeApply x0 x1) := by
  exact fun _ h => absurd rfl h

theorem Codec.bridgeSend (x0 : Nat) : Codec.Statement (.bridgeSend x0) := by
  exact fun _ h => absurd rfl h

theorem Codec.allowanceReturn (x0 : RegId) (x1 : Nat) (x2 : Nat) : Codec.Statement (.allowanceReturn x0 x1 x2) := by
  exact fun _ h => absurd rfl h

theorem Codec.flitReceive (x0 : Nat) (x1 : Bool) : Codec.Statement (.flitReceive x0 x1) := by
  exact fun _ h => absurd rfl h

theorem Codec.flitReplay (x0 : Nat) : Codec.Statement (.flitReplay x0) := by
  exact fun _ h => absurd rfl h

theorem Codec.linkFlitReceive (x0 : Nat) (x1 : LinkFlit) (x2 : Bool) : Codec.Statement (.linkFlitReceive x0 x1 x2) := by
  exact fun _ h => absurd rfl h

theorem Codec.remoteAccessRequest (x0 : Nat) (x1 : RemoteReq) : Codec.Statement (.remoteAccessRequest x0 x1) := by
  exact fun _ h => absurd rfl h

theorem Codec.cxlLinkDown (x0 : Nat) : Codec.Statement (.cxlLinkDown x0) := by
  exact fun _ h => absurd rfl h

theorem Codec.hostMemAccess (x0 : Nat) (x1 : HostAccess) : Codec.Statement (.hostMemAccess x0 x1) := by
  exact fun _ h => absurd rfl h

theorem Codec.windowAccess (x0 : Nat) : Codec.Statement (.windowAccess x0) := by
  exact fun _ h => absurd rfl h

theorem Codec.linRead (x0 : SpbHead) (x1 : LinBody) : Codec.Statement (.linRead x0 x1) := by
  intro hw _
  simp_all [encode, Code.decode, decodeSpb, spb_kind, head_bits, Instr.wf, Except.toOption, lin_bits, gath_bits, copy_bits, fib_bits, hash_bits, pref_bits, flush_bits]

theorem Codec.linWrite (x0 : SpbHead) (x1 : LinBody) : Codec.Statement (.linWrite x0 x1) := by
  intro hw _
  simp_all [encode, Code.decode, decodeSpb, spb_kind, head_bits, Instr.wf, Except.toOption, lin_bits, gath_bits, copy_bits, fib_bits, hash_bits, pref_bits, flush_bits]

theorem Codec.gath (x0 : SpbHead) (x1 : GathBody) : Codec.Statement (.gath x0 x1) := by
  intro hw _
  simp_all [encode, Code.decode, decodeSpb, spb_kind, head_bits, Instr.wf, Except.toOption, lin_bits, gath_bits, copy_bits, fib_bits, hash_bits, pref_bits, flush_bits]

theorem Codec.scat (x0 : SpbHead) (x1 : GathBody) : Codec.Statement (.scat x0 x1) := by
  intro hw _
  simp_all [encode, Code.decode, decodeSpb, spb_kind, head_bits, Instr.wf, Except.toOption, lin_bits, gath_bits, copy_bits, fib_bits, hash_bits, pref_bits, flush_bits]

theorem Codec.copy (x0 : SpbHead) (x1 : CopyBody) : Codec.Statement (.copy x0 x1) := by
  intro hw _
  simp_all [encode, Code.decode, decodeSpb, spb_kind, head_bits, Instr.wf, Except.toOption, lin_bits, gath_bits, copy_bits, fib_bits, hash_bits, pref_bits, flush_bits]

theorem Codec.fib (x0 : SpbHead) (x1 : FibBody) : Codec.Statement (.fib x0 x1) := by
  intro hw _
  simp_all [encode, Code.decode, decodeSpb, spb_kind, head_bits, Instr.wf, Except.toOption, lin_bits, gath_bits, copy_bits, fib_bits, hash_bits, pref_bits, flush_bits]

theorem Codec.hash (x0 : SpbHead) (x1 : HashBody) : Codec.Statement (.hash x0 x1) := by
  intro hw _
  simp_all [encode, Code.decode, decodeSpb, spb_kind, head_bits, Instr.wf, Except.toOption, lin_bits, gath_bits, copy_bits, fib_bits, hash_bits, pref_bits, flush_bits]

theorem Codec.flush (x0 : SpbHead) (x1 : FlushBody) : Codec.Statement (.flush x0 x1) := by
  intro hw _
  simp_all [encode, Code.decode, decodeSpb, spb_kind, head_bits, Instr.wf, Except.toOption, lin_bits, gath_bits, copy_bits, fib_bits, hash_bits, pref_bits, flush_bits]

theorem Codec.pref (x0 : SpbHead) (x1 : PrefBody) : Codec.Statement (.pref x0 x1) := by
  intro hw _
  simp_all [encode, Code.decode, decodeSpb, spb_kind, head_bits, Instr.wf, Except.toOption, lin_bits, gath_bits, copy_bits, fib_bits, hash_bits, pref_bits, flush_bits]

theorem Codec.elementIssue (x0 : RegId) (x1 : Offset) : Codec.Statement (.elementIssue x0 x1) := by
  exact fun _ h => absurd rfl h

theorem Codec.faultNoticePendingWrite (x0 : Nat) : Codec.Statement (.faultNoticePendingWrite x0) := by
  exact fun _ h => absurd rfl h

theorem Codec.walkComplete (x0 : Nat) : Codec.Statement (.walkComplete x0) := by
  exact fun _ h => absurd rfl h

theorem Codec.writePerform (x0 : Nat) : Codec.Statement (.writePerform x0) := by
  exact fun _ h => absurd rfl h

theorem Codec.spbComplete (x0 : RegId) (x1 : Offset) (x2 : Nat) : Codec.Statement (.spbComplete x0 x1 x2) := by
  exact fun _ h => absurd rfl h

theorem Codec.eventTokenArrive (x0 : Nat) : Codec.Statement (.eventTokenArrive x0) := by
  exact fun _ h => absurd rfl h

theorem Codec.spReqMark (x0 : RegId) (x1 : Offset) : Codec.Statement (.spReqMark x0 x1) := by
  exact fun _ h => absurd rfl h

theorem Codec.spDataToken (x0 : RegId) (x1 : Offset) (x2 : Nat) : Codec.Statement (.spDataToken x0 x1 x2) := by
  exact fun _ h => absurd rfl h

theorem Codec.relRelease (x0 : RegId) (x1 : Offset) (x2 : Nat) : Codec.Statement (.relRelease x0 x1 x2) := by
  exact fun _ h => absurd rfl h

theorem Codec.invalidationStart (x0 : Nat) : Codec.Statement (.invalidationStart x0) := by
  exact fun _ h => absurd rfl h

theorem Codec.invalidationComplete (x0 : Nat) : Codec.Statement (.invalidationComplete x0) := by
  exact fun _ h => absurd rfl h

theorem Codec.resume (x0 : Nat) (x1 : BitVec 32) : Codec.Statement (.resume x0 x1) := by
  exact fun _ h => absurd rfl h

theorem Codec.tPfExpiry (x0 : Nat) (x1 : BitVec 32) : Codec.Statement (.tPfExpiry x0 x1) := by
  exact fun _ h => absurd rfl h

theorem Codec.streamBufferGrow (x0 : UnitId) : Codec.Statement (.streamBufferGrow x0) := by
  exact fun _ h => absurd rfl h

theorem Codec.statTokenAdd (x0 : Nat) : Codec.Statement (.statTokenAdd x0) := by
  exact fun _ h => absurd rfl h

theorem Codec.meCommandEnqueue (x0 : RegId) (x1 : Offset) : Codec.Statement (.meCommandEnqueue x0 x1) := by
  exact fun _ h => absurd rfl h

theorem Codec.mload (x0 : MCmd) : Codec.Statement (.mload x0) := by
  exact fun _ _ => dec_cmd _ _ _ rfl

theorem Codec.mswap (x0 : MCmd) : Codec.Statement (.mswap x0) := by
  exact fun _ _ => dec_cmd _ _ _ rfl

theorem Codec.mmul (x0 : MCmd) : Codec.Statement (.mmul x0) := by
  exact fun _ _ => dec_cmd _ _ _ rfl

theorem Codec.mdrain (x0 : MCmd) : Codec.Statement (.mdrain x0) := by
  exact fun _ _ => dec_cmd _ _ _ rfl

theorem Codec.mzero (x0 : MCmd) : Codec.Statement (.mzero x0) := by
  exact fun _ _ => dec_cmd _ _ _ rfl

theorem Codec.mfmt (x0 : MCmd) : Codec.Statement (.mfmt x0) := by
  exact fun _ _ => dec_cmd _ _ _ rfl

theorem Codec.mmigr (x0 : MCmd) : Codec.Statement (.mmigr x0) := by
  exact fun _ _ => dec_cmd _ _ _ rfl

theorem Codec.mcount (x0 : MCmd) : Codec.Statement (.mcount x0) := by
  exact fun _ _ => dec_cmd _ _ _ rfl

theorem Codec.meMarkerEntry (x0 : RegId) (x1 : Offset) : Codec.Statement (.meMarkerEntry x0 x1) := by
  exact fun _ h => absurd rfl h

theorem Codec.meMigrate (x0 : RegId) (x1 : Offset) (x2 : Nat) (x3 : Bool) : Codec.Statement (.meMigrate x0 x1 x2 x3) := by
  exact fun _ h => absurd rfl h

theorem Codec.meMigrationReturn (x0 : RegId) (x1 : Offset) : Codec.Statement (.meMigrationReturn x0 x1) := by
  exact fun _ h => absurd rfl h

theorem Codec.add (x0 : BitVec 5) (x1 : BitVec 5) (x2 : BitVec 5) : Codec.Statement (.add x0 x1 x2) := by
  intro hw _
  have e : @fld 32 ((0x00 : BitVec 6) ++ (x0 : BitVec 5) ++ (x1 : BitVec 5) ++ (x2 : BitVec 5) ++ (0x000 : BitVec 11)) 26 6 = 0x00#6 := by
    simp (disch := decide) only [seqR_fld, fld_high]; exact fld_whole _
  show (decodeSeq ((0x00 : BitVec 6) ++ (x0 : BitVec 5) ++ (x1 : BitVec 5) ++ (x2 : BitVec 5) ++ (0x000 : BitVec 11))).toOption = some _
  unfold decodeSeq
  rw [e]
  simp only [BitVec.reduceToNat]
  simp (disch := decide) only [seqR_fld, seqR_bit, fld_low, fld_high, bit_low, bit_high]
  simp_all [fld_whole, bit_ofBool, aluOfFunc, samoOfFunc, orIllegal, whenZero, Except.toOption, Instr.wf, fld, bit]

theorem Codec.sub (x0 : BitVec 5) (x1 : BitVec 5) (x2 : BitVec 5) : Codec.Statement (.sub x0 x1 x2) := by
  intro hw _
  have e : @fld 32 ((0x00 : BitVec 6) ++ (x0 : BitVec 5) ++ (x1 : BitVec 5) ++ (x2 : BitVec 5) ++ (0x001 : BitVec 11)) 26 6 = 0x00#6 := by
    simp (disch := decide) only [seqR_fld, fld_high]; exact fld_whole _
  show (decodeSeq ((0x00 : BitVec 6) ++ (x0 : BitVec 5) ++ (x1 : BitVec 5) ++ (x2 : BitVec 5) ++ (0x001 : BitVec 11))).toOption = some _
  unfold decodeSeq
  rw [e]
  simp only [BitVec.reduceToNat]
  simp (disch := decide) only [seqR_fld, seqR_bit, fld_low, fld_high, bit_low, bit_high]
  simp_all [fld_whole, bit_ofBool, aluOfFunc, samoOfFunc, orIllegal, whenZero, Except.toOption, Instr.wf, fld, bit]

theorem Codec.mul (x0 : BitVec 5) (x1 : BitVec 5) (x2 : BitVec 5) : Codec.Statement (.mul x0 x1 x2) := by
  intro hw _
  have e : @fld 32 ((0x00 : BitVec 6) ++ (x0 : BitVec 5) ++ (x1 : BitVec 5) ++ (x2 : BitVec 5) ++ (0x002 : BitVec 11)) 26 6 = 0x00#6 := by
    simp (disch := decide) only [seqR_fld, fld_high]; exact fld_whole _
  show (decodeSeq ((0x00 : BitVec 6) ++ (x0 : BitVec 5) ++ (x1 : BitVec 5) ++ (x2 : BitVec 5) ++ (0x002 : BitVec 11))).toOption = some _
  unfold decodeSeq
  rw [e]
  simp only [BitVec.reduceToNat]
  simp (disch := decide) only [seqR_fld, seqR_bit, fld_low, fld_high, bit_low, bit_high]
  simp_all [fld_whole, bit_ofBool, aluOfFunc, samoOfFunc, orIllegal, whenZero, Except.toOption, Instr.wf, fld, bit]

theorem Codec.mulh (x0 : BitVec 5) (x1 : BitVec 5) (x2 : BitVec 5) : Codec.Statement (.mulh x0 x1 x2) := by
  intro hw _
  have e : @fld 32 ((0x00 : BitVec 6) ++ (x0 : BitVec 5) ++ (x1 : BitVec 5) ++ (x2 : BitVec 5) ++ (0x003 : BitVec 11)) 26 6 = 0x00#6 := by
    simp (disch := decide) only [seqR_fld, fld_high]; exact fld_whole _
  show (decodeSeq ((0x00 : BitVec 6) ++ (x0 : BitVec 5) ++ (x1 : BitVec 5) ++ (x2 : BitVec 5) ++ (0x003 : BitVec 11))).toOption = some _
  unfold decodeSeq
  rw [e]
  simp only [BitVec.reduceToNat]
  simp (disch := decide) only [seqR_fld, seqR_bit, fld_low, fld_high, bit_low, bit_high]
  simp_all [fld_whole, bit_ofBool, aluOfFunc, samoOfFunc, orIllegal, whenZero, Except.toOption, Instr.wf, fld, bit]

theorem Codec.div (x0 : BitVec 5) (x1 : BitVec 5) (x2 : BitVec 5) : Codec.Statement (.div x0 x1 x2) := by
  intro hw _
  have e : @fld 32 ((0x00 : BitVec 6) ++ (x0 : BitVec 5) ++ (x1 : BitVec 5) ++ (x2 : BitVec 5) ++ (0x004 : BitVec 11)) 26 6 = 0x00#6 := by
    simp (disch := decide) only [seqR_fld, fld_high]; exact fld_whole _
  show (decodeSeq ((0x00 : BitVec 6) ++ (x0 : BitVec 5) ++ (x1 : BitVec 5) ++ (x2 : BitVec 5) ++ (0x004 : BitVec 11))).toOption = some _
  unfold decodeSeq
  rw [e]
  simp only [BitVec.reduceToNat]
  simp (disch := decide) only [seqR_fld, seqR_bit, fld_low, fld_high, bit_low, bit_high]
  simp_all [fld_whole, bit_ofBool, aluOfFunc, samoOfFunc, orIllegal, whenZero, Except.toOption, Instr.wf, fld, bit]

theorem Codec.rem (x0 : BitVec 5) (x1 : BitVec 5) (x2 : BitVec 5) : Codec.Statement (.rem x0 x1 x2) := by
  intro hw _
  have e : @fld 32 ((0x00 : BitVec 6) ++ (x0 : BitVec 5) ++ (x1 : BitVec 5) ++ (x2 : BitVec 5) ++ (0x005 : BitVec 11)) 26 6 = 0x00#6 := by
    simp (disch := decide) only [seqR_fld, fld_high]; exact fld_whole _
  show (decodeSeq ((0x00 : BitVec 6) ++ (x0 : BitVec 5) ++ (x1 : BitVec 5) ++ (x2 : BitVec 5) ++ (0x005 : BitVec 11))).toOption = some _
  unfold decodeSeq
  rw [e]
  simp only [BitVec.reduceToNat]
  simp (disch := decide) only [seqR_fld, seqR_bit, fld_low, fld_high, bit_low, bit_high]
  simp_all [fld_whole, bit_ofBool, aluOfFunc, samoOfFunc, orIllegal, whenZero, Except.toOption, Instr.wf, fld, bit]

theorem Codec.seqAnd (x0 : BitVec 5) (x1 : BitVec 5) (x2 : BitVec 5) : Codec.Statement (.seqAnd x0 x1 x2) := by
  intro hw _
  have e : @fld 32 ((0x00 : BitVec 6) ++ (x0 : BitVec 5) ++ (x1 : BitVec 5) ++ (x2 : BitVec 5) ++ (0x006 : BitVec 11)) 26 6 = 0x00#6 := by
    simp (disch := decide) only [seqR_fld, fld_high]; exact fld_whole _
  show (decodeSeq ((0x00 : BitVec 6) ++ (x0 : BitVec 5) ++ (x1 : BitVec 5) ++ (x2 : BitVec 5) ++ (0x006 : BitVec 11))).toOption = some _
  unfold decodeSeq
  rw [e]
  simp only [BitVec.reduceToNat]
  simp (disch := decide) only [seqR_fld, seqR_bit, fld_low, fld_high, bit_low, bit_high]
  simp_all [fld_whole, bit_ofBool, aluOfFunc, samoOfFunc, orIllegal, whenZero, Except.toOption, Instr.wf, fld, bit]

theorem Codec.seqOr (x0 : BitVec 5) (x1 : BitVec 5) (x2 : BitVec 5) : Codec.Statement (.seqOr x0 x1 x2) := by
  intro hw _
  have e : @fld 32 ((0x00 : BitVec 6) ++ (x0 : BitVec 5) ++ (x1 : BitVec 5) ++ (x2 : BitVec 5) ++ (0x007 : BitVec 11)) 26 6 = 0x00#6 := by
    simp (disch := decide) only [seqR_fld, fld_high]; exact fld_whole _
  show (decodeSeq ((0x00 : BitVec 6) ++ (x0 : BitVec 5) ++ (x1 : BitVec 5) ++ (x2 : BitVec 5) ++ (0x007 : BitVec 11))).toOption = some _
  unfold decodeSeq
  rw [e]
  simp only [BitVec.reduceToNat]
  simp (disch := decide) only [seqR_fld, seqR_bit, fld_low, fld_high, bit_low, bit_high]
  simp_all [fld_whole, bit_ofBool, aluOfFunc, samoOfFunc, orIllegal, whenZero, Except.toOption, Instr.wf, fld, bit]

theorem Codec.seqXor (x0 : BitVec 5) (x1 : BitVec 5) (x2 : BitVec 5) : Codec.Statement (.seqXor x0 x1 x2) := by
  intro hw _
  have e : @fld 32 ((0x00 : BitVec 6) ++ (x0 : BitVec 5) ++ (x1 : BitVec 5) ++ (x2 : BitVec 5) ++ (0x008 : BitVec 11)) 26 6 = 0x00#6 := by
    simp (disch := decide) only [seqR_fld, fld_high]; exact fld_whole _
  show (decodeSeq ((0x00 : BitVec 6) ++ (x0 : BitVec 5) ++ (x1 : BitVec 5) ++ (x2 : BitVec 5) ++ (0x008 : BitVec 11))).toOption = some _
  unfold decodeSeq
  rw [e]
  simp only [BitVec.reduceToNat]
  simp (disch := decide) only [seqR_fld, seqR_bit, fld_low, fld_high, bit_low, bit_high]
  simp_all [fld_whole, bit_ofBool, aluOfFunc, samoOfFunc, orIllegal, whenZero, Except.toOption, Instr.wf, fld, bit]

theorem Codec.seqShl (x0 : BitVec 5) (x1 : BitVec 5) (x2 : BitVec 5) : Codec.Statement (.seqShl x0 x1 x2) := by
  intro hw _
  have e : @fld 32 ((0x00 : BitVec 6) ++ (x0 : BitVec 5) ++ (x1 : BitVec 5) ++ (x2 : BitVec 5) ++ (0x009 : BitVec 11)) 26 6 = 0x00#6 := by
    simp (disch := decide) only [seqR_fld, fld_high]; exact fld_whole _
  show (decodeSeq ((0x00 : BitVec 6) ++ (x0 : BitVec 5) ++ (x1 : BitVec 5) ++ (x2 : BitVec 5) ++ (0x009 : BitVec 11))).toOption = some _
  unfold decodeSeq
  rw [e]
  simp only [BitVec.reduceToNat]
  simp (disch := decide) only [seqR_fld, seqR_bit, fld_low, fld_high, bit_low, bit_high]
  simp_all [fld_whole, bit_ofBool, aluOfFunc, samoOfFunc, orIllegal, whenZero, Except.toOption, Instr.wf, fld, bit]

theorem Codec.seqShr (x0 : BitVec 5) (x1 : BitVec 5) (x2 : BitVec 5) : Codec.Statement (.seqShr x0 x1 x2) := by
  intro hw _
  have e : @fld 32 ((0x00 : BitVec 6) ++ (x0 : BitVec 5) ++ (x1 : BitVec 5) ++ (x2 : BitVec 5) ++ (0x00A : BitVec 11)) 26 6 = 0x00#6 := by
    simp (disch := decide) only [seqR_fld, fld_high]; exact fld_whole _
  show (decodeSeq ((0x00 : BitVec 6) ++ (x0 : BitVec 5) ++ (x1 : BitVec 5) ++ (x2 : BitVec 5) ++ (0x00A : BitVec 11))).toOption = some _
  unfold decodeSeq
  rw [e]
  simp only [BitVec.reduceToNat]
  simp (disch := decide) only [seqR_fld, seqR_bit, fld_low, fld_high, bit_low, bit_high]
  simp_all [fld_whole, bit_ofBool, aluOfFunc, samoOfFunc, orIllegal, whenZero, Except.toOption, Instr.wf, fld, bit]

theorem Codec.seqSar (x0 : BitVec 5) (x1 : BitVec 5) (x2 : BitVec 5) : Codec.Statement (.seqSar x0 x1 x2) := by
  intro hw _
  have e : @fld 32 ((0x00 : BitVec 6) ++ (x0 : BitVec 5) ++ (x1 : BitVec 5) ++ (x2 : BitVec 5) ++ (0x00B : BitVec 11)) 26 6 = 0x00#6 := by
    simp (disch := decide) only [seqR_fld, fld_high]; exact fld_whole _
  show (decodeSeq ((0x00 : BitVec 6) ++ (x0 : BitVec 5) ++ (x1 : BitVec 5) ++ (x2 : BitVec 5) ++ (0x00B : BitVec 11))).toOption = some _
  unfold decodeSeq
  rw [e]
  simp only [BitVec.reduceToNat]
  simp (disch := decide) only [seqR_fld, seqR_bit, fld_low, fld_high, bit_low, bit_high]
  simp_all [fld_whole, bit_ofBool, aluOfFunc, samoOfFunc, orIllegal, whenZero, Except.toOption, Instr.wf, fld, bit]

theorem Codec.slt (x0 : BitVec 5) (x1 : BitVec 5) (x2 : BitVec 5) : Codec.Statement (.slt x0 x1 x2) := by
  intro hw _
  have e : @fld 32 ((0x00 : BitVec 6) ++ (x0 : BitVec 5) ++ (x1 : BitVec 5) ++ (x2 : BitVec 5) ++ (0x00C : BitVec 11)) 26 6 = 0x00#6 := by
    simp (disch := decide) only [seqR_fld, fld_high]; exact fld_whole _
  show (decodeSeq ((0x00 : BitVec 6) ++ (x0 : BitVec 5) ++ (x1 : BitVec 5) ++ (x2 : BitVec 5) ++ (0x00C : BitVec 11))).toOption = some _
  unfold decodeSeq
  rw [e]
  simp only [BitVec.reduceToNat]
  simp (disch := decide) only [seqR_fld, seqR_bit, fld_low, fld_high, bit_low, bit_high]
  simp_all [fld_whole, bit_ofBool, aluOfFunc, samoOfFunc, orIllegal, whenZero, Except.toOption, Instr.wf, fld, bit]

theorem Codec.sltn (x0 : BitVec 5) (x1 : BitVec 5) (x2 : BitVec 5) : Codec.Statement (.sltn x0 x1 x2) := by
  intro hw _
  have e : @fld 32 ((0x00 : BitVec 6) ++ (x0 : BitVec 5) ++ (x1 : BitVec 5) ++ (x2 : BitVec 5) ++ (0x00D : BitVec 11)) 26 6 = 0x00#6 := by
    simp (disch := decide) only [seqR_fld, fld_high]; exact fld_whole _
  show (decodeSeq ((0x00 : BitVec 6) ++ (x0 : BitVec 5) ++ (x1 : BitVec 5) ++ (x2 : BitVec 5) ++ (0x00D : BitVec 11))).toOption = some _
  unfold decodeSeq
  rw [e]
  simp only [BitVec.reduceToNat]
  simp (disch := decide) only [seqR_fld, seqR_bit, fld_low, fld_high, bit_low, bit_high]
  simp_all [fld_whole, bit_ofBool, aluOfFunc, samoOfFunc, orIllegal, whenZero, Except.toOption, Instr.wf, fld, bit]

theorem Codec.addi (x0 : BitVec 5) (x1 : BitVec 5) (x2 : BitVec 16) : Codec.Statement (.addi x0 x1 x2) := by
  intro hw _
  have e : @fld 32 ((0x01 : BitVec 6) ++ (x0 : BitVec 5) ++ (x1 : BitVec 5) ++ (x2 : BitVec 16)) 26 6 = 0x01#6 := by
    simp (disch := decide) only [seqI_fld, fld_high]; exact fld_whole _
  show (decodeSeq ((0x01 : BitVec 6) ++ (x0 : BitVec 5) ++ (x1 : BitVec 5) ++ (x2 : BitVec 16))).toOption = some _
  unfold decodeSeq
  rw [e]
  simp only [BitVec.reduceToNat]
  simp (disch := decide) only [seqI_fld, fld_low, fld_high, bit_low, bit_high]
  simp_all [fld_whole, bit_ofBool, aluOfFunc, samoOfFunc, orIllegal, whenZero, Except.toOption, Instr.wf, fld, bit]

theorem Codec.andi (x0 : BitVec 5) (x1 : BitVec 5) (x2 : BitVec 16) : Codec.Statement (.andi x0 x1 x2) := by
  intro hw _
  have e : @fld 32 ((0x02 : BitVec 6) ++ (x0 : BitVec 5) ++ (x1 : BitVec 5) ++ (x2 : BitVec 16)) 26 6 = 0x02#6 := by
    simp (disch := decide) only [seqI_fld, fld_high]; exact fld_whole _
  show (decodeSeq ((0x02 : BitVec 6) ++ (x0 : BitVec 5) ++ (x1 : BitVec 5) ++ (x2 : BitVec 16))).toOption = some _
  unfold decodeSeq
  rw [e]
  simp only [BitVec.reduceToNat]
  simp (disch := decide) only [seqI_fld, fld_low, fld_high, bit_low, bit_high]
  simp_all [fld_whole, bit_ofBool, aluOfFunc, samoOfFunc, orIllegal, whenZero, Except.toOption, Instr.wf, fld, bit]

theorem Codec.ori (x0 : BitVec 5) (x1 : BitVec 5) (x2 : BitVec 16) : Codec.Statement (.ori x0 x1 x2) := by
  intro hw _
  have e : @fld 32 ((0x03 : BitVec 6) ++ (x0 : BitVec 5) ++ (x1 : BitVec 5) ++ (x2 : BitVec 16)) 26 6 = 0x03#6 := by
    simp (disch := decide) only [seqI_fld, fld_high]; exact fld_whole _
  show (decodeSeq ((0x03 : BitVec 6) ++ (x0 : BitVec 5) ++ (x1 : BitVec 5) ++ (x2 : BitVec 16))).toOption = some _
  unfold decodeSeq
  rw [e]
  simp only [BitVec.reduceToNat]
  simp (disch := decide) only [seqI_fld, fld_low, fld_high, bit_low, bit_high]
  simp_all [fld_whole, bit_ofBool, aluOfFunc, samoOfFunc, orIllegal, whenZero, Except.toOption, Instr.wf, fld, bit]

theorem Codec.xori (x0 : BitVec 5) (x1 : BitVec 5) (x2 : BitVec 16) : Codec.Statement (.xori x0 x1 x2) := by
  intro hw _
  have e : @fld 32 ((0x04 : BitVec 6) ++ (x0 : BitVec 5) ++ (x1 : BitVec 5) ++ (x2 : BitVec 16)) 26 6 = 0x04#6 := by
    simp (disch := decide) only [seqI_fld, fld_high]; exact fld_whole _
  show (decodeSeq ((0x04 : BitVec 6) ++ (x0 : BitVec 5) ++ (x1 : BitVec 5) ++ (x2 : BitVec 16))).toOption = some _
  unfold decodeSeq
  rw [e]
  simp only [BitVec.reduceToNat]
  simp (disch := decide) only [seqI_fld, fld_low, fld_high, bit_low, bit_high]
  simp_all [fld_whole, bit_ofBool, aluOfFunc, samoOfFunc, orIllegal, whenZero, Except.toOption, Instr.wf, fld, bit]

theorem Codec.shli (x0 : BitVec 5) (x1 : BitVec 5) (x2 : BitVec 6) : Codec.Statement (.shli x0 x1 x2) := by
  intro hw _
  have e : @fld 32 ((0x05 : BitVec 6) ++ (x0 : BitVec 5) ++ (x1 : BitVec 5) ++ (((0 : BitVec 10) ++ x2) : BitVec 16)) 26 6 = 0x05#6 := by
    simp (disch := decide) only [seqI_fld, fld_high]; exact fld_whole _
  show (decodeSeq ((0x05 : BitVec 6) ++ (x0 : BitVec 5) ++ (x1 : BitVec 5) ++ (((0 : BitVec 10) ++ x2) : BitVec 16))).toOption = some _
  unfold decodeSeq
  rw [e]
  simp only [BitVec.reduceToNat]
  simp (disch := decide) only [seqI_fld, fld_low, fld_high, bit_low, bit_high]
  simp_all [fld_whole, bit_ofBool, aluOfFunc, samoOfFunc, orIllegal, whenZero, Except.toOption, Instr.wf, fld, bit]

theorem Codec.shri (x0 : BitVec 5) (x1 : BitVec 5) (x2 : BitVec 6) : Codec.Statement (.shri x0 x1 x2) := by
  intro hw _
  have e : @fld 32 ((0x06 : BitVec 6) ++ (x0 : BitVec 5) ++ (x1 : BitVec 5) ++ (((0 : BitVec 10) ++ x2) : BitVec 16)) 26 6 = 0x06#6 := by
    simp (disch := decide) only [seqI_fld, fld_high]; exact fld_whole _
  show (decodeSeq ((0x06 : BitVec 6) ++ (x0 : BitVec 5) ++ (x1 : BitVec 5) ++ (((0 : BitVec 10) ++ x2) : BitVec 16))).toOption = some _
  unfold decodeSeq
  rw [e]
  simp only [BitVec.reduceToNat]
  simp (disch := decide) only [seqI_fld, fld_low, fld_high, bit_low, bit_high]
  simp_all [fld_whole, bit_ofBool, aluOfFunc, samoOfFunc, orIllegal, whenZero, Except.toOption, Instr.wf, fld, bit]

theorem Codec.sari (x0 : BitVec 5) (x1 : BitVec 5) (x2 : BitVec 6) : Codec.Statement (.sari x0 x1 x2) := by
  intro hw _
  have e : @fld 32 ((0x07 : BitVec 6) ++ (x0 : BitVec 5) ++ (x1 : BitVec 5) ++ (((0 : BitVec 10) ++ x2) : BitVec 16)) 26 6 = 0x07#6 := by
    simp (disch := decide) only [seqI_fld, fld_high]; exact fld_whole _
  show (decodeSeq ((0x07 : BitVec 6) ++ (x0 : BitVec 5) ++ (x1 : BitVec 5) ++ (((0 : BitVec 10) ++ x2) : BitVec 16))).toOption = some _
  unfold decodeSeq
  rw [e]
  simp only [BitVec.reduceToNat]
  simp (disch := decide) only [seqI_fld, fld_low, fld_high, bit_low, bit_high]
  simp_all [fld_whole, bit_ofBool, aluOfFunc, samoOfFunc, orIllegal, whenZero, Except.toOption, Instr.wf, fld, bit]

theorem Codec.lih (x0 : BitVec 5) (x1 : BitVec 5) (x2 : BitVec 16) : Codec.Statement (.lih x0 x1 x2) := by
  intro hw _
  have e : @fld 32 ((0x08 : BitVec 6) ++ (x0 : BitVec 5) ++ (x1 : BitVec 5) ++ (x2 : BitVec 16)) 26 6 = 0x08#6 := by
    simp (disch := decide) only [seqI_fld, fld_high]; exact fld_whole _
  show (decodeSeq ((0x08 : BitVec 6) ++ (x0 : BitVec 5) ++ (x1 : BitVec 5) ++ (x2 : BitVec 16))).toOption = some _
  unfold decodeSeq
  rw [e]
  simp only [BitVec.reduceToNat]
  simp (disch := decide) only [seqI_fld, fld_low, fld_high, bit_low, bit_high]
  simp_all [fld_whole, bit_ofBool, aluOfFunc, samoOfFunc, orIllegal, whenZero, Except.toOption, Instr.wf, fld, bit]

theorem Codec.seqLd (x0 : BitVec 5) (x1 : BitVec 5) (x2 : BitVec 16) : Codec.Statement (.seqLd x0 x1 x2) := by
  intro hw _
  have e : @fld 32 ((0x10 : BitVec 6) ++ (x0 : BitVec 5) ++ (x1 : BitVec 5) ++ (x2 : BitVec 16)) 26 6 = 0x10#6 := by
    simp (disch := decide) only [seqI_fld, fld_high]; exact fld_whole _
  show (decodeSeq ((0x10 : BitVec 6) ++ (x0 : BitVec 5) ++ (x1 : BitVec 5) ++ (x2 : BitVec 16))).toOption = some _
  unfold decodeSeq
  rw [e]
  simp only [BitVec.reduceToNat]
  simp (disch := decide) only [seqI_fld, fld_low, fld_high, bit_low, bit_high]
  simp_all [fld_whole, bit_ofBool, aluOfFunc, samoOfFunc, orIllegal, whenZero, Except.toOption, Instr.wf, fld, bit]

theorem Codec.ldw (x0 : BitVec 5) (x1 : BitVec 5) (x2 : BitVec 16) : Codec.Statement (.ldw x0 x1 x2) := by
  intro hw _
  have e : @fld 32 ((0x11 : BitVec 6) ++ (x0 : BitVec 5) ++ (x1 : BitVec 5) ++ (x2 : BitVec 16)) 26 6 = 0x11#6 := by
    simp (disch := decide) only [seqI_fld, fld_high]; exact fld_whole _
  show (decodeSeq ((0x11 : BitVec 6) ++ (x0 : BitVec 5) ++ (x1 : BitVec 5) ++ (x2 : BitVec 16))).toOption = some _
  unfold decodeSeq
  rw [e]
  simp only [BitVec.reduceToNat]
  simp (disch := decide) only [seqI_fld, fld_low, fld_high, bit_low, bit_high]
  simp_all [fld_whole, bit_ofBool, aluOfFunc, samoOfFunc, orIllegal, whenZero, Except.toOption, Instr.wf, fld, bit]

theorem Codec.seqSt (x0 : BitVec 5) (x1 : BitVec 5) (x2 : BitVec 16) : Codec.Statement (.seqSt x0 x1 x2) := by
  intro hw _
  have e : @fld 32 ((0x12 : BitVec 6) ++ (x0 : BitVec 5) ++ (x1 : BitVec 5) ++ (x2 : BitVec 16)) 26 6 = 0x12#6 := by
    simp (disch := decide) only [seqI_fld, fld_high]; exact fld_whole _
  show (decodeSeq ((0x12 : BitVec 6) ++ (x0 : BitVec 5) ++ (x1 : BitVec 5) ++ (x2 : BitVec 16))).toOption = some _
  unfold decodeSeq
  rw [e]
  simp only [BitVec.reduceToNat]
  simp (disch := decide) only [seqI_fld, fld_low, fld_high, bit_low, bit_high]
  simp_all [fld_whole, bit_ofBool, aluOfFunc, samoOfFunc, orIllegal, whenZero, Except.toOption, Instr.wf, fld, bit]

theorem Codec.stw (x0 : BitVec 5) (x1 : BitVec 5) (x2 : BitVec 16) : Codec.Statement (.stw x0 x1 x2) := by
  intro hw _
  have e : @fld 32 ((0x13 : BitVec 6) ++ (x0 : BitVec 5) ++ (x1 : BitVec 5) ++ (x2 : BitVec 16)) 26 6 = 0x13#6 := by
    simp (disch := decide) only [seqI_fld, fld_high]; exact fld_whole _
  show (decodeSeq ((0x13 : BitVec 6) ++ (x0 : BitVec 5) ++ (x1 : BitVec 5) ++ (x2 : BitVec 16))).toOption = some _
  unfold decodeSeq
  rw [e]
  simp only [BitVec.reduceToNat]
  simp (disch := decide) only [seqI_fld, fld_low, fld_high, bit_low, bit_high]
  simp_all [fld_whole, bit_ofBool, aluOfFunc, samoOfFunc, orIllegal, whenZero, Except.toOption, Instr.wf, fld, bit]

theorem Codec.samoAdd (x0 : BitVec 5) (x1 : BitVec 5) (x2 : BitVec 5) (x3 : Bool) : Codec.Statement (.samoAdd x0 x1 x2 x3) := by
  intro hw _
  have e : @fld 32 ((0x14 : BitVec 6) ++ (x0 : BitVec 5) ++ (x1 : BitVec 5) ++ (x2 : BitVec 5) ++ (((0 : BitVec 6) ++ BitVec.ofBool x3 ++ (0 : BitVec 4)) : BitVec 11)) 26 6 = 0x14#6 := by
    simp (disch := decide) only [seqR_fld, fld_high]; exact fld_whole _
  show (decodeSeq ((0x14 : BitVec 6) ++ (x0 : BitVec 5) ++ (x1 : BitVec 5) ++ (x2 : BitVec 5) ++ (((0 : BitVec 6) ++ BitVec.ofBool x3 ++ (0 : BitVec 4)) : BitVec 11))).toOption = some _
  unfold decodeSeq
  rw [e]
  simp only [BitVec.reduceToNat]
  simp (disch := decide) only [seqR_fld, seqR_bit, fld_low, fld_high, bit_low, bit_high]
  simp_all [fld_whole, bit_ofBool, aluOfFunc, samoOfFunc, orIllegal, whenZero, Except.toOption, Instr.wf, fld, bit]

theorem Codec.samoSwap (x0 : BitVec 5) (x1 : BitVec 5) (x2 : BitVec 5) (x3 : Bool) : Codec.Statement (.samoSwap x0 x1 x2 x3) := by
  intro hw _
  have e : @fld 32 ((0x14 : BitVec 6) ++ (x0 : BitVec 5) ++ (x1 : BitVec 5) ++ (x2 : BitVec 5) ++ (((0 : BitVec 6) ++ BitVec.ofBool x3 ++ (1 : BitVec 4)) : BitVec 11)) 26 6 = 0x14#6 := by
    simp (disch := decide) only [seqR_fld, fld_high]; exact fld_whole _
  show (decodeSeq ((0x14 : BitVec 6) ++ (x0 : BitVec 5) ++ (x1 : BitVec 5) ++ (x2 : BitVec 5) ++ (((0 : BitVec 6) ++ BitVec.ofBool x3 ++ (1 : BitVec 4)) : BitVec 11))).toOption = some _
  unfold decodeSeq
  rw [e]
  simp only [BitVec.reduceToNat]
  simp (disch := decide) only [seqR_fld, seqR_bit, fld_low, fld_high, bit_low, bit_high]
  simp_all [fld_whole, bit_ofBool, aluOfFunc, samoOfFunc, orIllegal, whenZero, Except.toOption, Instr.wf, fld, bit]

theorem Codec.samoCas (x0 : BitVec 5) (x1 : BitVec 5) (x2 : BitVec 5) (x3 : Bool) : Codec.Statement (.samoCas x0 x1 x2 x3) := by
  intro hw _
  have e : @fld 32 ((0x14 : BitVec 6) ++ (x0 : BitVec 5) ++ (x1 : BitVec 5) ++ (x2 : BitVec 5) ++ (((0 : BitVec 6) ++ BitVec.ofBool x3 ++ (2 : BitVec 4)) : BitVec 11)) 26 6 = 0x14#6 := by
    simp (disch := decide) only [seqR_fld, fld_high]; exact fld_whole _
  show (decodeSeq ((0x14 : BitVec 6) ++ (x0 : BitVec 5) ++ (x1 : BitVec 5) ++ (x2 : BitVec 5) ++ (((0 : BitVec 6) ++ BitVec.ofBool x3 ++ (2 : BitVec 4)) : BitVec 11))).toOption = some _
  unfold decodeSeq
  rw [e]
  simp only [BitVec.reduceToNat]
  simp (disch := decide) only [seqR_fld, seqR_bit, fld_low, fld_high, bit_low, bit_high]
  simp_all [fld_whole, bit_ofBool, aluOfFunc, samoOfFunc, orIllegal, whenZero, Except.toOption, Instr.wf, fld, bit]

theorem Codec.samoAnd (x0 : BitVec 5) (x1 : BitVec 5) (x2 : BitVec 5) (x3 : Bool) : Codec.Statement (.samoAnd x0 x1 x2 x3) := by
  intro hw _
  have e : @fld 32 ((0x14 : BitVec 6) ++ (x0 : BitVec 5) ++ (x1 : BitVec 5) ++ (x2 : BitVec 5) ++ (((0 : BitVec 6) ++ BitVec.ofBool x3 ++ (3 : BitVec 4)) : BitVec 11)) 26 6 = 0x14#6 := by
    simp (disch := decide) only [seqR_fld, fld_high]; exact fld_whole _
  show (decodeSeq ((0x14 : BitVec 6) ++ (x0 : BitVec 5) ++ (x1 : BitVec 5) ++ (x2 : BitVec 5) ++ (((0 : BitVec 6) ++ BitVec.ofBool x3 ++ (3 : BitVec 4)) : BitVec 11))).toOption = some _
  unfold decodeSeq
  rw [e]
  simp only [BitVec.reduceToNat]
  simp (disch := decide) only [seqR_fld, seqR_bit, fld_low, fld_high, bit_low, bit_high]
  simp_all [fld_whole, bit_ofBool, aluOfFunc, samoOfFunc, orIllegal, whenZero, Except.toOption, Instr.wf, fld, bit]

theorem Codec.samoOr (x0 : BitVec 5) (x1 : BitVec 5) (x2 : BitVec 5) (x3 : Bool) : Codec.Statement (.samoOr x0 x1 x2 x3) := by
  intro hw _
  have e : @fld 32 ((0x14 : BitVec 6) ++ (x0 : BitVec 5) ++ (x1 : BitVec 5) ++ (x2 : BitVec 5) ++ (((0 : BitVec 6) ++ BitVec.ofBool x3 ++ (4 : BitVec 4)) : BitVec 11)) 26 6 = 0x14#6 := by
    simp (disch := decide) only [seqR_fld, fld_high]; exact fld_whole _
  show (decodeSeq ((0x14 : BitVec 6) ++ (x0 : BitVec 5) ++ (x1 : BitVec 5) ++ (x2 : BitVec 5) ++ (((0 : BitVec 6) ++ BitVec.ofBool x3 ++ (4 : BitVec 4)) : BitVec 11))).toOption = some _
  unfold decodeSeq
  rw [e]
  simp only [BitVec.reduceToNat]
  simp (disch := decide) only [seqR_fld, seqR_bit, fld_low, fld_high, bit_low, bit_high]
  simp_all [fld_whole, bit_ofBool, aluOfFunc, samoOfFunc, orIllegal, whenZero, Except.toOption, Instr.wf, fld, bit]

theorem Codec.samoXor (x0 : BitVec 5) (x1 : BitVec 5) (x2 : BitVec 5) (x3 : Bool) : Codec.Statement (.samoXor x0 x1 x2 x3) := by
  intro hw _
  have e : @fld 32 ((0x14 : BitVec 6) ++ (x0 : BitVec 5) ++ (x1 : BitVec 5) ++ (x2 : BitVec 5) ++ (((0 : BitVec 6) ++ BitVec.ofBool x3 ++ (5 : BitVec 4)) : BitVec 11)) 26 6 = 0x14#6 := by
    simp (disch := decide) only [seqR_fld, fld_high]; exact fld_whole _
  show (decodeSeq ((0x14 : BitVec 6) ++ (x0 : BitVec 5) ++ (x1 : BitVec 5) ++ (x2 : BitVec 5) ++ (((0 : BitVec 6) ++ BitVec.ofBool x3 ++ (5 : BitVec 4)) : BitVec 11))).toOption = some _
  unfold decodeSeq
  rw [e]
  simp only [BitVec.reduceToNat]
  simp (disch := decide) only [seqR_fld, seqR_bit, fld_low, fld_high, bit_low, bit_high]
  simp_all [fld_whole, bit_ofBool, aluOfFunc, samoOfFunc, orIllegal, whenZero, Except.toOption, Instr.wf, fld, bit]

theorem Codec.samoMin (x0 : BitVec 5) (x1 : BitVec 5) (x2 : BitVec 5) (x3 : Bool) : Codec.Statement (.samoMin x0 x1 x2 x3) := by
  intro hw _
  have e : @fld 32 ((0x14 : BitVec 6) ++ (x0 : BitVec 5) ++ (x1 : BitVec 5) ++ (x2 : BitVec 5) ++ (((0 : BitVec 6) ++ BitVec.ofBool x3 ++ (6 : BitVec 4)) : BitVec 11)) 26 6 = 0x14#6 := by
    simp (disch := decide) only [seqR_fld, fld_high]; exact fld_whole _
  show (decodeSeq ((0x14 : BitVec 6) ++ (x0 : BitVec 5) ++ (x1 : BitVec 5) ++ (x2 : BitVec 5) ++ (((0 : BitVec 6) ++ BitVec.ofBool x3 ++ (6 : BitVec 4)) : BitVec 11))).toOption = some _
  unfold decodeSeq
  rw [e]
  simp only [BitVec.reduceToNat]
  simp (disch := decide) only [seqR_fld, seqR_bit, fld_low, fld_high, bit_low, bit_high]
  simp_all [fld_whole, bit_ofBool, aluOfFunc, samoOfFunc, orIllegal, whenZero, Except.toOption, Instr.wf, fld, bit]

theorem Codec.samoMax (x0 : BitVec 5) (x1 : BitVec 5) (x2 : BitVec 5) (x3 : Bool) : Codec.Statement (.samoMax x0 x1 x2 x3) := by
  intro hw _
  have e : @fld 32 ((0x14 : BitVec 6) ++ (x0 : BitVec 5) ++ (x1 : BitVec 5) ++ (x2 : BitVec 5) ++ (((0 : BitVec 6) ++ BitVec.ofBool x3 ++ (7 : BitVec 4)) : BitVec 11)) 26 6 = 0x14#6 := by
    simp (disch := decide) only [seqR_fld, fld_high]; exact fld_whole _
  show (decodeSeq ((0x14 : BitVec 6) ++ (x0 : BitVec 5) ++ (x1 : BitVec 5) ++ (x2 : BitVec 5) ++ (((0 : BitVec 6) ++ BitVec.ofBool x3 ++ (7 : BitVec 4)) : BitVec 11))).toOption = some _
  unfold decodeSeq
  rw [e]
  simp only [BitVec.reduceToNat]
  simp (disch := decide) only [seqR_fld, seqR_bit, fld_low, fld_high, bit_low, bit_high]
  simp_all [fld_whole, bit_ofBool, aluOfFunc, samoOfFunc, orIllegal, whenZero, Except.toOption, Instr.wf, fld, bit]

theorem Codec.samoMinu (x0 : BitVec 5) (x1 : BitVec 5) (x2 : BitVec 5) (x3 : Bool) : Codec.Statement (.samoMinu x0 x1 x2 x3) := by
  intro hw _
  have e : @fld 32 ((0x14 : BitVec 6) ++ (x0 : BitVec 5) ++ (x1 : BitVec 5) ++ (x2 : BitVec 5) ++ (((0 : BitVec 6) ++ BitVec.ofBool x3 ++ (8 : BitVec 4)) : BitVec 11)) 26 6 = 0x14#6 := by
    simp (disch := decide) only [seqR_fld, fld_high]; exact fld_whole _
  show (decodeSeq ((0x14 : BitVec 6) ++ (x0 : BitVec 5) ++ (x1 : BitVec 5) ++ (x2 : BitVec 5) ++ (((0 : BitVec 6) ++ BitVec.ofBool x3 ++ (8 : BitVec 4)) : BitVec 11))).toOption = some _
  unfold decodeSeq
  rw [e]
  simp only [BitVec.reduceToNat]
  simp (disch := decide) only [seqR_fld, seqR_bit, fld_low, fld_high, bit_low, bit_high]
  simp_all [fld_whole, bit_ofBool, aluOfFunc, samoOfFunc, orIllegal, whenZero, Except.toOption, Instr.wf, fld, bit]

theorem Codec.samoMaxu (x0 : BitVec 5) (x1 : BitVec 5) (x2 : BitVec 5) (x3 : Bool) : Codec.Statement (.samoMaxu x0 x1 x2 x3) := by
  intro hw _
  have e : @fld 32 ((0x14 : BitVec 6) ++ (x0 : BitVec 5) ++ (x1 : BitVec 5) ++ (x2 : BitVec 5) ++ (((0 : BitVec 6) ++ BitVec.ofBool x3 ++ (9 : BitVec 4)) : BitVec 11)) 26 6 = 0x14#6 := by
    simp (disch := decide) only [seqR_fld, fld_high]; exact fld_whole _
  show (decodeSeq ((0x14 : BitVec 6) ++ (x0 : BitVec 5) ++ (x1 : BitVec 5) ++ (x2 : BitVec 5) ++ (((0 : BitVec 6) ++ BitVec.ofBool x3 ++ (9 : BitVec 4)) : BitVec 11))).toOption = some _
  unfold decodeSeq
  rw [e]
  simp only [BitVec.reduceToNat]
  simp (disch := decide) only [seqR_fld, seqR_bit, fld_low, fld_high, bit_low, bit_high]
  simp_all [fld_whole, bit_ofBool, aluOfFunc, samoOfFunc, orIllegal, whenZero, Except.toOption, Instr.wf, fld, bit]

theorem Codec.beq (x0 : BitVec 5) (x1 : BitVec 5) (x2 : BitVec 16) : Codec.Statement (.beq x0 x1 x2) := by
  intro hw _
  have e : @fld 32 ((0x18 : BitVec 6) ++ (x0 : BitVec 5) ++ (x1 : BitVec 5) ++ (x2 : BitVec 16)) 26 6 = 0x18#6 := by
    simp (disch := decide) only [seqI_fld, fld_high]; exact fld_whole _
  show (decodeSeq ((0x18 : BitVec 6) ++ (x0 : BitVec 5) ++ (x1 : BitVec 5) ++ (x2 : BitVec 16))).toOption = some _
  unfold decodeSeq
  rw [e]
  simp only [BitVec.reduceToNat]
  simp (disch := decide) only [seqI_fld, fld_low, fld_high, bit_low, bit_high]
  simp_all [fld_whole, bit_ofBool, aluOfFunc, samoOfFunc, orIllegal, whenZero, Except.toOption, Instr.wf, fld, bit]

theorem Codec.bne (x0 : BitVec 5) (x1 : BitVec 5) (x2 : BitVec 16) : Codec.Statement (.bne x0 x1 x2) := by
  intro hw _
  have e : @fld 32 ((0x19 : BitVec 6) ++ (x0 : BitVec 5) ++ (x1 : BitVec 5) ++ (x2 : BitVec 16)) 26 6 = 0x19#6 := by
    simp (disch := decide) only [seqI_fld, fld_high]; exact fld_whole _
  show (decodeSeq ((0x19 : BitVec 6) ++ (x0 : BitVec 5) ++ (x1 : BitVec 5) ++ (x2 : BitVec 16))).toOption = some _
  unfold decodeSeq
  rw [e]
  simp only [BitVec.reduceToNat]
  simp (disch := decide) only [seqI_fld, fld_low, fld_high, bit_low, bit_high]
  simp_all [fld_whole, bit_ofBool, aluOfFunc, samoOfFunc, orIllegal, whenZero, Except.toOption, Instr.wf, fld, bit]

theorem Codec.blt (x0 : BitVec 5) (x1 : BitVec 5) (x2 : BitVec 16) : Codec.Statement (.blt x0 x1 x2) := by
  intro hw _
  have e : @fld 32 ((0x1A : BitVec 6) ++ (x0 : BitVec 5) ++ (x1 : BitVec 5) ++ (x2 : BitVec 16)) 26 6 = 0x1A#6 := by
    simp (disch := decide) only [seqI_fld, fld_high]; exact fld_whole _
  show (decodeSeq ((0x1A : BitVec 6) ++ (x0 : BitVec 5) ++ (x1 : BitVec 5) ++ (x2 : BitVec 16))).toOption = some _
  unfold decodeSeq
  rw [e]
  simp only [BitVec.reduceToNat]
  simp (disch := decide) only [seqI_fld, fld_low, fld_high, bit_low, bit_high]
  simp_all [fld_whole, bit_ofBool, aluOfFunc, samoOfFunc, orIllegal, whenZero, Except.toOption, Instr.wf, fld, bit]

theorem Codec.bge (x0 : BitVec 5) (x1 : BitVec 5) (x2 : BitVec 16) : Codec.Statement (.bge x0 x1 x2) := by
  intro hw _
  have e : @fld 32 ((0x1B : BitVec 6) ++ (x0 : BitVec 5) ++ (x1 : BitVec 5) ++ (x2 : BitVec 16)) 26 6 = 0x1B#6 := by
    simp (disch := decide) only [seqI_fld, fld_high]; exact fld_whole _
  show (decodeSeq ((0x1B : BitVec 6) ++ (x0 : BitVec 5) ++ (x1 : BitVec 5) ++ (x2 : BitVec 16))).toOption = some _
  unfold decodeSeq
  rw [e]
  simp only [BitVec.reduceToNat]
  simp (disch := decide) only [seqI_fld, fld_low, fld_high, bit_low, bit_high]
  simp_all [fld_whole, bit_ofBool, aluOfFunc, samoOfFunc, orIllegal, whenZero, Except.toOption, Instr.wf, fld, bit]

theorem Codec.loop (x0 : BitVec 5) (x1 : BitVec 16) : Codec.Statement (.loop x0 x1) := by
  intro hw _
  have e : @fld 32 ((0x1C : BitVec 6) ++ (x0 : BitVec 5) ++ (0 : BitVec 5) ++ (x1 : BitVec 16)) 26 6 = 0x1C#6 := by
    simp (disch := decide) only [seqI_fld, fld_high]; exact fld_whole _
  show (decodeSeq ((0x1C : BitVec 6) ++ (x0 : BitVec 5) ++ (0 : BitVec 5) ++ (x1 : BitVec 16))).toOption = some _
  unfold decodeSeq
  rw [e]
  simp only [BitVec.reduceToNat]
  simp (disch := decide) only [seqI_fld, fld_low, fld_high, bit_low, bit_high]
  simp_all [fld_whole, bit_ofBool, aluOfFunc, samoOfFunc, orIllegal, whenZero, Except.toOption, Instr.wf, fld, bit]

theorem Codec.jmp (x0 : BitVec 26) : Codec.Statement (.jmp x0) := by
  intro _ _
  simp only [encode, encJ, Code.decode, decodeSeq]
  simp (disch := decide) only [seqJ_fld, fld_low, fld_high]
  simp [fld_whole, whenZero, Except.toOption, fld]

theorem Codec.jal (x0 : BitVec 26) : Codec.Statement (.jal x0) := by
  intro _ _
  simp only [encode, encJ, Code.decode, decodeSeq]
  simp (disch := decide) only [seqJ_fld, fld_low, fld_high]
  simp [fld_whole, whenZero, Except.toOption, fld]

theorem Codec.jr (x0 : BitVec 5) : Codec.Statement (.jr x0) := by
  intro hw _
  have e : @fld 32 ((0x1F : BitVec 6) ++ (0 : BitVec 5) ++ (x0 : BitVec 5) ++ (0 : BitVec 16)) 26 6 = 0x1F#6 := by
    simp (disch := decide) only [seqI_fld, fld_high]; exact fld_whole _
  show (decodeSeq ((0x1F : BitVec 6) ++ (0 : BitVec 5) ++ (x0 : BitVec 5) ++ (0 : BitVec 16))).toOption = some _
  unfold decodeSeq
  rw [e]
  simp only [BitVec.reduceToNat]
  simp (disch := decide) only [seqI_fld, fld_low, fld_high, bit_low, bit_high]
  simp_all [fld_whole, bit_ofBool, aluOfFunc, samoOfFunc, orIllegal, whenZero, Except.toOption, Instr.wf, fld, bit]

theorem Codec.cfgl (x0 : BitVec 5) (x1 : BitVec 16) : Codec.Statement (.cfgl x0 x1) := by
  intro hw _
  have e : @fld 32 ((0x20 : BitVec 6) ++ (x0 : BitVec 5) ++ (0 : BitVec 5) ++ (x1 : BitVec 16)) 26 6 = 0x20#6 := by
    simp (disch := decide) only [seqI_fld, fld_high]; exact fld_whole _
  show (decodeSeq ((0x20 : BitVec 6) ++ (x0 : BitVec 5) ++ (0 : BitVec 5) ++ (x1 : BitVec 16))).toOption = some _
  unfold decodeSeq
  rw [e]
  simp only [BitVec.reduceToNat]
  simp (disch := decide) only [seqI_fld, fld_low, fld_high, bit_low, bit_high]
  simp_all [fld_whole, bit_ofBool, aluOfFunc, samoOfFunc, orIllegal, whenZero, Except.toOption, Instr.wf, fld, bit]

theorem Codec.shadowLoad (x0 : SeqId) (x1 : Nat) : Codec.Statement (.shadowLoad x0 x1) := by
  exact fun _ h => absurd rfl h

theorem Codec.cfgs (x0 : BitVec 5) (x1 : BitVec 16) : Codec.Statement (.cfgs x0 x1) := by
  intro hw _
  have e : @fld 32 ((0x21 : BitVec 6) ++ (x0 : BitVec 5) ++ (0 : BitVec 5) ++ (x1 : BitVec 16)) 26 6 = 0x21#6 := by
    simp (disch := decide) only [seqI_fld, fld_high]; exact fld_whole _
  show (decodeSeq ((0x21 : BitVec 6) ++ (x0 : BitVec 5) ++ (0 : BitVec 5) ++ (x1 : BitVec 16))).toOption = some _
  unfold decodeSeq
  rw [e]
  simp only [BitVec.reduceToNat]
  simp (disch := decide) only [seqI_fld, fld_low, fld_high, bit_low, bit_high]
  simp_all [fld_whole, bit_ofBool, aluOfFunc, samoOfFunc, orIllegal, whenZero, Except.toOption, Instr.wf, fld, bit]

theorem Codec.planeSwap (x0 : RegId) : Codec.Statement (.planeSwap x0) := by
  exact fun _ h => absurd rfl h

theorem Codec.drainTimeout (x0 : RegId) : Codec.Statement (.drainTimeout x0) := by
  exact fun _ h => absurd rfl h

theorem Codec.arm (x0 : BitVec 5) (x1 : BitVec 5) (x2 : BitVec 16) : Codec.Statement (.arm x0 x1 x2) := by
  intro hw _
  have e : @fld 32 ((0x22 : BitVec 6) ++ (x0 : BitVec 5) ++ (x1 : BitVec 5) ++ (x2 : BitVec 16)) 26 6 = 0x22#6 := by
    simp (disch := decide) only [seqI_fld, fld_high]; exact fld_whole _
  show (decodeSeq ((0x22 : BitVec 6) ++ (x0 : BitVec 5) ++ (x1 : BitVec 5) ++ (x2 : BitVec 16))).toOption = some _
  unfold decodeSeq
  rw [e]
  simp only [BitVec.reduceToNat]
  simp (disch := decide) only [seqI_fld, fld_low, fld_high, bit_low, bit_high]
  simp_all [fld_whole, bit_ofBool, aluOfFunc, samoOfFunc, orIllegal, whenZero, Except.toOption, Instr.wf, fld, bit]

theorem Codec.waits (x0 : BitVec 5) (x1 : BitVec 16) : Codec.Statement (.waits x0 x1) := by
  intro hw _
  have e : @fld 32 ((0x23 : BitVec 6) ++ (x0 : BitVec 5) ++ (0 : BitVec 5) ++ (x1 : BitVec 16)) 26 6 = 0x23#6 := by
    simp (disch := decide) only [seqI_fld, fld_high]; exact fld_whole _
  show (decodeSeq ((0x23 : BitVec 6) ++ (x0 : BitVec 5) ++ (0 : BitVec 5) ++ (x1 : BitVec 16))).toOption = some _
  unfold decodeSeq
  rw [e]
  simp only [BitVec.reduceToNat]
  simp (disch := decide) only [seqI_fld, fld_low, fld_high, bit_low, bit_high]
  simp_all [fld_whole, bit_ofBool, aluOfFunc, samoOfFunc, orIllegal, whenZero, Except.toOption, Instr.wf, fld, bit]

theorem Codec.waitsReturn (x0 : SeqId) : Codec.Statement (.waitsReturn x0) := by
  exact fun _ h => absurd rfl h

theorem Codec.pure (x0 : BitVec 5) (x1 : BitVec 5) (x2 : BitVec 16) : Codec.Statement (.pure x0 x1 x2) := by
  intro hw _
  have e : @fld 32 ((0x24 : BitVec 6) ++ (x0 : BitVec 5) ++ (x1 : BitVec 5) ++ (x2 : BitVec 16)) 26 6 = 0x24#6 := by
    simp (disch := decide) only [seqI_fld, fld_high]; exact fld_whole _
  show (decodeSeq ((0x24 : BitVec 6) ++ (x0 : BitVec 5) ++ (x1 : BitVec 5) ++ (x2 : BitVec 16))).toOption = some _
  unfold decodeSeq
  rw [e]
  simp only [BitVec.reduceToNat]
  simp (disch := decide) only [seqI_fld, fld_low, fld_high, bit_low, bit_high]
  simp_all [fld_whole, bit_ofBool, aluOfFunc, samoOfFunc, orIllegal, whenZero, Except.toOption, Instr.wf, fld, bit]

theorem Codec.mode (x0 : BitVec 5) (x1 : BitVec 16) : Codec.Statement (.mode x0 x1) := by
  intro hw _
  have e : @fld 32 ((0x25 : BitVec 6) ++ (x0 : BitVec 5) ++ (0 : BitVec 5) ++ (x1 : BitVec 16)) 26 6 = 0x25#6 := by
    simp (disch := decide) only [seqI_fld, fld_high]; exact fld_whole _
  show (decodeSeq ((0x25 : BitVec 6) ++ (x0 : BitVec 5) ++ (0 : BitVec 5) ++ (x1 : BitVec 16))).toOption = some _
  unfold decodeSeq
  rw [e]
  simp only [BitVec.reduceToNat]
  simp (disch := decide) only [seqI_fld, fld_low, fld_high, bit_low, bit_high]
  simp_all [fld_whole, bit_ofBool, aluOfFunc, samoOfFunc, orIllegal, whenZero, Except.toOption, Instr.wf, fld, bit]

theorem Codec.waitm (x0 : BitVec 5) (x1 : BitVec 5) : Codec.Statement (.waitm x0 x1) := by
  intro hw _
  have e : @fld 32 ((0x26 : BitVec 6) ++ (x0 : BitVec 5) ++ (x1 : BitVec 5) ++ (0 : BitVec 16)) 26 6 = 0x26#6 := by
    simp (disch := decide) only [seqI_fld, fld_high]; exact fld_whole _
  show (decodeSeq ((0x26 : BitVec 6) ++ (x0 : BitVec 5) ++ (x1 : BitVec 5) ++ (0 : BitVec 16))).toOption = some _
  unfold decodeSeq
  rw [e]
  simp only [BitVec.reduceToNat]
  simp (disch := decide) only [seqI_fld, fld_low, fld_high, bit_low, bit_high]
  simp_all [fld_whole, bit_ofBool, aluOfFunc, samoOfFunc, orIllegal, whenZero, Except.toOption, Instr.wf, fld, bit]

theorem Codec.waitmWake (x0 : SeqId) : Codec.Statement (.waitmWake x0) := by
  exact fun _ h => absurd rfl h

theorem Codec.launch (x0 : BitVec 5) (x1 : BitVec 5) : Codec.Statement (.launch x0 x1) := by
  intro hw _
  have e : @fld 32 ((0x27 : BitVec 6) ++ (0 : BitVec 5) ++ (x0 : BitVec 5) ++ (x1 : BitVec 5) ++ (0 : BitVec 11)) 26 6 = 0x27#6 := by
    simp (disch := decide) only [seqR_fld, fld_high]; exact fld_whole _
  show (decodeSeq ((0x27 : BitVec 6) ++ (0 : BitVec 5) ++ (x0 : BitVec 5) ++ (x1 : BitVec 5) ++ (0 : BitVec 11))).toOption = some _
  unfold decodeSeq
  rw [e]
  simp only [BitVec.reduceToNat]
  simp (disch := decide) only [seqR_fld, seqR_bit, fld_low, fld_high, bit_low, bit_high]
  simp_all [fld_whole, bit_ofBool, aluOfFunc, samoOfFunc, orIllegal, whenZero, Except.toOption, Instr.wf, fld, bit]

theorem Codec.tail (x0 : BitVec 5) : Codec.Statement (.tail x0) := by
  intro hw _
  have e : @fld 32 ((0x28 : BitVec 6) ++ (0 : BitVec 5) ++ (x0 : BitVec 5) ++ (0 : BitVec 16)) 26 6 = 0x28#6 := by
    simp (disch := decide) only [seqI_fld, fld_high]; exact fld_whole _
  show (decodeSeq ((0x28 : BitVec 6) ++ (0 : BitVec 5) ++ (x0 : BitVec 5) ++ (0 : BitVec 16))).toOption = some _
  unfold decodeSeq
  rw [e]
  simp only [BitVec.reduceToNat]
  simp (disch := decide) only [seqI_fld, fld_low, fld_high, bit_low, bit_high]
  simp_all [fld_whole, bit_ofBool, aluOfFunc, samoOfFunc, orIllegal, whenZero, Except.toOption, Instr.wf, fld, bit]

theorem Codec.srd (x0 : BitVec 5) (x1 : BitVec 8) (x2 : BitVec 8) : Codec.Statement (.srd x0 x1 x2) := by
  intro hw _
  have e : @fld 32 ((0x30 : BitVec 6) ++ (x0 : BitVec 5) ++ (0 : BitVec 5) ++ ((x1 ++ x2) : BitVec 16)) 26 6 = 0x30#6 := by
    simp (disch := decide) only [seqI_fld, fld_high]; exact fld_whole _
  show (decodeSeq ((0x30 : BitVec 6) ++ (x0 : BitVec 5) ++ (0 : BitVec 5) ++ ((x1 ++ x2) : BitVec 16))).toOption = some _
  unfold decodeSeq
  rw [e]
  simp only [BitVec.reduceToNat]
  simp (disch := decide) only [seqI_fld, fld_low, fld_high, bit_low, bit_high]
  simp_all [fld_whole, bit_ofBool, aluOfFunc, samoOfFunc, orIllegal, whenZero, Except.toOption, Instr.wf, fld, bit]

theorem Codec.swr (x0 : BitVec 5) (x1 : BitVec 8) (x2 : BitVec 8) : Codec.Statement (.swr x0 x1 x2) := by
  intro hw _
  have e : @fld 32 ((0x31 : BitVec 6) ++ (0 : BitVec 5) ++ (x0 : BitVec 5) ++ ((x1 ++ x2) : BitVec 16)) 26 6 = 0x31#6 := by
    simp (disch := decide) only [seqI_fld, fld_high]; exact fld_whole _
  show (decodeSeq ((0x31 : BitVec 6) ++ (0 : BitVec 5) ++ (x0 : BitVec 5) ++ ((x1 ++ x2) : BitVec 16))).toOption = some _
  unfold decodeSeq
  rw [e]
  simp only [BitVec.reduceToNat]
  simp (disch := decide) only [seqI_fld, fld_low, fld_high, bit_low, bit_high]
  simp_all [fld_whole, bit_ofBool, aluOfFunc, samoOfFunc, orIllegal, whenZero, Except.toOption, Instr.wf, fld, bit]

theorem Codec.seqFence (x0 : BitVec 3) : Codec.Statement (.seqFence x0) := by
  intro hw _
  have e : @fld 32 ((0x32 : BitVec 6) ++ (0 : BitVec 23) ++ x0) 26 6 = 0x32#6 := by
    simp (disch := decide) only [seqF_fld, fld_high]; exact fld_whole _
  show (decodeSeq ((0x32 : BitVec 6) ++ (0 : BitVec 23) ++ x0)).toOption = some _
  unfold decodeSeq
  rw [e]
  simp only [BitVec.reduceToNat]
  simp (disch := decide) only [seqF_fld, fld_low, fld_high, bit_low, bit_high]
  simp_all [fld_whole, bit_ofBool, aluOfFunc, samoOfFunc, orIllegal, whenZero, Except.toOption, Instr.wf, fld, bit]

theorem Codec.seqTrap (x0 : BitVec 8) : Codec.Statement (.seqTrap x0) := by
  intro hw _
  have e : @fld 32 ((0x33 : BitVec 6) ++ (0 : BitVec 18) ++ x0) 26 6 = 0x33#6 := by
    simp (disch := decide) only [seqT_fld, fld_high]; exact fld_whole _
  show (decodeSeq ((0x33 : BitVec 6) ++ (0 : BitVec 18) ++ x0)).toOption = some _
  unfold decodeSeq
  rw [e]
  simp only [BitVec.reduceToNat]
  simp (disch := decide) only [seqT_fld, fld_low, fld_high, bit_low, bit_high]
  simp_all [fld_whole, bit_ofBool, aluOfFunc, samoOfFunc, orIllegal, whenZero, Except.toOption, Instr.wf, fld, bit]

theorem Codec.halt : Codec.Statement .halt := by
  intro _ _
  simp only [encode, encJ, Code.decode, decodeSeq]
  simp (disch := decide) only [seqJ_fld, fld_low, fld_high]
  simp [fld_whole, whenZero, Except.toOption, fld]

theorem Codec.kernelComplete (x0 : SeqId) : Codec.Statement (.kernelComplete x0) := by
  exact fun _ h => absurd rfl h

theorem Codec.seqNop : Codec.Statement .seqNop := by
  intro _ _
  simp only [encode, encJ, Code.decode, decodeSeq]
  simp (disch := decide) only [seqJ_fld, fld_low, fld_high]
  simp [fld_whole, whenZero, Except.toOption, fld]

theorem Codec.recordStart (x0 : SeqId) : Codec.Statement (.recordStart x0) := by
  exact fun _ h => absurd rfl h

theorem Codec.linkWake (x0 : SeqId) : Codec.Statement (.linkWake x0) := by
  exact fun _ h => absurd rfl h

theorem Codec.sqctlGo (x0 : SeqId) : Codec.Statement (.sqctlGo x0) := by
  exact fun _ h => absurd rfl h

theorem Codec.sqctlSkip (x0 : SeqId) : Codec.Statement (.sqctlSkip x0) := by
  exact fun _ h => absurd rfl h

theorem Codec.sqctlStop (x0 : SeqId) : Codec.Statement (.sqctlStop x0) := by
  exact fun _ h => absurd rfl h

theorem Codec.allocatorRun (x0 : Nat) : Codec.Statement (.allocatorRun x0) := by
  exact fun _ h => absurd rfl h

theorem Codec.pwbudWrite (x0 : Nat) (x1 : BitVec 64) : Codec.Statement (.pwbudWrite x0 x1) := by
  exact fun _ h => absurd rfl h

theorem Codec.entryAging (x0 : Nat) (x1 : Nat) : Codec.Statement (.entryAging x0 x1) := by
  exact fun _ h => absurd rfl h

theorem Codec.contextAging (x0 : SeqId) : Codec.Statement (.contextAging x0) := by
  exact fun _ h => absurd rfl h

theorem Codec.configInstall (x0 : RegId) : Codec.Statement (.configInstall x0) := by
  exact fun _ h => absurd rfl h

theorem Codec.invocationArm (x0 : SeqId) (x1 : Nat) : Codec.Statement (.invocationArm x0 x1) := by
  exact fun _ h => absurd rfl h

theorem Codec.agateLookup (x0 : RegId) : Codec.Statement (.agateLookup x0) := by
  exact fun _ h => absurd rfl h

theorem Codec.invocationRetire (x0 : RegId) : Codec.Statement (.invocationRetire x0) := by
  exact fun _ h => absurd rfl h

theorem Codec.prectlGo (x0 : Nat) (x1 : BitVec 64) : Codec.Statement (.prectlGo x0 x1) := by
  exact fun _ h => absurd rfl h

theorem Codec.schedulerPreempt (x0 : Nat) : Codec.Statement (.schedulerPreempt x0) := by
  exact fun _ h => absurd rfl h

theorem Codec.cutComplete (x0 : RegId) : Codec.Statement (.cutComplete x0) := by
  exact fun _ h => absurd rfl h

theorem Codec.tCutExpiry (x0 : RegId) : Codec.Statement (.tCutExpiry x0) := by
  exact fun _ h => absurd rfl h

theorem Codec.invocationResume (x0 : SeqId) (x1 : Nat) : Codec.Statement (.invocationResume x0 x1) := by
  exact fun _ h => absurd rfl h

theorem Codec.windowEnd (x0 : RegId) : Codec.Statement (.windowEnd x0) := by
  exact fun _ h => absurd rfl h

theorem Codec.commit (x0 : RegId) (x1 : CommitPlan) : Codec.Statement (.commit x0 x1) := by
  exact fun _ h => absurd rfl h

theorem Codec.rbstatClear (x0 : Nat) : Codec.Statement (.rbstatClear x0) := by
  exact fun _ h => absurd rfl h

theorem Codec.regionFreeze (x0 : RegId) : Codec.Statement (.regionFreeze x0) := by
  exact fun _ h => absurd rfl h

theorem Codec.faultRecordPendingWrite (x0 : Nat) : Codec.Statement (.faultRecordPendingWrite x0) := by
  exact fun _ h => absurd rfl h

theorem Codec.hangTimeout (x0 : RegId) : Codec.Statement (.hangTimeout x0) := by
  exact fun _ h => absurd rfl h

theorem Codec.frctlRelease (x0 : Nat) (x1 : BitVec 64) : Codec.Statement (.frctlRelease x0 x1) := by
  exact fun _ h => absurd rfl h

theorem Codec.frctlClear (x0 : Nat) (x1 : BitVec 64) : Codec.Statement (.frctlClear x0 x1) := by
  exact fun _ h => absurd rfl h

theorem Codec.fltstatClear (x0 : Nat) : Codec.Statement (.fltstatClear x0) := by
  exact fun _ h => absurd rfl h

theorem Codec.softError (x0 : SoftErr) : Codec.Statement (.softError x0) := by
  exact fun _ h => absurd rfl h

theorem Codec.bankReassign (x0 : Pos) : Codec.Statement (.bankReassign x0) := by
  exact fun _ h => absurd rfl h

theorem Codec.agateFlush (x0 : Nat) : Codec.Statement (.agateFlush x0) := by
  exact fun _ h => absurd rfl h

theorem Codec.agsbaseWrite (x0 : Nat) (x1 : BitVec 64) : Codec.Statement (.agsbaseWrite x0 x1) := by
  exact fun _ h => absurd rfl h

theorem Codec.agssizeWrite (x0 : Nat) (x1 : BitVec 64) : Codec.Statement (.agssizeWrite x0 x1) := by
  exact fun _ h => absurd rfl h

theorem Codec.shape (x0 : Nat) (x1 : Nat) : Codec.Statement (.shape x0 x1) := by
  exact fun _ h => absurd rfl h

theorem Codec.bind (x0 : Nat) (x1 : BitVec 8) (x2 : List Byte) : Codec.Statement (.bind x0 x1 x2) := by
  exact fun _ h => absurd rfl h

theorem Codec.revoke (x0 : Nat) : Codec.Statement (.revoke x0) := by
  exact fun _ h => absurd rfl h

theorem Codec.quote (x0 : List Byte) : Codec.Statement (.quote x0) := by
  exact fun _ h => absurd rfl h

theorem Codec.domset (x0 : Nat) (x1 : Nat) : Codec.Statement (.domset x0 x1) := by
  exact fun _ h => absurd rfl h

theorem Codec.cxlmap (x0 : Nat) (x1 : Nat) (x2 : Nat) (x3 : Nat) : Codec.Statement (.cxlmap x0 x1 x2 x3) := by
  exact fun _ h => absurd rfl h

theorem Codec.krvcntClear : Codec.Statement .krvcntClear := by
  exact fun _ h => absurd rfl h

theorem Codec.deviceReset (x0 : Firmware) : Codec.Statement (.deviceReset x0) := by
  exact fun _ h => absurd rfl h

theorem Codec.registerWrite (x0 : Nat) (x1 : Nat) (x2 : BitVec 64) : Codec.Statement (.registerWrite x0 x1 x2) := by
  exact fun _ h => absurd rfl h

theorem Codec.readPerform (x0 : Nat) : Codec.Statement (.readPerform x0) := by
  exact fun _ h => absurd rfl h

theorem Codec.linkRetrain (x0 : Nat) : Codec.Statement (.linkRetrain x0) := by
  exact fun _ h => absurd rfl h

end Sys2Proof.Laws
end

