-- ==== Sys2Proof/Laws/Reads.lean ====
section
/-! SUPPORT. What a byte of memory reads as after a write. -/

set_option linter.unusedVariables false
set_option linter.unusedSimpArgs false

namespace Sys2Proof.Laws

open Machine

theorem memGet_memSet_ne (m : List Host.Cell) (k j : Nat) (v : Byte) (h : j ≠ k) : memGet (memSet m k v) j = memGet m j := by
  induction m with
  | nil => unfold memSet; split <;> simp [memGet, Ne.symm h]
  | cons x t ih =>
    obtain ⟨a, b⟩ := x
    unfold memSet
    split
    · split
      · rfl
      · simp [memGet, Ne.symm h]
    · split
      · rename_i h1 h2; subst h2
        split <;> simp [memGet, Ne.symm h]
      · unfold memGet; rw [ih]

theorem memGet_blank (lo k : Nat) (m : List Host.Cell) (h : Memory.wfFrom lo m = true) (hk : k < lo) : memGet m k = Memory.blank := by
  induction m generalizing lo with
  | nil => rfl
  | cons x t ih =>
    obtain ⟨a, b⟩ := x
    simp only [Memory.wfFrom, Bool.and_eq_true, decide_eq_true_eq] at h
    unfold memGet; rw [if_neg (by omega)]; exact ih (a + 1) h.2 (by omega)

theorem memGet_memSet_same (lo : Nat) (m : List Host.Cell) (k : Nat) (v : Byte) (h : Memory.wfFrom lo m = true) : memGet (memSet m k v) k = v := by
  induction m generalizing lo with
  | nil => unfold memSet; split <;> simp_all [memGet]
  | cons x t ih =>
    obtain ⟨a, b⟩ := x
    have h0 := h
    simp only [Memory.wfFrom, Bool.and_eq_true, decide_eq_true_eq] at h
    unfold memSet
    split
    · split
      · rename_i h1 h2; unfold memGet; rw [if_neg (by omega), h2]; exact memGet_blank (a + 1) k t h.2 (by omega)
      · simp [memGet]
    · split
      · rename_i h1 h2; subst h2; split
        · rename_i h3; rw [h3]; exact memGet_blank (k + 1) k t h.2 (by omega)
        · simp [memGet]
      · rename_i h1 h2; unfold memGet; rw [if_neg (Ne.symm h2)]; exact ih (a + 1) h.2

theorem memGet_memWrite_out (bs : List Byte) (m : List Host.Cell) (k j : Nat) (h : j < k ∨ k + bs.length ≤ j) : memGet (memWrite m k bs) j = memGet m j := by
  induction bs generalizing m k with
  | nil => rfl
  | cons b t ih =>
    unfold memWrite
    rw [ih _ _ (by simp only [List.length_cons] at h; omega), memGet_memSet_ne _ _ _ _ (by simp only [List.length_cons] at h; omega)]

theorem memGet_memWrite_in (bs : List Byte) (m : List Host.Cell) (k i : Nat) (b : Byte) (hm : Memory.wf m = true) (h : bs[i]? = some b) :
    memGet (memWrite m k bs) (k + i) = b := by
  induction bs generalizing m k i with
  | nil => cases h
  | cons x t ih =>
    unfold memWrite
    cases i with
    | zero =>
      cases h
      rw [memGet_memWrite_out _ _ _ _ (by omega)]; exact memGet_memSet_same 0 m k _ hm
    | succ i =>
      have := ih (memSet m k x) (k + 1) i (memSet_wf k x m hm) (by simpa using h)
      rw [← this]; congr 1; omega

theorem rekey_other (s : State) (b line j : Nat) (h : j / 256 ≠ line) : memGet (rekey s b line).mem j = memGet s.mem j := by
  unfold rekey
  split
  · rfl
  · split
    · rfl
    · split
      · rfl
      · dsimp only; apply memGet_memWrite_out; simp only [List.length_map, List.length_range]; omega

theorem rekey_keyed (s : State) (b line : Nat) (h : isCrypt (256 * line) = false ∨ aget s.lineKey line = none ∨ aget s.lineKey line = some b) :
    (rekey s b line).mem = s.mem ∧ ∀ i, i ≠ line → aget (rekey s b line).lineKey i = aget s.lineKey i := by
  unfold rekey
  by_cases h0 : isCrypt (256 * line) = false
  · rw [if_pos (by rw [h0]; rfl)]; exact ⟨rfl, fun _ _ => rfl⟩
  · rw [if_neg (by simpa using h0)]
    rcases h with h | h | h
    · exact absurd h h0
    · rw [h]; exact ⟨rfl, fun i hi => aget_aset_other _ _ _ _ hi⟩
    · rw [h]; dsimp only; rw [if_pos rfl]; exact ⟨rfl, fun _ _ => rfl⟩

theorem rekeys_other (l : List Nat) (s : State) (b n j : Nat) (h : ∀ i ∈ l, j / 256 ≠ n + i) :
    memGet (l.foldl (fun t i => rekey t b (n + i)) s).mem j = memGet s.mem j := by
  induction l generalizing s with
  | nil => rfl
  | cons i l ih =>
    rw [List.foldl_cons, ih _ (fun x hx => h x (List.mem_cons_of_mem _ hx)), rekey_other _ _ _ _ (h i List.mem_cons_self)]

theorem rekeys_keyed (l : List Nat) (hl : l.Nodup) (s : State) (b n : Nat)
    (h : ∀ i ∈ l, isCrypt (256 * (n + i)) = false ∨ aget s.lineKey (n + i) = none ∨ aget s.lineKey (n + i) = some b) :
    (l.foldl (fun t i => rekey t b (n + i)) s).mem = s.mem := by
  induction l generalizing s with
  | nil => rfl
  | cons i l ih =>
    obtain ⟨h1, h2⟩ := rekey_keyed s b (n + i) (h i List.mem_cons_self)
    rw [List.nodup_cons] at hl
    rw [List.foldl_cons, ih hl.2, h1]
    intro x hx
    have hne : n + x ≠ n + i := by
      intro e; have : x = i := by omega
      exact hl.1 (this ▸ hx)
    rw [h2 _ hne]; exact h x (List.mem_cons_of_mem _ hx)

theorem rekeys_canon (l : List Nat) (s : State) (b n : Nat) (h : s.Canonical) : (l.foldl (fun t i => rekey t b (n + i)) s).Canonical := by
  induction l generalizing s with
  | nil => exact h
  | cons i l ih => rw [List.foldl_cons]; exact ih _ (rekey_canon _ _ _ h)

theorem watchWrite_mk (s : State) (k n : Nat) : (watchWrite s k n).mem = s.mem ∧ (watchWrite s k n).lineKey = s.lineKey := by
  unfold watchWrite
  split
  · exact ⟨rfl, rfl⟩
  · dsimp only
    split
    · exact ⟨rfl, rfl⟩
    · have hw : ∀ (s : State) p g, (watchHit s p g).mem = s.mem ∧ (watchHit s p g).lineKey = s.lineKey := by
        intro s p g; unfold watchHit; dsimp only; (repeat' split) <;> exact ⟨rfl, rfl⟩
      split
      · exact hw _ _ _
      · exact ⟨(hw _ _ _).1.trans (hw _ _ _).1, (hw _ _ _).2.trans (hw _ _ _).2⟩

theorem devWrite_reads (s : State) (b k : Nat) (bs : List Byte) (hs : s.Canonical) (h0 : bs ≠ []) :
    (∀ j, j / 256 < k / 256 ∨ (k + bs.length - 1) / 256 < j / 256 → memGet (devWrite s b k bs false).mem j = memGet s.mem j) ∧
    (KeyedUnder s b k bs.length →
      (∀ i v, bs[i]? = some v → memGet (devWrite s b k bs false).mem (k + i) = v) ∧
      (∀ j, j < k ∨ k + bs.length ≤ j → memGet (devWrite s b k bs false).mem j = memGet s.mem j)) := by
  have hlen : 0 < bs.length := List.length_pos_iff.mpr h0
  obtain ⟨hw1, hw2⟩ := watchWrite_mk s k bs.length
  have hd : (devWrite s b k bs false).mem =
      memWrite ((List.range ((k + bs.length - 1) / 256 - k / 256 + 1)).foldl (fun t i => rekey t b (k / 256 + i)) (watchWrite s k bs.length)).mem k bs := by
    unfold devWrite; rw [if_neg (by simpa using h0)]; rfl
  rw [hd]
  refine ⟨fun j hj => ?_, fun hk => ?_⟩
  · rw [memGet_memWrite_out _ _ _ _ (by omega), rekeys_other, hw1]
    intro i hi; rw [List.mem_range] at hi; omega
  · have hm := rekeys_keyed (List.range ((k + bs.length - 1) / 256 - k / 256 + 1)) List.nodup_range (watchWrite s k bs.length) b (k / 256)
      (fun i hi => by rw [List.mem_range] at hi; rw [hw2]; exact hk _ (by omega) (by omega))
    rw [hm, hw1]
    exact ⟨fun i v hv => memGet_memWrite_in bs s.mem k i v hs.mem hv, fun j hj => memGet_memWrite_out bs s.mem k j hj⟩

theorem queuePut_full (s : State) (p n size : Nat) (q : NQueue) (bs : List Byte) (h : q.isFull n = true) : queuePut s p q n size bs = none := by
  unfold queuePut; rw [if_pos (by simp [h])]

theorem countAccess_quiet (s : State) (part sp va : Nat) (big : Bool) (tgt : Nat) (h : (partAt s part).mnq.isFull (mnqCount (partAt s part)) = true) :
    (countAccess s part sp va big tgt).mem = s.mem := by
  unfold countAccess; dsimp only
  split
  · rfl
  · rw [queuePut_full _ _ _ _ _ _ h]; rfl

theorem countReq_quiet (s : State) (q : MemReq) (h : (partAt s q.part).mnq.isFull (mnqCount (partAt s q.part)) = true) : (countReq s q).mem = s.mem := by
  unfold countReq; dsimp only
  (repeat' split) <;> first | rfl | exact countAccess_quiet _ _ _ _ _ _ h

end Sys2Proof.Laws
end

