-- ==== Sys2Proof/Tests/Slice0.lean ====
section
/-! SUPPORT. Tests: for every obligation with hypotheses, states that meet them; words of the encoding tables and what they decode to; worked results of the
specification; ill-formed terms. `meets_X` belongs to the obligations its name and clauses follow. -/

set_option Elab.async false

namespace Sys2Proof.Tests
open Machine

/-! ### States that the tests run -/

/-- The cell context that the node tests run. -/
def u0 : UnitId := ⟨plantReg, ⟨0, 0⟩, 0⟩
/-- A node word that reads ports A to C and drives both outputs. -/
def w0 : NodeWord :=
  { fmt := .n32, rnd := .rne, sat := false, srcA := .a, srcB := .b, srcC := .c, dx := true, dy := true, dl := false, la := 0, ld := 0, aux := 0, imm := 0 }
def d5 : Beat := dataBeat 5 0xFF 0 0
/-- A state whose node has these heads at its input ports, this operation state, these fields and segments. -/
def tst (ins : List (List Beat)) (op : OpState) (fs : Fields) (segs : List SegState) : State :=
  let links := (ins.zip (List.range 4)).map fun x => plantLink (plantEnd 1 0 false 4) (plantEnd 0 0 false x.2) x.1
  let outs := (List.range 2).map fun q => plantLink (plantEnd 0 0 false (4 + q)) (plantEnd 2 0 false q) []
  { State.reset with
    actor := .node u0,
    regions := [{ plantRegion with plane := [(0, fs)], cells := [(0, { segs := segs ++ List.replicate (8 - segs.length) {}, ctxs := [{ op := op }] })],
                                   links := links ++ outs }] }
def env (s : State) (w : NodeWord) : Env := (nodeEnv s u0 w).getD default
/-- Data at every port. -/
def s0 : State := tst [[d5], [d5], [d5], [d5]] {} [] []
def readyB (s : State) (w : NodeWord) (ports held : List Nat) (late : Bool) : Bool :=
  decide (s.actor = .node u0) && (nodeEnv s u0 w).isSome && (env s w).cs.op.owe.isEmpty &&
    ports.all (fun p => decide ((env s w).checkPort p late = .fine)) && held.all (fun p => ((env s w).resolveAt p).isNone) &&
    !(env s w).unmatched 0 1 && !(env s w).unmatched 2 3
theorem ready {s : State} {w : NodeWord} {ports held : List Nat} {late : Bool} (h : readyB s w ports held late = true) :
    NodeReady s u0 w (env s w) ports held late := by
  simp only [readyB, Bool.and_eq_true, decide_eq_true_eq, List.all_eq_true, Bool.not_eq_true', Option.isNone_iff_eq_none, List.isEmpty_iff] at h
  obtain ⟨⟨⟨⟨⟨⟨h1, h2⟩, h3⟩, h4⟩, h5⟩, h6⟩, h7⟩ := h
  refine ⟨h1, ?_, h3, h4, h5, h6, h7⟩
  obtain ⟨e, he⟩ := Option.isSome_iff_exists.mp h2
  unfold env; rw [he]; rfl
theorem data {s : State} {w : NodeWord} {ports held : List Nat} (h : (readyB s w ports held false && (env s w).allData ports && decide ((env s w).lackRates = [])) = true) :
    DataReady s u0 w (env s w) ports held := by
  simp only [Bool.and_eq_true, decide_eq_true_eq] at h
  exact ⟨ready h.1.1, h.1.2, h.2⟩
theorem room0 (x y : Beat) : (env s0 w0).lack [x] [y] = [] := by rfl
theorem test_element : ∃ s u w e h, DataReady s u w e (srcPorts w) [] ∧ (srcPorts w).head?.bind e.head = some h ∧
    (e.operands (bits w) (srcsABC w)).any Operand.badBank = false ∧ ∀ b, e.lack [b] [b] = [] :=
  ⟨s0, u0, w0, env s0 w0, d5, data (by decide), by rfl, by decide, fun b => room0 b b⟩

/-! ### Arithmetic, lanes, reductions, passing and merging -/

/-- Data of other values and bits, stops and marks. -/
def d0 : Beat := dataBeat 0 0xFF 0 0
def m0 : Beat := markBeat 1 0 0
def f0 : NodeWord := { w0 with fmt := .fp32 }
def ElementMeets (n : NodeWord → Nat) (srcs : NodeWord → List Src) : Prop :=
  ∃ s u w e h, DataReady s u w e (srcPorts w) [] ∧ (srcPorts w).head?.bind e.head = some h ∧
    (e.operands (n w) (srcs w)).any Operand.badBank = false ∧ ∀ b, e.lack [b] [b] = []
/-- An op on raw bits whose first port a link of 8-bit elements feeds. -/
def rawW : NodeWord := { w0 with fmt := .raw }
def sRaw : State := { s0 with regions := s0.regions.map fun g => { g with links := g.links.map fun l => { l with fmtS := .i8 } } }
theorem meets_rawResults : ∃ s u w e h, DataReady s u w e (srcPorts w) [] ∧ (srcPorts w).head?.bind e.head = some h ∧ rawBits w e = 8 ∧
    (e.operands (rawBits w e) (srcsABC w)).any Operand.badBank = false ∧ ((srcsA w).map fun x => e.operand x (rawBits w e)).any Operand.badBank = false ∧
    ((srcsAB w).map fun x => e.operand x (rawBits w e)).any Operand.badBank = false ∧ ∀ x y, e.lack [x] [y] = [] :=
  ⟨sRaw, u0, rawW, env sRaw rawW, d5, data (by decide), by rfl, by decide, by decide, by decide, by decide, fun _ _ => by rfl⟩
theorem meets_integerResults : ElementMeets bits srcsA ∧ ElementMeets bits srcsAB ∧ ElementMeets bits srcsABC :=
  ⟨⟨s0, u0, w0, env s0 w0, d5, data (by decide), by rfl, by decide, fun _ => by rfl⟩, ⟨s0, u0, w0, env s0 w0, d5, data (by decide), by rfl, by decide, fun _ => by rfl⟩,
    ⟨s0, u0, w0, env s0 w0, d5, data (by decide), by rfl, by decide, fun _ => by rfl⟩⟩
theorem meets_floatResults : ElementMeets fbits srcsA ∧ ElementMeets fbits srcsAB ∧ ElementMeets fbits srcsABC :=
  ⟨⟨s0, u0, f0, env s0 f0, d5, data (by decide), by rfl, by decide, fun _ => by rfl⟩, ⟨s0, u0, f0, env s0 f0, d5, data (by decide), by rfl, by decide, fun _ => by rfl⟩,
    ⟨s0, u0, f0, env s0 f0, d5, data (by decide), by rfl, by decide, fun _ => by rfl⟩⟩
theorem meets_laneMoves : ∃ s u w e h, DataReady s u w e (srcPorts w) [] ∧ (srcPorts w).head?.bind e.head = some h ∧
    ((srcsA w).map fun x => e.operand x (bits w)).any Operand.badBank = false ∧
    ((srcsAB w).map fun x => e.operand x (bits w)).any Operand.badBank = false ∧ ∀ x y, e.lack [x] [y] = [] :=
  ⟨s0, u0, w0, env s0 w0, d5, data (by decide), by rfl, by decide, by decide, fun _ _ => by rfl⟩
/-- CVT from N32 to N32, and from N32 to N16 with one beat held; QPACK and QUNPK of E2M1Q with groups that are open and complete. -/
def wEq : NodeWord := { w0 with aux := 5 }
def wNarrow : NodeWord := { w0 with fmt := .n16, aux := 5 }
def wQ : NodeWord := { w0 with fmt := .fp32, aux := 12 }
def sHeld (l : List Beat) : State := tst [[d5], [d5], [d5], [d5]] { held := l } [] []
theorem meets_conversions :
    (∃ s u w e b, DataReady s u w e [portA w] [] ∧ fmtCount w.fmt / fmtCount (fmt2 w) ≤ 1 ∧ e.head (portA w) = some b ∧
      e.lack (convertBeats (fmt2 w) w.fmt w.rnd w.sat (cvtK w) [b]).1 (convertBeats (fmt2 w) w.fmt w.rnd w.sat (cvtK w) [b]).1 = []) ∧
    (∃ s u w e b, NodeReady s u w e [portA w] [portA w] false ∧ e.lackRates = [] ∧ e.head (portA w) = some b ∧ b.isData = true ∧
      1 < fmtCount w.fmt / fmtCount (fmt2 w) ∧ (e.cs.op.held ++ [b]).length < fmtCount w.fmt / fmtCount (fmt2 w)) ∧
    (∃ s u w e b, NodeReady s u w e [portA w] [portA w] false ∧ e.lackRates = [] ∧ e.head (portA w) = some b ∧ b.isData = true ∧
      1 < fmtCount w.fmt / fmtCount (fmt2 w) ∧ fmtCount w.fmt / fmtCount (fmt2 w) ≤ (e.cs.op.held ++ [b]).length ∧
      e.lack (convertBeats (fmt2 w) w.fmt w.rnd w.sat (cvtK w) (e.cs.op.held ++ [b])).1 (convertBeats (fmt2 w) w.fmt w.rnd w.sat (cvtK w) (e.cs.op.held ++ [b])).1 = []) ∧
    (∃ s u w e b, NodeReady s u w e [portA w] [portA w] false ∧ e.lackRates = [] ∧ e.head (portA w) = some b ∧ b.isData = true ∧
      (e.cs.op.held ++ [b]).length < 128 / fmtCount (fmt2 w)) ∧
    (∃ s u w e b, NodeReady s u w e [portA w] [portA w] false ∧ e.lackRates = [] ∧ e.head (portA w) = some b ∧ b.isData = true ∧
      128 / fmtCount (fmt2 w) ≤ (e.cs.op.held ++ [b]).length ∧
      e.lack (quadGroup w.fmt (fmt2 w) w.rnd (e.cs.op.held ++ [b])).1 (quadGroup w.fmt (fmt2 w) w.rnd (e.cs.op.held ++ [b])).1 = []) ∧
    (∃ s u w e b, NodeReady s u w e [portA w] [portA w] false ∧ e.lackRates = [] ∧ e.head (portA w) = some b ∧ b.isData = true ∧
      e.cs.op.held = [] ∧ b.valid = 0xFF) ∧
    (∃ s u w e b scale rest, NodeReady s u w e [portA w] [portA w] false ∧ e.lackRates = [] ∧ e.head (portA w) = some b ∧ b.isData = true ∧
      e.cs.op.held = scale :: rest ∧ ∀ x xs, e.lack (x :: xs) (x :: xs) = []) :=
  ⟨⟨s0, u0, wEq, env s0 wEq, d5, data (by decide), by decide, by rfl, by decide⟩,
    ⟨s0, u0, wNarrow, env s0 wNarrow, d5, ready (by decide), by decide, by rfl, by rfl, by decide, by decide⟩,
    ⟨sHeld [d5], u0, wNarrow, env (sHeld [d5]) wNarrow, d5, ready (by decide), by decide, by rfl, by rfl, by decide, by decide, by decide⟩,
    ⟨s0, u0, { w0 with aux := 5 }, env s0 { w0 with aux := 5 }, d5, ready (by decide), by decide, by rfl, by rfl, by decide⟩,
    ⟨sHeld [d5], u0, wQ, env (sHeld [d5]) wQ, d5, ready (by decide), by decide, by rfl, by rfl, by decide, by decide⟩,
    ⟨s0, u0, wQ, env s0 wQ, d5, ready (by decide), by decide, by rfl, by rfl, by rfl, by rfl⟩,
    ⟨sHeld [d0], u0, wQ, env (sHeld [d0]) wQ, d5, d0, [], ready (by decide), by decide, by rfl, by rfl, by rfl, fun _ _ => by rfl⟩⟩
def dNone : Beat := dataBeat 0 0 0 0
def sNone : State := tst [[dNone], [d5], [d5], [d5]] {} [] []
theorem meets_reductions :
    (∃ s u w e h, DataReady s u w e [portA w] [] ∧ e.head (portA w) = some h ∧ (beatElems (bits w) h).filterMap id ≠ [] ∧ ∀ b, e.lack [b] [b] = []) ∧
    (∃ s u w e h, DataReady s u w e [portA w] [] ∧ e.head (portA w) = some h ∧ (beatElems (bits w) h).filterMap id = [] ∧ ∀ b, e.lack [b] [b] = []) :=
  ⟨⟨s0, u0, w0, env s0 w0, d5, data (by decide), by rfl, by decide, fun _ => by rfl⟩,
    ⟨sNone, u0, w0, env sNone w0, dNone, data (by decide), by rfl, by decide, fun _ => by rfl⟩⟩
def sStop (k : Nat) (op : OpState) : State := tst [[stopBeat k 0], [d5], [d5], [d5]] op [] []
def w1 : NodeWord := { w0 with aux := 1 }
theorem meets_accumulations :
    (∃ s u w e b, NodeReady s u w e [portA w] [portA w] false ∧ e.lackRates = [] ∧ e.head (portA w) = some b ∧ b.isData = true ∧ ∀ x, e.lack [x] [x] = []) ∧
    (∃ s u w e b, NodeReady s u w e [portA w] [portA w] false ∧ e.head (portA w) = some b ∧ b.isData = false ∧ b.isStop = true ∧ b.level.toNat < auxLevel w ∧
      ∀ x, e.lack [x] [x] = []) ∧
    (∃ s u w e b, NodeReady s u w e [portA w] [portA w] false ∧ e.head (portA w) = some b ∧ b.isData = false ∧ b.isStop = true ∧ auxLevel w = b.level.toNat ∧
      ∀ x, e.lack [x] [x] = []) ∧
    (∃ s u w e b, NodeReady s u w e [portA w] [portA w] false ∧ e.head (portA w) = some b ∧ b.isData = false ∧ b.isStop = true ∧ auxLevel w < b.level.toNat ∧
      ∀ x y, e.lack [x, y] [x, y] = []) :=
  ⟨⟨s0, u0, w0, env s0 w0, d5, ready (by decide), by decide, by rfl, by rfl, fun _ => by rfl⟩,
    ⟨sStop 0 {}, u0, w1, env (sStop 0 {}) w1, stopBeat 0 0, ready (by decide), by rfl, by rfl, by rfl, by decide, fun _ => by rfl⟩,
    ⟨sStop 1 {}, u0, w1, env (sStop 1 {}) w1, stopBeat 1 0, ready (by decide), by rfl, by rfl, by rfl, by decide, fun _ => by rfl⟩,
    ⟨sStop 2 {}, u0, w1, env (sStop 2 {}) w1, stopBeat 2 0, ready (by decide), by rfl, by rfl, by rfl, by decide, fun _ _ => by rfl⟩⟩
def sZero : State := tst [[d5], [d0], [d0], [d5]] {} [] []
theorem meets_passing :
    (∃ s u w e d, DataReady s u w e [portA w] [] ∧ e.head (portA w) = some d ∧ e.lack [d] [d] = []) ∧
    (∃ s u w e d, NodeReady s u w e [portA w] [portA w] false ∧ e.head (portA w) = some d ∧ d.isData = true ∧ e.lackRates = [] ∧ e.lack [d] [d] = []) ∧
    (∃ s u w e d c, DataReady s u w e [portA w, portB w] [portB w] ∧ e.head (portA w) = some d ∧ e.head (portB w) = some c ∧ c.ctl ≠ 0 ∧
      e.lack [steered d c] [steered d c] = []) ∧
    (∃ s u w e d c, DataReady s u w e [portA w, portB w] [portB w] ∧ e.head (portA w) = some d ∧ e.head (portB w) = some c ∧ c.ctl = 0) ∧
    (∃ s u w e d, NodeReady s u w e [portA w] [] false ∧ e.head (portA w) = some d ∧ d.isData = true ∧ e.lackRates = [] ∧ d.valid = 0) ∧
    (∃ s u w e d, NodeReady s u w e [portA w] [] false ∧ e.head (portA w) = some d ∧ d.isData = true ∧ e.lackRates = [] ∧ d.valid ≠ 0 ∧ e.lack [d] [d] = []) :=
  ⟨⟨s0, u0, w0, env s0 w0, d5, data (by decide), by rfl, by decide⟩, ⟨s0, u0, w0, env s0 w0, d5, ready (by decide), by rfl, by rfl, by decide, by decide⟩,
    ⟨s0, u0, w0, env s0 w0, d5, d5, data (by decide), by rfl, by rfl, by decide, by decide⟩,
    ⟨sZero, u0, w0, env sZero w0, d5, d0, data (by decide), by rfl, by rfl, by decide⟩,
    ⟨sNone, u0, w0, env sNone w0, dNone, ready (by decide), by rfl, by rfl, by decide, by rfl⟩,
    ⟨s0, u0, w0, env s0 w0, d5, ready (by decide), by rfl, by rfl, by decide, by decide, by decide⟩⟩
def sTurn (n : Nat) : State := tst [[d5], [d5], [d5], [d5]] { turn := n } [] []
def sHeldZero : State := tst [[d5], [d0], [d5], [d5]] { held := [d5] } [] []
def w9 : NodeWord := { w0 with imm := 9 }
theorem meets_steering :
    (∃ s u w e d c, NodeReady s u w e [portA w, portB w] [portB w] false ∧ e.head (portA w) = some d ∧ e.head (portB w) = some c ∧ d.isData = true ∧ c.isData = true ∧
      e.cs.op.held = [] ∧ e.lackRates = [] ∧ c.ctl ≠ 0 ∧ e.lack [steered d c] [] = []) ∧
    (∃ s u w e d c, NodeReady s u w e [portA w, portB w] [portB w] false ∧ e.head (portA w) = some d ∧ e.head (portB w) = some c ∧ d.isData = true ∧ c.isData = true ∧
      e.cs.op.held = [] ∧ e.lackRates = [] ∧ c.ctl = 0 ∧ e.lack [] [steered d c] = []) ∧
    (∀ arm zero, arm < 2 → ∃ s u w e c h t, NodeReady s u w e [portA w, portB w] [portB w] false ∧ e.head (portB w) = some c ∧ c.isData = true ∧
      e.cs.op.held = h :: t ∧ w.aux.toNat % 2 = arm ∧ (c.ctl = 0 ↔ zero = true) ∧ ∀ x y, e.lack [x] [] = [] ∧ e.lack [] [y] = [] ∧ e.lack [x] [y] = []) ∧
    (∃ s u w e d, DataReady s u w e [portA w] [] ∧ e.head (portA w) = some d ∧ e.cs.op.turn < w.aux.toNat % 8 + 1 ∧ e.lack [d] [] = []) ∧
    (∃ s u w e d, DataReady s u w e [portA w] [] ∧ e.head (portA w) = some d ∧ w.aux.toNat % 8 + 1 ≤ e.cs.op.turn ∧ e.lack [] [d] = []) ∧
    (∃ s u w e d c, NodeReady s u w e [portA w, portB w] [portA w, portB w] false ∧ e.head (portA w) = some d ∧ e.head (portB w) = some c ∧ d.isData = true ∧
      c.isData = true ∧ c.ctl < w.imm.toNat % 2 ^ 9 ∧ e.lackRates = [] ∧ ∀ x y, e.lack [x] [y] = []) :=
  ⟨⟨s0, u0, w0, env s0 w0, d5, d5, ready (by decide), by rfl, by rfl, by rfl, by rfl, by rfl, by decide, by decide, by decide⟩,
    ⟨sZero, u0, w0, env sZero w0, d5, d0, ready (by decide), by rfl, by rfl, by rfl, by rfl, by rfl, by decide, by decide, by decide⟩,
    fun arm zero h => match arm, zero with
      | 0, false => ⟨sHeld [d5], u0, w0, env (sHeld [d5]) w0, d5, d5, [], ready (by decide), by rfl, by rfl, by rfl, by rfl, by decide, fun _ _ => ⟨by rfl, by rfl, by rfl⟩⟩
      | 0, true => ⟨sHeldZero, u0, w0, env sHeldZero w0, d0, d5, [], ready (by decide), by rfl, by rfl, by rfl, by rfl, by decide, fun _ _ => ⟨by rfl, by rfl, by rfl⟩⟩
      | 1, false => ⟨sHeld [d5], u0, w1, env (sHeld [d5]) w1, d5, d5, [], ready (by decide), by rfl, by rfl, by rfl, by rfl, by decide, fun _ _ => ⟨by rfl, by rfl, by rfl⟩⟩
      | 1, true => ⟨sHeldZero, u0, w1, env sHeldZero w1, d0, d5, [], ready (by decide), by rfl, by rfl, by rfl, by rfl, by decide, fun _ _ => ⟨by rfl, by rfl, by rfl⟩⟩
      | _ + 2, _ => absurd h (by omega),
    ⟨s0, u0, w0, env s0 w0, d5, data (by decide), by rfl, by decide, by decide⟩,
    ⟨sTurn 1, u0, w0, env (sTurn 1) w0, d5, data (by decide), by rfl, by decide, by decide⟩,
    ⟨s0, u0, w9, env s0 w9, d5, d5, ready (by decide), by rfl, by rfl, by rfl, by rfl, by decide, by decide, fun _ _ => by rfl⟩⟩
def w3 : NodeWord := { w0 with aux := 3 }
def sOwn : State := tst [[d0, d5], [d5], [d5], [d5]] {} [] []
def wSel : NodeWord := { w0 with aux := 3, srcA := .c }
theorem meets_merges :
    (∃ s u w e p d, NodeReady s u w e (mergePorts w) [] false ∧
      (if e.cs.op.turn = 0 then mergePorts w else afterPort (mergePorts w) (e.cs.op.turn - 1)).find? (fun q => (e.head q).any Beat.isData) = some p ∧
      e.head p = some d ∧ e.lack [d] [d] = []) ∧
    (∃ s u w e d, NodeReady s u w e (mergePorts w) [] false ∧ e.head ((mergePorts w).getD (e.cs.op.turn % (mergePorts w).length) 0) = some d ∧ d.isData = true ∧
      e.lack [d] [d] = []) ∧
    (∀ own, ∃ s u w e c d, NodeReady s u w e (portA w :: mergePorts w) [portA w] false ∧ e.head (portA w) = some c ∧ c.isData = true ∧
      c.ctl ∈ mergePorts w ∧ (c.ctl = portA w ↔ own = true) ∧ (if c.ctl = portA w then (e.heads (portA w))[1]? else e.head c.ctl) = some d ∧
      d.isData = true ∧ e.lack [steered d c] [steered d c] = []) :=
  ⟨⟨sTurn 1, u0, w3, env (sTurn 1) w3, 1, d5, ready (by decide), by decide, by rfl, by decide⟩,
    ⟨sTurn 3, u0, w3, env (sTurn 3) w3, d5, ready (by decide), by rfl, by rfl, by decide⟩,
    fun own => match own with
      | false => ⟨sZero, u0, wSel, env sZero wSel, d0, d5, ready (by decide), by rfl, by rfl, by decide, by decide, by rfl, by rfl, by decide⟩
      | true => ⟨sOwn, u0, w3, env sOwn w3, d0, d5, ready (by decide), by rfl, by rfl, by decide, by decide, by rfl, by rfl, by decide⟩⟩

/-! ### Sources, tags, markers, banks, tiles, buffers, system -/

def sOp (op : OpState) : State := tst [[d5], [d5], [d5], [d5]] op [] []
def sSegs (op : OpState) (f : BitVec 24) (g : SegState) : State := tst [[d5], [d5], [d5], [d5]] op [(48, f)] [g]
/-- No beat at any port. -/
def sEmpty (op : OpState) (f : BitVec 24) (g : SegState) : State := tst [[], [], [], []] op [(48, f)] [g]
theorem meets_sources :
    (∃ s u w e inv, NodeReady s u w e [] [] false ∧ e.rg.sourceOpen false = some inv ∧ e.cs.op.eoi = false ∧ e.cs.op.cnt < inv.entry.tiles ∧ e.lackRates = [] ∧
      ∀ b, e.lack [b] [b] = []) ∧
    (∃ s u w e inv, NodeReady s u w e [] [] false ∧ e.rg.sourceOpen false = some inv ∧ e.cs.op.eoi = false ∧ inv.entry.tiles ≤ e.cs.op.cnt ∧
      ∀ b, e.lack [b] [b] = []) ∧
    (∃ s u w e d, NodeReady s u w e [portA w, portB w, portC w] [portA w, portB w, portC w] false ∧ e.cs.op.phase = false ∧ e.cs.op.eoi = false ∧
      e.head (portA w) = some d ∧ d.isData = true ∧ e.lackRates = [] ∧ e.lack [d] [d] = []) ∧
    (∃ s u w e p d, NodeReady s u w e [portA w, portB w, portC w] [portA w, portB w, portC w] false ∧ e.cs.op.phase = true ∧ e.head (portB w) = some p ∧
      p.isData = true ∧ e.head (portC w) = some d ∧ d.isData = true ∧ p.ctl = 0) ∧
    (∃ s u w e p d, NodeReady s u w e [portA w, portB w, portC w] [portA w, portB w, portC w] false ∧ e.cs.op.phase = true ∧ e.head (portB w) = some p ∧
      p.isData = true ∧ e.head (portC w) = some d ∧ d.isData = true ∧ p.ctl ≠ 0 ∧ e.lackRates = [] ∧ e.lack [steered d p] [steered d p] = []) ∧
    (∃ s u w e d, NodeReady s u w e [portA w, portB w] [portA w, portB w] false ∧ e.cs.op.phase = false ∧ e.head (portA w) = some d ∧ d.isData = true ∧
      e.lackRates = [] ∧ e.lack [d] [d] = []) ∧
    (∃ s u w e p d t, NodeReady s u w e [portA w, portB w] [portA w, portB w] false ∧ e.cs.op.phase = true ∧ e.cs.op.held = d :: t ∧ e.head (portB w) = some p ∧
      p.isData = true ∧ p.ctl = 0) ∧
    (∃ s u w e p d t, NodeReady s u w e [portA w, portB w] [portA w, portB w] false ∧ e.cs.op.phase = true ∧ e.cs.op.held = d :: t ∧ e.head (portB w) = some p ∧
      p.isData = true ∧ p.ctl ≠ 0 ∧ e.lackRates = [] ∧ e.lack [steered d p] [steered d p] = []) :=
  ⟨⟨s0, u0, w0, env s0 w0, plantInv, ready (by decide), by rfl, by rfl, by decide, by decide, fun _ => by rfl⟩,
    ⟨sOp { cnt := 1 }, u0, w0, env (sOp { cnt := 1 }) w0, plantInv, ready (by decide), by rfl, by rfl, by decide, fun _ => by rfl⟩,
    ⟨s0, u0, w0, env s0 w0, d5, ready (by decide), by rfl, by rfl, by rfl, by rfl, by decide, by decide⟩,
    ⟨tst [[d5], [d0], [d5], [d5]] { phase := true } [] [], u0, w0, env (tst [[d5], [d0], [d5], [d5]] { phase := true } [] []) w0, d0, d5,
      ready (by decide), by rfl, by rfl, by rfl, by rfl, by rfl, by decide⟩,
    ⟨sOp { phase := true }, u0, w0, env (sOp { phase := true }) w0, d5, d5, ready (by decide), by rfl, by rfl, by rfl, by rfl, by rfl, by decide, by decide, by decide⟩,
    ⟨s0, u0, w0, env s0 w0, d5, ready (by decide), by rfl, by rfl, by rfl, by decide, by decide⟩,
    ⟨tst [[d5], [d0], [d5], [d5]] { phase := true, held := [d5] } [] [], u0, w0, env (tst [[d5], [d0], [d5], [d5]] { phase := true, held := [d5] } [] []) w0, d0, d5, [],
      ready (by decide), by rfl, by rfl, by rfl, by rfl, by decide⟩,
    ⟨sOp { phase := true, held := [d5] }, u0, w0, env (sOp { phase := true, held := [d5] }) w0, d5, d5, [], ready (by decide), by rfl, by rfl, by rfl, by rfl,
      by decide, by decide, by decide⟩⟩
theorem meets_repeat :
    (∃ s u w e c, NodeReady s u w e [portA w, portB w] [portA w, portB w] false ∧ e.cs.op.any = false ∧ e.head (portB w) = some c ∧ c.isData = true) ∧
    (∃ s u w e d, NodeReady s u w e [portA w, portB w] [portA w, portB w] false ∧ e.cs.op.any = true ∧ e.cs.op.turn = 0 ∧ e.head (portA w) = some d ∧ d.isData = true ∧
      e.cs.op.next ≠ 0 ∧ (segAt e.cell (segNo w)).beats.length < (segDesc e.rg.plane e.off (segNo w)).size ∧ ∀ x, e.lack [x] [x] = []) ∧
    (∃ s u w e d, NodeReady s u w e [portA w, portB w] [portA w, portB w] false ∧ e.cs.op.any = true ∧ e.cs.op.turn ≠ 0 ∧
      (segAt e.cell (segNo w)).beats[e.cs.op.pos]? = some d ∧ ∀ x, e.lack [x] [x] = []) :=
  ⟨⟨s0, u0, w0, env s0 w0, d5, ready (by decide), by rfl, by rfl, by rfl⟩,
    ⟨sSegs { any := true, next := 2 } 0x600000 {}, u0, w0, env (sSegs { any := true, next := 2 } 0x600000 {}) w0, d5, ready (by decide), by rfl, by rfl, by rfl, by rfl,
      by decide, by decide, fun _ => by rfl⟩,
    ⟨sSegs { any := true, turn := 1 } 0x600000 { beats := [d5] }, u0, w0, env (sSegs { any := true, turn := 1 } 0x600000 { beats := [d5] }) w0, d5, ready (by decide),
      by rfl, by decide, by rfl, fun _ => by rfl⟩⟩
theorem meets_tags :
    (∃ s u w e d, NodeReady s u w e [portA w] [portA w] false ∧ e.head (portA w) = some d ∧ d.isData = true ∧ e.lackRates = [] ∧ ∀ x, e.lack [x] [x] = []) ∧
    (∃ s u w e d, NodeReady s u w e [portA w] [portA w] false ∧ e.head (portA w) = some d ∧ d.isData = true ∧
      (d.tag.toNat + 2 ^ 14 - (w.imm.toNat / 8 % 2 ^ 14 + e.cs.op.next) % 2 ^ 14) % 2 ^ 14 < (segDesc e.rg.plane e.off (segNo w)).size ∧
      aget (segAt e.cell (segNo w)).slots (d.tag.toNat % (segDesc e.rg.plane e.off (segNo w)).size) = none ∧
      ∀ b, aget (segAt e.cell (segNo w)).slots ((w.imm.toNat / 8 % 2 ^ 14 + e.cs.op.next) % 2 ^ 14 % (segDesc e.rg.plane e.off (segNo w)).size) = some b →
        e.lack [b] [b] ≠ []) ∧
    (∃ s u w e b, NodeReady s u w e [portA w] [portA w] false ∧
      aget (segAt e.cell (segNo w)).slots ((w.imm.toNat / 8 % 2 ^ 14 + e.cs.op.next) % 2 ^ 14 % (segDesc e.rg.plane e.off (segNo w)).size) = some b ∧
      e.lack [b] [b] = []) :=
  ⟨⟨s0, u0, w0, env s0 w0, d5, ready (by decide), by rfl, by rfl, by decide, fun _ => by rfl⟩,
    ⟨sSegs {} 0x600000 {}, u0, w0, env (sSegs {} 0x600000 {}) w0, d5, ready (by decide), by rfl, by rfl, by decide, by decide, fun _ h => nomatch h⟩,
    ⟨sEmpty { next := 15 } 0x600000 { slots := [(15, d5)] }, u0, w0, env (sEmpty { next := 15 } 0x600000 { slots := [(15, d5)] }) w0, d5, ready (by decide),
      by decide, by decide⟩⟩
def wImm (n : Nat) : NodeWord := { w0 with imm := BitVec.ofNat 32 n }
theorem meets_markers :
    (∃ s u w e d, NodeReady s u w e [portA w] [portA w] false ∧ e.head (portA w) = some d ∧ d.isData = true ∧ e.lackRates = [] ∧
      e.cs.op.cnt + 1 ≠ w.imm.toNat % 2 ^ 16 ∧ ∀ x, e.lack [x] [x] = []) ∧
    (∃ s u w e d, NodeReady s u w e [portA w] [portA w] false ∧ e.head (portA w) = some d ∧ d.isData = true ∧ e.lackRates = [] ∧
      e.cs.op.cnt + 1 = w.imm.toNat % 2 ^ 16 ∧ ∀ x y, e.lack [x, y] [x, y] = []) ∧
    (∃ s u w e d, NodeReady s u w e [portA w] [] false ∧ e.head (portA w) = some d ∧ d.isData = true ∧ e.lackRates = [] ∧ e.lack [d] [d] = []) ∧
    (∃ s u w e d, NodeReady s u w e [portA w] [] false ∧ e.head (portA w) = some d ∧ d.isData = false ∧ d.isStop = true ∧ d.level.toNat = auxLevel w) ∧
    (∃ s u w e d, NodeReady s u w e [portA w] [] false ∧ e.head (portA w) = some d ∧ d.isData = false ∧ d.isStop = true ∧ auxLevel w + 1 = d.level.toNat ∧
      ∀ x, e.lack [x] [x] = []) ∧
    (∃ s u w e d, NodeReady s u w e [portA w] [] false ∧ e.head (portA w) = some d ∧ d.isData = false ∧ d.isStop = true ∧ d.level.toNat + auxLevel w = 7 ∧
      ∀ x, e.lack [x] [x] = []) ∧
    (∃ s u w e d, NodeReady s u w e [portA w, portB w] [portA w, portB w] false ∧ e.head (portA w) = some d ∧ d.isEoi = false ∧ e.room 0 [d] = true) ∧
    (∃ s u w e d, NodeReady s u w e [portA w] [portA w] false ∧ e.head (portA w) = some d ∧ d.isData = true ∧ e.lackRates = [] ∧ ∀ x, e.lack [x] [x] = []) ∧
    (∃ s u w e d, NodeReady s u w e [portA w, portB w] [portA w, portB w] false ∧ e.head (portA w) = some d ∧ d.isData = true ∧ e.lackRates = [] ∧
      e.lack [d] [d] = []) :=
  ⟨⟨s0, u0, wImm 2, env s0 (wImm 2), d5, ready (by decide), by rfl, by rfl, by decide, by decide, fun _ => by rfl⟩,
    ⟨s0, u0, wImm 1, env s0 (wImm 1), d5, ready (by decide), by rfl, by rfl, by decide, by decide, fun _ _ => by rfl⟩,
    ⟨s0, u0, w0, env s0 w0, d5, ready (by decide), by rfl, by rfl, by decide, by decide⟩,
    ⟨sStop 1 {}, u0, w1, env (sStop 1 {}) w1, stopBeat 1 0, ready (by decide), by rfl, by rfl, by rfl, by decide⟩,
    ⟨sStop 2 {}, u0, w1, env (sStop 2 {}) w1, stopBeat 2 0, ready (by decide), by rfl, by rfl, by rfl, by decide, fun _ => by rfl⟩,
    ⟨sStop 6 {}, u0, w1, env (sStop 6 {}) w1, stopBeat 6 0, ready (by decide), by rfl, by rfl, by rfl, by decide, fun _ => by rfl⟩,
    ⟨s0, u0, w0, env s0 w0, d5, ready (by decide), by rfl, by rfl, by decide⟩,
    ⟨s0, u0, w0, env s0 w0, d5, ready (by decide), by rfl, by rfl, by decide, fun _ => by rfl⟩,
    ⟨s0, u0, w0, env s0 w0, d5, ready (by decide), by rfl, by rfl, by decide, by decide⟩⟩
theorem meets_bank :
    (∃ s u w e d, NodeReady s u w e [portA w] [portA w] false ∧ e.head (portA w) = some d ∧ d.isData = true ∧
      e.beatOwned ((d.ctl + w.imm.toNat % 2 ^ 11) % 2048) = true ∧ e.lackRates = [] ∧ ∀ x, e.lack [x] [x] = []) ∧
    (∃ s u w e d v, NodeReady s u w e [portA w, portB w] [portA w, portB w] false ∧ e.head (portA w) = some d ∧ e.head (portB w) = some v ∧ d.isData = true ∧
      v.isData = true ∧ e.beatOwned ((d.ctl + w.imm.toNat % 2 ^ 11) % 2048) = true ∧ ((d.poison || v.poison) && e.rg.ptrap) = false ∧ e.lackRates = [] ∧ e.lack [d] [d] = []) :=
  ⟨⟨sSegs {} 0x600000 {}, u0, wImm 10, env (sSegs {} 0x600000 {}) (wImm 10), d5, ready (by decide), by rfl, by rfl, by decide, by decide, fun _ => by rfl⟩,
    ⟨sSegs {} 0x600000 {}, u0, wImm 10, env (sSegs {} 0x600000 {}) (wImm 10), d5, d5, ready (by decide), by rfl, by rfl, by rfl, by rfl, by decide, by decide, by decide, by decide⟩⟩
/-- Tile words 0 and 1 for lanes 0 and 1 of a beat; a beat of lane 0 alone; one without lanes. -/
def dAd (v : BitVec 8) : Beat := { dataBeat (payOfElems 32 [0, 1]) 0 0 0 with valid := v }
def sTile (v : BitVec 8) : State := tst [[dAd v], [d5], [d5], [d5]] {} [(48, 0x800000)] []
def tile0 : SegDesc := segOfField 0x800000
/-- What the clauses about memory-tile instructions ask, with the lanes that are left of the beat. -/
def LanesMeet (ports : NodeWord → List Nat) (lane : NodeWord → SegDesc → Bool → Nat → Env → Beat → Option LaneDone) : Prop :=
  ∀ n, n < 3 → ∃ s u w e d tile, NodeReady s u w e (ports w) (ports w) false ∧ e.allData (ports w) = true ∧ e.mayUpdate = true ∧
    e.head (portA w) = some d ∧ memTile e.rg.plane e.home.1 = some tile ∧ e.lackRates = [] ∧ e.rg.ptrap = false ∧ e.rg.pureInv = none ∧
    e.lanesLeft d = List.range n ∧ (n = 0 → ∀ x, e.lack [x] [x] = []) ∧
    (n ≠ 0 → ∃ x, lane w tile false 0 e d = some x ∧ ∀ y, (e.laneTaken 0 x).lack [y] [y] = [])
theorem laneTaken_lack (v : BitVec 8) (x : LaneDone) (y : Beat) (h : v = 1 ∨ v = 3) : ((env (sTile v) w0).laneTaken 0 x).lack [y] [y] = [] := by
  have hh : (env (sTile v) w0).home.1 = (env (sTile v) w0).off := by rcases h with rfl | rfl <;> decide
  have hs : (env (sTile v) w0).setBankCell x.cell = { env (sTile v) w0 with cell := x.cell } := by unfold Env.setBankCell; rw [if_pos hh]
  have ht (f : OpState → OpState) : (Env.setOp { env (sTile v) w0 with cell := x.cell } f).tap = none := by
    change (env (sTile v) w0).tap = none
    rcases h with rfl | rfl <;> decide
  unfold Env.laneTaken Env.count
  rw [hs, ht]
  rcases h with rfl | rfl <;> rfl
theorem lanesMeet {ports : NodeWord → List Nat} {lane : NodeWord → SegDesc → Bool → Nat → Env → Beat → Option LaneDone}
    (h : ∀ v, v = 0 ∨ v = 1 ∨ v = 3 → readyB (sTile v) w0 (ports w0) (ports w0) false = true ∧ (env (sTile v) w0).allData (ports w0) = true ∧
      ∃ x, lane w0 tile0 false 0 (env (sTile v) w0) (dAd v) = some x) : LanesMeet ports lane := by
  intro n hn
  match n, hn with
  | 0, _ =>
    obtain ⟨a, b, x, c⟩ := h 0 (by decide)
    exact ⟨sTile 0, u0, w0, env (sTile 0) w0, dAd 0, tile0, ready a, b, by rfl, by rfl, by decide, by decide, by decide, by rfl, by decide,
      fun _ _ => by rfl, fun h => absurd rfl h⟩
  | 1, _ =>
    obtain ⟨a, b, x, c⟩ := h 1 (by decide)
    exact ⟨sTile 1, u0, w0, env (sTile 1) w0, dAd 1, tile0, ready a, b, by rfl, by rfl, by decide, by decide, by decide, by rfl, by decide,
      fun h => absurd h (by decide), fun _ => ⟨x, c, fun y => laneTaken_lack 1 x y (.inl rfl)⟩⟩
  | 2, _ =>
    obtain ⟨a, b, x, c⟩ := h 3 (by decide)
    exact ⟨sTile 3, u0, w0, env (sTile 3) w0, dAd 3, tile0, ready a, b, by rfl, by rfl, by decide, by decide, by decide, by rfl, by decide,
      fun h => absurd h (by decide), fun _ => ⟨x, c, fun y => laneTaken_lack 3 x y (.inr rfl)⟩⟩
  | n + 3, h => exact absurd h (by omega)
theorem meets_tileWords :
    (∀ op : NodeWord → LaneOp, LanesMeet (fun w => [portA w])
      fun w tile pois k e d => tileLane tile false (op w) pois k d (e.payAt (portB w)) (e.payAt (portC w)) e.bankCell) ∧
    (∀ op : NodeWord → LaneOp, LanesMeet (fun w => [portA w])
      fun w tile pois k e d => tileLane tile true (op w) pois k d (e.payAt (portB w)) (e.payAt (portC w)) e.bankCell) ∧
    (∀ op : NodeWord → LaneOp, LanesMeet abPorts
      fun w tile pois k e d => tileLane tile false (op w) pois k d (e.payAt (portB w)) (e.payAt (portC w)) e.bankCell) ∧
    (∀ op : NodeWord → LaneOp, LanesMeet (fun w => dedupNat [portA w, portB w, portC w])
      fun w tile pois k e d => tileLane tile false (op w) pois k d (e.payAt (portB w)) (e.payAt (portC w)) e.bankCell) ∧
    LanesMeet abPorts fun w tile pois k e d => storeLane tile pois k d (e.payAt (portB w)) e.bankCell := by
  have some' {α : Type} {o : Option α} (h : o.isSome = true) : ∃ x, o = some x := Option.isSome_iff_exists.mp h
  have one (op : NodeWord → LaneOp) (b : Bool) (v : BitVec 8) (h : v = 0 ∨ v = 1 ∨ v = 3) :
      (tileLane tile0 b (op w0) false 0 (dAd v) ((env (sTile v) w0).payAt (portB w0)) ((env (sTile v) w0).payAt (portC w0)) (env (sTile v) w0).bankCell).isSome = true := by
    have hv : payElem (dAd v).pay 32 0 = 0 := by rcases h with rfl | rfl | rfl <;> decide
    unfold tileLane
    simp only [hv, ite_self]
    rw [if_neg (by cases b <;> decide)]; rfl
  refine ⟨fun op => lanesMeet fun v h => ⟨?_, ?_, some' (one op _ v h)⟩, fun op => lanesMeet fun v h => ⟨?_, ?_, some' (one op _ v h)⟩,
    fun op => lanesMeet fun v h => ⟨?_, ?_, some' (one op _ v h)⟩, fun op => lanesMeet fun v h => ⟨?_, ?_, some' (one op _ v h)⟩,
    lanesMeet fun v h => ⟨?_, ?_, some' ?_⟩⟩ <;> (rcases h with rfl | rfl | rfl <;> decide)
theorem meets_tileGoesOn : ∃ s u w e d tile k rest x, NodeReady s u w e [portA w] [portA w] false ∧ e.allData [portA w] = true ∧ e.mayUpdate = true ∧
    e.head (portA w) = some d ∧ memTile e.rg.plane e.home.1 = some tile ∧ e.cs.op.phase = true ∧ e.rg.ptrap = false ∧ e.rg.pureInv = none ∧
    e.lanesLeft d = k :: rest ∧
    tileLane tile false (fun old _ _ => (none, old)) false k d (e.payAt (portB w)) (e.payAt (portC w)) e.bankCell = some x := by
  let s : State := tst [[dAd 3], [d5], [d5], [d5]] { phase := true, pos := 1, outX := [default] } [(48, 0x800000)] []
  obtain ⟨x, hx⟩ := Option.isSome_iff_exists.mp (show (tileLane tile0 false (fun old _ _ => (none, old)) false 1 (dAd 3) ((env s w0).payAt (portB w0))
    ((env s w0).payAt (portC w0)) (env s w0).bankCell).isSome = true from by decide +kernel)
  exact ⟨s, u0, w0, env s w0, dAd 3, tile0, 1, [], x, ready (by decide), by decide, by rfl, by rfl, by decide, by rfl, by decide, by rfl, by decide, hx⟩
def gFull (b : Bool) : SegState := { full := [b, false] }
theorem meets_buffers :
    (∃ s u w e d, NodeReady s u w e [portA w] [portA w] false ∧ e.head (portA w) = some d ∧
      (let g := segAt e.cell (segNo w); g.space (segDesc e.rg.plane e.off (segNo w)) ≠ 0 ∧ g.ovfSlot = none)) ∧
    (∃ s u w e d t, NodeReady s u w e [] [] false ∧ (segAt e.bankCell (segNo w)).beats = d :: t ∧ d.isData = true ∧ e.lackRates = [] ∧ e.lack [d] [d] = []) ∧
    (∃ s u w e d t, NodeReady s u w e [] [] false ∧ (segAt e.bankCell (segNo w)).beats = d :: t ∧ d.isData = false ∧ e.lack [d] [d] = []) ∧
    (∃ s u w e d, NodeReady s u w e [portA w] [portA w] false ∧ e.cs.op.held = [] ∧ e.head (portA w) = some d ∧ d.isData = true ∧
      bufFull (segAt e.cell (segNo w)) (segAt e.cell (segNo w)).rp = true ∧ e.lackRates = []) ∧
    (∃ s u w e t rest, NodeReady s u w e [portA w] [portA w] false ∧ e.cs.op.held = t :: rest ∧
      e.cs.op.pos + 1 < tileBufSize (segDesc e.rg.plane e.off (segNo w)) ∧ e.lackRates = [] ∧ ∀ x, e.lack [x] [x] = []) ∧
    (∃ s u w e b, NodeReady s u w e [portA w] [portA w] false ∧ e.head (portA w) = some b ∧ b.isData = true ∧
      bufFull (segAt e.cell (segNo w)) (segAt e.cell (segNo w)).wp = false ∧ e.lackRates = [] ∧ (b.poison && e.rg.ptrap) = false) :=
  ⟨⟨sSegs {} 0x200000 {}, u0, w0, env (sSegs {} 0x200000 {}) w0, d5, ready (by decide), by rfl, by decide, by rfl⟩,
    ⟨sSegs {} 0x200000 { beats := [d5] }, u0, w0, env (sSegs {} 0x200000 { beats := [d5] }) w0, d5, [], ready (by decide), by rfl, by rfl, by decide, by decide⟩,
    ⟨sSegs {} 0x200000 { beats := [m0] }, u0, w0, env (sSegs {} 0x200000 { beats := [m0] }) w0, m0, [], ready (by decide), by rfl, by rfl, by decide⟩,
    ⟨sSegs {} 0x400001 (gFull true), u0, w0, env (sSegs {} 0x400001 (gFull true)) w0, d5, ready (by decide), by rfl, by rfl, by rfl, by decide, by decide⟩,
    ⟨sSegs { held := [d5], pos := 6 } 0x400001 (gFull true), u0, w0, env (sSegs { held := [d5], pos := 6 } 0x400001 (gFull true)) w0, d5, [], ready (by decide), by rfl,
      by decide, by decide, fun _ => by rfl⟩,
    ⟨sSegs {} 0x400001 (gFull false), u0, w0, env (sSegs {} 0x400001 (gFull false)) w0, d5, ready (by decide), by rfl, by rfl, by decide, by decide, by decide⟩⟩
def wSrc : NodeWord := { w0 with srcA := .none, srcB := .none, srcC := .none }
theorem meets_spbsend :
    (∃ s u w e a t d, srcPort w.srcA = a :: t ∧ NodeReady s u w e (a :: t) (a :: t) false ∧ e.head a = some d ∧ d.isData = true ∧
      e.lackRates = [] ∧ ∀ x xs, e.lack (x :: xs) (x :: xs) = []) ∧
    (∃ s u w e inv, srcPort w.srcA = [] ∧ NodeReady s u w e [] [] false ∧ e.rg.sourceOpen (spbStaging e) = some inv ∧ e.cs.op.eoi = false ∧
      e.cs.op.cnt < inv.entry.tiles ∧ e.lackRates = [] ∧ ∀ x xs, e.lack (x :: xs) (x :: xs) = []) :=
  ⟨⟨s0, u0, w0, env s0 w0, 0, [], d5, by rfl, ready (by decide), by rfl, by rfl, by decide, fun _ _ => by rfl⟩,
    ⟨s0, u0, wSrc, env s0 wSrc, plantInv, by rfl, ready (by decide), by rfl, by rfl, by decide, by decide, fun _ _ => by rfl⟩⟩
theorem meets_system :
    (∃ s u w e d, NodeReady s u w e [portA w] [portA w] false ∧ e.head (portA w) = some d ∧ d.isData = true ∧ e.cs.op.held = [] ∧ e.lackRates = []) ∧
    (∃ s u w e d h t, NodeReady s u w e [portA w] [portA w] false ∧ e.head (portA w) = some d ∧ d.isData = true ∧ e.cs.op.held = h :: t ∧ e.lackRates = [] ∧ ∀ x, e.lack [] [x] = []) ∧
    (∃ s u w e d lvl tap, NodeReady s u w e [portA w] [portA w] false ∧ e.head (portA w) = some d ∧ d.isData = true ∧
      tapOf e.rg.plane (e.rg.writtenAt e.off e.ctx).1 (e.rg.writtenAt e.off e.ctx).2 5 = some (lvl, tap) ∧ e.lackRates = [] ∧ e.lack [d] [] = []) ∧
    (∃ s u w e d, NodeReady s u w e [portA w] [portA w] false ∧ e.head (portA w) = some d ∧ d.isData = true ∧ d.ctl = 0) ∧
    (∃ s u w e d, NodeReady s u w e [portA w] [portA w] false ∧ e.head (portA w) = some d ∧ d.isData = true ∧ d.ctl ≠ 0) ∧
    (∃ s u w e d, DataReady s u w e [portA w] [portA w] ∧ e.head (portA w) = some d ∧ e.rg.pureInv = none ∧ ∀ x, e.lack [x] [] = []) :=
  ⟨⟨s0, u0, w0, env s0 w0, d5, ready (by decide), by rfl, by rfl, by rfl, by decide⟩,
    ⟨sHeld [d0], u0, w0, env (sHeld [d0]) w0, d5, d0, [], ready (by decide), by rfl, by rfl, by rfl, by decide, fun _ => by rfl⟩,
    ⟨tst [[d5], [d5], [d5], [d5]] {} [(64, 0x940080)] [], u0, w0, env (tst [[d5], [d5], [d5], [d5]] {} [(64, 0x940080)] []) w0, d5, 0, 1, ready (by decide), by rfl,
      by rfl, by decide, by decide, by decide⟩,
    ⟨tst [[d0]] {} [] [], u0, w0, env (tst [[d0]] {} [] []) w0, d0, ready (by decide), by rfl, by rfl, by decide⟩,
    ⟨s0, u0, w0, env s0 w0, d5, ready (by decide), by rfl, by rfl, by decide⟩,
    ⟨s0, u0, w0, env s0 w0, d5, data (by decide), by rfl, by decide, fun _ => by rfl⟩⟩

/-! ### Fibres and online digits -/

/-- A beat of coordinates 5 to 12. -/
def dRise : Beat := dataBeat (payOfElems 32 [5, 6, 7, 8, 9, 10, 11, 12]) 0xFF 0 0
def d1 : Beat := dataBeat (payOfElems 32 [5]) 1 0 0
def d9 : Beat := dataBeat (payOfElems 32 [9]) 1 0 0
def sScan (cnt : Nat) : State := sOp { any := true, next := 2, cnt := cnt }
def sReps : State := tst [[d5], [d5], [], []] {} [] []
def sRepNone : State := tst [[], [dNone], [], []] {} [] []
def sWrite : State := tst [[dRise]] { any := true } [] []
def wA : NodeWord := { w0 with srcB := .none, srcC := .none }
theorem meets_fibreElements :
    (∃ s u w e c r p sd, NodeReady s u w e (srcPort w.srcA) (srcPort w.srcA) true ∧ e.cs.op.any = true ∧ e.cs.op.cnt < e.cs.op.next ∧
      e.cs.op.outX.length < 8 ∧ e.cs.op.outY.length < 8 ∧ scanElem e e.cs.op.cnt = some (c, r, p) ∧ e.cs.op.sideOut.element 1 c true = some sd) ∧
    (∃ s u w e, NodeReady s u w e (srcPort w.srcA) (srcPort w.srcA) true ∧ e.cs.op.any = true ∧ e.cs.op.next = e.cs.op.cnt ∧
      e.cs.op.outX = [] ∧ e.cs.op.outY = [] ∧ ∀ x, e.lack [x] [x] = []) ∧
    (∃ s u w e a x y l, srcPort w.srcA = [a] ∧ NodeReady s u w e [a, portB w] [a, portB w] true ∧ e.head a = some y ∧ y.isData = true ∧
      nextLane y e.cs.op.sideA.lane = some l ∧ e.head (portB w) = some x ∧ x.isData = true ∧ x.valid ≠ 0 ∧ ∀ v, e.lack [v] [v] = []) ∧
    (∃ s u w e x, (∀ a ∈ srcPort w.srcA, (e.head a).any (fun y => y.isData && (nextLane y e.cs.op.sideA.lane).isNone) = false) ∧
      NodeReady s u w e (srcPort w.srcA ++ [portB w]) (srcPort w.srcA ++ [portB w]) true ∧ e.head (portB w) = some x ∧ x.isData = true ∧ x.valid = 0 ∧
      ∀ v, e.lack [v] [v] = []) ∧
    (∃ s u w e b l sd, NodeReady s u w e [portA w] [portA w] true ∧ e.cs.op.any = true ∧ e.cs.op.outX.length < 8 ∧ e.cs.op.outY.length < 8 ∧
      e.head (portA w) = some b ∧ b.isData = true ∧ nextLane b e.cs.op.sideA.lane = some l ∧
      e.cs.op.sideA.element (depthOf w) (payElem b.pay 32 l) true = some sd ∧ e.cs.op.cnt + 1 < absentRef) :=
  ⟨⟨sScan 1, u0, w0, env (sScan 1) w0, 1, 1, false, { open_ := levelMask 1, last := some 1 }, ready (by decide), by rfl, by decide, by decide, by decide, by decide, by decide⟩,
    ⟨sScan 2, u0, w0, env (sScan 2) w0, ready (by decide), by rfl, by rfl, by rfl, by rfl, fun _ => by rfl⟩,
    ⟨sReps, u0, w0, env sReps w0, 0, d5, d5, 0, by rfl, ready (by decide), by rfl, by rfl, by decide, by rfl, by rfl, by decide, fun _ => by rfl⟩,
    ⟨sRepNone, u0, w0, env sRepNone w0, dNone, by decide, ready (by decide), by rfl, by rfl, by rfl, fun _ => by rfl⟩,
    ⟨sWrite, u0, wA, env sWrite wA, dRise, 0, { open_ := levelMask (depthOf wA), last := some 5 }, ready (by decide), by rfl, by decide, by decide, by rfl, by rfl,
      by decide, by decide, by decide⟩⟩
def sPacked (x y : Nat) : State := sOp { outX := List.replicate x default, outY := List.replicate y default }
theorem meets_packedBeats : ∀ x y, (x = 7 ∨ x = 8) → (y = 7 ∨ y = 8) → ∃ e : Env, e.cs.op.outX.length = x ∧ e.cs.op.outY.length = y ∧ ∀ a b, e.lack [a] [b] = [] ∧
    e.lack [a] [] = [] ∧ e.lack [] [b] = [] := by
  intro x y hx hy
  refine ⟨env (sPacked x y) w0, ?_⟩
  rcases hx with rfl | rfl <;> rcases hy with rfl | rfl <;> exact ⟨by decide, by decide, fun _ _ => ⟨by rfl, by rfl, by rfl⟩⟩
def wLook : NodeWord := { w0 with imm := 13 }
def sLook : State := tst [[dRise], [d0], [], []] {} [] []
def sFold (j : Nat) (op : OpState) : State := tst [[stopBeat j 0]] op [] []
theorem meets_fibreLookups :
    (∃ s u w e x y p sd rs, srcPort w.srcB = [p] ∧ NodeReady s u w e [portA w, p] [portA w, p] true ∧ e.head (portA w) = some x ∧ e.head p = some y ∧
      lockstep x y = true ∧ x.isData = true ∧ lookLanes (depthOf w) (immNat w) x (some y) (List.range 8) e.cs.op.sideA [] = .ok (sd, rs) ∧
      ∀ v, e.lack [v] [v] = []) ∧
    (∃ s u w e b, NodeReady s u w e [portA w] [portA w] true ∧ e.head (portA w) = some b ∧ b.isData = true) ∧
    (∀ j o, j < 3 → ∃ s u w e b, NodeReady s u w e [portA w] [portA w] true ∧ e.head (portA w) = some b ∧ b.isData = false ∧ b.isStop = true ∧
      b.level.toNat = j ∧ auxLevel w = 1 ∧ e.cs.op.sideA.open_.getLsbD 1 = o ∧ ∀ r r1, e.lack [] [] = [] ∧ e.lack [r] [r] = [] ∧ e.lack [r, r1] [r, r1] = []) :=
  ⟨⟨sLook, u0, wLook, env sLook wLook, dRise, d0, 1, { open_ := levelMask (depthOf wLook), last := some 12 }, [5, 6, 7, 8, 9, 10, 11, 12], by rfl, ready (by decide), by rfl,
      by rfl, by decide, by rfl, by rfl, fun _ => by rfl⟩,
    ⟨s0, u0, w0, env s0 w0, d5, ready (by decide), by rfl, by rfl⟩,
    fun j o h => match j, o, h with
      | 0, true, _ => ⟨sFold 0 { sideA := { open_ := 3 }, acc := [some 7] }, u0, w1, env (sFold 0 { sideA := { open_ := 3 }, acc := [some 7] }) w1, stopBeat 0 0, ready (by decide), by rfl, by rfl, by rfl, by decide, by decide, by decide,
          fun _ _ => ⟨by rfl, by rfl, by rfl⟩⟩
      | 0, false, _ => ⟨sFold 0 {}, u0, w1, env (sFold 0 {}) w1, stopBeat 0 0, ready (by decide), by rfl, by rfl, by rfl, by decide, by decide, by decide,
          fun _ _ => ⟨by rfl, by rfl, by rfl⟩⟩
      | 1, true, _ => ⟨sFold 1 { sideA := { open_ := 3 }, acc := [some 7] }, u0, w1, env (sFold 1 { sideA := { open_ := 3 }, acc := [some 7] }) w1, stopBeat 1 0, ready (by decide), by rfl, by rfl, by rfl, by decide, by decide, by decide,
          fun _ _ => ⟨by rfl, by rfl, by rfl⟩⟩
      | 1, false, _ => ⟨sFold 1 {}, u0, w1, env (sFold 1 {}) w1, stopBeat 1 0, ready (by decide), by rfl, by rfl, by rfl, by decide, by decide, by decide,
          fun _ _ => ⟨by rfl, by rfl, by rfl⟩⟩
      | 2, true, _ => ⟨sFold 2 { sideA := { open_ := 3 }, acc := [some 7] }, u0, w1, env (sFold 2 { sideA := { open_ := 3 }, acc := [some 7] }) w1, stopBeat 2 0, ready (by decide), by rfl, by rfl, by rfl, by decide, by decide, by decide,
          fun _ _ => ⟨by rfl, by rfl, by rfl⟩⟩
      | 2, false, _ => ⟨sFold 2 {}, u0, w1, env (sFold 2 {}) w1, stopBeat 2 0, ready (by decide), by rfl, by rfl, by rfl, by decide, by decide, by decide,
          fun _ _ => ⟨by rfl, by rfl, by rfl⟩⟩
      | _ + 3, _, h => absurd h (by omega)⟩
/-- Two fibres of one coordinate each, with references to the first. -/
def sPair (x y : Beat) : State := tst [[x], [d1], [y], []] {} [] []
def SidesMeet (ca cb : Nat) : Prop :=
  ∃ s u w e ra x rb y la sa lb sb, NodeReady s u w e [0, 1, 2] [0, 1, 2] true ∧ (w.aux.toNat % 8 = 0) ∧ e.cs.op.outX.length < 8 ∧ e.cs.op.outY.length < 8 ∧
    e.sideHead 0 [1] e.cs.op.sideA = .elem ca ra x ∧ e.sideHead 2 [] e.cs.op.sideB = .elem cb rb y ∧
    (e.head 0).bind (nextLane · e.cs.op.sideA.lane) = some la ∧ e.cs.op.sideA.element (depthOf w) ca true = some sa ∧
    (e.head 2).bind (nextLane · e.cs.op.sideB.lane) = some lb ∧ e.cs.op.sideB.element (depthOf w) cb true = some sb
theorem meets_intersections : SidesMeet 5 9 ∧ SidesMeet 9 5 ∧ SidesMeet 5 5 :=
  ⟨⟨sPair d1 d9, u0, w0, env (sPair d1 d9) w0, 5, d1, absentRef, d9, 0, { open_ := levelMask (depthOf w0), last := some 5 }, 0,
      { open_ := levelMask (depthOf w0), last := some 9 }, ready (by decide), by decide, by decide, by decide, by rfl, by rfl, by rfl, by decide, by rfl, by decide⟩,
    ⟨sPair d9 d1, u0, w0, env (sPair d9 d1) w0, 5, d9, absentRef, d1, 0, { open_ := levelMask (depthOf w0), last := some 9 }, 0,
      { open_ := levelMask (depthOf w0), last := some 5 }, ready (by decide), by decide, by decide, by decide, by rfl, by rfl, by rfl, by decide, by rfl, by decide⟩,
    ⟨sPair d1 d1, u0, w0, env (sPair d1 d1) w0, 5, d1, absentRef, d1, 0, { open_ := levelMask (depthOf w0), last := some 5 }, 0,
      { open_ := levelMask (depthOf w0), last := some 5 }, ready (by decide), by decide, by decide, by decide, by rfl, by rfl, by rfl, by decide, by rfl, by decide⟩⟩
/-- The exponent beat of one lane with E = 1 and two digits. -/
def dExp : Beat := dataBeat 0x00010002 1 0 0
def sideE : OsdSide := { exp := some dExp, closed := true }
def sOsd (op : OpState) : State := tst [[], [], [], []] op [] []
theorem meets_online (mul : Bool) :
    (∃ s u w e x y, NodeReady s u w e (portA w :: portB w :: srcPort w.srcC) (portA w :: portB w :: srcPort w.srcC) false ∧
      (∀ p ∈ srcPort w.srcC, (e.head p).any Beat.isData = false) ∧ e.cs.op.any = false ∧ e.cs.op.osdA.exp = some x ∧ e.cs.op.osdB.exp = some y ∧
      e.cs.op.phase = false ∧ ∀ b, e.lack [b] [b] = []) ∧
    (∃ s u w e x y, NodeReady s u w e (portA w :: portB w :: srcPort w.srcC) (portA w :: portB w :: srcPort w.srcC) false ∧
      (∀ p ∈ srcPort w.srcC, (e.head p).any Beat.isData = false) ∧ e.cs.op.any = false ∧ e.cs.op.osdA.exp = some x ∧ e.cs.op.osdB.exp = some y ∧
      e.cs.op.phase = true ∧
      (let valid := x.valid &&& y.valid
       let shapes := (List.range 8).map (osdShape mul x y)
       let shift (z : Beat) (j : Nat) : Nat := ((shapes.getD j (0, 0)).1 - osdE z j).toNat
       let last (j : Nat) : Nat := min (shapes.getD j (0, 0)).2 (16 * (e.cs.op.cnt + 1))
       e.cs.op.cnt < ((validLanes valid).foldl (fun m j => max m (shapes.getD j (0, 0)).2) 0 + 15) / 16 ∧
       ((validLanes valid).all fun j => osdReady mul e.cs.op.osdA e.cs.op.osdB (shift x j) (shift y j) j (last j)) = true) ∧
      ∀ b, e.lack [b] [b] = []) := by
  refine ⟨⟨sOsd { osdA := sideE, osdB := sideE }, u0, w0, env (sOsd { osdA := sideE, osdB := sideE }) w0, dExp, dExp, ready (by decide), by decide, by rfl, by rfl, by rfl,
      by rfl, fun _ => by rfl⟩, ⟨sOsd { osdA := sideE, osdB := sideE, phase := true }, u0, w0, env (sOsd { osdA := sideE, osdB := sideE, phase := true }) w0, dExp, dExp,
      ready (by decide), by decide, by rfl, by rfl, by rfl, by rfl, ?_, fun _ => by rfl⟩⟩
  cases mul <;> decide
def wCut : NodeWord := { w0 with srcB := .b, srcC := .none, imm := 1 }
def sCut : State := tst [[dExp], []] {} [] []
def wOsd : NodeWord := { w0 with fmt := .osd, aux := 6, imm := 8 }
def sClose : State := tst [[stopBeat 0 0]] { osdA := { exp := some dExp } } [] []
theorem meets_onlineGroups :
    (∃ s u w e x y, NodeReady s u w e [portA w, portB w] [portA w, portB w] false ∧ e.cs.op.osdA.exp = some x ∧ e.cs.op.osdB.exp = some y ∧
      e.cs.op.phase = false ∧ (validLanes (x.valid &&& y.valid)).all (cmpDecided e.cs.op.osdA e.cs.op.osdB x y) = true ∧ ∀ a b, e.lack [a] [b] = []) ∧
    (∃ s u w e b y, NodeReady s u w e (portA w :: srcPort w.srcB) (portA w :: srcPort w.srcB) false ∧
      (∀ p ∈ srcPort w.srcB, (e.head p).any Beat.isData = false) ∧ e.cs.op.osdA.exp = none ∧ e.head (portA w) = some b ∧ b.isData = true ∧
      e.cs.op.osdA.take b = .ok y ∧ ∀ x, e.lack [x] [x] = []) ∧
    (∃ s u w e b, w.fmt = .osd ∧ NodeReady s u w e [portA w] [portA w] false ∧ e.head (portA w) = some b ∧ b.isData = true ∧
      e.lack (osdGroups (fltShape (fmt2 w)) (w.imm.toNat % 2 ^ 11) b).1 (osdGroups (fltShape (fmt2 w)) (w.imm.toNat % 2 ^ 11) b).1 = []) ∧
    (∃ s u w e b y ex, w.fmt ≠ .osd ∧ NodeReady s u w e [portA w] [portA w] false ∧ e.head (portA w) = some b ∧ e.cs.op.osdA.take b = .ok y ∧ y.closed = true ∧
      y.exp = some ex ∧ fmtCount w.fmt / 8 ≤ e.cs.op.cnt + 1 ∧ ∀ x, e.lack [x] [x] = []) :=
  ⟨⟨sOsd { osdA := { exp := some (dataBeat 0 1 0 0) }, osdB := { exp := some (dataBeat 0 1 0 0) } }, u0, w0,
      env (sOsd { osdA := { exp := some (dataBeat 0 1 0 0) }, osdB := { exp := some (dataBeat 0 1 0 0) } }) w0, dataBeat 0 1 0 0, dataBeat 0 1 0 0, ready (by decide),
      by rfl, by rfl, by rfl, by decide, fun _ _ => by rfl⟩,
    ⟨sCut, u0, wCut, env sCut wCut, dExp, { exp := some dExp }, ready (by decide), by decide, by rfl, by rfl, by rfl, by rfl, fun _ => by rfl⟩,
    ⟨s0, u0, wOsd, env s0 wOsd, d5, by rfl, ready (by decide), by rfl, by rfl, by decide⟩,
    ⟨sClose, u0, f0, env sClose f0, stopBeat 0 0, { exp := some dExp, closed := true }, dExp, by decide, ready (by decide), by rfl, by rfl, by rfl, by rfl, by decide,
      fun _ => by rfl⟩⟩

/-! ### Sequencer -/

def p0 : SeqId := plantSeq
/-- Registers that hold v in ra, and w in rb. -/
def regs2 (a : Fin 32) (v : DWord) (b : Fin 32) (w : DWord) : Vector DWord 32 := ((Vector.replicate 32 0).set a v).set b w
/-- Partition 0 with a page table at 2000H, whose page at VA 0 is host memory from 0 on. -/
def part0 : Part := { shapedPart 0 1 with xroot := 0x2000 }
def table : List (Nat × Byte) := [(0x2001, 0x40), (0x2007, 0x40), (0x4006, 0x02), (0x4007, 0x98)]
/-- A state in which context 0 of partition 0 acts. -/
def sq (q : Seq) (host : List (Nat × Byte)) : State :=
  { State.reset with
    actor := .seq p0, parts := lmod State.reset.parts 0 (fun _ => part0), mem := (table ++ host.map fun x => (hostKey x.1, x.2)).map fun x => ⟨x.1, x.2⟩, seqs := [(seqKey p0, q)] }
def run0 : Seq := { st := .run, pc := 3 }
theorem seqReady {s : State} {c : SeqId} {rs : List (BitVec 5)} (h : (decide (s.actor = .seq c) && (seqAt s c).ready rs) = true) : SeqReady s c rs := by
  simp only [Bool.and_eq_true, decide_eq_true_eq] at h; exact ⟨h.1, h.2⟩
theorem test_table : readLink (sq run0 [(0x107, 0x80)]) p0 0x100 = .ok (2 ^ 63) := by rfl
/-- A record's register 1 holds an address, register 2 another. -/
def run1 (a b : DWord) : Seq := { run0 with regs := regs2 1 a 2 b }
theorem meets_sequencerArithmetic : (∃ s c d a b, SeqReady s c [d, a, b] ∧ greg (seqIssued s c) a ≠ greg (seqIssued s c) b) ∧
    (∃ w : BitVec 32, (fld w 26 6 : BitVec 6) = 5 ∧ (fld w 6 10 : BitVec 10) ≠ 0) :=
  ⟨⟨sq (run1 5 6) [], p0, 3, 1, 2, seqReady (by decide), by decide⟩, 0x14000040, by decide, by decide⟩
theorem meets_sequencerControlFlow : (∃ s c a b, SeqReady s c [a, b] ∧ greg (seqIssued s c) a ≠ greg (seqIssued s c) b) ∧
    (∃ s c, SeqReady s c [31] ∧ seqReqs s c = []) :=
  ⟨⟨sq (run1 5 6) [], p0, 1, 2, seqReady (by decide), by decide⟩, sq (run1 5 6) [], p0, seqReady (by decide), by rfl⟩
/-- The same with the page at hand in the table of the lowest SP. -/
def hot (q : Seq) (host : List (Nat × Byte)) : State :=
  let s : State := sq q host
  { s with parts := lmod s.parts 0 (fun p => { p with l1Tlb := [(0, [⟨0, 36, BitVec.ofNat 64 (2 ^ 63 + 3 * 2 ^ 59 + 2 ^ 49)⟩])] }) }
/-- What an access needs to be sent from VA va. -/
def sent (s : State) (va n : Nat) (acc : Access) : Prop :=
  ∃ s1 e, va % n = 0 ∧ vaCanonical va = true ∧ tlbLookup s p0.part (lowKey p0.part) va acc.needsW = some (s1, e) ∧
    let t := targetOf p0.part e.size e.leaf.toNat va
    targetFault s1 p0.part e.size e.leaf.toNat va = none ∧ (acc.isAmo && !amoTarget t) = false
theorem meets_sequencerAccesses :
    (∃ s d a, SeqReady s p0 [d, a] ∧ ((greg (seqIssued s p0) a + (4 : BitVec 16).signExtend 64).toNat % 8 ≠ 0)) ∧
    (∃ s d a, SeqReady s p0 [d, a] ∧ let va := (greg (seqIssued s p0) a + (8 : BitVec 16).signExtend 64).toNat
      sent s va 8 (.read 8) ∧ sent s va 4 (.write (bytesOfNat 4 (greg (seqIssued s p0) d).toNat) false)) ∧
    (∃ s d a b, SeqReady s p0 [d, a, b] ∧ sent s (greg (seqIssued s p0) a).toNat 8 (.amo 0 8 1 0)) :=
  ⟨⟨hot (run1 0x100 1) [], 3, 1, seqReady (by decide), by decide⟩,
   ⟨hot (run1 0x100 1) [], 2, 1, seqReady (by decide), ⟨_, _, by decide, by decide, rfl, by rfl, by rfl⟩, _, _, by decide, by decide, rfl, by rfl, by rfl⟩,
   hot (run1 0x100 1) [], 3, 1, 2, seqReady (by decide), _, _, by decide, by decide, rfl, by rfl, by rfl⟩
theorem meets_specialRegisters : ∃ s c d, SeqReady s c [d] := ⟨sq (run1 5 6) [], p0, 1, seqReady (by decide)⟩
theorem meets_traps : (∃ s c, SeqReady s c []) ∧ (∃ s c, (seqAt s c).st = .parkfault ∧ c.n < sqCount (partAt s c.part)) ∧
    (∃ (s : State) (c c1 : SeqId), seqKey c1 ≠ seqKey c ∧ c.part < s.parts.length) :=
  ⟨⟨sq (run1 5 6) [], p0, seqReady (by decide)⟩, ⟨sq { run0 with st := .parkfault, park := .trap } [], p0, by decide, by decide⟩,
   sq run0 [], p0, ⟨0, 1⟩, by decide, by decide⟩

/-! ### Links and records -/

theorem meets_links :
    (∃ s c d a w, SeqReady s c [d, a] ∧ (let va := (greg (seqIssued s c) a).toNat; va % 8 = 0 ∧ readLink s c va = .ok w ∧ w.testBit 63 = true)) ∧
    (∃ s c d a w, SeqReady s c [d, a] ∧ (let va := (greg (seqIssued s c) a).toNat; va % 8 = 0 ∧ readLink s c va = .ok w ∧ w.testBit 63 = false)) ∧
    (∃ s c va w, ∃ d : BitVec 5, (seqAt s c).park = .waitm d.toNat va ∧ va % 8 = 0 ∧ readLink s c va = .ok w ∧ w.testBit 63 = true) ∧
    (∃ s c a s1, SeqReady s c [a] ∧ (let record := (greg (seqIssued s c) a).toNat
      record % 64 = 0 ∧ seqWrites s c = false ∧ tailWrites (atScope (setSeq s c (seqIssued s c)) 5) c (seqIssued s c) record = .ok s1)) ∧
    (∃ s c a b w e s1, SeqReady s c [a, b] ∧ (let s0 := setSeq s c (seqIssued s c)
      let new := (greg (seqIssued s c) a).toNat
      let graph := (greg (seqIssued s c) b).toNat
      new % 64 = 0 ∧ graph % 64 = 0 ∧ seqWrites s c = false ∧ readLink s0 c new = .ok w ∧ w.testBit 63 = false ∧
        graphEnd (atScope s0 5) c 65536 graph = .ok (some e) ∧ immWrite (atScope s0 5) c.part e (bytesOfNat 8 (linkTo new)) = .ok s1)) ∧
    (∃ s c w, (seqAt s c).st = .parklink ∧ (seqAt s c).park = .link ∧ readLink s c (seqAt s c).sqrec = .ok w ∧ w.testBit 63 = true) :=
  ⟨⟨sq (run1 0x100 1) [(0x107, 0x80)], p0, 3, 1, 2 ^ 63, seqReady (by decide), by decide, by rfl, by decide⟩,
   ⟨sq (run1 0x100 1) [(0x100, 1)], p0, 3, 1, 1, seqReady (by decide), by decide, by rfl, by decide⟩,
   ⟨sq { run0 with park := .waitm 3 0x100 } [(0x107, 0x80)], p0, 0x100, 2 ^ 63, 3, by decide, by decide, by rfl, by decide⟩,
   ⟨sq { run1 0x100 1 with tp := 0x200 } [(0x207, 0x80)], p0, 1, _, seqReady (by decide), by decide, by rfl, rfl⟩,
   ⟨sq (run1 0x100 0x200) [(0x100, 1)], p0, 1, 2, 1, 0x200, _, seqReady (by decide), by decide, by decide, by rfl, by rfl, by decide, by rfl, rfl⟩,
   sq { run0 with st := .parklink, park := .link, sqrec := 0x100 } [(0x107, 0x80)], p0, 2 ^ 63, by decide, by decide, by rfl, by decide⟩
/-- A record at VA 100H whose image is loaded already. -/
def recs (q : Seq) : State := { sq q [(0x109, 0x80)] with images := [{ plantImage 0 with va := 0x8000 }] }
theorem meets_records :
    (∃ s c bs i s1, let q := seqAt s c
      q.park = .start ∧ q.st = .run ∧ q.sects.any (fun x => x.armed) = false ∧ seqRead s c q.sqrec 64 = .ok bs ∧ recordOk bs = true ∧
        loadImage s c (leAt bs 8 8) = .image i s1) ∧
    (∃ s c, SeqReady s c []) ∧
    (∃ s c, let q := seqAt s c
      q.park = .halt ∧ q.st = .parkwait ∧ q.retry = [] ∧ q.sects.any (fun x => x.queued != 0) = false ∧ seqWrites s c = false) ∧
    (∃ s c, (seqAt s c).st = .parkfault) ∧ (∃ s c, (seqAt s c).st = .parklink) ∧ (∃ s c, (seqAt s c).st = .run) ∧
    (∃ s c, (seqAt s c).st = .idle ∧ c.n < sqCount (partAt s c.part)) ∧
    (∃ (s : State) (c : SeqId) (q : Seq) (st : Status) (s1 : State), immWrite (atScope s 5) c.part (vaAdd q.sqrec 44) (bytesOfNat 4 (statusWord st)) = .ok s1) :=
  ⟨⟨recs { run0 with park := .start, sqrec := 0x100 }, p0, [0, 0, 0, 0, 0, 0, 0, 0, 0, 0x80] ++ List.replicate 54 0, _, _,
     by decide, by decide, by decide, by rfl, by decide, rfl⟩,
   ⟨sq run0 [], p0, seqReady (by decide)⟩,
   ⟨sq { run0 with st := .parkwait, park := .halt } [], p0, by decide, by decide, by rfl, by decide, by rfl⟩,
   ⟨sq { run0 with st := .parkfault } [], p0, by decide⟩, ⟨sq { run0 with st := .parklink } [], p0, by decide⟩, ⟨sq run0 [], p0, by decide⟩,
   ⟨sq {} [], p0, by decide, by decide⟩,
   sq run0 [], p0, { run0 with sqrec := 0x100 }, ⟨0, 0, 0, 0⟩, _, rfl⟩

/-! ### Invocations, waits, streams -/

/-- Section 0 of the context has these contents; its image gives it a tile store of 64 bytes. -/
def seqSect (x : SectCtx) (q : Seq) : Seq :=
  { q with sects := [x], image := some { plantImage 0 with sects := [{ (default : SectInfo) with tileBytes := 64 }] } }
theorem meets_invocations :
    (∃ s c m, SeqReady s c [m]) ∧
    (∃ s c gc gb k s1 p, ∃ n : BitVec 8, SeqReady s c [gc, gb] ∧ (let q := seqIssued s c
      let t := (greg q gc).toNat
      let va := (greg q gb).toNat
      0 < t ∧ t < 2 ^ 32 ∧ gb ≠ 0 ∧ va % 32 = 0 ∧ (sectAt q n.toNat).armq.length < 4 ∧ seqWrites s c = false ∧
        (readConsts s c va).map some = .ok k ∧ pureOf s c q n.toNat = .ok (s1, p))) ∧
    (∃ s c gc, ∃ n : BitVec 8, SeqReady s c [gc, 0] ∧ (let q := seqIssued s c
      0 < (greg q gc).toNat ∧ (greg q gc).toNat < 2 ^ 32 ∧ (sectAt q n.toNat).armq.length < 4 ∧ seqWrites s c = false)) ∧
    (∃ s c gc gb, SeqReady s c [gc, gb] ∧ (greg (seqIssued s c) gc).toNat = 0) ∧
    (∃ (q : Seq) (k : Nat), k < q.sects.length) :=
  ⟨⟨sq run0 [], p0, 1, seqReady (by decide)⟩,
   ⟨sq (seqSect {} { run1 5 0x100 with nArg := 1, extVa := 0x400 }) [(0x401, 0x10), (0x408, 4)], p0, 1, 2, some (List.replicate 8 0), _, _, 0,
     seqReady (by decide), by decide, by decide, by decide, by decide, by decide, by rfl, by rfl, rfl⟩,
   ⟨sq (seqSect {} (run1 5 0)) [], p0, 1, 0, seqReady (by decide), by decide, by decide, by decide, by rfl⟩,
   ⟨sq (run1 0 0) [], p0, 1, 2, seqReady (by decide), by decide⟩, seqSect {} {}, 0, by decide⟩
theorem meets_waits :
    (∃ s c d, ∃ n : BitVec 8, SeqReady s c [d] ∧ (sectAt (seqIssued s c) n.toNat).queued ≠ 0) ∧
    (∃ s c, ∃ n : BitVec 8, SeqReady s c [0] ∧ (let x := sectAt (seqIssued s c) n.toNat; x.queued = 0 ∧ (waitsStatus x).code = 3)) ∧
    (∃ s c d, ∃ n : BitVec 8, SeqReady s c [d] ∧ (let x := sectAt (seqIssued s c) n.toNat; x.queued = 0 ∧ d ≠ 0)) ∧
    (∃ s c k, ∃ d : BitVec 5, (seqAt s c).park = .waits d.toNat k ∧
      (sectAt { seqAt s c with st := .run, park := .nothing } k).queued = 0 ∧ d ≠ 0) :=
  ⟨⟨sq (seqSect { queued := 1 } run0) [], p0, 1, 0, seqReady (by decide), by decide⟩,
   ⟨sq (seqSect { statuses := [⟨3, 0, 0, 0⟩], sinceWait := true } run0) [], p0, 0, seqReady (by decide), by decide, by decide⟩,
   ⟨sq (seqSect {} run0) [], p0, 1, 0, seqReady (by decide), by decide, by decide⟩,
   sq (seqSect {} { run0 with park := .waits 1 0 }) [], p0, 0, 1, by decide, by decide, by decide⟩
/-- The state with a region. -/
def withRg (s : State) (rg : Region) : State := { s with regions := [rg] }
def shadow0 : Feed := { for_ := .load, words := [], complete := true, plane := [] }
theorem meets_streams :
    (∃ s c g, SeqReady s c [g] ∧ (greg (seqIssued s c) g).toNat % 4 = 0 ∧ seqWrites s c = false) ∧
    (∃ s c k va rg ws, (let x := sectAt (seqAt s c) k
      x.pend = some va ∧ x.loadErr = none ∧ regionAt s ⟨c, k⟩ = some rg ∧ rg.takesLoad = true ∧ readStream s c vaLines va = .ok ws)) ∧
    (∃ s c d, ∃ n : BitVec 8, SeqReady s c [d] ∧ seqWrites s c = false ∧ (let x := sectAt (seqIssued s c) n.toNat
      x.queued = 0 ∧ x.pend = none ∧ ∀ rg, regionAt s ⟨c, n.toNat⟩ = some rg → rg.frozen = none ∧ rg.lvDue = none)) ∧
    (∃ s c d va rg f, ∃ n : BitVec 8, SeqReady s c [d] ∧ seqWrites s c = false ∧ (let x := sectAt (seqIssued s c) n.toNat
      x.queued = 0 ∧ x.pend = some va ∧ x.loadErr = none ∧ regionAt s ⟨c, n.toNat⟩ = some rg ∧ rg.frozen = none ∧ rg.shadow = some f ∧
        f.tag = x.lv % 2 ^ 14 ∧ rg.drain = none)) ∧
    (∃ s r rg d f ls, regionAt s r = some rg ∧ rg.drain = some d ∧ rg.shadow = some f ∧ rg.frozen = none ∧ sinksDone (injectDrains rg) = true ∧
      strayFault s (injectDrains rg) = none ∧ linksOf (injectDrains rg) f.plane = .ok ls ∧ r.sect < (seqAt s r.seq).sects.length ∧
      (injectDrains rg).layouts.any (·.moved) = false) ∧
    (∃ s r rg d, regionAt s r = some rg ∧ rg.drain = some d ∧ rg.frozen = none ∧
      (let h := (sectAt (seqAt s r.seq) r.sect).mode.toNat / 2 ^ 9 % 32; (if h = 0 then 2 ^ 24 else 2 ^ h) ≤ s.cycle.toNat - d.start) ∧ sinksDone rg = false) :=
  ⟨⟨sq (run1 4 0) [], p0, 1, seqReady (by decide), by decide, by rfl⟩,
   ⟨withRg (sq (seqSect { pend := some 0x100 } run0) [(0x103, 0xD0)]) plantRegion, p0, 0, 0x100, plantRegion, [0xD0000000],
     by decide, by decide, by rfl, by decide, by rfl⟩,
   ⟨withRg (sq (seqSect {} run0) []) plantRegion, p0, 1, 0, seqReady (by decide), by rfl, by decide, by decide,
     fun rg h => by cases (show some plantRegion = some rg from h); decide⟩,
   ⟨withRg (sq (seqSect { pend := some 0x100 } run0) []) { plantRegion with shadow := some shadow0 }, p0, 1, 0x100,
     { plantRegion with shadow := some shadow0 }, shadow0, 0,
     seqReady (by decide), by rfl, by decide, by decide, by decide, by rfl, by decide, by decide, by decide, by decide⟩,
   ⟨withRg (sq (seqSect {} run0) []) { plantRegion with shadow := some shadow0, drain := some ⟨0, []⟩ }, plantReg,
     { plantRegion with shadow := some shadow0, drain := some ⟨0, []⟩ }, ⟨0, []⟩, shadow0, [],
     by rfl, by decide, by decide, by decide, by decide, by decide, by rfl, by decide, by decide⟩,
   withRg { sq (seqSect { mode := 0x200 } run0) [] with cycle := 2 } { plantRegion with drain := some ⟨0, [default]⟩ }, plantReg,
     { plantRegion with drain := some ⟨0, [default]⟩ }, ⟨0, [default]⟩, by rfl, by decide, by decide, by decide⟩

/-! ### Tokens at nodes -/

def rlx0 : Beat := markBeat 1 0 0
def stop1 : Beat := stopBeat 1 0
def d6 : Beat := dataBeat 6 0xFF 0 0
def sTok : State := tst [[rlx0], [rlx0], [rlx0], [rlx0]] {} [] []
/-- Two heads at the matched ports A and B. -/
def sMatch (x y : Beat) : State := tst [[x], [y], [], []] {} [(128, 0x10), (129, 0x10)] []
/-- A RETYPE that keeps or sets the slots at port A, whose link has a latch. -/
def retype (n : Nat) : Beat := cfgBeat (BitVec.ofNat 256 n) 3 0
def sRetype (n : Nat) : State :=
  let l : Link := { plantLink (plantEnd 1 0 false 4) (plantEnd 0 0 false 0) [retype n] with lat := [none] }
  { State.reset with actor := .node u0, regions := [{ plantRegion with plane := [(0, [])], cells := [(0, {})], links := [l] }] }
/-- The hypotheses under which two matched heads are compared. -/
def matches2 (x y : Beat) : Prop :=
  ∃ s u rg e0 e, regionAt s u.reg = some rg ∧ nodeEnv s u (NodeWord.ofBits (nodeBits rg.plane u.off u.ctx)) = some e0 ∧
    awakeNode (nodeInstr rg u) e0 = e ∧
    e.matched 0 = true ∧ e.matched 1 = true ∧ e.checkPort 0 false = .fine ∧ e.checkPort 1 false = .fine ∧ e.head 0 = some x ∧ e.head 1 = some y
def retypes (n : Nat) : Prop :=
  ∃ s u rg e b j l, regionAt s u.reg = some rg ∧ nodeEnv s u (NodeWord.ofBits (nodeBits rg.plane u.off u.ctx)) = some e ∧
    e.head 0 = some b ∧ e.rg.inLink e.off false e.ctx 0 = some j ∧ e.rg.linkAt j = some l ∧ e.checkPort 0 false = .hold ∧
    b.isCfg = true ∧ b.spec = false ∧ l.lat ≠ [] ∧ b.pay.toNat = n ∧ n / 2 ^ 16 = 0 ∧ n / 2 ^ 6 % 4 = 0 ∧
    (n / 2 ^ 5 % 2 = 0 → n % 32 ≠ 0 ∧ e.rg.poolUse e.off j + n % 32 ≤ 64)
def wZero : NodeWord := NodeWord.ofBits 0
theorem meets_tokens :
    (∃ s u i ps e0 e b, defaultNode s u = some (i, ps, e0) ∧ awakeNode (some i) e0 = e ∧ e.cs.op.owe = [] ∧ (∀ p ∈ ps, e.checkPort p false = .fine) ∧ e.unmatched 0 1 = false ∧
      e.unmatched 2 3 = false ∧ e.cs.op.held = [] ∧ e.someToken ps = true ∧ tokensAgree (ps.map e.head) = .agreed b ∧ e.lack [b] [b] = []) ∧
    matches2 d5 d6 ∧ matches2 d6 d5 ∧ matches2 d5 stop1 ∧ matches2 stop1 d5 ∧ retypes 3 ∧ retypes 32 :=
  ⟨⟨sTok, u0, .iadd wZero, srcPorts wZero, env sTok wZero, env sTok wZero, rlx0, by rfl, by rfl, by rfl, by decide, by rfl, by rfl, by rfl, by rfl, by rfl, by decide⟩,
   ⟨sMatch d5 d6, u0, _, _, _, rfl, rfl, by rfl, by decide, by decide, by decide, by decide, by rfl, by rfl⟩,
   ⟨sMatch d6 d5, u0, _, _, _, rfl, rfl, by rfl, by decide, by decide, by decide, by decide, by rfl, by rfl⟩,
   ⟨sMatch d5 stop1, u0, _, _, _, rfl, rfl, by rfl, by decide, by decide, by decide, by decide, by rfl, by rfl⟩,
   ⟨sMatch stop1 d5, u0, _, _, _, rfl, rfl, by rfl, by decide, by decide, by decide, by decide, by rfl, by rfl⟩,
   ⟨sRetype 3, u0, _, _, retype 3, 0, _, rfl, rfl, by rfl, by rfl, rfl, by decide, by decide, by decide, by decide, by decide, by decide, by decide, by decide⟩,
   sRetype 32, u0, _, _, retype 32, 0, _, rfl, rfl, by rfl, by rfl, rfl, by decide, by decide, by decide, by decide, by decide, by decide, by decide, by decide⟩

/-! ### Links, bridges, stream ports -/

/-- A running region with these links. -/
def rgL (ls : List Link) : Region := { plantRegion with links := ls }
def stL (ls : List Link) : State := { State.reset with regions := [rgL ls] }
def lk (q : List Beat) : Link := plantLink (plantEnd 1 0 false 4) (plantEnd 0 0 false 0) q
def cross0 : Crossing := { at_ := 0, dir := 0, circ := 0, share := 8, allow := 8, ret := 0, far := [] }
def lkX : Link := { lk [] with pipe := [d5], crossings := [cross0] }
/-- A link over Slaundene port 0 with an allowance to give back. -/
def lkF : Link := { lk [] with pipe := [d5], crossings := [{ cross0 with dir := 8, ret := 1 }] }
/-- A poisoned beat at the egress of a region that traps poison. -/
def stPois : State :=
  { State.reset with regions := [{ rgL [{ lkF with pipe := [{ d5 with poison := true }] }] with
      inv := some { plantInv with entry := { plantInv.entry with mode := 16 } } }] }
def flit0 : BridgeFlit := { reg := plantReg, link := 0, seq := 0, beat := d5 }
def withBridge (s : State) (b : Bridge) : State := { s with bridges := [b] }
theorem some_of {α : Type} {o : Option α} (h : o.isSome = true) : ∃ x, o = some x := Option.isSome_iff_exists.mp h
/-- What stands at the egress of port 0, and whether it faults there. -/
theorem egress {h : State} {bad : Bool} (e : ((nextSend h 8 0).map fun y => (egressFault h y.1 y.2.1 y.2.2.2.2).isSome) = some bad) :
    ∃ r j circ l x, nextSend h 8 0 = some (r, j, circ, l, x) ∧ (egressFault h r j x).isSome = bad := by
  cases hn : nextSend h 8 0 with
  | none => rw [hn] at e; cases e
  | some y => rw [hn] at e; exact ⟨_, _, _, _, _, rfl, Option.some.inj e⟩
theorem meets_links_and_bridges :
    (∃ s r k rg l, regionAt s r = some rg ∧ rg.linkAt k = some l ∧ rg.running = true ∧ l.live = true ∧ l.dist = []) ∧
    (∃ s r k rg l, regionAt s r = some rg ∧ rg.linkAt k = some l ∧ rg.running = true ∧ l.refill = false ∧ l.ret ≠ 0) ∧
    (∃ s dir r j i circ rg x l1, dir < 8 ∧ (let b := bridgeAt s dir
      b.stopped = false ∧ b.retry.length < 512 ∧
      (((circuits s dir).filter (canSend s)).find? fun x => decide (b.turn ≤ x.2.2.2)) = some (r, j, i, circ) ∧ regionAt s r = some rg ∧
      ((rg.linkAt j).bind fun l => l.leaving i) = some (x, l1))) ∧
    (∀ bad, ∃ s port sp r j circ l x, (let h := holdBeats s port
      h.sports[port]? = some sp ∧ sp.stopped = false ∧ sp.outgoing.length < 512 ∧
      nextSend h (8 + port) sp.turn = some (r, j, circ, l, x) ∧ (egressFault h r j x).isSome = bad)) ∧
    (∃ s r k dir rg l i, regionAt s r = some rg ∧ rg.linkAt k = some l ∧ l.crossIx dir = some i ∧ dir < 8) ∧
    (∃ s r k dir rg l i x, regionAt s r = some rg ∧ rg.linkAt k = some l ∧ l.crossIx dir = some i ∧ 8 ≤ dir ∧ l.farReturn i = some x) ∧
    (∃ s dir f rest, let b := bridgeAt s dir
      b.wire = f :: rest ∧ b.stopped = false ∧ f.seq = b.recvSeq ∧ b.refused + 1 < 8 ∧ regionAt s f.reg = none) ∧
    (∃ s dir f rest rg, let b := bridgeAt s dir
      b.wire = f :: rest ∧ b.stopped = false ∧ f.seq = b.recvSeq ∧ regionAt s f.reg = some rg) ∧
    (∃ s dir, let b := bridgeAt s dir
      b.stopped = false ∧ b.retry ≠ [] ∧ b.wire = [] ∧ dir < 8) ∧
    (∃ (s : State) (k : Nat) (t : StatTok), s.statLane[k]? = some t ∧ t.entered = false) ∧
    (∃ (s : State) (k : Nat) (t : StatTok), s.statLane[k]? = some t ∧ t.entered = true) :=
  ⟨⟨stL [lk [d5]], plantReg, 0, _, _, rfl, rfl, by decide, by decide, by decide⟩,
   ⟨stL [{ lk [] with ret := 1 }], plantReg, 0, _, _, rfl, rfl, by decide, by decide, by decide⟩,
   ⟨stL [lkX], 0, plantReg, 0, 0, 0, _, _, _, by decide, by decide, by decide, by decide +kernel, rfl, rfl⟩,
   (fun bad => match bad with
     | false => (let ⟨r, j, circ, l, x, h⟩ := egress (h := holdBeats (stL [lkF]) 0) (bad := false) (by decide +kernel)
         ⟨stL [lkF], 0, {}, r, j, circ, l, x, by decide +kernel, by rfl, by decide, h.1, h.2⟩)
     | true => (let ⟨r, j, circ, l, x, h⟩ := egress (h := holdBeats stPois 0) (bad := true) (by decide +kernel)
         ⟨stPois, 0, {}, r, j, circ, l, x, by decide +kernel, by rfl, by decide, h.1, h.2⟩)),
   ⟨stL [lkX], plantReg, 0, 0, _, _, 0, rfl, rfl, by rfl, by decide⟩,
   ⟨stL [lkF], plantReg, 0, 8, _, _, 0, _, rfl, rfl, by rfl, by decide, by rfl⟩,
   ⟨withBridge State.reset { wire := [flit0], retry := [flit0] }, 0, flit0, [], by rfl, by rfl, by rfl, by decide, by rfl⟩,
   ⟨withBridge (stL [lkX]) { wire := [flit0], retry := [flit0] }, 0, flit0, [], _, by rfl, by rfl, by rfl, rfl⟩,
   ⟨withBridge State.reset { retry := [flit0] }, 0, by rfl, by decide, by rfl, by decide⟩,
   ⟨{ State.reset with statLane := [⟨0, plantReg, ⟨0, 0⟩, 0, false, 0, 0, 0⟩] }, 0, _, rfl, by rfl⟩,
   { State.reset with statLane := [⟨0, plantReg, ⟨0, 0⟩, 0, true, 0, 0, 0⟩] }, 0, _, rfl, by rfl⟩
/-- Beats at inbound port k of the stream port, whose port 0 is its REQ port and port 1 its DATA port. -/
def stSp (k : Nat) (q : List Beat) (sp : Sp) : State :=
  { State.reset with
    actor := .sp plantReg ⟨7, 0⟩,
    regions := [{ plantRegion with plane := [(offKey ⟨7, 0⟩, [(0, 9)])], sps := [sp],
                                   links := [plantLink (plantEnd 0 0 false 4) (plantEnd 7 0 true k) q] }] }
def spO : Offset := ⟨7, 0⟩
def head0 : SpbHead := { (default : SpbHead) with fmt := .n32 }
def mark0 : Beat := markBeat 3 0 0
def tdr0 : Beat := markBeat 5 0 0
/-- The two CFG beats of an SPB. -/
def pair0 : List Beat := [cfgBeat 0 0 0, cfgBeat 0 1 0]
def sp0 : Sp := { off := ⟨7, 0⟩ }
def accepts (i : Instr) (bad : Bool) : Prop :=
  ∃ s r o rg sp k a b n, s.actor = .sp r o ∧ spOf s r o = some (rg, sp) ∧ rg.running = true ∧ rg.isHalted 1 o 0 = false ∧ reqPort rg o = some k ∧
    pairAtHead (spHeads rg o k) = some (a, b) ∧ a.spec = false ∧ b.spec = false ∧ sp.slots.findIdx? Option.isNone = some n ∧
    (spbCheck rg o i).isSome = bad
theorem accepted {i : Instr} {bad : Bool} (h : ((((spOf (stSp 0 pair0 sp0) plantReg spO).map fun x => spbCheck x.1 spO i).getD none).isSome == bad) = true) :
    accepts i bad :=
  ⟨stSp 0 pair0 sp0, plantReg, spO, _, sp0, 0, cfgBeat 0 0 0, cfgBeat 0 1 0, 0, rfl, rfl, by decide, by decide, by decide, by decide, by decide,
    by decide, by decide, eq_of_beq h⟩
theorem meets_accepts : accepts (.linRead head0 default) true ∧ accepts (.copy head0 { (default : CopyBody) with len := 4 }) false ∧
    accepts (.scat head0 default) true ∧ accepts (.flush head0 ⟨0⟩) false ∧ accepts (.pref head0 { (default : PrefBody) with len := 1 }) false :=
  ⟨accepted (by decide), accepted (by decide), accepted (by decide), accepted (by decide), accepted (by decide)⟩
/-- A finished SPB in slot 0. -/
def slot0 : Slot := { spb := .flush head0 ⟨0⟩, stamp := 0, port := 0, deadline := 0, round := 0 }
def spS (sl : Slot) : Sp := { sp0 with slots := some sl :: List.replicate 7 none }
theorem meets_streamPorts :
    (∃ s r o rg sp s1 rg1, SpReady (sendReplies s r o) r o rg sp ∧ firstAhead (sendReplies s r o) rg o sp (edfOrder sp.busy) = none ∧ firstStep (sendReplies s r o) rg o sp (edfOrder sp.busy) = some s1 ∧
      regionAt s1 r = some rg1) ∧
    (∃ s r o n rg sp sl, SpReady (sendReplies s r o) r o rg sp ∧ sp.slots.getD n none = some sl ∧
      (sl.finished && !sl.faulted && sl.items.isEmpty && sl.cur.isEmpty && sl.outst == 0) = true) ∧
    (∃ (s : State) (k : Nat) (t : EvTok), s.evLane[k]? = some t) ∧
    (∃ s r o rg sp k b rest, SpReady (sendReplies s r o) r o rg sp ∧ reqPort rg o = some k ∧ spHeads rg o k = b :: rest ∧
      b.isMark = true ∧ (b.isDrn = true ∨ b.isEoi = true → sp.busy = []) ∧ b.isTdr = false) ∧
    (∃ s r o rg sp k b rest, SpReady (sendReplies s r o) r o rg sp ∧ reqPort rg o = some k ∧ spHeads rg o k = b :: rest ∧
      b.isMark = true ∧ (b.isDrn = true ∨ b.isEoi = true → sp.busy = []) ∧ b.isTdr = true) ∧
    (∃ s r o rg sp k b rest, SpReady s r o rg sp ∧ spRole rg o k = 2 ∧ spHeads rg o k = b :: rest ∧ b.isCfg = false ∧ b.isMark = true ∧ b.isEog = true ∧
      (sp.side k).settled = true) ∧
    (∃ s r o rg sp k b rest, SpReady s r o rg sp ∧ spRole rg o k = 2 ∧ spHeads rg o k = b :: rest ∧ b.isRel = true ∧ (sp.side k).settled = true ∧
      writesFrom s r o k = false) :=
  ⟨⟨stSp 0 [] (spS slot0), plantReg, spO, _, _, _, _, ⟨rfl, by decide, by decide⟩, by decide +kernel, rfl, rfl⟩,
   ⟨stSp 0 [] (spS { slot0 with finished := true }), plantReg, spO, 0, _, _, _, ⟨rfl, by decide, by decide⟩, rfl, by decide⟩,
   ⟨{ State.reset with evLane := [⟨plantReg, spO, 0, 0⟩] }, 0, _, rfl⟩,
   ⟨stSp 0 [mark0] sp0, plantReg, spO, _, _, 0, mark0, [], ⟨rfl, by decide, by decide⟩, by decide, by rfl, by decide, by decide, by decide⟩,
   ⟨stSp 0 [tdr0] sp0, plantReg, spO, _, _, 0, tdr0, [], ⟨rfl, by decide, by decide⟩, by decide, by rfl, by decide, by decide, by decide⟩,
   ⟨stSp 1 [mark0] sp0, plantReg, spO, _, _, 1, mark0, [], ⟨rfl, by decide, by decide⟩, by decide, by rfl, by decide, by decide, by decide, by rfl⟩,
   stSp 1 [markBeat 0 0 0] sp0, plantReg, spO, _, _, 1, markBeat 0 0 0, [], ⟨rfl, by decide, by decide⟩, by decide, by rfl, by decide, by rfl, by decide⟩

/-! ### Matrix engines -/

def meO : Offset := ⟨7, 4⟩
def me0 : Me := { off := ⟨7, 4⟩ }
/-- The engine m with beats at its port 0, its port 0 routed out in FP32, and entry k acting. -/
def stMe (k : Nat) (q : List Beat) (m : Me) : State :=
  { State.reset with
    actor := .me plantReg meO k,
    regions := [{ plantRegion with
      plane := [(offKey meO, [(5, BitVec.ofNat 24 (2 ^ 23 + Fmt.fp32.code.toNat * 2 ^ 12))])], mes := [m],
      links := [plantLink (plantEnd 0 0 false 4) (plantEnd 7 4 true 0) q, plantLink (plantEnd 7 4 true 0) (plantEnd 0 0 false 0) []] }] }
def cmd0 : MCmd := { (default : MCmd) with pmask := 1, nrow := 1 }
def cmdF : MCmd := { cmd0 with fa := .bf16, fb := .bf16, fd := .fp32 }
def ent (i : Instr) : MeEntry := { cmd := some i, marker := none, tag := 0, round := 0 }
/-- The run of entry 0 of an engine. -/
def runOf (m : Me) (q : List Beat) (e : MeEntry) : MeRun := ⟨(stMe 0 q m).regions.getD 0 default, m, 0, e⟩
def withE (m : Me) (e : MeEntry) : Me := { m with queue := [e] }
/-- Command i may start at an engine that meets this. -/
def starts (code : Nat) (i : MCmd → Instr) (rest : MeRun → Prop) : Prop := ∃ s c x, MeStarts s code c x ∧ x.e.cmd = some (i c) ∧ rest x
theorem meets_matrixStarts :
    starts 2 .mswap (fun x => x.m.tlf = true) ∧ starts 5 .mzero (fun _ => True) ∧
    starts 6 .mfmt (fun x => pairOk x.e.code.2.fa x.e.code.2.fb x.e.code.2.fd = true) ∧ starts 7 .mmigr (fun _ => True) ∧
    starts 1 .mload (fun x => x.m.tlf = false) ∧ starts 1 .mload (fun x => x.m.tlf = true) ∧
    starts 3 .mmul (fun x => x.m.taf = true) ∧ starts 3 .mmul (fun x => x.m.taf = false) ∧
    starts 4 .mdrain (fun _ => True) ∧ starts 8 .mcount (fun x => x.rg.pureInv = none) :=
  ⟨⟨stMe 0 [] (withE { me0 with tlf := true } (ent (.mswap cmd0))), cmd0, runOf (withE { me0 with tlf := true } (ent (.mswap cmd0))) [] (ent (.mswap cmd0)), ⟨⟨rfl, by decide, by rfl, by rfl, by rfl, by decide⟩, by rfl, by decide, by decide⟩, by rfl, by decide⟩,
   ⟨stMe 0 [] (withE me0 (ent (.mzero cmd0))), cmd0, runOf (withE me0 (ent (.mzero cmd0))) [] (ent (.mzero cmd0)), ⟨⟨rfl, by decide, by rfl, by rfl, by rfl, by decide⟩, by rfl, by decide, by decide⟩, by rfl, trivial⟩,
   ⟨stMe 0 [] (withE me0 (ent (.mfmt cmdF))), cmdF, runOf (withE me0 (ent (.mfmt cmdF))) [] (ent (.mfmt cmdF)), ⟨⟨rfl, by decide, by rfl, by rfl, by rfl, by decide⟩, by rfl, by decide, by decide⟩, by rfl, by decide⟩,
   ⟨stMe 0 [] (withE me0 (ent (.mmigr cmd0))), cmd0, runOf (withE me0 (ent (.mmigr cmd0))) [] (ent (.mmigr cmd0)), ⟨⟨rfl, by decide, by rfl, by rfl, by rfl, by decide⟩, by rfl, by decide, by decide⟩, by rfl, trivial⟩,
   ⟨stMe 0 [] (withE me0 (ent (.mload cmd0))), cmd0, runOf (withE me0 (ent (.mload cmd0))) [] (ent (.mload cmd0)), ⟨⟨rfl, by decide, by rfl, by rfl, by rfl, by decide⟩, by rfl, by decide, by decide⟩, by rfl, by decide⟩,
   ⟨stMe 0 [] (withE { me0 with tlf := true } (ent (.mload cmd0))), cmd0, runOf (withE { me0 with tlf := true } (ent (.mload cmd0))) [] (ent (.mload cmd0)), ⟨⟨rfl, by decide, by rfl, by rfl, by rfl, by decide⟩, by rfl, by decide, by decide⟩, by rfl, by decide⟩,
   ⟨stMe 0 [] (withE { me0 with taf := true } (ent (.mmul cmd0))), cmd0, runOf (withE { me0 with taf := true } (ent (.mmul cmd0))) [] (ent (.mmul cmd0)), ⟨⟨rfl, by decide, by rfl, by rfl, by rfl, by decide⟩, by rfl, by decide, by decide⟩, by rfl, by decide⟩,
   ⟨stMe 0 [] (withE me0 (ent (.mmul cmd0))), cmd0, runOf (withE me0 (ent (.mmul cmd0))) [] (ent (.mmul cmd0)), ⟨⟨rfl, by decide, by rfl, by rfl, by rfl, by decide⟩, by rfl, by decide, by decide⟩, by rfl, by decide⟩,
   ⟨stMe 0 [] (withE me0 (ent (.mdrain cmd0))), cmd0, runOf (withE me0 (ent (.mdrain cmd0))) [] (ent (.mdrain cmd0)), ⟨⟨rfl, by decide, by rfl, by rfl, by rfl, by decide⟩, by rfl, by decide, by decide⟩, by rfl, trivial⟩,
   stMe 0 [] (withE me0 (ent (.mcount cmd0))), cmd0, runOf (withE me0 (ent (.mcount cmd0))) [] (ent (.mcount cmd0)), ⟨⟨rfl, by decide, by rfl, by rfl, by rfl, by decide⟩, by rfl, by decide, by decide⟩, by rfl, by rfl⟩
/-- An entry that has started. -/
def runE (i : Instr) (line beat : Nat) (buf : List Beat) : MeEntry := { ent i with started := true, line := line, beat := beat, lineBuf := buf }
def buf3 : List Beat := [d5, d5, d5]
theorem meets_matrixRuns :
    (∃ s c x b l keep, MeHolds s 1 c x ∧ x.e.started = true ∧ OperandLine x x.m.fb x.m.tln b l keep ∧ x.m.tln = 63) ∧
    (∃ s c x b l keep, MeHolds s 3 c x ∧ x.e.started = true ∧ OperandLine x x.m.fa x.e.line b l keep ∧ x.e.migrated = false ∧ x.e.line + 1 = c.nrow.toNat) ∧
    (∃ s c x, MeHolds s 4 c x ∧ x.e.started = true ∧ x.e.beat + 1 = drainBeats x.m.fd * c.nrow.toNat ∧
      (let bd := drainBeats x.m.fd
       let d := drainBeat x.m (rowKey c (x.e.beat / bd)) (x.e.beat % bd) x.e.round (c.tagb.toNat + x.e.beat)
       x.rg.roomFor x.m.off true 0 c.oport.toNat [d.1] = true)) ∧
    (∃ s c x, MeHolds s 8 c x ∧ x.e.started = true ∧ x.rg.roomFor x.m.off true 0 c.oport.toNat [countBeat x.m c x.e.round] = true) :=
  ⟨⟨stMe 0 [d5] (withE { me0 with tln := 63 } (runE (.mload cmd0) 0 0 buf3)), cmd0, runOf (withE { me0 with tln := 63 } (runE (.mload cmd0) 0 0 buf3)) [d5] (runE (.mload cmd0) 0 0 buf3),
     d5, _, _, ⟨rfl, by decide, by rfl, by rfl, by rfl, by decide⟩, by rfl, ⟨by rfl, by decide, by decide, by rfl, by rfl, rfl⟩, by rfl⟩,
   ⟨stMe 0 [d5] (withE me0 (runE (.mmul cmd0) 0 0 buf3)), cmd0, runOf (withE me0 (runE (.mmul cmd0) 0 0 buf3)) [d5] (runE (.mmul cmd0) 0 0 buf3),
     d5, _, _, ⟨rfl, by decide, by rfl, by rfl, by rfl, by decide⟩, by rfl, ⟨by rfl, by decide, by decide, by rfl, by rfl, rfl⟩, by rfl, by rfl⟩,
   ⟨stMe 0 [] (withE me0 (runE (.mdrain cmd0) 0 7 [])), cmd0, runOf (withE me0 (runE (.mdrain cmd0) 0 7 [])) [] (runE (.mdrain cmd0) 0 7 []),
     ⟨rfl, by decide, by rfl, by rfl, by rfl, by decide⟩, by rfl, by decide, by decide⟩,
   stMe 0 [] (withE me0 (runE (.mcount cmd0) 0 0 [])), cmd0, runOf (withE me0 (runE (.mcount cmd0) 0 0 [])) [] (runE (.mcount cmd0) 0 0 []),
     ⟨rfl, by decide, by rfl, by rfl, by rfl, by decide⟩, by rfl, by decide⟩
/-- What a command beat at port 0 needs to be looked at. -/
def enqueues (unused limits : Bool) : Prop :=
  ∃ s r o rg m k b rest i, meOf s r o = some (rg, m) ∧ m.off = o ∧ cfgPort rg o = some k ∧ blockHeads rg o k = b :: rest ∧ rg.beyondCut m.round = false ∧
    b.poison = false ∧ b.spec = false ∧ b.level = 2 ∧ meGroupAt m k = false ∧ m.queue.length < 16 ∧ decodeCmd b.pay = .ok i ∧
    (let e := MeEntry.code { cmd := some i, marker := none, tag := 0, round := 0 }
     meUnused e.1 e.2 = unused ∧ meLimits rg o e.1 e.2 = limits)
def cmdBeat (code n : Nat) : Beat := cfgBeat (BitVec.ofNat 256 (code * 2 ^ 248 + n)) 2 0
/-- Two engines, one eight rows above the other, with migration enabled in both planes. -/
def two (a b : Me) : State :=
  { State.reset with
    cycle := 1000,
    regions := [{ plantRegion with
      h := 16, plane := [(offKey meO, [(9, 1)]), (offKey ⟨7, 12⟩, [(9, 1)])], mes := [a, { b with off := ⟨7, 12⟩ }] }] }
def host0 : Hosted := { (default : Hosted) with reg := plantReg, off := meO, tag := 0 }
theorem meets_matrixQueues : enqueues true true ∧ enqueues false true ∧ enqueues true false ∧
    (∃ s r o rg m e q b, meOf s r o = some (rg, m) ∧ m.queue = e :: q ∧ e.marker = some b) ∧
    (∃ s r o rg m b, meOf s r o = some (rg, m) ∧ m.queue = [] ∧ rg.beyondCut m.round = false ∧ oddPort rg m (linkedPorts rg o) = none ∧
      linkedPorts rg o ≠ [] ∧ (∀ k ∈ linkedPorts rg o, ∃ x, (blockHeads rg m.off k).head? = some x ∧ x.isMark = true) ∧
      tokensAgree ((linkedPorts rg o).map fun k => (blockHeads rg m.off k).head?) = .agreed b) ∧
    (∃ s r o k south rg m p rg1 n e, meOf s r o = some (rg, m) ∧ neighbourPos (rg.posOf o) south = some p ∧ meAtPos s r.seq.part p = some (rg1, n) ∧
      m.queue[k]? = some e ∧ mayMigrate s.cycle.toNat rg m k = true ∧ migEn rg1 n.off = true ∧ n.queue = [] ∧ n.hosted = none) ∧
    (∃ s r o rg m k e r1 o1 h, meOf s r o = some (rg, m) ∧ (m.queue.findIdx? fun e => e.migrated && e.line == e.code.2.nrow.toNat) = some k ∧
      m.queue[k]? = some e ∧ hostOf s r o e.tag = some (r1, o1, h)) :=
  ⟨⟨stMe 16 [cmdBeat 2 0] me0, plantReg, meO, _, _, 0, cmdBeat 2 0, [], .mswap (MCmd.ofBits (cmdBeat 2 0).pay), rfl, by rfl, by decide, by rfl, by decide, by decide, by decide, by decide, by decide, by decide, by rfl,
      by decide, by decide⟩,
   ⟨stMe 16 [cmdBeat 2 1] me0, plantReg, meO, _, _, 0, cmdBeat 2 1, [], .mswap (MCmd.ofBits (cmdBeat 2 1).pay), rfl, by rfl, by decide, by rfl, by decide, by decide, by decide, by decide, by decide, by decide, by rfl,
      by decide, by decide⟩,
   ⟨stMe 16 [cmdBeat 5 0] me0, plantReg, meO, _, _, 0, cmdBeat 5 0, [], .mzero (MCmd.ofBits (cmdBeat 5 0).pay), rfl, by rfl, by decide, by rfl, by decide, by decide, by decide, by decide, by decide, by decide, by rfl,
      by decide, by decide⟩,
   ⟨stMe 16 [] (withE me0 { cmd := none, marker := some mark0, tag := 0, round := 0 }), plantReg, meO, _, _, _, _, _, rfl, rfl, rfl⟩,
   ⟨stMe 16 [mark0] me0, plantReg, meO, _, _, mark0, rfl, rfl, by decide, by decide, by decide,
      fun k h => ⟨mark0, by rw [show k = 0 from by revert h; decide +revert]; rfl, by decide⟩, by decide⟩,
   ⟨two { withE me0 (ent (.mmul cmd0)) with taf := true, mon := true } me0, plantReg, meO, 0, true, _, _, _, _, _, _, rfl, rfl, rfl, rfl, by decide, by decide, rfl, rfl⟩,
   two (withE me0 { ent (.mmul cmd0) with migrated := true, line := 1 }) { me0 with hosted := some host0 }, plantReg, meO, _, _, 0, _, _, _, _, rfl, by decide, rfl, rfl⟩

/-! ### Accesses and translations -/

/-- Partition 0 with these contents, and the rest as sq leaves it. -/
def withPart (s : State) (p : Part) : State := { s with parts := lmod s.parts 0 fun _ => p }
def req0 (t : Target) (acc : Access) : MemReq := { id := 7, part := 0, who := .seqLoad p0 1 false, va := 0x100, tgt := t, key := (t.key).getD 0, acc := acc, deadline := 5 }
def stReq (q : MemReq) : State := { sq run0 [] with reqs := [q] }
/-- An access of these properties can perform in state s. -/
def performs (s : State) (q : MemReq) : Prop :=
  ∃ id s2 bs pois, (s.reqs.find? fun x => x.id == id) = some q ∧ mayPerform s q = true ∧ (∀ m d a, q.tgt = .remote m d a → q.sent = true) ∧
    performAt s q = .ok s2 bs pois
/-- A late read of an SP at its own port. -/
def nearQ : MemReq := { req0 (.dram 0 0) (.read 8) with who := .elem plantReg ⟨7, 0⟩ 0 0 0 }
def near : State := withRg { stReq nearQ with cycle := 6 } plantRegion
theorem meets_accesses :
    (∃ s q, performs s q ∧ s.cycle.toNat ≤ q.deadline ∧ q.reads = true ∧ q.atBank = false) ∧
    (∃ s q, performs s q ∧ s.cycle.toNat ≤ q.deadline ∧ q.reads = false ∧ q.atBank = false) ∧
    (∃ s q, performs s q ∧ s.cycle.toNat ≤ q.deadline ∧ q.atBank = true) ∧
    (∃ s q, performs s q ∧ q.deadline < s.cycle.toNat ∧ onMesh s q = false ∧ q.reads = true ∧ q.atBank = false) ∧
    (∃ s q, performs s q ∧ q.deadline < s.cycle.toNat ∧ onMesh s q = true ∧ (partAt s q.part).dlTrap = true ∧ q.reads = true ∧ q.atBank = false) :=
  ⟨⟨stReq (req0 (.host 0x100) (.read 8)), _, ⟨7, _, _, _, rfl, by decide, (fun _ _ _ h => nomatch h), rfl⟩, by decide, by decide, by decide⟩,
   ⟨stReq (req0 (.host 0x100) (.write [1] false)), _, ⟨7, _, _, _, rfl, by decide, (fun _ _ _ h => nomatch h), rfl⟩, by decide, by decide, by decide⟩,
   ⟨withRg (stReq (req0 (.bank ⟨0, 0⟩ 0) (.read 8))) { plantRegion with plane := [(0, [(48, 0x800000)])] }, _, ⟨7, _, _, _, rfl, by decide, (fun _ _ _ h => nomatch h), rfl⟩, by decide, by decide⟩,
   ⟨near, nearQ, ⟨7, _, _, _, rfl, by decide, (fun _ _ _ h => nomatch h), rfl⟩, by decide, by decide, by decide, by decide⟩,
   withPart { stReq (req0 (.host 0x100) (.read 8)) with cycle := 6 } { part0 with dlTrap := true }, _,
     ⟨7, _, _, _, rfl, by decide, (fun _ _ _ h => nomatch h), rfl⟩, by decide, by rfl, by decide, by decide, by decide⟩
def walk0 (va : Nat) (again : Bool) : Walk := { id := 3, part := 0, va := va, write := false, sp := 0, started := true, waiters := [⟨.seq p0, va, false⟩], again := again }
def note0 (w : Bool) : Notice := { nseq := 1, fva := 0x100, cause := 1, level := 0, waiter := .slot plantReg spO 0, slot := 0, spix := 0, die := 0, written := w, since := 0 }
def walks (s : State) (va : Nat) (again : Bool) : State := { s with walks := [walk0 va again] }
theorem ofOption {ε α : Type} {x : Except ε α} {a : α} (h : x.toOption = some a) : x = .ok a := by cases x <;> simp_all [Except.toOption]
/-- A queue of the host. -/
def queue0 : NQueue := { base := 0x10000, host := true }
theorem meets_translations :
    (∃ (s : State) (id : Nat) (w : Walk), (s.walks.find? fun x => x.id == id) = some w ∧ w.started = true ∧ w.again = true) ∧
    (∃ (s : State) (id : Nat) (w : Walk), (s.walks.find? fun x => x.id == id) = some w ∧ w.started = true ∧ w.again = false ∧ w.waiters ≠ []) ∧
    (∃ (s : State) (p : Nat) (j : Join) (e : TlbEntry), walk s p j.va j.write = .ok e) ∧
    (∃ (s : State) (p : Nat) (j : Join) (m : Miss), walk s p j.va j.write = .error m) ∧
    (∃ s p, (partAt s p).invBusy = false) ∧ (∃ s p, (partAt s p).invBusy = true) ∧
    (∃ s p, let x := partAt s p; x.invBusy = true ∧ s.reqs.any (fun q => x.invWait.contains q.id) = false ∧ x.notices = []) ∧
    (∃ s p seq n, let s0 := setPart s p { partAt s p with resume := seq }
      ((partAt s0 p).notices.find? fun n => n.nseq == seq) = some n ∧ winSaved s0 p n.fva = false) ∧
    (∃ s p n t, ((partAt s p).notices.find? fun n => !n.written) = some n ∧ deliverNotice s p n = some t) :=
  ⟨⟨walks (sq run0 []) 0x100 true, 3, walk0 0x100 true, by rfl, by rfl, by rfl⟩, ⟨walks (sq run0 []) 0x100 false, 3, walk0 0x100 false, by rfl, by rfl, by rfl, by decide⟩,
   ⟨sq run0 [], 0, ⟨.seq p0, 0x100, false⟩, ⟨0, 36, BitVec.ofNat 64 (2 ^ 63 + 3 * 2 ^ 59 + 2 ^ 49)⟩, ofOption (by decide +kernel)⟩,
   ⟨withPart (sq run0 []) (shapedPart 0 1), 0, ⟨.seq p0, 0x100, false⟩, .page 0x01 0, by rfl⟩,
   ⟨sq run0 [], 0, by decide⟩, ⟨withPart (sq run0 []) { part0 with invBusy := true }, 0, by decide⟩,
   ⟨withPart (sq run0 []) { part0 with invBusy := true }, 0, by decide, by decide, by decide⟩,
   ⟨withPart (sq run0 []) { part0 with notices := [note0 true] }, 0, 1, note0 true, by rfl, by decide⟩,
   withPart (sq run0 []) { part0 with notices := [note0 false], fnq := queue0 }, 0, note0 false, _, by rfl, rfl⟩
/-- A stream buffer that ends in an overflow chunk with a slot left, at VA 100H. -/
def ovfRg (s : State) : Region := { (s.regions.getD 0 default) with ovfVa := 0x100 }
def sOvf : State :=
  let s := sSegs {} 0x200000 { beats := [d5], parts := [⟨some (.ovf 0), 1, 1⟩] }
  { s with regions := [ovfRg s], parts := (sq run0 []).parts, mem := (sq run0 []).mem }
theorem meets_pushOverflow : ∃ s u w e d k i x, NodeReady s u w e [portA w] [portA w] false ∧ e.head (portA w) = some d ∧
    (let g := segAt e.cell (segNo w)
     g.space (segDesc e.rg.plane e.off (segNo w)) ≠ 0 ∧ g.ovfSlot = some (k, i) ∧ immTarget s e.rg.id.seq.part (ovfAt e.rg k i) true = .ok x) := by
  obtain ⟨x, hx⟩ := some_of (show (immTarget sOvf 0 (ovfAt (env sOvf w0).rg 0 1) true).toOption.isSome = true from by decide +kernel)
  exact ⟨sOvf, u0, w0, env sOvf w0, d5, 0, 1, x, ready (by decide), by rfl, by decide, by rfl, ofOption hx⟩

/-! ### Configuration words -/

/-- A feed whose next word is w, before its VERS or with the cursor at (1, 0). -/
def feed0 (w : Word) (begun : Bool) : Feed := { for_ := .install, words := [w], complete := true, begun := begun, cursor := some ⟨1, 0⟩, plane := [] }
def rgC (f : Feed) : Region := { plantRegion with installed := false, feed := some f }
def stC (f : Feed) : State := { State.reset with actor := .cfg plantReg, regions := [rgC f] }
theorem cfgReady {f : Feed} {w : Word} {adds : Bool} (h : f.words = [w]) (hc : f.closed = false) :
    CfgReady (stC f) (rgC f) adds { f with words := [], sum := if adds then f.sum + w.toNat else f.sum } :=
  ⟨rfl, rfl, f, w, rfl, h, hc, rfl⟩
/-- The feed behind its word. -/
def behind (f : Feed) (w : Word) (adds : Bool) : Feed := { f with words := [], sum := if adds then f.sum + w.toNat else f.sum }
theorem oneCell (p : Plane) : OneCell (rgC { feed0 0 true with plane := p }) (behind { feed0 0 true with plane := p } 0 true) ⟨1, 0⟩ :=
  ⟨rfl, rfl, rfl, rfl, rfl, by rfl, by rfl⟩
def tileP : Plane := [(offKey ⟨1, 0⟩, [(48, 0x430000)])]
theorem meets_configuration :
    (∃ s rg g, ∃ x : BitVec 28, CfgReady s rg true g ∧ g.begun = false ∧ x.toNat = rg.id.sect) ∧
    (∃ s rg g, ∃ x y : BitVec 14, CfgReady s rg true g ∧ g.begun = true ∧ rg.holds ⟨x.toInt, y.toInt⟩ = true ∧ rg.hardCol x.toInt = true) ∧
    (∃ s rg g c, ∃ x y : BitVec 14, CfgReady s rg true g ∧ g.begun = true ∧ g.cursor = some c ∧ rg.holds ⟨c.dx + x.toInt, c.dy + y.toInt⟩ = true ∧
      rg.holds c = true ∧ 0 ≤ x.toInt ∧ 0 ≤ y.toInt) ∧
    (∃ s rg g c, CfgReady s rg true g ∧ OneCell rg g c ∧ cellFieldErr 26 1 = none ∧ cellFieldErr 92 3 = none ∧ planeField g.plane c 80 + 4 ≤ 2048) ∧
    (∃ s rg g c, ∃ v : BitVec 24, CfgReady s rg true g ∧ OneCell rg g c ∧ bitsOf v.toNat 16 5 = 0 ∧
      ((List.range 16).takeWhile fun i => bitsOf v.toNat i 1 == 1).length = 1 ∧ bitsOf v.toNat 0 16 = 2 ^ 1 - 1 ∧
      (segDesc g.plane c (bitsOf v.toNat 21 3)).typ = 2 ∧ 1 ≤ (segDesc g.plane c (bitsOf v.toNat 21 3)).param + 1) ∧
    (∃ s rg g, ∃ c : BitVec 28, CfgReady s rg false g ∧ g.begun = true ∧ g.sum % 2 ^ 28 = c.toNat ∧ g.complete = true ∧ planeErr rg g.plane = none ∧ bridgeErr s rg g.plane = none ∧
      blocksErr rg g = none) ∧
    (∃ s rg g, ∃ c : BitVec 28, CfgReady s rg false g ∧ g.begun = true ∧ g.sum % 2 ^ 28 ≠ c.toNat) :=
  ⟨⟨stC (feed0 0 false), rgC (feed0 0 false), behind (feed0 0 false) 0 true, 0, cfgReady rfl rfl, by decide, by decide⟩,
   ⟨stC (feed0 0 true), rgC (feed0 0 true), behind (feed0 0 true) 0 true, 7, 0, cfgReady rfl rfl, by decide, by decide, by decide⟩,
   ⟨stC (feed0 0 true), rgC (feed0 0 true), behind (feed0 0 true) 0 true, ⟨1, 0⟩, 1, 1, cfgReady rfl rfl, by decide, by decide, by decide, by decide, by decide, by decide⟩,
   ⟨stC (feed0 0 true), rgC (feed0 0 true), behind (feed0 0 true) 0 true, ⟨1, 0⟩, cfgReady rfl rfl, oneCell [], by decide, by decide, by decide⟩,
   ⟨stC { feed0 0 true with plane := tileP }, rgC { feed0 0 true with plane := tileP }, behind { feed0 0 true with plane := tileP } 0 true, ⟨1, 0⟩, 1,
     cfgReady rfl rfl, oneCell tileP, by decide, by decide, by decide, by decide, by decide⟩,
   ⟨stC (feed0 0 true), rgC (feed0 0 true), behind (feed0 0 true) 0 false, 0, cfgReady rfl rfl, by decide, by decide, by decide, by decide, by decide +kernel, by decide⟩,
   stC (feed0 0 true), rgC (feed0 0 true), behind (feed0 0 true) 0 false, 1, cfgReady rfl rfl, by decide, by decide⟩

/-! ### Entries, saves, resumption -/

def entry0 : ArmEntry := plantInv.entry
/-- An image of two one-cell sections. -/
def sect0 : SectInfo := { (default : SectInfo) with w := 1, h := 1, npos := 1 }
def image2 : Image := { plantImage 0 with sects := [sect0, sect0], parents := [], sectParents := [0xFFFF, 0xFFFF] }
/-- A context of two sections, the second with an entry of priority 3 that waits. -/
def seqW : Seq := { run0 with image := some image2, sects := [{}, { armq := [{ entry0 with prio := 3 }] }] }
def seqP : Seq := { run0 with image := some image2, sects := [{ armq := [entry0], placed := true }] }
def seqDet : Seq := { run0 with image := some image2, sects := [{ armq := [{ entry0 with mode := 1 }], placed := true }] }
/-- A region with two copies of a registered node that keeps rounds. -/
def rgDet : Region :=
  { plantRegion with
    inv := none, plane := [(offKey ⟨1, 1⟩, [(72, BitVec.ofNat 24 (2 ^ 22 + 6 * 2 ^ 19))])],
    layouts := [{ nid := 1, home := (⟨1, 1⟩, 0), copies := [(⟨1, 1⟩, 0), (⟨2, 2⟩, 0)] }] }
theorem meets_entries :
    (∃ (s : State) (p k : Nat) (w : Waiting), (waitingIn s (partAt s p).plgrp)[k]? = some w) ∧
    (∃ s c, let q := seqAt s c
      let t := tAgeOf (partAt s c.part)
      q.st = .run ∧ t ≠ 0 ∧ t ≤ s.cycle.toNat - q.lastIssue) ∧
    (∃ s r rg f ls, regionAt s r = some rg ∧ rg.feed = some f ∧ f.closed = true ∧ f.for_ = .install ∧ f.err = none ∧ linksOf rg f.plane = .ok ls ∧
      (sectAt (seqAt s rg.id.seq) rg.id.sect).comesBack = none ∧ (sectAt (seqAt s r.seq) r.sect).kept = none) ∧
    (∀ due, ∃ s c k i, let q := seqAt s c
      q.image = some i ∧ armGroup q i k = [k] ∧ (sectAt q k).armq ≠ [] ∧ armable s c k = true ∧ seqFree q i k = true ∧ detDue s c k = due) ∧
    (∃ s c k e t rg, let q := seqAt s c
      k < q.sects.length ∧ (sectAt q k).armq = e :: t ∧ regionAt s ⟨c, k⟩ = some rg) :=
  ⟨⟨sq seqW [], 0, 0, _, rfl⟩, ⟨{ sq run0 [] with cycle := 1000000 }, p0, by decide, by decide, by decide⟩,
   ⟨stC { feed0 0 true with words := [], closed := true }, plantReg, _, _, [], rfl, rfl, by rfl, by rfl, by rfl, by rfl, by rfl, by rfl⟩,
   fun due => match due with
     | false => ⟨withRg (sq seqP []) { plantRegion with inv := none }, p0, 0, image2, by rfl, by decide, by decide, by decide, by decide, by decide⟩
     | true => ⟨withRg (sq seqDet []) rgDet, p0, 0, image2, by rfl, by decide, by decide, by decide, by decide, by decide⟩,
   withRg (sq seqP []) plantRegion, p0, 0, entry0, [], _, by decide, by rfl, rfl⟩
/-- The partition with a save area. -/
def partS : Part := { part0 with ckbase := 0x100000, cksize := 65536, pren := true }
def rgCut (c : Cut) : Region := { plantRegion with cut := some c }
def cut0 (forced : Bool) : Cut := { round := 0, forDrain := false, start := 0, forced := forced }
def Tried.isWaits : Tried → Bool
  | .waits => true
  | .done _ => false
theorem waitsE {x : Tried} (h : Tried.isWaits x = true) : x = .waits := by cases x <;> simp_all [Tried.isWaits]
/-- A write of PRECTL for section 0 of context 0, with or without GO. -/
def asks (go : Bool) : BitVec 64 := BitVec.ofNat 64 (if go then 2 ^ 63 else 0)
theorem meets_request :
    (∀ go busy, ∃ s p, ∃ v : BitVec 64, v.getLsbD 63 = go ∧ (partAt s p).preBusy = busy) ∧
    (∃ s p, ∃ v : BitVec 64, let x := partAt s p
      v.getLsbD 63 = true ∧ x.preBusy = false ∧
      regionAt (setPart s p { x with preN := BitVec.ofNat 5 v.toNat, preS := BitVec.ofNat 16 (v.toNat / 2 ^ 16) })
        ⟨⟨p, v.toNat % 32⟩, v.toNat / 2 ^ 16 % 2 ^ 16⟩ = none) ∧
    (∀ fits, ∃ s p, ∃ v : BitVec 64, let x := partAt s p
      v.getLsbD 63 = true ∧ x.preBusy = false ∧
      (let s0 := setPart s p { x with preN := BitVec.ofNat 5 v.toNat, preS := BitVec.ofNat 16 (v.toNat / 2 ^ 16) }
       ∃ rg, regionAt s0 ⟨⟨p, v.toNat % 32⟩, v.toNat / 2 ^ 16 % 2 ^ 16⟩ = some rg ∧ rg.frozen = none ∧ rg.detected = none ∧ rg.inv.isSome = true ∧
         rg.cut = none ∧ (tryCut s0 rg false).isSome = fits)) :=
  ⟨fun go busy => ⟨withPart (sq run0 []) { partS with preBusy := busy }, 0, asks go, by cases go <;> decide, by rfl⟩,
   ⟨sq run0 [], 0, asks true, by decide, by decide, by rfl⟩,
   fun fits => match fits with
     | true => ⟨withRg (withPart (sq run0 []) partS) plantRegion, 0, asks true, by decide, by decide, _, rfl, by rfl, by rfl, by rfl, by rfl, by decide +kernel⟩
     | false => ⟨withRg (sq run0 []) plantRegion, 0, asks true, by decide, by decide, _, rfl, by rfl, by rfl, by rfl, by rfl, by decide +kernel⟩⟩
/-- An entry of priority 3 waits behind a region that takes the whole power budget. -/
def stWaits (p : Part) (rg : Region) : State := withRg (withPart { sq seqW [] with cycle := 1000000 } p) { rg with charge := 1024 }
def Preempts (p : Part) (g : Region) (rest : State → Region → Prop) : Prop :=
  ∃ w l, let s := stWaits p g
    let x := partAt s 0
    waitingIn s x.plgrp = w :: l ∧ x.pren = true ∧ w.e.prio = 3 ∧ tryEntry s w = .waits ∧
      youngest (s.regions.filter (cuttable s w x.plgrp)) = some { g with charge := 1024 } ∧ rest s { g with charge := 1024 }
theorem meets_preempt :
    Preempts { partS with pwuse := 1024 } plantRegion (fun s rg => rg.cut = none ∧ (tryCut s rg false).isSome = true) ∧
    Preempts { partS with pwuse := 1024, cksize := 0 } plantRegion (fun s rg => rg.cut = none ∧ (tryCut s rg false).isSome = false) ∧
    Preempts { partS with pwuse := 1024 } (rgCut (cut0 false)) (fun _ rg => rg.cut = some (cut0 false) ∧ (cut0 false).inPlace = false) :=
  ⟨⟨⟨p0, 1, { entry0 with prio := 3 }⟩, [], by decide +kernel, by decide, by rfl, waitsE (by decide +kernel), by decide +kernel, by rfl, by decide +kernel⟩,
   ⟨⟨p0, 1, { entry0 with prio := 3 }⟩, [], by decide +kernel, by decide, by rfl, waitsE (by decide +kernel), by decide +kernel, by rfl, by decide +kernel⟩,
   ⟨p0, 1, { entry0 with prio := 3 }⟩, [], by decide +kernel, by decide, by rfl, waitsE (by decide +kernel), by decide +kernel, by rfl, by rfl⟩
theorem meets_expiry : ∃ s p seq n rg, let x := partAt s p
      (x.notices.find? fun n => n.nseq == seq) = some n ∧ x.pflim.toNat * cyclesPerUs ≤ s.cycle.toNat - n.since ∧ n.resumed = false ∧
      (noticeRegion n).bind (regionAt s) = some rg ∧ rg.frozen = none ∧ rg.detected = none ∧ rg.inv.isSome = true ∧ rg.cut = none ∧ (tryCut s rg true).isSome = true :=
  ⟨withRg (withPart { sq run0 [] with cycle := 1000000 } { partS with notices := [note0 true] }) plantRegion, 0, 1, note0 true, plantRegion,
     by rfl, by decide, by rfl, by rfl, by rfl, by rfl, by rfl, by rfl, by decide +kernel⟩
theorem meets_cut : ∃ s r rg c, regionAt s r = some rg ∧ rg.cut = some c ∧ rg.frozen = none ∧ rg.detected = none ∧ cutDone s rg c = true :=
  ⟨withRg (sq run0 []) (rgCut (cut0 true)), plantReg, rgCut (cut0 true), cut0 true, by rfl, by rfl, by rfl, by rfl, by decide⟩
theorem meets_cutForced : ∃ s r rg c, regionAt s r = some rg ∧ rg.cut = some c ∧ rg.frozen = none ∧ rg.detected = none ∧ c.inPlace = false ∧ c.forced = false ∧
      (partAt s r.seq.part).cutlim.toNat * cyclesPerUs ≤ s.cycle.toNat - c.start ∧ cutDone s rg c = true :=
  ⟨withRg { sq run0 [] with cycle := 1000000 } { rgCut (cut0 false) with mes := [], plane := [] }, plantReg, { rgCut (cut0 false) with mes := [], plane := [] }, cut0 false,
     by rfl, by rfl, by rfl, by rfl, by rfl, by rfl, by decide, by decide⟩
theorem meets_cutGoesOn : ∃ s r rg c, regionAt s r = some rg ∧ rg.cut = some c ∧ rg.frozen = none ∧ rg.detected = none ∧ c.inPlace = false ∧ c.forced = false ∧
      (partAt s r.seq.part).cutlim.toNat * cyclesPerUs ≤ s.cycle.toNat - c.start ∧ cutDone s rg c = false :=
  ⟨withRg { sq run0 [] with cycle := 1000000 } { rgCut (cut0 false) with mes := [], links := [lk []] }, plantReg, { rgCut (cut0 false) with mes := [], links := [lk []] },
     cut0 false, by rfl, by rfl, by rfl, by rfl, by rfl, by rfl, by decide, by decide⟩
theorem meets_resume : ∀ intact : Bool, ∃ s c k old place i ls, let r : RegId := ⟨c, k⟩
      let q := seqAt s c
      let x := sectAt q k
      x.saved = some old ∧ regionAt s r = some place ∧ q.image = some i ∧ place.installed = false ∧ x.placed = true ∧ seqFree q i k = true ∧
        linksOf (farMoved old place.org) (exchPlane old place.org (writtenPlane old)) = .ok ls ∧ saveIntact s r = intact :=
  fun intact => ⟨withPart (withRg (sq { run0 with image := some image2, sects := [{ saved := some plantRegion, placed := true }] } []) { plantRegion with installed := false })
       (if intact then { partS with saves := [{ reg := plantReg, first := 0, units := 0, tick := 0 }] } else partS), p0, 0, plantRegion, { plantRegion with installed := false }, image2, [],
     by rfl, by rfl, by rfl, by rfl, by rfl, by cases intact <;> decide, by rfl, by cases intact <;> rfl⟩

/-! ### Reuse, rebalancing, faults -/

/-- A pure invocation. -/
def rgPure (p : PureInv) : Region := { plantRegion with inv := some { plantInv with entry := { entry0 with pureInv := some p } } }
def pure0 : PureInv := { args := [(0x1000, 4)], res := [(0x2000, 64)], key := some [] }
def rgMode (m : Word) (ls : List NodeLayout) : Region := { plantRegion with inv := some { plantInv with entry := { entry0 with mode := m } }, layouts := ls }
def lay0 (want : Nat) : NodeLayout := { nid := 1, home := (⟨1, 1⟩, 0), copies := [(⟨1, 1⟩, 0)], want := want }
def plan0 : CommitPlan := ⟨1, ⟨2, 2⟩, 0, []⟩
/-- A fold wanted by a node with no neighbour in the region. -/
def layFar : NodeLayout := { lay0 3 with home := (⟨50, 50⟩, 0), copies := [(⟨50, 50⟩, 0)] }
def plan9 : CommitPlan := ⟨1, ⟨40, 40⟩, 0, []⟩
def rgCom (w : Nat) (c : Option CommitPlan) : Region := { rgMode 6 [lay0 w] with commit := c }
theorem meets_reuse :
    (∃ s r rg p k, regionAt s r = some rg ∧ rg.pureInv = some p ∧ rg.running = true ∧ rg.cut = none ∧ p.looked = false ∧ p.key = some k) ∧
    (∃ s r rg p, regionAt s r = some rg ∧ rg.pureInv = some p ∧ rg.running = true ∧ rg.cut = none ∧ p.looked = true ∧ p.hit = true ∧ p.copying = false ∧
      p.withheld = false ∧ p.copied < p.total) ∧
    (∃ s r rg i, regionAt s r = some rg ∧ rg.inv = some i ∧ retires s rg = true) ∧
    (∃ s r rg i, regionAt s r = some rg ∧ rg.inv = some i ∧ rg.running = true ∧ rg.reb ≠ 0 ∧ rg.reb ≠ 1 ∧ i.windowStart + windowLen rg.modeWord ≤ s.cycle.toNat) ∧
    (∃ s r rg i, regionAt s r = some rg ∧ rg.inv = some i ∧ rg.running = true ∧ rg.reb = 1 ∧ i.windowStart + windowLen rg.modeWord ≤ s.cycle.toNat) :=
  ⟨⟨withRg (sq run0 []) (rgPure pure0), plantReg, _, pure0, [], rfl, by rfl, by decide, by rfl, by rfl, by rfl⟩,
   ⟨withRg (sq run0 []) (rgPure { pure0 with looked := true, hit := true }), plantReg, _, { pure0 with looked := true, hit := true }, rfl, by rfl, by decide, by rfl, by rfl, by rfl,
     by rfl, by rfl, by decide⟩,
   ⟨withRg (sq run0 []) plantRegion, plantReg, _, _, rfl, rfl, by decide +kernel⟩,
   ⟨withRg { sq run0 [] with cycle := 1024 } (rgMode 4 []), plantReg, _, _, rfl, rfl, by decide, by decide, by decide, by decide⟩,
   withRg { sq run0 [] with cycle := 1024 } (rgMode 2 []), plantReg, _, _, rfl, rfl, by decide, by decide, by decide⟩
/-- A state and a plan that meet what a commit's clauses ask of the region before them. -/
def commits (s : State) (r : RegId) (rg : Region) (plan : CommitPlan) (l : NodeLayout) : Prop :=
  regionAt s r = some rg ∧ rg.running = true ∧ rg.cut = none ∧ rg.inv.isSome = true ∧ rg.lvDue = none ∧ rg.commit = none ∧
    (rg.layouts.find? fun l => l.nid == plan.nid && l.want != 0) = some l ∧ (partAt s r.seq.part).susp = false
theorem meets_commits :
    (∃ s r rg plan l, commits s r rg plan l ∧ planLegal s rg l (plan.off, plan.ctx) plan.routes = true) ∧
    (∃ s r rg plan l, commits s r rg plan l ∧ planLegal s rg l (plan.off, plan.ctx) plan.routes = false ∧ somePlan s rg l = true) ∧
    (∃ s r rg plan l, commits s r rg plan l ∧ planLegal s rg l (plan.off, plan.ctx) plan.routes = false ∧ somePlan s rg l = false) ∧
    (∃ s r rg pl l, regionAt s r = some rg ∧ rg.running = true ∧ rg.cut = none ∧ rg.inv.isSome = true ∧ rg.lvDue = none ∧ rg.commit = some pl ∧
      (rg.layouts.find? fun l => l.nid == pl.nid) = some l ∧ commitReady s rg l = true) :=
  ⟨⟨withRg (sq run0 []) (rgCom 2 none), plantReg, _, plan0, lay0 2, ⟨rfl, by decide, by rfl, by rfl, by rfl, by rfl, by decide, by decide⟩, by decide +kernel⟩,
   ⟨withRg (sq run0 []) (rgCom 1 none), plantReg, _, plan9, lay0 1, ⟨rfl, by decide, by rfl, by rfl, by rfl, by rfl, by decide, by decide⟩, by decide +kernel,
     by decide +kernel⟩,
   ⟨withRg (sq run0 []) { rgCom 3 none with layouts := [layFar] }, plantReg, _, plan9, layFar, ⟨rfl, by decide, by rfl, by rfl, by rfl, by rfl, by decide, by decide⟩, by decide +kernel,
     by decide +kernel⟩,
   withRg (sq run0 []) (rgCom 2 (some plan0)), plantReg, _, plan0, lay0 2, rfl, by decide, by rfl, by rfl, by rfl, by rfl, by decide, by decide +kernel⟩
/-- The state FRCTL leaves before it acts. -/
def frState (s : State) (p : Nat) (v : BitVec 64) (act : BitVec 2) : State :=
  setPart s p { partAt s p with frN := BitVec.ofNat 5 v.toNat, frS := BitVec.ofNat 16 (v.toNat / 2 ^ 16), frAct := act }
def frV : BitVec 64 := BitVec.ofNat 64 (2 ^ 63)
def frR : RegId := ⟨⟨0, 0⟩, 0⟩
def rgFrz (cls : Nat) : Region := { plantRegion with id := frR, frozen := some (originFault cls 1) }
/-- A cell of the region's own, and a plane entry for it. -/
def rgBank : Region := { plantRegion with cells := [(offKey ⟨1, 1⟩, {})], plane := [(offKey ⟨1, 1⟩, {})] }
theorem meets_faults :
    (∃ s p x t s1 q, (partAt s p).pending = x :: t ∧ x.who = none ∧ queuePut s p (partAt s p).frq (frqCount (partAt s p)) 32 x.bytes = some (s1, q)) ∧
    (∃ s p x t s1 q r, (partAt s p).pending = x :: t ∧ x.who = some r ∧ queuePut s p (partAt s p).frq (frqCount (partAt s p)) 32 x.bytes = some (s1, q)) ∧
    (∃ s r rg, regionAt s r = some rg ∧ rg.frozen = none ∧ hangBits rg.modeWord ≠ 0 ∧ 2 ^ hangBits rg.modeWord ≤ rg.hang) ∧
    (∃ s p, (partAt s p).frBusy = true ∧ frV.getLsbD 63 = true) ∧
    (∃ s p, (partAt s p).frBusy = false ∧ frctlValid (frState s p frV 0) frR 0 = false ∧ frctlValid (frState s p frV 1) frR 1 = false) ∧
    (∃ s p, (partAt s p).frBusy = false ∧ frctlValid (frState s p frV 0) frR 0 = true ∧ frctlWaits (frState s p frV 0) frR = false ∧
      frctlValid (frState s p frV 1) frR 1 = true ∧ frctlWaits (frState s p frV 1) frR = false) ∧
    (∃ s p, (partAt s p).frBusy = false ∧ frctlValid (frState s p frV 0) frR 0 = true ∧ frctlWaits (frState s p frV 0) frR = true) :=
  ⟨⟨withPart (sq run0 []) { part0 with pending := [⟨none, List.replicate 32 1⟩], frq := queue0 }, 0, ⟨none, List.replicate 32 1⟩, [], _, _, by rfl, by rfl, rfl⟩,
   ⟨withPart (sq run0 []) { part0 with pending := [⟨some frR, List.replicate 32 1⟩], frq := queue0 }, 0, ⟨some frR, List.replicate 32 1⟩, [], _, _, frR, by rfl, by rfl, rfl⟩,
   ⟨withRg (sq run0 []) { rgMode 0x200 [] with hang := 2 }, plantReg, _, rfl, by rfl, by decide, by decide⟩,
   ⟨withPart (sq run0 []) { part0 with frBusy := true }, 0, by decide, by decide⟩,
   ⟨sq run0 [], 0, by decide, by decide +kernel, by decide +kernel⟩,
   ⟨withRg (sq run0 []) (rgFrz clsStray), 0, by decide, by decide +kernel, by decide +kernel, by decide +kernel, by decide +kernel⟩,
   withRg (withPart (sq run0 []) { part0 with pending := [⟨some frR, []⟩] }) (rgFrz clsPoison), 0, by decide, by decide +kernel, by decide +kernel⟩
theorem meets_softErrors :
    (∃ s r j k rg, ∃ l : Link, ∃ b, regionAt s r = some rg ∧ rg.linkAt k = some l ∧ (l.allBeats[(j : Nat)]? : Option Beat) = some b) ∧
    (∃ s r, ∃ o : Offset, ∃ w rg, regionAt s r = some rg ∧ w < 8192 ∧ rg.hardCol o.dx = false ∧ (aget rg.cells (offKey o)).isSome = true) ∧
    (∃ s r, ∃ o : Offset, ∃ rg, regionAt s r = some rg ∧ (aget rg.plane (offKey o)).isSome = true) ∧
    (∃ (s : State) (p : Pos), s.scrubbing.contains p = true ∧ regionAtPos s p = none) ∧
    (∃ s p, s.scrubbing.contains p = false ∧ regionAtPos s p = none ∧ bankBusy s p = false) :=
  ⟨⟨stL [lk [d5]], plantReg, 0, 0, _, _, _, rfl, rfl, rfl⟩,
   ⟨withRg (sq run0 []) rgBank, plantReg, ⟨1, 1⟩, 0, _, rfl, by decide, by decide +kernel, by decide +kernel⟩,
   ⟨withRg (sq run0 []) rgBank, plantReg, ⟨1, 1⟩, _, rfl, by decide +kernel⟩,
   ⟨{ State.reset with scrubbing := [⟨0, 0⟩] }, ⟨0, 0⟩, by decide, by rfl⟩,
   State.reset, ⟨0, 0⟩, by decide, by rfl, by rfl⟩

/-! ### Mailbox, registers, host, modules -/

/-- A PUSH node whose extensible buffer is full, with this many chunks in the carve and the overflow area at `ovf`. -/
def sFull (carve ovf len : Nat) : State :=
  let s := tst [[d5], [d5], [d5], [d5]] {} [(0, BitVec.ofNat 24 (0x104 * 2 ^ 15)), (48, 0x640000)] [{ beats := List.replicate 16 d5, parts := [⟨none, 16, 16⟩] }]
  { s with regions := s.regions.map (fun r => { r with carve := carve, ovfVa := ovf, ovfLen := len }), parts := (sq run0 []).parts, mem := (sq run0 []).mem }
def grows (p : State → UnitId → Region → Prop) : Prop :=
  ∃ s u rg w b, regionAt s u.reg = some rg ∧ pushWord rg u = some w ∧ (rg.portHeads u.off false u.ctx (portA w)).head? = some b ∧ rg.running = true ∧
    rg.isHalted 0 u.off u.ctx = false ∧
    (let d := segDesc rg.plane u.off (segNo w)
     let g := segAt (cellAt rg u.off) (segNo w)
     d.ext = true ∧ g.space d = 0) ∧ p s u rg
def wPush : NodeWord := NodeWord.ofBits (BitVec.ofNat 72 (0x104 * 2 ^ 63))
theorem meets_grow : grows (fun _ _ rg => ∃ k, freeChunk rg .carve rg.carve = some k) ∧
    grows (fun s u rg => ∃ k x, freeChunk rg .carve rg.carve = none ∧ rg.ovfVa ≠ 0 ∧ freeChunk rg .ovf rg.ovfLen = some k ∧
      immTarget s u.reg.seq.part (ovfAt rg k 0) true = .ok x) ∧
    grows (fun s u rg => ∃ k m, freeChunk rg .carve rg.carve = none ∧ rg.ovfVa ≠ 0 ∧ freeChunk rg .ovf rg.ovfLen = some k ∧
      immTarget s u.reg.seq.part (ovfAt rg k 0) true = .error m) ∧
    grows (fun _ _ rg => freeChunk rg .carve rg.carve = none ∧ rg.ovfVa = 0) ∧
    grows (fun _ _ rg => freeChunk rg .carve rg.carve = none ∧ rg.ovfVa ≠ 0 ∧ freeChunk rg .ovf rg.ovfLen = none) := by
  refine ⟨⟨sFull 1 0 0, u0, _, wPush, d5, rfl, by decide +kernel, by rfl, by decide, by decide, by decide, 0, by decide⟩, ?_, ?_,
    ⟨sFull 0 0 0, u0, _, wPush, d5, rfl, by decide +kernel, by rfl, by decide, by decide, by decide, by decide, by rfl⟩,
    ⟨sFull 0 0x100 0, u0, _, wPush, d5, rfl, by decide +kernel, by rfl, by decide, by decide, by decide, by decide, by decide, by decide⟩⟩
  · obtain ⟨x, hx⟩ := some_of (show (immTarget (sFull 0 0x100 1) 0 (ovfAt ((sFull 0 0x100 1).regions.getD 0 default) 0 0) true).toOption.isSome = true from by decide +kernel)
    exact ⟨sFull 0 0x100 1, u0, _, wPush, d5, rfl, by decide +kernel, by rfl, by decide, by decide, by decide, 0, x, by decide, by decide, by decide, ofOption hx⟩
  · have hn : (immTarget (sFull 0 0x200000000000 1) 0 (ovfAt ((sFull 0 0x200000000000 1).regions.getD 0 default) 0 0) true).toOption.isNone = true := by decide +kernel
    cases hm : immTarget (sFull 0 0x200000000000 1) 0 (ovfAt ((sFull 0 0x200000000000 1).regions.getD 0 default) 0 0) true with
    | error m => exact ⟨sFull 0 0x200000000000 1, u0, _, wPush, d5, rfl, by decide +kernel, by rfl, by decide, by decide, by decide, 0, m, by decide, by decide, by decide, hm⟩
    | ok x => rw [hm] at hn; cases hn
/-- Slot 0 with this content, which partition 0 is bound to. -/
def bound (st : SlotSt) : State :=
  let s := withPart (sq run0 []) { part0 with slot := some 0 }
  { s with slots := lmod s.slots 0 fun k => { k with st := st, binding := 1 } }
def blob0 : List Byte := List.replicate 200 0
/-- A state in which the mailbox runs the command of this number. -/
def runs (n : BitVec 8) (s : State) : State := { s with mbBusy := true, mbRun := n }
theorem meets_mailbox :
    (∃ s d, mailRuns s 1 = true ∧ d < 4 ∧ dieBusy s d = false ∧ s.fwStat = 0) ∧
    (∃ s slot mask, mailRuns s 2 = true ∧ slot < 64 ∧ blob0.length = 200 ∧ (maskParts mask).any (fun p => (partAt s p).shape == 0) = false ∧
      (s.slots.getD slot {}).st = .empty ∧ (maskParts mask).any (fun p => (partAt s p).slot.isSome) = false) ∧
    (∃ (s : State) (k : Nat) (x : KeySlot), mailRuns s 3 = true ∧ revokesOther s k = false ∧ s.slots[k]? = some x ∧ x.st = .empty) ∧
    (∃ (s : State) (k : Nat) (x : KeySlot), mailRuns s 3 = true ∧ revokesOther s k = false ∧ s.slots[k]? = some x ∧ x.st = .bound) ∧
    (∃ (s : State) (k : Nat) (x : KeySlot), mailRuns s 3 = true ∧ revokesOther s k = false ∧ s.slots[k]? = some x ∧ x.st = .revoking ∧ writesUnder s x.binding = true) ∧
    (∃ (s : State) (k : Nat) (x : KeySlot), mailRuns s 3 = true ∧ revokesOther s k = false ∧ s.slots[k]? = some x ∧ x.st = .revoking ∧ writesUnder s x.binding = false) ∧
    (∃ s, mailRuns s 4 = true ∧ (List.replicate 32 (0 : Byte)).length = 32) ∧
    (∃ (s : State) (mid size : Nat), mailRuns s 5 = true ∧ 0 < size ∧ size ≤ 64 ∧ mid < size ∧ s.shaped = false) ∧
    (∃ s p port off len, mailRuns s 6 = true ∧ port < 2 ∧ (partAt s p).shape ≠ 0 ∧ (off + len) * gib ≤ s.cxlCap.getD port 0 ∧ s.cxlMap = []) ∧
    (∃ (s : State) (p : Nat), p < 8 ∧ s.fwStat = 0) ∧ (∃ (s : State) (p : Nat), p < 8 ∧ s.fwStat ≠ 0) ∧
    (∃ v : BitVec 64, v.getLsbD 63 = false) ∧
    (∃ (s : State) (v : BitVec 64), v.getLsbD 63 = true ∧ s.mbBusy = true) ∧
    (∃ (s : State) (v : BitVec 64), v.getLsbD 63 = true ∧ s.mbBusy = false ∧ 1 ≤ (v.setWidth 8 : BitVec 8).toNat ∧ (v.setWidth 8 : BitVec 8).toNat ≤ 6) :=
  ⟨⟨runs 1 State.reset, 3, by decide, by decide, by decide, by decide⟩,
   ⟨runs 2 (sq run0 []), 5, 1, by decide, by decide, by rfl, by decide, by decide, by decide⟩,
   ⟨runs 3 State.reset, 0, _, by decide, by decide, rfl, by decide⟩,
   ⟨runs 3 (bound .bound), 0, _, by decide, by decide, rfl, by decide⟩,
   ⟨runs 3 { bound .revoking with reqs := [{ req0 (.dram 0 0) (.write [1] false) with binding := 1 }] }, 0, _, by decide, by decide, rfl, by decide, by decide⟩,
   ⟨runs 3 (bound .revoking), 0, _, by decide, by decide, rfl, by decide, by decide⟩, ⟨runs 4 State.reset, by decide, by rfl⟩,
   ⟨runs 5 State.reset, 1, 2, by decide, by decide, by decide, by decide, by decide⟩,
   ⟨runs 6 (sq run0 []), 0, 1, 1, 2, by decide, by decide, by decide, by decide, by rfl⟩, ⟨State.reset, 7, by decide, by decide⟩,
   ⟨{ State.reset with fwStat := 1 }, 7, by decide, by decide⟩, ⟨0, by decide⟩, ⟨runs 1 State.reset, BitVec.ofNat 64 (2 ^ 63), by decide, by decide⟩,
   State.reset, BitVec.ofNat 64 (2 ^ 63 + 4), by decide, by decide, by decide, by decide⟩
def flitOf (seq : BitVec 16) : LinkFlit := ⟨1, 0, seq, 0⟩
def rreq (w : Option (List Byte)) : RemoteReq := { die := 0, addr := 0x100, tdn := 0, tag := 0, len := 8, write := w }
theorem meets_host :
    (∃ off, 768 * gib ≤ off) ∧
    (∃ (s : State) (off : Nat), off < 768 * gib ∧ (let o := ownerOfDram s (off / (192 * gib)) (off % (192 * gib)); hdmRefused s o false = false ∧ hdmRefused s o true = false)) ∧
    (∃ (s : State) (off : Nat), off < 768 * gib ∧ (let o := ownerOfDram s (off / (192 * gib)) (off % (192 * gib)); hdmRefused s o false = true ∧ hdmRefused s o true = true)) ∧
    (∃ (s : State) (off : Nat) (bs : List Byte) (p : Bool), off < 768 * gib ∧ (s.hostHeld.find? fun x => x.1 == off / 256) = some (off / 256, bs, p)) ∧
    (∃ (s : State) (port : Nat) (f : LinkFlit) (x : SPort), s.sports[port]? = some x ∧ x.stopped = false ∧ f.seq = x.recvSeq ∧ f.typ.toNat < 5 ∧ x.refused + 1 < 8) ∧
    (∃ (s : State) (port : Nat) (x : SPort), s.sports[port]? = some x ∧ x.stopped = false ∧ ∃ e, remoteOwner s (rreq none) = .error e) ∧
    (∃ (s : State) (port : Nat) (x : SPort) (p : Nat), s.sports[port]? = some x ∧ x.stopped = false ∧ remoteOwner s (rreq none) = .ok p ∧
      remoteOwner s (rreq (some [1])) = .ok p) ∧
    (∃ s port, port < 8 ∧ (bridgeAt s port).stopped = true ∧ (bridgeAt s port).faulted = []) :=
  ⟨⟨768 * gib, by decide⟩, ⟨bound .bound, 0x100, by decide, by decide, by decide⟩, ⟨State.reset, 0, by decide, by decide, by decide⟩,
   ⟨{ State.reset with hostHeld := [(1, [1], false)] }, 0x100, [1], false, by decide, by rfl⟩,
   ⟨State.reset, 0, flitOf 0, _, rfl, by decide, by decide, by decide, by decide⟩, ⟨State.reset, 0, _, rfl, by decide, 1, by rfl⟩,
   ⟨bound .bound, 0, _, 0, rfl, by decide, by rfl, by rfl⟩, withBridge State.reset { stopped := true }, 0, by decide, by decide, by decide⟩

/-! ### Words of the encoding tables -/

/-- Words of the rows that the opcode table gives a pattern, each field with bits at both ends set (Tables 8-2, 14-5, 14-6). -/
def cfgWords : List (Nat × Instr) :=
  [(0x88005003, .setc 0x2001 0x1003), (0x98005003, .movc 0x2001 0x1003), (0xA8005003, .autox 0x2001 0x1003), (0xB8005003, .rect 0x2001 0x1003),
   (0xC8015009, .vers 0x2005 0x1009), (0xD8000001, .ends 0x8000001), (0xE8005003, .hard 0x2001 0x1003), (0x0DC02301, .write 0xD 0xC02301),
   (0x1A000081, .localRegisterCommit 0x81), (0x5C000401, .bankInitCommit 0x401), (0x5DC02301, .tilePreload 0xC02301)]
theorem test_cfgWords : cfgWords.all (fun x => decide ((decodeCfg (BitVec.ofNat 32 x.1)).toOption = some x.2)) = true := by decide +kernel
def seqWords1 : List (Nat × Instr) :=
  [(0x026DD000, .add 0x13 0xD 0x1A), (0x026DD001, .sub 0x13 0xD 0x1A), (0x026DD002, .mul 0x13 0xD 0x1A), (0x026DD003, .mulh 0x13 0xD 0x1A),
   (0x026DD004, .div 0x13 0xD 0x1A), (0x026DD005, .rem 0x13 0xD 0x1A), (0x026DD006, .seqAnd 0x13 0xD 0x1A), (0x026DD007, .seqOr 0x13 0xD 0x1A),
   (0x026DD008, .seqXor 0x13 0xD 0x1A), (0x026DD009, .seqShl 0x13 0xD 0x1A), (0x026DD00A, .seqShr 0x13 0xD 0x1A), (0x026DD00B, .seqSar 0x13 0xD 0x1A),
   (0x026DD00C, .slt 0x13 0xD 0x1A), (0x026DD00D, .sltn 0x13 0xD 0x1A), (0x066D8001, .addi 0x13 0xD 0x8001), (0x0A6D8001, .andi 0x13 0xD 0x8001),
   (0x0E6D8001, .ori 0x13 0xD 0x8001), (0x126D8001, .xori 0x13 0xD 0x8001), (0x166D0021, .shli 0x13 0xD 0x21), (0x1A6D0021, .shri 0x13 0xD 0x21)]
theorem test_seqWords1 : seqWords1.all (fun x => decide ((decodeSeq (BitVec.ofNat 32 x.1)).toOption = some x.2)) = true := by decide +kernel
def seqWords2 : List (Nat × Instr) :=
  [(0x1E6D0021, .sari 0x13 0xD 0x21), (0x226D8001, .lih 0x13 0xD 0x8001), (0x426D8001, .seqLd 0x13 0xD 0x8001), (0x466D8001, .ldw 0x13 0xD 0x8001),
   (0x4A6D8001, .seqSt 0x13 0xD 0x8001), (0x4E6D8001, .stw 0x13 0xD 0x8001), (0x526DD010, .samoAdd 0x13 0xD 0x1A true), (0x526DD011, .samoSwap 0x13 0xD 0x1A true),
   (0x526DD012, .samoCas 0x13 0xD 0x1A true), (0x526DD013, .samoAnd 0x13 0xD 0x1A true), (0x526DD014, .samoOr 0x13 0xD 0x1A true), (0x526DD015, .samoXor 0x13 0xD 0x1A true),
   (0x526DD016, .samoMin 0x13 0xD 0x1A true), (0x526DD017, .samoMax 0x13 0xD 0x1A true), (0x526DD018, .samoMinu 0x13 0xD 0x1A true), (0x526DD019, .samoMaxu 0x13 0xD 0x1A true),
   (0x61BAFFFE, .beq 0xD 0x1A 0xFFFE), (0x65BAFFFE, .bne 0xD 0x1A 0xFFFE), (0x69BAFFFE, .blt 0xD 0x1A 0xFFFE), (0x6DBAFFFE, .bge 0xD 0x1A 0xFFFE)]
theorem test_seqWords2 : seqWords2.all (fun x => decide ((decodeSeq (BitVec.ofNat 32 x.1)).toOption = some x.2)) = true := by decide +kernel
def seqWords3 : List (Nat × Instr) :=
  [(0x71A0FFFE, .loop 0xD 0xFFFE), (0x76000001, .jmp 0x2000001), (0x7A000001, .jal 0x2000001), (0x7C0D0000, .jr 0xD),
   (0x82C00A05, .cfgl 0x16 0xA05), (0x86600A05, .cfgs 0x13 0xA05), (0x897A0A05, .arm 0xB 0x1A 0xA05), (0x8E600A05, .waits 0x13 0xA05),
   (0x917A0A05, .pure 0xB 0x1A 0xA05), (0x97A00A05, .mode 0x1D 0xA05), (0x9A6D0000, .waitm 0x13 0xD), (0x9C0DD000, .launch 0xD 0x1A),
   (0xA00D0000, .tail 0xD), (0xC2605A03, .srd 0x13 0x5A 0x3), (0xC40D5A03, .swr 0xD 0x5A 0x3), (0xC8000005, .seqFence 0x5),
   (0xCC0000C3, .seqTrap 0xC3), (0xD0000000, .halt), (0xD4000000, .seqNop)]
theorem test_seqWords3 : seqWords3.all (fun x => decide ((decodeSeq (BitVec.ofNat 32 x.1)).toOption = some x.2)) = true := by decide +kernel
/-- The node word with every field but OPC at these values (Table 8-3). -/
def wordX : NodeWord := ⟨.bf16, .rz, true, .b, .lreg, .imm, true, false, true, 5, 2, 0x21, 0x80000001⟩
/-- The runs of opcodes (Table 8-4). -/
def nodeRuns : List (Nat × List (NodeWord → Instr)) :=
  [(0x000, [.iadd, .isub, .imul, .imulh, .imad, .ineg, .iabs, .imin, .imax, .icmp, .and, .or, .xor, .andn, .not, .shl, .shr, .sar, .rotl, .clz, .popc, .sel]),
   (0x040, [.fadd, .fsub, .fmul, .ffma, .fneg, .fabs, .fmin, .fmax, .fcmp, .frcp, .frsq, .fsqrt, .fexp2, .flog2, .fscale]),
   (0x080, [.cvt, .qpack, .qunpk, .bcast, .shuf, .slide, .pack, .unpack, .laneid]),
   (0x0A0, [.hsum, .hmax, .hmin, .acc, .accmax, .pscan, .count]),
   (0x0C0, [.steer, .fork, .merge, .mergerr, .mergesel, .dist, .dispatch, .gate, .drop, .sink, .gen, .carry, .invar, .repeatN, .seqtag, .reorder]),
   (0x0E0, [.mark, .stopi, .stopx, .stopup, .waitmk, .specres, .retype]),
   (0x100, [.ld, .st, .ldreq, .streq, .push, .pop, .tld, .tst, .spbsend, .aadd, .amin, .amax, .axchg, .acas, .atas, .aor, .fence]),
   (0x140, [.fscan, .flook, .fisect, .funion, .frep, .fred, .fwrite]),
   (0x160, [.oadd, .omul, .ocmp, .ocut, .ocvt]),
   (0x170, [.pqcell, .stat, .rate, .ver, .sysid, .trap, .nop])]
/-- The words of one run decode to its mnemonics in order; the code behind the run is no opcode. -/
def runOk (x : Nat × List (NodeWord → Instr)) : Bool :=
  let word (opc : Nat) : BitVec 72 := BitVec.ofNat 72 (opc * 2 ^ 63 + 0x3B32DAA180000001)
  (x.2.zipIdx.all fun y => decide ((decodeNode (word (x.1 + y.2))).toOption = some (y.1 wordX))) && (decodeNode (word (x.1 + x.2.length))).toOption.isNone
theorem test_nodeWords : nodeRuns.all runOk = true := by decide +kernel
/-- A command beat with a value in every field (Tables 12-3, 12-4). -/
def cmdX : MCmd := ⟨9, 1, 2, 0x21, 0x41, true, 0x2001, .e4m3, .fp16, .fp32, .rz, true, false, true, 0xA, 5⟩
def cmdWords : List (Nat × Instr) :=
  [(1, .mload cmdX), (2, .mswap cmdX), (3, .mmul cmdX), (4, .mdrain cmdX), (5, .mzero cmdX), (6, .mfmt cmdX), (7, .mmigr cmdX), (8, .mcount cmdX)]
theorem test_cmdWords : cmdWords.all (fun x => decide ((decodeCmd (BitVec.ofNat 256 (x.1 * 2 ^ 248 + 0x96860E0019866D000000000000000000000000000000000000000000000005))).toOption = some x.2)) = true := by decide +kernel
/-- An SPB block of every kind with a value in every field (Tables 4-2 to 4-5, R62 to R66). -/
def spbWords : List (Nat × Instr) :=
  [(0x18000000170000001600000015000000140000001380000012000000118123456789ABCDE1000000772001005A7002800131068801,
    .linRead ⟨.fp16, true, false, false, 0, 1, 2, false, 3, 1, 0x8001, 0x7002, 0x5A, 0, 0x2001, 0x77, 0⟩ ⟨0x8123456789ABCDE1, 0x11, 0x80000012, 0x13, 0x14, 0x15, 0x16, 0x17, 0x18, 0⟩),
   (0x18000000170000001600000015000000140000001380000012000000118123456789ABCDE1000000772001005A7002800131068C01,
    .linWrite ⟨.fp16, true, true, false, 0, 1, 2, false, 3, 1, 0x8001, 0x7002, 0x5A, 0, 0x2001, 0x77, 0⟩ ⟨0x8123456789ABCDE1, 0x11, 0x80000012, 0x13, 0x14, 0x15, 0x16, 0x17, 0x18, 0⟩),
   (0x800000250000002400000402000000230000002200000021F1E2D3C4B5A6978110203040506070818123456789ABCDE1000000002001005A7002800131068802,
    .gath ⟨.fp16, true, false, false, 0, 1, 2, false, 3, 1, 0x8001, 0x7002, 0x5A, 0, 0x2001, 0x0, 0⟩ ⟨0x8123456789ABCDE1, 0x1020304050607081, 0xF1E2D3C4B5A69781, 0x21, 0x22, 0x23, 2, 4, 0, 0x24, 0x80000025⟩),
   (0x800000250000002400000402000000230000002200000021F1E2D3C4B5A6978110203040506070818123456789ABCDE1000000002001005A7002800131068803,
    .scat ⟨.fp16, true, false, false, 0, 1, 2, false, 3, 1, 0x8001, 0x7002, 0x5A, 0, 0x2001, 0x0, 0⟩ ⟨0x8123456789ABCDE1, 0x1020304050607081, 0xF1E2D3C4B5A69781, 0x21, 0x22, 0x23, 2, 4, 0, 0x24, 0x80000025⟩),
   (0xF1E2D3C4B5A6978110203040506070818123456789ABCDE1000000002001005A7002800131068804,
    .copy ⟨.fp16, true, false, false, 0, 1, 2, false, 3, 1, 0x8001, 0x7002, 0x5A, 0, 0x2001, 0x0, 0⟩ ⟨0x8123456789ABCDE1, 0x1020304050607081, 0xF1E2D3C4B5A69781, 0⟩),
   (0x23003580340000003300000004800000320000003110203040506070818123456789ABCDE1000000002001005A7002800171368805,
    .fib ⟨.fp16, true, false, false, 3, 1, 2, true, 3, 1, 0x8001, 0x7002, 0x5A, 0, 0x2001, 0x0, 0⟩ ⟨0x8123456789ABCDE1, 0x1020304050607081, 0x31, 0x80000032, 4, 0, 0x33, 0x8034, 0x35, 3, 2, 0, 0⟩),
   (0x3F1E2D3C4B5A6978110203040506070818123456789ABCDE1000000002001005A7002800131068A06,
    .hash ⟨.fp16, true, false, true, 0, 1, 2, false, 3, 1, 0x8001, 0x7002, 0x5A, 0, 0x2001, 0x0, 0⟩ ⟨0x8123456789ABCDE1, 0x1020304050607081, 0xF1E2D3C4B5A69781, 3, 0⟩),
   (0x2001055A7002800131068807,
    .flush ⟨.fp16, true, false, false, 0, 1, 2, false, 3, 1, 0x8001, 0x7002, 0x5A, 5, 0x2001, 0x0, 0⟩ ⟨0⟩),
   (0x10203040506070818123456789ABCDE1000000002001005A7002800131068808,
    .pref ⟨.fp16, true, false, false, 0, 1, 2, false, 3, 1, 0x8001, 0x7002, 0x5A, 0, 0x2001, 0x0, 0⟩ ⟨0x8123456789ABCDE1, 0x1020304050607081, 0⟩)]
theorem test_spbWords : spbWords.all (fun x => decide ((decodeSpb (BitVec.ofNat 512 x.1)).toOption = some x.2)) = true := by decide +kernel
/-- Codes that no table assigns are refused: an opcode, a cursor op, a sequencer op, a command and a kind. -/
theorem test_reserved : (decodeNode (BitVec.ofNat 72 (0x180 * 2 ^ 63))).toOption = none ∧ (decodeCfg 0xF0000000).toOption = none ∧
    (decodeSeq 0x0000000E).toOption = none ∧ (decodeSeq 0xFC000000).toOption = none ∧ (decodeCmd (BitVec.ofNat 256 (9 * 2 ^ 248))).toOption = none ∧
    (decodeSpb 9).toOption = none := by decide +kernel
/-- Ill-formed terms are refused: a WRITE of a field that has its own row, a LIN read with WR, a LIN write without, a FENCE.S of no scope, a special
register that is not there. -/
theorem test_illFormed : (Instr.write 26 0).wf = false ∧ (Instr.write 92 0).wf = false ∧ (Instr.write 93 0).wf = false ∧
    (Instr.linRead { (default : SpbHead) with wr := true } default).wf = false ∧ (Instr.linWrite default default).wf = false ∧
    (Instr.seqFence 6).wf = false ∧ (Instr.seqFence 7).wf = false ∧ (Instr.srd 1 0 0x05).wf = false ∧ (Instr.swr 1 0 0x10).wf = false := by decide

/-! ### Steps, memory, frames -/

def plain : MemReq := req0 (.host 0x100) (.write [1, 2] false)
/-- A cell whose counter stands here, with IADD.I32 ready in context 0 (R110). -/
def sTwo (ctr : Nat) : State :=
  let s := tst [[d5], [d5]] {} [(0, 0x001807), (1, 0xC00000), (64, 0x800000)] []
  { s with regions := s.regions.map fun r => { r with cells := r.cells.map fun x => (x.1, { x.2 with ctr := ctr }) } }
def u1 : UnitId := { u0 with ctx := 1 }
/-- R110: context 0 is examined before context 1 when CTR is 3 and after it when CTR is 0. -/
theorem test_contextOrder : agentTurn (sTwo 3) (.node u1) = false ∧ agentTurn (sTwo 0) (.node u1) = true := by decide +kernel
theorem meets_step :
    (∃ (s : State) (a : Actor) (t : List Action) (i : Instr), s.agenda = .agent a :: t ∧ agentTurn s a = true ∧ fetch a s = some i) ∧
    (∃ s u, contextsBefore s u = []) ∧
    (∃ s : State, ∃ c : SeqId, (s.seqs.filter fun x => (seqOfKey x.1).part / 2 == c.part / 2 && seqAhead s (seqOfKey x.1) c).length < 4) ∧
    (∃ (s : State) (a : Actor) (t : List Action), s.agenda = .agent a :: t ∧ agentTurn s a = false) ∧
    (∃ (s : State) (i : Instr) (t : List Action), s.agenda = .event i :: t ∧ eventTurn s i = true) ∧
    (∃ s c im w i, (seqAt s c).image = some im ∧ im.hlen ≤ (seqAt s c).pc ∧ im.code[(seqAt s c).pc]? = some w ∧ decodeSeq w = .ok i) ∧
    (∃ s r rg f w l i, regionAt s r = some rg ∧ rg.feed = some f ∧ f.closed = false ∧ f.words = w :: l ∧ decodeCfg w = .ok i) ∧
    (∃ (s : State) (u : UnitId) (rg : Region) (i : Instr), regionAt s u.reg = some rg ∧ decodeNode (nodeBits rg.plane u.off u.ctx) = .ok i) ∧
    (∃ s r o rg k a b i, regionAt s r = some rg ∧ reqPort rg o = some k ∧ pairAtHead (spHeads rg o k) = some (a, b) ∧ decodeSpb (b.pay ++ a.pay) = .ok i) ∧
    (∃ s r o rg m k b i, meOf s r o = some (rg, m) ∧ cfgPort rg o = some k ∧ (blockHeads rg o k).head? = some b ∧ decodeCmd b.pay = .ok i) ∧
    (∃ s r o rg m k e, k ≠ meCap ∧ meOf s r o = some (rg, m) ∧ m.queue[k]? = some e) :=
  ⟨⟨plantSeqWord State.reset 0xD0000000, .seq p0, [], .halt, rfl, by decide +kernel, by decide +kernel⟩, ⟨s0, ⟨plantReg, ⟨0, 0⟩, 1⟩, by decide⟩, ⟨State.reset, p0, by decide⟩,
   ⟨{ sTwo 3 with agenda := [.agent (.node u1)] }, .node u1, [], rfl, by decide +kernel⟩,
   ⟨{ State.reset with agenda := [.event .krvcntClear] }, .krvcntClear, [], rfl, rfl⟩,
   ⟨plantSeqWord State.reset 0xD0000000, p0, plantImage 0xD0000000, 0xD0000000, .halt, by rfl, by decide, by rfl, ofOption (by decide +kernel)⟩,
   ⟨stC (feed0 0x80004000 true), plantReg, _, feed0 0x80004000 true, 0x80004000, [], .setc 1 0, rfl, rfl, by rfl, by rfl, ofOption (by decide +kernel)⟩,
   ⟨s0, u0, _, .iadd wZero, rfl, ofOption (by decide +kernel)⟩,
   ⟨stSp 0 [cfgBeat 8 0 0, cfgBeat 0 1 0] sp0, plantReg, spO, _, 0, cfgBeat 8 0 0, cfgBeat 0 1 0, .pref default default, rfl, by decide +kernel, by decide +kernel, ofOption (by decide +kernel)⟩,
   ⟨stMe 16 [cmdBeat 2 0] me0, plantReg, meO, _, _, 0, cmdBeat 2 0, .mswap (MCmd.ofBits (cmdBeat 2 0).pay), rfl, by rfl, by rfl, ofOption (by decide +kernel)⟩,
   stMe 0 [] (withE me0 (ent (.mswap cmd0))), plantReg, meO, _, _, 0, _, by decide, rfl, rfl⟩
theorem meets_memory : (∃ s t, s.Canonical ∧ step s = .next t) ∧ mayStore (.deviceReset default) = false ∧
    (∃ i s t, mayStore i = false ∧ NoRetry s ∧ exec i s = .next t) :=
  ⟨⟨plantSeqWord State.reset 0xD4000000, _, ⟨by decide⟩, rfl⟩, rfl, .add 3 1 2, sq (run1 5 6) [], _, rfl, fun _ h => by injection h with h; subst h; rfl, rfl⟩
theorem meets_writes : ∃ s id q bs, s.Canonical ∧ (s.reqs.find? fun x => x.id == id) = some q ∧ PlainWrite s q bs ∧ bs ≠ [] ∧ (partAt s q.part).mnq.isFull (mnqCount (partAt s q.part)) = true ∧
    KeyedUnder s q.binding q.key bs.length :=
  ⟨withPart (stReq plain) { partS with mnq := { (partS).mnq with s := 0, tail := 64, head := 0 } }, 7, plain, [1, 2], ⟨by decide⟩, by rfl, ⟨.inr (.inr ⟨_, rfl⟩), rfl, by decide, by decide⟩, by decide, by decide, fun i h _ => .inl (by
    have : plain.key / 256 ≤ i := h
    simp only [isCrypt, plain, req0, Target.key, Option.getD, hostKey] at *
    simp; omega)⟩
theorem meets_nodeFrame : ∃ i w s t u, encode i = .node w ∧ s.actor = .node u ∧ exec i s = .next t :=
  ⟨.sysid wZero, _, s0, _, u0, rfl, rfl, rfl⟩
theorem meets_seqFrame : ∃ t, NoRetry (sq (run1 5 6) []) ∧ exec (.add 3 1 2) (sq (run1 5 6) []) = .next t ∧ greg (seqAt t p0) 3 = 11 :=
  ⟨_, fun _ h => by injection h with h; subst h; rfl, rfl, by decide⟩
theorem meets_encodings : (Instr.add 3 1 2).wf = true ∧ encode (.add 3 1 2) ≠ .none := by decide

/-! ### Worked results -/

/-- A conversion of Table 7-4: the first element of the result, and INEX, SATC and UFZ. -/
def conv (src dst : Fmt) (rnd : Rnd) (sat : Bool) (code : Nat) : Option Nat × Nat × Nat × Nat :=
  let b := dataBeat (BitVec.ofNat 256 code) 1 0 0
  let r := convertBeats src dst rnd sat 0 [b]
  (r.1.head?.map fun x => payElem x.pay (fmtWidth dst) 0, r.2.inex, r.2.satc, r.2.ufz)
/-- Table 7-4 (R126). -/
theorem test_conversions :
    [conv .fp32 .e4m3 .rne false 0x3A000000,
     conv .fp32 .e4m3 .rne false 0x3AC00000,
     conv .fp32 .e4m3 .rne false 0x43FA0000,
     conv .fp32 .e5m2 .rne false 0x43960000,
     conv .fp32 .e5m2 .rz false 0x43960000,
     conv .fp32 .e5m2 .rne false 0x47C35000,
     conv .fp32 .e5m2 .rne true 0x47C35000,
     conv .i32 .i8 .rne false 0xFFFFFF7E,
     conv .i32 .i8 .rne true 0xFFFFFF7E,
     conv .fp32 .i8 .rne false 0x40200000,
     conv .fp32 .i8 .ru false 0x40200000,
     conv .fp32 .i32 .rd false 0xC0200000,
     conv .fp32 .i16 .rne false 0x7FC00000] =
    [(some 0x00, 1, 0, 1), (some 0x01, 1, 0, 0), (some 0x7F, 1, 1, 0), (some 0x5D, 1, 0, 0), (some 0x5C, 1, 0, 0), (some 0x7C, 1, 1, 0), (some 0x7B, 1, 1, 0), (some 0x7E, 0, 0, 0), (some 0x80, 0, 1, 0), (some 2, 1, 0, 0), (some 3, 1, 0, 0), (some 0xFFFFFFFD, 1, 0, 0), (some 0, 0, 1, 0)] := by decide +kernel
def wX (f : Fmt) (sat : Bool) (imm : BitVec 32) : NodeWord := { w0 with fmt := f, sat := sat, dy := false, imm := imm }
/-- A beat of these elements of w bits, lanes of the mask valid. -/
def els (w mask : Nat) (l : List Nat) : Beat := dataBeat (payOfElems w l) (BitVec.ofNat 8 mask) 0 0
/-- What the node puts on its output X when it runs on these heads: payloads and valid lanes, and INEX and SATC. -/
def fired (i : Instr) (op : OpState) (ins : List Beat) : List (Nat × Nat) × Nat × Nat :=
  match exec i (tst ((ins ++ List.replicate (4 - ins.length) d5).map fun b => [b]) op [(64, 0x800000)] []) with
  | .next t =>
    match t.regions with
    | [rg] =>
      let c := (ctxAt (cellAt rg ⟨0, 0⟩) 0).cnt
      ((rg.links.getD 4 default).allBeats.map fun b => (b.pay.toNat, b.valid.toNat), c.inex, c.satc)
    | _ => ([], 0, 0)
  | _ => ([], 0, 0)
def one (w v : Nat) : Beat := els w 1 [v]
/-- Table 9-6 (R193): the rows that take one step, and the first step of PSCAN. -/
theorem test_integerRows :
    [fired (.iadd (wX .i16 false 0)) {} [one 16 0x7FFF, one 16 1], fired (.iadd (wX .i16 true 0)) {} [one 16 0x7FFF, one 16 1],
     fired (.imulh (wX .i16 false 0)) {} [one 16 0x8000, one 16 0x8000], fired (.imulh (wX .n16 false 0)) {} [one 16 0xFFFF, one 16 0xFFFF],
     fired (.sar (wX .i8 false 0)) {} [one 8 0x90, one 8 3], fired (.shr (wX .i8 false 0)) {} [one 8 0x90, one 8 3],
     fired (.sar (wX .i8 false 0)) {} [one 8 0x90, one 8 9], fired (.shr (wX .i8 false 0)) {} [one 8 0x90, one 8 9]] =
    [([(0x8000, 1)], 0, 0), ([(0x7FFF, 1)], 0, 1), ([(0x4000, 1)], 0, 0), ([(0xFFFE, 1)], 0, 0), ([(0xF2, 1)], 0, 0), ([(0x12, 1)], 0, 0),
     ([(0xFF, 1)], 0, 0), ([(0x00, 1)], 0, 0)] := by decide +kernel
theorem test_floatRows :
    [fired (.ffma (wX .fp32 false 0)) {} [one 32 0x3F800001, one 32 0x3F800001, one 32 0xBF800002],
     fired (.fmul (wX .fp32 false 0)) {} [one 32 0x3F800001, one 32 0x3F800001],
     fired (.fadd (wX .fp32 false 0)) {} [one 32 0x3F800002, one 32 0xBF800002],
     fired (.fmin (wX .fp32 false 0)) {} [one 32 0x7FC00000, one 32 0x40000000], fired (.fmin (wX .fp32 false 0)) {} [one 32 0x80000000, one 32 0]] =
    [([(0x28800000, 1)], 0, 0), ([(0x3F800002, 1)], 1, 0), ([(0, 1)], 0, 0), ([(0x40000000, 1)], 0, 0), ([(0x80000000, 1)], 0, 0)] := by decide +kernel
theorem test_sumRows :
    [fired (.hsum (wX .bf16 false 0)) {} [els 16 3 [0x4380, 0x3F80, 0xC380]],
     fired (.pscan (wX .i32 false 0)) {} [els 32 0xFF [1, 2, 3, 4, 5, 6, 7, 8]]] =
    [([(0x3F80, 1)], 0, 0), ([((payOfElems 32 [1, 3, 6, 10, 15, 21, 28, 36]).toNat, 0xFF)], 0, 0)] := by decide +kernel
/-- AES-256-GCM (R353, R382) on a key and a nonce of zeros: NIST SP 800-38D's test cases 13 and 14, and opening what was sealed. -/
theorem test_gcm :
    let k : List Byte := List.replicate 32 0
    let n : List Byte := List.replicate 12 0
    gcmSeal k n [] [] = [0x53, 0x0F, 0x8A, 0xFB, 0xC7, 0x45, 0x36, 0xB9, 0xA9, 0x63, 0xB4, 0xF1, 0xC4, 0xCB, 0x73, 0x8B] ∧
    gcmSeal k n [] (List.replicate 16 0) =
      [0xCE, 0xA7, 0x40, 0x3D, 0x4D, 0x60, 0x6B, 0x6E, 0x07, 0x4E, 0xC5, 0xD3, 0xBA, 0xF3, 0x9D, 0x18,
       0xD0, 0xD1, 0xC8, 0xA7, 0x99, 0x99, 0x6B, 0xF0, 0x26, 0x5B, 0x98, 0xB5, 0xD4, 0x8A, 0xB9, 0x19] ∧
    gcmOpen k n [] ((gcmSeal k n [] (List.replicate 16 0)).take 16) ((gcmSeal k n [] (List.replicate 16 0)).drop 16) = some (List.replicate 16 0) ∧
    gcmOpen k n [] (List.replicate 16 0) (List.replicate 16 0) = none := by decide +kernel
/-- The node words of R243, R418 and R425: FISECT.CRD.D2.AB xy, a, c; STEER.N32 xy, a, a; CARRY.CRD x, a, b, c. -/
theorem test_programWords :
    [(decodeNode 0xA1780BE00A00000000).toOption, (decodeNode 0x602803E00000000000).toOption, (decodeNode 0x65F805400000000000).toOption] =
    [some (.fisect ⟨.crd, .rne, false, .a, .c, .none, true, true, false, 0, 0, 0b001010, 0⟩),
     some (.steer ⟨.n32, .rne, false, .a, .a, .none, true, true, false, 0, 0, 0, 0⟩),
     some (.carry ⟨.crd, .rne, false, .a, .b, .c, true, false, false, 0, 0, 0, 0⟩)] := by decide +kernel
end Sys2Proof.Tests
end

