-- ==== Sys2Proof/Proofs/ConfigWords.lean ====
section
/-! SUPPORT. What each word of a configuration stream makes of the feed it is read from (R145 to R150), and the statement made of it. -/

namespace Sys2Proof.Proofs

open Machine Laws

/-- An instruction that runs as a configuration word does, at a ready feed, puts back what its meaning makes of the feed. -/
theorem exec_of_cfgRun {i : Instr} {s : State} {rg : Region} {adds : Bool} {g g' : Feed} (k : Region → Feed → Feed)
    (hi : exec i s = cfgRun adds k s) (h : CfgReady s rg adds g) (hk : k rg g = g') : exec i s = .next (feedPut s rg g') := by
  rw [hi, cfgRun_ready h, hk]

/-! ### Cursor words (R146, R147, R155) -/

section Cursor
variable {rg : Region} {g : Feed} {x y : BitVec 14} {c : Offset}

theorem cursorWord_begun (hb : g.begun = true) (k : Feed → Feed) : g.cursorWord k = k g.fresh := by
  simp [Feed.cursorWord, Feed.fresh, hb]

theorem feedVers_first {sect : Nat} (hb : g.begun = false) (hx : x.toNat = sect) :
    feedVers sect x y g = { g with begun := true, tag := y.toNat, autox := false, rect := none, last := none } := by
  simp [feedVers, hb, hx]

theorem feedSet_inside (hb : g.begun = true) (hh : rg.holds (curOff x y) = true) (auto : Bool) :
    feedSet rg x y auto g =
      { g.fresh with cursor := some (curOff x y), hardCur := false, autox := auto, plane := resetSel g.plane [curOff x y] } := by
  simp [feedSet, cursorWord_begun hb, hh, Feed.fresh]

theorem feedHard_inside (hb : g.begun = true) (hh : rg.holds (curOff x y) = true) (hc : rg.hardCol x.toInt = true) :
    feedHard rg x y g = { g.fresh with cursor := some (curOff x y), hardCur := true } := by
  simp [feedHard, cursorWord_begun hb, hh, hc]

theorem feedMove_inside (hb : g.begun = true) (hc : g.cursor = some c) (hh : rg.holds ⟨c.dx + x.toInt, c.dy + y.toInt⟩ = true) :
    feedMove rg x y g = { g.fresh with
      cursor := some ⟨c.dx + x.toInt, c.dy + y.toInt⟩, hardCur := false,
      plane := resetSel g.plane [⟨c.dx + x.toInt, c.dy + y.toInt⟩] } := by
  simp [feedMove, cursorWord_begun hb, hc, hh, Feed.fresh]

theorem feedRect_inside (hb : g.begun = true) (hc : g.cursor = some c) (hh : rg.holds ⟨c.dx + x.toInt, c.dy + y.toInt⟩ = true)
    (h0 : rg.holds c = true) (hx : 0 ≤ x.toInt) (hy : 0 ≤ y.toInt) :
    feedRect rg x y g = { g.fresh with
      rect := some (x.toNat + 1, y.toNat + 1), hardCur := false,
      plane := resetSel g.plane (rectCells rg c (x.toNat + 1) (y.toNat + 1)) } := by
  have hsign : ¬(x.toInt < 0 ∨ y.toInt < 0) := by omega
  simp [feedRect, cursorWord_begun hb, hc, hsign, hh, h0, Feed.fresh]

end Cursor

/-! ### Writes to one cell (R111, R155, R161) -/

section OneCell
variable {rg : Region} {g : Feed} {c : Offset} {v : Nat}

theorem feedWrite_oneCell {f : Nat} (h : OneCell rg g c) (hv : cellFieldErr f v = none) :
    feedWrite rg f v g = { g with last := none, plane := setField g.plane c (heldKey g.plane c f) v } := by
  simp [feedWrite, oneCell h, hv]

theorem feedLreg_oneCell (h : OneCell rg g c) (hv : cellFieldErr 26 v = none) :
    feedLreg rg v g = { g with
      last := none, plane := setField g.plane c 26 v,
      lregs := aset g.lregs (lregKey c (bitsOf (planeField g.plane c 24) 3 2) (bitsOf (planeField g.plane c 24) 0 3))
        (BitVec.ofNat 32 (v % 256 * 2 ^ 24 + planeField g.plane c 25)) } := by
  rw [feedLreg, feedCommit_one h hv]
  rfl

theorem feedBinit_oneCell (h : OneCell rg g c) (hv : cellFieldErr 92 v = none) (hfit : planeField g.plane c 80 + (v % 2048 + 1) ≤ 2048) :
    feedBinit rg v g = { g with
      last := none, binit := g.binit ++ [(offKey c, planeField g.plane c 80, v % 2048 + 1, initBeat g.plane c)],
      plane := setField (setField g.plane c 92 v) c 80 ((planeField g.plane c 80 + (v % 2048 + 1)) % 2048) } := by
  have hany : ¬([c].any fun o => decide (2048 < planeField g.plane o 80 + (v % 2048 + 1))) = true := by simpa using hfit
  rw [feedBinit, feedCommit_one h hv]
  exact if_neg hany

/-- R161's conditions on a preload: the mask is a run of m bits from bit 0, the segment a tile store (type 2) of at least m buffers. -/
theorem feedPreload_oneCell {m : Nat} (h : OneCell rg g c) (hv : bitsOf v 16 5 = 0)
    (hrun : ((List.range 16).takeWhile fun i => bitsOf v i 1 == 1).length = m) (h0 : m ≠ 0) (hmask : bitsOf v 0 16 = 2 ^ m - 1)
    (htile : (segDesc g.plane c (bitsOf v 21 3)).typ = 2) (hroom : m ≤ (segDesc g.plane c (bitsOf v 21 3)).param + 1) :
    feedPreload rg v g = { g with
      last := none, plane := setField g.plane c 93 v, preload := g.preload ++ [(offKey c, bitsOf v 21 3, m)] } := by
  have hseg : ¬(segDesc g.plane c (bitsOf v 21 3)).param + 1 < m := by omega
  rw [feedPreload, feedCommit_one h (preload_clean v hv)]
  simp [hrun, h0, hmask, htile, hseg]

end OneCell

/-! ### ENDS (R148 to R150) -/

section Ends
variable {s : State} {rg : Region} {g : Feed} {c : Nat}

theorem feedEnds_passes (hb : g.begun = true) (hsum : g.sum % 2 ^ 28 = c)
    (hlay : g.complete = true ∨ g.tag = (sectAt (seqAt s rg.id.seq) rg.id.sect).lv % 2 ^ 14)
    (hp : planeErr rg g.plane = none) (hbr : bridgeErr s rg g.plane = none) (hbl : blocksErr rg g = none) :
    feedEnds s rg c g = g.next := by
  have hstale : ¬(!g.complete && g.tag != (sectAt (seqAt s rg.id.seq) rg.id.sect).lv % 2 ^ 14) = true := by
    rcases hlay with h | h <;> simp [h]
  rw [feedEnds, if_neg (by simp [hb]), if_neg (not_not_intro hsum), if_neg hstale, hp, hbl, hbr]
  rfl

theorem feedEnds_mismatch (hb : g.begun = true) (hsum : g.sum % 2 ^ 28 ≠ c) : feedEnds s rg c g = g.fail .checksumMismatch := by
  rw [feedEnds, if_neg (by simp [hb]), if_pos hsum]

end Ends

/-! ### The statement -/

/-- Settles O44: each word is run by `cfgRun`, and what it makes of the feed is the lemma on its meaning. -/
theorem configurationWordsAct : Obligations.ConfigurationWordsAct := by
  unfold Obligations.ConfigurationWordsAct
  refine ⟨?vers, ?setAndHard, ?moveAndRect, ?writes, ?endsPass, ?endsMismatch⟩
  case vers =>
    intro s rg g x y h hb hx
    exact exec_of_cfgRun (fun rg => feedVers rg.id.sect x y) rfl h (feedVers_first hb hx)
  case setAndHard =>
    intro s rg g x y h hb hh
    exact ⟨exec_of_cfgRun (feedSet · x y false) rfl h (feedSet_inside hb hh false),
      exec_of_cfgRun (feedSet · x y true) rfl h (feedSet_inside hb hh true),
      fun hc => exec_of_cfgRun (feedHard · x y) rfl h (feedHard_inside hb hh hc)⟩
  case moveAndRect =>
    intro s rg g x y c h hb hc o hh
    exact ⟨exec_of_cfgRun (feedMove · x y) rfl h (feedMove_inside hb hc hh),
      fun h0 hx hy => exec_of_cfgRun (feedRect · x y) rfl h (feedRect_inside hb hc hh h0 hx hy)⟩
  case writes =>
    intro s rg g c h h1
    refine ⟨?write, ?localRegister, ?bankInit, ?tilePreload⟩
    case write =>
      intro f v hv
      exact exec_of_cfgRun (feedWrite · f.toNat v.toNat) rfl h (feedWrite_oneCell h1 hv)
    case localRegister =>
      intro v hv
      exact exec_of_cfgRun (feedLreg · v.toNat) rfl h (feedLreg_oneCell h1 hv)
    case bankInit =>
      intro v hv n a hfit
      exact exec_of_cfgRun (feedBinit · v.toNat) rfl h (feedBinit_oneCell h1 hv hfit)
    case tilePreload =>
      intro v m hv hrun h0 hmask htile hroom
      exact exec_of_cfgRun (feedPreload · v.toNat) rfl h (feedPreload_oneCell h1 hv hrun h0 hmask htile hroom)
  case endsPass =>
    intro s rg g c h hb hsum hlay hp hbr hbl
    exact exec_of_cfgRun (feedEnds s · c.toNat) rfl h (feedEnds_passes hb hsum hlay hp hbr hbl)
  case endsMismatch =>
    intro s rg g c h hb hsum
    exact exec_of_cfgRun (feedEnds s · c.toNat) rfl h (feedEnds_mismatch hb hsum)

end Sys2Proof.Proofs
end

