-- ==== Sys2Proof/Proofs/WrittenWords.lean ====
section
/-! SUPPORT. Words that the specification writes out: each is the encoding of the instruction beside it, so the decoder reads that instruction back. -/

namespace Sys2Proof.Proofs

open Machine Laws

/-- The word that a well-formed instruction is encoded as decodes to that instruction. -/
theorem decode_of_encode {i : Instr} {c : Code} (codec : Codec.Statement i) (hwf : i.wf = true) (henc : encode i = c) (hc : c ≠ .none) :
    c.decode = some i := by
  subst henc
  exact codec hwf hc

section Reads
variable {i : Instr}

theorem decodeCfg_of_encode {w : BitVec 32} (codec : Codec.Statement i) (hwf : i.wf = true) (henc : encode i = .cfg w) :
    (decodeCfg w).toOption = some i :=
  decode_of_encode codec hwf henc nofun

theorem decodeNode_of_encode {w : BitVec 72} (codec : Codec.Statement i) (hwf : i.wf = true) (henc : encode i = .node w) :
    (decodeNode w).toOption = some i :=
  decode_of_encode codec hwf henc nofun

theorem decodeSeq_of_encode {w : BitVec 32} (codec : Codec.Statement i) (hwf : i.wf = true) (henc : encode i = .seq w) :
    (decodeSeq w).toOption = some i :=
  decode_of_encode codec hwf henc nofun

theorem decodeCmd_of_encode {w : BitVec 256} (codec : Codec.Statement i) (hwf : i.wf = true) (henc : encode i = .cmd w) :
    (decodeCmd w).toOption = some i :=
  decode_of_encode codec hwf henc nofun

end Reads

/-- Settles O52: each instruction encodes to the word that the specification writes out, and the codec reads it back; bytes 28 to 31 of R259's beat
are computed. -/
theorem wordsDecodeAsTheTablesSay : Obligations.WordsDecodeAsTheTablesSay := by
  unfold Obligations.WordsDecodeAsTheTablesSay
  refine ⟨?setc, ?movc, ?autox, ?rect, ?ends, ?hard, ?writePort, ?writeF0, ?writeF1, ?writeF2, ?iadd, ?ffma, ?add, ?beq, ?halt, ?mmul, ?mmulBytes⟩
  case setc => exact decodeCfg_of_encode (Codec.setc 1 0) rfl rfl
  case movc => exact decodeCfg_of_encode (Codec.movc (-1) 0) rfl rfl
  case autox => exact decodeCfg_of_encode (Codec.autox 0 2) rfl rfl
  case rect => exact decodeCfg_of_encode (Codec.rect 3 1) rfl rfl
  case ends => exact decodeCfg_of_encode (Codec.ends 0xF60A3C0) rfl rfl
  case hard => exact decodeCfg_of_encode (Codec.hard 1 0) rfl rfl
  case writePort => exact decodeCfg_of_encode (Codec.write 13 0xC02300) rfl rfl
  case writeF0 => exact decodeCfg_of_encode (Codec.write 0 0x21B912) rfl rfl
  case writeF1 => exact decodeCfg_of_encode (Codec.write 1 0xD4C000) rfl rfl
  case writeF2 => exact decodeCfg_of_encode (Codec.write 2 0x003FC0) rfl rfl
  case iadd => exact decodeNode_of_encode (Codec.iadd _) rfl rfl
  case ffma => exact decodeNode_of_encode (Codec.ffma _) rfl rfl
  case add => exact decodeSeq_of_encode (Codec.add 3 1 2) rfl rfl
  case beq => exact decodeSeq_of_encode (Codec.beq 1 2 0xFFFE) rfl rfl
  case halt => exact decodeSeq_of_encode Codec.halt rfl rfl
  case mmul => exact decodeCmd_of_encode (Codec.mmul _) rfl rfl
  case mmulBytes => decide

end Sys2Proof.Proofs
end

