-- ==== Sys2Proof/Proofs/SequencerArithmetic.lean ====
section
/-! SUPPORT. The arithmetic of the sequencer on words is that of R292 on the integers they stand for, wrapped to 64 bits, and the statement made of it. -/

namespace Sys2Proof.Proofs

open Machine Laws

/-! ### The value that each operation gives (R292) -/

section Values
variable (x y : DWord) (n : Nat)

theorem sub_eq_ofInt : x - y = BitVec.ofInt 64 (x.toNat - y.toNat) :=
  BitVec.eq_of_toInt_eq (by
    rw [BitVec.toInt_sub, BitVec.toInt_ofInt, x.toInt_eq_toNat_bmod, y.toInt_eq_toNat_bmod, Int.bmod_sub_bmod, Int.sub_bmod_bmod])

/-- The quotient is truncated; that of the least value by -1 does not fit, and wraps (Table 14-7). -/
theorem divS_eq_tdiv : divS x y = if y = 0 then BitVec.allOnes 64 else BitVec.ofInt 64 (x.toInt.tdiv y.toInt) := by
  have hquot : x.sdiv y = BitVec.ofInt 64 (x.toInt.tdiv y.toInt) :=
    BitVec.eq_of_toInt_eq (by rw [BitVec.toInt_sdiv, BitVec.toInt_ofInt])
  rw [divS, hquot]

theorem remS_eq_tmod : remS x y = if y = 0 then x else BitVec.ofInt 64 (x.toInt.tmod y.toInt) := by
  rw [remS, ← BitVec.toInt_srem, BitVec.ofInt_toInt]

theorem shiftLeft_eq_mul : x <<< n = BitVec.ofNat 64 (x.toNat * 2 ^ n) := by
  rw [← Nat.shiftLeft_eq]
  rfl

theorem ushiftRight_eq_div : x >>> n = BitVec.ofNat 64 (x.toNat / 2 ^ n) := by
  rw [← Nat.shiftRight_eq_div_pow, ← BitVec.toNat_ushiftRight, BitVec.ofNat_toNat, BitVec.setWidth_eq]

theorem slt_eq_toInt_lt : (if x.slt y then 1 else 0 : DWord) = if x.toInt < y.toInt then 1 else 0 := by
  simp only [BitVec.slt_iff_toInt_lt]

end Values

/-! ### The statement -/

/-- Settles O25: each instruction runs one function of the ALU, whose value is the lemma on it or the definition of the word's own operation. -/
theorem sequencerArithmetic : Obligations.SequencerArithmetic := by
  unfold Obligations.SequencerArithmetic
  refine ⟨?add, ?sub, ?mul, ?mulh, ?div, ?rem, ?and, ?or, ?xor, ?shl, ?shr, ?sar, ?slt, ?sltn, ?addi, ?andi, ?ori, ?xori, ?lih,
    ?shli, ?shri, ?sari, ?longShift⟩
  case add => exact rr_law _ _ (· + ·) (fun _ _ _ _ => rfl) fun _ _ => rfl
  case sub => exact rr_law _ _ (· - ·) (fun _ _ _ _ => rfl) sub_eq_ofInt
  case mul => exact rr_law _ _ (· * ·) (fun _ _ _ _ => rfl) fun _ _ => rfl
  case mulh => exact rr_law _ _ mulHigh (fun _ _ _ _ => rfl) fun _ _ => rfl
  case div => exact rr_law _ _ divS (fun _ _ _ _ => rfl) divS_eq_tdiv
  case rem => exact rr_law _ _ remS (fun _ _ _ _ => rfl) remS_eq_tmod
  case and => exact rr_law _ _ (· &&& ·) (fun _ _ _ _ => rfl) fun _ _ => rfl
  case or => exact rr_law _ _ (· ||| ·) (fun _ _ _ _ => rfl) fun _ _ => rfl
  case xor => exact rr_law _ _ (· ^^^ ·) (fun _ _ _ _ => rfl) fun _ _ => rfl
  case shl => exact rr_law _ _ (fun x y => x <<< shAmount y) (fun _ _ _ _ => rfl) fun x y => shiftLeft_eq_mul x (shAmount y)
  case shr => exact rr_law _ _ (fun x y => x >>> shAmount y) (fun _ _ _ _ => rfl) fun x y => ushiftRight_eq_div x (shAmount y)
  case sar => exact rr_law _ _ (fun x y => x.sshiftRight (shAmount y)) (fun _ _ _ _ => rfl) fun x y => sar_eq x (shAmount y)
  case slt => exact rr_law _ _ (fun x y => if x.slt y then 1 else 0) (fun _ _ _ _ => rfl) slt_eq_toInt_lt
  case sltn => exact rr_law _ _ (fun x y => if x < y then 1 else 0) (fun _ _ _ _ => rfl) fun _ _ => rfl
  case addi => exact ri_law _ _ fun _ _ _ _ => rfl
  case andi => exact ri_law _ _ fun _ _ _ _ => rfl
  case ori => exact ri_law _ _ fun _ _ _ _ => rfl
  case xori => exact ri_law _ _ fun _ _ _ _ => rfl
  case lih => exact ri_law _ _ fun _ _ _ _ => rfl
  case shli => exact sh_law _ _ (fun x n => x <<< n) (fun _ _ _ _ => rfl) shiftLeft_eq_mul
  case shri => exact sh_law _ _ (fun x n => x >>> n) (fun _ _ _ _ => rfl) ushiftRight_eq_div
  case sari => exact sh_law _ _ (fun x n => x.sshiftRight n) (fun _ _ _ _ => rfl) sar_eq
  case longShift => exact shift_illegal

end Sys2Proof.Proofs
end

