-- ==== Sys2Proof/Proofs/Encodings.lean ====
section
/-! SUPPORT. Decoding gives back every well-formed instruction that has words: the codec lemma of each instruction, put together. -/

namespace Sys2Proof.Proofs
open Machine Laws

/-- Settles O60, by cases on the instruction: a node word by its opcode's row, every other word by the codec lemma of its format; an event has
no words. -/
theorem encodingsDecodeBack : Obligations.EncodingsDecodeBack := by
  intro i
  show Codec.Statement i
  cases i with
  | iadd w | isub w | imul w | imulh w | imad w | ineg w | iabs w | imin w | imax w | icmp w | and w | or w | xor w | andn w
  | not w | shl w | shr w | sar w | rotl w | clz w | popc w | sel w | fadd w | fsub w | fmul w | ffma w | fneg w | fabs w
  | fmin w | fmax w | fcmp w | frcp w | frsq w | fsqrt w | fexp2 w | flog2 w | fscale w | cvt w | qpack w | qunpk w | bcast w
  | shuf w | slide w | pack w | unpack w | laneid w | hsum w | hmax w | hmin w | acc w | accmax w | pscan w | count w | steer w
  | fork w | merge w | mergerr w | mergesel w | dist w | dispatch w | gate w | drop w | sink w | gen w | carry w | invar w
  | repeatN w | seqtag w | reorder w | mark w | stopi w | stopx w | stopup w | waitmk w | specres w | retype w | ld w | st w
  | ldreq w | streq w | push w | pop w | tld w | tst w | spbsend w | aadd w | amin w | amax w | axchg w | acas w | atas w
  | aor w | fence w | fscan w | flook w | fisect w | funion w | frep w | fred w | fwrite w | oadd w | omul w | ocmp w | ocut w
  | ocvt w | pqcell w | stat w | rate w | ver w | sysid w | trap w | nop w => exact fun _ _ => dec_node _ _ _ rfl
  | nodeTokenFire _ | matchDiscard _ _ | latchAdvance _ _ _ | freeSlotReturn _ _ | retypeApply _ _ | bridgeSend _
  | allowanceReturn _ _ _ | flitReceive _ _ | flitReplay _ | linkFlitReceive _ _ _ | remoteAccessRequest _ _ | cxlLinkDown _
  | hostMemAccess _ _ | windowAccess _ | elementIssue _ _ | faultNoticePendingWrite _ | walkComplete _ | writePerform _
  | spbComplete _ _ _ | eventTokenArrive _ | spReqMark _ _ | spDataToken _ _ _ | relRelease _ _ _ | invalidationStart _
  | invalidationComplete _ | resume _ _ | tPfExpiry _ _ | streamBufferGrow _ | statTokenAdd _ | meCommandEnqueue _ _
  | meMarkerEntry _ _ | meMigrate _ _ _ _ | meMigrationReturn _ _ | shadowLoad _ _ | planeSwap _ | drainTimeout _
  | waitsReturn _ | waitmWake _ | kernelComplete _ | recordStart _ | linkWake _ | sqctlGo _ | sqctlSkip _ | sqctlStop _
  | allocatorRun _ | pwbudWrite _ _ | entryAging _ _ | contextAging _ | configInstall _ | invocationArm _ _ | agateLookup _
  | invocationRetire _ | prectlGo _ _ | schedulerPreempt _ | cutComplete _ | tCutExpiry _ | invocationResume _ _ | windowEnd _
  | commit _ _ | rbstatClear _ | regionFreeze _ | faultRecordPendingWrite _ | hangTimeout _ | frctlRelease _ _ | frctlClear _ _
  | fltstatClear _ | softError _ | bankReassign _ | agateFlush _ | agsbaseWrite _ _ | agssizeWrite _ _ | shape _ _ | bind _ _ _
  | revoke _ | quote _ | domset _ _ | cxlmap _ _ _ _ | krvcntClear | deviceReset _ | registerWrite _ _ _ | readPerform _
  | linkRetrain _ => exact fun _ hne => absurd rfl hne
  | setc x y => exact Codec.setc x y
  | movc x y => exact Codec.movc x y
  | autox x y => exact Codec.autox x y
  | rect x y => exact Codec.rect x y
  | vers s v => exact Codec.vers s v
  | ends c => exact Codec.ends c
  | hard x y => exact Codec.hard x y
  | write f v => exact Codec.write f v
  | localRegisterCommit v => exact Codec.localRegisterCommit v
  | bankInitCommit v => exact Codec.bankInitCommit v
  | tilePreload v => exact Codec.tilePreload v
  | linRead h b => exact Codec.linRead h b
  | linWrite h b => exact Codec.linWrite h b
  | gath h b => exact Codec.gath h b
  | scat h b => exact Codec.scat h b
  | copy h b => exact Codec.copy h b
  | fib h b => exact Codec.fib h b
  | hash h b => exact Codec.hash h b
  | flush h b => exact Codec.flush h b
  | pref h b => exact Codec.pref h b
  | mload c => exact Codec.mload c
  | mswap c => exact Codec.mswap c
  | mmul c => exact Codec.mmul c
  | mdrain c => exact Codec.mdrain c
  | mzero c => exact Codec.mzero c
  | mfmt c => exact Codec.mfmt c
  | mmigr c => exact Codec.mmigr c
  | mcount c => exact Codec.mcount c
  | add d a b => exact Codec.add d a b
  | sub d a b => exact Codec.sub d a b
  | mul d a b => exact Codec.mul d a b
  | mulh d a b => exact Codec.mulh d a b
  | div d a b => exact Codec.div d a b
  | rem d a b => exact Codec.rem d a b
  | seqAnd d a b => exact Codec.seqAnd d a b
  | seqOr d a b => exact Codec.seqOr d a b
  | seqXor d a b => exact Codec.seqXor d a b
  | seqShl d a b => exact Codec.seqShl d a b
  | seqShr d a b => exact Codec.seqShr d a b
  | seqSar d a b => exact Codec.seqSar d a b
  | slt d a b => exact Codec.slt d a b
  | sltn d a b => exact Codec.sltn d a b
  | addi d a i => exact Codec.addi d a i
  | andi d a i => exact Codec.andi d a i
  | ori d a i => exact Codec.ori d a i
  | xori d a i => exact Codec.xori d a i
  | shli d a i => exact Codec.shli d a i
  | shri d a i => exact Codec.shri d a i
  | sari d a i => exact Codec.sari d a i
  | lih d a i => exact Codec.lih d a i
  | seqLd d a i => exact Codec.seqLd d a i
  | ldw d a i => exact Codec.ldw d a i
  | seqSt d a i => exact Codec.seqSt d a i
  | stw d a i => exact Codec.stw d a i
  | samoAdd d a b w => exact Codec.samoAdd d a b w
  | samoSwap d a b w => exact Codec.samoSwap d a b w
  | samoCas d a b w => exact Codec.samoCas d a b w
  | samoAnd d a b w => exact Codec.samoAnd d a b w
  | samoOr d a b w => exact Codec.samoOr d a b w
  | samoXor d a b w => exact Codec.samoXor d a b w
  | samoMin d a b w => exact Codec.samoMin d a b w
  | samoMax d a b w => exact Codec.samoMax d a b w
  | samoMinu d a b w => exact Codec.samoMinu d a b w
  | samoMaxu d a b w => exact Codec.samoMaxu d a b w
  | beq a b o => exact Codec.beq a b o
  | bne a b o => exact Codec.bne a b o
  | blt a b o => exact Codec.blt a b o
  | bge a b o => exact Codec.bge a b o
  | loop a o => exact Codec.loop a o
  | jmp o => exact Codec.jmp o
  | jal o => exact Codec.jal o
  | jr a => exact Codec.jr a
  | cfgl s n => exact Codec.cfgl s n
  | cfgs d n => exact Codec.cfgs d n
  | arm c b n => exact Codec.arm c b n
  | waits d n => exact Codec.waits d n
  | pure c b n => exact Codec.pure c b n
  | mode m n => exact Codec.mode m n
  | waitm d a => exact Codec.waitm d a
  | launch a b => exact Codec.launch a b
  | tail a => exact Codec.tail a
  | srd d s r => exact Codec.srd d s r
  | swr a s r => exact Codec.swr a s r
  | seqFence s => exact Codec.seqFence s
  | seqTrap c => exact Codec.seqTrap c
  | halt => exact Codec.halt
  | seqNop => exact Codec.seqNop

end Sys2Proof.Proofs
end

