-- ==== Sys2Proof/Proofs/NodeOps.lean ====
section
/-! SUPPORT. Every node word but PUSH is one firing of its node; what that leaves alone. -/

namespace Sys2Proof.Proofs
open Machine Laws

/-- A node word other than PUSH fires its node, whatever the firing is. -/
theorem exec_eq_nodeRun {i : Instr} {c : BitVec 72} (hi : encode i = .node c) (hp : ∀ w, i ≠ .push w) (s : State) :
    ∃ w f, exec i s = nodeRun w s f := by
  cases i with
  | iadd w | isub w | imul w | imulh w | imad w | ineg w | iabs w | imin w | imax w | icmp w | and w | or w | xor w | andn w
  | not w | shl w | shr w | sar w | rotl w | clz w | popc w | sel w | fadd w | fsub w | fmul w | ffma w | fneg w | fabs w
  | fmin w | fmax w | fcmp w | frcp w | frsq w | fsqrt w | fexp2 w | flog2 w | fscale w | qpack w | qunpk w | bcast w | shuf w
  | slide w | pack w | unpack w | laneid w | hsum w | hmax w | hmin w | acc w | accmax w | pscan w | count w | steer w | fork w
  | merge w | mergerr w | mergesel w | dist w | dispatch w | gate w | drop w | sink w | gen w | carry w | invar w | repeatN w
  | seqtag w | reorder w | mark w | stopi w | stopx w | stopup w | waitmk w | specres w | retype w | ld w | st w | ldreq w
  | streq w | pop w | tld w | tst w | spbsend w | aadd w | amin w | amax w | axchg w | acas w | atas w | aor w | fence w
  | fscan w | flook w | fisect w | funion w | frep w | fred w | fwrite w | oadd w | omul w | ocmp w | ocut w | pqcell w | stat w
  | rate w | ver w | sysid w | trap w | nop w => exact ⟨w, _, rfl⟩
  | cvt w =>
    simp only [exec, execCvt]
    split <;> exact ⟨w, _, rfl⟩
  | ocvt w =>
    simp only [exec, execOcvt]
    split <;> exact ⟨w, _, rfl⟩
  | push w => exact absurd rfl (hp w)
  | _ => nomatch hi

/-- What PUSH adds behind its firing is one write on its way, and its number. -/
theorem pushOut_eq (w : NodeWord) (s t : State) : pushOut w s t = { t with reqs := (pushOut w s t).reqs, reqSeq := (pushOut w s t).reqSeq } := by
  unfold pushOut
  repeat' split
  all_goals rfl

/-- Where PUSH runs, its node has fired and the write has been sent. -/
theorem exec_push {w : NodeWord} {s t : State} (h : exec (.push w) s = .next t) :
    ∃ t0, statefulRun w s [portA w] (pushFire w s) = .next t0 ∧ t = pushOut w s t0 := by
  change execPush w s = .next t at h
  unfold execPush at h
  split at h
  case h_1 t0 h0 =>
    cases h
    exact ⟨t0, h0, rfl⟩
  case h_2 o hne => exact absurd h (hne t)

/-- Settles O58: each node word but PUSH is one firing, whose frame is `nodeRun_nf`; PUSH is a firing and the write it sends. -/
theorem nodesTouchTheirRegion : Obligations.NodesTouchTheirRegion := by
  intro i w s t u hi ha h
  by_cases hp : ∃ x, i = .push x
  case pos =>
    obtain ⟨x, rfl⟩ := hp
    obtain ⟨t0, h0, rfl⟩ := exec_push h
    obtain ⟨frame, regions, parts, part⟩ := stateful_nf x _ _ s t0 u ha h0
    rw [pushOut_eq]
    exact ⟨by rw [frame], fun hne => absurd rfl (hne x), regions, parts, part⟩
  case neg =>
    have hne : ∀ x, i ≠ .push x := fun x e => hp ⟨x, e⟩
    obtain ⟨x, f, hx⟩ := exec_eq_nodeRun hi hne s
    obtain ⟨frame, regions, parts, part⟩ := nodeRun_nf x f s t u ha (hx ▸ h)
    refine ⟨?_, fun _ => ?_, regions, parts, part⟩
    · rw [frame]
    · rw [frame]; exact ⟨rfl, rfl⟩

end Sys2Proof.Proofs
end

