-- ==== Sys2Proof/Proofs/Memory.lean ====
section
/-! SUPPORT. Memory: what never stores leaves it, every step keeps its form, and a write that performs stores its bytes. -/

namespace Sys2Proof.Proofs
open Machine Laws

/-! ### Instructions that do not store -/

/-- A node word leaves memory as it was. -/
theorem node_mem {i : Instr} {c : BitVec 72} {s t : State} (h : exec i s = .next t) (hi : encode i = .node c) (hp : ∀ w, i ≠ .push w) :
    t.mem = s.mem := by
  obtain ⟨w, f, hx⟩ := exec_eq_nodeRun hi hp s
  exact nodeRun_mem w s f t (hx ▸ h)

/-- What runs in its sequencer context with an effect that leaves memory as it was. -/
def SeqQuiet (s : State) (o : Host.Outcome State Fault Refusal) : Prop := ∃ regs k, o = seqRun s regs k ∧ ∀ c q, (k c q).mem = s.mem

theorem aluRR_quiet (d a b : BitVec 5) (f : DWord → DWord → DWord) (s : State) : SeqQuiet s (aluRR d a b f s) := ⟨_, _, rfl, fun _ _ => rfl⟩
theorem aluRI_quiet (d a : BitVec 5) (x : BitVec 16) (f : DWord → DWord → DWord) (s : State) : SeqQuiet s (aluRI d a x f s) := ⟨_, _, rfl, fun _ _ => rfl⟩
theorem aluSh_quiet (d a : BitVec 5) (x : BitVec 6) (f : DWord → Nat → DWord) (s : State) : SeqQuiet s (aluSh d a x f s) := ⟨_, _, rfl, fun _ _ => rfl⟩
theorem branch_quiet (a b : BitVec 5) (o : BitVec 16) (f : DWord → DWord → Bool) (s : State) : SeqQuiet s (branch a b o f s) := ⟨_, _, rfl, fun _ _ => rfl⟩
theorem seqFence_quiet (x : BitVec 3) (s : State) : SeqQuiet s (execSeqFence x s) := by
  refine ⟨_, _, rfl, fun c q => ?_⟩
  split
  · exact atScope_mem s x.toNat
  · rfl

/-- What an instruction that does not store is: it leaves memory as it was, or it runs in its sequencer context with an effect that does. -/
theorem exec_mem_or_seqRun {i : Instr} (hi : mayStore i = false) {s t : State} (h : exec i s = .next t) :
    t.mem = s.mem ∨ SeqQuiet s (exec i s) := by
  cases i with
  | iadd w | isub w | imul w | imulh w | imad w | ineg w | iabs w | imin w | imax w | icmp w | and w | or w | xor w | andn w
  | not w | shl w | shr w | sar w | rotl w | clz w | popc w | sel w | fadd w | fsub w | fmul w | ffma w | fneg w | fabs w
  | fmin w | fmax w | fcmp w | frcp w | frsq w | fsqrt w | fexp2 w | flog2 w | fscale w | cvt w | qpack w | qunpk w | bcast w
  | shuf w | slide w | pack w | unpack w | laneid w | hsum w | hmax w | hmin w | acc w | accmax w | pscan w | count w | steer w
  | fork w | merge w | mergerr w | mergesel w | dist w | dispatch w | gate w | drop w | sink w | gen w | carry w | invar w
  | repeatN w | seqtag w | reorder w | mark w | stopi w | stopx w | stopup w | waitmk w | specres w | retype w | ld w | st w
  | ldreq w | streq w | pop w | tld w | tst w | spbsend w | aadd w | amin w | amax w | axchg w | acas w | atas w | aor w
  | fence w | fscan w | flook w | fisect w | funion w | frep w | fred w | fwrite w | oadd w | omul w | ocmp w | ocut w | ocvt w
  | pqcell w | stat w | rate w | ver w | sysid w | trap w | nop w => exact .inl (node_mem h rfl fun _ e => nomatch e)
  | push w => exact .inl (execPush_mem w s t h)
  | linRead _ _ | linWrite _ _ | gath _ _ | scat _ _ | copy _ _ | fib _ _ | hash _ _ | flush _ _ | pref _ _ => exact .inl (acceptSpb_mem _ s t h)
  | setc x y => exact .inl (execSetc_mem x y s t h)
  | movc x y => exact .inl (execMovc_mem x y s t h)
  | autox x y => exact .inl (execAutox_mem x y s t h)
  | rect x y => exact .inl (execRect_mem x y s t h)
  | vers x v => exact .inl (execVers_mem x v s t h)
  | ends c => exact .inl (execEnds_mem c s t h)
  | hard x y => exact .inl (execHard_mem x y s t h)
  | write f v => exact .inl (execWrite_mem f v s t h)
  | localRegisterCommit v => exact .inl (execLocalRegisterCommit_mem v s t h)
  | bankInitCommit v => exact .inl (execBankInitCommit_mem v s t h)
  | tilePreload v => exact .inl (execTilePreload_mem v s t h)
  | nodeTokenFire u => exact .inl (execNodeTokenFire_mem u s t h)
  | matchDiscard u cd => exact .inl (execMatchDiscard_mem u cd s t h)
  | latchAdvance r link k => exact .inl (execLatchAdvance_mem r link k s t h)
  | freeSlotReturn r link => exact .inl (execFreeSlotReturn_mem r link s t h)
  | retypeApply u port => exact .inl (execRetypeApply_mem u port s t h)
  | bridgeSend dir => exact .inl (execBridgeSend_mem dir s t h)
  | allowanceReturn r link dir => exact .inl (execAllowanceReturn_mem r link dir s t h)
  | flitReceive dir good => exact .inl (execFlitReceive_mem dir good s t h)
  | flitReplay dir => exact .inl (execFlitReplay_mem dir s t h)
  | linkFlitReceive port flit crcOk => exact .inl (execLinkFlitReceive_mem port flit crcOk s t h)
  | cxlLinkDown port => exact .inl (execCxlLinkDown_mem port s t h)
  | spbComplete r sp slot => exact .inl (execSpbComplete_mem r sp slot s t h)
  | eventTokenArrive k => exact .inl (execEventTokenArrive_mem k s t h)
  | spReqMark r sp => exact .inl (execSpReqMark_mem r sp s t h)
  | spDataToken r sp port => exact .inl (execSpDataToken_mem r sp port s t h)
  | relRelease r sp port => exact .inl (execRelRelease_mem r sp port s t h)
  | invalidationStart part => exact .inl (execInvalidationStart_mem part s t h)
  | tPfExpiry part nseq => exact .inl (execTPfExpiry_mem part nseq s t h)
  | streamBufferGrow u => exact .inl (execStreamBufferGrow_mem u s t h)
  | statTokenAdd k => exact .inl (execStatTokenAdd_mem k s t h)
  | meCommandEnqueue r me => exact .inl (execMeCommandEnqueue_mem r me s t h)
  | mload c => exact .inl (execMload_mem c s t h)
  | mswap c => exact .inl (execMswap_mem c s t h)
  | mmul c => exact .inl (execMmul_mem c s t h)
  | mdrain c => exact .inl (execMdrain_mem c s t h)
  | mzero c => exact .inl (execMzero_mem c s t h)
  | mfmt c => exact .inl (execMfmt_mem c s t h)
  | mmigr c => exact .inl (execMmigr_mem c s t h)
  | mcount c => exact .inl (execMcount_mem c s t h)
  | meMarkerEntry r me => exact .inl (execMeMarkerEntry_mem r me s t h)
  | meMigrate r me entry south => exact .inl (execMeMigrate_mem r me entry south s t h)
  | meMigrationReturn r me => exact .inl (execMeMigrationReturn_mem r me s t h)
  | sqctlGo c => exact .inl (execSqctlGo_mem c s t h)
  | sqctlStop c => exact .inl (execSqctlStop_mem c s t h)
  | entryAging part k => exact .inl (execEntryAging_mem part k s t h)
  | contextAging c => exact .inl (execContextAging_mem c s t h)
  | agateLookup r => exact .inl (execAgateLookup_mem r s t h)
  | prectlGo part v => exact .inl (execPrectlGo_mem part v s t h)
  | windowEnd r => exact .inl (execWindowEnd_mem r s t h)
  | commit r plan => exact .inl (execCommit_mem r plan s t h)
  | rbstatClear part => exact .inl (execRbstatClear_mem part s t h)
  | frctlRelease part v => exact .inl (execFrctlRelease_mem part v s t h)
  | frctlClear part v => exact .inl (execFrctlClear_mem part v s t h)
  | fltstatClear part => exact .inl (execFltstatClear_mem part s t h)
  | softError e => exact .inl (execSoftError_mem e s t h)
  | bankReassign pos => exact .inl (execBankReassign_mem pos s t h)
  | agateFlush part => exact .inl (execAgateFlush_mem part s t h)
  | agsbaseWrite part v => exact .inl (execAgsbaseWrite_mem part v s t h)
  | agssizeWrite part v => exact .inl (execAgssizeWrite_mem part v s t h)
  | shape die shape => exact .inl (execShape_mem die shape s t h)
  | bind slot mask blob => exact .inl (execBind_mem slot mask blob s t h)
  | domset mid size => exact .inl (execDomset_mem mid size s t h)
  | cxlmap part port off len => exact .inl (execCxlmap_mem part port off len s t h)
  | krvcntClear => exact .inl (execKrvcntClear_mem s t h)
  | deviceReset fw => exact .inl (execDeviceReset_mem fw s t h)
  | linkRetrain port => exact .inl (execLinkRetrain_mem port s t h)
  | add x y z => exact .inr (show SeqQuiet s (execAdd x y z s) from aluRR_quiet x y z _ s)
  | sub x y z => exact .inr (show SeqQuiet s (execSub x y z s) from aluRR_quiet x y z _ s)
  | mul x y z => exact .inr (show SeqQuiet s (execMul x y z s) from aluRR_quiet x y z _ s)
  | mulh x y z => exact .inr (show SeqQuiet s (execMulh x y z s) from aluRR_quiet x y z _ s)
  | div x y z => exact .inr (show SeqQuiet s (execDiv x y z s) from aluRR_quiet x y z _ s)
  | rem x y z => exact .inr (show SeqQuiet s (execRem x y z s) from aluRR_quiet x y z _ s)
  | seqAnd x y z => exact .inr (show SeqQuiet s (execSeqAnd x y z s) from aluRR_quiet x y z _ s)
  | seqOr x y z => exact .inr (show SeqQuiet s (execSeqOr x y z s) from aluRR_quiet x y z _ s)
  | seqXor x y z => exact .inr (show SeqQuiet s (execSeqXor x y z s) from aluRR_quiet x y z _ s)
  | seqShl x y z => exact .inr (show SeqQuiet s (execSeqShl x y z s) from aluRR_quiet x y z _ s)
  | seqShr x y z => exact .inr (show SeqQuiet s (execSeqShr x y z s) from aluRR_quiet x y z _ s)
  | seqSar x y z => exact .inr (show SeqQuiet s (execSeqSar x y z s) from aluRR_quiet x y z _ s)
  | slt x y z => exact .inr (show SeqQuiet s (execSlt x y z s) from aluRR_quiet x y z _ s)
  | sltn x y z => exact .inr (show SeqQuiet s (execSltn x y z s) from aluRR_quiet x y z _ s)
  | addi x y z => exact .inr (show SeqQuiet s (execAddi x y z s) from aluRI_quiet x y z _ s)
  | andi x y z => exact .inr (show SeqQuiet s (execAndi x y z s) from aluRI_quiet x y z _ s)
  | ori x y z => exact .inr (show SeqQuiet s (execOri x y z s) from aluRI_quiet x y z _ s)
  | xori x y z => exact .inr (show SeqQuiet s (execXori x y z s) from aluRI_quiet x y z _ s)
  | lih x y z => exact .inr (show SeqQuiet s (execLih x y z s) from aluRI_quiet x y z _ s)
  | shli x y z => exact .inr (show SeqQuiet s (execShli x y z s) from aluSh_quiet x y z _ s)
  | shri x y z => exact .inr (show SeqQuiet s (execShri x y z s) from aluSh_quiet x y z _ s)
  | sari x y z => exact .inr (show SeqQuiet s (execSari x y z s) from aluSh_quiet x y z _ s)
  | beq x y z => exact .inr (show SeqQuiet s (execBeq x y z s) from branch_quiet x y z _ s)
  | bne x y z => exact .inr (show SeqQuiet s (execBne x y z s) from branch_quiet x y z _ s)
  | blt x y z => exact .inr (show SeqQuiet s (execBlt x y z s) from branch_quiet x y z _ s)
  | bge x y z => exact .inr (show SeqQuiet s (execBge x y z s) from branch_quiet x y z _ s)
  | loop x y => exact .inr (show SeqQuiet s (execLoop x y s) from ⟨_, _, rfl, fun _ _ => rfl⟩)
  | jmp x => exact .inr (show SeqQuiet s (execJmp x s) from ⟨_, _, rfl, fun _ _ => rfl⟩)
  | jal x => exact .inr (show SeqQuiet s (execJal x s) from ⟨_, _, rfl, fun _ _ => rfl⟩)
  | jr x => exact .inr (show SeqQuiet s (execJr x s) from ⟨_, _, rfl, fun _ _ => rfl⟩)
  | mode x y => exact .inr (show SeqQuiet s (execMode x y s) from ⟨_, _, rfl, fun _ _ => rfl⟩)
  | srd x y z => exact .inr (show SeqQuiet s (execSrd x y z s) from ⟨_, _, rfl, fun _ _ => rfl⟩)
  | swr x y z => exact .inr (show SeqQuiet s (execSwr x y z s) from ⟨_, _, rfl, fun _ _ => rfl⟩)
  | halt => exact .inr (show SeqQuiet s (execHalt s) from ⟨_, _, rfl, fun _ _ => rfl⟩)
  | seqNop => exact .inr (show SeqQuiet s (execSeqNop s) from ⟨_, _, rfl, fun _ _ => rfl⟩)
  | seqFence x => exact .inr (seqFence_quiet x s)
  | _ => nomatch hi

/-- Settles O56: such an instruction leaves memory as it was, or runs in a context that has nothing to send again. -/
theorem onlyStoresWriteMemory : Obligations.OnlyStoresWriteMemory := by
  intro i s t hi hr h k
  rcases exec_mem_or_seqRun hi h with hm | ⟨regs, f, hx, hf⟩
  · rw [hm]
  · rw [seqRun_mem s regs f hr hf t (hx ▸ h)]

/-! ### The canonical form -/

/-- Every instruction keeps the form of memory. -/
theorem exec_canonical {i : Instr} {s t : State} (hs : s.Canonical) (h : exec i s = .next t) : t.Canonical := by
  by_cases hi : mayStore i = false
  case pos =>
    rcases exec_mem_or_seqRun hi h with hm | ⟨regs, f, hx, hf⟩
    · exact canonical_of_mem hm hs
    · exact seqRun_canon s regs f hs (fun c q => canonical_of_mem (hf c q) hs) t (hx ▸ h)
  case neg =>
    cases i with
    | remoteAccessRequest port req => exact execRemoteAccessRequest_canon port req s hs t h
    | hostMemAccess off acc => exact execHostMemAccess_canon off acc s hs t h
    | windowAccess req => exact execWindowAccess_canon req s hs t h
    | elementIssue r sp => exact execElementIssue_canon r sp s hs t h
    | faultNoticePendingWrite part => exact execFaultNoticePendingWrite_canon part s hs t h
    | walkComplete walk => exact execWalkComplete_canon walk s hs t h
    | writePerform req => exact execWritePerform_canon req s hs t h
    | invalidationComplete part => exact execInvalidationComplete_canon part s hs t h
    | resume part nseq => exact execResume_canon part nseq s hs t h
    | seqLd d a i => exact execSeqLd_canon d a i s hs t h
    | ldw d a i => exact execLdw_canon d a i s hs t h
    | seqSt d a i => exact execSeqSt_canon d a i s hs t h
    | stw d a i => exact execStw_canon d a i s hs t h
    | samoAdd d a b w => exact execSamoAdd_canon d a b w s hs t h
    | samoSwap d a b w => exact execSamoSwap_canon d a b w s hs t h
    | samoCas d a b w => exact execSamoCas_canon d a b w s hs t h
    | samoAnd d a b w => exact execSamoAnd_canon d a b w s hs t h
    | samoOr d a b w => exact execSamoOr_canon d a b w s hs t h
    | samoXor d a b w => exact execSamoXor_canon d a b w s hs t h
    | samoMin d a b w => exact execSamoMin_canon d a b w s hs t h
    | samoMax d a b w => exact execSamoMax_canon d a b w s hs t h
    | samoMinu d a b w => exact execSamoMinu_canon d a b w s hs t h
    | samoMaxu d a b w => exact execSamoMaxu_canon d a b w s hs t h
    | cfgl x n => exact execCfgl_canon x n s hs t h
    | shadowLoad c sect => exact execShadowLoad_canon c sect s hs t h
    | cfgs d n => exact execCfgs_canon d n s hs t h
    | planeSwap r => exact execPlaneSwap_canon r s hs t h
    | drainTimeout r => exact execDrainTimeout_canon r s hs t h
    | arm c b n => exact execArm_canon c b n s hs t h
    | waits d n => exact execWaits_canon d n s hs t h
    | waitsReturn c => exact execWaitsReturn_canon c s hs t h
    | pure c b n => exact execPure_canon c b n s hs t h
    | waitm d a => exact execWaitm_canon d a s hs t h
    | waitmWake c => exact execWaitmWake_canon c s hs t h
    | launch a b => exact execLaunch_canon a b s hs t h
    | tail a => exact execTail_canon a s hs t h
    | seqTrap c => exact execSeqTrap_canon c s hs t h
    | kernelComplete c => exact execKernelComplete_canon c s hs t h
    | recordStart c => exact execRecordStart_canon c s hs t h
    | linkWake c => exact execLinkWake_canon c s hs t h
    | sqctlSkip c => exact execSqctlSkip_canon c s hs t h
    | allocatorRun part => exact execAllocatorRun_canon part s hs t h
    | pwbudWrite part v => exact execPwbudWrite_canon part v s hs t h
    | configInstall r => exact execConfigInstall_canon r s hs t h
    | invocationArm c sect => exact execInvocationArm_canon c sect s hs t h
    | invocationRetire r => exact execInvocationRetire_canon r s hs t h
    | schedulerPreempt part => exact execSchedulerPreempt_canon part s hs t h
    | cutComplete r => exact execCutComplete_canon r s hs t h
    | tCutExpiry r => exact execTCutExpiry_canon r s hs t h
    | invocationResume c sect => exact execInvocationResume_canon c sect s hs t h
    | regionFreeze r => exact execRegionFreeze_canon r s hs t h
    | faultRecordPendingWrite part => exact execFaultRecordPendingWrite_canon part s hs t h
    | hangTimeout r => exact execHangTimeout_canon r s hs t h
    | revoke slot => exact execRevoke_canon slot s hs t h
    | quote nonce => exact execQuote_canon nonce s hs t h
    | registerWrite part off v => exact execRegisterWrite_canon part off v s hs t h
    | readPerform req => exact execReadPerform_canon req s hs t h
    | _ => exact absurd rfl hi

/-- Settles O55: a step runs an instruction, finds none to run, or lets time pass; the first two keep the form, the last leaves memory alone. -/
theorem stepsKeepMemoryCanonical : Obligations.StepsKeepMemoryCanonical := by
  intro s t hs h
  have begun (a : Actor) : (s.begin a).Canonical := canonical_of_mem (begin_mem s a) hs
  unfold step at h
  split at h
  case h_1 a _ =>
    split at h
    · split at h
      · exact exec_canonical (begun a) h
      · exact fetchNone_canon a _ (begun a) t h
    · cases h
      exact begun a
  case h_2 i _ =>
    split at h
    · exact exec_canonical (begun .idle) h
    · cases h
      exact begun .idle
  case h_3 n _ =>
    cases h
    exact canonical_of_mem (elapse_mem n _) (begun .idle)

/-- Settles O54. -/
theorem resetMemoryIsCanonical : Obligations.ResetMemoryIsCanonical := ⟨by decide⟩

/-! ### A write that performs -/

/-- A plain write is performed by writing its bytes. -/
theorem performAt_plain {s : State} {q : MemReq} {bs : List Byte} (h : PlainWrite s q bs) :
    performAt s q = .ok (devWrite s q.binding q.key bs false) [] false := by
  unfold performAt
  rcases h.plain with ⟨d, a, ht⟩ | ⟨p, o, ht⟩ | ⟨a, ht⟩ <;> rw [ht, h.effect] <;> rfl

theorem plain_not_remote {s : State} {q : MemReq} {bs : List Byte} (h : PlainWrite s q bs) (m d a : Nat) : q.tgt ≠ .remote m d a := by
  rcases h.plain with ⟨_, _, ht⟩ | ⟨_, _, ht⟩ | ⟨_, ht⟩ <;> rw [ht] <;> exact nofun

theorem plain_not_bank {s : State} {q : MemReq} {bs : List Byte} (h : PlainWrite s q bs) : q.atBank = false := by
  unfold MemReq.atBank
  rcases h.plain with ⟨_, _, ht⟩ | ⟨_, _, ht⟩ | ⟨_, ht⟩ <;> rw [ht]

/-- An access in time is not counted as late. -/
theorem lateCheck_inTime {s : State} {q : MemReq} (h : s.cycle.toNat ≤ q.deadline) : lateCheck s q = (s, false) := by
  unfold lateCheck
  rw [if_pos (by simp [h])]

/-- WRITE_PERFORM of a plain write: its bytes are written, it is counted, and its asker answered. -/
theorem exec_writePerform {s : State} {id : Nat} {q : MemReq} {bs : List Byte} (hf : (s.reqs.find? fun x => x.id == id) = some q)
    (h : PlainWrite s q bs) :
    exec (.writePerform id) s = .next (wrotePast (answer (countReq (devWrite s q.binding q.key bs false) q) q [] false) q) := by
  have pick : (!q.reads && !q.atBank) = true := by simp [MemReq.reads, h.effect, plain_not_bank h]
  show performReq id _ s = _
  rw [perform_ok hf h.first (fun m d a e => absurd e (plain_not_remote h m d a)) (performAt_plain h) pick, lateCheck_inTime h.inTime,
    performAt_plain h]
  rfl

/-- Settles O57: the write's state is `devWrite`'s, whose bytes `devWrite_reads` tells; the count stores nothing where its queue is full. -/
theorem writesStoreTheirBytesOnly : Obligations.WritesStoreTheirBytesOnly := by
  intro s id q bs hs hf h hne
  obtain ⟨other, keyed⟩ := devWrite_reads s q.binding q.key bs hs hne
  refine ⟨devWrite s q.binding q.key bs false, _, exec_writePerform hf h, rfl, fun hfull => ?_, other, keyed⟩
  rw [wrotePast_mem, answer_mem, countReq_quiet _ q hfull]

end Sys2Proof.Proofs
end

