-- ==== Sys2Proof/Proofs/Steps.lean ====
section
/-! SUPPORT. What a step runs, and what stands at reset. -/

namespace Sys2Proof.Proofs
open Machine Laws

section Agents
variable {s : State}

/-- A step takes the head of the agenda. -/
theorem step_agent {a : Actor} {t : List Action} (ha : s.agenda = .agent a :: t) :
    step s = if agentTurn s a then
        (match fetch a s with
          | some i => exec i (s.begin a)
          | none => fetchNone a (s.begin a))
      else .next (s.begin a) := by
  unfold step State.nextAction
  rw [ha]
  rfl

theorem step_event {i : Instr} {t : List Action} (ha : s.agenda = .event i :: t) :
    step s = if eventTurn s i then exec i (s.begin .idle) else .next (s.begin .idle) := by
  unfold step State.nextAction
  rw [ha]
  rfl

theorem begin_of_agenda {x : Action} {t : List Action} (ha : s.agenda = x :: t) (a : Actor) :
    s.begin a = { s with agenda := t, actor := a, tick := s.tick + 1 } := by
  unfold State.begin
  rw [ha]
  rfl

/-- With no context of the cell before it, a node's turn has come. -/
theorem nodeTurn_of_first {u : UnitId} (h : contextsBefore s u = []) : agentTurn s (.node u) = true := by
  show nodeTurn s u = true
  unfold nodeTurn
  rw [h]
  rfl

/-- Contexts that are ahead and ready are among those that are ahead. -/
theorem seqTurn_of_few {c : SeqId}
    (h : (s.seqs.filter fun x => (seqOfKey x.1).part / 2 == c.part / 2 && seqAhead s (seqOfKey x.1) c).length < 4) :
    agentTurn s (.seq c) = true := by
  show seqTurn s c = true
  unfold seqTurn
  rw [List.filter_map, List.length_map, decide_eq_true_eq]
  rw [← List.countP_eq_length_filter] at h ⊢
  refine Nat.lt_of_le_of_lt (List.countP_mono_left fun x _ hx => ?_) h
  simp only [Function.comp_apply, Bool.and_eq_true] at hx ⊢
  exact hx.1

theorem fetch_seq {c : SeqId} {im : Image} {w : Word} {i : Instr} (hi : (seqAt s c).image = some im) (hp : im.hlen ≤ (seqAt s c).pc)
    (hw : im.code[(seqAt s c).pc]? = some w) (hd : decodeSeq w = .ok i) : fetch (.seq c) s = some i := by
  show (seqWord (seqAt s c)).bind _ = _
  unfold seqWord
  rw [hi, Option.bind_some, if_pos hp, hw, Option.bind_some, toOpt hd]

theorem fetch_cfg {r : RegId} {rg : Region} {f : Feed} {w : Word} {l : List Word} {i : Instr} (hr : regionAt s r = some rg)
    (hf : rg.feed = some f) (hc : f.closed = false) (hw : f.words = w :: l) (hd : decodeCfg w = .ok i) : fetch (.cfg r) s = some i := by
  show (cfgWord s r).bind _ = _
  unfold cfgWord
  rw [hr, Option.bind_some, hf, Option.bind_some, if_neg (by simp [hc]), hw, List.head?_cons, Option.bind_some, toOpt hd]

theorem fetch_node {u : UnitId} {rg : Region} {i : Instr} (hr : regionAt s u.reg = some rg)
    (hd : decodeNode (nodeBits rg.plane u.off u.ctx) = .ok i) : fetch (.node u) s = some i := by
  show (regionAt s u.reg).bind _ = _
  rw [hr, Option.bind_some, toOpt hd]

theorem fetch_sp {r : RegId} {o : Offset} {rg : Region} {k : Nat} {a b : Beat} {i : Instr} (hr : regionAt s r = some rg)
    (hk : reqPort rg o = some k) (hp : pairAtHead (spHeads rg o k) = some (a, b)) (hd : decodeSpb (b.pay ++ a.pay) = .ok i) :
    fetch (.sp r o) s = some i := by
  show (spWord s r o).bind _ = _
  unfold spWord
  rw [hr, Option.bind_some, hk, Option.bind_some, hp, Option.map_some, Option.bind_some, toOpt hd]

theorem fetch_me {r : RegId} {o : Offset} {rg : Region} {m : Me} {k : Nat} {b : Beat} {i : Instr} (hm : meOf s r o = some (rg, m))
    (hk : cfgPort rg o = some k) (hb : (blockHeads rg o k).head? = some b) (hd : decodeCmd b.pay = .ok i) :
    fetch (.me r o meCap) s = some i := by
  show (meWord s r o).bind _ = _
  unfold meWord
  rw [hm, Option.bind_some, hk, Option.bind_some, hb, Option.map_some, Option.bind_some, toOpt hd]

theorem fetch_entry {r : RegId} {o : Offset} {rg : Region} {m : Me} {k : Nat} {e : MeEntry} (hk : k ≠ meCap)
    (hm : meOf s r o = some (rg, m)) (he : m.queue[k]? = some e) : fetch (.me r o k) s = e.cmd := by
  show (if k = meCap then _ else _) = _
  rw [if_neg hk, hm, Option.bind_some, he, Option.bind_some]

end Agents

/-- Settles O51: the step unfolds at the head of the agenda, and each fetch at the place its agent reads. -/
theorem stepRunsTheDecodedInstruction : Obligations.StepRunsTheDecodedInstruction := by
  unfold Obligations.StepRunsTheDecodedInstruction
  refine ⟨?agent, fun _ _ _ _ => ⟨rfl, rfl, rfl⟩, fun _ _ => nodeTurn_of_first, fun _ _ => seqTurn_of_few, ?outOfTurn, ?event,
    fun _ _ _ _ _ => fetch_seq, fun _ _ _ _ _ _ _ => fetch_cfg, fun _ _ _ _ => fetch_node, fun _ _ _ _ _ _ _ _ => fetch_sp,
    fun _ _ _ _ _ _ _ _ => fetch_me, fun _ _ _ _ _ _ _ => fetch_entry⟩
  case agent =>
    intro s a t i ha ht hf
    rw [step_agent ha, if_pos ht, hf, ← begin_of_agenda ha a]
  case outOfTurn =>
    intro s a t ha ht
    rw [step_agent ha, if_neg (by simp [ht]), begin_of_agenda ha a]
  case event =>
    intro s i t ha ht
    rw [step_event ha, if_pos ht, begin_of_agenda ha .idle]

/-- Settles O53: the reset state's fields; a partition at reset is fresh. -/
theorem resetMeasuresNothing : Obligations.ResetMeasuresNothing := by
  refine ⟨rfl, rfl, rfl, rfl, rfl, fun p => ?_⟩
  show (((List.range 8).map Part.fresh).getD p {}).shape = 0
  rw [List.getD_eq_getElem?_getD, List.getElem?_map]
  cases (List.range 8)[p]? <;> rfl

end Sys2Proof.Proofs
end

