-- ==== Sys2Proof/Proofs/Firings.lean ====
section
/-! SUPPORT. A node that may fire does what its op gives; a token at a single port; the conversions. -/

namespace Sys2Proof.Proofs
open Machine Laws

/-! ### From an op's firing to its instruction -/

section Fires
variable {s : State} {u : UnitId} {w : NodeWord} {e : Env} {ps held : List Nat} {late : Bool} {op : Env → Fire} {f : Fire}

theorem node_fires (h : NodeReady s u w e ps held late) (hf : op e = f) :
    nodeRun w s (fun e => e.attempt ps held late op) = .next (applyFire s u f) := by
  rw [nodeRun_ready h, hf]

theorem stateful_fires (h : NodeReady s u w e ps ps false) (hf : op e = f) : statefulRun w s ps op = .next (applyFire s u f) :=
  node_fires h hf

theorem stateless_fires (h : DataReady s u w e ps held) (hf : op e.fired = f) : statelessRun w s ps held op = .next (applyFire s u f) := by
  rw [statelessRun_ready h, hf]

end Fires

/-! ### Tokens at one port -/

section Tokens
variable {e : Env} {a : Nat} {b : Beat}

/-- A token alone agrees with itself. -/
theorem tokensAgree_one (hd : b.isData = false) : tokensAgree [some b] = .agreed b := by
  have hj : joinSprs b [] = b := by
    unfold joinSprs
    cases hp : b.pay[0] <;> simp [hp, Option.filter]
  unfold tokensAgree
  simp [hd, hj]

theorem kind_of_isStop (hs : b.isStop = true) : b.kind = .stop := by simpa [Beat.isStop] using hs

theorem not_isEoi_of_isStop (hs : b.isStop = true) : b.isEoi = false := by simp [Beat.isEoi, Beat.isMarkOf, kind_of_isStop hs]

theorem not_isClosing_of_isStop (hs : b.isStop = true) : b.isClosing = false := by
  simp [Beat.isClosing, Beat.isRel, Beat.isRlx, Beat.isEoi, Beat.isMarkOf, kind_of_isStop hs]

/-- A STOP ends no round. -/
theorem noteRound_of_isStop (hs : b.isStop = true) : e.noteRound b = e := by
  unfold Env.noteRound
  rw [if_neg (by simp [not_isClosing_of_isStop hs])]

theorem consumeAll_one : e.consumeAll [a] = e.consume a := rfl

/-- A token at the one port of an op that owes nothing passes on. -/
theorem flushTokens_one {pre : Env → Env} (hb : e.head a = some b) (hd : b.isData = false) (hl : e.lack [b] [b] = []) :
    e.flushTokens [a] [] pre = .ok (e.keepLocals (((((pre e).consume a).statAt b).noteRound b).send [b] [b])) := by
  have ht : e.tokens [a] [] [] pre = .ok (((((pre e).consume a).statAt b).noteRound b).send [b] [b]) := by
    unfold Env.tokens
    rw [if_neg (by simp [Env.someToken, hb, hd])]
    rw [List.map_cons, List.map_nil, hb, tokensAgree_one hd]
    exact fireXY_ok e [b] [b] _ hl
  unfold Env.flushTokens
  rw [ht]
  rfl

end Tokens

/-! ### Conversions (R185 to R187) -/

/-- Settles O6: at a DATA head each conversion holds the beat, or its group is whole and leaves. -/
theorem conversionsTakeWholeGroups : Obligations.ConversionsTakeWholeGroups := by
  unfold Obligations.ConversionsTakeWholeGroups
  refine ⟨?cvt, ?narrow, ?qpack, ?qunpk⟩
  case cvt =>
    intro w s u e b h hn hb r hl
    show execCvt w s = _
    unfold execCvt
    dsimp only
    rw [if_neg (Nat.not_lt.mpr hn)]
    refine stateless_fires h ?_
    rw [show e.fired.head (portA w) = some b from hb]
    exact fireBoth_ok e.fired _ _ hl
  case narrow =>
    intro w s u e b h hr hb hd hn held r
    have hx : ∀ f, _ → exec (.cvt w) s = .next (applyFire s u f) := fun f hf => by
      show execCvt w s = _
      unfold execCvt
      dsimp only
      rw [if_pos hn]
      exact stateful_fires h hf
    refine ⟨fun hlt => hx _ ?_, fun hge hl => hx _ ?_⟩ <;> simp only [hb, hd, hr, List.isEmpty_nil, Bool.not_true, Bool.false_eq_true, if_false, if_true]
    · rw [if_pos hlt]
    · rw [if_neg (Nat.not_lt.mpr hge)]
      exact fireBoth_ok e _ _ hl
  case qpack =>
    intro w s u e b h hr hb hd held r
    refine ⟨fun hlt => stateful_fires h ?_, fun hge hl => stateful_fires h ?_⟩ <;>
      simp only [hb, hd, hr, List.isEmpty_nil, Bool.not_true, Bool.false_eq_true, if_false, if_true]
    · rw [if_pos hlt]
    · rw [if_neg (Nat.not_lt.mpr hge)]
      exact fireBoth_ok e _ _ hl
  case qunpk =>
    intro w s u e b h hr hb hd
    refine ⟨fun hh hv => stateful_fires h ?_, ?_⟩
    · simp only [hb, hd, hr, hh, hv, List.isEmpty_nil, Bool.not_true, Bool.false_eq_true, if_false, if_true]
    · intro scale rest hh n res out done hl
      apply Exists.intro
      apply stateful_fires h
      simp only [hb, hd, hr, hh, List.isEmpty_nil, Bool.not_true, Bool.false_eq_true, if_false, if_true]
      exact fireBoth_ok e _ _ hl

end Sys2Proof.Proofs
end

