-- ==== Sys2Proof/Proofs/ElementOps.lean ====
section
/-! SUPPORT. The element-wise, lane, reducing and accumulating node ops: each is one use of the law of its kind. -/

namespace Sys2Proof.Proofs
open Machine Laws

/-! ### The four ways to compute an element -/

/-- A rounded integer op gives its exact result, fitted to the format. -/
theorem intOp_law {i : NodeWord → Instr} {srcs : NodeWord → List Src} {f : NodeWord → (Nat → Int) → Int} {g : NodeWord → List Nat → Int}
    (hi : ∀ w s, exec (i w) s = intOp w s (srcs w) (f w)) (hf : ∀ w l, f w (fun k => ival w (l.getD k 0)) = g w l) :
    ElementLaw i bits srcs fun w l => fit w (g w l) :=
  elementLaw i bits srcs _ _ (fun w l => (roundInt_int _ _ w.sat .rne _ (bounds w.fmt)).trans (congrArg (fit w) (hf w l))) hi

/-- An op on codes gives the code of its function, in the bits of the width. -/
theorem codeOp_law {i : NodeWord → Instr} {srcs : NodeWord → List Src} {f : NodeWord → Bool → Nat → List Nat → Nat} {g : NodeWord → List Nat → Nat}
    (hi : ∀ w s, exec (i w) s = codeOp w s (srcs w) (f w)) (hf : ∀ w l, f w (fmtSigned w.fmt) (bits w) l % 2 ^ bits w = g w l) :
    ElementLaw i bits srcs g :=
  elementLaw i bits srcs _ _ hf hi

/-- A rounded float op gives its exact result, rounded once. -/
theorem fltOp_law {i : NodeWord → Instr} {srcs : NodeWord → List Src} {f : NodeWord → (Nat → Exact) → Exact} {g : NodeWord → List Nat → Nat}
    (hi : ∀ w s, exec (i w) s = fltOp w s (srcs w) (f w)) (hf : ∀ w l, rounded w (f w fun k => fval w (l.getD k 0)) = g w l) :
    ElementLaw i fbits srcs g :=
  elementLaw i fbits srcs _ _ hf hi

/-- A float op on codes gives the code of its function, in the bits of the width. -/
theorem fltCodeOp_law {i : NodeWord → Instr} {srcs : NodeWord → List Src} {f : NodeWord → FloatFmt → List Nat → Nat} {g : NodeWord → List Nat → Nat}
    (hi : ∀ w s, exec (i w) s = fltCodeOp w s (srcs w) (f w)) (hf : ∀ w l, f w (fltShape w.fmt) l % 2 ^ fbits w = g w l) :
    ElementLaw i fbits srcs g :=
  elementLaw i fbits srcs _ _ hf hi

theorem bitsOf_low (n k : Nat) : bitsOf n 0 k = n % 2 ^ k := by simp [bitsOf]

/-! ### The statements -/

/-- Settles O1: SHL's factor is a power of two; the others are `intOp`. -/
theorem integerResultsFitTheFormat : Obligations.IntegerResultsFitTheFormat := by
  unfold Obligations.IntegerResultsFitTheFormat
  refine ⟨?iadd, ?isub, ?imul, ?imad, ?ineg, ?iabs, ?shl⟩
  case iadd => exact intOp_law (fun w s => show execIadd w s = _ from rfl) fun _ _ => rfl
  case isub => exact intOp_law (fun w s => show execIsub w s = _ from rfl) fun _ _ => rfl
  case imul => exact intOp_law (fun w s => show execImul w s = _ from rfl) fun _ _ => rfl
  case imad => exact intOp_law (fun w s => show execImad w s = _ from rfl) fun _ _ => rfl
  case ineg => exact intOp_law (fun w s => show execIneg w s = _ from rfl) fun _ _ => rfl
  case iabs => exact intOp_law (fun w s => show execIabs w s = _ from rfl) fun _ _ => rfl
  case shl =>
    exact elementLaw _ _ _ _ (fun w l => (roundInt (fmtSigned w.fmt) (bits w) true w.sat .rne
        (exactOfInt (ival w (arg0 l) * ((2 ^ (arg1 l % 256) : Nat) : Int))), false))
      (fun w _ => roundInt_int _ _ w.sat .rne _ (bounds w.fmt)) fun _ _ => rfl

/-- Settles O2: all but SEL are `codeOp`; SEL picks one of two codes of the link's width. -/
theorem integerCodeResults : Obligations.IntegerCodeResults := by
  unfold Obligations.IntegerCodeResults
  refine ⟨?imulh, ?imin, ?imax, ?icmp, ?and, ?or, ?xor, ?andn, ?not, ?shr, ?sar, ?rotl, ?clz, ?popc, ?sel⟩
  case imulh => exact codeOp_law (fun w s => show execImulh w s = _ from rfl) fun _ _ => rfl
  case imin => exact codeOp_law (fun w s => show execImin w s = _ from rfl) fun _ _ => rfl
  case imax => exact codeOp_law (fun w s => show execImax w s = _ from rfl) fun _ _ => rfl
  case icmp => exact codeOp_law (fun w s => show execIcmp w s = _ from rfl) fun _ _ => by rw [bitsOf_low]; rfl
  case and => exact codeOp_law (fun w s => show execAnd w s = _ from rfl) fun _ _ => rfl
  case or => exact codeOp_law (fun w s => show execOr w s = _ from rfl) fun _ _ => rfl
  case xor => exact codeOp_law (fun w s => show execXor w s = _ from rfl) fun _ _ => rfl
  case andn => exact codeOp_law (fun w s => show execAndn w s = _ from rfl) fun _ _ => rfl
  case not => exact codeOp_law (fun w s => show execNot w s = _ from rfl) fun _ _ => rfl
  case shr => exact codeOp_law (fun w s => show execShr w s = _ from rfl) fun _ _ => rfl
  case sar => exact codeOp_law (fun w s => show execSar w s = _ from rfl) fun _ _ => rfl
  case rotl => exact codeOp_law (fun w s => show execRotl w s = _ from rfl) fun _ _ => rfl
  case clz => exact codeOp_law (fun w s => show execClz w s = _ from rfl) fun _ _ => rfl
  case popc => exact codeOp_law (fun w s => show execPopc w s = _ from rfl) fun _ _ => rfl
  case sel => exact widthLaw _ _ _ _ (fun _ l => (exactly (if arg0 l ≠ 0 then arg1 l else arg2 l), false)) (fun _ _ => rfl) (fun _ _ => rfl) fun _ _ => rfl

/-- Settles O3: all but FSCALE are `fltOp`; FSCALE reads its second operand as an integer. -/
theorem floatResultsAreRoundedOnce : Obligations.FloatResultsAreRoundedOnce := by
  unfold Obligations.FloatResultsAreRoundedOnce
  refine ⟨?fadd, ?fsub, ?fmul, ?ffma, ?frcp, ?frsq, ?fsqrt, ?fexp2, ?flog2, ?fscale⟩
  case fadd => exact fltOp_law (fun w s => show execFadd w s = _ from rfl) fun _ _ => rfl
  case fsub => exact fltOp_law (fun w s => show execFsub w s = _ from rfl) fun _ _ => rfl
  case fmul => exact fltOp_law (fun w s => show execFmul w s = _ from rfl) fun _ _ => rfl
  case ffma => exact fltOp_law (fun w s => show execFfma w s = _ from rfl) fun _ _ => rfl
  case frcp => exact fltOp_law (fun w s => show execFrcp w s = _ from rfl) fun _ _ => rfl
  case frsq => exact fltOp_law (fun w s => show execFrsq w s = _ from rfl) fun _ _ => rfl
  case fsqrt => exact fltOp_law (fun w s => show execFsqrt w s = _ from rfl) fun _ _ => rfl
  case fexp2 => exact fltOp_law (fun w s => show execFexp2 w s = _ from rfl) fun _ _ => rfl
  case flog2 => exact fltOp_law (fun w s => show execFlog2 w s = _ from rfl) fun _ _ => rfl
  case fscale =>
    exact elementLaw _ _ _ _ (fun w l => (roundFlt (fltShape w.fmt) w.sat w.rnd (exactScale (fval w (arg0 l)) (scaleBound (signedOf (fbits w) (arg1 l)))),
      exactIsNan (fval w (arg0 l)))) (fun _ _ => rfl) fun _ _ => rfl

/-- Settles O4: each is `fltCodeOp`. -/
theorem floatCodeResults : Obligations.FloatCodeResults := by
  unfold Obligations.FloatCodeResults
  refine ⟨?fneg, ?fabs, ?fmin, ?fmax, ?fcmp⟩
  case fneg => exact fltCodeOp_law (fun w s => show execFneg w s = _ from rfl) fun _ _ => rfl
  case fabs => exact fltCodeOp_law (fun w s => show execFabs w s = _ from rfl) fun _ _ => rfl
  case fmin => exact fltCodeOp_law (fun w s => show execFmin w s = _ from rfl) fun _ _ => rfl
  case fmax => exact fltCodeOp_law (fun w s => show execFmax w s = _ from rfl) fun _ _ => rfl
  case fcmp => exact fltCodeOp_law (fun w s => show execFcmp w s = _ from rfl) fun _ _ => by rw [bitsOf_low]; rfl

/-- Settles O7. -/
theorem reductionsGiveOneElement : Obligations.ReductionsGiveOneElement :=
  ⟨reduceLaw _ _ fun _ _ => rfl, reduceLaw _ _ fun _ _ => rfl, reduceLaw _ _ fun _ _ => rfl⟩

theorem lane_of_parity (l : List (List (Option Nat))) (i : Nat) : (if i % 2 = 0 then lane0 l else lane1 l) = l.getD (i % 2) [] := by
  rcases Nat.mod_two_eq_zero_or_one i with h | h <;> rw [h] <;> rfl

/-- Settles O5: each lane move is the law of lane moves with its own element function. -/
theorem laneMovesPlaceElements : Obligations.LaneMovesPlaceElements := by
  unfold Obligations.LaneMovesPlaceElements
  refine ⟨?bcast, ?shuf, ?slide, ?pack, ?unpack, ?laneid⟩
  case bcast => exact laneLaw _ _ _ _ _ (fun w s => show execBcast w s = _ from rfl) fun w wd l => by rw [bitsOf_low]; rfl
  case shuf =>
    refine laneLaw _ _ _ _ _ (fun w s => show execShuf w s = _ from rfl) fun w wd l => ?_
    show both _ = _
    unfold both
    congr 2 <;> funext i <;> show _ = (elAt (lane1 l) i).bind _ <;> cases elAt (lane1 l) i <;> rfl
  case slide => exact laneLaw _ _ _ _ _ (fun w s => show execSlide w s = _ from rfl) fun w wd l => by rw [bitsOf_low]; rfl
  case pack =>
    refine laneLaw _ _ _ _ _ (fun w s => show execPack w s = _ from rfl) fun w wd l => ?_
    simp only [lane_of_parity]
  case unpack => exact laneLaw _ _ _ _ _ (fun w s => show execUnpack w s = _ from rfl) fun w wd l => rfl
  case laneid => exact laneLaw _ _ _ _ _ (fun w s => show execLaneid w s = _ from rfl) fun w wd l => rfl

/-- Settles O8. -/
theorem accumulationsCloseAtTheirLevel : Obligations.AccumulationsCloseAtTheirLevel := by
  unfold Obligations.AccumulationsCloseAtTheirLevel
  refine ⟨accLaw _ _ _ fun w s => show execAcc w s = _ from rfl, accLaw _ _ _ fun w s => show execAccmax w s = _ from rfl,
    accLaw _ _ _ fun w s => show execCount w s = _ from rfl, ?data, ?stop⟩
  case data =>
    intro w s u e b h hr hb hd r x hl
    refine stateful_fires h ?_
    simp only [hb, hd, hr, List.isEmpty_nil, Bool.not_true, Bool.false_eq_true, if_false, if_true]
    exact fireBoth_ok e _ _ hl
  case stop =>
    intro w s u e b h hb hd hs e0 hl
    refine stateful_fires h ?_
    simp only [hb, hd, Bool.false_eq_true, if_false]
    rw [flushTokens_one hb hd hl, noteRound_of_isStop hs]
    simp only [hs, not_isEoi_of_isStop hs, bitsOf_low, Bool.true_and, Bool.or_false, decide_eq_true_eq]
    rfl

end Sys2Proof.Proofs
end

