-- ==== Sys2Proof/Proofs/FlowOps.lean ====
section
/-! SUPPORT. The flow ops: what is consumed and what leaves, on the heads that the statements name. -/

namespace Sys2Proof.Proofs
open Machine Laws

theorem onArm_zero_ok (e : Env) (bs : List Beat) (k : Env → Env) (h : e.lack bs [] = []) : e.onArm 0 bs k = .ok ((k e).send bs []) :=
  fireXY_ok e bs [] k h

theorem onArm_one_ok (e : Env) (bs : List Beat) (k : Env → Env) (h : e.lack [] bs = []) : e.onArm 1 bs k = .ok ((k e).send [] bs) :=
  fireXY_ok e [] bs k h

theorem fired_head (e : Env) (p : Nat) : e.fired.head p = e.head p := rfl
theorem fired_lack (e : Env) (xs ys : List Beat) : e.fired.lack xs ys = e.lack xs ys := rfl

/-! ### Forwarding and discarding (R199, R220, R229) -/

theorem fork_law {w s u e d} (h : DataReady s u w e [portA w] []) (hd : e.head (portA w) = some d) (hl : e.lack [d] [d] = []) :
    exec (.fork w) s = .next (applyFire s u (.ok ((e.fired.consume (portA w)).send [d] [d]))) := by
  show execFork w s = _
  unfold execFork
  refine stateless_fires h ?_
  rw [fired_head, hd]
  exact fireBoth_ok e.fired [d] _ hl

/-- Settles O9. -/
theorem passingOpsForwardOrDiscard : Obligations.PassingOpsForwardOrDiscard := by
  unfold Obligations.PassingOpsForwardOrDiscard
  refine ⟨?fork, ?fence, ?gate, ?drop, ?sink⟩
  case fork =>
    intro w s u e d h hd hl
    exact ⟨fork_law h hd hl, fork_law h hd hl⟩
  case fence =>
    intro w s u e d h hd hdd hr hl
    refine stateful_fires h ?_
    simp only [hd, hdd, if_true]
    exact fireData_ok e [d] [d] _ hr hl
  case gate =>
    intro w s u e d c h hd hc
    show (_ → _ → execGate w s = _) ∧ (_ → execGate w s = _)
    unfold execGate
    refine ⟨fun hp hl => stateless_fires h ?_, fun hp => stateless_fires h ?_⟩
    · simp only [fired_head, hd, hc, if_pos hp]
      exact fireBoth_ok e.fired _ _ hl
    · simp only [fired_head, hd, hc, if_neg (not_not_intro hp)]
      exact fireBoth_ok e.fired _ _ (lack_nil e.fired)
  case drop =>
    intro w s u e d h hd hdd hr
    refine ⟨fun hv => node_fires h ?_, fun hv hl => node_fires h ?_⟩
    · simp only [hd, hdd, if_true, if_pos hv]
      exact fireData_ok e [] [] _ hr (lack_nil e)
    · simp only [hd, hdd, if_true, if_neg hv]
      exact fireData_ok e [d] [d] _ hr hl
  case sink =>
    intro w s u e d h hd
    refine node_fires h ?_
    simp only [hd]

/-! ### Steering (R199, R200, R202, R203) -/

/-- Settles O10. -/
theorem steeringSelectsTheOutput : Obligations.SteeringSelectsTheOutput := by
  unfold Obligations.SteeringSelectsTheOutput
  refine ⟨?steer, ?resolve, ?dist, ?dispatch⟩
  case steer =>
    intro w s u e d c h hd hc hdd hcd hh hr e1
    show (_ → _ → execSteer w s = _) ∧ (_ → _ → execSteer w s = _)
    unfold execSteer
    dsimp only
    rw [nodeRun_awake h]
    simp only [awake_held, awake_head, awake_rates, hh, hd, hc, hdd, hcd, hr, List.isEmpty_nil, Bool.and_self, Bool.not_true,
      Bool.false_eq_true, if_true, if_false]
    refine ⟨fun hp hl => next_ok ?_, fun hp hl => next_ok ?_⟩
    · rw [armOf, if_pos hp]
      exact onArm_zero_ok (e.awake (portB w)) [steered d c] _ ((awake_lack e _ _ _).trans hl)
    · rw [armOf, if_neg (not_not_intro hp)]
      exact onArm_one_ok (e.awake (portB w)) [steered d c] _ ((awake_lack e _ _ _).trans hl)
  case resolve =>
    intro w s u e c x t h hc hcd hh e1 spr y
    show (_ → _ → _ → execSteer w s = _) ∧ (_ → _ → _ → execSteer w s = _) ∧ (_ → _ → _ → execSteer w s = _) ∧
      (_ → _ → _ → execSteer w s = _)
    unfold execSteer
    dsimp only
    rw [nodeRun_awake h]
    simp only [awake_held, awake_head, awake_round, hh, hc, hcd, if_true, armOf, bitsOf_low, Nat.pow_one]
    refine ⟨fun ha hp hl => next_ok ?_, fun ha hp hl => next_ok ?_, fun ha hp hl => next_ok ?_, fun ha hp hl => next_ok ?_⟩
    · rw [ha, if_pos hp, if_pos rfl]
      exact onArm_zero_ok (e.awake (portB w)) [spr true] _ ((awake_lack e _ _ _).trans hl)
    · rw [ha, if_neg (not_not_intro hp), if_neg (by decide), if_pos rfl]
      exact fireXY_ok (e.awake (portB w)) [spr false] [y] _ ((awake_lack e _ _ _).trans hl)
    · rw [ha, if_neg (not_not_intro hp), if_pos rfl]
      exact onArm_one_ok (e.awake (portB w)) [spr true] _ ((awake_lack e _ _ _).trans hl)
    · rw [ha, if_pos hp, if_neg (by decide), if_neg (by decide)]
      exact fireXY_ok (e.awake (portB w)) [y] [spr false] _ ((awake_lack e _ _ _).trans hl)
  case dist =>
    intro w s u e d h hd wx wy t
    show (_ → _ → execDist w s = _) ∧ (_ → _ → execDist w s = _)
    unfold execDist
    refine ⟨fun ht hl => stateless_fires h ?_, fun ht hl => stateless_fires h ?_⟩
    · simp only [fired_head, hd, bitsOf_low]
      rw [if_pos (show e.fired.cs.op.turn < w.aux.toNat % 2 ^ 3 + 1 from ht)]
      exact onArm_zero_ok e.fired [d] _ hl
    · simp only [fired_head, hd, bitsOf_low]
      rw [if_neg (show ¬ e.fired.cs.op.turn < w.aux.toNat % 2 ^ 3 + 1 from Nat.not_lt.mpr ht)]
      exact onArm_one_ok e.fired [d] _ hl
  case dispatch =>
    intro w s u e d c h hd hc hdd hcd hlt hr n cnts ovfs k y hl
    refine stateful_fires h ?_
    simp only [hd, hc, hdd, hcd, Bool.and_self, if_true, bitsOf_low, immNat]
    rw [if_neg (Nat.not_le.mpr hlt), fireData_ok e _ _ _ hr hl]
    simp only [beq_iff_eq]
    rfl

/-! ### Merges (R201) -/

/-- Settles O11. -/
theorem mergesTakeOnePort : Obligations.MergesTakeOnePort := by
  unfold Obligations.MergesTakeOnePort
  refine ⟨?merge, ?mergerr, ?mergesel⟩
  case merge =>
    intro w s u e p d h hp hd hl
    refine node_fires h ?_
    simp only [hp, hd]
    exact fireBoth_ok e [d] _ hl
  case mergerr =>
    intro w s u e d h p hd hdd hl
    refine node_fires h ?_
    simp only [show e.head ((mergePorts w).getD (e.cs.op.turn % (mergePorts w).length) 0) = some d from hd, hdd, if_true]
    exact fireBoth_ok e [d] _ hl
  case mergesel =>
    intro w s u e c d h hc hcd hm hd hdd hl
    refine node_fires h ?_
    simp only [hc, hcd, if_true, List.contains_iff_mem, hm, hd, hdd]
    exact fireBoth_ok e [steered d c] _ hl

end Sys2Proof.Proofs
end

