-- ==== Sys2Proof/Proofs/OrderOps.lean ====
section
/-! SUPPORT. Sources, loop values, repeated fibres, tags, markers and stops. -/

namespace Sys2Proof.Proofs
open Machine Laws

theorem bitsOf_aux (w : NodeWord) : bitsOf w.aux.toNat 0 3 = auxLevel w := bitsOf_low _ _

/-! ### Sources, loop values, REPEAT (R204 to R206) -/

theorem tokenAmong_none {e : Env} {ps : List Nat} (h : ∀ p ∈ ps, ∀ b, e.head p = some b → b.isData = true) : e.tokenAmong ps = none := by
  unfold Env.tokenAmong
  refine find_none _ ps fun p hp => ?_
  cases hb : e.head p with
  | none => rfl
  | some b => simp [h p hp b hb]

/-- Settles O12. -/
theorem sourcesAndLoopsSendInOrder : Obligations.SourcesAndLoopsSendInOrder := by
  unfold Obligations.SourcesAndLoopsSendInOrder
  refine ⟨?gen, ?enter, ?carry, ?take, ?invar, ?repeatN⟩
  case gen =>
    intro w s u e inv h hs he rs b
    refine ⟨fun hlt hr hl => ?_, ?_⟩
    · apply Exists.intro
      apply node_fires h
      simp only [hs, he, hr, List.isEmpty_nil, Bool.not_true, Bool.false_eq_true, if_false, if_pos hlt]
      exact fireBoth_ok e [b] _ hl
    · intro m hge hl
      refine node_fires h ?_
      simp only [hs, he, Bool.false_eq_true, if_false, if_neg (Nat.not_lt.mpr hge)]
      rw [fireBoth_ok e [m] _ hl]
      rfl
  case enter =>
    intro w s u e d h hp he hd hdd hr hl
    refine stateful_fires h ?_
    simp only [hp, he, hd, hdd, Bool.and_false, Bool.false_eq_true, if_false, if_true]
    exact fireData_ok e [d] [d] _ hr hl
  case carry =>
    intro w s u e p d h hp hb hpd hc hcd
    have ht : e.tokenAmong [portB w, portC w] = none := tokenAmong_none fun q hq x hx => by
      simp only [List.mem_cons, List.not_mem_nil, or_false] at hq
      rcases hq with rfl | rfl
      · rw [hb] at hx; cases hx; exact hpd
      · rw [hc] at hx; cases hx; exact hcd
    refine ⟨fun hz => stateful_fires h ?_, fun hz hr hl => stateful_fires h ?_⟩
    · simp only [hp, ht, hb, if_true, if_pos hz]
    · simp only [hp, ht, hb, hc, if_true, if_neg hz]
      exact fireData_ok e _ _ _ hr hl
  case take =>
    intro w s u e d h hp hd hdd hr hl
    refine stateful_fires h ?_
    simp only [hp, hd, hdd, Bool.false_and, Bool.false_eq_true, if_false, if_true]
    exact fireData_ok e [d] [d] _ hr hl
  case invar =>
    intro w s u e p d t h hp hh hb hpd
    have ht : e.tokenAmong [portB w] = none := tokenAmong_none fun q hq x hx => by
      rw [List.mem_singleton.mp hq, hb] at hx; cases hx; exact hpd
    refine ⟨fun hz => stateful_fires h ?_, fun hz hr hl => stateful_fires h ?_⟩
    · simp only [hp, ht, hb, if_true, if_pos hz, Bool.false_eq_true, if_false]
    · simp only [hp, ht, hb, hh, if_true, if_neg hz, Bool.false_eq_true, if_false]
      exact fireData_ok e _ _ _ hr hl
  case repeatN =>
    intro w s u e h
    refine ⟨fun c ha hc hcd => stateful_fires h ?_, ?_, ?_⟩
    · simp only [ha, hc, hcd, Bool.false_and, Bool.false_eq_true, if_false, if_true]
    · intro d ha ht hd hdd hn kept x hroom hl
      have hm : d.isMark = false := by
        have hk : d.kind = .data := by simpa [Beat.isData] using hdd
        simp [Beat.isMark, hk]
      refine stateful_fires h ?_
      simp only [ha, ht, hd, hm, hdd, bne_self_eq_false, Bool.and_false, Bool.true_or, Bool.false_eq_true, if_false, if_true, if_neg hn]
      rw [if_neg (Nat.not_le.mpr hroom)]
      exact fireBoth_ok e [x] _ hl
    · intro d ha ht hd x hl
      refine stateful_fires h ?_
      simp only [ha, hd, Bool.true_and, bne_iff_ne, ne_eq, ht, not_false_eq_true, if_true]
      exact fireBoth_ok e [x] _ hl

/-! ### Tags (R207) -/

/-- REORDER's first tag. -/
theorem bitsOf_tag (w : NodeWord) : bitsOf (immNat w) 3 14 = w.imm.toNat / 8 % 2 ^ 14 := rfl

/-- Settles O13. -/
theorem tagsOrderBeats : Obligations.TagsOrderBeats := by
  unfold Obligations.TagsOrderBeats
  refine ⟨?seqtag, ?enters, ?leaves⟩
  case seqtag =>
    intro w s u e d h hd hdd x hr hl
    refine stateful_fires h ?_
    simp only [hd, hdd, if_true, bitsOf_low]
    exact fireData_ok e [x] [x] _ hr hl
  case enters =>
    intro w s u e d h hd hdd size sg next hlt hfree hroom
    refine stateful_fires h ?_
    simp only [hd, bitsOf_tag, size, sg, next] at hlt hfree hroom ⊢
    cases hb : aget (segAt e.cell (segNo w)).slots
        ((w.imm.toNat / 8 % 2 ^ 14 + e.cs.op.next) % 2 ^ 14 % (segDesc e.rg.plane e.off (segNo w)).size) with
    | none =>
      simp only [hdd, hlt, hfree, decide_true, Bool.and_self, if_true]
      rfl
    | some b =>
      have hfull : (!(e.lack [b] [b]).isEmpty) = true := by simp [hroom b hb]
      simp only [hdd, hlt, hfree, hfull, decide_true, Bool.and_self, if_true]
      rfl
  case leaves =>
    intro w s u e b h size sg next hb hl
    refine stateful_fires h ?_
    have hroom : (!(e.lack [b] [b]).isEmpty) = false := by simp [hl]
    simp only [bitsOf_tag, size, sg, next] at hb ⊢
    rw [hb]
    cases hd : e.head (portA w) with
    | none => exact fireBoth_ok e [b] _ hl
    | some d =>
      simp only [hroom, Bool.and_false, Bool.false_eq_true, if_false]
      exact fireBoth_ok e [b] _ hl

/-! ### Control tokens (R208 to R212) -/

theorem not_beq_eq_decide_ne (m n : Nat) : (!(m == n)) = decide (m ≠ n) := by
  by_cases h : m = n <;> simp [h]

/-- Settles O14. -/
theorem markersAndStopsAreEdited : Obligations.MarkersAndStopsAreEdited := by
  unfold Obligations.MarkersAndStopsAreEdited
  refine ⟨?mark, ?stopi, ?data, ?stop, ?waitmk, ?specres, ?retype⟩
  case mark =>
    intro w s u e d h hd hdd x hr m
    refine ⟨fun hn hl => stateful_fires h ?_, fun hn hl => stateful_fires h ?_⟩
    · simp only [hd, hdd, if_true, bitsOf_low, immNat]
      rw [if_neg hn]
      exact fireData_ok e [x] [x] _ hr hl
    · simp only [hd, hdd, if_true, bitsOf_low, immNat]
      rw [if_pos hn]
      exact fireData_ok e [x, m] [x, m] _ hr hl
  case stopi =>
    intro w s u e d h hd hdd bs hr hl
    refine stateful_fires h ?_
    simp only [hd, hdd, if_true, bitsOf_low, immNat, beq_iff_eq, not_beq_eq_decide_ne]
    exact fireData_ok e bs bs _ hr hl
  case data =>
    intro w s u e d h hd hdd hr hl
    refine ⟨node_fires h ?_, node_fires h ?_⟩ <;> simp only [hd, hdd, if_true] <;> exact fireData_ok e [d] [d] _ hr hl
  case stop =>
    intro w s u e d h hd hdd hs
    refine ⟨fun hle => node_fires h ?_, ?_, ?_⟩
    · simp only [hd, hdd, hs, Bool.false_eq_true, if_false, if_true, bitsOf_aux]
      rw [if_pos hle]
      exact fireBoth_ok e [] _ (lack_nil e)
    · intro hlt x hl
      refine node_fires h ?_
      simp only [hd, hdd, hs, Bool.false_eq_true, if_false, if_true, bitsOf_aux]
      rw [if_neg (Nat.not_le.mpr hlt)]
      exact fireBoth_ok e [x] _ hl
    · intro hle x hl
      refine node_fires h ?_
      simp only [hd, hdd, hs, Bool.false_eq_true, if_false, if_true, bitsOf_aux]
      rw [if_neg (Nat.not_lt.mpr hle)]
      exact fireBoth_ok e [x] _ hl
  case waitmk =>
    intro w s u e d h hd he hroom
    refine stateful_fires h ?_
    simp only [hd, he, hroom, Bool.false_eq_true, if_false, if_true]
    rfl
  case specres =>
    intro w s u e d h hd hdd x hr hl
    refine stateful_fires h ?_
    simp only [hd, hdd, if_true]
    exact fireData_ok e [x] [x] _ hr hl
  case retype =>
    intro w s u e d h hd hdd hr hl
    refine stateful_fires h ?_
    simp only [hd, hdd, if_true]
    exact fireData_ok e [d] [d] _ hr hl

end Sys2Proof.Proofs
end

