-- ==== Sys2Proof/Proofs/BankOps.lean ====
section
/-! SUPPORT. Bank beats, the memory tile, buffers, SPBSEND and the system ops of a node. -/

namespace Sys2Proof.Proofs
open Machine Laws

/-! ### LD and ST (R213) -/

theorem ldstBeat_eq (w : NodeWord) (d : Beat) : ldstBeat w d = (d.ctl + w.imm.toNat % 2 ^ 11) % 2048 := by
  unfold ldstBeat immNat
  rw [bitsOf_low]

/-- Settles O15. -/
theorem bankBeatsAreReadAndWritten : Obligations.BankBeatsAreReadAndWritten := by
  unfold Obligations.BankBeatsAreReadAndWritten
  refine ⟨?ld, ?st⟩
  case ld =>
    intro w s u e d h hd hdd k x ho hr hl
    refine stateful_fires h ?_
    simp only [hd, hdd, if_true, ldstBeat_eq]
    rw [if_pos ho]
    exact fireData_ok e [x] [x] _ hr hl
  case st =>
    intro w s u e d v h hd hv hdd hvd k pois ho hp hr hl
    refine stateful_fires h ?_
    simp only [hd, hv, hdd, hvd, Bool.and_self, if_true, ldstBeat_eq]
    have hno : (!e.beatOwned k) = false := by rw [ho]; rfl
    rw [if_neg (ne_true_of_eq_false hno), if_neg (ne_true_of_eq_false hp)]
    exact fireData_ok e [d] [d] _ hr hl

/-! ### The memory tile (R106, R107, R214, R217) -/

/-- The ops that reply with the values of their lanes. -/
theorem tileRun_law {i : NodeWord → Instr} {ports : NodeWord → List Nat} {isBits writes : Bool} {op : NodeWord → LaneOp}
    (hi : ∀ w s, exec (i w) s = tileRun w s (ports w) isBits writes (op w)) : TileLaw i ports isBits writes op :=
  lanesLaw i ports writes writes _ _ _ hi

/-- Settles O16. -/
theorem tileWordsAreAccessedByLanes : Obligations.TileWordsAreAccessedByLanes := by
  unfold Obligations.TileWordsAreAccessedByLanes
  refine ⟨?ldreq, ?aadd, ?amin, ?amax, ?axchg, ?acas, ?atas, ?aor, ?streq⟩
  case streq => exact lanesLaw _ _ false true (fun w => portB w) _ _ fun _ _ => rfl
  all_goals exact tileRun_law fun _ _ => rfl

/-! ### Stream buffers and tile stores (R215, R216) -/

/-- The cell that a context fires in. -/
theorem cell_of_nodeEnv {s u w e} (h : nodeEnv s u w = some e) : ∃ rg, regionAt s u.reg = some rg ∧ e.cell = cellAt rg u.off := by
  unfold nodeEnv at h
  split at h
  · cases h
  case h_2 rg hr =>
    split at h
    · cases h
      exact ⟨rg, hr, rfl⟩
    · cases h

/-- A PUSH whose next place is not in the overflow area sends nothing. -/
theorem pushOut_quiet {s u w e} {t : State} (ha : s.actor = .node u) (he : nodeEnv s u w = some e) (hg : (segAt e.cell (segNo w)).ovfSlot = none) :
    pushOut w s t = t := by
  obtain ⟨rg, hr, hc⟩ := cell_of_nodeEnv he
  rw [hc] at hg
  unfold pushOut
  rw [ha]
  dsimp only
  rw [hr, Option.map_some]
  cases regionAt t u.reg with
  | none => rfl
  | some x =>
    rw [Option.map_some]
    dsimp only
    rw [hg]

/-- PUSH stores its beat where the buffer has a place for it: in the bank, or in the overflow area at an address that translates. -/
theorem pushFire_ok {s : State} {w : NodeWord} {e : Env} {d : Beat} (hd : e.head (portA w) = some d)
    (hg : (segAt e.cell (segNo w)).space (segDesc e.rg.plane e.off (segNo w)) ≠ 0)
    (ho : (segAt e.cell (segNo w)).ovfSlot = none ∨ ∃ k i x y, (segAt e.cell (segNo w)).ovfSlot = some (k, i) ∧
      immTarget s e.rg.id.seq.part (ovfAt e.rg k i) true = .ok (x, y)) :
    let e2 : Env := { (e.consume (portA w)) with cell := setSeg e.cell (segNo w) ((segAt e.cell (segNo w)).put d) }
    pushFire w s e = .ok ((if d.isData then e2.fired else e2.statAt d).noteRound d) := by
  unfold pushFire
  simp only [hd, if_neg hg]
  rcases ho with ho | ⟨k, i, x, y, ho, hi⟩
  · rw [ho]
    rfl
  · rw [ho]
    dsimp only
    rw [hi]
    rfl

theorem exec_push_of_fires {s t : State} {w : NodeWord} (h : statefulRun w s [portA w] (pushFire w s) = .next t) :
    exec (.push w) s = .next (pushOut w s t) := by
  show execPush w s = _
  unfold execPush
  rw [h]

/-- Settles O17. -/
theorem buffersKeepBeats : Obligations.BuffersKeepBeats := by
  unfold Obligations.BuffersKeepBeats
  refine ⟨?push, ?pop, ?tldStart, ?tldNext, ?tst⟩
  case push =>
    intro w s u e d h hd g e2 t hg
    refine ⟨fun ho => ?_, fun k i x y ho hi => exec_push_of_fires (stateful_fires h ?_)⟩
    · rw [exec_push_of_fires (t := t) (stateful_fires h (pushFire_ok hd hg (.inl ho))), pushOut_quiet h.actor h.env ho]
    · exact pushFire_ok hd hg (.inr ⟨k, i, x, y, ho, hi⟩)
  case pop =>
    intro w s u e d t h hb e1 hl
    refine ⟨fun hdd hr => stateful_fires h ?_, fun hdd => stateful_fires h ?_⟩
    · simp only [hb, hdd, if_true]
      rw [fireData_ok e [d] [d] _ hr hl]
    · simp only [hb, hdd, Bool.false_eq_true, if_false]
      rw [fireBoth_ok e [d] _ hl]
      rfl
  case tldStart =>
    intro w s u e d h hh hd hdd hf hr
    refine stateful_fires h ?_
    simp only [hh, hd, hdd, hf, hr, List.isEmpty_nil, Bool.not_true, Bool.false_eq_true, if_false, if_true]
  case tldNext =>
    intro w s u e t rest h hh d g k x hlt hr hl
    refine stateful_fires h ?_
    have hlast : decide (tileBufSize (segDesc e.rg.plane e.off (segNo w)) ≤ e.cs.op.pos + 1) = false := decide_eq_false (Nat.not_le.mpr hlt)
    simp only [hh, hlast, Bool.false_eq_true, if_false]
    exact fireData_ok e [x] [x] _ hr hl
  case tst =>
    intro w s u e b h hb hbd d g hf hr hp c g1
    refine stateful_fires h ?_
    simp only [hb, hbd, hr, List.isEmpty_nil, Bool.not_true, Bool.false_eq_true, if_false, if_true]
    rw [if_neg (ne_true_of_eq_false hf), if_neg (ne_true_of_eq_false hp)]

/-! ### Sending SPBs (R221) -/

theorem bitsOf_blocks (w : NodeWord) : bitsOf (immNat w) 11 4 = w.imm.toNat / 2 ^ 11 % 16 := rfl

/-- Settles O18. -/
theorem spbSendEmitsBlockBeats : Obligations.SpbSendEmitsBlockBeats := by
  unfold Obligations.SpbSendEmitsBlockBeats
  refine ⟨?triggered, ?source⟩
  case triggered =>
    intro w s u e a t d hs h hd hdd n patch bs hr hl
    show execSpbsend w s = _
    unfold execSpbsend
    dsimp only
    rw [hs]
    refine stateful_fires h ?_
    simp only [hd, hdd, if_true, bitsOf_low, Nat.pow_one, bitsOf_blocks]
    exact fireData_ok e bs bs _ hr hl
  case source =>
    intro w s u e inv hs h ho he hlt bs hr hl
    show execSpbsend w s = _
    unfold execSpbsend
    dsimp only
    rw [hs]
    refine stateful_fires h ?_
    simp only [ho, he, Bool.false_eq_true, if_false, if_pos hlt]
    exact fireData_ok e bs bs _ hr hl

/-! ### System ops (R226 to R229) -/

theorem sysRead_fires {w s u e d} {f : Env → Beat → List Nat} (h : DataReady s u w e [portA w] [portA w]) (hd : e.head (portA w) = some d)
    (hp : e.rg.pureInv = none) (hl : e.lack [{ d with pay := payOfElems 32 (f e.fired d), valid := 0x0F }] [] = []) :
    sysRead w s f = .next (applyFire s u
      (.ok ((e.fired.consume (portA w)).send [{ d with pay := payOfElems 32 (f e.fired d), valid := 0x0F }] []))) := by
  unfold sysRead
  refine stateless_fires h ?_
  have hn : e.fired.rg.pureInv.isNone = true := by
    show e.rg.pureInv.isNone = true
    rw [hp]; rfl
  simp only [fired_head, hd, Env.pureEvent, hn, if_true]
  exact fireXY_ok e.fired _ [] _ hl

/-- Settles O19. -/
theorem systemOpsReportAndTrap : Obligations.SystemOpsReportAndTrap := by
  unfold Obligations.SystemOpsReportAndTrap
  refine ⟨?cells, ?reads⟩
  case cells =>
    intro w s u e d h hd hdd
    refine ⟨fun hh hr => stateful_fires h ?_, ?_, fun lvl tap ht hr hl => stateful_fires h ?_, fun hz => stateful_fires h ?_,
      fun hz => stateful_fires h ?_⟩
    · simp only [hd, hdd, hh, hr, List.isEmpty_nil, if_true]
    · intro x t hh up hr hl
      refine stateful_fires h ?_
      simp only [hd, hdd, hh, if_true]
      exact fireData_ok e [] _ _ hr hl
    · simp only [hd, hdd, ht, if_true]
      exact fireData_ok e [d] [] _ hr hl
    · simp only [hd, hdd, if_true, if_neg (not_not_intro hz)]
    · have himm : bitsOf (immNat w) 0 8 = w.imm.toNat % 256 := bitsOf_low _ _
      simp only [hd, hdd, if_true, if_pos hz, himm]
  case reads =>
    intro w s u e d h hd hp sx reply
    exact ⟨fun hl => sysRead_fires h hd hp hl, fun hl => sysRead_fires h hd hp hl, fun hl => sysRead_fires h hd hp hl⟩

end Sys2Proof.Proofs
end

