-- ==== Sys2Proof/Proofs/FibreOps.lean ====
section
/-! SUPPORT. The fibre units (R234 to R241): what each step sends, folds or stores. -/

namespace Sys2Proof.Proofs
open Machine Laws

section Rules
variable {s : State} {u : UnitId} {w : NodeWord} {e : Env} {ps : List Nat} {t0 : Bool} {op : Env → Fire}

/-- A step of a fibre unit that sends beats with room for them, and then emits what is full. -/
theorem fibreRun_sends {xs : List Beat} {k : Env → Env} (h : NodeReady s u w e ps ps true) (ho : op e = e.fireBoth xs k)
    (hl : e.lack xs xs = []) : fibreRun w s ps t0 op = .next (applyFire s u (((k e).send xs xs).emitFull t0)) :=
  fibreRun_is h (ho.trans (fireBoth_ok e xs k hl))

/-- The same where nothing is packed: nothing more is emitted. -/
theorem fibreRun_sends_only {xs : List Beat} {k : Env → Env} (h : NodeReady s u w e ps ps true) (ho : op e = e.fireBoth xs k)
    (hl : e.lack xs xs = []) (hx : (k e).cs.op.outX = []) (hy : (k e).cs.op.outY = []) :
    fibreRun w s ps t0 op = .next (applyFire s u (.ok ((k e).send xs xs))) := by
  obtain ⟨l, hop⟩ := send_op (k e) xs xs
  rw [fibreRun_sends h ho hl, emitFull_small _ t0 (by rw [hop]; simp [hx]) (by rw [hop]; simp [hy])]

/-- With nothing packed a token goes at once. -/
theorem beforeToken_none {f : Fire} (hx : e.cs.op.outX = []) (hy : e.cs.op.outY = []) : e.beforeToken t0 f = f := by
  unfold Env.beforeToken OpState.pending
  rw [hx, hy]
  rfl

theorem headsOf_two {p q : Nat} {x y : Beat} (hx : e.head p = some x) (hy : e.head q = some y) : e.headsOf [p, q] = some [x, y] := by
  unfold Env.headsOf
  simp [hx, hy]

end Rules

/-! ### Scanned, repeated and written fibres (R235, R239, R241) -/

/-- Settles O20: each step of FSCAN, FREP and FWRITE is one branch of its op; what is full then leaves. -/
theorem fibreElementsArePlacedInOrder : Obligations.FibreElementsArePlacedInOrder := by
  unfold Obligations.FibreElementsArePlacedInOrder
  refine ⟨emitFull_rule, ?scan, ?scanEnd, ?rep, ?repEmpty, ?write⟩
  case scan =>
    intro w s u e c r p sd h hany hlt hel hsd
    refine fibreRun_is h ?_
    dsimp only
    rw [if_pos hany, if_pos hlt, hel]
    dsimp only
    rw [hsd]
    rfl
  case scanEnd =>
    intro w s u e h hany hge hx hy st hl
    refine fibreRun_sends_only (k := fun e1 => e1.setOp fun o =>
      { o with any := false, held := [], sideOut := {}, pois := o.pois && !(o.sideA.boundary (depthOf w - 1)) }) h ?_ hl hx hy
    dsimp only
    rw [if_pos hany, if_neg (Nat.not_lt.mpr hge), beforeToken_none hx hy]
  case rep =>
    intro w s u e a x y l hsrc h hy hyd hlane hx hxd hv q v sd hl
    show execFrep w s = _
    unfold execFrep
    rw [hsrc]
    refine fibreRun_sends (k := fun e1 => (e1.consume (portB w)).fired.setOp fun o => { o with sideB := sd, pois := q }) h ?_ hl
    have hfind : [a].find? (fun p => (e.head p).any fun x => x.isData && (nextLane x e.cs.op.sideA.lane).isNone) = none := by
      simp [hy, hyd, hlane]
    have hv0 : (x.valid == 0) = false := by simpa using hv
    dsimp only
    rw [hfind]
    simp only [hx, hxd, hv0, hy, hyd, hlane, Option.map_some, Option.getD_some, Bool.and_false, Bool.false_eq_true, if_false, if_true]
    rfl
  case repEmpty =>
    intro w s u e x hspent h hx hxd hv v hl
    refine fibreRun_sends (k := fun e1 => (e1.consume (portB w)).fired) h ?_ hl
    have hfind : (srcPort w.srcA).find? (fun p => (e.head p).any fun x => x.isData && (nextLane x e.cs.op.sideA.lane).isNone) = none :=
      find_none _ _ hspent
    dsimp only
    rw [hfind]
    have hv0 : (x.valid == 0) = true := by simpa using hv
    simp only [hx, hxd, hv0, Bool.and_self, if_true]
    rfl
  case write =>
    intro w s u e b l sd h hany hb hd hlane hsd hcnt
    refine fibreRun_is h ?_
    simp only [hb, hany, hd, hlane, hsd, Bool.not_true, Bool.false_eq_true, if_false, if_true]
    rw [if_neg (Nat.not_le.mpr hcnt)]

/-! ### Lookups and reductions (R236, R240) -/

/-- Settles O21: a lookup sends its beat of references; a reduction folds a DATA beat, and a STOP gives the value. -/
theorem fibresAreLookedUpAndReduced : Obligations.FibresAreLookedUpAndReduced := by
  unfold Obligations.FibresAreLookedUpAndReduced
  refine ⟨?look, ?fold, ?give⟩
  case look =>
    intro w s u e x y p sd rs hsrc h hx hy hlock hxd hlanes q v hl
    show execFlook w s = _
    unfold execFlook
    rw [hsrc]
    refine fibreRun_sends (k := fun e1 => (e1.consumeAll [portA w, p]).fired.setOp fun o => { o with sideA := sd, pois := q }) h ?_ hl
    have hp : (e.cs.op.pois || x.poison || [y].any Beat.poison) = q := by simp [q]
    dsimp only
    rw [headsOf_two hx hy]
    simp only [List.any_cons, List.any_nil, hlock, hxd, Bool.not_true, Bool.or_false, Bool.false_eq_true, if_false, if_true, List.head?_cons, hlanes]
    rfl
  case fold =>
    intro w s u e b h hb hd els r sd
    refine fibreRun_is h ?_
    simp only [hb, hd, if_true]
    rfl
  case give =>
    intro w s u e b h hb hd hs lv j gives r bs hl
    have hlv : bitsOf w.aux.toNat 0 3 = lv := bitsOf_aux w
    show execFred w s = _
    unfold execFred
    dsimp only
    rw [hlv]
    refine fibreRun_sends (k := fun e1 => ((e1.consume (portA w)).statAt b).setOp fun o =>
      { o with sideA := o.sideA.stop 8 j, acc := if gives then [] else o.acc, pois := o.pois && !gives }) h ?_ hl
    simp only [hb, hd, hs, Bool.false_eq_true, if_false, if_true]
    rfl

/-! ### Two fibres joined (R237, R238) -/

/-- Settles O22: the three orders of two coordinates are three branches of the one rule of FISECT and FUNION. -/
theorem fibresIntersectAndUnite : Obligations.FibresIntersectAndUnite := by
  unfold Obligations.FibresIntersectAndUnite
  intro w s u e ca ra x cb rb y la lb out refA refB ports h ha hb hla hlb q put skip
  have hout : bitsOf w.aux.toNat 0 3 = out := bitsOf_low _ _
  replace ha : e.sideHead 0 (if out = 1 then [] else [1]) e.cs.op.sideA = .elem ca ra x := ha
  replace hb : e.sideHead 2 (if out = 0 then [] else [3]) e.cs.op.sideB = .elem cb rb y := hb
  have run : ∀ (union : Bool) (e1 : Env), _ → joinRun w s union = .next (applyFire s u (e1.emitFull false)) := fun union e1 ho => by
    unfold joinRun
    rw [hout]
    exact fibreRun_is h ho
  refine ⟨?a, ?b, ?both⟩
  case a =>
    intro sa hlt hsa past
    refine ⟨run false _ ?_, run true _ ?_⟩ <;> simp only [ha, hb, hlt, hsa, hla, if_true, Option.map_some, Option.getD_some] <;> rfl
  case b =>
    intro sb hlt hsb past
    have hn : ¬ ca < cb := Nat.lt_asymm hlt
    refine ⟨run false _ ?_, run true _ ?_⟩ <;> simp only [ha, hb, hn, hlt, hsb, hlb, if_true, if_false, Option.map_some, Option.getD_some] <;> rfl
  case both =>
    intro sa sb heq hsa hsb t
    subst heq
    refine ⟨run false _ ?_, run true _ ?_⟩ <;> simp only [ha, hb, Nat.lt_irrefl, hsa, hsb, hla, hlb, if_false, Option.map_some, Option.getD_some] <;> rfl

end Sys2Proof.Proofs
end

