-- ==== Sys2Proof/Proofs/OnlineOps.lean ====
section
/-! SUPPORT. The online units (R223 to R225): what leaves while a group is open. -/

namespace Sys2Proof.Proofs
open Machine Laws

/-! ### Sums and products, digit by digit (R223) -/

/-- Settles O23: with both groups open and no cut beat waiting, what an online op can produce leaves before it takes another beat. -/
theorem onlineResultsLeaveDigitByDigit : Obligations.OnlineResultsLeaveDigitByDigit := by
  unfold Obligations.OnlineResultsLeaveDigitByDigit
  intro mul w s u e x y i ports valid shapes shift h hcut hany hx hy
  have run : ∀ f : Fire, _ → exec i s = .next (applyFire s u f) := fun f hf => by
    rw [show exec i s = onlineRun w s mul by cases mul <;> rfl]
    exact stateful_fires h hf
  have hno : (srcPort w.srcC).find? (fun p => (e.head p).any Beat.isData) = none := find_none _ _ hcut
  refine ⟨?first, ?digits⟩
  case first =>
    intro hp b hl
    refine run _ ?_
    simp only [hno, hany, hx, hy, hp, Bool.not_false, Bool.false_eq_true, if_true, if_false]
    rw [fireBoth_ok e _ _ hl]
  case digits =>
    intro hp last digs b hlt hready hl
    refine run _ ?_
    simp only [hno, hany, hx, hy, hp, Bool.not_true, Bool.false_eq_true, if_false]
    rw [if_neg (Nat.not_le.mpr hlt), if_pos hready, fireBoth_ok e _ _ hl]

/-! ### Comparisons, cuts and conversions (R224, R225) -/

/-- Settles O24: each op at the moment its result is known. -/
theorem onlineGroupsCompareCutAndConvert : Obligations.OnlineGroupsCompareCutAndConvert := by
  unfold Obligations.OnlineGroupsCompareCutAndConvert
  refine ⟨?cmp, ?cut, ?toGroups, ?fromGroup⟩
  case cmp =>
    intro w s u e x y h hx hy hp hall sign r bx bt hl
    refine stateful_fires h ?_
    simp only [hp, hx, hy, hall, Bool.false_and, Bool.not_false, Bool.and_self, Bool.false_eq_true, if_true, if_false]
    exact fireXY_ok e [bx] [bt] _ hl
  case cut =>
    intro w s u e b y h hcut hnone hb hd htake k x hl
    have hno : (srcPort w.srcB).find? (fun p => (e.head p).any Beat.isData) = none := find_none _ _ hcut
    have hk : bitsOf (immNat w) 0 11 = k := bitsOf_low _ _
    show execOcut w s = _
    unfold execOcut
    rw [hk]
    refine stateful_fires h ?_
    simp only [hno, hnone, hb, htake, hd, Option.isSome_none, Option.isNone_none, Bool.and_false, Bool.false_and, Bool.false_eq_true, if_true,
      if_false]
    exact fireBoth_ok e [x] _ hl
  case toGroups =>
    intro w s u e b hfmt h hb hd g hl
    have hn : bitsOf (immNat w) 0 11 = w.imm.toNat % 2 ^ 11 := bitsOf_low _ _
    show execOcvt w s = _
    unfold execOcvt
    rw [hn]
    dsimp only
    rw [if_pos hfmt]
    refine stateful_fires h ?_
    simp only [hb, hd, if_true]
    exact fireBoth_ok e g.1 _ hl
  case fromGroup =>
    intro w s u e b y ex hfmt h hb htake hclosed hex hcnt rs x hl
    apply Exists.intro
    show execOcvt w s = _
    unfold execOcvt
    dsimp only
    rw [if_neg hfmt]
    apply stateful_fires h
    simp only [hb, htake, hclosed, hex, Option.getD_some, if_true]
    rw [if_pos hcnt]
    exact fireBoth_ok e [x] _ hl

end Sys2Proof.Proofs
end

