-- ==== Sys2Proof/Proofs/SequencerOps.lean ====
section
/-! SUPPORT. The sequencer's own instructions: what they write (R292, R295), accesses (R293), special registers (R305), traps (R307). -/

namespace Sys2Proof.Proofs
open Machine Laws

/-! ### Only the destination changes (R292, R295, R306) -/

/-- An instruction that writes gd and goes on changes no other register. -/
theorem seqPut_only {i : Instr} {d : BitVec 5} {regs : List (BitVec 5)} (k : Seq → DWord)
    (hi : ∀ s, exec i s = seqRun s regs fun c q => seqPut s c q d (k q)) : OnlyRegisters i [d] :=
  or_frame i [d] regs (fun _ q => (setGreg q d (k q)).advance) hi fun _ q => sg_frame q d (k q) _ [d] (List.mem_singleton.mpr rfl)

theorem aluRR_only (i : BitVec 5 → BitVec 5 → BitVec 5 → Instr) (f : DWord → DWord → DWord) (hi : ∀ d a b s, exec (i d a b) s = aluRR d a b f s)
    (d a b : BitVec 5) : OnlyRegisters (i d a b) [d] := seqPut_only _ (hi d a b)

theorem aluRI_only (i : BitVec 5 → BitVec 5 → BitVec 16 → Instr) (f : DWord → DWord → DWord) (hi : ∀ d a k s, exec (i d a k) s = aluRI d a k f s)
    (d a : BitVec 5) (k : BitVec 16) : OnlyRegisters (i d a k) [d] := seqPut_only _ (hi d a k)

theorem aluSh_only (i : BitVec 5 → BitVec 5 → BitVec 6 → Instr) (f : DWord → Nat → DWord) (hi : ∀ d a k s, exec (i d a k) s = aluSh d a k f s)
    (d a : BitVec 5) (k : BitVec 6) : OnlyRegisters (i d a k) [d] := seqPut_only _ (hi d a k)

/-- An instruction that moves the PC only changes no register. -/
theorem pc_only {i : Instr} {regs : List (BitVec 5)} (pc : Seq → Nat) (hi : ∀ s, exec i s = seqRun s regs fun c q => setSeq s c { q with pc := pc q }) :
    OnlyRegisters i [] :=
  or_frame i [] regs (fun _ q => { q with pc := pc q }) hi fun _ _ => ⟨rfl, fun _ _ => rfl⟩

theorem branch_only (i : BitVec 5 → BitVec 5 → BitVec 16 → Instr) (f : DWord → DWord → Bool) (hi : ∀ a b o s, exec (i a b o) s = branch a b o f s)
    (a b : BitVec 5) (o : BitVec 16) : OnlyRegisters (i a b o) [] := by
  refine or_frame _ [] [a, b] (fun _ q => if f (greg q a) (greg q b) then q.jump o.toInt else q.advance) (hi a b o) fun _ q => ?_
  by_cases h : f (greg q a) (greg q b) = true
  · simp only [h, if_true]
    exact ⟨rfl, fun _ _ => rfl⟩
  · simp only [h, Bool.false_eq_true, if_false]
    exact ⟨rfl, fun _ _ => rfl⟩

/-- Settles O59: arithmetic, LOOP and JAL write one register, the other branches and NOP none. -/
theorem sequencerWritesItsRegisterOnly : Obligations.SequencerWritesItsRegisterOnly := by
  unfold Obligations.SequencerWritesItsRegisterOnly
  refine ⟨fun d a b => ?registers, fun d a k => ?immediates, fun d a k => ?shifts, fun a b o => ?branches, fun a o => ?loop, fun o => ?jmp,
    fun o => ?jal, fun a => ?jr, ?nop⟩
  case registers =>
    exact ⟨aluRR_only _ (· + ·) (fun _ _ _ _ => rfl) d a b, aluRR_only _ (· - ·) (fun _ _ _ _ => rfl) d a b,
      aluRR_only _ (· * ·) (fun _ _ _ _ => rfl) d a b, aluRR_only _ mulHigh (fun _ _ _ _ => rfl) d a b,
      aluRR_only _ divS (fun _ _ _ _ => rfl) d a b, aluRR_only _ remS (fun _ _ _ _ => rfl) d a b,
      aluRR_only _ (· &&& ·) (fun _ _ _ _ => rfl) d a b, aluRR_only _ (· ||| ·) (fun _ _ _ _ => rfl) d a b,
      aluRR_only _ (· ^^^ ·) (fun _ _ _ _ => rfl) d a b, aluRR_only _ (fun x y => x <<< shAmount y) (fun _ _ _ _ => rfl) d a b,
      aluRR_only _ (fun x y => x >>> shAmount y) (fun _ _ _ _ => rfl) d a b,
      aluRR_only _ (fun x y => x.sshiftRight (shAmount y)) (fun _ _ _ _ => rfl) d a b,
      aluRR_only _ (fun x y => if x.slt y then 1 else 0) (fun _ _ _ _ => rfl) d a b,
      aluRR_only _ (fun x y => if x < y then 1 else 0) (fun _ _ _ _ => rfl) d a b⟩
  case immediates =>
    exact ⟨aluRI_only _ (· + ·) (fun _ _ _ _ => rfl) d a k, aluRI_only _ (· &&& ·) (fun _ _ _ _ => rfl) d a k,
      aluRI_only _ (· ||| ·) (fun _ _ _ _ => rfl) d a k, aluRI_only _ (· ^^^ ·) (fun _ _ _ _ => rfl) d a k,
      aluRI_only _ (fun x y => x + y <<< 16) (fun _ _ _ _ => rfl) d a k⟩
  case shifts =>
    exact ⟨aluSh_only _ (fun x n => x <<< n) (fun _ _ _ _ => rfl) d a k, aluSh_only _ (fun x n => x >>> n) (fun _ _ _ _ => rfl) d a k,
      aluSh_only _ (fun x n => x.sshiftRight n) (fun _ _ _ _ => rfl) d a k⟩
  case branches =>
    exact ⟨branch_only _ (· == ·) (fun _ _ _ _ => rfl) a b o, branch_only _ (· != ·) (fun _ _ _ _ => rfl) a b o,
      branch_only _ (fun x y => x.slt y) (fun _ _ _ _ => rfl) a b o, branch_only _ (fun x y => !x.slt y) (fun _ _ _ _ => rfl) a b o⟩
  case loop =>
    refine or_frame _ [a] [a] (fun _ q => if greg q a - 1 ≠ 0 then (setGreg q a (greg q a - 1)).jump o.toInt else (setGreg q a (greg q a - 1)).advance)
      (fun _ => rfl) fun _ q => ?_
    by_cases h : greg q a - 1 ≠ 0
    · simp only [if_pos h]
      exact sg_frame q a _ _ [a] (List.mem_singleton.mpr rfl)
    · simp only [if_neg h]
      exact sg_frame q a _ _ [a] (List.mem_singleton.mpr rfl)
  case jmp => exact pc_only (fun q => pcPlus q.pc o.toInt) fun _ => rfl
  case jal =>
    exact or_frame _ [31] [31] (fun _ q => (setGreg q 31 (BitVec.ofNat 64 (q.pc + 1))).jump o.toInt) (fun _ => rfl)
      fun _ q => sg_frame q 31 _ _ [31] (List.mem_singleton.mpr rfl)
  case jr => exact pc_only (fun q => (greg q a).toNat) fun _ => rfl
  case nop => exact pc_only (fun q => q.pc + 1) fun _ => rfl

/-! ### Control flow (R295, R306) -/

/-- A ready context takes the step of its instruction. -/
theorem exec_seqRun {s : State} {c : SeqId} {regs : List (BitVec 5)} {i : Instr} {k : SeqId → Seq → State} (h : SeqReady s c regs)
    (hi : exec i s = seqRun s regs k) : exec i s = .next (k c (seqIssued s c)) := hi.trans (seqRun_ready h k)

/-- Settles O26: a ready context runs the instruction's rule. -/
theorem sequencerControlFlow : Obligations.SequencerControlFlow := by
  unfold Obligations.SequencerControlFlow
  refine ⟨?beq, ?bne, ?blt, ?bge, ?loop, ?jmp, ?jal, ?jr, ?nop, ?fence⟩
  case beq => exact branch_law _ _ (· == ·) (fun _ _ _ _ => rfl) fun _ _ => rfl
  case bne => exact branch_law _ _ (· != ·) (fun _ _ _ _ => rfl) fun x y => by by_cases h : x = y <;> simp [h]
  case blt => exact branch_law _ _ (fun x y => x.slt y) (fun _ _ _ _ => rfl) fun x y => rfl
  case bge =>
    refine branch_law _ _ (fun x y => !x.slt y) (fun _ _ _ _ => rfl) fun x y => ?_
    show (!decide (x.toInt < y.toInt)) = _
    rw [← decide_not, decide_eq_decide]
    exact Int.not_lt
  case loop =>
    intro s c a o h q v
    show execLoop a o s = _
    unfold execLoop
    rw [seqRun_ready h]
    have hpc : (setGreg q a v).pc = (seqAt s c).pc := setGreg_pc _ _ _
    by_cases hv : v ≠ 0
    · rw [if_pos hv]
      dsimp only
      rw [if_pos hv, ← hpc]
      rfl
    · rw [if_neg hv]
      dsimp only
      rw [if_neg hv, ← hpc]
      rfl
  case jmp => exact fun s c o h => exec_seqRun h (show exec (.jmp o) s = execJmp o s from rfl)
  case jal =>
    intro s c o h
    show execJal o s = _
    unfold execJal Seq.jump
    rw [seqRun_ready h]
    rw [setGreg_pc]
    rfl
  case jr => exact fun s c a h => exec_seqRun h (show exec (.jr a) s = execJr a s from rfl)
  case nop => exact fun s c h => exec_seqRun h (show exec .seqNop s = execSeqNop s from rfl)
  case fence =>
    intro s c k h hnone
    refine (exec_seqRun h (show exec (.seqFence k) s = execSeqFence k s from rfl)).trans ?_
    rw [hnone]
    rfl

/-! ### Accesses (R293, R294) -/

theorem load_law {s : State} {c : SeqId} {d a : BitVec 5} {k : BitVec 16} {i : Instr} {n : Nat} {sg : Bool} (h : SeqReady s c [d, a])
    (hi : exec i s = seqLoadN n sg d a k s) :
    AccessLaw s c i (greg (seqIssued s c) a + k.signExtend 64).toNat n (.seqLoad c d.toNat sg) (.read n) d := by
  unfold seqLoadN at hi
  exact access_law (exec_seqRun h hi)

theorem store_law {s : State} {c : SeqId} {d a : BitVec 5} {k : BitVec 16} {i : Instr} {n : Nat} (h : SeqReady s c [d, a])
    (hi : exec i s = seqStoreN n d a k s) :
    AccessLaw s c i (greg (seqIssued s c) a + k.signExtend 64).toNat n (.seqStore c)
      (.write (bytesOfNat n (greg (seqIssued s c) d).toNat) false) 0 := by
  unfold seqStoreN at hi
  exact access_law (exec_seqRun h hi)

/-- Settles O27: each form is the one access of its size and effect. -/
theorem sequencerAccessesAreSent : Obligations.SequencerAccessesAreSent := by
  unfold Obligations.SequencerAccessesAreSent
  refine ⟨fun s c d a i h => ?loads, ?add, ?swap, ?cas, ?and, ?or, ?xor, ?min, ?max, ?minu, ?maxu⟩
  case loads => exact ⟨load_law h rfl, load_law h rfl, store_law h rfl, store_law h rfl⟩
  case add => exact amo_law .samoAdd 0 fun _ _ _ _ _ => rfl
  case swap => exact amo_law .samoSwap 1 fun _ _ _ _ _ => rfl
  case cas => exact amo_law .samoCas 2 fun _ _ _ _ _ => rfl
  case and => exact amo_law .samoAnd 3 fun _ _ _ _ _ => rfl
  case or => exact amo_law .samoOr 4 fun _ _ _ _ _ => rfl
  case xor => exact amo_law .samoXor 5 fun _ _ _ _ _ => rfl
  case min => exact amo_law .samoMin 6 fun _ _ _ _ _ => rfl
  case max => exact amo_law .samoMax 7 fun _ _ _ _ _ => rfl
  case minu => exact amo_law .samoMinu 8 fun _ _ _ _ _ => rfl
  case maxu => exact amo_law .samoMaxu 9 fun _ _ _ _ _ => rfl

/-! ### Registers (R288, R305, Table 14-4) -/

theorem greg_zero (q : Seq) : greg q 0 = 0 := rfl

theorem setGreg_zero (q : Seq) (v : DWord) : setGreg q 0 v = q := rfl

theorem greg_setGreg_same (q : Seq) {r : BitVec 5} (v : DWord) (hr : r ≠ 0) : greg (setGreg q r v) r = v := by
  unfold greg setGreg
  rw [if_neg hr, if_neg hr]
  simp [Vector.getD, r.isLt]

theorem greg_setGreg_other (q : Seq) {r p : BitVec 5} (v : DWord) (hp : p ≠ r) : greg (setGreg q r v) p = greg q p :=
  (sg_frame q r v (setGreg q r v).pc [r] (List.mem_singleton.mpr rfl)).2 p (by simpa using hp)

/-- A context that writes a register and goes on. -/
theorem seqPut_eq (s : State) (c : SeqId) (q : Seq) (d : BitVec 5) (v : DWord) :
    seqPut s c q d v = setSeq s c { setGreg q d v with pc := q.pc + 1 } := by
  unfold seqPut Seq.advance
  rw [setGreg_pc]

/-- Settles O28: SRD reads through specialReg, SWR writes PRIO or DEADLINE, and g0 stays zero. -/
theorem specialRegistersAreReadAndWritten : Obligations.SpecialRegistersAreReadAndWritten := by
  unfold Obligations.SpecialRegistersAreReadAndWritten
  refine ⟨?srd, ?swr, fun q r p v => ⟨greg_zero q, setGreg_zero q v, greg_setGreg_same q v, greg_setGreg_other q v⟩⟩
  case srd =>
    intro s c d k r h q x read
    have hr : read (specialReg s c q k.toNat r.toNat) := 
      (exec_seqRun h (show exec (.srd d k r) s = execSrd d k r s from rfl)).trans (congrArg _ (seqPut_eq _ _ _ _ _))
    refine ⟨?_, ?_, ?_, ?_, ?_, ?_, ?_, ?_, ?_, ?_⟩ <;> (intro e; subst e; exact hr)
  case swr => exact fun s c a k h => 
    ⟨exec_seqRun h (show exec (.swr a k 0x02) s = execSwr a k 0x02 s from rfl), exec_seqRun h (show exec (.swr a k 0x03) s = execSwr a k 0x03 s from rfl)⟩

end Sys2Proof.Proofs
end

