-- ==== Sys2Proof/Proofs/SequencerParks.lean ====
section
/-! SUPPORT. Contexts that park and go on: traps (R307), link words (R302 to R304), records (R280 to R283), WAITS (R298). -/

namespace Sys2Proof.Proofs
open Machine Laws

/-! ### What a park does (R282, R349) -/

section Park
variable (s : State) (c : SeqId) (cls sub : Nat)

/-- The context as a fault parks it. -/
def parked (q : Seq) : Seq := { q with st := .parkfault, park := .trap, resumeTo := q.parkFrom, cls := cls, sub := sub }

/-- The state in which the fault record is written. -/
def parkStart : State :=
  setSeq (setPart s c.part { partAt s c.part with rseq := (partAt s c.part).rseq + 1 }) c (parked cls sub (seqAt s c))

theorem parkSeq_eq : parkSeq s c cls sub =
    raiseIrq (putRecord (parkStart s c cls sub) c.part none (seqRecord s c cls sub ((partAt s c.part).rseq + 1))).1 c.part 0 := rfl

theorem parkSeq_keeps : Keeps (parkStart s c cls sub) (parkSeq s c cls sub) := by
  rw [parkSeq_eq]
  exact (putRecord_keeps _ _ _ _).trans (raiseIrq_keeps _ _ _)

theorem parkStart_seq : seqAt (parkStart s c cls sub) c = parked cls sub (seqAt s c) := seqAt_setSeq _ _ _

theorem parkStart_other {d : SeqId} (hd : seqKey d ≠ seqKey c) : seqAt (parkStart s c cls sub) d = seqAt s d := by
  unfold parkStart seqAt setSeq setPart agetD
  dsimp only
  rw [aget_aset_other _ _ _ _ hd]

/-- The parked context but for its sections. -/
theorem parkSeq_seq : seqAt (parkSeq s c cls sub) c = { parked cls sub (seqAt s c) with sects := (seqAt (parkSeq s c cls sub) c).sects } := by
  have h := (parkSeq_keeps s c cls sub).core c
  rw [parkStart_seq] at h
  exact seqCore_eq h

theorem parkSeq_other {d : SeqId} (hd : seqKey d ≠ seqKey c) :
    seqAt (parkSeq s c cls sub) d = { seqAt s d with sects := (seqAt (parkSeq s c cls sub) d).sects } := by
  have h := (parkSeq_keeps s c cls sub).core d
  rw [parkStart_other s c cls sub hd] at h
  exact seqCore_eq h

theorem parkSeq_irq (hp : c.part < s.parts.length) : (partAt (parkSeq s c cls sub) c.part).pirq.getLsbD 0 = true := by
  rw [parkSeq_eq]
  refine raiseIrq_bit _ _ ?_
  rw [(putRecord_keeps _ _ _ _).parts]
  exact (setPart_keeps s c.part _).parts.symm ▸ hp

end Park

/-- Settles O29: a park changes the record's part of the state and its own context. -/
theorem trapsParkAndGoReturns : Obligations.TrapsParkAndGoReturns := by
  unfold Obligations.TrapsParkAndGoReturns
  refine ⟨?trap, ?park, ?go⟩
  case trap =>
    exact fun s c k h => exec_seqRun h (show exec (.seqTrap k) s = execSeqTrap k s from rfl)
  case park =>
    intro s c cls sub q t x
    have hx : x = { parked cls sub q with sects := x.sects } := parkSeq_seq s c cls sub
    refine ⟨?_, ?_, ?_, ?_, ?_, ?_, ?_, fun d hd => parkSeq_other s c cls sub hd, (parkSeq_keeps s c cls sub).reqs, (parkSeq_keeps s c cls sub).cycle,
      parkSeq_irq s c cls sub⟩ <;> rw [hx] <;> rfl
  case go =>
    intro s c hst hn
    show execSqctlGo c s = _
    unfold execSqctlGo
    dsimp only
    rw [if_neg (Nat.not_le.mpr hn), hst]
    rfl

/-! ### Link words (R302 to R304) -/

section Waitm
variable {s : State} {c : SeqId} {q : Seq} {d : BitVec 5} {va w : Nat}

/-- A wait word with bit 63 set is taken. -/
theorem waitmTry_full (hva : va % 8 = 0) (hw : readLink s c va = .ok w) (hb : w.testBit 63 = true) :
    waitmTry s c q d va =
      setSeq (countSeq s c va) c { setGreg (q.after (countSeq s c va) c) d (BitVec.ofNat 64 w) with pc := q.pc + 1 } := by
  unfold waitmTry
  rw [if_neg (by simpa using hva), hw]
  dsimp only
  rw [if_pos (show linkFull w = true from hb), seqPut_eq]
  rfl

/-- With it clear the context waits. -/
theorem waitmTry_empty (hva : va % 8 = 0) (hw : readLink s c va = .ok w) (hb : w.testBit 63 = false) :
    waitmTry s c q d va =
      setSeq (countSeq s c va) c { q.after (countSeq s c va) c with st := .parkwait, park := .waitm d.toNat va } := by
  unfold waitmTry
  rw [if_neg (by simpa using hva), hw]
  dsimp only
  rw [if_neg (show ¬ linkFull w = true by simp [linkFull, hb])]

end Waitm

/-- Settles O30. -/
theorem linksAreReadAndSpliced : Obligations.LinksAreReadAndSpliced := by
  unfold Obligations.LinksAreReadAndSpliced
  refine ⟨?waitm, ?wake, ?tail, ?launch, ?link⟩
  case waitm =>
    intro s c d a w h q va t hva hw
    have hx : exec (.waitm d a) s = .next (waitmTry s c q d va) := exec_seqRun h (show exec (.waitm d a) s = execWaitm d a s from rfl)
    exact ⟨fun hb => by rw [hx, waitmTry_full hva hw hb]; rfl, fun hb => by rw [hx, waitmTry_empty hva hw hb]⟩
  case wake =>
    intro s c d va w hpark hva hw hb t q
    show execWaitmWake c s = _
    unfold execWaitmWake
    dsimp only
    rw [hpark]
    dsimp only
    rw [BitVec.ofNat_toNat, BitVec.setWidth_eq, waitmTry_full hva hw hb]
  case tail =>
    intro s c a s1 h q record hrec hwr htail s2
    refine (exec_seqRun h (show exec (.tail a) s = execTail a s from rfl)).trans ?_
    dsimp only
    rw [if_neg (Classical.not_not.mpr hrec), if_neg (by simp [hwr])]
    rw [show tailWrites (atScope (setSeq s c (seqIssued s c)) 5) c (seqIssued s c) (greg (seqIssued s c) a).toNat = .ok s1 from htail]
  case launch =>
    intro s c a b w e s1 h q s0 new graph hnew hgraph hwr hw hb s2 hend himm t
    refine (exec_seqRun h (show exec (.launch a b) s = execLaunch a b s from rfl)).trans ?_
    dsimp only
    rw [if_neg (by simp only [not_or, Classical.not_not]; exact ⟨hnew, hgraph⟩), if_neg (by simp [hwr])]
    rw [show readLink (setSeq s c (seqIssued s c)) c (greg (seqIssued s c) a).toNat = .ok w from hw]
    dsimp only
    rw [if_neg (show ¬ linkFull w = true by simp [linkFull, hb])]
    rw [show graphEnd (atScope (setSeq s c (seqIssued s c)) 5) c 65536 (greg (seqIssued s c) b).toNat = .ok (some e) from hend]
    dsimp only
    rw [show immWrite (atScope (setSeq s c (seqIssued s c)) 5) c.part e (bytesOfNat 8 (linkTo (greg (seqIssued s c) a).toNat)) = .ok s1 from himm]
    rfl
  case link =>
    intro s c w hst hpark hw hb t
    show execLinkWake c s = _
    unfold execLinkWake
    dsimp only
    rw [if_neg (by simp [hst, hpark]), hw]
    dsimp only
    rw [if_pos (show linkFull w = true from hb)]

end Sys2Proof.Proofs
end

