-- ==== Sys2Proof/Proofs/SequencerRecords.lean ====
section
/-! SUPPORT. Records (R280 to R283), invocations queued (R296, R299), WAITS (R298), streams (R300, R301, R357). -/

namespace Sys2Proof.Proofs
open Machine Laws

/-! ### The start of a record (R281) -/

/-- Of the registers of a fresh record g1 and g2 are set. -/
theorem freshRegs_greg (q : Seq) (v1 v2 : DWord) (hq : q.regs = ((Vector.replicate 32 (0 : DWord)).setIfInBounds 1 v1).setIfInBounds 2 v2) :
    greg q 1 = v1 ∧ greg q 2 = v2 ∧ ∀ r, r ≠ 1 → r ≠ 2 → greg q r = 0 := by
  refine ⟨?_, ?_, fun r h1 h2 => ?_⟩
  · unfold greg; rw [hq]; simp [Vector.getD]
  · unfold greg; rw [hq]; simp [Vector.getD]
  · have n1 : 1 ≠ r.toNat := fun h => h1 (BitVec.eq_of_toNat_eq h.symm)
    have n2 : 2 ≠ r.toNat := fun h => h2 (BitVec.eq_of_toNat_eq h.symm)
    unfold greg
    rw [hq]
    have hr : r.toNat < 32 := r.isLt
    simp [Vector.getD, n1, n2, hr]

theorem seqAt_pruneWatch (s : State) (p : Nat) (c : SeqId) : seqAt (pruneWatch s p) c = seqAt s c := rfl

/-- The context of a record that has begun. -/
theorem beginRecord_seq (s : State) (c : SeqId) (q : Seq) (bs : List Byte) (i : Image) :
    let x := seqAt (beginRecord s c q bs i) c
    x.st = .run ∧ x.pc = i.hlen + leAt bs 16 2 ∧ x.prio = leAt bs 18 1 % 4 ∧ x.tp = q.sqrec ∧ x.image = some i ∧ x.owed = 0 ∧
    x.regs = ((Vector.replicate 32 (0 : DWord)).setIfInBounds 1 (BitVec.ofNat 64 (leAt bs 56 8))).setIfInBounds 2 (BitVec.ofNat 64 q.sqrec) := by
  unfold beginRecord
  dsimp only
  rw [seqAt_pruneWatch, seqAt_setSeq]
  exact ⟨rfl, rfl, rfl, rfl, rfl, rfl, rfl⟩

theorem finishRecord_ok {s s1 : State} {c : SeqId} {q : Seq} {st : Status}
    (h : immWrite (atScope s 5) c.part (vaAdd q.sqrec 44) (bytesOfNat 4 (statusWord st)) = .ok s1) :
    let x := seqAt (finishRecord s c q st) c
    x.completed = (q.completed + 1) % 2 ^ 32 ∧ x.st = (if q.stopReq then .idle else .parklink) ∧ x.stopReq = false ∧ x.pc = q.pc := by
  unfold finishRecord
  dsimp only
  rw [h]
  dsimp only
  have hx : ∀ (b : Bool) (u : State), seqAt (if b then raiseIrq u c.part 3 else u) c = seqAt u c := fun b u => by
    cases b
    · rfl
    · show agetD (raiseIrq u c.part 3).seqs _ _ = _
      rw [raiseIrq_seqs]
      rfl
  rw [hx, seqAt_setSeq]
  exact ⟨rfl, rfl, rfl, rfl⟩

/-- Settles O31. -/
theorem recordsBeginAndEnd : Obligations.RecordsBeginAndEnd := by
  unfold Obligations.RecordsBeginAndEnd
  refine ⟨?start, ?halt, ?complete, ?sqctl, fun s c q st s1 h => finishRecord_ok h⟩
  case start =>
    intro s c bs i s1 q hpark hst harm hread hok hload
    refine ⟨beginRecord (countBytes s1 c q.sqrec 64) c q bs i, ?_, ?_⟩
    · show execRecordStart c s = _
      unfold execRecordStart
      dsimp only
      rw [if_neg (by simp only [show (seqAt s c).park = .start from hpark, show (seqAt s c).st = .run from hst,
        show (seqAt s c).sects.any (fun x => x.armed) = false from harm]; decide)]
      rw [show seqRead s c (seqAt s c).sqrec 64 = .ok bs from hread]
      dsimp only
      rw [if_neg (by simp [hok]), hload]
    · obtain ⟨e1, e2, e3, e4, e5, e6, hregs⟩ := beginRecord_seq (countBytes s1 c q.sqrec 64) c q bs i
      exact ⟨e1, e2, e3, e4, e5, e6, freshRegs_greg _ _ _ hregs⟩
  case halt => exact fun s c h => exec_seqRun h (show exec .halt s = execHalt s from rfl)
  case complete =>
    intro s c q hpark hst hretry hq hw
    show execKernelComplete c s = _
    unfold execKernelComplete
    dsimp only
    rw [show (seqAt s c).park = .halt from hpark]
    dsimp only
    rw [if_neg (by simp only [show (seqAt s c).st = .parkwait from hst]; decide), show (seqAt s c).retry = [] from hretry]
    dsimp only
    rw [if_neg (by simp only [show (seqAt s c).sects.any (fun x => x.queued != 0) = false from hq, hw]; decide)]
  case sqctl =>
    intro s c q
    refine ⟨fun hst => ?_, fun hst => ?_, fun hst => ?_, fun hst hn => ?_⟩
    · intro st q1
      show execSqctlSkip c s = _
      unfold execSqctlSkip
      dsimp only
      rw [if_neg (by simp only [show (seqAt s c).st = .parkfault from hst]; decide)]
    · show execSqctlStop c s = _
      unfold execSqctlStop
      dsimp only
      rw [show (seqAt s c).st = .parklink from hst]
    · show execSqctlStop c s = _
      unfold execSqctlStop
      dsimp only
      rw [show (seqAt s c).st = .run from hst]
    · show execSqctlGo c s = _
      unfold execSqctlGo
      dsimp only
      rw [if_neg (Nat.not_le.mpr hn), show (seqAt s c).st = .idle from hst]

/-! ### Invocations queued (R296, R297, R299) -/

section Arm
variable {s : State} {c : SeqId} {gc gb : BitVec 5} {n : BitVec 16} {k : Option (List Word)}
  {pur : SeqId → Seq → Except (Sum Nat (Miss × Nat)) (State × Option PureInv)} {s1 : State} {p : Option PureInv}

/-- ARM and PURE where the count and the constants are good, the queue has room and no store is on its way. -/
theorem armWith_queues (h : SeqReady s c [gc, gb]) (h0 : 0 < (greg (seqIssued s c) gc).toNat) (h1 : (greg (seqIssued s c) gc).toNat < 2 ^ 32)
    (ha : gb = 0 ∨ (greg (seqIssued s c) gb).toNat % 32 = 0) (hq : (sectAt (seqIssued s c) n.toNat).armq.length < 4)
    (hw : seqWrites s c = false) (hk : (if gb = 0 then .ok none else (readConsts s c (greg (seqIssued s c) gb).toNat).map some) = .ok k)
    (hp : pur c (seqIssued s c) = .ok (s1, p)) :
    let u := dropFar (if gb = 0 then s1 else countBytes s1 c (greg (seqIssued s c) gb).toNat 32) c
    armWith gc gb n s pur = .next (queueEntry u c ((seqIssued s c).after u c) n.toNat (greg (seqIssued s c) gc).toNat k p) := by
  unfold armWith
  rw [seqRun_ready h]
  dsimp only
  have hmis : ¬ (gb ≠ 0 ∧ (greg (seqIssued s c) gb).toNat % 32 ≠ 0) := by
    rintro ⟨e1, e2⟩
    exact ha.elim e1 e2
  have hroom : ¬ (decide (armCap ≤ (sectAt (seqIssued s c) n.toNat).armq.length) || seqWrites s c) = true := by
    unfold armCap
    simp only [hw, Bool.or_false, decide_eq_true_eq]
    omega
  rw [if_neg (by omega), if_neg (Nat.not_le.mpr h1), if_neg hmis, if_neg hroom, hk]
  dsimp only
  rw [hp]

end Arm

theorem lmod_const_getD {α : Type} (l : List α) (k : Nat) (x d : α) (h : k < l.length) : (lmod l k fun _ => x).getD k d = x := lmod_getD l k _ d h

theorem sectAt_setSect_same (q : Seq) (k : Nat) (x : SectCtx) (h : k < q.sects.length) : sectAt (setSect q k x) k = x :=
  lmod_const_getD q.sects k x {} h

/-- The entry that an invocation queued now is. -/
def armedEntry (s : State) (q : Seq) (k t : Nat) (consts : Option (List Word)) (p : Option PureInv) : ArmEntry :=
  { tiles := t, consts := consts, mode := (sectAt q k).mode, modeBad := (sectAt q k).modeBad,
    deadline := if q.deadline = 0 then 2 ^ 64 - 1 else q.deadline, prio := q.prio, pureInv := p, age := q.startAge.getD s.cycle.toNat,
    since := s.cycle.toNat, no := q.queuedNo + 1 }

theorem queueEntry_sect (s : State) (c : SeqId) (q : Seq) (k t : Nat) (consts : Option (List Word)) (p : Option PureInv) (hk : k < q.sects.length) :
    sectAt (seqAt (queueEntry s c q k t consts p) c) k =
      { sectAt q k with armq := (sectAt q k).armq ++ [armedEntry s q k t consts p], queued := (sectAt q k).queued + 1, sinceWait := true } := by
  unfold queueEntry
  rw [seqAt_setSeq]
  exact sectAt_setSect_same { q with queuedNo := q.queuedNo + 1 } k _ hk

/-- Settles O32. -/
theorem invocationsAreQueued : Obligations.InvocationsAreQueued := by
  unfold Obligations.InvocationsAreQueued
  refine ⟨?mode, ?arm, ?none, ?entry⟩
  case mode => exact fun s c m n h => exec_seqRun h (show exec (.mode m n) s = execMode m n s from rfl)
  case arm =>
    intro s c gc gb n k h q t va h0 h1 ha hq hw hk read
    refine ⟨?_, fun s1 p hp => ?_⟩
    · show execArm gc gb n s = _
      exact armWith_queues (pur := fun _ _ => .ok (s, none)) h h0 h1 ha hq hw hk rfl
    · show execPure gc gb n s = _
      exact armWith_queues (pur := fun c q => pureOf s c q n.toNat) h h0 h1 ha hq hw hk hp
  case none =>
    intro s c gc gb n h hz
    show execArm gc gb n s = _
    unfold execArm armWith
    rw [seqRun_ready h]
    dsimp only
    rw [if_pos hz]
    rfl
  case entry =>
    intro s c q k t consts p hk x y
    have hy : y = _ := queueEntry_sect s c q k t consts p hk
    rw [hy]
    exact ⟨armedEntry s q k t consts p, rfl, rfl, rfl, rfl, rfl, rfl, rfl, rfl⟩

/-! ### WAITS (R298) -/

section Waits
variable {s : State} {c : SeqId} {q : Seq} {d : BitVec 5} {k : Nat}

theorem answerStatus_ok {st : Status} {f : Seq → Seq} (hn : ¬(d = 0 ∧ (st.code = 3 ∨ st.code = 4))) (hf : (f q).pc = q.pc) :
    answerStatus s c q d st f = setSeq s c { setGreg (f q) d (BitVec.ofNat 64 (statusWord st)) with pc := q.pc + 1 } := by
  unfold answerStatus
  rw [if_neg hn, seqPut_eq, hf]

theorem waitsTry_done (hq : (sectAt q k).queued = 0) (hn : ¬(d = 0 ∧ ((waitsStatus (sectAt q k)).code = 3 ∨ (waitsStatus (sectAt q k)).code = 4))) :
    waitsTry s c q d k = setSeq s c { setGreg (setSect q k { sectAt q k with statuses := [], sinceWait := false }) d
      (BitVec.ofNat 64 (statusWord (waitsStatus (sectAt q k)))) with pc := q.pc + 1 } := by
  unfold waitsTry
  dsimp only
  rw [if_neg (Classical.not_not.mpr hq)]
  exact answerStatus_ok hn rfl

end Waits

/-- Settles O33. -/
theorem waitsAnswersWhenAllHaveEnded : Obligations.WaitsAnswersWhenAllHaveEnded := by
  unfold Obligations.WaitsAnswersWhenAllHaveEnded
  refine ⟨?waits, ?back⟩
  case waits =>
    intro s c d n h q x
    have hx : exec (.waits d n) s = .next (waitsTry s c q d n.toNat) := exec_seqRun h (show exec (.waits d n) s = execWaits d n s from rfl)
    rw [hx]
    refine ⟨fun hq => ?_, fun hq => ?_⟩
    · unfold waitsTry
      dsimp only
      rw [if_pos hq]
    · intro st
      refine ⟨fun hbad => ?_, fun hok => ?_⟩
      · unfold waitsTry answerStatus
        dsimp only
        rw [if_neg (Classical.not_not.mpr hq), if_pos hbad]
      · rw [waitsTry_done hq hok]
        rfl
  case back =>
    intro s c d k q x hpark hq hd
    show execWaitsReturn c s = _
    unfold execWaitsReturn
    dsimp only
    rw [hpark]
    dsimp only
    rw [BitVec.ofNat_toNat, BitVec.setWidth_eq, waitsTry_done hq fun h => hd h.1]

/-! ### Streams (R300, R301, R357, R358) -/

section Cfgs
variable {s : State} {c : SeqId} {q : Seq} {d : BitVec 5} {k : Nat}

/-- A stream loaded without an error answers DONE. -/
theorem answerStatus_done {f : Seq → Seq} (hf : (f q).pc = q.pc) :
    answerStatus s c q d doneStatus f = setSeq s c { setGreg (f q) d 0 with pc := q.pc + 1 } :=
  answerStatus_ok (by rintro ⟨-, h | h⟩ <;> exact absurd h (by decide)) hf

/-- CFGS with no stream pending and no region that is frozen or awaits its layout. -/
theorem cfgsTry_done (hq : (sectAt q k).queued = 0) (hp : (sectAt q k).pend = none)
    (hr : ∀ rg, regionAt s ⟨c, k⟩ = some rg → rg.frozen = none ∧ rg.lvDue = none) :
    cfgsTry s c q d k = setSeq s c { setGreg q d 0 with pc := q.pc + 1 } := by
  unfold cfgsTry
  dsimp only
  rw [if_neg (Classical.not_not.mpr hq)]
  cases hg : regionAt s ⟨c, k⟩ with
  | none =>
    dsimp only
    rw [hp]
    exact answerStatus_done (f := fun q => q) rfl
  | some rg =>
    obtain ⟨hf, hl⟩ := hr rg hg
    dsimp only
    rw [hf, hp]
    dsimp only
    rw [hl]
    exact answerStatus_done (f := fun q => q) rfl

/-- CFGS with the shadow plane loaded: the region begins to drain. -/
theorem cfgsTry_drains {va : Nat} {rg : Region} {f : Feed} (hq : (sectAt q k).queued = 0) (hp : (sectAt q k).pend = some va)
    (he : (sectAt q k).loadErr = none) (hr : regionAt s ⟨c, k⟩ = some rg) (hf : rg.frozen = none) (hs : rg.shadow = some f)
    (ht : f.tag = (sectAt q k).lv % 2 ^ 14) (hd : rg.drain = none) :
    cfgsTry s c q d k = setSeq (setRegion s (injectDrains (beginDrain rg s.cycle.toNat))) c
      { q with st := .parkwait, park := .cfgs d.toNat k } := by
  unfold cfgsTry
  dsimp only
  rw [if_neg (Classical.not_not.mpr hq), hr]
  dsimp only
  rw [hf, hp]
  dsimp only
  unfold cfgsRegion
  dsimp only
  rw [he, hs]
  dsimp only
  rw [if_neg (Classical.not_not.mpr ht), hd]
  rfl

end Cfgs

/-- Settles O34. -/
theorem streamsAreLoadedAndSwapped : Obligations.StreamsAreLoadedAndSwapped := by
  unfold Obligations.StreamsAreLoadedAndSwapped
  refine ⟨?cfgl, ?load, ?cfgs, ?swap, ?timeout⟩
  case cfgl =>
    intro s c g n h q va hva hw
    refine (exec_seqRun h (show exec (.cfgl g n) s = execCfgl g n s from rfl)).trans ?_
    dsimp only
    rw [if_neg (Classical.not_not.mpr hva), if_neg (by simp [hw])]
    rfl
  case load =>
    intro s c k va rg ws x hp he hr ht hread i f
    show execShadowLoad c k s = _
    unfold execShadowLoad
    dsimp only
    rw [show (sectAt (seqAt s c) k).pend = some va from hp, hr]
    dsimp only
    rw [if_neg (by simp only [ht, show (sectAt (seqAt s c) k).loadErr = none from he]; decide), hread]
  case cfgs =>
    intro s c d n h hw q x hq
    have hx : exec (.cfgs d n) s = .next (cfgsTry s c q d n.toNat) := by
      refine (exec_seqRun h (show exec (.cfgs d n) s = execCfgs d n s from rfl)).trans ?_
      rw [if_neg (by simp [hw])]
    rw [hx]
    refine ⟨fun hp hr => ?_, fun va rg f hp he hr hf hs ht hd => ?_⟩
    · rw [cfgsTry_done hq hp hr]
      rfl
    · rw [cfgsTry_drains hq hp he hr hf hs ht hd]
  case swap =>
    intro s r rg d f ls hr hd hs hf hsinks hstray hls lays q x x1 t
    refine ⟨?_, fun hk => ?_⟩
    · show execPlaneSwap r s = _
      unfold execPlaneSwap
      rw [hr]
      dsimp only
      rw [hd, hs]
      dsimp only
      rw [if_neg (by simp [hf]), if_neg (by simp [hsinks]), hstray, hls]
    · have hcore : sectCore (sectAt (seqAt t r.seq) r.sect) = sectCore x1 := by
        rw [swapped_sect, seqAt_setSeq, sectAt_setSect_same q r.sect x1 hk]
      obtain ⟨e1, e2, e3⟩ := core_eq hcore
      exact ⟨e1, e2, e3⟩
  case timeout =>
    intro s r rg d hr hd hf h hlate hsinks
    show execDrainTimeout r s = _
    unfold execDrainTimeout
    rw [hr]
    dsimp only
    rw [hd]
    dsimp only
    rw [show hangBits (sectAt (seqAt s r.seq) r.sect).mode.toNat = h from rfl, if_neg]
    simp only [hf, hsinks, Option.isSome_none, Bool.or_self, Bool.false_or, decide_eq_true_eq]
    exact Nat.not_lt.mpr hlate

end Sys2Proof.Proofs
end

