-- ==== Sys2Proof/Proofs/FabricEvents.lean ====
section
/-! SUPPORT. The fabric's events (R85 to R98, R113, R143): tokens, slots, bridges, flits, statistics. -/

namespace Sys2Proof.Proofs
open Machine Laws

/-! ### Tokens, matches, RETYPE (R89, R95, R113) -/

/-- A legal RETYPE gives its port the new slots. -/
theorem retypeFire_ok {e : Env} {p j : Nat} {b : Beat} {l : Link} (hb : e.head p = some b) (hj : e.rg.inLink e.off false e.ctx p = some j)
    (hl : e.rg.linkAt j = some l) (hc : e.checkPort p false = .hold) (hcfg : b.isCfg = true) (hspec : b.spec = false) (hlat : l.lat ≠ [])
    (hpay : b.pay.toNat / 2 ^ 16 = 0) (hres : b.pay.toNat / 2 ^ 6 % 4 = 0)
    (hn : (b.pay.toNat / 2 ^ 5 % 2 == 1) = false → b.pay.toNat % 2 ^ 5 ≠ 0 ∧ e.rg.poolUse e.off j + b.pay.toNat % 2 ^ 5 ≤ 64) :
    let slots := if (b.pay.toNat / 2 ^ 5 % 2 == 1) = true then l.slots else b.pay.toNat % 2 ^ 5
    let l2 := l.consume
    retypeFire p e = .quiet { e with rg := e.rg.modLink j fun _ => { l2 with
      slots := slots, refill := true, ret := 0, crossings := l2.crossings.map fun x => { x with allow := slots + x.share, ret := 0 } } } false := by
  have hlow : bitsOf b.pay.toNat 0 5 = b.pay.toNat % 2 ^ 5 := bitsOf_low _ _
  have hlegal : ¬ (b.pay.toNat / 2 ^ 16 ≠ 0 ∨ bitsOf b.pay.toNat 6 2 ≠ 0 ∨
      (!(b.pay.toNat / 2 ^ 5 % 2 == 1) && (b.pay.toNat % 2 ^ 5 == 0 || decide (64 < e.rg.poolUse e.off j + b.pay.toNat % 2 ^ 5))) = true) := by
    rintro (h | h | h)
    · exact h hpay
    · exact h hres
    · simp only [Bool.and_eq_true, Bool.not_eq_true', Bool.or_eq_true, beq_iff_eq, decide_eq_true_eq] at h
      obtain ⟨hkeep, hbad⟩ := h
      obtain ⟨h0, h64⟩ := hn hkeep
      exact hbad.elim h0 fun h => absurd h64 (by omega)
  have hlat0 : l.lat.isEmpty = false := by simpa using hlat
  unfold retypeFire
  rw [hb, hj]
  dsimp only
  rw [hc]
  dsimp only
  rw [if_neg (by simp [hcfg]), if_neg (by simp [hspec]), hlow, hl]
  dsimp only
  rw [show bitsOf b.pay.toNat 5 1 = b.pay.toNat / 2 ^ 5 % 2 from rfl, if_neg hlegal, if_neg (by simp [hlat0])]
  dsimp only
  rw [if_neg (by simp [hlat0])]

/-- Settles O35. -/
theorem tokensPassMatchAndRetype : Obligations.TokensPassMatchAndRetype := by
  unfold Obligations.TokensPassMatchAndRetype
  refine ⟨?token, ?match_, ?retype⟩
  case token =>
    intro s u i ps e0 b hi e ho hc h1 h2 hh ht ha hl
    exact tokenFire_law s u i ps e0 e b hi rfl ho hc h1 h2 hh ht ha hl
  case match_ =>
    intro s u rg e0 cd x y hr h0 e p hm hm1 hc hc1 hx hy
    have hx' : exec (.matchDiscard u cd) s = .next (applyFire s u (matchFire p (p + 1) e)) := matchDiscard_law s u rg e0 e cd hr h0 rfl
    obtain ⟨l1, l2, l3, l4⟩ := matchFire_law p (p + 1) e x y hm hm1 hc hc1 hx hy
    rw [hx']
    exact ⟨fun a b c => by rw [l1 a b c], fun a b c => by rw [l2 a b c], fun a b c => by rw [l3 a b c], fun a b c => by rw [l4 a b c]⟩
  case retype =>
    intro s u rg e p b j l hr he hb hj hl hc hcfg hspec hlat hpay hres keep n hn slots l2 l3
    show execRetypeApply u p s = _
    unfold execRetypeApply
    rw [hr]
    dsimp only
    rw [he]
    dsimp only
    rw [retypeFire_ok hb hj hl hc hcfg hspec hlat hpay hres hn]

/-! ### Links, bridges, statistics (R85, R86, R96 to R98, R143) -/

section Bridges
variable {s : State} {dir : Nat}

/-- The circuit whose turn it is, the first from the turn on that can send. -/
theorem nextSend_of_find {turn j i circ : Nat} {r : RegId} {rg : Region} {x : Beat} {l1 : Link}
    (hf : ((circuits s dir).filter (canSend s)).find? (fun x => decide (turn ≤ x.2.2.2)) = some (r, j, i, circ)) (hr : regionAt s r = some rg)
    (hl : ((rg.linkAt j).bind fun l => l.leaving i) = some (x, l1)) :
    nextSend s dir turn = some (r, j, circ, { l1 with crossings := lmod l1.crossings i fun y => { y with allow := y.allow - 1 } }, x) := by
  unfold nextSend
  dsimp only
  rw [hf, Option.some_or]
  dsimp only
  rw [hr, Option.bind_some, hl]
  rfl

theorem sendBridge_sends {j circ : Nat} {r : RegId} {l : Link} {x : Beat} (hs : (bridgeAt s dir).stopped = false)
    (hn : (bridgeAt s dir).retry.length < 512) (hx : nextSend s dir (bridgeAt s dir).turn = some (r, j, circ, l, x)) :
    let b := bridgeAt s dir
    let f : BridgeFlit := { reg := r, link := j, seq := b.sendSeq, beat := x }
    sendBridge s dir = setBridge (modLinkOf s r j fun _ => l) dir
      { b with retry := b.retry ++ [f], wire := b.wire ++ [f], sendSeq := (b.sendSeq + 1) % 65536, turn := circ + 1 } := by
  unfold sendBridge
  dsimp only
  rw [if_neg (by rw [hs]; unfold retryCap; simpa using hn), hx]

/-- A flit that arrives broken is refused. -/
theorem flitReceive_refuses {f : BridgeFlit} {rest : List BridgeFlit} (hw : (bridgeAt s dir).wire = f :: rest) (hs : (bridgeAt s dir).stopped = false)
    (hseq : f.seq = (bridgeAt s dir).recvSeq) (hn : (bridgeAt s dir).refused + 1 < 8) :
    let b := bridgeAt s dir
    execFlitReceive dir false s = .next (setBridge s dir { b with wire := rest, refused := b.refused + 1, stopped := false, faulted := [] }) := by
  unfold execFlitReceive
  dsimp only
  rw [hw]
  dsimp only
  rw [if_neg (by simp [hs])]
  have h8 : ¬ 8 ≤ (bridgeAt s dir).refused + 1 := by omega
  simp only [Bool.false_and, Bool.false_eq_true, if_false, hseq, beq_self_eq_true, if_true, h8, decide_false]

end Bridges

/-- Settles O36. -/
theorem linksAndBridgesMoveBeats : Obligations.LinksAndBridgesMoveBeats := by
  unfold Obligations.LinksAndBridgesMoveBeats
  refine ⟨?latch, ?slot, ?bridge, ?port, ?allowance, ?receive, ?replay, ?replayPort, ?stat⟩
  case latch =>
    intro s r k rg l hr hl hrun hlive hdist
    show execLatchAdvance r k l.lat.length s = _
    unfold execLatchAdvance
    rw [hr]
    dsimp only
    rw [hl]
    dsimp only
    rw [if_neg (by simp [hrun, hlive]), if_pos rfl, if_pos (by simp [hdist])]
  case slot =>
    intro s r k rg l hr hl hrun hrefill hret
    show execFreeSlotReturn r k s = _
    unfold execFreeSlotReturn
    rw [hr]
    dsimp only
    rw [hl]
    dsimp only
    rw [if_neg (by simp [hrun]), if_neg (by simp [hrefill]), if_neg hret]
  case bridge =>
    intro s dir r j i circ rg x l1 b hdir hs hn hf hr hl l2 f
    show Host.Outcome.next (if dir < 8 then sendBridge s dir else sendPortBeat s (dir - 8)) = _
    rw [if_pos hdir, sendBridge_sends hs hn (nextSend_of_find hf hr hl)]
  case port =>
    intro s port sp r j circ l x h hp hs hn hx s1 send
    have hx' : exec (.bridgeSend (8 + port)) s = .next (sendPortBeat s port) := by
      show Host.Outcome.next (if 8 + port < 8 then sendBridge s (8 + port) else sendPortBeat s (8 + port - 8)) = _
      rw [if_neg (by omega), Nat.add_sub_cancel_left]
    rw [hx', sendPortBeat_sends s h port sp r j circ l x rfl hp hs hn hx]
    exact ⟨fun he => by rw [he], fun fi he => by rw [he]⟩
  case allowance =>
    intro s r k dir rg l i hr hl hi
    have hli : ((rg.linkAt k).bind fun l => (l.crossIx dir).map fun i => (l, i)) = some (l, i) := by
      rw [hl, Option.bind_some, hi]
      rfl
    refine ⟨fun hd => ?_, ?_⟩
    · show execAllowanceReturn r k dir s = _
      unfold execAllowanceReturn
      rw [hr]
      dsimp only
      rw [hli]
      exact if_pos hd
    · intro v l1 hd hv s1 send
      show execAllowanceReturn r k dir s = _
      unfold execAllowanceReturn
      rw [hr]
      dsimp only
      rw [hli]
      dsimp only
      rw [if_neg (Nat.not_lt.mpr hd), hv]
  case receive =>
    intro s dir f rest b hw hs
    have hx : exec (.flitReceive dir true) s = execFlitReceive dir true s := rfl
    unfold execFlitReceive at hx
    dsimp only at hx
    rw [hw] at hx
    dsimp only at hx
    rw [if_neg (show ¬ (bridgeAt s dir).stopped = true by simp [show (bridgeAt s dir).stopped = false from hs])] at hx
    refine ⟨fun hseq hr => ?_, fun rg hseq hr => ?_, fun hseq hn => flitReceive_refuses hw hs hseq hn⟩
    · rw [if_pos (by simp [hseq, b]), show regionAt (setBridge s dir _) f.reg = none from hr] at hx
      exact hx
    · rw [if_pos (by simp [hseq, b]), show regionAt (setBridge s dir _) f.reg = some rg from hr] at hx
      exact hx
  case replay =>
    intro s dir b hs hretry hwire hd
    show execFlitReplay dir s = _
    unfold execFlitReplay
    dsimp only
    rw [if_neg (Nat.not_le.mpr hd), if_neg]
    simp only [show (bridgeAt s dir).stopped = false from hs, show (bridgeAt s dir).wire = [] from hwire, List.isEmpty_nil, Bool.false_or, Bool.not_true,
      Bool.or_false, List.isEmpty_iff]
    exact hretry
  case replayPort =>
    intro s port
    show execFlitReplay (8 + port) s = _
    unfold execFlitReplay
    rw [if_pos (Nat.le_add_right 8 port), Nat.add_sub_cancel_left]
  case stat =>
    intro s k t ht
    have hx : exec (.statTokenAdd k) s = execStatTokenAdd k s := rfl
    unfold execStatTokenAdd at hx
    rw [ht] at hx
    rw [hx]
    exact ⟨fun he => by simp only [he]; rfl, fun he => by simp only [he]; rfl⟩

end Sys2Proof.Proofs
end

