-- ==== Sys2Proof/Proofs/PortsAndEngines.lean ====
section
/-! SUPPORT. Stream ports (R56 to R77) and matrix engines (R247 to R260): what a unit that may act does. -/

namespace Sys2Proof.Proofs
open Machine Laws

/-! ### Stream ports -/

/-- Settles O37: every kind of block is accepted by the one rule of acceptSpb. -/
theorem spbsAreAccepted : Obligations.SpbsAreAccepted := by
  unfold Obligations.SpbsAreAccepted
  exact ⟨fun _ _ => accept_law _ fun _ => rfl, fun _ _ => accept_law _ fun _ => rfl, fun _ _ => accept_law _ fun _ => rfl,
    fun _ _ => accept_law _ fun _ => rfl, fun _ _ => accept_law _ fun _ => rfl, fun _ _ => accept_law _ fun _ => rfl,
    fun _ _ => accept_law _ fun _ => rfl, fun _ _ => accept_law _ fun _ => rfl, fun _ _ => accept_law _ fun _ => rfl⟩

section Sp
variable {s : State} {r : RegId} {o : Offset} {rg : Region} {sp : Sp}

theorem SpReady.acts (h : SpReady s r o rg sp) : (!rg.running || rg.isHalted 1 o 0) = false := by simp [h.running, h.whole]

/-- A port whose chasers do not read ahead issues the first slot that can step. -/
theorem portStep_first {s1 : State} (ha : firstAhead s rg o sp (edfOrder sp.busy) = none) (hf : firstStep s rg o sp (edfOrder sp.busy) = some s1) :
    portStep s rg o sp = some s1 := by
  unfold portStep
  rw [ha, ite_self]
  exact hf

end Sp

/-- Settles O38. -/
theorem streamPortsIssueAndComplete : Obligations.StreamPortsIssueAndComplete := by
  unfold Obligations.StreamPortsIssueAndComplete
  refine ⟨?issue, ?complete, ?event, ?mark, ?data⟩
  case issue =>
    intro s r o rg sp s1 rg1 h ha hf hr
    show execElementIssue r o s = _
    unfold execElementIssue
    dsimp only
    rw [h.unit]
    dsimp only
    rw [SpReady.acts h, portStep_first ha hf]
    dsimp only
    rw [hr]
    rfl
  case complete =>
    intro s r o n rg sp sl h hsl hdone s1 ev
    show execSpbComplete r o n s = _
    unfold execSpbComplete
    dsimp only
    rw [h.unit]
    dsimp only
    rw [hsl]
    dsimp only
    rw [if_pos (by rw [h.running]; exact hdone)]
    split <;> rfl
  case event =>
    intro s k t ht
    show execEventTokenArrive k s = _
    unfold execEventTokenArrive
    rw [ht]
  case mark =>
    intro s r o rg sp k b rest h hk hb hm hsink
    have hwait : ¬ ((b.isDrn || b.isEoi) && !sp.busy.isEmpty) = true := by
      simp only [Bool.and_eq_true, Bool.or_eq_true, Bool.not_eq_true', List.isEmpty_eq_false_iff, not_and, Classical.not_not]
      exact hsink
    have hx : exec (.spReqMark r o) s = execSpReqMark r o s := rfl
    unfold execSpReqMark at hx
    dsimp only at hx
    rw [h.unit] at hx
    dsimp only at hx
    rw [hk] at hx
    dsimp only at hx
    rw [SpReady.acts h, hb] at hx
    simp only [Bool.false_eq_true, if_false] at hx
    rw [if_pos hm, if_neg hwait] at hx
    rw [hx]
    exact ⟨fun ht => if_pos ht, fun ht => if_neg (by simp [ht])⟩
  case data =>
    intro s r o rg sp k b rest h hrole hb
    refine ⟨fun hcfg hm hkind hset => ?_, fun hrel hset hw => ?_⟩
    · show execSpDataToken r o k s = _
      unfold execSpDataToken
      rw [h.unit]
      dsimp only
      rw [SpReady.acts h, hb]
      simp only [Bool.false_eq_true, if_false]
      have hpass : (b.isRlx || b.isEog || b.isDrn || b.isTdr || b.isSpr || b.isCkp) = true := by
        rcases hkind with h | h | h | h <;> simp [h]
      have hfine : ¬ (b.needsBoundary && !(sp.side k).settled) = true := by
        rw [Bool.and_eq_true, not_and]
        intro hn
        simp [hset hn]
      rw [if_neg (by omega), if_neg (by simp [hm]), if_neg (by simp [hcfg]), if_neg (Classical.not_not.mpr hrole), if_neg (by simp [hcfg]),
        if_pos hpass, if_neg hfine]
      rfl
    · show execRelRelease r o k s = _
      unfold execRelRelease
      rw [h.unit]
      dsimp only
      have hhead : spHead rg o k = some b := by
        unfold spHead
        rw [hb]
        rfl
      rw [SpReady.acts h, hrole, hhead]
      simp only [hrel, hset, hw, bne_self_eq_false, Bool.or_self, Bool.not_true, Bool.not_false, Bool.and_self, Bool.and_false, Bool.true_or,
        Bool.false_eq_true, if_false, if_true]
      rfl

/-! ### Matrix engines -/

section Me
variable {s t : State} {code : Nat} {c : MCmd} {x : MeRun} {i : Instr} {st go : MeRun → State}

/-- A command that may start starts. -/
theorem exec_starts (h : MeStarts s code c x) (hi : exec i s = meRun code c s st go) (ht : st x = t) : exec i s = .next t := by
  rw [hi, meRun_start h, ht]

/-- A command that has started goes on. -/
theorem exec_goes (h : MeHolds s code c x) (hs : x.e.started = true) (hi : exec i s = meRun code c s st go) (ht : go x = t) : exec i s = .next t := by
  rw [hi, meRun_go h hs, ht]

end Me

/-- Settles O39: a command that may start takes the start of its instruction. -/
theorem matrixCommandsStart : Obligations.MatrixCommandsStart := by
  unfold Obligations.MatrixCommandsStart
  refine ⟨?mswap, ?mzero, ?mfmt, ?mmigr, ?mload, ?mmul, ?mdrain, ?mcount⟩
  case mswap => exact fun s c x h hl => exec_starts h (show exec (.mswap c) s = execMswap c s from rfl) (if_pos hl)
  case mzero => exact fun s c x h => exec_starts h (show exec (.mzero c) s = execMzero c s from rfl) rfl
  case mfmt =>
    intro s c x h hp
    exact exec_starts h (show exec (.mfmt c) s = execMfmt c s from rfl) (if_neg (by simp [hp]))
  case mmigr => exact fun s c x h => exec_starts h (show exec (.mmigr c) s = execMmigr c s from rfl) rfl
  case mload =>
    intro s c x h
    have hi : exec (.mload c) s = execMload c s := rfl
    exact ⟨fun hl => exec_starts h hi (if_neg (by simp [hl])), fun hl => exec_starts h hi (if_pos hl)⟩
  case mmul =>
    intro s c x h
    have hi : exec (.mmul c) s = execMmul c s := rfl
    exact ⟨fun hl => exec_starts h hi (if_pos hl), fun hl => exec_starts h hi (if_neg (by simp [hl]))⟩
  case mdrain => exact fun s c x h => exec_starts h (show exec (.mdrain c) s = execMdrain c s from rfl) rfl
  case mcount =>
    intro s c x h hp
    exact exec_starts h (show exec (.mcount c) s = execMcount c s from rfl) (if_neg (by simp [hp]))

/-- Settles O40: the step of a running command that ends it. -/
theorem matrixCommandsRun : Obligations.MatrixCommandsRun := by
  unfold Obligations.MatrixCommandsRun
  refine ⟨?mload, ?mmul, ?mdrain, ?mcount⟩
  case mload =>
    intro s c x b l keep h hs hop hn tl
    refine exec_goes h hs (show exec (.mload c) s = execMload c s from rfl) ?_
    rw [operand_ok hop]
    dsimp only
    rw [hn]
    rfl
  case mmul =>
    intro s c x b l keep h hs hop hm hlast r
    refine exec_goes h hs (show exec (.mmul c) s = execMmul c s from rfl) ?_
    rw [if_neg (by omega), operand_ok hop]
    dsimp only
    rw [hm]
    simp only [Bool.false_eq_true, if_false]
    rw [if_pos hlast]
  case mdrain =>
    intro s c x h hs hlast bd row part d hroom m1 r
    refine exec_goes h hs (show exec (.mdrain c) s = execMdrain c s from rfl) ?_
    dsimp only
    rw [if_neg (show ¬ (!x.rg.roomFor x.m.off true 0 c.oport.toNat [d.1]) = true by simp [hroom]), if_pos hlast]
  case mcount =>
    intro s c x h hs b hroom
    exact exec_goes h hs (show exec (.mcount c) s = execMcount c s from rfl) (if_pos hroom)

/-! ### The queues of an engine (R249, R254 to R256, R260) -/

/-- A command beat that enters, or the fault of its fields. -/
theorem enqueueFrom_command {s : State} {r : RegId} {rg : Region} {m : Me} {k : Nat} {b : Beat} {rest : List Beat} {i : Instr}
    (hcut : rg.beyondCut m.round = false) (hpois : b.poison = false) (hspec : b.spec = false) (hlv : b.level = 2) (hg : meGroupAt m k = false)
    (hq : m.queue.length < 16) (hi : decodeCmd b.pay = .ok i) :
    let e := MeEntry.code { cmd := some i, marker := none, tag := 0, round := 0 }
    enqueueFrom s r rg m k b rest =
      if !meUnused e.1 e.2 then meFault s r m.off clsMatrix 0x02 k (some b)
      else if !meLimits rg m.off e.1 e.2 then meFault s r m.off clsMatrix 0x03 k (some b)
      else setRegion s (setMe { (rg.consumePort m.off true 0 k) with hang := 0 } (m.push (some i) none [] s.cycle.toNat)) := by
  have hroom : ¬ meCap ≤ m.queue.length := by unfold meCap; omega
  unfold enqueueFrom
  rw [if_neg (by simp [hcut]), if_neg (by simp [hspec]), if_neg (by simp [hpois]), if_neg (by simp [hg]), if_neg (Classical.not_not.mpr hlv),
    if_neg hroom, hi]

/-- With an empty queue the markers at every port enter as the one they agree on. -/
theorem takeMarker_agreed {s : State} {rg : Region} {m : Me} {ps : List Nat} {b : Beat} (hq : m.queue = [])
    (hps : ∀ k ∈ ps, ∃ x, (blockHeads rg m.off k).head? = some x ∧ x.isMark = true)
    (ha : tokensAgree (ps.map fun k => (blockHeads rg m.off k).head?) = .agreed b) :
    let m1 := m.push none (some b) (markOuts rg m.off b) s.cycle.toNat
    takeMarker s rg m ps = putMe s (ps.foldl (fun g k => g.consumePort m.off true 0 k) rg)
      (if b.isClosing then { m1 with round := b.markRound + 1 } else m1) [] := by
  have hheads : ¬ ((ps.map fun k => (blockHeads rg m.off k).head?).any Option.isNone ||
      (ps.map fun k => (blockHeads rg m.off k).head?).any fun h => h.any fun b => !b.isMark) = true := by
    simp only [Bool.or_eq_true, List.any_map, List.any_eq_true, Function.comp_apply, not_or, not_exists, not_and]
    refine ⟨fun k hk => ?_, fun k hk => ?_⟩ <;> obtain ⟨x, hx, hm⟩ := hps k hk <;> rw [hx] <;> simp [hm]
  have howes : ¬ (b.isEoi && meOwes m) = true := by simp [meOwes, hq]
  unfold takeMarker
  dsimp only
  rw [if_neg hheads, ha]
  dsimp only
  rw [if_neg howes, if_neg (by rw [hq]; decide)]

/-- Settles O41. -/
theorem matrixQueuesMoveInOrder : Obligations.MatrixQueuesMoveInOrder := by
  unfold Obligations.MatrixQueuesMoveInOrder
  refine ⟨?enqueue, ?leave, ?enter, ?migrate, ?back⟩
  case enqueue =>
    intro s r o rg m k b rest i hme ho hk hb hcut hpois hspec hlv hg hq hi e
    subst ho
    have hx : exec (.meCommandEnqueue r m.off) s = .next (enqueueFrom s r rg m k b rest) := by
      show execMeCommandEnqueue r m.off s = _
      unfold execMeCommandEnqueue
      rw [hme]
      dsimp only
      rw [hk]
      dsimp only
      rw [hb]
    have hrule : enqueueFrom s r rg m k b rest = if !meUnused e.1 e.2 then _ else if !meLimits rg m.off e.1 e.2 then _ else _ :=
      enqueueFrom_command hcut hpois hspec hlv hg hq hi
    rw [hx, hrule]
    refine ⟨fun hu hl => ?_, fun hu => ?_, fun hu hl => ?_⟩
    · rw [if_neg (by simp [hu]), if_neg (by simp [hl])]
    · rw [if_pos (by simp [hu])]
    · rw [if_neg (by simp [hu]), if_pos (by simp [hl])]
  case leave =>
    intro s r o rg m e q b hme hq hm
    show execMeMarkerEntry r o s = _
    unfold execMeMarkerEntry
    rw [hme]
    dsimp only
    rw [hq]
    dsimp only
    rw [hm]
  case enter =>
    intro s r o rg m b hme hq hcut hodd hne hps ha m1
    show execMeMarkerEntry r o s = _
    unfold execMeMarkerEntry
    rw [hme]
    dsimp only
    rw [hq]
    dsimp only
    rw [if_neg (by simp [hcut]), hodd]
    dsimp only
    rw [if_neg (by simpa using hne), takeMarker_agreed hq hps ha]
  case migrate =>
    intro s r o k south rg m p rg1 n e hme hp hn he hmay hen hnq hnh
    show execMeMigrate r o k south s = _
    unfold execMeMigrate
    rw [hme]
    dsimp only
    rw [hp, Option.bind_some, hn]
    dsimp only
    rw [he]
    dsimp only
    rw [if_pos (by simp [hmay, hen, hnq, hnh])]
  case back =>
    intro s r o rg m k e r1 o1 h hme hk he hh m1
    show execMeMigrationReturn r o s = _
    unfold execMeMigrationReturn
    rw [hme]
    dsimp only
    rw [hk]
    dsimp only
    rw [he]
    dsimp only
    rw [hh]

end Sys2Proof.Proofs
end

