-- ==== Sys2Proof/Proofs/AccessEvents.lean ====
section
/-! SUPPORT. Accesses that perform (R267, R336) and translations (R39 to R48). -/

namespace Sys2Proof.Proofs
open Machine Laws

/-! ### Accesses that perform -/

section Perform
variable {s : State} {q : MemReq}

/-- An access that stays on its own side of the mesh is never late. -/
theorem lateCheck_fine (h : s.cycle.toNat ≤ q.deadline ∨ onMesh s q = false) : lateCheck s q = (s, false) := by
  unfold lateCheck
  rw [if_pos]
  rcases h with h | h <;> simp [h]

/-- One that the mesh delivers past its deadline counts, and faults under TRAP (R336). -/
theorem lateCheck_late (h : q.deadline < s.cycle.toNat) (hm : onMesh s q = true) :
    lateCheck s q = (setPart s q.part { partAt s q.part with dlLate := (partAt s q.part).dlLate + 1 }, (partAt s q.part).dlTrap) := by
  unfold lateCheck
  rw [if_neg (by simp [Nat.not_le.mpr h, hm])]

end Perform

section Loads
variable (s : State) (c : SeqId) {gd : Nat} (n : Nat) (bs : List Byte)

theorem ofNat_ne_zero (h0 : 0 < gd) (h : gd < 32) : BitVec.ofNat 5 gd ≠ 0 := by
  intro e
  have := congrArg BitVec.toNat e
  simp only [BitVec.toNat_ofNat, BitVec.ofNat_eq_ofNat, Nat.zero_mod] at this
  omega

theorem loadTo_seq : seqAt (loadTo s c gd n false bs false) c =
    { setGreg (seqAt s c) (BitVec.ofNat 5 gd) (BitVec.ofNat 64 (natOfBytes bs)) with
      owed := (seqAt s c).owed &&& ~~~((1 : BitVec 32) <<< gd) } := seqAt_setSeq _ _ _

/-- A load's register takes the value. -/
theorem loadTo_greg (h0 : 0 < gd) (h : gd < 32) :
    greg (seqAt (loadTo s c gd n false bs false) c) (BitVec.ofNat 5 gd) = BitVec.ofNat 64 (natOfBytes bs) := by
  rw [loadTo_seq]
  exact greg_setGreg_same (seqAt s c) _ (ofNat_ne_zero h0 h)

/-- And is owed no more. -/
theorem loadTo_owed (h : gd < 32) : (seqAt (loadTo s c gd n false bs false) c).owed.getLsbD gd = false := by
  rw [loadTo_seq]
  simp [h]

end Loads

/-- Settles O42. -/
theorem accessesPerformOnce : Obligations.AccessesPerformOnce := by
  unfold Obligations.AccessesPerformOnce
  refine ⟨?perform, ?load⟩
  case perform =>
    intro s id q s2 bs pois hf hm hr hp
    refine ⟨fun htime => ?_, fun hlate hmesh htrap hread hbank => ?_⟩
    · intro t
      have run : ∀ pick : MemReq → Bool, pick q = true → performReq id pick s = .next t := fun pick hk => by
        rw [perform_ok hf hm hr hp hk, lateCheck_fine htime, hp]
        rfl
      exact ⟨fun hread hbank => run _ (by simp [hread, hbank]), fun hread hbank => run _ (by simp [hread, hbank]), fun hbank => run _ hbank⟩
    · show performReq id _ s = _
      rw [perform_ok hf hm hr hp (by simp [hread, hbank]), lateCheck_late hlate hmesh, htrap]
      rfl
  case load =>
    intro s c gd n bs t h0 h
    exact ⟨loadTo_greg s c n bs h0 h, loadTo_owed s c n bs h, rfl⟩

/-! ### Translations -/

/-- Settles O43. -/
theorem translationsAreFilledAndInvalidated : Obligations.TranslationsAreFilledAndInvalidated := by
  unfold Obligations.TranslationsAreFilledAndInvalidated
  refine ⟨?walk, ?result, ?invalidate, ?resume, ?notice⟩
  case walk =>
    intro s id w hw hs s1
    have hx : exec (.walkComplete id) s = execWalkComplete id s := rfl
    unfold execWalkComplete at hx
    rw [hw] at hx
    dsimp only at hx
    rw [if_neg (by simp [hs])] at hx
    rw [hx]
    exact ⟨fun ha => if_pos ha, fun ha => if_neg (by simp [ha])⟩
  case result =>
    intro s p j
    refine ⟨fun e he => ?_, fun m hm => ?_⟩ <;> unfold walkResult
    · rw [he]
    · rw [hm]
  case invalidate =>
    intro s p x
    refine ⟨fun hb => if_neg (by simpa using hb), fun hb => if_pos hb, fun hb hreq hn => ?_⟩
    show execInvalidationComplete p s = _
    unfold execInvalidationComplete
    dsimp only
    rw [if_neg (show ¬ (!x.invBusy || s.reqs.any fun q => x.invWait.contains q.id) = true by rw [hb, hreq]; decide),
      show (partAt s p).notices = [] from hn]
    rfl
  case resume =>
    intro s p seq n s0 x hf hw
    show execResume p seq s = _
    unfold execResume
    dsimp only
    rw [show (partAt (setPart s p { partAt s p with resume := seq }) p).notices.find? _ = some n from hf]
    dsimp only
    rw [if_neg (show ¬ winSaved s0 p n.fva = true by simp [hw])]
  case notice =>
    intro s p n t hf hd
    show execFaultNoticePendingWrite p s = _
    unfold execFaultNoticePendingWrite
    rw [hf]
    dsimp only
    rw [hd]
    rfl

end Sys2Proof.Proofs
end

