-- ==== Sys2Proof/Proofs/SchedulerEvents.lean ====
section
/-! SUPPORT. The scheduler's events (R286, R296, R333 to R346): entries age, planes go live, invocations are armed, cut and resumed. -/

namespace Sys2Proof.Proofs
open Machine Laws

/-! ### Entries (R286, R287, R296, R301, R333 to R335) -/

section Arming
variable {s : State} {c : SeqId} {k : Nat} {i : Image}

/-- The entry of a section that leaves its queue alone. -/
theorem invocationArm_alone (hi : (seqAt s c).image = some i) (hg : armGroup (seqAt s c) i k = [k]) (hq : (sectAt (seqAt s c) k).armq ≠ [])
    (ha : armable s c k = true) (hf : seqFree (seqAt s c) i k = true) :
    exec (.invocationArm c k) s = .next (if detDue s c k then detCommit s c k else armOne s c k) := by
  obtain ⟨e, t, hq⟩ := List.exists_cons_of_ne_nil hq
  show execInvocationArm c k s = _
  unfold execInvocationArm
  dsimp only
  rw [hi]
  dsimp only
  rw [hg]
  simp only [List.map_cons, List.map_nil, List.any_cons, List.any_nil, List.all_cons, List.all_nil, List.head?_cons, List.headD_cons, List.foldl_cons,
    List.foldl_nil, List.filter_cons, List.filter_nil, hq, ha, hf, Option.isNone_some, Option.map_some, Option.getD_some, bne_self_eq_false,
    Bool.or_false, Bool.and_self, Bool.not_true, Bool.false_eq_true, if_false]
  cases detDue s c k <;> rfl

/-- What arming the head entry leaves. -/
theorem armOne_law {e : ArmEntry} {t : List ArmEntry} {rg : Region} (hk : k < (seqAt s c).sects.length) (ha : (sectAt (seqAt s c) k).armq = e :: t)
    (hr : regionAt s ⟨c, k⟩ = some rg) :
    let y := sectAt (seqAt (armOne s c k) c) k
    y.armq = t ∧ y.placed = false ∧ y.armed = true ∧ ∃ rg1 i, regionAt (armOne s c k) ⟨c, k⟩ = some rg1 ∧ rg1.inv = some i ∧ i.entry = e := by
  obtain ⟨rg3, i, hid, hinv, hent, heq⟩ := armOne_kept ha hr
  dsimp only
  rw [heq, seqAt_setSeq, sectAt_setSect_same _ _ _ hk]
  refine ⟨rfl, rfl, rfl, rg3, i, ?_, hinv, hent⟩
  exact regionAt_setRegion hr (hid.trans (regionAt_id hr))

end Arming

/-- Settles O45. -/
theorem entriesAgeAreInstalledAndArmed : Obligations.EntriesAgeAreInstalledAndArmed := by
  unfold Obligations.EntriesAgeAreInstalledAndArmed
  refine ⟨?allocate, ?entry, ?context, ?install, ?live, ?done, ?arm, fun s c k e t rg hk ha hr => armOne_law hk ha hr⟩
  case allocate =>
    intro s p v
    refine ⟨rfl, ?_⟩
    show execPwbudWrite p v s = _
    unfold execPwbudWrite
    rw [bitsOf_low]
  case entry =>
    intro s p k w hw
    show execEntryAging p k s = _
    unfold execEntryAging
    rw [hw]
  case context =>
    intro s c q t hst ht hlate
    exact if_pos (by simp only [Bool.and_eq_true, beq_iff_eq, bne_iff_ne, decide_eq_true_eq]; exact ⟨⟨hst, ht⟩, hlate⟩)
  case install =>
    intro s r rg f ls hr hf hc hfor he hls s1
    show execConfigInstall r s = _
    unfold execConfigInstall
    rw [hr]
    dsimp only
    rw [hf]
    dsimp only
    rw [if_neg (by rw [hc, hfor]; decide), he, hls]
  case live =>
    intro s rg f ls hback rg1 us t
    unfold goLive
    dsimp only
    rw [hback]
  case done =>
    intro s r q x lays hk
    unfold installDone
    dsimp only
    rw [show (sectAt (seqAt s r.seq) r.sect).kept = none from hk]
    simp only [Option.isSome_none, Bool.false_and, Bool.false_eq_true, if_false]
    rw [show ({ sectAt (seqAt s r.seq) r.sect with layouts := _, kept := none, streams := _ } : SectCtx) =
      { x with layouts := lays, streams := x.streams.map fun y => (y.1, true) } by rw [← hk]]
  case arm =>
    intro s c k i q hi hg hq ha hf
    rw [invocationArm_alone hi hg hq ha hf]
    exact ⟨fun hd => by rw [hd]; rfl, fun hd => by rw [hd]; rfl⟩

/-! ### Cuts and resumes (R338 to R346) -/

section Cuts
variable {s : State}

/-- The state with PRECTL's fields set. -/
def prectlSet (s : State) (p : Nat) (v : BitVec 64) : State :=
  setPart s p { partAt s p with preN := BitVec.ofNat 5 v.toNat, preS := BitVec.ofNat 16 (v.toNat / 2 ^ 16) }

/-- The region that it names. -/
def prectlRegion (s : State) (p : Nat) (v : BitVec 64) : Option Region :=
  regionAt (prectlSet s p v) ⟨⟨p, v.toNat % 32⟩, v.toNat / 2 ^ 16 % 2 ^ 16⟩

/-- A GO for a section with no region does nothing more. -/
theorem prectlGo_nowhere {p : Nat} {v : BitVec 64} (hv : v.getLsbD 63 = true) (hb : (partAt s p).preBusy = false) (hr : prectlRegion s p v = none) :
    exec (.prectlGo p v) s = .next (prectlSet s p v) := by
  unfold prectlRegion prectlSet at hr
  show execPrectlGo p v s = _
  unfold execPrectlGo prectlSet
  dsimp only
  rw [if_neg (by simp [hv]), if_neg (by simp [hb]), hr]

/-- A GO for a section in its region is the host's cut of it. -/
theorem prectlGo_cuts {p : Nat} {v : BitVec 64} {rg : Region} (hv : v.getLsbD 63 = true) (hb : (partAt s p).preBusy = false)
    (hr : prectlRegion s p v = some rg) : exec (.prectlGo p v) s = .next (hostCut s (prectlSet s p v) p rg) := by
  unfold prectlRegion prectlSet at hr
  show execPrectlGo p v s = _
  unfold execPrectlGo prectlSet
  dsimp only
  rw [if_neg (by simp [hv]), if_neg (by simp [hb]), hr]

section HostCut
variable {s0 : State} {p : Nat} {rg : Region} (hf : rg.frozen = none) (hd : rg.detected = none) (hi : rg.inv.isSome = true) (hc : rg.cut = none)
include hf hd hi hc

/-- The host's cut of a region that runs an invocation and is not being cut: refused where its save does not fit. -/
theorem hostCut_refused (ht : tryCut s0 rg false = none) : hostCut s s0 p rg = countRefused s0 p := by
  have hi0 : rg.inv.isNone = false := by cases h : rg.inv <;> simp_all
  unfold hostCut
  simp only [hc, hf, hd, hi0, ht, Option.any_none, Option.isSome_none, Bool.or_self, Bool.false_eq_true, if_false]

/-- And begun where it fits. -/
theorem hostCut_begins {t : State} (ht : tryCut s0 rg false = some t) :
    hostCut s s0 p rg = setPart t p { partAt t p with preBusy := true, preFor := some rg.id } := by
  have hi0 : rg.inv.isNone = false := by cases h : rg.inv <;> simp_all
  unfold hostCut
  simp only [hc, hf, hd, hi0, ht, Option.any_none, Option.isSome_none, Bool.or_self, Bool.false_eq_true, if_false]

end HostCut

/-- A notice that has waited for T_pf cuts its region. -/
theorem tPfExpiry_cuts {p : Nat} {seq : BitVec 32} {n : Notice} {rg : Region} {t : State}
    (hn : ((partAt s p).notices.find? fun n => n.nseq == seq) = some n) (hlate : (partAt s p).pflim.toNat * cyclesPerUs ≤ s.cycle.toNat - n.since)
    (hres : n.resumed = false) (hr : (noticeRegion n).bind (regionAt s) = some rg) (hf : rg.frozen = none) (hd : rg.detected = none)
    (hi : rg.inv.isSome = true) (hc : rg.cut = none) (ht : tryCut s rg true = some t) : exec (.tPfExpiry p seq) s = .next t := by
  have hi0 : rg.inv.isNone = false := by cases h : rg.inv <;> simp_all
  show execTPfExpiry p seq s = _
  unfold execTPfExpiry
  dsimp only
  rw [hn]
  dsimp only
  rw [if_neg (by rw [hres, Bool.false_or, decide_eq_true_eq]; exact Nat.not_lt.mpr hlate), hr]
  dsimp only
  rw [if_neg (by rw [hf, hd, hi0]; decide), hc]
  dsimp only
  rw [ht]

end Cuts

/-- Settles O46. -/
theorem invocationsAreSavedAndResumed : Obligations.InvocationsAreSavedAndResumed := by
  unfold Obligations.InvocationsAreSavedAndResumed
  refine ⟨?prectl, ?preempt, ?pageFault, ?cut, ?resume⟩
  case prectl =>
    intro s p v x s0 at_
    refine ⟨fun hv => ?_, fun hv hb => ?_, fun hv hb hr => prectlGo_nowhere hv hb hr, fun rg hv hb hr hf hd hi hc => ?_⟩
    · exact if_pos (by rw [hv]; rfl)
    · show execPrectlGo p v s = _
      unfold execPrectlGo
      dsimp only
      rw [if_neg (by simp [hv]), if_pos hb]
    · rw [prectlGo_cuts hv hb hr]
      exact ⟨fun t ht => congrArg _ (hostCut_begins hf hd hi hc ht), fun ht => congrArg _ (hostCut_refused hf hd hi hc ht)⟩
  case preempt =>
    intro s p w l rg x hw hen hp ht hy
    have hx : exec (.schedulerPreempt p) s = execSchedulerPreempt p s := rfl
    unfold execSchedulerPreempt at hx
    dsimp only at hx
    rw [hw] at hx
    dsimp only at hx
    rw [if_neg (show ¬ (!(partAt s p).pren || w.e.prio != 3) = true by simp [show (partAt s p).pren = true from hen, hp]), ht] at hx
    dsimp only at hx
    rw [hy] at hx
    dsimp only at hx
    rw [hx]
    refine ⟨fun t hc hcut => ?_, fun hc hcut => ?_, fun c hc hin => ?_⟩
    · rw [hc, if_neg (by decide), Option.any_none, hcut]
    · rw [hc, if_neg (by decide), Option.any_none, hcut]
    · rw [hc, if_pos (by simp [hin])]
  case pageFault =>
    intro s p seq n rg t x hn hlate hres hr hf hd hi hc ht
    exact tPfExpiry_cuts hn hlate hres hr hf hd hi hc ht
  case cut =>
    intro s r rg c hr hc hf hd
    refine ⟨fun hdone => ?_, fun hin hforced hlate => ?_⟩
    · show execCutComplete r s = _
      unfold execCutComplete
      rw [hr]
      dsimp only
      rw [hc]
      dsimp only
      rw [if_pos (by rw [hf, hd, hdone]; decide)]
    · have hx : exec (.tCutExpiry r) s = if cutDone s rg c then .next (saveRegion s r) else .next (forceCut s r) := by
        show execTCutExpiry r s = _
        unfold execTCutExpiry
        rw [hr]
        dsimp only
        rw [hc]
        dsimp only
        rw [if_neg]
        rw [hf, hd, hin, hforced]
        simpa using hlate
      rw [hx]
      exact ⟨fun h => if_pos h, fun h => if_neg (by simp [h])⟩
  case resume =>
    intro s c k old place i ls r q x hs hr hi hinst hp hfree hls w rg s1
    have hx : exec (.invocationResume c k) s =
        if saveIntact s r then .next (windowsBack s1 rg) else .next (faultRegion s1 r (originFault clsCfg 0x40)) := by
      show execInvocationResume c k s = _
      unfold execInvocationResume
      dsimp only
      rw [show (sectAt (seqAt s c) k).saved = some old from hs, show regionAt s ⟨c, k⟩ = some place from hr, show (seqAt s c).image = some i from hi]
      dsimp only
      rw [if_neg (by simp [hinst, show (sectAt (seqAt s c) k).placed = true from hp, show seqFree (seqAt s c) i k = true from hfree]), hls]
    rw [hx]
    exact ⟨fun h => if_pos h, fun h => if_neg (by simp [h])⟩

end Sys2Proof.Proofs
end

