-- ==== Sys2Proof/Proofs/RegionEvents.lean ====
section
/-! SUPPORT. What happens to regions: reuse and rebalancing (R269, R298, R311 to R326, R366 to R371), faults (R117, R349 to R361). -/

namespace Sys2Proof.Proofs
open Machine Laws

/-! ### Reuse, retirement, windows, commits -/

/-- Settles O47. -/
theorem invocationsAreReusedRetiredRebalanced : Obligations.InvocationsAreReusedRetiredRebalanced := by
  unfold Obligations.InvocationsAreReusedRetiredRebalanced
  refine ⟨?lookup, ?hit, ?retire, fun s p v => ⟨rfl, rfl, rfl⟩, ?window, ?commit, fun s p => rfl⟩
  case lookup =>
    intro s r rg p k hr hp hrun hc hl hk
    show execAgateLookup r s = _
    unfold execAgateLookup
    rw [hr]
    dsimp only
    rw [hp]
    dsimp only
    rw [if_neg (by rw [hrun, hc]; decide), if_neg (by simp [hl]), hk]
  case hit =>
    intro s r rg p hr hp hrun hc hl hh hcopy hw hlt
    show execAgateLookup r s = _
    unfold execAgateLookup
    rw [hr]
    dsimp only
    rw [hp]
    dsimp only
    rw [if_neg (by rw [hrun, hc]; decide), if_pos hl, if_pos (by rw [hh, hcopy, hw]; simpa using hlt)]
  case retire =>
    intro s r rg i hr hi hret
    show execInvocationRetire r s = _
    unfold execInvocationRetire
    rw [hr]
    dsimp only
    rw [hi]
    exact if_pos hret
  case window =>
    intro s r rg i hr hi hrun hreb w hlate rg1 p lays
    have hx : exec (.windowEnd r) s = execWindowEnd r s := rfl
    unfold execWindowEnd at hx
    rw [hr] at hx
    dsimp only at hx
    rw [hi] at hx
    dsimp only at hx
    have hdue : ¬ (!rg.running || rg.reb == 0 || decide (s.cycle.toNat < i.windowStart + windowLen rg.modeWord)) = true := by
      rw [hrun, Bool.not_true, Bool.false_or, Bool.or_eq_true, beq_iff_eq, decide_eq_true_eq, not_or]
      exact ⟨hreb, Nat.not_lt.mpr hlate⟩
    rw [if_neg hdue] at hx
    rw [hx]
    exact ⟨fun h => if_neg (by simpa using h), fun h => if_pos (by simpa using h)⟩
  case commit =>
    intro s r rg plan l hr hrun hcut hinv hlv
    have hx : exec (.commit r plan) s = execCommit r plan s := rfl
    unfold execCommit at hx
    rw [hr] at hx
    dsimp only at hx
    have hinv0 : rg.inv.isNone = false := by cases h : rg.inv <;> simp_all
    rw [if_neg (by rw [hrun, hcut, hinv0, hlv]; decide)] at hx
    rw [hx]
    refine ⟨fun hc hf hsusp => ?_, fun pl hc hf hready => ?_⟩
    · rw [hc]
      dsimp only
      rw [hf]
      dsimp only
      rw [if_neg (by simp [hsusp])]
      exact ⟨fun h => if_pos h, fun h hs => by rw [if_neg (by simp [h]), if_pos hs], fun h hs => by rw [if_neg (by simp [h]), if_neg (by simp [hs])]⟩
    · rw [hc]
      dsimp only
      rw [hf]
      exact if_pos hready

/-! ### Faults -/

section Grow
variable {s : State} {u : UnitId} {rg : Region} {w : NodeWord} {b : Beat}

/-- A PUSH that waits at a full extensible buffer asks for a chunk. -/
theorem grow_asks (hr : regionAt s u.reg = some rg) (hw : pushWord rg u = some w)
    (hb : (rg.portHeads u.off false u.ctx (portA w)).head? = some b) (hrun : rg.running = true) (hh : rg.isHalted 0 u.off u.ctx = false)
    (hext : (segDesc rg.plane u.off (segNo w)).ext = true) (hfull : (segAt (cellAt rg u.off) (segNo w)).space (segDesc rg.plane u.off (segNo w)) = 0) :
    exec (.streamBufferGrow u) s = .next (growBuffer s rg u (segNo w) (portA w) b) := by
  show execStreamBufferGrow u s = _
  rw [grow_run hr, hw]
  show growFor s rg u w = _
  unfold growFor
  dsimp only
  rw [hb]
  exact if_neg (by rw [hrun, hh, hext, hfull]; decide)

end Grow

/-- Settles O48. -/
theorem faultsFreezeAndRelease : Obligations.FaultsFreezeAndRelease := by
  unfold Obligations.FaultsFreezeAndRelease
  refine ⟨?grow, fun s r => rfl, ?record, ?hang, ?frctl, fun s p => rfl, fun s p => rfl, ?payload, fun s w => rfl, ?sideband, ?bank, ?plane, ?reassign⟩
  case grow =>
    intro s u rg w b hr hw hb hrun hh n d g hext hfull
    have hx : exec (.streamBufferGrow u) s = .next (growBuffer s rg u n (portA w) b) := grow_asks hr hw hb hrun hh hext hfull
    unfold growBuffer at hx
    rw [hx]
    refine ⟨fun k hk => ?_, fun k x hk hv ho hi => ?_, fun k m hk hv ho hi => ?_, fun hk hv => ?_, fun hk hv ho => ?_⟩
    · rw [hk]
    · rw [hk]
      dsimp only
      rw [if_neg hv, ho]
      dsimp only
      rw [hi]
    · rw [hk]
      dsimp only
      rw [if_neg hv, ho]
      dsimp only
      rw [hi]
    · rw [hk]
      dsimp only
      rw [if_pos hv]
    · rw [hk]
      dsimp only
      rw [if_neg hv, ho]
  case record =>
    intro s p x t s1 q hp hq s2
    have hx : exec (.faultRecordPendingWrite p) s = execFaultRecordPendingWrite p s := rfl
    unfold execFaultRecordPendingWrite at hx
    dsimp only at hx
    rw [hp] at hx
    dsimp only at hx
    rw [hq] at hx
    dsimp only at hx
    rw [hx]
    exact ⟨fun h => by rw [h], fun r h => by rw [h]⟩
  case hang =>
    intro s r rg hr hf h0 hlate
    show execHangTimeout r s = _
    unfold execHangTimeout
    rw [hr]
    dsimp only
    rw [if_neg]
    rw [hf, Option.isSome_none, Bool.false_or, Bool.or_eq_true, beq_iff_eq, decide_eq_true_eq, not_or]
    exact ⟨h0, Nat.not_lt.mpr hlate⟩
  case frctl =>
    intro s p v x hv r s1
    have hrel : exec (.frctlRelease p v) s = .next _ := frctl_release hv
    have hclr : exec (.frctlClear p v) s = .next _ := frctl_clear hv
    rw [hrel, hclr]
    refine ⟨fun hb => ⟨congrArg _ (if_pos hb), congrArg _ (if_pos hb)⟩, fun hb => ?_⟩
    have hnb : ¬ (partAt s p).frBusy = true := by simp [show (partAt s p).frBusy = false from hb]
    rw [if_neg hnb, if_neg hnb]
    refine ⟨fun h => congrArg _ (if_neg ?_), fun h => congrArg _ (if_neg ?_), fun h hw => congrArg _ ((if_pos h).trans (if_neg ?_)),
      fun h hw => congrArg _ ((if_pos h).trans (if_neg ?_)), fun h hw => congrArg _ ((if_pos h).trans (if_pos hw))⟩
    · exact fun e => absurd (h.symm.trans e) (by decide)
    · exact fun e => absurd (h.symm.trans e) (by decide)
    · exact fun e => absurd (hw.symm.trans e) (by decide)
    · exact fun e => absurd (hw.symm.trans e) (by decide)
  case payload =>
    intro s r k j rg hr
    show execSoftError (.beatPayload r k j) s = _
    unfold execSoftError
    dsimp only
    rw [hr]
  case sideband =>
    intro s r k j rg l b hr hl hb
    show execSoftError (.beatSideband r k j) s = _
    unfold execSoftError
    dsimp only
    rw [hr]
    dsimp only
    rw [hl, Option.bind_some, hb]
    rfl
  case bank =>
    intro s r o w rg hr hw hcol hcell c
    show execSoftError (.bankWord r o w) s = _
    unfold execSoftError
    dsimp only
    rw [hr]
    exact if_pos ⟨hw, hcol, hcell⟩
  case plane =>
    intro s r o rg hr hp unit
    have hp0 : (aget rg.plane (offKey o)).isNone = false := by cases h : aget rg.plane (offKey o) <;> simp_all
    show execSoftError (.planeField r o) s = _
    unfold execSoftError
    dsimp only
    rw [hr]
    dsimp only
    rw [hp0]
    simp only [Bool.false_eq_true, if_false, unit]
    cases rg.hardCol o.dx <;> rfl
  case reassign =>
    intro s p
    refine ⟨fun hs hr => ?_, fun hs hr hb => ?_⟩ <;> show execBankReassign p s = _ <;> unfold execBankReassign
    · rw [if_pos hs, hr]
      rfl
    · rw [if_neg (by simp only [hs]; decide), if_neg (by rw [hr, hb]; decide)]

end Sys2Proof.Proofs
end

