-- ==== Sys2Proof/Proofs/HostEvents.lean ====
section
/-! SUPPORT. The mailbox commands, register writes and the reset of the device (O49); what the host and other modules do over the
CXL and Slaundene ports (O50). -/

namespace Sys2Proof.Proofs

open Machine Laws

/-! ### Mailbox commands -/

/-- A command that runs passes the check that ignores the others. -/
theorem mail_passes {s : State} {code : BitVec 8} (hrun : mailRuns s code = true) : ¬ (!mailRuns s code) = true := by
  rw [hrun]
  decide

theorem exec_shape {s : State} {d shape : Nat} (hrun : mailRuns s 1 = true) (hd : d < 4) (hshape : shape < 3)
    (hbusy : dieBusy s d = false) (hfw : s.fwStat = 0) :
    exec (.shape d shape) s = .next (mailDone (record (shapeDie s d shape) 2
      [BitVec.ofNat 8 d, BitVec.ofNat 8 shape, (shapeDie s d shape).pmap]) 0) := by
  show execShape d shape s = _
  unfold execShape
  rw [if_neg (mail_passes hrun), if_neg (by omega), if_neg (by simp [hbusy, hfw])]

theorem exec_bind {s : State} {slot : Nat} {mask : BitVec 8} {blob : List Byte} (hrun : mailRuns s 2 = true) (hslot : slot < 64)
    (hlen : blob.length = 200) (hshaped : (maskParts mask).any (fun p => (partAt s p).shape == 0) = false)
    (hempty : (s.slots.getD slot {}).st = .empty) (hfree : (maskParts mask).any (fun p => (partAt s p).slot.isSome) = false) :
    (openBlob blob = none → exec (.bind slot mask blob) s = .next (mailDone s 2)) ∧
    (∀ plain, openBlob blob = some plain → exec (.bind slot mask blob) s =
      .next (mailDone (record (bindSlot s slot mask (slotOfBlob plain (s.bindings + 1))) 3
        (BitVec.ofNat 8 slot :: (slotOfBlob plain (s.bindings + 1)).tenant ++
          [BitVec.ofNat 8 (slotOfBlob plain (s.bindings + 1)).tdn])) 0)) := by
  have hargs : ¬ (64 ≤ slot ∨ blob.length ≠ 200 ∨ (maskParts mask).any (fun p => (partAt s p).shape == 0) = true) := by
    rw [hshaped]
    exact not_or.mpr ⟨Nat.not_le.mpr hslot, not_or.mpr ⟨Classical.not_not.mpr hlen, Bool.false_ne_true⟩⟩
  have hx : exec (.bind slot mask blob) s = execBind slot mask blob s := rfl
  unfold execBind at hx
  rw [if_neg (mail_passes hrun), if_neg hargs, if_neg (by rw [hempty, hfree]; decide)] at hx
  refine ⟨fun h => ?_, fun plain h => ?_⟩ <;> rw [hx, h]

theorem exec_revoke {s : State} {k : Nat} {x : KeySlot} (hrun : mailRuns s 3 = true) (hother : revokesOther s k = false)
    (hslot : s.slots[k]? = some x) : exec (.revoke k) s = .next (revokeSlot s k x) := by
  show execRevoke k s = _
  unfold execRevoke
  rw [if_neg (by rw [hrun, hother]; decide), hslot]

theorem exec_quote {s : State} {nonce : List Byte} (hrun : mailRuns s 4 = true) (hlen : nonce.length = 32) :
    exec (.quote nonce) s = .next (mailDone (devWrite
      { s with mbOut := (List.range 114).map (Config.ed448Sign (quoteBytes s nonce)) ++ s.measure } 0 (hostKey s.mbAddr)
      ((List.range 114).map (Config.ed448Sign (quoteBytes s nonce)) ++ s.measure) false) 0) := by
  show execQuote nonce s = _
  unfold execQuote
  rw [if_neg (mail_passes hrun), if_neg (by simp [hlen])]

theorem exec_domset {s : State} {mid size : Nat} (hrun : mailRuns s 5 = true) (hpos : 0 < size) (hmax : size ≤ 64) (hmid : mid < size)
    (hshaped : s.shaped = false) : exec (.domset mid size) s = .next (mailDone { s with modId := mid, domSize := size } 0) := by
  show execDomset mid size s = _
  unfold execDomset
  rw [if_neg (mail_passes hrun), if_neg (by omega), if_neg (by simp [hshaped])]

theorem exec_cxlmap_first {s : State} {p port off len : Nat} (hrun : mailRuns s 6 = true) (hport : port < 2)
    (hshape : (partAt s p).shape ≠ 0) (hcap : (off + len) * gib ≤ s.cxlCap.getD port 0) (hmap : s.cxlMap = []) :
    exec (.cxlmap p port off len) s = .next (mailDone { s with cxlMap := [⟨p, port, off * gib, len * gib⟩] } 0) := by
  have hfits : ¬ s.cxlCap.getD port 0 < off * gib + len * gib := by
    rw [← Nat.add_mul]
    exact Nat.not_lt.mpr hcap
  show execCxlmap p port off len s = _
  unfold execCxlmap
  dsimp only
  rw [hmap, if_neg (mail_passes hrun), if_neg (by omega), if_neg (by rw [decide_eq_false hfits]; exact Bool.false_ne_true), List.nil_append]

/-! ### The reset -/

/-- What outlives a reset, or is at its value of reset, whatever the firmware. -/
structure ResetKeeps (s t : State) : Prop where
  mem : t.mem = s.mem
  fseq : t.fseq = s.fseq
  regions : t.regions = []
  seqs : t.seqs = []
  reqs : t.reqs = []
  slots : t.slots = List.replicate 64 {}
  pmap : t.pmap = 0
  cycle : t.cycle = 0
  romDigest : t.romDigest = s.romDigest
  fusedVersion : t.fusedVersion = s.fusedVersion

theorem exec_deviceReset (s : State) (fw : Firmware) : ∃ t, exec (.deviceReset fw) s = .next t ∧ ResetKeeps s t ∧
    t.fwStat = (if Config.fwVerify s.romDigest fw.image fw.sig = false then 1 else if fw.version < s.fusedVersion then 2 else 0) := by
  have hx : exec (.deviceReset fw) s = execDeviceReset fw s := rfl
  unfold execDeviceReset at hx
  by_cases hv : Config.fwVerify s.romDigest fw.image fw.sig = false
  · rw [if_pos (by rw [hv]; rfl)] at hx
    exact ⟨_, hx, ⟨rfl, rfl, rfl, rfl, rfl, rfl, rfl, rfl, rfl, rfl⟩, (if_pos hv).symm⟩
  · rw [if_neg (by simpa using hv)] at hx
    by_cases hold : fw.version < s.fusedVersion
    · rw [if_pos hold] at hx
      exact ⟨_, hx, ⟨rfl, rfl, rfl, rfl, rfl, rfl, rfl, rfl, rfl, rfl⟩, ((if_neg hv).trans (if_pos hold)).symm⟩
    · rw [if_neg hold] at hx
      exact ⟨_, hx, ⟨rfl, rfl, rfl, rfl, rfl, rfl, rfl, rfl, rfl, rfl⟩, ((if_neg hv).trans (if_neg hold)).symm⟩

/-! ### Register writes -/

theorem exec_registerWrite_page {s : State} {p : Nat} (off : Nat) (v : BitVec 64) (hp : p < 8) (hfw : s.fwStat = 0) :
    exec (.registerWrite p off v) s = .next (writePage s p off v) := by
  show execRegisterWrite p off v s = _
  unfold execRegisterWrite
  rw [if_neg (by omega), if_neg (not_or.mpr ⟨by omega, Classical.not_not.mpr hfw⟩)]

theorem exec_registerWrite_unverified {s : State} {p : Nat} (off : Nat) (v : BitVec 64) (hp : p < 8) (hfw : s.fwStat ≠ 0) :
    exec (.registerWrite p off v) s = .next s := by
  show execRegisterWrite p off v s = _
  unfold execRegisterWrite
  rw [if_neg (by omega), if_pos (.inr hfw)]

theorem exec_registerWrite_device (s : State) (off : Nat) (v : BitVec 64) :
    exec (.registerWrite 8 off v) s = .next (writeDevice s off v) := rfl

/-- What a write to MBCMD does, up to the codes that no command has. -/
theorem writeDevice_mbcmd (s : State) (v : BitVec 64) :
    (v.getLsbD 63 = false → writeDevice s 0x020 v = { s with mbCmd := v.setWidth 8 }) ∧
    (v.getLsbD 63 = true → s.mbBusy = true → writeDevice s 0x020 v = s) ∧
    (v.getLsbD 63 = true → s.mbBusy = false → 1 ≤ (v.setWidth 8).toNat → (v.setWidth 8).toNat ≤ 6 →
      writeDevice s 0x020 v = { s with mbCmd := v.setWidth 8, mbRun := v.setWidth 8, mbBusy := true, mbDone := false }) := by
  have hgo (h : v.getLsbD 63 = true) : ¬ (!v.getLsbD 63) = true := by rw [h]; decide
  have hidle (h : s.mbBusy = false) : ¬ s.mbBusy = true := by rw [h]; decide
  exact ⟨fun h => if_pos (by rw [h]; decide), fun h hb => (if_neg (hgo h)).trans (if_pos hb),
    fun h hb h1 h6 => (if_neg (hgo h)).trans ((if_neg (hidle hb)).trans (if_pos ⟨h1, h6⟩))⟩

/-- Settles O49: each command by the checks it passes; a register write by the arm of its offset; the reset keeps its fields in
each of the three outcomes of the firmware check. -/
theorem mailboxAndRegistersAct : Obligations.MailboxAndRegistersAct := by
  unfold Obligations.MailboxAndRegistersAct
  refine ⟨?shape, ?bind, ?revoke, ?quote, ?domset, ?cxlmap, fun _ => rfl, ?reset, ?page, ?mbcmd, ?unverified⟩
  case shape =>
    intro s d shape hrun hd hshape hbusy hfw s1
    exact exec_shape hrun hd hshape hbusy hfw
  case bind =>
    intro s slot mask blob hrun hslot hlen hshaped hempty hfree
    obtain ⟨hnone, hsome⟩ := exec_bind hrun hslot hlen hshaped hempty hfree
    cases h : openBlob blob with
    | none => exact hnone h
    | some plain => exact hsome plain h
  case revoke =>
    intro s k x hrun hother hslot
    rw [exec_revoke hrun hother hslot]
    unfold revokeSlot
    refine ⟨fun h => ?_, fun h => ?_, fun h hw => ?_, fun h hw => ?_⟩ <;> rw [h] <;> dsimp only
    · rw [if_pos hw]
    · rw [if_neg (by rw [hw]; exact Bool.false_ne_true)]
  case quote =>
    intro s nonce hrun hlen out
    exact exec_quote hrun hlen
  case domset =>
    intro s mid size hrun hpos hmax hmid hshaped
    exact exec_domset hrun hpos hmax hmid hshaped
  case cxlmap =>
    intro s p port off len hrun hport hshape hcap hmap
    exact exec_cxlmap_first hrun hport hshape hcap hmap
  case reset =>
    intro s fw
    obtain ⟨t, ht, hkeep, hstat⟩ := exec_deviceReset s fw
    exact ⟨t, ht, hkeep.mem, hkeep.fseq, hkeep.regions, hkeep.seqs, hkeep.reqs, hkeep.slots, hkeep.pmap, hkeep.cycle,
      hkeep.romDigest, hkeep.fusedVersion, hstat⟩
  case page =>
    intro s p v hp hfw
    refine ⟨?_, ?_, ?_, ?_, ?_, ?_, rfl⟩ <;> exact exec_registerWrite_page _ v hp hfw
  case mbcmd =>
    intro s v c
    obtain ⟨hset, hwait, hgo⟩ := writeDevice_mbcmd s v
    rw [exec_registerWrite_device]
    exact ⟨fun h => congrArg _ (hset h), fun h hb => congrArg _ (hwait h hb), fun h hb h1 h6 => congrArg _ (hgo h hb h1 h6)⟩
  case unverified =>
    intro s p off v hp hfw
    exact exec_registerWrite_unverified off v hp hfw

/-! ### The host -/

theorem exec_hostMemAccess_out {s : State} {off : Nat} (h : 768 * gib ≤ off) :
    (∀ n, exec (.hostMemAccess off (.read n)) s = .fault .hdmOutOfRange) ∧
    (∀ bs pois, exec (.hostMemAccess off (.write bs pois)) s = .fault .hdmOutOfRange) ∧
    (∀ n, exec (.hostMemAccess off (.load n)) s = .fault .hdmOutOfRange) ∧
    exec (.hostMemAccess off .drop) s = .fault .hdmOutOfRange :=
  ⟨fun _ => if_pos h, fun _ _ => if_pos h, fun _ => if_pos h, if_pos h⟩

theorem exec_hostMemAccess_in {s : State} {off : Nat} (h : off < 768 * gib) :
    (∀ n, exec (.hostMemAccess off (.read n)) s = .next (hdmAccess s off (.read n))) ∧
    (∀ bs pois, exec (.hostMemAccess off (.write bs pois)) s = .next (hdmAccess s off (.write bs pois))) ∧
    (∀ n, exec (.hostMemAccess off (.load n)) s = .next (hdmAccess s off (.load n))) ∧
    exec (.hostMemAccess off .drop) s = .next (hostDrop s off 1) :=
  have hn : ¬ 768 * gib ≤ off := Nat.not_le.mpr h
  ⟨fun _ => if_neg hn, fun _ _ => if_neg hn, fun _ => if_neg hn, if_neg hn⟩

theorem hdmAccess_load_held {s : State} {off : Nat} (n : Nat) {bs : List Byte} {p : Bool}
    (h : (s.hostHeld.find? fun x => x.1 == off / 256) = some (off / 256, bs, p)) :
    hdmAccess s off (.load n) = hostAnswer s off ((bs.drop (off % 256)).take n) p := by
  unfold hdmAccess
  dsimp only
  rw [h]

/-! ### Slaundene ports -/

theorem exec_linkFlitReceive_taken {s : State} {port : Nat} {f : LinkFlit} {x : SPort} (hx : s.sports[port]? = some x)
    (hrun : x.stopped = false) (hseq : f.seq = x.recvSeq) (htyp : f.typ.toNat < 5) :
    exec (.linkFlitReceive port f true) s = .next (takeFlit { s with sports := lmod s.sports port (SPort.took f) } port f) := by
  show execLinkFlitReceive port f true s = _
  unfold execLinkFlitReceive
  rw [hx]
  dsimp only
  rw [if_neg (by simp [hrun]), if_pos (by simp [hseq, htyp])]

theorem exec_linkFlitReceive_refused {s : State} {port : Nat} {f : LinkFlit} {x : SPort} (hx : s.sports[port]? = some x)
    (hrun : x.stopped = false) (hfew : x.refused + 1 < 8) :
    exec (.linkFlitReceive port f false) s =
      .next { s with sports := lmod s.sports port fun x => { x with refused := x.refused + 1 } } := by
  show execLinkFlitReceive port f false s = _
  unfold execLinkFlitReceive
  rw [hx]
  dsimp only
  rw [if_neg (by simp [hrun]), if_neg (by simp), if_pos hfew]

section
variable {s : State} {port : Nat} {q : RemoteReq} {x : SPort}

/-- A port that runs serves a remote request. -/
theorem port_serves (hx : s.sports[port]? = some x) (hrun : x.stopped = false) : ¬ (s.sports[port]?).all (·.stopped) = true := by
  rw [hx]
  simp [hrun]

theorem exec_remoteAccessRequest_error (hx : s.sports[port]? = some x) (hrun : x.stopped = false) {st : Nat}
    (ho : remoteOwner s q = .error st) : exec (.remoteAccessRequest port q) s = .next (respond s port q.tag [] st) := by
  show execRemoteAccessRequest port q s = _
  unfold execRemoteAccessRequest
  rw [if_neg (port_serves hx hrun), ho]

theorem exec_remoteAccessRequest_write (hx : s.sports[port]? = some x) (hrun : x.stopped = false) {p : Nat} {bs : List Byte}
    (ho : remoteOwner s q = .ok p) (hw : q.write = some bs) : exec (.remoteAccessRequest port q) s =
      .next (respond (devWrite s (partBinding s p) (dramKey q.die q.addr) bs q.poison) port q.tag [] 0) := by
  show execRemoteAccessRequest port q s = _
  unfold execRemoteAccessRequest
  rw [if_neg (port_serves hx hrun), ho]
  dsimp only
  rw [hw]

theorem exec_remoteAccessRequest_read (hx : s.sports[port]? = some x) (hrun : x.stopped = false) {p : Nat}
    (ho : remoteOwner s q = .ok p) (hw : q.write = none) (ha : q.amo = none) : exec (.remoteAccessRequest port q) s =
      .next (respond s port q.tag (devRead s (partBinding s p) (dramKey q.die q.addr) q.len).1
        (if (devRead s (partBinding s p) (dramKey q.die q.addr) q.len).2 then 2 else 0)) := by
  show execRemoteAccessRequest port q s = _
  unfold execRemoteAccessRequest
  rw [if_neg (port_serves hx hrun), ho]
  dsimp only
  rw [hw, ha]

end

theorem exec_linkRetrain_bridge {s : State} {port : Nat} (hport : port < 8) (hstop : (bridgeAt s port).stopped = true)
    (hfree : (bridgeAt s port).faulted = []) :
    exec (.linkRetrain port) s = .next (setBridge s port { retries := (bridgeAt s port).retries }) := by
  show execLinkRetrain port s = _
  unfold execLinkRetrain
  rw [if_pos hport]
  dsimp only
  rw [if_neg (by rw [hstop, hfree]; decide)]

/-- Settles O50: a host access by its range, its right and its kind; a flit or request by the state of its port. -/
theorem hostAndModulesReachMemory : Obligations.HostAndModulesReachMemory := by
  unfold Obligations.HostAndModulesReachMemory
  refine ⟨?out, ?inside, fun _ _ _ _ _ => ⟨rfl, rfl, rfl⟩, fun _ _ => rfl, ?flit, ?remote, ?retrain⟩
  case out =>
    intro s off n bs h
    obtain ⟨hread, hwrite, hload, hdrop⟩ := exec_hostMemAccess_out (s := s) h
    exact ⟨hread n, hwrite bs, hload n, hdrop⟩
  case inside =>
    intro s off h d a o b
    obtain ⟨hread, hwrite, hload, hdrop⟩ := exec_hostMemAccess_in (s := s) h
    refine ⟨fun n => ?_, fun bs pois => ?_, fun n bs p hheld => ?_, hdrop⟩
    · rw [hread]
      exact ⟨fun hr => congrArg _ (if_neg (by simp [o, a, d] at hr; simp [hr])), fun hr => congrArg _ (if_pos hr)⟩
    · rw [hwrite]
      exact ⟨fun hr => congrArg _ (if_neg (by simp [o, a, d] at hr; simp [hr])), fun hr => congrArg _ (if_pos hr)⟩
    · rw [hload, hdmAccess_load_held n hheld]
  case flit =>
    intro s port f x hx hrun
    exact ⟨fun hseq htyp => exec_linkFlitReceive_taken hx hrun hseq htyp, fun hfew => exec_linkFlitReceive_refused hx hrun hfew⟩
  case remote =>
    intro s port q x hx hrun
    exact ⟨fun st ho => exec_remoteAccessRequest_error hx hrun ho, fun p bs ho hw => exec_remoteAccessRequest_write hx hrun ho hw,
      fun p ho hw ha => exec_remoteAccessRequest_read hx hrun ho hw ha⟩
  case retrain =>
    intro s port hport hstop hfree
    exact exec_linkRetrain_bridge hport hstop hfree

end Sys2Proof.Proofs
end
